-- ==== Sys2Proof/Word.lean ====
section
/-! DEFINITION. The word types of the machine (R3, R6): bytes, 64-bit scalars, and raw encoded words, which are plain
numbers whose bit 0 is the least significant bit. -/

namespace Sys2Proof

/-- One byte of memory. -/
abbrev Byte := BitVec 8

/-- A scalar register or a control register (R6). -/
abbrev Word := BitVec 64

/-- An encoded word of a bundle, as a number: 32 bits for the header and the S, B, W0 and W1 slots, 64 for E and M (R28). -/
abbrev Code := Nat

end Sys2Proof
end

