-- ==== Sys2Proof/Syntax.lean ====
section
/-! DEFINITION. The instructions: one constructor of `Instr` for each row of spec/opcode_table.json, in the table's order.
S and B operations carry decoded operands (R31 to R34), E commands the fields of R35, wave operations their raw fields
(R36 to R38), because a cell, not the decoder, finds an illegal wave encoding (R29). The rows that are steps of the part
and not words of a program carry the data that says which step is meant. -/

namespace Sys2Proof

/-- A 6-bit scalar operand field (R7): 0 to 47 name s0 to s47 and 48 to 63 name q0 to q15. -/
inductive Opnd where
  | s (n : Fin 48)
  | q (n : Fin 16)
  deriving DecidableEq, Repr

/-- The fields of an E-slot word pair besides OP (R35). -/
structure Cmd where
  kp : BitVec 6
  kc0 : BitVec 6
  kc1 : BitVec 6
  kc2 : BitVec 6
  te : Bool
  p0 : Opnd
  p1 : Opnd
  p2 : Opnd
  p3 : Opnd
  efn : BitVec 8
  deriving DecidableEq, Repr

/-- The fields of a W0 word besides OP (R36). -/
structure W0 where
  d : BitVec 5
  a : BitVec 5
  b : BitVec 5
  typ : BitVec 6
  var : BitVec 5
  deriving DecidableEq, Repr

/-- The store layout of a W1 word besides OP (R37). -/
structure W1Store where
  d : BitVec 5
  off : BitVec 11
  step : BitVec 7
  lat : BitVec 4
  deriving DecidableEq, Repr

/-- The move layout of a W1 word besides OP (R37). -/
structure W1Move where
  d : BitVec 5
  a : BitVec 5
  ctl : BitVec 17
  deriving DecidableEq, Repr

/-- The fields of an M word pair besides OP (R38). -/
structure MOp where
  acc : BitVec 3
  asrc : BitVec 4
  bsrc : BitVec 4
  afmt : BitVec 6
  bfmt : BitVec 6
  nmm : BitVec 2
  nm1 : BitVec 5
  kblk : BitVec 3
  lat : BitVec 6
  arow : BitVec 8
  brow : BitVec 8
  step : BitVec 4
  deriving DecidableEq, Repr

/-- A unit of the part that KYCAP counts and that bring-up may mark absent (R396, R398): an array, a Kyorad link, or the compressor. -/
inductive PartUnit where
  | array (a : Nat)
  | link (n : Nat)
  | compressor
  deriving DecidableEq, Repr

/-- What an uncorrectable error strikes (R320 to R322, R347, R369, R403). -/
inductive ErrUnit where
  /-- The 32-byte sector that holds byte `key` of L1, die SRAM, L2, the memory-side cache or HBM4. -/
  | sector (key : Nat)
  /-- The 32-byte sector of die SRAM that holds byte `off` of the partition of the context on turn. -/
  | scratch (off : Nat)
  /-- Sector `i` of software-managed line `n` in a cache. -/
  | cached (n i : Nat)
  /-- The size code of the 128-byte block that holds byte `key` (R186). -/
  | sizeCode (key : Nat)
  /-- 8-byte word `w` of vector register `v` of cell `cell` of the context on turn. -/
  | vec (cell v w : Nat)
  /-- 8-byte word `w` of tile register `m`. -/
  | tile (cell m w : Nat)
  /-- 8-byte word `w` of the cell-store partition. -/
  | store (cell w : Nat)
  /-- 8-byte word `w` of mask register `g`. -/
  | mask (cell g w : Nat)
  /-- The cell flag. -/
  | flag (cell : Nat)
  /-- 8-byte word `w` of the data part of xh or xv (`vert`). -/
  | chunk (cell : Nat) (vert : Bool) (w : Nat)
  /-- 8-byte word `w` of the META bits of side part `vert` (false xh, true xv) of a cell: sparsity or scale metadata (R164). -/
  | metadata (cell : Nat) (vert : Bool) (w : Nat)
  /-- A zero-map flag (R191). -/
  | zflag (tile : Nat)
  /-- A scalar register, the loop stack, the condition queue, a ticket or a stream buffer of the context on turn (R322). -/
  | sequencer
  /-- A holder's token count or owner bit for a line (R369). -/
  | tokens (line : Nat)
  /-- The management controller's own state (R403). -/
  | controller
  /-- The data of token message `n` in flight (R347). -/
  | message (n : Nat)
  /-- The bytes of write-back `n` in flight (R347). -/
  | writeBack (n : Nat)
  /-- A unit that has failed for good: the next bring-up marks it absent (R398). -/
  | unit (u : PartUnit)
  deriving DecidableEq, Repr

/-- A link that can be taken out of service: between two memory dies (R347) or to another module (R397). -/
inductive LinkId where
  | die (a b : Fin 6)
  | kyorad (n : Fin 18)
  deriving DecidableEq, Repr

/-- What a host access does (R203, R204): a read; a write that is performed at once; a write that the host makes in its order and that
is performed later; the performing of the `n`-th such write; a read of the management register at an offset of BAR0 (R395). Two further
steps of the host side stand here because the opcode table has no row for them: the completion of an XLATCH (R395), and the training of a
Kyorad link with a peer of a given module number (R397). -/
inductive HostOp where
  | register
  | read
  | write
  | post
  | perform (n : Nat)
  | xlatchDone
  | train (link : Fin 18) (peer : BitVec 16)
  deriving DecidableEq, Repr

/-- A move of a transfer tile: the command's number among those in flight and, by its bits, which of the bytes it writes a later step
performs, since a command is single-copy atomic only per byte (R194). -/
structure TileMove where
  command : Nat
  later : Nat
  deriving DecidableEq, Repr

/-- The reasons of a fatal error (R403). -/
inductive FatalKind where
  | noRoute
  | backInvalidate
  | thermalTrip
  | controller
  deriving DecidableEq, Repr

/-- One constructor for each row of the opcode table. -/
inductive Instr where
  -- S slot (R31)
  | nop
  | add (d a b : Opnd) (sat : Bool)
  | sub (d a b : Opnd) (sat : Bool)
  | mul (d a b : Opnd) (sat : Bool)
  | mulh (d a b : Opnd)
  | mulhn (d a b : Opnd)
  | div (d a b : Opnd)
  | divn (d a b : Opnd)
  | rem (d a b : Opnd)
  | remn (d a b : Opnd)
  | and (d a b : Opnd)
  | or (d a b : Opnd)
  | xor (d a b : Opnd)
  | andn (d a b : Opnd)
  | shl (d a b : Opnd)
  | shr (d a b : Opnd)
  | sra (d a b : Opnd)
  | rot (d a b : Opnd)
  | min (d a b : Opnd)
  | max (d a b : Opnd)
  | minn (d a b : Opnd)
  | maxn (d a b : Opnd)
  | clz (d a : Opnd)
  | ctz (d a : Opnd)
  | popc (d a : Opnd)
  | bext (d a : Opnd) (pos wm1 : BitVec 6)
  | bins (d a : Opnd) (pos wm1 : BitVec 6)
  | sext (d a : Opnd) (w : BitVec 2)
  | zext (d a : Opnd) (w : BitVec 2)
  | addi (d a : Opnd) (imm : BitVec 14)
  | andi (d a : Opnd) (imm : BitVec 14)
  | ori (d a : Opnd) (imm : BitVec 14)
  | xori (d a : Opnd) (imm : BitVec 14)
  | shli (d a : Opnd) (sh : BitVec 6)
  | shri (d a : Opnd) (sh : BitVec 6)
  | srai (d a : Opnd) (sh : BitVec 6)
  | movi (d : Opnd) (imm : BitVec 20)
  | movk (d : Opnd) (hw : BitVec 2) (imm : BitVec 16)
  | lea (d a b : Opnd) (sh : BitVec 3)
  | cmp (a b : Opnd) (cc : BitVec 4)
  | cmpi (cc : BitVec 4) (a : Opnd) (imm : BitVec 14)
  | setc (d : Opnd)
  | sel (d a b : Opnd)
  | ld (d a : Opnd) (off : BitVec 10) (lat : BitVec 4)
  | st (d a : Opnd) (off : BitVec 10)
  | amo (d a b : Opnd) (opc : BitVec 3) (sz : Bool) (lat : BitVec 4)
  | cas (d a b : Opnd) (sz : Bool) (lat : BitVec 4)
  | amof (d a b : Opnd) (lat : BitVec 4)
  | mfc (d : Opnd) (creg : BitVec 14)
  | mtc (a : Opnd) (creg : BitVec 14)
  | mtsh (t : BitVec 3) (a : Opnd)
  | msel (z : BitVec 2) (a b : Opnd)
  | qmov (d a : Opnd)
  | tktest (k : BitVec 6)
  | cqpush (a : Opnd)
  | fence (scope : BitVec 2)
  | cwb (a b : Opnd)
  | cinv (a b : Opnd)
  | cflush (a b : Opnd)
  | mfcs (d : Opnd) (creg : BitVec 14)
  | mtcs (a : Opnd) (creg : BitVec 14)
  | tlbi (a b : Opnd) (ext : BitVec 2)
  | bkpt (imm : BitVec 14)
  -- B slot (R34)
  | nopB
  | brT (off : BitVec 22)
  | brF (off : BitVec 22)
  | j (off : BitVec 22)
  | jr (a : Opnd)
  | call (off : BitVec 22)
  | callr (a : Opnd)
  | ret
  | loop (cnt : BitVec 13) (last : BitVec 14)
  | loopv (a : Opnd) (last : BitVec 14)
  | loops (a : Opnd) (last : BitVec 14)
  | leave
  | cqdrop (nm1 : BitVec 4)
  | tkwait (k : BitVec 6)
  | waitq
  | yield
  | bara (slot : BitVec 3)
  | barw (slot : BitVec 3)
  | trap (code : BitVec 16)
  | sys (code : BitVec 16)
  | exit (a : Opnd)
  | rft
  | ctxsw
  | halt
  -- the header-only bundle (R44)
  | stick (sel : BitVec 2) (rep : BitVec 8)
  -- W0 slot (R36)
  | vnop
  | vadd (w : W0)
  | vsub (w : W0)
  | vmul (w : W0)
  | vfma (w : W0)
  | vfms (w : W0)
  | vmin (w : W0)
  | vmax (w : W0)
  | vabs (w : W0)
  | vneg (w : W0)
  | vand (w : W0)
  | vor (w : W0)
  | vxor (w : W0)
  | vshl (w : W0)
  | vshr (w : W0)
  | vsra (w : W0)
  | vcmp (w : W0)
  | vsel (w : W0)
  | vcvt (w : W0)
  | vwmul (w : W0)
  | vwfma (w : W0)
  | vdot (w : W0)
  | vscale (w : W0)
  | vclass (w : W0)
  | vexp2 (w : W0)
  | vlog2 (w : W0)
  | vrcp (w : W0)
  | vrsq (w : W0)
  | vsqrt (w : W0)
  | vsinp (w : W0)
  | vcosp (w : W0)
  | vtanh (w : W0)
  | vrsum (w : W0)
  | vrmax (w : W0)
  | vrmin (w : W0)
  | vperm (w : W0)
  | vbcst (w : W0)
  | vmovi (w : W0)
  | vmov (w : W0)
  | vmask (w : W0)
  | vflag (w : W0)
  | viota (w : W0)
  -- W1 slot (R37)
  | wnop
  | xset (w : W1Move)
  | xget (w : W1Move)
  | xshf (w : W1Move)
  | cld (w : W1Store)
  | cst (w : W1Store)
  | cldm (w : W1Store)
  | cstm (w : W1Store)
  | fagg (w : W1Move)
  | fset (w : W1Move)
  | xside (w : W1Move)
  | mvm (w : W1Move)
  -- M slot (R38)
  | mnop
  | mma (m : MOp)
  | mmas (m : MOp)
  | mmaq (m : MOp)
  | mmab (m : MOp)
  | mzero (m : MOp)
  | mcvt (m : MOp)
  | mtrn (m : MOp)
  | madd (m : MOp)
  | mstat (m : MOp)
  -- E slot (R35)
  | sbind (e : Cmd)
  | sfree (e : Cmd)
  | hload (e : Cmd)
  | hgath (e : Cmd)
  | hldz (e : Cmd)
  | hstore (e : Cmd)
  | hscat (e : Cmd)
  | hstz (e : Cmd)
  | hstzTensor (e : Cmd)
  | hmcast (e : Cmd)
  | copy (e : Cmd)
  | cfill (e : Cmd)
  | csqz (e : Cmd)
  | cxpd (e : Cmd)
  | zmap (e : Cmd)
  | tkjoin (e : Cmd)
  | enq (e : Cmd)
  | deq (e : Cmd)
  | qinfo (e : Cmd)
  | rfence (e : Cmd)
  | pgreq (e : Cmd)
  | scrlim (e : Cmd)
  | reds (e : Cmd)
  | redd (e : Cmd)
  | bcst (e : Cmd)
  | rgrp (e : Cmd)
  | launch (e : Cmd)
  | cancel (e : Cmd)
  | abort (e : Cmd)
  | ctxsave (e : Cmd)
  | ctxload (e : Cmd)
  | flushall (e : Cmd)
  -- steps of the part that are no words of a program
  /-- Outstanding result `n` of the context on turn lands (R18). -/
  | resultLand (n : Nat)
  /-- Flag aggregate `n` in flight of the context on turn arrives (R98). -/
  | faggResult (n : Nat)
  /-- The event records of wave word `n` in flight are appended (R129). -/
  | dripTrayAppend (n : Nat)
  /-- The trap that has fallen due for the context on turn is entered (R313). -/
  | trapEntry
  /-- Command `n` in flight of the context on turn begins its reads (R238). -/
  | commandStart (n : Nat)
  /-- A command checks its generations and moves its next transfer tile, or writes what its last move has left (R194, R241). -/
  | transferTile (m : TileMove)
  /-- In-hatch command `n` places its next element of lane `lane` (R246). -/
  | hatchFill (n lane : Nat)
  /-- Drain command `n` takes its next element of lane `lane` (R247). -/
  | hatchDrainTake (n lane : Nat)
  /-- Command `n`, whose work is done, ends (R237). -/
  | ticketComplete (n : Nat)
  /-- The stream engine fetches the next element of stream `q` (R243). -/
  | streamFetch (q : Fin 16)
  /-- The next written element of stream `q` is stored (R244). -/
  | streamStore (q : Fin 16)
  /-- The queue decides queue operation `n` of the context on turn (R262). -/
  | queueDecision (n : Nat)
  /-- The spill engine moves one entry of the queue of a stage, to the ring or back (R262). -/
  | spillMove (lnum stage : Nat) (toRing : Bool)
  /-- Write-back `n` in flight merges at its home (R188). -/
  | swWriteBackMerge (n : Nat)
  /-- Agent `agent` sends a transient read request for a line, by PA[51:7] (R359). -/
  | gets (agent line : Nat)
  /-- Agent `agent` sends a transient write request for a line (R359). -/
  | getx (agent line : Nat)
  /-- Message `n` in flight, with its tokens, arrives (R358). -/
  | tok (n : Nat)
  /-- Holder `agent` evicts a line, by PA[51:7], and returns its tokens to the home (R358, R365). -/
  | wb (agent line : Nat)
  /-- Message `n` of the persistent requests, the activation of `agent` for a line, arrives at the home die or at a table (R362). -/
  | pact (agent line n : Nat)
  /-- Message `n` of the persistent requests, a deactivation, arrives at the home die or at a table (R364). -/
  | pdeact (n : Nat)
  /-- Holder `agent` asks the home to clear a zero-map flag (R367). -/
  | zclr (agent tile : Nat)
  /-- The home serves zero-map clear `n` in flight and acknowledges it (R367). -/
  | zack (n : Nat)
  /-- Transient request `n` is sent again (R360). -/
  | transientRetry (n : Nat)
  /-- Transient request `n` becomes a persistent one (R360). -/
  | persistentEscalation (n : Nat)
  /-- The host has not answered a back-invalidate of `line` within 100 µs (R363). -/
  | backInvalidateTimeout (line : Nat)
  /-- A line is reset (R369). -/
  | lineReset (line : Nat)
  /-- An uncorrectable error strikes a unit (R320). -/
  | uncorrectableError (unit : ErrUnit)
  /-- One sampling of a die: block moves, each a context and whether its partition grows (R178). -/
  | scratchSample (die : Nat) (moves : List (Nat × Bool))
  /-- Reduction group `g` forms, or its declarations disagree (R378). -/
  | groupFormation (g : Nat)
  /-- The next operation of group `g` starts, or delivers its result (R379). -/
  | collectiveOperation (g : Nat)
  /-- Merge node `node` of level `level` of the running operation of group `g` merges its children (R374). -/
  | stripeMerge (g level node : Nat)
  /-- The scheduler sends the context with CTXID `id` a pre-emption request (R307). -/
  | preemptionRequest (id : Nat)
  /-- The pending request lands at the context on turn (R324). -/
  | landing
  /-- The array of the context on turn switches to its other resident context (R325). -/
  | contextSwitch
  /-- The landed context on turn is drained into its save area (R326). -/
  | drain
  /-- The saved instance `inst` of a pipeline's stage is loaded onto arrays and resumes (R331). -/
  | resumption (lnum stage inst : Nat) (arrays : List Nat)
  /-- A ready instance is bound to arrays, one for each member (R312). -/
  | dispatch (lnum stage inst : Nat) (arrays : List Nat)
  /-- A waiting instance has waited one aging interval (R307). -/
  | agingInterval (lnum stage inst : Nat)
  /-- The rebalance interval of a pipeline (R308). -/
  | rebalanceInterval (lnum : Nat)
  /-- The watchdog of the context on turn reaches WDOG (R311). -/
  | watchdogExpiry
  /-- A pipeline whose work is done ends (R310). -/
  | pipelineEnd (lnum : Nat)
  /-- A host store to the tail line of submission queue `q` (R300). -/
  | sqTailUpdate (q : Fin 64)
  /-- The device takes the next record of submission queue `q` (R301). -/
  | submissionRecord (q : Fin 64)
  /-- The next record's PHASE still does not match after its retries (R301). -/
  | submissionNotReady (q : Fin 64)
  /-- A host access of `len` bytes to a physical address (R203, R204). -/
  | hostMemAccess (op : HostOp) (pa len value : Nat)
  /-- The host answers the back-invalidate of `line` (R363). -/
  | backInvalidateAnswer (line : Nat)
  | powerOnReset
  | conventionalReset
  | functionLevelReset
  | linkReplayFailure (link : LinkId)
  | fatalError (kind : FatalKind)
  /-- One period of the current arbiter: what each compute die requests, none when its request is missing (R402). -/
  | powerArbiterPeriod (requests : List (Option Nat))
  /-- The junction of a compute die is measured at `temp` °C (R402). -/
  | thermalThrottle (die temp : Nat)
  | thermalTrip (die : Nat)
  | xlatchWrite (value : Word)
  | pwrbudWrite (value : Word)
  /-- The host or the firmware writes the register at offset `off` of BAR0 (R395). -/
  | mgmtRegisterWrite (off : Nat) (value : Nat)
  | getVersion
  | getCapabilities
  | negotiateAlgorithms
  | getCertificate
  | challenge (nonce : Nat)
  | getMeasurements
  /-- The management controller restarts the halted context with CTXID `id` (R336). -/
  | managementControllerRestart (id : Nat)
  | powerOff
  deriving DecidableEq, Repr

end Sys2Proof
end

