-- ==== Sys2Proof/WellFormed.lean ====
section
/-! DEFINITION. Which instructions have an encoding: the reserved field values of R31 to R38, R54, R226, R264 to R284,
R333 to R339 and R377 are left out. Wave words are all well-formed, since their reserved values are found in the cells
(R29), but for the LAT of a store (R37). -/

namespace Sys2Proof

/-- Where an instruction's word stands in a bundle (R28). -/
inductive Slot where
  | s
  | b
  | e
  | w0
  | w1
  | m
  | header
  deriving DecidableEq, Repr

/-- The slot code of TINFO (R319). -/
def Slot.code : Slot → Nat
  | .s => 0
  | .b => 1
  | .e => 2
  | .w0 => 3
  | .w1 => 4
  | .m => 5
  | .header => 7

def Opnd.isReg : Opnd → Bool
  | .s _ => true
  | .q _ => false

def Opnd.zero : Opnd := .s 0

/-- The numbers that name a control register (R64). -/
def cregValid (n : Nat) : Bool :=
  n ≤ 0x007 || n == 0x010 || (0x018 ≤ n && n ≤ 0x01D) || (0x020 ≤ n && n ≤ 0x025) || (0x030 ≤ n && n ≤ 0x033) ||
    (0x040 ≤ n && n ≤ 0x047) || (0x050 ≤ n && n ≤ 0x054) || (0x100 ≤ n && n ≤ 0x106)

/-- Whether an OFF field encodes a size (R32). -/
def offValid (off : BitVec 10) : Bool := off.toNat % 16 != 0

/-- The condition codes of CMP (R31). -/
def ccValid (cc : BitVec 4) : Bool := cc.toNat ≤ 9

/-- The rules of R35 on the ticket fields: TE needs a produced ticket, and no ticket is consumed twice. -/
def Cmd.ticketsOk (e : Cmd) : Bool :=
  !(e.te && e.kp == 0) && (e.kc0 == 0 || (e.kc0 != e.kc1 && e.kc0 != e.kc2)) && (e.kc1 == 0 || e.kc1 != e.kc2)

/-- The fields from P0 up that a command does not read are zero (R35). `n` is the number it reads. -/
def Cmd.reads (e : Cmd) (n : Nat) : Bool :=
  (1 ≤ n || e.p0 == Opnd.zero) && (2 ≤ n || e.p1 == Opnd.zero) && (3 ≤ n || e.p2 == Opnd.zero) && (4 ≤ n || e.p3 == Opnd.zero)

def Cmd.feed (e : Cmd) : Nat := e.efn.toNat / 16 % 4
def Cmd.hatch (e : Cmd) : Nat := e.efn.toNat % 16
def Cmd.xtra (e : Cmd) : Nat := e.efn.toNat / 64

/-- The EFN of an in-hatch command or of a drain command (R267). -/
def Cmd.inHatch (e : Cmd) : Bool := e.hatch ≤ 7 && e.feed != 3 && e.xtra == 0
def Cmd.outHatch (e : Cmd) : Bool := 8 ≤ e.hatch && e.hatch ≤ 11 && e.feed != 3

/-- P3 of HGATH and HSCAT names q0 to q14 (R271). -/
def Cmd.indexOk (e : Cmd) : Bool :=
  match e.p3 with
  | .s _ => false
  | .q n => n.val != 15

/-- The queue commands produce and consume no ticket (R282). -/
def Cmd.noTickets (e : Cmd) : Bool := e.kp == 0 && e.kc0 == 0 && e.kc1 == 0 && e.kc2 == 0 && !e.te

/-- A register run of ENQ or DEQ ends at s47 or below (R283). -/
def Cmd.runOk (e : Cmd) : Bool :=
  match e.p0 with
  | .s n => n.val + e.efn.toNat % 8 + 1 ≤ 48
  | .q _ => true

namespace Instr

/-- The slot of an instruction; none for the steps that are no words of a program. -/
def slot : Instr → Option Slot
  | .nop | .add _ _ _ _ | .sub _ _ _ _ | .mul _ _ _ _ | .mulh _ _ _ | .mulhn _ _ _ | .div _ _ _ | .divn _ _ _
  | .rem _ _ _ | .remn _ _ _ | .and _ _ _ | .or _ _ _ | .xor _ _ _ | .andn _ _ _ | .shl _ _ _ | .shr _ _ _
  | .sra _ _ _ | .rot _ _ _ | .min _ _ _ | .max _ _ _ | .minn _ _ _ | .maxn _ _ _ | .clz _ _ | .ctz _ _ | .popc _ _
  | .bext _ _ _ _ | .bins _ _ _ _ | .sext _ _ _ | .zext _ _ _ | .addi _ _ _ | .andi _ _ _ | .ori _ _ _ | .xori _ _ _
  | .shli _ _ _ | .shri _ _ _ | .srai _ _ _ | .movi _ _ | .movk _ _ _ | .lea _ _ _ _ | .cmp _ _ _ | .cmpi _ _ _
  | .setc _ | .sel _ _ _ | .ld _ _ _ _ | .st _ _ _ | .amo _ _ _ _ _ _ | .cas _ _ _ _ _ | .amof _ _ _ _ | .mfc _ _
  | .mtc _ _ | .mtsh _ _ | .msel _ _ _ | .qmov _ _ | .tktest _ | .cqpush _ | .fence _ | .cwb _ _ | .cinv _ _
  | .cflush _ _ | .mfcs _ _ | .mtcs _ _ | .tlbi _ _ _ | .bkpt _ => some .s
  | .nopB | .brT _ | .brF _ | .j _ | .jr _ | .call _ | .callr _ | .ret | .loop _ _ | .loopv _ _ | .loops _ _
  | .leave | .cqdrop _ | .tkwait _ | .waitq | .yield | .bara _ | .barw _ | .trap _ | .sys _ | .exit _ | .rft
  | .ctxsw | .halt => some .b
  | .stick _ _ => some .header
  | .vnop | .vadd _ | .vsub _ | .vmul _ | .vfma _ | .vfms _ | .vmin _ | .vmax _ | .vabs _ | .vneg _ | .vand _
  | .vor _ | .vxor _ | .vshl _ | .vshr _ | .vsra _ | .vcmp _ | .vsel _ | .vcvt _ | .vwmul _ | .vwfma _ | .vdot _
  | .vscale _ | .vclass _ | .vexp2 _ | .vlog2 _ | .vrcp _ | .vrsq _ | .vsqrt _ | .vsinp _ | .vcosp _ | .vtanh _
  | .vrsum _ | .vrmax _ | .vrmin _ | .vperm _ | .vbcst _ | .vmovi _ | .vmov _ | .vmask _ | .vflag _ | .viota _ => some .w0
  | .wnop | .xset _ | .xget _ | .xshf _ | .cld _ | .cst _ | .cldm _ | .cstm _ | .fagg _ | .fset _ | .xside _
  | .mvm _ => some .w1
  | .mnop | .mma _ | .mmas _ | .mmaq _ | .mmab _ | .mzero _ | .mcvt _ | .mtrn _ | .madd _ | .mstat _ => some .m
  | .sbind _ | .sfree _ | .hload _ | .hgath _ | .hldz _ | .hstore _ | .hscat _ | .hstz _ | .hstzTensor _ | .hmcast _
  | .copy _ | .cfill _ | .csqz _ | .cxpd _ | .zmap _ | .tkjoin _ | .enq _ | .deq _ | .qinfo _ | .rfence _ | .pgreq _
  | .scrlim _ | .reds _ | .redd _ | .bcst _ | .rgrp _ | .launch _ | .cancel _ | .abort _ | .ctxsave _ | .ctxload _
  | .flushall _ => some .e
  | .resultLand _ | .faggResult _ | .dripTrayAppend _ | .trapEntry | .commandStart _ | .transferTile _
  | .hatchFill _ _ | .hatchDrainTake _ _ | .ticketComplete _ | .streamFetch _ | .streamStore _ | .queueDecision _
  | .spillMove _ _ _ | .swWriteBackMerge _ | .gets _ _ | .getx _ _ | .tok _ | .wb _ _ | .pact _ _ _ | .pdeact _
  | .zclr _ _ | .zack _ | .transientRetry _ | .persistentEscalation _ | .backInvalidateTimeout _ | .lineReset _
  | .uncorrectableError _ | .scratchSample _ _ | .groupFormation _ | .collectiveOperation _ | .stripeMerge _ _ _
  | .preemptionRequest _ | .landing | .contextSwitch | .drain | .resumption _ _ _ _ | .dispatch _ _ _ _
  | .agingInterval _ _ _ | .rebalanceInterval _ | .watchdogExpiry | .pipelineEnd _ | .sqTailUpdate _
  | .submissionRecord _ | .submissionNotReady _ | .hostMemAccess _ _ _ _ | .powerOnReset | .conventionalReset
  | .functionLevelReset | .linkReplayFailure _ | .fatalError _ | .powerArbiterPeriod _ | .thermalThrottle _ _
  | .thermalTrip _ | .xlatchWrite _ | .pwrbudWrite _ | .mgmtRegisterWrite _ _ | .getVersion | .getCapabilities
  | .negotiateAlgorithms | .getCertificate | .challenge _ | .getMeasurements | .managementControllerRestart _
  | .backInvalidateAnswer _ | .powerOff => none

/-- Whether an instruction's fields hold values that its encoding admits. -/
def wellFormed : Instr → Bool
  | .bext _ _ pos wm1 => pos.toNat + wm1.toNat ≤ 63
  | .bins d _ pos wm1 => d.isReg && pos.toNat + wm1.toNat ≤ 63
  | .sext _ _ w => w != 3
  | .zext _ _ w => w != 3
  | .movk d _ _ => d.isReg
  | .lea _ _ _ sh => sh != 7
  | .cmp _ _ cc => ccValid cc
  | .cmpi cc _ _ => ccValid cc
  | .ld _ _ off _ => offValid off
  | .st _ _ off => offValid off
  | .cas d _ _ _ _ => d.isReg
  | .mfc _ c => cregValid c.toNat
  | .mtc _ c => cregValid c.toNat
  | .mfcs _ c => cregValid c.toNat
  | .mtcs _ c => cregValid c.toNat
  | .fence scope => scope != 3
  | .tlbi a b ext => ext != 3 && (ext == 0 || a == Opnd.zero) && (ext != 2 || b == Opnd.zero)
  | .loop _ last => last != 0
  | .loopv _ last => last != 0
  | .loops a last => last != 0 && (match a with | .s _ => false | .q n => n.val != 15)
  | .tkwait k => k != 0
  | .cst w => w.lat == 0
  | .cstm w => w.lat == 0
  | .sbind e => e.ticketsOk && e.reads 1 && e.efn.toNat < 16
  | .sfree e => e.ticketsOk && e.reads 0 && e.efn.toNat < 16
  | .hload e => e.ticketsOk && e.inHatch
  | .hgath e => e.ticketsOk && e.inHatch && e.feed != 0 && e.indexOk
  | .hldz e => e.ticketsOk && e.reads 3 && e.inHatch && e.feed == 0
  | .hstore e => e.ticketsOk && e.outHatch && e.xtra == 0
  | .hscat e => e.ticketsOk && e.outHatch && e.xtra == 0 && e.feed != 0 && e.indexOk
  | .hstz e => e.ticketsOk && e.reads 3 && e.outHatch && e.xtra == 0 && e.feed == 0
  | .hstzTensor e => e.ticketsOk && e.outHatch && e.xtra == 1
  | .hmcast e => e.ticketsOk && e.p1 == Opnd.zero && e.p3 == Opnd.zero && e.outHatch
  | .copy e => e.ticketsOk && e.reads 3 && e.efn == 0
  | .cfill e => e.ticketsOk && e.reads 3 && e.efn == 0
  | .csqz e => e.ticketsOk && e.efn == 0
  | .cxpd e => e.ticketsOk && e.efn == 0
  | .zmap e => e.ticketsOk && e.reads 2 && e.efn == 0
  | .tkjoin e => e.ticketsOk && e.reads 0 && e.efn == 0 && e.kp != 0
  | .enq e => e.noTickets && e.reads 1 && e.efn.toNat < 16 && e.runOk
  | .deq e => e.noTickets && e.reads 1 && e.efn.toNat < 8 && e.runOk
  | .qinfo e => e.noTickets && e.reads 1 && e.efn.toNat < 3
  | .rfence e => e.ticketsOk && e.reads 0 && e.efn == 0 && !e.te
  | .pgreq e => e.ticketsOk && e.reads 1 && e.efn.toNat < 8
  | .scrlim e => e.ticketsOk && e.reads 2 && e.efn == 0
  | .reds e => e.ticketsOk && e.efn.toNat < 16
  | .redd e => e.ticketsOk && e.efn.toNat < 16
  | .bcst e => e.ticketsOk && e.efn.toNat < 4
  | .rgrp e => e.ticketsOk && e.reads 1 && e.efn.toNat < 4
  | .launch e => e.ticketsOk && e.reads 1 && e.efn == 0
  | .cancel e => e.ticketsOk && e.reads 1 && e.efn == 0
  | .abort e => e.ticketsOk && e.reads 1 && e.efn == 0
  | .ctxsave e => e.ticketsOk && e.reads 2 && e.efn == 0
  | .ctxload e => e.ticketsOk && e.reads 2 && e.efn == 0
  | .flushall e => e.ticketsOk && e.reads 0 && e.efn == 0
  | .nop | .add _ _ _ _ | .sub _ _ _ _ | .mul _ _ _ _ | .mulh _ _ _ | .mulhn _ _ _ | .div _ _ _ | .divn _ _ _
  | .rem _ _ _ | .remn _ _ _ | .and _ _ _ | .or _ _ _ | .xor _ _ _ | .andn _ _ _ | .shl _ _ _ | .shr _ _ _
  | .sra _ _ _ | .rot _ _ _ | .min _ _ _ | .max _ _ _ | .minn _ _ _ | .maxn _ _ _ | .clz _ _ | .ctz _ _ | .popc _ _
  | .addi _ _ _ | .andi _ _ _ | .ori _ _ _ | .xori _ _ _ | .shli _ _ _ | .shri _ _ _ | .srai _ _ _ | .movi _ _
  | .setc _ | .sel _ _ _ | .amo _ _ _ _ _ _ | .amof _ _ _ _ | .mtsh _ _ | .msel _ _ _ | .qmov _ _ | .tktest _
  | .cqpush _ | .cwb _ _ | .cinv _ _ | .cflush _ _ | .bkpt _ | .nopB | .brT _ | .brF _ | .j _ | .jr _ | .call _
  | .callr _ | .ret | .leave | .cqdrop _ | .waitq | .yield | .bara _ | .barw _ | .trap _ | .sys _ | .exit _ | .rft
  | .ctxsw | .halt | .stick _ _ | .vnop | .vadd _ | .vsub _ | .vmul _ | .vfma _ | .vfms _ | .vmin _ | .vmax _
  | .vabs _ | .vneg _ | .vand _ | .vor _ | .vxor _ | .vshl _ | .vshr _ | .vsra _ | .vcmp _ | .vsel _ | .vcvt _
  | .vwmul _ | .vwfma _ | .vdot _ | .vscale _ | .vclass _ | .vexp2 _ | .vlog2 _ | .vrcp _ | .vrsq _ | .vsqrt _
  | .vsinp _ | .vcosp _ | .vtanh _ | .vrsum _ | .vrmax _ | .vrmin _ | .vperm _ | .vbcst _ | .vmovi _ | .vmov _
  | .vmask _ | .vflag _ | .viota _ | .wnop | .xset _ | .xget _ | .xshf _ | .cld _ | .cldm _ | .fagg _ | .fset _
  | .xside _ | .mvm _ | .mnop | .mma _ | .mmas _ | .mmaq _ | .mmab _ | .mzero _ | .mcvt _ | .mtrn _ | .madd _
  | .mstat _ | .resultLand _ | .faggResult _ | .dripTrayAppend _ | .trapEntry | .commandStart _ | .transferTile _
  | .hatchFill _ _ | .hatchDrainTake _ _ | .ticketComplete _ | .streamFetch _ | .streamStore _ | .queueDecision _
  | .spillMove _ _ _ | .swWriteBackMerge _ | .gets _ _ | .getx _ _ | .tok _ | .wb _ _ | .pact _ _ _ | .pdeact _
  | .zclr _ _ | .zack _ | .transientRetry _ | .persistentEscalation _ | .backInvalidateTimeout _ | .lineReset _
  | .uncorrectableError _ | .scratchSample _ _ | .groupFormation _ | .collectiveOperation _ | .stripeMerge _ _ _
  | .preemptionRequest _ | .landing | .contextSwitch | .drain | .resumption _ _ _ _ | .dispatch _ _ _ _
  | .agingInterval _ _ _ | .rebalanceInterval _ | .watchdogExpiry | .pipelineEnd _ | .sqTailUpdate _
  | .submissionRecord _ | .submissionNotReady _ | .hostMemAccess _ _ _ _ | .powerOnReset | .conventionalReset
  | .functionLevelReset | .linkReplayFailure _ | .fatalError _ | .powerArbiterPeriod _ | .thermalThrottle _ _
  | .thermalTrip _ | .xlatchWrite _ | .pwrbudWrite _ | .mgmtRegisterWrite _ _ | .getVersion | .getCapabilities
  | .negotiateAlgorithms | .getCertificate | .challenge _ | .getMeasurements | .managementControllerRestart _
  | .backInvalidateAnswer _ | .powerOff => true

end Instr

end Sys2Proof
end

