-- ==== Sys2Proof/Decode.lean ====
section
/-! DEFINITION. The decoder, from the slot formats and opcode maps of R27 to R39, and after it the encoder, from the same
tables. A word is a number whose bit 0 is the least significant bit. -/

namespace Sys2Proof

/-- Bits [lo + n - 1 : lo] of a word. -/
def fld (w lo n : Nat) : Nat := w / 2 ^ lo % 2 ^ n

/-- The operand that a 6-bit field names (R7). -/
def Opnd.ofCode (n : Nat) : Opnd :=
  if h : n % 64 < 48 then .s ⟨n % 64, h⟩ else .q ⟨n % 64 - 48, by omega⟩

def Opnd.code : Opnd → Nat
  | .s n => n.val
  | .q n => 48 + n.val

/-- Why a slot word is no instruction: rows 4, 5 and 6 of R29. -/
inductive Reject where
  | op
  | field
  | nop
  deriving DecidableEq, Repr

def okIf (p : Prop) [Decidable p] (i : Instr) : Except Reject Instr := if p then .ok i else .error .field

/-- An instruction whose other fields are zero as they must be, and whose values are not reserved. -/
def okWf (p : Prop) [Decidable p] (i : Instr) : Except Reject Instr := okIf (p ∧ i.wellFormed = true) i

/-- The S slot (R31 to R33, R39). -/
def decodeS (w : Nat) : Except Reject Instr :=
  let d := Opnd.ofCode (fld w 20 6)
  let a := Opnd.ofCode (fld w 14 6)
  let b := Opnd.ofCode (fld w 8 6)
  let dc := fld w 20 6
  let ac := fld w 14 6
  let bc := fld w 8 6
  let fn := fld w 0 8
  let imm := BitVec.ofNat 14 (fld w 0 14)
  let sat := fld w 7 1 == 1
  match fld w 26 6 with
  | 0x00 => if fld w 0 26 = 0 then .ok .nop else .error .nop
  | 0x01 => okWf (fld w 0 7 = 0) (.add d a b sat)
  | 0x02 => okWf (fld w 0 7 = 0) (.sub d a b sat)
  | 0x03 => okWf (fld w 0 7 = 0) (.mul d a b sat)
  | 0x04 => okWf (fn = 0) (.mulh d a b)
  | 0x05 => okWf (fn = 0) (.mulhn d a b)
  | 0x06 => okWf (fn = 0) (.div d a b)
  | 0x07 => okWf (fn = 0) (.divn d a b)
  | 0x08 => okWf (fn = 0) (.rem d a b)
  | 0x09 => okWf (fn = 0) (.remn d a b)
  | 0x0A => okWf (fn = 0) (.and d a b)
  | 0x0B => okWf (fn = 0) (.or d a b)
  | 0x0C => okWf (fn = 0) (.xor d a b)
  | 0x0D => okWf (fn = 0) (.andn d a b)
  | 0x0E => okWf (fn = 0) (.shl d a b)
  | 0x0F => okWf (fn = 0) (.shr d a b)
  | 0x10 => okWf (fn = 0) (.sra d a b)
  | 0x11 => okWf (fn = 0) (.rot d a b)
  | 0x12 => okWf (fn = 0) (.min d a b)
  | 0x13 => okWf (fn = 0) (.max d a b)
  | 0x14 => okWf (fn = 0) (.minn d a b)
  | 0x15 => okWf (fn = 0) (.maxn d a b)
  | 0x16 => okWf (fn = 0 ∧ bc = 0) (.clz d a)
  | 0x17 => okWf (fn = 0 ∧ bc = 0) (.ctz d a)
  | 0x18 => okWf (fn = 0 ∧ bc = 0) (.popc d a)
  | 0x19 => okWf (fld w 0 2 = 0) (.bext d a (BitVec.ofNat 6 bc) (BitVec.ofNat 6 (fld w 2 6)))
  | 0x1A => okWf (fld w 0 2 = 0) (.bins d a (BitVec.ofNat 6 bc) (BitVec.ofNat 6 (fld w 2 6)))
  | 0x1B => okWf (fld w 2 6 = 0 ∧ bc = 0) (.sext d a (BitVec.ofNat 2 (fld w 0 2)))
  | 0x1C => okWf (fld w 2 6 = 0 ∧ bc = 0) (.zext d a (BitVec.ofNat 2 (fld w 0 2)))
  | 0x1D => okWf True (.addi d a imm)
  | 0x1E => okWf True (.andi d a imm)
  | 0x1F => okWf True (.ori d a imm)
  | 0x20 => okWf True (.xori d a imm)
  | 0x21 => okWf (fld w 6 8 = 0) (.shli d a (BitVec.ofNat 6 (fld w 0 6)))
  | 0x22 => okWf (fld w 6 8 = 0) (.shri d a (BitVec.ofNat 6 (fld w 0 6)))
  | 0x23 => okWf (fld w 6 8 = 0) (.srai d a (BitVec.ofNat 6 (fld w 0 6)))
  | 0x24 => okWf True (.movi d (BitVec.ofNat 20 (fld w 0 20)))
  | 0x25 => okWf (fld w 16 2 = 0) (.movk d (BitVec.ofNat 2 (fld w 18 2)) (BitVec.ofNat 16 (fld w 0 16)))
  | 0x26 => okWf (fld w 3 5 = 0) (.lea d a b (BitVec.ofNat 3 (fld w 0 3)))
  | 0x27 => okWf (fld w 4 4 = 0 ∧ dc = 0) (.cmp a b (BitVec.ofNat 4 (fld w 0 4)))
  | 0x28 => okWf (fld w 24 2 = 0) (.cmpi (BitVec.ofNat 4 (fld w 20 4)) a imm)
  | 0x29 => okWf (fn = 0 ∧ ac = 0 ∧ bc = 0) (.setc d)
  | 0x2A => okWf (fn = 0) (.sel d a b)
  | 0x2B => okWf True (.ld d a (BitVec.ofNat 10 (fld w 4 10)) (BitVec.ofNat 4 (fld w 0 4)))
  | 0x2C => okWf (fld w 0 4 = 0) (.st d a (BitVec.ofNat 10 (fld w 4 10)))
  | 0x2D => okWf True (.amo d a b (BitVec.ofNat 3 (fld w 5 3)) (fld w 4 1 == 1) (BitVec.ofNat 4 (fld w 0 4)))
  | 0x2E => okWf (fld w 5 3 = 0) (.cas d a b (fld w 4 1 == 1) (BitVec.ofNat 4 (fld w 0 4)))
  | 0x2F => okWf (fld w 4 4 = 0) (.amof d a b (BitVec.ofNat 4 (fld w 0 4)))
  | 0x30 => okWf (ac = 0) (.mfc d imm)
  | 0x31 => okWf (dc = 0) (.mtc a imm)
  | 0x32 => okWf (fld w 23 3 = 0 ∧ bc = 0 ∧ fn = 0) (.mtsh (BitVec.ofNat 3 (fld w 20 3)) a)
  | 0x33 => okWf (fld w 22 4 = 0 ∧ fn = 0) (.msel (BitVec.ofNat 2 (fld w 20 2)) a b)
  | 0x34 => okWf (fn = 0 ∧ bc = 0) (.qmov d a)
  | 0x35 => okWf (fn = 0 ∧ bc = 0 ∧ dc = 0) (.tktest (BitVec.ofNat 6 ac))
  | 0x36 => okWf (fn = 0 ∧ bc = 0 ∧ dc = 0) (.cqpush a)
  | 0x37 => okWf (fld w 2 6 = 0 ∧ bc = 0 ∧ ac = 0 ∧ dc = 0) (.fence (BitVec.ofNat 2 (fld w 0 2)))
  | 0x38 => okWf (fn = 0 ∧ dc = 0) (.cwb a b)
  | 0x39 => okWf (fn = 0 ∧ dc = 0) (.cinv a b)
  | 0x3A => okWf (fn = 0 ∧ dc = 0) (.cflush a b)
  | 0x3B => okWf (ac = 0) (.mfcs d imm)
  | 0x3C => okWf (dc = 0) (.mtcs a imm)
  | 0x3D => okWf (fld w 2 6 = 0 ∧ dc = 0) (.tlbi a b (BitVec.ofNat 2 (fld w 0 2)))
  | 0x3E => okWf (fld w 14 12 = 0) (.bkpt imm)
  | _ => .error .op

/-- The B slot (R34, R39). -/
def decodeB (w : Nat) : Except Reject Instr :=
  let off := BitVec.ofNat 22 (fld w 0 22)
  let a := Opnd.ofCode (fld w 16 6)
  let last := BitVec.ofNat 14 (fld w 0 14)
  let slot := BitVec.ofNat 3 (fld w 0 3)
  let code := BitVec.ofNat 16 (fld w 0 16)
  match fld w 27 5 with
  | 0x00 => if fld w 0 27 = 0 then .ok .nopB else .error .nop
  | 0x01 => okWf (fld w 22 5 = 0) (.brT off)
  | 0x02 => okWf (fld w 22 5 = 0) (.brF off)
  | 0x03 => okWf (fld w 22 5 = 0) (.j off)
  | 0x04 => okWf (fld w 22 5 = 0 ∧ fld w 0 16 = 0) (.jr a)
  | 0x05 => okWf (fld w 22 5 = 0) (.call off)
  | 0x06 => okWf (fld w 22 5 = 0 ∧ fld w 0 16 = 0) (.callr a)
  | 0x07 => okWf (fld w 0 27 = 0) .ret
  | 0x08 => okWf True (.loop (BitVec.ofNat 13 (fld w 14 13)) last)
  | 0x09 => okWf (fld w 22 5 = 0 ∧ fld w 14 2 = 0) (.loopv a last)
  | 0x0A => okWf (fld w 22 5 = 0 ∧ fld w 14 2 = 0) (.loops a last)
  | 0x0B => okWf (fld w 0 27 = 0) .leave
  | 0x0C => okWf (fld w 4 23 = 0) (.cqdrop (BitVec.ofNat 4 (fld w 0 4)))
  | 0x0D => okWf (fld w 6 21 = 0) (.tkwait (BitVec.ofNat 6 (fld w 0 6)))
  | 0x0E => okWf (fld w 0 27 = 0) .waitq
  | 0x0F => okWf (fld w 0 27 = 0) .yield
  | 0x10 => okWf (fld w 3 24 = 0) (.bara slot)
  | 0x11 => okWf (fld w 3 24 = 0) (.barw slot)
  | 0x12 => okWf (fld w 16 11 = 0) (.trap code)
  | 0x13 => okWf (fld w 16 11 = 0) (.sys code)
  | 0x14 => okWf (fld w 22 5 = 0 ∧ fld w 0 16 = 0) (.exit a)
  | 0x15 => okWf (fld w 0 27 = 0) .rft
  | 0x16 => okWf (fld w 0 27 = 0) .ctxsw
  | 0x17 => okWf (fld w 0 27 = 0) .halt
  | _ => .error .op

/-- The fields of an E word pair besides OP (R35). -/
def decodeCmd (w : Nat) : Cmd :=
  { kp := BitVec.ofNat 6 (fld w 51 6), kc0 := BitVec.ofNat 6 (fld w 45 6), kc1 := BitVec.ofNat 6 (fld w 39 6),
    kc2 := BitVec.ofNat 6 (fld w 33 6), te := fld w 32 1 == 1, p0 := Opnd.ofCode (fld w 26 6), p1 := Opnd.ofCode (fld w 20 6),
    p2 := Opnd.ofCode (fld w 14 6), p3 := Opnd.ofCode (fld w 8 6), efn := BitVec.ofNat 8 (fld w 0 8) }

/-- The E slot (R35, R39). EFN[6] tells the two forms of HSTZ apart (R267). -/
def decodeE (w : Nat) : Except Reject Instr :=
  let e := decodeCmd w
  match fld w 57 7 with
  | 0x01 => okWf True (.sbind e)
  | 0x02 => okWf True (.sfree e)
  | 0x08 => okWf True (.hload e)
  | 0x09 => okWf True (.hgath e)
  | 0x0A => okWf True (.hldz e)
  | 0x0B => okWf True (.hstore e)
  | 0x0C => okWf True (.hscat e)
  | 0x0D => if fld w 6 1 = 0 then okWf True (.hstz e) else okWf True (.hstzTensor e)
  | 0x0E => okWf True (.hmcast e)
  | 0x10 => okWf True (.copy e)
  | 0x11 => okWf True (.cfill e)
  | 0x12 => okWf True (.csqz e)
  | 0x13 => okWf True (.cxpd e)
  | 0x14 => okWf True (.zmap e)
  | 0x18 => okWf True (.tkjoin e)
  | 0x20 => okWf True (.enq e)
  | 0x21 => okWf True (.deq e)
  | 0x22 => okWf True (.qinfo e)
  | 0x28 => okWf True (.rfence e)
  | 0x29 => okWf True (.pgreq e)
  | 0x2A => okWf True (.scrlim e)
  | 0x30 => okWf True (.reds e)
  | 0x31 => okWf True (.redd e)
  | 0x32 => okWf True (.bcst e)
  | 0x33 => okWf True (.rgrp e)
  | 0x38 => okWf True (.launch e)
  | 0x39 => okWf True (.cancel e)
  | 0x3A => okWf True (.abort e)
  | 0x3B => okWf True (.ctxsave e)
  | 0x3C => okWf True (.ctxload e)
  | 0x3D => okWf True (.flushall e)
  | _ => .error .op

/-- The W0 slot (R36, R39): the sequencer checks the OP field only (R29). -/
def decodeW0 (w : Nat) : Except Reject Instr :=
  let x : W0 := { d := BitVec.ofNat 5 (fld w 21 5), a := BitVec.ofNat 5 (fld w 16 5), b := BitVec.ofNat 5 (fld w 11 5),
                  typ := BitVec.ofNat 6 (fld w 5 6), var := BitVec.ofNat 5 (fld w 0 5) }
  match fld w 26 6 with
  | 0x00 => if fld w 0 26 = 0 then .ok .vnop else .error .nop
  | 0x01 => .ok (.vadd x)
  | 0x02 => .ok (.vsub x)
  | 0x03 => .ok (.vmul x)
  | 0x04 => .ok (.vfma x)
  | 0x05 => .ok (.vfms x)
  | 0x06 => .ok (.vmin x)
  | 0x07 => .ok (.vmax x)
  | 0x08 => .ok (.vabs x)
  | 0x09 => .ok (.vneg x)
  | 0x0A => .ok (.vand x)
  | 0x0B => .ok (.vor x)
  | 0x0C => .ok (.vxor x)
  | 0x0D => .ok (.vshl x)
  | 0x0E => .ok (.vshr x)
  | 0x0F => .ok (.vsra x)
  | 0x10 => .ok (.vcmp x)
  | 0x11 => .ok (.vsel x)
  | 0x12 => .ok (.vcvt x)
  | 0x13 => .ok (.vwmul x)
  | 0x14 => .ok (.vwfma x)
  | 0x15 => .ok (.vdot x)
  | 0x16 => .ok (.vscale x)
  | 0x17 => .ok (.vclass x)
  | 0x18 => .ok (.vexp2 x)
  | 0x19 => .ok (.vlog2 x)
  | 0x1A => .ok (.vrcp x)
  | 0x1B => .ok (.vrsq x)
  | 0x1C => .ok (.vsqrt x)
  | 0x1D => .ok (.vsinp x)
  | 0x1E => .ok (.vcosp x)
  | 0x1F => .ok (.vtanh x)
  | 0x20 => .ok (.vrsum x)
  | 0x21 => .ok (.vrmax x)
  | 0x22 => .ok (.vrmin x)
  | 0x23 => .ok (.vperm x)
  | 0x24 => .ok (.vbcst x)
  | 0x25 => .ok (.vmovi x)
  | 0x26 => .ok (.vmov x)
  | 0x27 => .ok (.vmask x)
  | 0x28 => .ok (.vflag x)
  | 0x29 => .ok (.viota x)
  | _ => .error .op

/-- The W1 slot (R37, R39): the sequencer checks OP, and LAT of the stores (R29). -/
def decodeW1 (w : Nat) : Except Reject Instr :=
  let st : W1Store := { d := BitVec.ofNat 5 (fld w 22 5), off := BitVec.ofNat 11 (fld w 11 11),
                        step := BitVec.ofNat 7 (fld w 4 7), lat := BitVec.ofNat 4 (fld w 0 4) }
  let mv : W1Move := { d := BitVec.ofNat 5 (fld w 22 5), a := BitVec.ofNat 5 (fld w 17 5), ctl := BitVec.ofNat 17 (fld w 0 17) }
  match fld w 27 5 with
  | 0x00 => if fld w 0 27 = 0 then .ok .wnop else .error .nop
  | 0x01 => .ok (.xset mv)
  | 0x02 => .ok (.xget mv)
  | 0x03 => .ok (.xshf mv)
  | 0x04 => .ok (.cld st)
  | 0x05 => okWf True (.cst st)
  | 0x06 => .ok (.cldm st)
  | 0x07 => okWf True (.cstm st)
  | 0x08 => .ok (.fagg mv)
  | 0x09 => .ok (.fset mv)
  | 0x0A => .ok (.xside mv)
  | 0x0B => .ok (.mvm mv)
  | _ => .error .op

/-- The M slot (R38, R39). -/
def decodeM (w : Nat) : Except Reject Instr :=
  let x : MOp :=
    { acc := BitVec.ofNat 3 (fld w 56 3), asrc := BitVec.ofNat 4 (fld w 52 4), bsrc := BitVec.ofNat 4 (fld w 48 4),
      afmt := BitVec.ofNat 6 (fld w 42 6), bfmt := BitVec.ofNat 6 (fld w 36 6), nmm := BitVec.ofNat 2 (fld w 34 2),
      nm1 := BitVec.ofNat 5 (fld w 29 5), kblk := BitVec.ofNat 3 (fld w 26 3), lat := BitVec.ofNat 6 (fld w 20 6),
      arow := BitVec.ofNat 8 (fld w 12 8), brow := BitVec.ofNat 8 (fld w 4 8), step := BitVec.ofNat 4 (fld w 0 4) }
  match fld w 59 5 with
  | 0x00 => if fld w 0 59 = 0 then .ok .mnop else .error .nop
  | 0x01 => .ok (.mma x)
  | 0x02 => .ok (.mmas x)
  | 0x03 => .ok (.mmaq x)
  | 0x04 => .ok (.mmab x)
  | 0x05 => .ok (.mzero x)
  | 0x06 => .ok (.mcvt x)
  | 0x07 => .ok (.mtrn x)
  | 0x08 => .ok (.madd x)
  | 0x09 => .ok (.mstat x)
  | _ => .error .op

/-- The bundle that is only a header (R13, R44). -/
def decodeHeaderOnly (w : Nat) : Except Reject Instr :=
  if fld w 28 4 = 0xA ∧ fld w 16 12 = 0 ∧ fld w 0 6 = 0 then
    .ok (.stick (BitVec.ofNat 2 (fld w 14 2)) (BitVec.ofNat 8 (fld w 6 8)))
  else .error .op

def decodeSlot : Slot → Nat → Except Reject Instr
  | .s, w => decodeS w
  | .b, w => decodeB w
  | .e, w => decodeE w
  | .w0, w => decodeW0 w
  | .w1, w => decodeW1 w
  | .m, w => decodeM w
  | .header, w => decodeHeaderOnly w

/-! ### Bundles -/

/-- The slots that a presence mask names, in the order of R28. -/
def presentSlots (pm : Nat) : List Slot :=
  (if fld pm 0 1 = 1 then [.s] else []) ++ (if fld pm 1 1 = 1 then [.b] else []) ++ (if fld pm 2 1 = 1 then [.e] else []) ++
  (if fld pm 3 1 = 1 then [.w0] else []) ++ (if fld pm 4 1 = 1 then [.w1] else []) ++ (if fld pm 5 1 = 1 then [.m] else [])

/-- The bytes of a slot's word (R28). -/
def Slot.bytes : Slot → Nat
  | .e => 8
  | .m => 8
  | .s => 4
  | .b => 4
  | .w0 => 4
  | .w1 => 4
  | .header => 4

/-- A bundle's length in bytes (R28), from its header. -/
def bundleLen (header : Nat) : Nat := 4 + ((presentSlots (fld header 0 6)).map Slot.bytes).sum

/-- The slot words of a bundle from its 32-bit words after the header; missing words count as zero. -/
def slotWords : List Slot → List Nat → List (Slot × Nat)
  | [], _ => []
  | .e :: r, ws => (.e, ws.headD 0 + ws.tail.headD 0 * 2 ^ 32) :: slotWords r (ws.drop 2)
  | .m :: r, ws => (.m, ws.headD 0 + ws.tail.headD 0 * 2 ^ 32) :: slotWords r (ws.drop 2)
  | k :: r, ws => (k, ws.headD 0) :: slotWords r (ws.drop 1)

/-- The scalar registers s1 to s47 that a slot word writes, read from its OP and destination fields (R10, R284). -/
def slotWrites : Slot × Nat → List Nat
  | (.s, w) =>
    let op := fld w 26 6
    let d := fld w 20 6
    if op = 0x00 ∨ op = 0x27 ∨ op = 0x28 ∨ op = 0x2C ∨ op = 0x31 ∨ op = 0x32 ∨ op = 0x33 ∨ (0x35 ≤ op ∧ op ≤ 0x3A) ∨ 0x3C ≤ op then []
    else if 1 ≤ d ∧ d ≤ 47 then [d] else []
  | (.b, w) => if fld w 27 5 = 0x05 ∨ fld w 27 5 = 0x06 then [46] else []
  | (.e, w) =>
    let op := fld w 57 7
    let d := fld w 26 6
    if op = 0x21 then ((List.range (fld w 0 3 + 1)).map (d + ·)).filter (fun n => 1 ≤ n ∧ n ≤ 47 ∧ d ≤ 47)
    else if op = 0x22 then (if 1 ≤ d ∧ d ≤ 47 then [d] else [])
    else []
  | _ => []

/-- The first slot that writes a register which an earlier slot writes (R10). Row 3 of R29 says "slot" and does not say which of the two
writers it names; the model names this later one (log entry 29). -/
def doubleWriter : List Nat → List (Slot × Nat) → Option Slot
  | _, [] => none
  | seen, sw :: r => if (slotWrites sw).any seen.contains then some sw.1 else doubleWriter (slotWrites sw ++ seen) r

/-- A decoded bundle. `ops` holds its instructions in slot order; the header-only bundle holds its one STICK. -/
structure Bundle where
  sel : BitVec 2
  rep : Nat
  len : Nat
  ops : List Instr
  deriving DecidableEq, Repr

/-- A failed check of R29: its row and its slot. -/
structure BadBundle where
  row : Nat
  slot : Slot
  deriving DecidableEq, Repr

/-- Rows 1 to 3 take cause 0x01, rows 4 to 6 cause 0x02. -/
def BadBundle.cause (b : BadBundle) : Nat := if b.row ≤ 3 then 0x01 else 0x02

/-- The first slot word that fails for the given reason. -/
def firstReject (r : Reject) (sws : List (Slot × Nat)) : Option Slot :=
  (sws.find? (fun sw => match decodeSlot sw.1 sw.2 with | .error r' => r' == r | .ok _ => false)).map Prod.fst

def decodedOps (sws : List (Slot × Nat)) : List Instr :=
  sws.filterMap (fun sw => (decodeSlot sw.1 sw.2).toOption)

/-- Checks 1 to 6 of R29 in order, and the bundle when all pass. `words` are the 32-bit words after the header. -/
def decodeBundle (header : Nat) (words : List Nat) : Except BadBundle Bundle :=
  let sws := slotWords (presentSlots (fld header 0 6)) words
  if fld header 28 4 ≠ 0xA ∨ fld header 16 12 ≠ 0 then .error ⟨1, .header⟩
  else if fld header 1 1 = 1 ∧ fld header 6 8 ≠ 0 then .error ⟨2, .b⟩
  else
    match doubleWriter [] sws with
    | some k => .error ⟨3, k⟩
    | none =>
      match firstReject .op sws with
      | some k => .error ⟨4, k⟩
      | none =>
        match firstReject .field sws with
        | some k => .error ⟨5, k⟩
        | none =>
          match firstReject .nop sws with
          | some k => .error ⟨6, k⟩
          | none =>
            .ok { sel := BitVec.ofNat 2 (fld header 14 2), rep := fld header 6 8, len := bundleLen header,
                  ops := if fld header 0 6 = 0 then (decodeHeaderOnly header).toOption.toList else decodedOps sws }

/-! ### The encoder -/

/-- The R and X forms: the low 8 bits hold FN, or FN[7:4] and LAT. -/
def encR (op d a b fn : Nat) : Nat := op * 2 ^ 26 + d * 2 ^ 20 + a * 2 ^ 14 + b * 2 ^ 8 + fn

/-- The I, C and M forms: the low 14 bits hold IMM14, CREG, or OFF and LAT. -/
def encI (op d a imm : Nat) : Nat := op * 2 ^ 26 + d * 2 ^ 20 + a * 2 ^ 14 + imm

/-- The B layouts. -/
def encB (op rest : Nat) : Nat := op * 2 ^ 27 + rest

def encE (op : Nat) (e : Cmd) : Nat :=
  op * 2 ^ 57 + e.kp.toNat * 2 ^ 51 + e.kc0.toNat * 2 ^ 45 + e.kc1.toNat * 2 ^ 39 + e.kc2.toNat * 2 ^ 33 + e.te.toNat * 2 ^ 32 +
    e.p0.code * 2 ^ 26 + e.p1.code * 2 ^ 20 + e.p2.code * 2 ^ 14 + e.p3.code * 2 ^ 8 + e.efn.toNat

def encW0 (op : Nat) (w : W0) : Nat :=
  op * 2 ^ 26 + w.d.toNat * 2 ^ 21 + w.a.toNat * 2 ^ 16 + w.b.toNat * 2 ^ 11 + w.typ.toNat * 2 ^ 5 + w.var.toNat

def encStore (op : Nat) (w : W1Store) : Nat :=
  op * 2 ^ 27 + w.d.toNat * 2 ^ 22 + w.off.toNat * 2 ^ 11 + w.step.toNat * 2 ^ 4 + w.lat.toNat

def encMove (op : Nat) (w : W1Move) : Nat := op * 2 ^ 27 + w.d.toNat * 2 ^ 22 + w.a.toNat * 2 ^ 17 + w.ctl.toNat

def encM (op : Nat) (m : MOp) : Nat :=
  op * 2 ^ 59 + m.acc.toNat * 2 ^ 56 + m.asrc.toNat * 2 ^ 52 + m.bsrc.toNat * 2 ^ 48 + m.afmt.toNat * 2 ^ 42 +
    m.bfmt.toNat * 2 ^ 36 + m.nmm.toNat * 2 ^ 34 + m.nm1.toNat * 2 ^ 29 + m.kblk.toNat * 2 ^ 26 + m.lat.toNat * 2 ^ 20 +
    m.arow.toNat * 2 ^ 12 + m.brow.toNat * 2 ^ 4 + m.step.toNat

/-- The word of an instruction; 0 for the steps that are no words of a program. -/
def encode : Instr → Nat
  | .nop => 0
  | .add d a b sat => encR 0x01 d.code a.code b.code (sat.toNat * 2 ^ 7)
  | .sub d a b sat => encR 0x02 d.code a.code b.code (sat.toNat * 2 ^ 7)
  | .mul d a b sat => encR 0x03 d.code a.code b.code (sat.toNat * 2 ^ 7)
  | .mulh d a b => encR 0x04 d.code a.code b.code 0
  | .mulhn d a b => encR 0x05 d.code a.code b.code 0
  | .div d a b => encR 0x06 d.code a.code b.code 0
  | .divn d a b => encR 0x07 d.code a.code b.code 0
  | .rem d a b => encR 0x08 d.code a.code b.code 0
  | .remn d a b => encR 0x09 d.code a.code b.code 0
  | .and d a b => encR 0x0A d.code a.code b.code 0
  | .or d a b => encR 0x0B d.code a.code b.code 0
  | .xor d a b => encR 0x0C d.code a.code b.code 0
  | .andn d a b => encR 0x0D d.code a.code b.code 0
  | .shl d a b => encR 0x0E d.code a.code b.code 0
  | .shr d a b => encR 0x0F d.code a.code b.code 0
  | .sra d a b => encR 0x10 d.code a.code b.code 0
  | .rot d a b => encR 0x11 d.code a.code b.code 0
  | .min d a b => encR 0x12 d.code a.code b.code 0
  | .max d a b => encR 0x13 d.code a.code b.code 0
  | .minn d a b => encR 0x14 d.code a.code b.code 0
  | .maxn d a b => encR 0x15 d.code a.code b.code 0
  | .clz d a => encR 0x16 d.code a.code 0 0
  | .ctz d a => encR 0x17 d.code a.code 0 0
  | .popc d a => encR 0x18 d.code a.code 0 0
  | .bext d a pos wm1 => encR 0x19 d.code a.code pos.toNat (wm1.toNat * 2 ^ 2)
  | .bins d a pos wm1 => encR 0x1A d.code a.code pos.toNat (wm1.toNat * 2 ^ 2)
  | .sext d a w => encR 0x1B d.code a.code 0 w.toNat
  | .zext d a w => encR 0x1C d.code a.code 0 w.toNat
  | .addi d a imm => encI 0x1D d.code a.code imm.toNat
  | .andi d a imm => encI 0x1E d.code a.code imm.toNat
  | .ori d a imm => encI 0x1F d.code a.code imm.toNat
  | .xori d a imm => encI 0x20 d.code a.code imm.toNat
  | .shli d a sh => encI 0x21 d.code a.code sh.toNat
  | .shri d a sh => encI 0x22 d.code a.code sh.toNat
  | .srai d a sh => encI 0x23 d.code a.code sh.toNat
  | .movi d imm => 0x24 * 2 ^ 26 + d.code * 2 ^ 20 + imm.toNat
  | .movk d hw imm => 0x25 * 2 ^ 26 + d.code * 2 ^ 20 + hw.toNat * 2 ^ 18 + imm.toNat
  | .lea d a b sh => encR 0x26 d.code a.code b.code sh.toNat
  | .cmp a b cc => encR 0x27 0 a.code b.code cc.toNat
  | .cmpi cc a imm => encI 0x28 cc.toNat a.code imm.toNat
  | .setc d => encR 0x29 d.code 0 0 0
  | .sel d a b => encR 0x2A d.code a.code b.code 0
  | .ld d a off lat => encI 0x2B d.code a.code (off.toNat * 2 ^ 4 + lat.toNat)
  | .st d a off => encI 0x2C d.code a.code (off.toNat * 2 ^ 4)
  | .amo d a b opc sz lat => encR 0x2D d.code a.code b.code (opc.toNat * 2 ^ 5 + sz.toNat * 2 ^ 4 + lat.toNat)
  | .cas d a b sz lat => encR 0x2E d.code a.code b.code (sz.toNat * 2 ^ 4 + lat.toNat)
  | .amof d a b lat => encR 0x2F d.code a.code b.code lat.toNat
  | .mfc d creg => encI 0x30 d.code 0 creg.toNat
  | .mtc a creg => encI 0x31 0 a.code creg.toNat
  | .mtsh t a => encR 0x32 t.toNat a.code 0 0
  | .msel z a b => encR 0x33 z.toNat a.code b.code 0
  | .qmov d a => encR 0x34 d.code a.code 0 0
  | .tktest k => encR 0x35 0 k.toNat 0 0
  | .cqpush a => encR 0x36 0 a.code 0 0
  | .fence scope => encR 0x37 0 0 0 scope.toNat
  | .cwb a b => encR 0x38 0 a.code b.code 0
  | .cinv a b => encR 0x39 0 a.code b.code 0
  | .cflush a b => encR 0x3A 0 a.code b.code 0
  | .mfcs d creg => encI 0x3B d.code 0 creg.toNat
  | .mtcs a creg => encI 0x3C 0 a.code creg.toNat
  | .tlbi a b ext => encR 0x3D 0 a.code b.code ext.toNat
  | .bkpt imm => encI 0x3E 0 0 imm.toNat
  | .nopB => 0
  | .brT off => encB 0x01 off.toNat
  | .brF off => encB 0x02 off.toNat
  | .j off => encB 0x03 off.toNat
  | .jr a => encB 0x04 (a.code * 2 ^ 16)
  | .call off => encB 0x05 off.toNat
  | .callr a => encB 0x06 (a.code * 2 ^ 16)
  | .ret => encB 0x07 0
  | .loop cnt last => encB 0x08 (cnt.toNat * 2 ^ 14 + last.toNat)
  | .loopv a last => encB 0x09 (a.code * 2 ^ 16 + last.toNat)
  | .loops a last => encB 0x0A (a.code * 2 ^ 16 + last.toNat)
  | .leave => encB 0x0B 0
  | .cqdrop nm1 => encB 0x0C nm1.toNat
  | .tkwait k => encB 0x0D k.toNat
  | .waitq => encB 0x0E 0
  | .yield => encB 0x0F 0
  | .bara slot => encB 0x10 slot.toNat
  | .barw slot => encB 0x11 slot.toNat
  | .trap code => encB 0x12 code.toNat
  | .sys code => encB 0x13 code.toNat
  | .exit a => encB 0x14 (a.code * 2 ^ 16)
  | .rft => encB 0x15 0
  | .ctxsw => encB 0x16 0
  | .halt => encB 0x17 0
  | .stick sel rep => 0xA * 2 ^ 28 + sel.toNat * 2 ^ 14 + rep.toNat * 2 ^ 6
  | .vnop => 0
  | .vadd w => encW0 0x01 w
  | .vsub w => encW0 0x02 w
  | .vmul w => encW0 0x03 w
  | .vfma w => encW0 0x04 w
  | .vfms w => encW0 0x05 w
  | .vmin w => encW0 0x06 w
  | .vmax w => encW0 0x07 w
  | .vabs w => encW0 0x08 w
  | .vneg w => encW0 0x09 w
  | .vand w => encW0 0x0A w
  | .vor w => encW0 0x0B w
  | .vxor w => encW0 0x0C w
  | .vshl w => encW0 0x0D w
  | .vshr w => encW0 0x0E w
  | .vsra w => encW0 0x0F w
  | .vcmp w => encW0 0x10 w
  | .vsel w => encW0 0x11 w
  | .vcvt w => encW0 0x12 w
  | .vwmul w => encW0 0x13 w
  | .vwfma w => encW0 0x14 w
  | .vdot w => encW0 0x15 w
  | .vscale w => encW0 0x16 w
  | .vclass w => encW0 0x17 w
  | .vexp2 w => encW0 0x18 w
  | .vlog2 w => encW0 0x19 w
  | .vrcp w => encW0 0x1A w
  | .vrsq w => encW0 0x1B w
  | .vsqrt w => encW0 0x1C w
  | .vsinp w => encW0 0x1D w
  | .vcosp w => encW0 0x1E w
  | .vtanh w => encW0 0x1F w
  | .vrsum w => encW0 0x20 w
  | .vrmax w => encW0 0x21 w
  | .vrmin w => encW0 0x22 w
  | .vperm w => encW0 0x23 w
  | .vbcst w => encW0 0x24 w
  | .vmovi w => encW0 0x25 w
  | .vmov w => encW0 0x26 w
  | .vmask w => encW0 0x27 w
  | .vflag w => encW0 0x28 w
  | .viota w => encW0 0x29 w
  | .wnop => 0
  | .xset w => encMove 0x01 w
  | .xget w => encMove 0x02 w
  | .xshf w => encMove 0x03 w
  | .cld w => encStore 0x04 w
  | .cst w => encStore 0x05 w
  | .cldm w => encStore 0x06 w
  | .cstm w => encStore 0x07 w
  | .fagg w => encMove 0x08 w
  | .fset w => encMove 0x09 w
  | .xside w => encMove 0x0A w
  | .mvm w => encMove 0x0B w
  | .mnop => 0
  | .mma m => encM 0x01 m
  | .mmas m => encM 0x02 m
  | .mmaq m => encM 0x03 m
  | .mmab m => encM 0x04 m
  | .mzero m => encM 0x05 m
  | .mcvt m => encM 0x06 m
  | .mtrn m => encM 0x07 m
  | .madd m => encM 0x08 m
  | .mstat m => encM 0x09 m
  | .sbind e => encE 0x01 e
  | .sfree e => encE 0x02 e
  | .hload e => encE 0x08 e
  | .hgath e => encE 0x09 e
  | .hldz e => encE 0x0A e
  | .hstore e => encE 0x0B e
  | .hscat e => encE 0x0C e
  | .hstz e => encE 0x0D e
  | .hstzTensor e => encE 0x0D e
  | .hmcast e => encE 0x0E e
  | .copy e => encE 0x10 e
  | .cfill e => encE 0x11 e
  | .csqz e => encE 0x12 e
  | .cxpd e => encE 0x13 e
  | .zmap e => encE 0x14 e
  | .tkjoin e => encE 0x18 e
  | .enq e => encE 0x20 e
  | .deq e => encE 0x21 e
  | .qinfo e => encE 0x22 e
  | .rfence e => encE 0x28 e
  | .pgreq e => encE 0x29 e
  | .scrlim e => encE 0x2A e
  | .reds e => encE 0x30 e
  | .redd e => encE 0x31 e
  | .bcst e => encE 0x32 e
  | .rgrp e => encE 0x33 e
  | .launch e => encE 0x38 e
  | .cancel e => encE 0x39 e
  | .abort e => encE 0x3A e
  | .ctxsave e => encE 0x3B e
  | .ctxload e => encE 0x3C e
  | .flushall e => encE 0x3D e
  | .resultLand _ | .faggResult _ | .dripTrayAppend _ | .trapEntry | .commandStart _ | .transferTile _
  | .hatchFill _ _ | .hatchDrainTake _ _ | .ticketComplete _ | .streamFetch _ | .streamStore _ | .queueDecision _
  | .spillMove _ _ _ | .swWriteBackMerge _ | .gets _ _ | .getx _ _ | .tok _ | .wb _ _ | .pact _ _ _ | .pdeact _
  | .zclr _ _ | .zack _ | .transientRetry _ | .persistentEscalation _ | .backInvalidateTimeout _ | .lineReset _
  | .uncorrectableError _ | .scratchSample _ _ | .groupFormation _ | .collectiveOperation _ | .stripeMerge _ _ _
  | .preemptionRequest _ | .landing | .contextSwitch | .drain | .resumption _ _ _ _ | .dispatch _ _ _ _
  | .agingInterval _ _ _ | .rebalanceInterval _ | .watchdogExpiry | .pipelineEnd _ | .sqTailUpdate _
  | .submissionRecord _ | .submissionNotReady _ | .hostMemAccess _ _ _ _ | .powerOnReset | .conventionalReset
  | .functionLevelReset | .linkReplayFailure _ | .fatalError _ | .powerArbiterPeriod _ | .thermalThrottle _ _
  | .thermalTrip _ | .xlatchWrite _ | .pwrbudWrite _ | .mgmtRegisterWrite _ _ | .getVersion | .getCapabilities
  | .negotiateAlgorithms | .getCertificate | .challenge _ | .getMeasurements | .managementControllerRestart _
  | .backInvalidateAnswer _ | .powerOff => 0

/-- The slots in the order in which a lone word is tried. -/
def tableSlots (nbits : Nat) : List Slot := if nbits ≤ 32 then [.s, .b, .header, .w0, .w1] else [.e, .m]

/-- The slot and the instruction of a lone word: a word does not say which slot it stands in, so the first slot whose decoder
takes it is meant (log entry 14). -/
def tableDecode : List Slot → Nat → Option (Slot × Instr)
  | [], _ => none
  | k :: r, w =>
    match decodeSlot k w with
    | .ok i => some (k, i)
    | .error _ => tableDecode r w

def decodeTableWord (nbits w : Nat) : Option Instr := (tableDecode (tableSlots nbits) w).map Prod.snd

/-- The presence mask of a bundle that holds one slot word, or none (R27). -/
def Slot.presence : Slot → Nat
  | .s => 1
  | .b => 2
  | .e => 4
  | .w0 => 8
  | .w1 => 16
  | .m => 32
  | .header => 0

/-- The bytes of a number, least significant first (R3). -/
def leBytes : Nat → Nat → List Byte
  | 0, _ => []
  | n + 1, w => BitVec.ofNat 8 w :: leBytes n (w / 256)

/-- The number that bytes make, least significant first. -/
def ofLeBytes : List Byte → Nat
  | [] => 0
  | b :: r => b.toNat + 256 * ofLeBytes r

/-- The bytes of the bundle that holds one slot word and nothing else, selector z0, issued once. -/
def loneBundle (k : Slot) (w : Nat) : List Byte :=
  if k = .header then leBytes 4 w else leBytes 4 (0xA0000000 + k.presence) ++ leBytes k.bytes w

end Sys2Proof
end

