-- ==== Sys2Proof/Config.lean ====
section
/-! DEFINITION. What an implementation fixes and the spec leaves open. A constant with no body is a free value: nothing
evaluates it and nothing can be proved of it, so a statement holds whatever it is. Free values are drawn with a key, so that
two draws need not agree. Each is named in a row of notes/assumptions. -/

namespace Sys2Proof.Config

/-- Which of two allowed values stands, drawn with a key: an early read of a scalar register (R19), where `true` is the new value, or a
byte of META that two fields name. Log entries 3 and 59. -/
opaque raceNew : Nat → Bool

/-- The same choice for the elements of a cell register: a 1 in bit e selects the new value of element e. Log entry 3. -/
opaque raceMask : Nat → Nat

/-- Whether an access uses the older of two translations, or of two versions of a shape record, that the spec allows
(R216, R224); whether an agent ignores a transient request (R359). Log entry 4. -/
opaque useOld : Nat → Bool

/-- The data bits of an element whose poison mark replaces its value (R128), from a key and the width. Log entry 5. -/
opaque underPoison : Nat → Nat → Nat

/-- The result of a special function, should the model's interval computation not separate it from a rounding boundary
(R126): function code, format code and operand bits. Log entry 6. -/
opaque specialValue : Nat → Nat → Nat → Nat

/-- The bytes that the spec does not state a command to write or leave, from a key and a position. Log entry 7. -/
opaque freeByte : Nat → Nat → Byte

/-- What TBTGT records for a branch not taken while the header of one of its delay bundles cannot be read. Log entry 19. -/
opaque lateTarget : BitVec 56

/-- The image measured into index 1 by the boot ROM, and the firmware image measured into index 2 (R398, R401). -/
opaque bootImage : List Byte
opaque firmwareImage : List Byte

/-- The image of the supervisor runtime that a launch record installs (R401). Log entry 22. -/
opaque runtimeImage : List Byte → List Byte

/-- The extension of a measurement index by a further digest (R401). Log entry 8. -/
opaque extend : BitVec 512 → BitVec 512 → BitVec 512

/-- The answers of the SPDM responder whose contents SPDM 1.2 and the device key fix, not the spec (R401): a request code
and its data. Log entry 8. -/
opaque spdmAnswer : Nat → List Byte → List Byte

/-- The signature with the device key over a message (R401). -/
opaque sign : List Byte → List Byte

/-- The set of a plain partition that a line lies in, and the physical line of a packed partition that a compressed line is put in, from
the size of the plain partition, a memory die and a line number; the block of die SRAM that a line of a die cache lies in (R178, R184). Log entry 28. -/
opaque plainSet : Nat → Nat → Nat → Nat
opaque packedLine : Nat → Nat → Nat → Nat
opaque sramBlock : Nat → Nat → Nat

/-- The size code that the compressor gives a 128-byte block (R186), from its bytes as a number. Log entry 28. -/
opaque sizeCode : Nat → BitVec 2

/-- Whether the host leaves a back-invalidate unanswered for 100 µs (R363). Log entry 15. -/
opaque hostSilent : Nat → Bool

/-- Whether the host does not accept a write of the device to its memory (R400). Log entry 69. -/
opaque hostRefuses : Nat → Bool

/-- Whether 2 µs have passed since a requester's first transient request (R360). Log entry 9. -/
opaque timeUp : Nat → Bool

/-- Cycles of the 1.1 GHz arithmetic clock in one microsecond (R4, R360). -/
def cyclesPerMicro : Nat := 1100

end Sys2Proof.Config
end

