-- ==== Sys2Proof/Machine/State.lean ====
section
/-! DEFINITION. The state of the module as plain data: every piece of state that the spec names, of the sequencers, the
cells, the engines, the queues, the scheduler, coherence, the management registers and the host side. -/

namespace Sys2Proof.Machine

open Host (Cell)

/-- Reasons for which the model stops a step. -/
inductive Fault where
  /-- The module has no power: nothing of it acts until a power-on reset (R398). Raised by `step`
  when its next input is no power-on reset. Safe: nothing is claimed of a module without power. -/
  | noPower
  deriving DecidableEq, Repr

/-- Reasons for which the model gives no meaning. -/
inductive Refusal where
  /-- The instruction has no meaning in this model yet. Raised by `exec`'s refused arms only. Safe. -/
  | notModelled (mnemonic : String)
  deriving DecidableEq, Repr

/-! ### Cells (R88) -/

/-- A communication register or a hatch element: data part and side part (R147). `bad` marks each byte of META that an uncorrectable
error has struck (R164). -/
structure Chunk where
  data : BitVec 512
  psn : BitVec 64
  res : BitVec 64
  info : BitVec 384
  bad : BitVec 48
  deriving DecidableEq, Repr

/-- A vector register with the poison mark of each byte (R133). -/
structure VReg where
  bits : BitVec 4096
  poi : BitVec 512
  deriving DecidableEq, Repr

/-- A tile register with the poison mark of each byte. -/
structure TReg where
  bits : BitVec 16384
  poi : BitVec 2048
  deriving DecidableEq, Repr

/-- A mask register with the poison mark of each bit. -/
structure GReg where
  bits : BitVec 1024
  poi : BitVec 1024
  deriving DecidableEq, Repr

/-- One 64-byte unit of a cell-store partition with the poison mark of each byte (R153). -/
structure Unit64 where
  bits : BitVec 512
  poi : BitVec 64
  deriving DecidableEq, Repr

/-- The state of one cell for one context (R88). `store` lists the 64-byte units of the cell-store partition that are not all
zero and unpoisoned, by rising unit number. -/
structure CellState where
  v : Vector VReg 32
  m : Vector TReg 8
  g : Vector GReg 8
  f : Bool
  fPoi : Bool
  xh : Chunk
  xv : Chunk
  store : List (Nat × Unit64)
  deriving DecidableEq, Repr

/-- The name of a cell register that a wave operation reads or writes. -/
inductive CellReg where
  | v (n : Fin 32)
  | m (n : Fin 8)
  | g (n : Fin 8)
  | f
  | xh
  | xv
  deriving DecidableEq, Repr

/-- New contents of the bits [lo + len − 1 : lo] of one register of one cell. `val` and `poi` are numbered as the whole
register's bits and poison marks. -/
structure CellWrite where
  cell : Nat
  reg : CellReg
  lo : Nat
  len : Nat
  val : Nat
  poi : Nat
  deriving DecidableEq, Repr

/-- An uncorrectable error in a cell that no operation has met yet (R317, kinds 3 and 4). -/
structure CellErr where
  cell : Nat
  /-- The register struck, or none for the cell store. -/
  reg : Option CellReg
  /-- The 8-byte word struck. -/
  word : Nat
  deriving DecidableEq, Repr

/-- The classes of memory that a physical byte can lie in (R192, R348, R351). -/
inductive MemClass where
  | plain
  | packed
  | software
  | pinned
  | host
  deriving DecidableEq, Repr

/-- A placed physical byte: its address, its memory key, and what its region says of it (R348). -/
structure Place where
  pa : Nat
  key : Nat
  cls : MemClass
  zmap : Bool
  cmpr : Bool
  deriving DecidableEq, Repr

/-- Where a virtual byte lies (R177, R179): in memory; in the die SRAM of a brigade member's partition; in the memory of a partition's
backing range, reached through a die cache while its context is resident; or in a backing range that the device cannot reach. -/
inductive Loc where
  | mem (p : Place)
  | scratch (rank off : Nat)
  | backing (p : Place) (die : Option Nat)
  | lost (lnum va : Nat)
  deriving DecidableEq, Repr

/-! ### The sequencer (R6) -/

/-- The privilege levels (R24). -/
inductive Level where
  | user
  | supervisor
  | firmware
  deriving DecidableEq, Repr

/-- One entry of the condition queue (R15): the number that its producer knows it by, its bit once filled, and the mark of an
entry filled from poison (R155). -/
structure CqEntry where
  tag : Nat
  val : Option Bool
  poi : Bool
  deriving DecidableEq, Repr

/-- One entry of the loop stack (R16). -/
structure LoopEntry where
  first : Nat
  last : Nat
  idx : Nat
  remain : Nat
  deriving DecidableEq, Repr

/-- A selector: its row mask and column mask (R67). -/
structure Selector where
  rows : BitVec 16
  cols : BitVec 16
  deriving DecidableEq, Repr

/-- A ticket (R237). `away` is set while its collective runs away from a drained context (R332). -/
structure Ticket where
  pending : Bool
  status : BitVec 4
  detail : BitVec 32
  te : Bool
  away : Bool
  deriving DecidableEq, Repr

/-- One element of a scalar stream's buffer. A read stream's element carries how its fetch ended; a written element is `owed`
until its producer's result has landed (R50). -/
inductive StreamElem where
  | value (w : Word)
  | poisoned (w : Word) (addr : Nat)
  | fault (cause : Nat) (addr : Nat)
  | owed (tag : Nat)
  deriving DecidableEq, Repr

/-- How far a stream's binding has come (R242). -/
inductive StreamBind where
  | unbound
  | binding
  | bound
  deriving DecidableEq, Repr

/-- A scalar stream q0 to q14 (R242 to R245). -/
structure Stream where
  bind : StreamBind
  delta : Bool
  write : Bool
  size : BitVec 2
  cnt : Vector (BitVec 32) 4
  str : Vector Word 4
  base : Word
  /-- Elements delivered (read stream) or accepted (write stream). -/
  taken : Nat
  /-- Pattern index fetched next, or stored next. -/
  next : Nat
  buf : List StreamElem
  /-- A store has faulted, which ended the stream's stores (R244). -/
  dead : Bool
  /-- The fault of that store while its trap has not been taken: cause and element address. -/
  stuck : Option (Nat × Nat)
  /-- The number of the SBIND that binds it. -/
  binder : Nat
  asid : Nat
  level : Level
  deriving DecidableEq, Repr

/-- Where an outstanding result lands. -/
inductive Dest where
  | none
  | reg (n : Fin 48)
  | stream (q : Fin 16) (tag : Nat)
  | cells
  deriving DecidableEq, Repr

/-- A result outstanding under a bound (R18): issue `bound` is the first that may read its destination. -/
structure Pending where
  dest : Dest
  value : Word
  writes : List CellWrite
  /-- The writes are those of an accumulating operation (R160). -/
  acc : Bool
  bound : Nat
  /-- Issue number and bundle address of the producer. -/
  made : Nat
  addr : Nat
  /-- The source code of R319 when the result consumed poison. -/
  poison : Option Nat
  deriving DecidableEq, Repr

/-- The upper part of an LD or ST that crosses a 128-byte line, which is the second of two accesses (R195): the places of its bytes;
a store's bytes; for a load, the bytes of the lower part, whether one was poisoned, and the outstanding result it completes; and what
waits for it. -/
structure Half where
  locs : List Loc
  bytes : List Byte
  low : Nat
  lowPoi : Bool
  dest : Dest
  made : Nat
  /-- Barrier slots at which the context arrives once the part is made, for a BARA of the same bundle (R85). -/
  arrive : List (BitVec 3)
  deriving DecidableEq, Repr

/-- What a flag aggregate does when it arrives (R98). -/
inductive FaggTarget where
  | queue (tag : Nat)
  | rows (z : BitVec 2)
  | cols (z : BitVec 2)
  deriving DecidableEq, Repr

/-- A flag aggregate in flight: it arrives in cycle `due`. -/
structure FaggFlight where
  due : Nat
  target : FaggTarget
  value : BitVec 16
  poi : Bool
  made : Nat
  addr : Nat
  deriving DecidableEq, Repr

/-- A record of the drip tray (R130). -/
structure DripRec where
  count : BitVec 32
  event : BitVec 8
  col : BitVec 4
  row : BitVec 6
  slot : BitVec 3
  addr : BitVec 56
  deriving DecidableEq, Repr

/-- The records of one wave word on their way to the drip tray (R129). -/
structure DripFlight where
  due : Nat
  recs : List DripRec
  deriving DecidableEq, Repr

/-- What the previous read of q15 returned (R131). -/
inductive DripHalf where
  | none
  | record
  | null
  deriving DecidableEq, Repr

/-- A deferred array fault that a cell has raised (R317). -/
structure DeferredFault where
  issue : Nat
  /-- A trap of another cause was taken first: it waits for the first issue of program code after RFT (R315). -/
  held : Bool
  /-- It has waited so, and is taken before the next issue. -/
  due : Bool
  kind : BitVec 3
  slot : BitVec 2
  row : Nat
  col : Nat
  addr : Nat
  deriving DecidableEq, Repr

/-- A pending report of consumed poison (R322). -/
structure PoisonReport where
  issue : Nat
  info : Word
  held : Bool
  deriving DecidableEq, Repr

/-- The operations of a hardware queue (R262). -/
inductive QueueOpKind where
  | enq
  | deq
  | qinfo
  deriving DecidableEq, Repr

/-- A queue operation that its queue has not decided yet. -/
structure QueueOp where
  kind : QueueOpKind
  /-- 0 input queue, 1 first output, 2 second output. -/
  which : Nat
  tag : Nat
  entry : BitVec 512
  poi : BitVec 64
  dest : Opnd
  count : Nat
  made : Nat
  addr : Nat
  deriving DecidableEq, Repr

/-- The sticky wave slots with their issue counts since they were last mentioned (R13). -/
structure Sticky where
  w0 : Option Instr
  w1 : Option Instr
  w1n : Nat
  m : Option Instr
  mn : Nat
  deriving DecidableEq, Repr

/-- A ticket that a command consumes: the command that produces it, and its status and detail once that command has ended
(R238). -/
structure TicketDep where
  seq : Nat
  kept : Option (BitVec 4 × BitVec 32)
  deriving DecidableEq, Repr

/-- An engine command in flight (R237, R327). -/
structure EngCmd where
  op : Instr
  e : Cmd
  /-- Its number in the context's issue order. -/
  seq : Nat
  p : Vector Word 4
  idx : List Word
  asid : Nat
  level : Level
  /-- TTBASE as it stood at issue (R218). -/
  ttbase : Nat
  /-- The tickets it consumes, in KC order. -/
  deps : List TicketDep
  started : Bool
  /-- Its ticket is complete and elements of its hatch are still owed (R250). -/
  closed : Bool
  /-- Status and detail once it has ended. -/
  outcome : Option (BitVec 4 × BitVec 32)
  /-- What it delivers from now on is zero and poisoned (R253). -/
  sink : Bool
  /-- The shape records read at issue, and their scale records, as 1,024-bit numbers. -/
  recs : List (BitVec 1024)
  scales : List (Option (BitVec 1024))
  /-- The operand block read at the start. -/
  block : BitVec 512
  /-- The header and bitmask of a record, read at the start (R253). -/
  bytes : List Byte
  /-- The next transfer tile; of a drain command to tensors, how many elements it has stored, counted anew for each destination that has
  its own turn. -/
  tile : Nat
  /-- HMCAST: the destinations overlap, so that each is written after the one before it (R261). -/
  serial : Bool
  /-- Per lane, the next position. -/
  prog : List Nat
  /-- The transfer tiles whose generation has been checked: tensor and tile number. -/
  checked : List (Nat × Nat)
  /-- Non-resident 64 KiB frames touched (R239). -/
  miss : List Nat
  /-- It has met the condition of status 6, and the units or elements counted for it (R239). -/
  met6 : Bool
  poisoned : Nat
  /-- The 64-byte units of memory that it has written with a mark. -/
  units : List Nat
  /-- Saturated elements counted (status 8). -/
  clamps : Nat
  /-- Per 4 KiB tile of a zero-mapped region, the bytes written with zero so far, as a mask (R189). -/
  zeroed : List (Nat × Nat)
  /-- Elements taken and held, with their lane and position. -/
  held : List (Nat × Nat × Chunk)
  /-- Bytes of its last transfer that it has not written yet, each with its mark (R194). -/
  out : List (Loc × Byte × Bool)
  /-- Which of the bytes that it writes next stay for later: bit 0 is the next one (R194). -/
  later : Nat
  /-- The collective operation's number on its group (R379). -/
  opNo : Nat
  deriving DecidableEq, Repr

/-- Why a context ended (R87, R302). -/
inductive EndReason where
  | exit (value : BitVec 32)
  | chain
  | idle
  | aborted
  | watchdog
  | deviceFault
  deriving DecidableEq, Repr

/-- What a context is doing. -/
inductive Status where
  /-- No context. -/
  | absent
  /-- Its instance waits in a ready queue and has never run, or its state lies in its save area. -/
  | ready
  | running
  /-- Stopped by HALT, resident (R336). -/
  | halted
  /-- Landed: it issues nothing until a switch or a drain (R324). -/
  | landed
  /-- Drained by CTXSAVE: never dispatched until CTXLOAD (R338). -/
  | parked
  /-- It has stopped issuing and its remaining work drains (R87). -/
  | ending (r : EndReason)
  | ended (r : EndReason)
  deriving DecidableEq, Repr

/-- Why a pre-emption request was sent. -/
inductive RequestKind where
  /-- The array switches to its other resident context. -/
  | switch
  /-- The context is drained and its instance goes back to the ready queue. -/
  | drain
  /-- CTXSAVE: the context is drained into a given area of the issuer's address space and parked. -/
  | park (area asid : Nat) (owner seq : Nat)
  deriving DecidableEq, Repr

/-- The binding of a reduction-group slot (R378). -/
inductive GroupSlot where
  | free
  | pending (key : Nat)
  | bound (key : Nat)
  deriving DecidableEq, Repr

/-- The registers that the cells read (R63), as a bundle with repeats found them at its first issue. -/
structure CellRegs where
  mshp : Vector Word 8
  fnver : Word
  dtmask : Word
  sgeoa : Word
  sgeob : Word
  z : Vector Selector 4
  deriving DecidableEq, Repr

/-- A context: the sequencer state of R6, the cell state of R88 for its array or, in a chain's leader, for every member's
array, its engines' state and its place in its pipeline. -/
structure Context where
  status : Status
  lnum : Nat
  stage : Nat
  inst : Nat
  rank : Nat
  brigade : Nat
  chainLen : Nat
  foot : Nat
  /-- The array it is placed on, and whether it is the one of the array's two residents that may issue. -/
  array : Option Nat
  active : Bool
  /-- The array it was last drained from. -/
  lastArray : Option Nat
  request : Option RequestKind
  /-- The area of its last drain, by virtual address, or none. -/
  saved : Option Nat
  /-- The address space of that area. -/
  savedAsid : Nat
  fused : Bool
  -- sequencer registers
  regs : Vector Word 48
  pc : Nat
  level : Level
  loops : List LoopEntry
  cq : List CqEntry
  z : Vector Selector 4
  sticky : Sticky
  suspended : Option Sticky
  streams : Vector Stream 16
  tickets : Vector Ticket 64
  -- issue state
  rep : Nat
  /-- The words of the bundle that is being repeated, header first; none before its first issue. -/
  cur : List Nat
  dsc : Nat
  target : Word
  /-- The pending target is the address after the delay bundles, whose headers could not be read yet (R75). -/
  late : Bool
  /-- The registers that the cells read for the repeats of the bundle being issued, where its S slot has written one (R63). -/
  cellRegs : Option CellRegs
  issues : Nat
  cycle : Nat
  timer : Nat
  tag : Nat
  cmdSeq : Nat
  freeW0 : Nat
  freeW1 : Nat
  freeM : Nat
  stepping : Bool
  trapDue : Option (Nat × Word)
  /-- Where a zero-trip loop or LEAVE in the bundle being issued sends the sequencer (R76, R79). -/
  goto : Option Nat
  /-- YIELD has been held for its cycle (R83). -/
  yielded : Bool
  /-- The context stands at a landing point (R324). -/
  landPoint : Bool
  /-- It is held in WAITQ (R310). -/
  inWaitq : Bool
  /-- The model's own: how many steps of other agents have come in its turns. -/
  polls : Nat
  /-- The second part of an access that crosses a line, not yet made (R195). -/
  half : Option Half
  /-- It stops, so, once its bundle has issued all its repeats (R337). -/
  doomed : Option EndReason
  -- results and events under way
  pend : List Pending
  faggs : List FaggFlight
  dripFlights : List DripFlight
  faults : List DeferredFault
  reports : List PoisonReport
  qops : List QueueOp
  drip : List DripRec
  dripHalf : DripHalf
  -- control registers (R64)
  mshp : Vector Word 8
  fnver : Word
  dtmask : Word
  dtlost : Word
  sgeoa : Word
  sgeob : Word
  scrlo : Word
  scrhi : Word
  asid : Word
  ttbase : Word
  ctxid : Word
  chainlat : Word
  tvec : Word
  tcause : Word
  tepc : Word
  tdsc : Word
  tbtgt : Word
  trep : Word
  tinfo : Word
  -- cells and hatches
  cells : List CellState
  cellErrs : List CellErr
  hatches : Vector (Vector (List Chunk) 16) 12
  -- engines
  cmds : List EngCmd
  groups : Vector GroupSlot 4
  groupOps : Vector Nat 4
  -- brigade
  bars : Vector (BitVec 32) 8
  /-- The bytes of its scratch partition that lie in die SRAM, by offset, and their poison marks; the rest lie in its backing range
  in memory (R177). -/
  scratch : List Cell
  scratchPoi : List Nat
  /-- The 1 MiB blocks of die SRAM that hold the partition, the lowest offset first (R176). -/
  blocks : List Nat
  descLo : Nat
  descHi : Nat
  exitVal : Option (BitVec 32)
  deriving DecidableEq, Repr

/-! ### Memory, translation and coherence -/

/-- The caches on a context's path: an L1, a die cache, and an L2 slice of a memory die (R174, R176, R182). -/
inductive CacheId where
  | l1 (array : Nat)
  | die (d : Nat)
  | l2 (md slice : Nat)
  deriving DecidableEq, Repr

/-- A software-managed line in a cache (R187): its bytes, its dirty-byte mask, and whether it is stale. -/
structure SwLine where
  cache : CacheId
  /-- PA[51:7], by which a cache knows a line (R349). -/
  line : Nat
  /-- Memory key of the first byte at the home it had when it was filled (R349). -/
  key : Nat
  data : BitVec 1024
  poi : BitVec 128
  dirty : BitVec 128
  stale : Bool
  /-- In an L1: the arrays whose contexts find it there, also once a fused set has dissolved or formed (R175). -/
  serves : List Nat
  deriving DecidableEq, Repr

/-- A write-back of dirty bytes on its way to the home (R188, R199), or a store to host memory on its way to the host (R204). -/
structure WriteBack where
  /-- PA[51:7] of the line, and the memory key of its first byte. -/
  line : Nat
  key : Nat
  data : BitVec 1024
  poi : BitVec 128
  mask : BitVec 128
  /-- CTXID of the context whose CWB, drain or store sent it, if one did. -/
  owner : Option Nat
  /-- The cache that sent it; none for a store to host memory. -/
  src : Option CacheId
  /-- The arrays whose contexts found the line in the L1 that sent it. -/
  serves : List Nat
  /-- The compute dies whose agents a FENCE.die has made it visible to (R202). -/
  fenced : List Nat
  deriving DecidableEq, Repr

/-- A holder's state of one coherent line (R356). -/
structure Holder where
  agent : Nat
  tokens : Nat
  owner : Bool
  valid : Bool
  dirty : Bool
  deriving DecidableEq, Repr

/-- A line's tag in the memory-side cache of its home die (R184, R365): the tokens it counts, the owner bit, the dirty flag, the
32-byte sectors present, and a stamp of its last use. -/
structure HomeTag where
  tokens : Nat
  owner : Bool
  dirty : Bool
  sectors : BitVec 4
  used : Nat
  deriving DecidableEq, Repr

/-- A coherent line of which not all is quiet at its home. Where the memory-side cache has no tag for it, the AWAY bit of its HBM4
block says whether the home holds all 128 tokens or none (R365). -/
structure Line where
  /-- PA[51:7]. -/
  line : Nat
  /-- Memory key of the first byte. -/
  key : Nat
  cls : MemClass
  holders : List Holder
  tag : Option HomeTag
  away : Bool
  /-- The memory dies whose agents may hold copies, as the home slice notes them (R182, R183). -/
  hints : List Nat
  deriving DecidableEq, Repr

/-- A message in flight that carries tokens (R358): a TOK to an agent, or a WB to the home when `dest` is none. -/
structure TokMsg where
  line : Nat
  dest : Option Nat
  tokens : Nat
  owner : Bool
  data : Bool
  dirty : Bool
  deriving DecidableEq, Repr

/-- A transient request that has not been satisfied (R359, R360). -/
structure TransientReq where
  agent : Nat
  line : Nat
  write : Bool
  sent : Nat
  deriving DecidableEq, Repr

/-- An active entry of a persistent-request table (R361). -/
structure PersistentReq where
  agent : Nat
  line : Nat
  write : Bool
  seq : BitVec 16
  deriving DecidableEq, Repr

/-- The persistent-request table of one memory die: its active entries, at most one for each agent, and the deactivations held
until their activations arrive (R361, R364). -/
structure PTable where
  active : List PersistentReq
  early : List (Nat × BitVec 16)
  deriving DecidableEq, Repr

/-- A persistent request under way, as its requester and its home die know it (R362, R364): the SEQ once it has been assigned, and
whether the access that raised it has been performed. -/
structure Claim where
  agent : Nat
  line : Nat
  write : Bool
  seq : Option (BitVec 16)
  done : Bool
  deriving DecidableEq, Repr

/-- A back-invalidate that the host has not answered (R363): the line, the agent that its tokens go to, and whether all of them do, or one
with the data (R359). -/
structure Snoop where
  line : Nat
  dest : Nat
  all : Bool
  deriving DecidableEq, Repr

/-- A PACT or PDEACT in flight (R358): on its way to the home die when `table` is none, else to the table of a memory die. -/
structure PMsg where
  act : Bool
  agent : Nat
  line : Nat
  write : Bool
  table : Option Nat
  seq : BitVec 16
  deriving DecidableEq, Repr

/-- A write of the host that it has issued (R203): its bytes by memory key, its place, and whether it has been performed while an
earlier one has not. -/
structure Posted where
  pa : Nat
  bytes : List Byte
  performed : Bool
  deriving DecidableEq, Repr

/-- A fused set (R175): the arrays of one brigade instance's members on one compute die, in ascending member rank. -/
structure FusedSet where
  lnum : Nat
  stage : Nat
  inst : Nat
  die : Nat
  arrays : List Nat
  deriving DecidableEq, Repr

/-- A translation kept by the last-level TLB of a memory die (R216). -/
structure TlbEntry where
  md : Nat
  asid : Nat
  size : Nat
  vpn : Nat
  ppn : Nat
  readOk : Bool
  writeOk : Bool
  execOk : Bool
  userOk : Bool
  deriving DecidableEq, Repr

/-- A shape record kept by a compute die's record cache (R224). -/
structure CachedRec where
  die : Nat
  asid : Nat
  va : Nat
  bits : BitVec 1024
  deriving DecidableEq, Repr

/-- The registers of R211 and R348, as written and as latched. -/
structure XlatRegs where
  xhatb : Word
  xastb : Word
  xiptb : Vector Word 6
  xdbmb : Vector Word 6
  rgn : Vector (BitVec 128) 64
  deriving DecidableEq, Repr

/-! ### Pipelines (R106 to R108) -/

/-- One queue entry: 64 bytes with their poison marks; or, when the spill ring holds it, its slot there, and its bytes lie in
memory. -/
structure QEntry where
  bits : BitVec 512
  poi : BitVec 64
  ring : Option Nat
  deriving DecidableEq, Repr

/-- A stage of a live pipeline: its descriptor (R108) and its input queue, oldest entry first. -/
structure Stage where
  quota : Nat
  maxInst : Nat
  minInst : Nat
  scrHi : Nat
  scrLo : Nat
  out0 : Nat
  out1 : Nat
  foot : Nat
  fuse : Bool
  chain : Nat
  ctxs : Nat
  entry : Nat
  queue : List QEntry
  deriving DecidableEq, Repr

/-- What an instance is doing. -/
inductive InstState where
  /-- In the ready queue, never dispatched. -/
  | fresh
  /-- Dispatched. -/
  | running
  /-- Drained, in the ready queue. -/
  | drained
  /-- Drained by CTXSAVE. -/
  | parked
  | ended
  deriving DecidableEq, Repr

/-- An instance of a stage (R106, R307). -/
structure Inst where
  stage : Nat
  slot : Nat
  state : InstState
  prio : Nat
  /-- The model's stamp of when it last became ready, by which equal priorities take turns. -/
  since : Nat
  deriving DecidableEq, Repr

/-- A live pipeline (R106, R107). -/
structure Pipeline where
  lnum : Nat
  asid : Nat
  level : Level
  prio : Nat
  wdog : Nat
  age : Nat
  rebal : Nat
  compl : Nat
  spill : Nat
  saveBase : Nat
  saveLen : Nat
  ttbase : Nat
  phase : BitVec 8
  stages : List Stage
  insts : List Inst
  results : List QEntry
  exitOr : BitVec 32
  nzcnt : Nat
  dispatched : Bool
  /-- The completion status met so far (R302). -/
  status : Nat
  /-- It is being ended: no instance is dispatched or resumed any more. -/
  closing : Bool
  /-- The ABORT commands that wait for its completion record: CTXID and command number. -/
  aborters : List (Nat × Nat)
  deriving DecidableEq, Repr

/-! ### Reductions (R370 to R383) -/

/-- One contributor's declaration of a group (R371, R378). -/
structure GroupDecl where
  ctx : Nat
  slot : Nat
  cmd : Nat
  rank : Nat
  n : Nat
  f : Nat
  fmt : Nat
  t : Nat
  rmap : List Nat
  deriving DecidableEq, Repr

/-- A stripe: its number, its encoding, and its present offsets with their value bits and poison (R373). -/
structure Stripe where
  num : Nat
  dense : Bool
  vals : List (Nat × BitVec 32 × Bool)
  deriving DecidableEq, Repr

/-- The running operation of a group: one list of stripes for each node of each level of the logical tree that has been
formed, the clamps counted (R372, R374), and the conditions that have arisen at single contributors, by rank (R379). -/
structure GroupRun where
  levels : List (List (Option (List Stripe)))
  clamps : Nat
  fates : List (Nat × Nat × Nat)
  /-- The non-resident frames met, each with the rank that met it (R239, R379). -/
  miss : List (Nat × Nat)
  /-- The outcomes, by rank, once the result has reached the receivers, which may still be writing it (R194, R379). -/
  ends : Option (List (Nat × Nat × Nat))
  /-- The lowest stripe from which a poisoned index taints the result (R382). -/
  taint : Option Nat
  deriving DecidableEq, Repr

/-- A reduction group (R370). -/
structure Group where
  key : Nat
  asid : Nat
  decls : List GroupDecl
  formed : Bool
  done : Nat
  run : Option GroupRun
  released : List Nat
  deriving DecidableEq, Repr

/-! ### Host side (R394 to R403) -/

/-- The variants of the part (R2). -/
inductive Variant where
  | ky9480
  | ky9460
  | ky9440
  deriving DecidableEq, Repr

/-- What an ERRLOG entry records (R395). -/
inductive LogEntry where
  | badWrite (off : Nat)
  | tailOverrun (q : Nat)
  | notReady (q idx : Nat)
  | badRecord (q idx addr : Nat)
  | deviceAccess (addr : Nat)
  | pageRing (addr : Nat)
  | badRegion (i : Nat)
  | uncorrectable
  /-- A link has failed: a Kyorad link, or one between dies, which no record names (R346). -/
  | linkDown (kyorad : Option (Fin 18))
  /-- Both ends of a link carry one module number (R397). -/
  | sameModule (kyorad : Fin 18)
  | fatal (k : FatalKind)
  deriving DecidableEq, Repr

/-- A submission queue descriptor (R299) with the device's head and the tail it last read (R300). -/
structure SubQueue where
  sqd : BitVec 256
  head : BitVec 32
  /-- The tail up to which records are taken, and the last value read of it. -/
  tail : BitVec 32
  seen : BitVec 32
  /-- The device waits for the next change of the tail. -/
  waiting : Bool
  lnum : BitVec 32
  deriving DecidableEq, Repr

/-- What a measurement index has been extended with (R401). -/
inductive MeasItem where
  | bootRom
  | firmware
  | runtime (bits : List Byte)
  | config (kycap mcpart : Word) (rgn : Vector (BitVec 128) 64)
  deriving DecidableEq, Repr

/-- An answer on the DOE mailbox (R401): the request's code and data, and the measurement log it was formed from. -/
structure SpdmAnswer where
  request : Nat
  nonce : Nat
  log : Vector (List MeasItem) 4
  deriving DecidableEq, Repr

/-- The management registers and the management controller's state. -/
structure Mgmt where
  ready : Bool
  /-- Units that have failed for good, and those that the last bring-up has marked absent (R398). -/
  broken : List PartUnit
  absent : List PartUnit
  fatal : Bool
  throt : Bool
  modnum : Word
  mcpart : Word
  /-- The partition size in force since the last reset (R395). -/
  mcpartNow : Word
  xlatch : Word
  pwrbud : Word
  pwrbudNow : Word
  tvecdef : Word
  regs : XlatRegs
  latched : XlatRegs
  queues : Vector SubQueue 64
  turn : Nat
  prqbase : Word
  prqcfg : Word
  prqtaila : Word
  prqhead : Word
  prqTail : BitVec 32
  links : Vector Word 18
  dieLinks : List (Nat × Nat)
  errlog : List LogEntry
  msix : List Nat
  uncorrectable : Bool
  grants : List Nat
  missing : List Bool
  hot : List Bool
  compute : Bool
  measured : Vector (List MeasItem) 4
  doe : List SpdmAnswer
  deriving DecidableEq, Repr

/-- What the step takes before anything the machine does of itself: a step of some agent, or the turn of another context. -/
inductive Input where
  | event (i : Instr)
  | turn (n : Nat)
  deriving DecidableEq, Repr

/-- What the wave word being issued has done so far: the elements it takes (R96), the registers that two of its slots name
(R91), and its number of issues since each slot was mentioned (R13). -/
structure Wave where
  sel : BitVec 2
  west : List Chunk
  north : List Chunk
  conflict : List CellReg
  w1n : Nat
  mn : Nat
  deriving DecidableEq, Repr

/-- The module. `src` is the context on turn as it stood before the issue being made: every source is read from it (R9). -/
structure State where
  power : Bool
  variant : Variant
  ctx : Context
  src : Context
  wave : Wave
  /-- The headers that the bundle being issued has fetched: address and length of the bundle (R30). -/
  ahead : List (Nat × Nat)
  others : List Context
  pipelines : List Pipeline
  nextLnum : Nat
  groups : List Group
  -- memory: listed bytes, poisoned bytes, zero-map flags by tile key
  mem : List Cell
  pois : List Nat
  zflags : List Nat
  zflagErr : List Nat
  swLines : List SwLine
  writeBacks : List WriteBack
  lines : List Line
  msgs : List TokMsg
  treqs : List TransientReq
  claims : List Claim
  pmsgs : List PMsg
  ptables : Vector PTable 6
  pseq : Vector (BitVec 16) 6
  /-- Back-invalidates that the host has not answered. -/
  snoops : List Snoop
  zclrs : List (Nat × Nat)
  /-- Size codes of HBM4 blocks other than 0b11, by key / 128 (R186). -/
  codes : List (Nat × BitVec 2)
  posted : List Posted
  fusedSets : List FusedSet
  /-- Pages of a pipeline's own ranges that the device has not reached (R304): launch number and address. -/
  devFaults : List (Nat × Nat)
  tlb : List TlbEntry
  recCache : List CachedRec
  mgmt : Mgmt
  hostData : List (Nat × Nat × Nat)
  inputs : List Input
  /-- The model's own counter: every draw of a free value is keyed with it, and every step advances it. -/
  free : Nat
  deriving DecidableEq, Repr

/-! ### Reset values -/

def Chunk.zero : Chunk := { data := 0, psn := 0, res := 0, info := 0, bad := 0 }

def CellState.zero : CellState :=
  { v := Vector.replicate 32 { bits := 0, poi := 0 }, m := Vector.replicate 8 { bits := 0, poi := 0 },
    g := Vector.replicate 8 { bits := 0, poi := 0 }, f := false, fPoi := false, xh := Chunk.zero, xv := Chunk.zero, store := [] }

def Stream.free : Stream :=
  { bind := .unbound, delta := false, write := false, size := 0, cnt := Vector.replicate 4 0, str := Vector.replicate 4 0,
    base := 0, taken := 0, next := 0, buf := [], dead := false, stuck := none, binder := 0, asid := 0, level := .user }

def Ticket.free : Ticket := { pending := false, status := 0, detail := 0, te := false, away := false }

def Sticky.none : Sticky := { w0 := .none, w1 := .none, w1n := 0, m := .none, mn := 0 }

/-- The sequencer state, cell state and control registers that a context starts with (R6, R17, R65, R67, R88, R127, R132,
R166, R316), before the launch record's fields are put in. The status of a context that is not there is `absent`. -/
def Context.blank : Context :=
  { status := .absent, lnum := 0, stage := 0, inst := 0, rank := 0, brigade := 1, chainLen := 1, foot := 1, array := none,
    active := false, lastArray := none, request := none, saved := none, savedAsid := 0, fused := false,
    regs := Vector.replicate 48 0, pc := 0, level := .user, loops := [], cq := [],
    z := Vector.replicate 4 { rows := 0xFFFF, cols := 0xFFFF }, sticky := Sticky.none, suspended := none,
    streams := Vector.replicate 16 Stream.free, tickets := Vector.replicate 64 Ticket.free,
    rep := 0, cur := [], dsc := 0, target := 0, late := false, cellRegs := none, issues := 0, cycle := 0, timer := 0, tag := 0, cmdSeq := 0,
    freeW0 := 0, freeW1 := 0, freeM := 0, stepping := false, trapDue := none, goto := none, yielded := false,
    landPoint := false, inWaitq := false, polls := 0, half := none, doomed := none,
    pend := [], faggs := [], dripFlights := [], faults := [], reports := [], qops := [], drip := [], dripHalf := .none,
    mshp := Vector.replicate 8 0x1F0F0A, fnver := 0x11111111, dtmask := 0x13, dtlost := 0, sgeoa := 0, sgeob := 0,
    scrlo := 0, scrhi := 0, asid := 0, ttbase := 0, ctxid := 0, chainlat := 0, tvec := 0, tcause := 0, tepc := 0, tdsc := 0,
    tbtgt := 0, trep := 0, tinfo := 0,
    cells := [], cellErrs := [], hatches := Vector.replicate 12 (Vector.replicate 16 []),
    cmds := [], groups := Vector.replicate 4 .free, groupOps := Vector.replicate 4 0,
    bars := Vector.replicate 8 0, scratch := [], scratchPoi := [], blocks := [], descLo := 0, descHi := 0, exitVal := none }

def XlatRegs.reset : XlatRegs :=
  { xhatb := 16, xastb := 0, xiptb := Vector.replicate 6 0, xdbmb := Vector.replicate 6 0, rgn := Vector.replicate 64 0 }

def SubQueue.reset : SubQueue := { sqd := 0, head := 0, tail := 0, seen := 0, waiting := false, lnum := 0 }

/-- The management registers after steps 1 to 5 of the bring-up sequence (R395 to R402), with MODNUM, MCPART and PWRBUD as given, since
they survive a warm reset (R398). READY is set by a step of its own (R399). -/
def Mgmt.reset (modnum mcpart pwrbud : Word) : Mgmt :=
  { ready := false, broken := [], absent := [], fatal := false, throt := false, modnum := modnum, mcpart := mcpart, mcpartNow := mcpart, xlatch := 0,
    pwrbud := pwrbud, pwrbudNow := pwrbud, tvecdef := 0, regs := XlatRegs.reset, latched := XlatRegs.reset,
    queues := Vector.replicate 64 SubQueue.reset, turn := 0, prqbase := 0, prqcfg := 0, prqtaila := 0, prqhead := 0, prqTail := 0,
    links := Vector.replicate 18 0, dieLinks := [], errlog := [], msix := [], uncorrectable := false,
    grants := [], missing := [], hot := [], compute := true,
    measured := #v[[.bootRom], [.firmware], [], []], doe := [] }

def Wave.none : Wave := { sel := 0, west := [], north := [], conflict := [], w1n := 0, mn := 0 }

/-- The module right after its reset sequence, before READY (R398): every pipeline, context and queue gone, every home holding all 128
tokens of every line, no poison, every block of memory zero. -/
def State.resetWith (variant : Variant) (modnum mcpart pwrbud : Word) : State :=
  { power := true, variant := variant, ctx := Context.blank, src := Context.blank, wave := Wave.none, ahead := [], others := [],
    pipelines := [], nextLnum := 1, groups := [], mem := [], pois := [], zflags := [], zflagErr := [], swLines := [],
    writeBacks := [], lines := [], msgs := [], treqs := [], claims := [], pmsgs := [], ptables := Vector.replicate 6 { active := [], early := [] },
    pseq := Vector.replicate 6 0, snoops := [], zclrs := [], codes := [], posted := [], fusedSets := [], devFaults := [], tlb := [], recCache := [], mgmt := Mgmt.reset modnum mcpart pwrbud, hostData := [], inputs := [], free := 0 }

/-- The state after a power-on reset of a KY-9480. -/
def State.reset : State := State.resetWith .ky9480 0 8 3400

end Sys2Proof.Machine
end

