-- ==== Sys2Proof/Machine/Num.lean ====
section
/-! DEFINITION. Number formats and exact arithmetic (R41, R110 to R120). A finite number is kept exactly, as a sign, a natural
mantissa and a power of two; `roundTo` rounds once. Events are a mask with DTMASK's bits (R132). -/

namespace Sys2Proof.Machine

/-! ### Events -/

def evInv : Nat := 1
def evOvf : Nat := 2
def evSat : Nat := 4
def evUfz : Nat := 8
def evPsn : Nat := 16
def evRes : Nat := 32

/-! ### Format codes (R41) -/

/-- A floating-point format: trailing bits, exponent bits, bias; whether it is signed, IEEE-like, and has infinities. -/
structure FFmt where
  t : Nat
  ew : Nat
  bias : Nat
  signed : Bool
  ieee : Bool
  infs : Bool
  width : Nat
  deriving DecidableEq, Repr

/-- An integer format. -/
structure IFmt where
  width : Nat
  signed : Bool
  deriving DecidableEq, Repr

inductive Fmt where
  | int (f : IFmt)
  | flt (f : FFmt)
  deriving DecidableEq, Repr

def Fmt.width : Fmt → Nat
  | .int f => f.width
  | .flt f => f.width

def fmtF32 : FFmt := { t := 23, ew := 8, bias := 127, signed := true, ieee := true, infs := true, width := 32 }
def fmtBf16 : FFmt := { t := 7, ew := 8, bias := 127, signed := true, ieee := true, infs := true, width := 16 }
def fmtF16 : FFmt := { t := 10, ew := 5, bias := 15, signed := true, ieee := true, infs := true, width := 16 }

/-- A binary8 format of precision `p` (R114). -/
def fmtB8 (p : Nat) (signed infs : Bool) : FFmt :=
  let w := if signed then 8 - p else 9 - p
  { t := p - 1, ew := w, bias := 2 ^ (w - 1), signed := signed, ieee := false, infs := infs, width := 8 }

/-- The format of a code; none for a reserved code, and for i64, which no wave slot and no tensor takes (R41, R42). -/
def fmtOf (code : Nat) : Option Fmt :=
  if code < 4 then some (.int { width := 4 * 2 ^ code, signed := true })
  else if code < 8 then some (.int { width := 4 * 2 ^ (code - 4), signed := false })
  else if code = 0x08 then some (.flt fmtF16)
  else if code = 0x09 then some (.flt fmtBf16)
  else if code = 0x0A then some (.flt fmtF32)
  else if 0x20 ≤ code ∧ code < 0x40 ∧ code % 8 ≠ 7 then
    some (.flt (fmtB8 (code % 8 + 1) (code / 16 % 2 == 0) (code / 8 % 2 == 1)))
  else none

/-- The width of a format code in bits; 0 for a code that `fmtOf` refuses. -/
def fmtWidth (code : Nat) : Nat := ((fmtOf code).map Fmt.width).getD 0

def isBinary8 (code : Nat) : Bool := 0x20 ≤ code && code < 0x40 && code % 8 != 7

/-! ### Values -/

/-- A number, or what stands in its place. A zero keeps its sign. -/
inductive Val where
  | nan
  | inf (neg : Bool)
  | fin (neg : Bool) (m : Nat) (e : Int)
  deriving DecidableEq, Repr

/-- The magnitude that a code's exponent and trailing bits give (R112, R115). -/
def FFmt.mag (f : FFmt) (c : Nat) : Nat × Int :=
  let ex := c / 2 ^ f.t
  let tr := c % 2 ^ f.t
  if ex = 0 then (tr, 1 - (f.bias : Int) - f.t) else (2 ^ f.t + tr, (ex : Int) - f.bias - f.t)

/-- The value of a code (R112, R115). -/
def FFmt.value (f : FFmt) (c : Nat) : Val :=
  if f.ieee then
    let neg := c / 2 ^ (f.width - 1) % 2 == 1
    let a := c % 2 ^ (f.width - 1)
    if a / 2 ^ f.t = 2 ^ f.ew - 1 then (if a % 2 ^ f.t = 0 then .inf neg else .nan)
    else .fin neg (f.mag a).1 (f.mag a).2
  else if f.signed then
    if c = 0x80 then .nan
    else if f.infs ∧ c % 128 = 0x7F then .inf (c / 128 == 1)
    else .fin (c / 128 == 1) (f.mag (c % 128)).1 (f.mag (c % 128)).2
  else if c = 0xFF then .nan
  else if f.infs ∧ c = 0xFE then .inf false
  else .fin false (f.mag c).1 (f.mag c).2

/-- The canonical NaN (R113). -/
def FFmt.nan (f : FFmt) : Nat :=
  if f.ieee then (2 ^ f.ew - 1) * 2 ^ f.t + 2 ^ (f.t - 1) else if f.signed then 0x80 else 0xFF

/-- The magnitude code of the largest finite value (R115, R116). -/
def FFmt.maxMag (f : FFmt) : Nat :=
  if f.ieee then (2 ^ f.ew - 1) * 2 ^ f.t - 1
  else if f.signed then (if f.infs then 0x7E else 0x7F)
  else if f.infs then 0xFD else 0xFE

/-- Puts a sign on a magnitude code. -/
def FFmt.sign (f : FFmt) (neg : Bool) (c : Nat) : Nat := if neg && f.signed then c + 2 ^ (f.width - 1) else c

/-- An infinity of a format that has it. -/
def FFmt.infCode (f : FFmt) (neg : Bool) : Nat := f.sign neg (f.maxMag + 1)

/-- A zero: signed in the IEEE formats, 0x00 in binary8 (R117). -/
def FFmt.zero (f : FFmt) (neg : Bool) : Nat := if f.ieee then f.sign neg 0 else 0

/-- The rounding modes (R36). -/
inductive Mode where
  | rne
  | rtz
  | rup
  | rdn
  deriving DecidableEq, Repr

def Mode.ofCode : Nat → Mode
  | 0 => .rne
  | 1 => .rtz
  | 2 => .rup
  | _ => .rdn

/-! ### Rounding (R117) -/

/-- Whether the truncated magnitude is raised by one: `odd` its last bit, `half` the first bit dropped, `rest` any bit after. -/
def Mode.up (md : Mode) (neg odd half rest : Bool) : Bool :=
  match md with
  | .rne => half && (rest || odd)
  | .rtz => false
  | .rup => !neg && (half || rest)
  | .rdn => neg && (half || rest)

/-- m · 2^e, with something more below when `sticky`, as an integer number of units 2^q, rounded. -/
def roundUnits (md : Mode) (neg : Bool) (m : Nat) (e q : Int) (sticky : Bool) : Nat :=
  if q ≤ e then m * 2 ^ (e - q).toNat
  else
    let k := (q - e).toNat
    let n := m / 2 ^ k
    let r := m % 2 ^ k
    let half := decide (2 ^ (k - 1) ≤ r)
    let rest := decide (r % 2 ^ (k - 1) ≠ 0) || sticky
    if md.up neg (n % 2 == 1) half rest then n + 1 else n

/-- The result of an overflow (R117). -/
def FFmt.overflow (f : FFmt) (md : Mode) (sat neg : Bool) : Nat × Nat :=
  if sat then (f.sign neg f.maxMag, evSat)
  else if !f.infs then (f.nan, evOvf)
  else
    match md with
    | .rne => (f.infCode neg, evOvf)
    | .rtz => (f.sign neg f.maxMag, 0)
    | .rup => if neg then (f.sign true f.maxMag, 0) else (f.infCode false, evOvf)
    | .rdn => if neg then (f.infCode true, evOvf) else (f.sign false f.maxMag, 0)

/-- RoundTo for a finite nonzero or zero magnitude: the code and its events (R117). -/
def FFmt.roundFin (f : FFmt) (md : Mode) (sat neg : Bool) (m : Nat) (e : Int) (sticky : Bool) : Nat × Nat :=
  if m = 0 ∧ sticky = false then (f.zero neg, 0)
  else
    let top : Int := e + Nat.log2 m
    let low : Int := 1 - (f.bias : Int) - f.t
    let q : Int := max (top - f.t) low
    let n := roundUnits md neg m e q sticky
    if n = 0 then (f.zero neg, evUfz)
    else if neg ∧ f.signed = false then (if sat then (0, evSat) else (f.nan, evInv))
    else
      -- n units of 2^q: the biased exponent is that of its leading bit, so that the code is n + (biased exponent - 1) · 2^t
      let c := n + (q - low).toNat * 2 ^ f.t
      if f.maxMag < c then f.overflow md sat neg else (f.sign neg c, 0)

/-- RoundTo of a value (R117, R118). -/
def FFmt.roundVal (f : FFmt) (md : Mode) (sat : Bool) : Val → Nat × Nat
  | .nan => (f.nan, 0)
  | .inf neg =>
    if neg && !f.signed then (if sat then (0, evSat) else (f.nan, evInv))
    else if f.infs then (f.infCode neg, 0)
    else if sat then (f.sign neg f.maxMag, evSat)
    else (f.nan, evInv)
  | .fin neg m e => f.roundFin md sat neg m e false

/-! ### Integers (R110, R111) -/

/-- The integer that the low bits of a code hold. -/
def IFmt.value (f : IFmt) (c : Nat) : Int :=
  let u := c % 2 ^ f.width
  if f.signed && decide (2 ^ (f.width - 1) ≤ u) then (u : Int) - 2 ^ f.width else u

def IFmt.min (f : IFmt) : Int := if f.signed then -(2 ^ (f.width - 1)) else 0
def IFmt.max (f : IFmt) : Int := if f.signed then 2 ^ (f.width - 1) - 1 else 2 ^ f.width - 1

/-- An exact integer as a code: modulo 2^w, or clamped (R111). -/
def IFmt.wrap (f : IFmt) (x : Int) : Nat := (x % 2 ^ f.width).toNat

def IFmt.clamp (f : IFmt) (x : Int) : Nat × Nat :=
  if x < f.min then (f.wrap f.min, evSat) else if f.max < x then (f.wrap f.max, evSat) else (f.wrap x, 0)

def IFmt.put (f : IFmt) (sat : Bool) (x : Int) : Nat × Nat := if sat then f.clamp x else (f.wrap x, 0)

/-! ### Exact arithmetic on values -/

def Val.ofInt (x : Int) : Val := .fin (decide (x < 0)) x.natAbs 0

def Val.neg : Val → Val
  | .nan => .nan
  | .inf n => .inf (!n)
  | .fin n m e => .fin (!n) m e

def Val.isNan : Val → Bool
  | .nan => true
  | .inf _ => false
  | .fin _ _ _ => false

def Val.isInf : Val → Bool
  | .nan => false
  | .inf _ => true
  | .fin _ _ _ => false

def Val.isZero : Val → Bool
  | .nan => false
  | .inf _ => false
  | .fin _ m _ => m == 0

def Val.isNeg : Val → Bool
  | .nan => false
  | .inf n => n
  | .fin n _ _ => n

/-- The signed mantissa of a finite number at power `e`, which is no greater than its own. -/
def scaled (neg : Bool) (m : Nat) (e e0 : Int) : Int :=
  let x : Int := m * 2 ^ (e - e0).toNat
  if neg then -x else x

/-- The exact sum, and whether it was invalid (∞ − ∞). The sign of a zero sum follows IEEE 754: that of two zeros of one sign,
else + but − when rounding down. -/
def Val.add (md : Mode) : Val → Val → Val × Bool
  | .nan, _ => (.nan, false)
  | .inf _, .nan => (.nan, false)
  | .fin _ _ _, .nan => (.nan, false)
  | .inf a, .inf b => if a = b then (.inf a, false) else (.nan, true)
  | .inf a, .fin _ _ _ => (.inf a, false)
  | .fin _ _ _, .inf b => (.inf b, false)
  | .fin n1 m1 e1, .fin n2 m2 e2 =>
    let e0 := min e1 e2
    let x := scaled n1 m1 e1 e0 + scaled n2 m2 e2 e0
    if x = 0 then
      let neg := if m1 = 0 ∧ m2 = 0 ∧ n1 = n2 then n1 else md == .rdn
      (.fin neg 0 e0, false)
    else (.fin (decide (x < 0)) x.natAbs e0, false)

/-- The exact product, and whether it was invalid (0 × ∞). -/
def Val.mul : Val → Val → Val × Bool
  | .nan, _ => (.nan, false)
  | .inf _, .nan => (.nan, false)
  | .fin _ _ _, .nan => (.nan, false)
  | .inf a, .inf b => (.inf (a != b), false)
  | .inf a, .fin b m _ => if m = 0 then (.nan, true) else (.inf (a != b), false)
  | .fin a m _, .inf b => if m = 0 then (.nan, true) else (.inf (a != b), false)
  | .fin n1 m1 e1, .fin n2 m2 e2 => (.fin (n1 != n2) (m1 * m2) (e1 + e2), false)

/-- Multiplication by a power of two. -/
def Val.shift : Val → Int → Val
  | .nan, _ => .nan
  | .inf n, _ => .inf n
  | .fin n m e, k => .fin n m (e + k)

/-- The order of R119: −0 below +0; none when a NaN takes part. -/
def Val.lt : Val → Val → Option Bool
  | .nan, _ => none
  | .inf _, .nan => none
  | .fin _ _ _, .nan => none
  | .inf a, .inf b => some (a && !b)
  | .inf a, .fin _ _ _ => some a
  | .fin _ _ _, .inf b => some (!b)
  | .fin n1 m1 e1, .fin n2 m2 e2 =>
    let e0 := min e1 e2
    let x := scaled n1 m1 e1 e0
    let y := scaled n2 m2 e2 e0
    some (decide (x < y) || (decide (x = y) && m1 == 0 && n1 && !n2))

/-- A value as an integer, rounded in a mode (R118). -/
def Val.toIntRound (md : Mode) (neg : Bool) (m : Nat) (e : Int) : Int :=
  let n := roundUnits md neg m e 0 false
  if neg then -(n : Int) else n

/-- The value of an element of any format. -/
def Fmt.value : Fmt → Nat → Val
  | .int f, c => .ofInt (f.value c)
  | .flt f, c => f.value (c % 2 ^ f.width)

/-- Conversion between formats (R118). -/
def convert (src dst : Fmt) (md : Mode) (sat : Bool) (c : Nat) : Nat × Nat :=
  match dst with
  | .flt f => f.roundVal md sat (src.value c)
  | .int g =>
    match src with
    | .int f => g.put sat (f.value c)
    | .flt f =>
      match f.value (c % 2 ^ f.width) with
      | .nan => (0, evInv)
      | .inf neg => (g.wrap (if neg then g.min else g.max), evSat)
      | .fin neg m e => g.clamp (Val.toIntRound md neg m e)

/-- f32 addition with RNE, as AMOF does it (R227): its result and events. -/
def addF32 (a b : Nat) : Nat × Nat :=
  let (v, inv) := Val.add .rne (fmtF32.value a) (fmtF32.value b)
  let (c, ev) := fmtF32.roundVal .rne false v
  (c, ev ||| (if inv then evInv else 0))

end Sys2Proof.Machine
end

