-- ==== Sys2Proof/Machine/Memory.lean ====
section
/-! DEFINITION. Bytes of memory, the placement of physical addresses, and what a home holds. Memory is one list of bytes by key:
byte `o` of die `d`'s HBM4 has key d · 2^37 + o, and host physical address h has key 2^40 + h. -/

namespace Sys2Proof.Machine

open Host (Cell)

/-! ### The list of bytes -/

/-- The byte at a key; an unlisted one reads 0 (R398; host memory: log entry 10). -/
def memGet : List Cell → Nat → Byte
  | [], _ => 0
  | (k, v) :: r, a => if k = a then v else memGet r a

/-- Writes one byte and keeps the canonical form. -/
def memSet : List Cell → Nat → Byte → List Cell
  | [], a, v => if v = 0 then [] else [(a, v)]
  | (k, w) :: r, a, v =>
    if a < k then (if v = 0 then (k, w) :: r else (a, v) :: (k, w) :: r)
    else if a = k then (if v = 0 then r else (a, v) :: r)
    else (k, w) :: memSet r a v

/-- The canonical form: keys strictly rise above `lo`, and no listed byte is 0. -/
def memWfFrom : Nat → List Cell → Bool
  | _, [] => true
  | lo, (k, v) :: r => lo ≤ k && v != 0 && memWfFrom (k + 1) r

def Memory.wf (m : List Cell) : Bool := memWfFrom 0 m

/-- Adds to, and removes from, a strictly rising list of numbers. -/
def setAdd : List Nat → Nat → List Nat
  | [], a => [a]
  | k :: r, a => if a < k then a :: k :: r else if a = k then k :: r else k :: setAdd r a

def setDel : List Nat → Nat → List Nat
  | [], _ => []
  | k :: r, a => if a = k then r else k :: setDel r a

def setPut (l : List Nat) (a : Nat) (b : Bool) : List Nat := if b then setAdd l a else setDel l a

/-! ### Dies and arrays (R2, R346, R396) -/

def Variant.arrays : Variant → Nat
  | .ky9480 => 72
  | .ky9460 => 60
  | .ky9440 => 48

def Variant.memDies : Variant → Nat
  | .ky9480 => 6
  | .ky9460 => 6
  | .ky9440 => 4

def Variant.computeDies : Variant → Nat
  | .ky9480 => 12
  | .ky9460 => 10
  | .ky9440 => 8

def Variant.linkCount : Variant → Nat
  | .ky9480 => 18
  | .ky9460 => 12
  | .ky9440 => 12

def Variant.hasCsqz : Variant → Bool
  | .ky9480 => true
  | .ky9460 => true
  | .ky9440 => false

def Variant.code : Variant → Nat
  | .ky9480 => 0
  | .ky9460 => 1
  | .ky9440 => 2

/-- KYCAP (R396). -/
def Variant.kycap (v : Variant) : Word :=
  BitVec.ofNat 64 (1 * 2 ^ 32 + v.linkCount * 2 ^ 27 + (if v.hasCsqz then 1 else 0) * 2 ^ 26 + (2 ^ v.memDies - 1) * 2 ^ 20 +
    v.arrays * 2 ^ 8 + v.code)

/-- The bits of KYCAP that a unit's absence takes away. -/
def PartUnit.capBits : PartUnit → Nat
  | .array _ => 2 ^ 8
  | .link _ => 2 ^ 27
  | .compressor => 2 ^ 26

/-- Whether a variant has a unit. -/
def Variant.has (v : Variant) : PartUnit → Bool
  | .array a => decide (a < v.arrays)
  | .link n => decide (n < v.linkCount)
  | .compressor => v.hasCsqz

/-- KYCAP as bring-up has left it: the variant's, less the units marked absent (R396, R398). -/
def State.kycap (s : State) : Word := s.variant.kycap - BitVec.ofNat 64 ((s.mgmt.absent.map PartUnit.capBits).sum)

/-- Whether the part has a unit (R2, R396). -/
def State.hasUnit (s : State) (u : PartUnit) : Bool := s.variant.has u && !s.mgmt.absent.contains u

/-- The compute die of an array: six arrays each. -/
def dieOfArray (a : Nat) : Nat := a / 6

/-- The memory die beneath a compute die (R346). -/
def memDieOf (v : Variant) (d : Nat) : Nat :=
  match v with
  | .ky9480 => d / 2
  | .ky9440 => d / 2
  | .ky9460 => if d < 8 then d / 2 else d - 4

def Context.arrayOr0 (c : Context) : Nat := c.array.getD 0
def Context.die (c : Context) : Nat := dieOfArray c.arrayOr0

/-! ### The region table (R348 to R351) -/

structure Region where
  zmap : Bool
  cmpr : Bool
  cls : Nat
  stride : Nat
  dies : List Nat
  doff : Nat
  limit : Nat
  base : Nat
  deriving DecidableEq, Repr

def Region.ofBits (w : BitVec 128) : Region :=
  let n := w.toNat
  { zmap := fld n 116 1 == 1, cmpr := fld n 115 1 == 1, cls := fld n 113 2, stride := 2 ^ (12 + fld n 108 5),
    dies := (List.range 6).filter (fun d => fld n (102 + d) 1 == 1), doff := fld n 64 21, limit := fld n 32 32, base := fld n 0 32 }

def regionValid (w : BitVec 128) : Bool := fld w.toNat 117 1 == 1

/-- A malformed entry (R349). -/
def regionMalformed (v : Variant) (w : BitVec 128) : Bool :=
  let n := w.toNat
  let r := Region.ofBits w
  let count := r.dies.length
  fld n 118 10 != 0 || fld n 85 17 != 0 || r.cls == 3 || 19 ≤ fld n 108 5 || count == 0 ||
    r.dies.any (fun d => decide (v.memDies ≤ d)) || decide (r.limit < r.base) ||
    decide (65536 * r.doff + r.stride * (((r.limit - r.base + 1) * 65536 + count * r.stride - 1) / (count * r.stride)) > 2 ^ 37)

/-- The die and die-local offset of a device address in a region (R350). -/
def Region.place (r : Region) (pa : Nat) : Nat × Nat :=
  let o := pa - r.base * 65536
  let n := r.dies.length
  let c := o / r.stride
  (r.dies.getD (c % n) 0, r.doff * 65536 + c / n * r.stride + o % r.stride)

def Region.covers (r : Region) (pa : Nat) : Bool := r.base ≤ pa / 65536 && pa / 65536 ≤ r.limit

/-- The device address that an entry, by its own placement, gives the byte at `off` of die `d`, as an offset from its base. -/
def Region.unplace (r : Region) (d off : Nat) : Option Nat :=
  match r.dies.idxOf? d with
  | none => none
  | some j =>
    if off < r.doff * 65536 then none
    else
      let l := off - r.doff * 65536
      let o := (l / r.stride * r.dies.length + j) * r.stride + l % r.stride
      if o / 65536 ≤ r.limit - r.base then some (r.base * 65536 + o) else none

/-- The valid latched regions, lowest number first. -/
def XlatRegs.regions (x : XlatRegs) : List Region := (x.rgn.toList.filter regionValid).map Region.ofBits

def MemClass.ofCode : Nat → MemClass
  | 0 => .plain
  | 1 => .packed
  | _ => .software

/-- The entry that places a device address: the lowest-numbered valid one that covers it (R349, R350). -/
def XlatRegs.regionOf (x : XlatRegs) (pa : Nat) : Option Region := x.regions.find? (·.covers pa)

/-- Whether some entry places the byte at `off` of die `d`: one that, for the device address which reaches the byte by it, is the
entry that places that address (R349, R351). -/
def XlatRegs.placesByte (x : XlatRegs) (d off : Nat) : Bool :=
  x.regions.any (fun r => match r.unplace d off with
    | none => false
    | some pa => (x.regionOf pa).any (fun q => q.place pa == (d, off)))

/-- Where a physical address lies; none for a reserved form, an absent die or an unplaced address (R209, R350, R351). -/
def placeByte (v : Variant) (x : XlatRegs) (pa : Nat) : Option Place :=
  if 2 ^ 52 ≤ pa then none
  else if 2 ^ 51 ≤ pa then
    let d := fld pa 48 3
    let off := fld pa 0 37
    if v.memDies ≤ d ∨ fld pa 37 11 ≠ 0 ∨ x.placesByte d off = true then none
    else some { pa := pa, key := d * 2 ^ 37 + off, cls := .pinned, zmap := false, cmpr := false }
  else if fld pa 48 3 = 1 then some { pa := pa, key := 2 ^ 40 + fld pa 0 48, cls := .host, zmap := false, cmpr := false }
  else if fld pa 48 3 ≠ 0 then none
  else
    match x.regionOf pa with
    | none => none
    | some r =>
      let (d, off) := r.place pa
      some { pa := pa, key := d * 2 ^ 37 + off, cls := .ofCode r.cls, zmap := r.zmap, cmpr := r.cmpr }

def State.place (s : State) (pa : Nat) : Option Place := placeByte s.variant s.mgmt.latched pa

/-! ### Home memory -/

/-- The zero-map tile and the line of a key. -/
def tileOf (key : Nat) : Nat := key / 4096
def lineOf (key : Nat) : Nat := key / 128 * 128

/-- The place of a byte of HBM4, by its memory key: the one that an entry's own address for it has (R350). -/
def State.placeOfKey (s : State) (key : Nat) : Option Place :=
  s.mgmt.latched.regions.findSome? (fun r => (r.unplace (key / 2 ^ 37) (key % 2 ^ 37)).bind (fun pa => (s.place pa).filter (·.key == key)))

/-- Whether a tile has a zero-map flag: no die-pinned byte has one (R189, R351). -/
def State.zeroMapped (s : State) (tile : Nat) : Bool := (s.placeOfKey (4096 * tile)).any (·.zmap)

/-- Whether an error has struck the flag of a tile that has one (R191). -/
def State.flagStruck (s : State) (tile : Nat) : Bool := s.zflagErr.contains tile && s.zeroMapped tile

/-- The byte that the home holds, with its poison mark. A tile whose flag is 1 reads as zeros without its HBM4 being read (R190), and
one whose flag an error has struck reads as poison (R191). -/
def State.homeByte (s : State) (key : Nat) : Byte × Bool :=
  if s.zflags.contains (tileOf key) then (0, s.flagStruck (tileOf key))
  else (memGet s.mem key, s.flagStruck (tileOf key) || s.pois.contains key)

/-- Stores a byte with its poison mark at the home. -/
def State.putByte (s : State) (key : Nat) (b : Byte) (poison : Bool) : State :=
  { s with mem := memSet s.mem key b, pois := setPut s.pois key poison }

def State.putBytes (s : State) (key : Nat) : List Byte → State
  | [] => s
  | b :: r => (s.putByte key b false).putBytes (key + 1) r

def State.homeBytes (s : State) (key n : Nat) : List Byte := (List.range n).map (fun i => (s.homeByte (key + i)).1)

/-- Sets the dirty-bitmap bit of a die-local 4 KiB (R217). Host memory has none. A poisoned byte of the bitmap loses its mark: the spec
is silent there, and log entry 68 names the choice. -/
def State.setDirty (s : State) (key : Nat) : State :=
  if 2 ^ 40 ≤ key then s
  else
    let d := key / 2 ^ 37
    let o := key % 2 ^ 37
    match s.place ((s.mgmt.latched.xdbmb.toList.getD d 0).toNat + o / 32768) with
    | none => s
    | some p => s.putByte p.key (memGet s.mem p.key ||| BitVec.ofNat 8 (2 ^ (o / 4096 % 8))) false

/-- Every byte of a range of keys becomes zero and unpoisoned. -/
def State.zeroKeys (s : State) (key n : Nat) : State :=
  { s with mem := s.mem.filter (fun c => !(decide (key ≤ c.1) && decide (c.1 < key + n))),
           pois := s.pois.filter (fun k => !(decide (key ≤ k) && decide (k < key + n))) }

/-- An engine command's record of the zeros that it has written to a tile is void once a clear of the tile is requested (R189). -/
def EngCmd.clearAsked (tile : Nat) (k : EngCmd) : EngCmd := { k with zeroed := k.zeroed.filter (fun z => z.1 != tile) }

def mapCtxs (s : State) (f : Context → Context) : State := { s with ctx := f s.ctx, others := s.others.map f }

def State.clearAsked (s : State) (tile : Nat) : State := mapCtxs s (fun c => { c with cmds := c.cmds.map (EngCmd.clearAsked tile) })

/-- The size code that a block takes when a line with the physical address `128 * line` is written to it (R186): 0b11 unless the entry
that places the line enables compression (R350). -/
def State.codeFor (s : State) (line key : Nat) : BitVec 2 :=
  if (s.place (128 * line)).any (fun p => p.cmpr && lineOf p.key == lineOf key) then Config.sizeCode (ofLeBytes (s.homeBytes (lineOf key) 128))
  else 3

/-- Puts a block's size code into the list of those other than 0b11. -/
def putCode (block : Nat) (c : BitVec 2) : List (Nat × BitVec 2) → List (Nat × BitVec 2)
  | [] => if c = 3 then [] else [(block, c)]
  | (k, d) :: r =>
    if block < k then (if c = 3 then (k, d) :: r else (block, c) :: (k, d) :: r)
    else if block = k then (if c = 3 then r else (block, c) :: r)
    else (k, d) :: putCode block c r

/-- A 128-byte block is written to HBM4 (R186, R217): its size code goes with it, and the bitmap records it. -/
def State.writeBlock (s : State) (line key : Nat) : State :=
  { s with codes := putCode (key / 128) (s.codeFor line key) s.codes }.setDirty key

/-- Zeros are written into every line of a tile, each block with its size code, and the bitmap records it (R186, R190, R217). -/
def State.zeroTile (s : State) (tile : Nat) : State :=
  let c := if (s.placeOfKey (4096 * tile)).any (·.cmpr) then Config.sizeCode 0 else 3
  let s := s.zeroKeys (4096 * tile) 4096
  { s with codes := (List.range 32).foldl (fun cs i => putCode (32 * tile + i) c cs) s.codes }.setDirty (4096 * tile)

/-- Clears the zero-map flag of a tile: the home writes zeros into every line of it (R190). A tile whose flag was struck reads as poison
until it is written (R191). -/
def State.dropFlag (s : State) (tile : Nat) : State :=
  if s.zflags.contains tile then (({ s with zflags := setDel s.zflags tile }).zeroTile tile).clearAsked tile else s

/-- The flag over a byte about to be written is cleared, and a tile whose flag was struck can be read again (R190, R191). -/
def State.clearFlag (s : State) (key : Nat) : State :=
  let t := tileOf key
  { s.dropFlag t with zflagErr := setDel s.zflagErr t }

end Sys2Proof.Machine
end

