-- ==== Sys2Proof/Machine/Tokens.lean ====
section
/-! DEFINITION. Token counting (R354 to R365): the holders of a coherent line, its home and the memory-side cache there, and the tables of
persistent requests. Data is stored once, in `State.mem`: every valid copy of a line equals the latest write (R357). -/

namespace Sys2Proof.Machine

/-! ### Agents (R182, R361) -/

/-- The slice of a memory die's L2 that serves a physical address (R182). -/
def homeSlice (pa : Nat) : Nat := fld pa 7 5 ^^^ fld pa 12 5 ^^^ fld pa 17 5 ^^^ fld pa 22 5 ^^^ fld pa 27 5

def agentOfCache : CacheId → Nat
  | .l1 a => a
  | .die d => 72 + d
  | .l2 md slice => 84 + 32 * md + slice

/-- The cache that an agent number names, if it names one. -/
def cacheOfAgent (a : Nat) : Option CacheId :=
  if a < 72 then some (.l1 a)
  else if a < 84 then some (.die (a - 72))
  else if a < 276 then some (.l2 ((a - 84) / 32) ((a - 84) % 32))
  else none

def homeAgent (die : Nat) : Nat := 276 + die
def hostAgent : Nat := 282

/-- The memory die whose persistent-request table serves an agent (R363). -/
def tableDie (v : Variant) (a : Nat) : Nat :=
  if a < 72 then memDieOf v (dieOfArray a)
  else if a < 84 then memDieOf v (a - 72)
  else if a < 276 then (a - 84) / 32
  else if a < 282 then a - 276
  else 0

/-- Whether a class of memory carries tokens (R354). -/
def MemClass.coherent : MemClass → Bool
  | .plain => true
  | .packed => true
  | .pinned => true
  | .software => false
  | .host => false

/-! ### Lines -/

/-- The record of the line of a placed byte while all of it is quiet at its home. -/
def Line.atHome (p : Place) : Line :=
  { line := p.pa / 128, key := lineOf p.key, cls := p.cls, holders := [], tag := none, away := false, hints := [] }

/-- A record that says no more than `Line.atHome` does, but for hints, which nothing depends on (R183). -/
def Line.quiet (l : Line) : Bool := l.holders.isEmpty && l.tag.isNone && !l.away

/-- Puts a line's record back, by rising line number. -/
def putLine (l : Line) : List Line → List Line
  | [] => if l.quiet then [] else [l]
  | x :: r =>
    if l.line < x.line then (if l.quiet then x :: r else l :: x :: r)
    else if l.line = x.line then (if l.quiet then r else l :: r)
    else x :: putLine l r

def State.setLine (s : State) (l : Line) : State := { s with lines := putLine l s.lines }

def State.findLine (s : State) (line : Nat) : Option Line := s.lines.find? (·.line == line)

/-- The record of the line of a placed byte. -/
def State.lineRec (s : State) (p : Place) : Line := (s.findLine (p.pa / 128)).getD (Line.atHome p)

/-- The record of a line by its number; none for a line that carries no tokens. -/
def State.lineAt (s : State) (line : Nat) : Option Line :=
  match s.findLine line with
  | some l => if l.cls.coherent then some l else none
  | none =>
    match s.place (128 * line) with
    | none => none
    | some p => if p.cls.coherent then some (Line.atHome p) else none

/-- The home die of a line. -/
def Line.die (l : Line) : Nat := l.key / 2 ^ 37

def Line.holder (l : Line) (agent : Nat) : Holder :=
  (l.holders.find? (·.agent == agent)).getD { agent := agent, tokens := 0, owner := false, valid := false, dirty := false }

/-- Puts a holder's record back, by rising agent; a holder of no token is dropped. -/
def putHolder (h : Holder) : List Holder → List Holder
  | [] => if h.tokens = 0 then [] else [h]
  | x :: r =>
    if h.agent < x.agent then (if h.tokens = 0 then x :: r else h :: x :: r)
    else if h.agent = x.agent then (if h.tokens = 0 then r else h :: r)
    else x :: putHolder h r

def Line.setHolder (l : Line) (h : Holder) : Line := { l with holders := putHolder h l.holders }

/-- The home slice notes that the dies of an agent may hold a copy (R182). -/
def Line.hint (v : Variant) (agent : Nat) (l : Line) : Line := { l with hints := setAdd l.hints (tableDie v agent) }

/-! ### The home (R365) -/

def Line.homeTokens (l : Line) : Nat :=
  match l.tag with
  | some t => t.tokens
  | none => if l.away then 0 else 128

def Line.homeOwner (l : Line) : Bool :=
  match l.tag with
  | some t => t.owner
  | none => !l.away

def Line.homeDirty (l : Line) : Bool :=
  match l.tag with
  | some t => t.dirty
  | none => false

/-- The home's count after it has sent tokens: its tag counts them, and where there is none the AWAY bit is written, or, for a partial
count, a tag is made. -/
def Line.homeKeeps (l : Line) (n : Nat) (owner : Bool) (stamp : Nat) : Line :=
  match l.tag with
  | some t => { l with tag := some { t with tokens := n, owner := owner, dirty := t.dirty && owner, used := stamp } }
  | none =>
    if n = 0 then { l with away := true }
    else if n = 128 then { l with away := false }
    else { l with tag := some { tokens := n, owner := owner, dirty := false, sectors := 15, used := stamp } }

/-- Tokens that reach the home are counted in a tag (R365). -/
def Line.receiveHome (l : Line) (n : Nat) (owner dirty : Bool) (stamp : Nat) : Line :=
  { l with tag := some { tokens := l.homeTokens + n, owner := l.homeOwner || owner, dirty := l.homeDirty || (owner && dirty),
                         sectors := 15, used := stamp } }

def Line.tokensHeld (l : Line) : Nat := l.homeTokens + (l.holders.map (·.tokens)).sum

/-- Whether a tag's count is all of a line's tokens or none, so that it may be a victim (R185, R365). -/
def HomeTag.whole (t : HomeTag) : Bool := t.tokens == 0 || t.tokens == 128

/-- Whether a line's tag stands in the packed partition (R184, R185). -/
def Line.inPacked (l : Line) : Bool :=
  match l.tag with
  | none => false
  | some t => l.cls == .packed && t.whole

def Line.inPlain (l : Line) : Bool := l.tag.isSome && !l.inPacked

def Line.used (l : Line) : Nat :=
  match l.tag with
  | none => 0
  | some t => t.used

/-- The memory-side cache gives up a line's tag: dirty data is written to HBM4, and AWAY says whether the tokens are gone (R365). A
partial count is never given up. -/
def State.homeEvict (s : State) (l : Line) : State :=
  match l.tag with
  | none => s
  | some t =>
    if !t.whole then s
    else
      (if t.dirty then s.writeBlock l.line l.key else s).setLine { l with tag := none, away := l.cls.coherent && t.tokens == 0 }

/-- The least recently used of some lines. -/
def leastUsed : List Line → Option Line
  | [] => none
  | l :: r =>
    match leastUsed r with
    | none => some l
    | some x => if x.used < l.used then some x else some l

/-- The bytes that a line takes in a packed physical line (R184, R186). -/
def State.packedSize (s : State) (l : Line) : Nat := 32 * ((s.codeFor l.line l.key).toNat + 1)

/-- Evicts the least recently used of a physical line's lines until at most three are left and `need` bytes are free (R185). Each
eviction is complete before the next begins. -/
def State.packFit (s : State) (need : Nat) (ls : List Line) : Nat → State
  | 0 => s
  | fuel + 1 =>
    if ls.length ≤ 3 ∧ (ls.map s.packedSize).sum + need ≤ 128 then s
    else
      match leastUsed ls with
      | none => s
      | some v => (s.homeEvict v).packFit need (ls.filter (fun x => x.line != v.line)) fuel

/-- A persistent request begins (R360, R362): PACT goes to the line's home die. An agent has one at a time. -/
def State.escalate (s : State) (agent line : Nat) (write : Bool) : State :=
  if s.claims.any (·.agent == agent) || s.pmsgs.any (·.agent == agent) || s.ptables.toList.any (fun t => t.active.any (·.agent == agent)) then s
  else
    { s with claims := s.claims ++ [{ agent := agent, line := line, write := write, seq := none, done := false }],
             pmsgs := s.pmsgs ++ [{ act := true, agent := agent, line := line, write := write, table := none, seq := 0 }],
             treqs := s.treqs.filter (fun t => !(t.agent == agent && t.line == line)) }

/-- Room for a line's tag: in its physical line of the packed partition, or in its 16-way set of the plain one, where the least recently
used line with a whole count goes; a set that holds partial counts only is freed by a persistent request of the home (R184, R185, R365). -/
def State.makeRoom (s : State) (l : Line) : State :=
  let near := s.lines.filter (fun x => x.line != l.line && x.die == l.die)
  if l.inPacked then
    let ls := (near.filter Line.inPacked).filter (fun x => Config.packedLine s.mgmt.mcpartNow.toNat l.die x.line == Config.packedLine s.mgmt.mcpartNow.toNat l.die l.line)
    if ls = [] then s else s.packFit (s.packedSize l) ls (ls.length + 1)
  else
    let ls := near.filter Line.inPlain
    if ls.length < 16 then s
    else
      let set := ls.filter (fun x => Config.plainSet s.mgmt.mcpartNow.toNat l.die x.line == Config.plainSet s.mgmt.mcpartNow.toNat l.die l.line)
      if set.length < 16 then s
      else
        match leastUsed (set.filter (fun x => x.tag.any HomeTag.whole)) with
        | some v => s.homeEvict v
        | none =>
          match leastUsed set with
          | none => s
          | some v => s.escalate (homeAgent l.die) v.line true

/-- Puts back a line's record whose tag is new or has grown. -/
def State.setTagged (s : State) (l : Line) : State := (if l.tag.isSome then s.makeRoom l else s).setLine l

/-- Where the home is about to send all 128 tokens of a line it holds dirty, it first writes the data to HBM4, so that they go out clean
(R359). -/
def State.sendClean (s : State) (l : Line) : State × Line :=
  if l.homeTokens = 128 ∧ l.homeDirty = true then
    (s.writeBlock l.line l.key, { l with tag := l.tag.map (fun t => { t with dirty := false }) })
  else (s, l)

/-! ### Tokens that move -/

/-- Tokens arrive at an agent (R356, R358): the owner token brings the data. -/
def Line.receive (l : Line) (agent n : Nat) (owner data dirty : Bool) : Line :=
  let h := l.holder agent
  l.setHolder { h with tokens := h.tokens + n, owner := h.owner || owner, valid := h.valid || owner || data,
                       dirty := h.dirty || (owner && dirty) }

/-- A message's tokens arrive: at the home, or at an agent. -/
def Line.accept (l : Line) (m : TokMsg) (stamp : Nat) : Line :=
  match m.dest with
  | none => l.receiveHome m.tokens m.owner m.dirty stamp
  | some a =>
    if a = homeAgent l.die then l.receiveHome m.tokens m.owner m.dirty stamp else l.receive a m.tokens m.owner m.data m.dirty

/-- Every token of a line goes to one agent, with the data: each holder sends all it has (R359's GETX, R363). -/
def Line.gather (l : Line) (agent stamp : Nat) : Line :=
  let dirty := l.homeDirty || l.holders.any (·.dirty)
  if agent = homeAgent l.die then
    { l with holders := [], tag := some { tokens := l.tokensHeld, owner := true, dirty := dirty, sectors := 15, used := stamp } }
  else
    { l.homeKeeps 0 false stamp with holders := [{ agent := agent, tokens := l.tokensHeld, owner := true, valid := true, dirty := dirty }] }

/-- One token with data for a holder that has no valid copy, or all of the owner's where it has no more: the answers of R359 to a
GETS. -/
def Line.grantRead (l : Line) (agent stamp : Nat) : Line :=
  if 0 < (l.holder agent).tokens ∧ (l.holder agent).valid = true then l
  else if l.homeOwner then
    if l.homeTokens = 128 ∨ l.homeTokens = 1 then
      (l.homeKeeps 0 false stamp).receive agent l.homeTokens true true l.homeDirty
    else (l.homeKeeps (l.homeTokens - 1) true stamp).receive agent 1 false true false
  else
    match l.holders.find? (·.owner) with
    | none => l
    | some h =>
      if 1 < h.tokens then (l.setHolder { h with tokens := h.tokens - 1 }).receive agent 1 false true false
      else (l.setHolder { h with tokens := 0 }).receive agent 1 true true h.dirty

/-- The holder of all tokens, the owner among them, writes (R357). -/
def Line.written (l : Line) : Line := { l with holders := l.holders.map (fun h => { h with dirty := h.dirty || h.owner }) }

/-! ### Persistent requests (R361 to R364) -/

/-- The order of SEQ values, modulo 2^16 (R362). -/
def seqBefore (a b : BitVec 16) : Bool := decide ((b - a).toNat < 2 ^ 15)

/-- The winner for a line by the table of a memory die: its active entry with the lowest SEQ (R362). -/
def PTable.winner (t : PTable) (line : Nat) : Option PersistentReq :=
  (t.active.filter (fun r => r.line == line)).foldl (fun w r => match w with
    | none => some r
    | some x => if seqBefore x.seq r.seq then some x else some r) none

def State.table (s : State) (die : Nat) : PTable := s.ptables[Fin.ofNat 6 die]

/-- Whether an agent holds what an access needs (R357). -/
def Line.satisfied (l : Line) (agent : Nat) (write : Bool) : Bool :=
  if agent = homeAgent l.die then (if write then l.homeTokens == 128 else decide (0 < l.homeTokens) && l.homeOwner)
  else
    let h := l.holder agent
    if write then h.tokens == 128 else decide (0 < h.tokens) && h.valid

/-- No message or persistent request of a line is under way. -/
def State.quietOn (s : State) (line : Nat) : Bool :=
  s.msgs.all (·.line != line) && s.claims.all (·.line != line) && s.pmsgs.all (·.line != line)

/-- Transient requests that are satisfied are over. -/
def State.clearRequests (s : State) (l : Line) : State :=
  { s with treqs := s.treqs.filter (fun t => !(t.line == l.line && l.satisfied t.agent t.write)) }

end Sys2Proof.Machine
end

