-- ==== Sys2Proof/Machine/Fabric.lean ====
section
/-! DEFINITION. The fabric between caches and homes (R358 to R367): messages, persistent requests, back-invalidates and clears of the
zero map, and the exchange by which an access gathers the tokens it needs. -/

namespace Sys2Proof.Machine

/-! ### Reports to the host (R395, R403) -/

/-- The error log keeps its newest 64 entries (R395). -/
def lastEntries (l : List LogEntry) : List LogEntry := l.drop (l.length - 64)

def State.log (s : State) (e : LogEntry) : State := { s with mgmt.errlog := lastEntries (s.mgmt.errlog ++ [e]) }

def State.msix (s : State) (v : Nat) : State := { s with mgmt.msix := s.mgmt.msix ++ [v] }

/-- A fatal error: nothing is dispatched and no context goes on (R403). -/
def State.fatalError (s : State) (k : FatalKind) : State :=
  if s.mgmt.fatal then s
  else
    let s := (s.log (.fatal k)).msix 0
    { s with mgmt.fatal := true, mgmt.uncorrectable := true }

/-! ### Sending tokens (R356, R358) -/

def State.send (s : State) (m : TokMsg) : State := if m.tokens = 0 then s else { s with msgs := s.msgs ++ [m] }

/-- A holder that waits for the acknowledgement of a zero-map clear keeps its tokens of the tile's lines (R367). -/
def State.keepsForClear (s : State) (l : Line) (agent : Nat) : Bool := s.zclrs.any (fun z => z.1 == agent && z.2 == tileOf l.key)

/-- All tokens that a holder has of a line leave it, with the data if it has any. -/
def State.release (s : State) (l : Line) (agent : Nat) (dest : Option Nat) : State :=
  let h := l.holder agent
  (s.setLine (l.setHolder { h with tokens := 0 })).send
    { line := l.line, dest := dest, tokens := h.tokens, owner := h.owner, data := h.owner || h.valid, dirty := h.owner && h.dirty }

/-- One token with data, from an owner that has more than one. -/
def State.sendOne (s : State) (agent : Nat) (l : Line) : State :=
  (s.setTagged (l.hint s.variant agent)).send { line := l.line, dest := some agent, tokens := 1, owner := false, data := true, dirty := false }

/-- The host port asks the host for a line, by a back-invalidate that is not under way yet (R363). -/
def State.askHost (s : State) (x : Snoop) : State :=
  if s.snoops.any (fun y => y.line == x.line && y.dest == x.dest && (y.all || !x.all)) then s else { s with snoops := s.snoops ++ [x] }

/-- A holder sends all its tokens of a line. The host port first asks the host (R363, R366). -/
def State.sendAll (s : State) (l : Line) (agent : Nat) (dest : Option Nat) : State :=
  if s.keepsForClear l agent || (l.holder agent).tokens == 0 then s
  else
    match (if agent = hostAgent then dest else none) with
    | some a => s.askHost { line := l.line, dest := a, all := true }
    | none => s.release l agent dest

/-- As `sendAll`, for the line's record as it stands. -/
def State.surrender (s : State) (line agent : Nat) (dest : Option Nat) : State :=
  match s.lineAt line with
  | none => s
  | some l => s.sendAll l agent dest

/-- The home sends all its tokens of a line, clean where they are all 128 (R359), unless it waits for a clear itself (R367). -/
def State.sendHome (s : State) (line agent : Nat) : State :=
  match s.lineAt line with
  | none => s
  | some l =>
    if l.homeTokens = 0 ∨ s.keepsForClear l (homeAgent l.die) = true then s
    else
      let (s, l) := s.sendClean l
      (s.setTagged ((l.homeKeeps 0 false s.free).hint s.variant agent)).send
        { line := line, dest := some agent, tokens := l.homeTokens, owner := l.homeOwner, data := l.homeOwner, dirty := l.homeOwner && l.homeDirty }

/-- While a table holds an active entry for a line, every holder that it serves sends the winner its tokens (R363). -/
def State.yieldFrom (s : State) (line : Nat) (d : Nat) : State :=
  match s.lineAt line, (s.table d).winner line with
  | some l, some w =>
    let hs := (l.holders.map (·.agent)).filter (fun a => a != w.agent && tableDie s.variant a == d)
    let s := hs.foldl (fun s a => s.surrender line a (some w.agent)) s
    if l.die = d ∧ w.agent ≠ homeAgent d then s.sendHome line w.agent else s
  | _, _ => s

def State.yieldTokens (s : State) (line : Nat) : State := (List.range 6).foldl (fun s d => s.yieldFrom line d) s

/-- The claims on a line whose requesters hold what their accesses need: each performs its access and sends PDEACT (R364). -/
def State.performClaims (s : State) (line : Nat) : State :=
  match s.lineAt line with
  | none => s
  | some l =>
    let ready (c : Claim) : Bool := c.line == line && !c.done && l.satisfied c.agent c.write
    { s with claims := s.claims.map (fun c => if ready c then { c with done := true } else c),
             pmsgs := s.pmsgs ++ (s.claims.filter ready).map (fun c =>
               { act := false, agent := c.agent, line := c.line, write := c.write, table := none, seq := 0 }) }

/-- What follows a change of a line's tokens. -/
def State.tokensMoved (s : State) (line : Nat) : State :=
  let s := (s.yieldTokens line).performClaims line
  match s.lineAt line with
  | none => s
  | some l => s.clearRequests l

/-! ### Persistent requests (R361 to R364) -/

/-- The messages that carry a home die's decision to the table of every memory die. -/
def State.toTables (s : State) (m : PMsg) (seq : BitVec 16) : List PMsg :=
  (List.range s.variant.memDies).map (fun d => { m with table := some d, seq := seq })

/-- PACT reaches the home die, which gives it the next SEQ and sends the activation on; or an activation reaches a table, which stores
it, unless its deactivation has come before it (R362, R364). -/
def State.activate (s : State) (m : PMsg) : State :=
  match m.table with
  | none =>
    match s.lineAt m.line with
    | none => { s with claims := s.claims.filter (·.agent != m.agent) }
    | some l =>
      let d := Fin.ofNat 6 l.die
      let seq := s.pseq[d]
      { s with pseq := s.pseq.set d (seq + 1), pmsgs := s.pmsgs ++ s.toTables m seq,
               claims := s.claims.map (fun c => if c.agent = m.agent then { c with seq := some seq } else c) }
  | some d =>
    let d := Fin.ofNat 6 d
    let t := s.ptables[d]
    if t.early.contains (m.agent, m.seq) then
      { s with ptables := s.ptables.set d { t with early := t.early.erase (m.agent, m.seq) } }
    else
      let e : PersistentReq := { agent := m.agent, line := m.line, write := m.write, seq := m.seq }
      State.tokensMoved { s with ptables := s.ptables.set d { t with active := e :: t.active.filter (fun r => r.agent != m.agent) } } m.line

/-- PDEACT reaches the home die, which sends the deactivation, with the activation's SEQ, to every table; or a deactivation reaches a
table, which clears the entry whose SEQ it matches, or holds it until the activation comes (R364). -/
def State.deactivate (s : State) (m : PMsg) : State :=
  match m.table with
  | none =>
    match (s.claims.find? (·.agent == m.agent)).bind (·.seq) with
    | none => { s with pmsgs := s.pmsgs ++ [m] }
    | some seq => { s with claims := s.claims.filter (·.agent != m.agent), pmsgs := s.pmsgs ++ s.toTables m seq }
  | some d =>
    let d := Fin.ofNat 6 d
    let t := s.ptables[d]
    if t.active.any (fun r => r.agent == m.agent && r.seq == m.seq) then
      State.tokensMoved { s with ptables := s.ptables.set d { t with active := t.active.filter (fun r => !(r.agent == m.agent && r.seq == m.seq)) } } m.line
    else { s with ptables := s.ptables.set d { t with early := t.early ++ [(m.agent, m.seq)] } }

/-- Persistent-request message `n` arrives. -/
def State.persistentArrive (s : State) (n : Nat) : State :=
  match s.pmsgs[n]? with
  | none => s
  | some m =>
    let s : State := { s with pmsgs := s.pmsgs.eraseIdx n }
    if m.act then s.activate m else s.deactivate m

/-! ### Arrivals (R358, R363, R367) -/

/-- Message `n` arrives. While the line has a winner, tokens that reach another holder go on to it (R363). -/
def State.tokArrive (s : State) (n : Nat) : State :=
  match s.msgs[n]? with
  | none => s
  | some m =>
    let s : State := { s with msgs := s.msgs.eraseIdx n }
    match s.lineAt m.line with
    | none => s
    | some l => (s.setTagged (l.accept m s.free)).tokensMoved m.line

/-- The home serves clear `n`, unless an earlier one of its tile waits: it clears the flag and acknowledges; a second clear finds the flag
0. The holder writes, and then yields what a winner waits for (R367). -/
def State.zack (s : State) (n : Nat) : State :=
  match s.zclrs[n]? with
  | none => s
  | some (_, tile) =>
    if (s.zclrs.take n).any (fun z => z.2 == tile) then s
    else
      let s : State := { s with zclrs := s.zclrs.eraseIdx n }
      let s := s.dropFlag tile
      ((s.lines.filter (fun l => tileOf l.key == tile)).map (·.line)).foldl State.tokensMoved s

/-- Every clear of a tile that has been asked for is served, in the order of arrival. -/
def State.serveClears (s : State) (tile : Nat) : State :=
  (s.zclrs.filter (·.2 == tile)).foldl (fun s _ => match s.zclrs.findIdx? (·.2 == tile) with
    | none => s
    | some n => s.zack n) s

/-- The host has answered its oldest back-invalidate for a line: the host port surrenders its tokens, or one with the data (R359, R363). -/
def State.backInvalidateAnswer (s : State) (line : Nat) : State :=
  match s.snoops.find? (·.line == line) with
  | none => s
  | some x =>
    let s : State := { s with snoops := s.snoops.erase x }
    match s.lineAt line with
    | none => s
    | some l =>
      let h := l.holder hostAgent
      if s.keepsForClear l hostAgent || h.tokens == 0 then s
      else if !x.all && h.owner && decide (1 < h.tokens) then s.sendOne x.dest (l.setHolder { h with tokens := h.tokens - 1 })
      else s.release l hostAgent (some x.dest)

/-- The host answers a back-invalidate for a line, or has not done so within 100 µs, which is fatal (R363). -/
def State.hostReply (s : State) (line : Nat) : State :=
  if Config.hostSilent (s.free * 2 ^ 45 + line) then s.fatalError .backInvalidate else s.backInvalidateAnswer line

/-! ### The exchange inside an access (R357 to R367, log entry 15) -/

/-- One thing that a line's traffic waits for: a message arrives, a persistent request goes on, a clear of its tile is acknowledged, or the
host replies. -/
def State.lineEvent (s : State) (line tile : Nat) : Option State :=
  match s.msgs.findIdx? (·.line == line) with
  | some n => some (s.tokArrive n)
  | none =>
    match s.pmsgs.findIdx? (·.line == line) with
    | some n => some (s.persistentArrive n)
    | none =>
      match s.zclrs.findIdx? (·.2 == tile) with
      | some n => some (s.zack n)
      | none => if s.snoops.any (·.line == line) then some (s.hostReply line) else none

/-- A line's traffic goes on until `stop` holds, nothing is left to come, or the device has stopped. -/
def State.runLine (s : State) (line tile : Nat) (stop : State → Bool) : Nat → State
  | 0 => s
  | fuel + 1 =>
    if stop s || s.mgmt.fatal then s
    else
      match s.lineEvent line tile with
      | none => s
      | some t => t.runLine line tile stop fuel

/-- More steps than the traffic of one line can have: 320 persistent requests, each with its messages and the tokens of 283 holders. -/
def trafficBound : Nat := 1048576

/-- The line of an agent's persistent request, until every table has cleared it. -/
def State.claimedLine (s : State) (agent : Nat) : Option Nat :=
  match s.claims.find? (·.agent == agent), s.pmsgs.find? (·.agent == agent), s.ptables.toList.findSome? (fun t => t.active.find? (·.agent == agent)) with
  | some c, _, _ => some c.line
  | none, some m, _ => some m.line
  | none, none, some r => some r.line
  | none, none, none => none

/-- An agent's earlier persistent request comes to its deactivation: it has at most one (R362). -/
def State.finishClaim (s : State) (agent : Nat) : State :=
  match s.claimedLine agent with
  | none => s
  | some line => s.runLine line ((s.lineAt line).map (fun l => tileOf l.key) |>.getD 0) (fun t => (t.claimedLine agent).isNone) trafficBound

/-- Whether an agent holds what an access to a line needs. -/
def State.holds (s : State) (agent line : Nat) (write : Bool) : Bool :=
  match s.lineAt line with
  | none => true
  | some l => l.satisfied agent write

/-- A persistent request of an agent, carried on until the agent holds what its access needs (R360 to R364). Its PDEACT stays in flight. -/
def State.exchange (s : State) (agent : Nat) (l : Line) (write : Bool) : State :=
  ((s.finishClaim agent).escalate agent l.line write).runLine l.line (tileOf l.key) (fun t => t.holds agent l.line write) trafficBound

/-- Whether the answers to a transient request can give an agent what it needs at once: nothing of the line is under way, no holder waits
for a clear, and no token of the host's is wanted (R359). -/
def State.answersAtOnce (s : State) (agent : Nat) (l : Line) (write : Bool) : Bool :=
  s.quietOn l.line && s.ptables.toList.all (fun t => (t.winner l.line).isNone) && s.zclrs.all (·.2 != tileOf l.key) &&
    s.snoops.all (·.line != l.line) &&
    (agent == hostAgent || (if write then (l.holder hostAgent).tokens == 0 else !(l.holder hostAgent).owner))

/-- Those answers arrive. -/
def State.answered (s : State) (agent : Nat) (l : Line) (write : Bool) : State :=
  let (s, l) := s.sendClean l
  let l := (if write then l.gather agent s.free else l.grantRead agent s.free).hint s.variant agent
  (s.setTagged l).clearRequests l

/-- The holder of all tokens writes, and after the write yields what a winner waits for (R357, R367). -/
def State.wrote (s : State) (line : Nat) : State :=
  match s.lineAt line with
  | none => s
  | some l =>
    let s := s.setLine l.written
    if s.ptables.toList.any (fun t => (t.winner line).isSome) then s.tokensMoved line else s

/-- The tokens that an agent's access to a placed byte needs are gathered (R357). The whole exchange stands inside the access, the host's
reply to a back-invalidate included (log entry 15). -/
def State.gatherFor (s : State) (agent : Nat) (p : Place) (write : Bool) : State :=
  if !p.cls.coherent then s
  else
    let s := if write then s.serveClears (tileOf p.key) else s
    let l := s.lineRec p
    if l.satisfied agent write then s
    else if s.answersAtOnce agent l write then s.answered agent l write
    else s.exchange agent l write

/-- An agent makes ready for an access: its tokens are gathered, and for a write the flag over the byte is cleared (R190, R357, R367). -/
def State.acquire (s : State) (agent : Nat) (p : Place) (write : Bool) : State :=
  let s := s.gatherFor agent p write
  if write && p.cls.coherent then (s.clearFlag p.key).wrote (p.pa / 128) else s

/-- The home gathers every token of a line, by a persistent write request of agent 276 + d (R365, R368). -/
def State.gatherHome (s : State) (p : Place) : State :=
  let l := s.lineRec p
  if !p.cls.coherent || l.satisfied (homeAgent l.die) true then s else s.exchange (homeAgent l.die) l true

/-- The 32-byte sector of a line that a key lies in (R184). -/
def sectorOf (key : Nat) : BitVec 4 := BitVec.ofNat 4 (2 ^ (key / 32 % 4))

/-- The home already holds a line dirty, with a sector, from this step. -/
def Line.writtenNow (l : Line) (stamp : Nat) (sector : BitVec 4) : Bool :=
  l.holders.isEmpty && l.tag.any (fun t => t.dirty && t.used == stamp && t.sectors &&& sector == sector &&
    (!l.cls.coherent || t.tokens == 128))

/-- A write at the home by an engine, the device or a merging write-back: every token of a coherent line is gathered there, the flag of
its tile is cleared, and the memory-side cache holds the line dirty until it writes it back (R184, R190, R217). -/
def State.homeWrite (s : State) (p : Place) : State :=
  if p.cls = .host then s
  else if (s.lineRec p).writtenNow s.free (sectorOf p.key) && !s.zflags.contains (tileOf p.key) && !s.zflagErr.contains (tileOf p.key) then s
  else
    let s := ((s.serveClears (tileOf p.key)).gatherHome p).clearFlag p.key
    let l := s.lineRec p
    let sec := (l.tag.map (·.sectors)).getD 0 ||| sectorOf p.key
    let s := s.setTagged { l with tag := some { tokens := if p.cls.coherent then l.homeTokens else 0, owner := p.cls.coherent && l.homeOwner,
                                                dirty := true, sectors := sec, used := s.free } }
    if p.cls.coherent then s.wrote l.line else s

/-- A packed line whose size code has grown pushes others out of its physical line (R185). -/
def State.regrow (s : State) (p : Place) : State :=
  if p.cls = .packed then s.makeRoom (s.lineRec p) else s

end Sys2Proof.Machine
end

