-- ==== Sys2Proof/Machine/Access.lean ====
section
/-! DEFINITION. Translation (R207 to R216), the places of virtual bytes, software-managed lines and their write-backs (R187, R188, R199),
and the accesses that sequencers, engines, the device and the host make. -/

namespace Sys2Proof.Machine

open Host (Cell)

/-! ### Translation (R207 to R216) -/

/-- The kinds of an access (R215). -/
structure Access where
  read : Bool
  write : Bool
  exec : Bool
  deriving DecidableEq, Repr

def Access.load : Access := ⟨true, false, false⟩
def Access.store : Access := ⟨false, true, false⟩
def Access.atomic : Access := ⟨true, true, false⟩
def Access.fetch : Access := ⟨false, false, true⟩

/-- Why a translation fails: R215's FAULT_MAP and FAULT_PERM, and NOT_RESIDENT. -/
inductive XFault where
  | fault
  | nonResident
  deriving DecidableEq, Repr

/-- The cause that a sequencer takes (R215, R225). -/
def XFault.cause : XFault → Nat
  | .fault => 0x09
  | .nonResident => 0x08

/-- The page shifts of R210. -/
def pageShift : Nat → Nat
  | 0 => 16
  | 1 => 21
  | 2 => 29
  | _ => 34

/-- A little-endian number in physical memory; none where a byte is not placed or is poisoned (log entry 16). -/
def State.physNum (s : State) (pa : Nat) : Nat → Option Nat
  | 0 => some 0
  | n + 1 =>
    match s.place pa with
    | none => none
    | some p =>
      match s.homeByte p.key, s.physNum (pa + 1) n with
      | (b, false), some r => some (b.toNat + 256 * r)
      | _, _ => none

/-- The anchor number (R214). -/
def hashAnchor (hatn asid vpn size : Nat) : Nat :=
  let key := vpn + asid <<< 40 + size <<< 51
  key % 2 ^ hatn ^^^ key / 2 ^ hatn % 2 ^ hatn ^^^ key / 2 ^ (2 * hatn) % 2 ^ hatn ^^^ key / 2 ^ (3 * hatn) % 2 ^ hatn

/-- A translation-table entry matched by a walk. -/
structure PageEntry where
  size : Nat
  vpn : Nat
  ppn : Nat
  x : Bool
  w : Bool
  r : Bool
  u : Bool
  res : Bool
  malformed : Bool
  deriving DecidableEq, Repr

def PageEntry.ofNum (v : Variant) (e : Nat) : PageEntry :=
  let size := fld e 2 2
  let vpn := fld e 48 40
  let ppn := fld e 88 36
  let pages := 2 ^ (pageShift size - 16)
  let form := ppn / 2 ^ 32
  { size := size, vpn := vpn, ppn := ppn, x := fld e 10 1 == 1, w := fld e 9 1 == 1, r := fld e 8 1 == 1, u := fld e 7 1 == 1,
    res := fld e 6 1 == 1,
    malformed := fld e 124 4 != 0 || fld e 11 2 != 0 || fld e 4 2 != 0 || vpn % pages != 0 || ppn % pages != 0 ||
      (2 ≤ form && form ≤ 7) || decide (8 + v.memDies ≤ form) }

/-- Follows one chain of entries, at most 64 of them (R215). -/
def walkChain (s : State) (asid va size slot : Nat) : Nat → Except Unit (Option PageEntry)
  | 0 => if fld slot 21 3 = 7 then .ok none else .error ()
  | fuel + 1 =>
    let die := fld slot 21 3
    if die = 7 then .ok none
    else if s.variant.memDies ≤ die then .error ()
    else
      match s.physNum ((s.mgmt.latched.xiptb.toList.getD die 0).toNat + 16 * fld slot 0 21) 16 with
      | none => .error ()
      | some e =>
        if fld e 0 2 = 1 ∧ fld e 13 11 = asid ∧ fld e 2 2 = size ∧ fld e 48 40 = va / 2 ^ pageShift size * 2 ^ (pageShift size - 16) then
          .ok (some (PageEntry.ofNum s.variant e))
        else walkChain s asid va size (fld e 24 24) fuel

/-- Probes the page sizes of the mask from the largest down, along chains of at most `limit` entries (R215). -/
def walkSizes (s : State) (asid va mask limit : Nat) : List Nat → Except Unit (Option PageEntry)
  | [] => .ok none
  | z :: r =>
    if fld mask z 1 = 0 then walkSizes s asid va mask limit r
    else
      let x := s.mgmt.latched.xhatb.toNat
      let h := hashAnchor (fld x 0 5) asid (va / 2 ^ pageShift z) z
      match s.physNum (fld x 12 40 * 4096 + 4 * h) 4 with
      | none => .error ()
      | some a =>
        if fld a 31 1 = 0 then walkSizes s asid va mask limit r
        else
          match walkChain s asid va z (fld a 0 24) limit with
          | .error e => .error e
          | .ok (some p) => .ok (some p)
          | .ok none => walkSizes s asid va mask limit r

/-- The size mask of an address space (R212). -/
def State.sizeMask (s : State) (asid : Nat) : Nat :=
  match s.physNum (s.mgmt.latched.xastb.toNat + asid) 1 with
  | none => 0
  | some b => if fld b 7 1 = 1 ∧ fld b 4 3 = 0 then fld b 0 4 else 0

/-- The entry that the tables hold for an address. -/
def State.walk (s : State) (asid va : Nat) : Option PageEntry :=
  match walkSizes s asid va (s.sizeMask asid) 64 [3, 2, 1, 0] with
  | .ok (some e) => if e.malformed then none else some e
  | _ => none

def PageEntry.permits (e : PageEntry) (level : Level) (a : Access) : Bool :=
  (!a.read || e.r) && (!a.write || e.w) && (!a.exec || e.x) && (level != .user || e.u)

def TlbEntry.page (t : TlbEntry) : PageEntry :=
  { size := t.size, vpn := t.vpn, ppn := t.ppn, x := t.execOk, w := t.writeOk, r := t.readOk, u := t.userOk, res := true, malformed := false }

def TlbEntry.covers (t : TlbEntry) (md asid va : Nat) : Bool :=
  t.md == md && t.asid == asid && va / 2 ^ pageShift t.size * 2 ^ (pageShift t.size - 16) == t.vpn

/-- The entry that an access uses: the tables', or an older one that the die's TLB still keeps, one of them for all bytes of a page (R216). -/
def State.entryFor (s : State) (md asid va : Nat) : Option PageEntry :=
  match s.tlb.find? (·.covers md asid va) with
  | none => s.walk asid va
  | some t =>
    if s.walk asid va = some t.page then some t.page
    else if Config.useOld (s.free * 2 ^ 40 + va / 65536) then some t.page
    else s.walk asid va

/-- One access's physical address (R215). -/
def State.translate (s : State) (md asid : Nat) (level : Level) (va : Nat) (a : Access) : Except XFault Nat :=
  match s.entryFor md asid va with
  | none => .error .fault
  | some e =>
    if !e.permits level a then .error .fault
    else if !e.res then .error .nonResident
    else .ok (e.ppn * 65536 + va % 2 ^ pageShift e.size)

/-- The addresses of the entries that following one chain reads (R215). -/
def chainReads (s : State) (asid va size slot : Nat) : Nat → List Nat
  | 0 => []
  | fuel + 1 =>
    if fld slot 21 3 = 7 ∨ s.variant.memDies ≤ fld slot 21 3 then []
    else
      let a := (s.mgmt.latched.xiptb.toList.getD (fld slot 21 3) 0).toNat + 16 * fld slot 0 21
      match s.physNum a 16 with
      | none => [a]
      | some e =>
        if fld e 0 2 = 1 ∧ fld e 13 11 = asid ∧ fld e 2 2 = size ∧ fld e 48 40 = va / 2 ^ pageShift size * 2 ^ (pageShift size - 16) then [a]
        else a :: chainReads s asid va size (fld e 24 24) fuel

/-- The addresses that probing the sizes of a mask reads: anchors, and the entries of their chains, up to the entry that decides. -/
def sizeReads (s : State) (asid va mask : Nat) : List Nat → List Nat
  | [] => []
  | z :: r =>
    if fld mask z 1 = 0 then sizeReads s asid va mask r
    else
      let x := s.mgmt.latched.xhatb.toNat
      let anchor := fld x 12 40 * 4096 + 4 * hashAnchor (fld x 0 5) asid (va / 2 ^ pageShift z) z
      match s.physNum anchor 4 with
      | none => [anchor]
      | some a =>
        if fld a 31 1 = 0 then anchor :: sizeReads s asid va mask r
        else
          anchor :: chainReads s asid va z (fld a 0 24) 64 ++ (match walkChain s asid va z (fld a 0 24) 64 with
            | .ok none => sizeReads s asid va mask r
            | _ => [])

/-- The walker of a memory die reads the tables as a coherent reader: copies of what it reads come into the die's L2 slices (R215, R357). -/
def State.touchWalk (s : State) (md asid va : Nat) : State :=
  ((s.mgmt.latched.xastb.toNat + asid) :: sizeReads s asid va (s.sizeMask asid) [3, 2, 1, 0]).foldl (fun s pa =>
    match s.place pa with
    | none => s
    | some p => s.acquire (agentOfCache (.l2 md (homeSlice pa))) p false) s

/-- A translation that the TLB does not have is walked for; one that succeeds is kept (R216). -/
def State.tlbFill (s : State) (md asid va : Nat) : State :=
  if s.tlb.any (·.covers md asid va) then s
  else
    let w := s.walk asid va
    let s := s.touchWalk md asid va
    match w with
    | none => s
    | some e =>
      let t : TlbEntry := { md := md, asid := asid, size := e.size, vpn := e.vpn, ppn := e.ppn, readOk := e.r, writeOk := e.w,
                            execOk := e.x, userOk := e.u }
      if e.res then { s with tlb := t :: s.tlb } else s

/-! ### Virtual accesses -/

/-- The base of the brigade window (R179, R181). -/
def bwin : Nat := 0xFFFFFFC0000000

/-- Who makes an access: the context, if one does; the memory die beneath it, its compute die if it has one, its address space and its
level, and its brigade. -/
structure Who where
  ctxid : Option Nat
  md : Nat
  die : Option Nat
  asid : Nat
  level : Level
  lnum : Nat
  stage : Nat
  inst : Nat
  brigade : Nat
  deriving DecidableEq, Repr

def Context.who (v : Variant) (c : Context) : Who :=
  { ctxid := some c.ctxid.toNat, md := memDieOf v c.die, die := some c.die, asid := c.asid.toNat, level := c.level, lnum := c.lnum, stage := c.stage, inst := c.inst, brigade := c.brigade }

/-- The contexts of one brigade instance, other than the one on turn. -/
def Context.sameBrigade (c : Context) (w : Who) : Bool := c.lnum == w.lnum && c.stage == w.stage && c.inst == w.inst

def Context.gone (c : Context) : Bool :=
  match c.status with
  | .absent => true
  | .ended _ => true
  | .ending _ => false
  | .ready => false
  | .running => false
  | .halted => false
  | .landed => false
  | .parked => false

/-- A member of a brigade that has not ended. -/
def State.member (s : State) (w : Who) (rank : Nat) : Option Context :=
  (s.ctx :: s.others).find? (fun c => c.sameBrigade w && c.rank == rank && !c.gone)

/-- The byte of a save area at which a partition's backing range begins (R328). -/
def backingBase (foot : Nat) : Nat := (0xB11000 + 288 * (foot * 8192) + 65535) / 65536 * 65536

/-- The size Z of a context's save area (R330). -/
def areaSize (foot scrhi : Nat) : Nat := backingBase foot + 2 ^ 20 * scrhi

/-- Bytes that the save slots of a stage need. -/
def Stage.saveNeed (g : Stage) : Nat := g.maxInst * g.ctxs * areaSize g.foot g.scrHi

/-- The area of a member of instance slot `j` of stage `i` (R330). -/
def Pipeline.areaOf (p : Pipeline) (i j m : Nat) : Nat :=
  let below := ((p.stages.take i).map Stage.saveNeed).sum
  match p.stages[i]? with
  | none => p.saveBase + below
  | some g => p.saveBase + below + (j * g.ctxs + m) * areaSize g.foot g.scrHi

/-- Whether a member's state lies in a save area (R326, R338). One that has stopped issuing keeps the mark only while its chain is
away with it. -/
def Context.drainedAway (m : Context) : Bool :=
  match m.status with
  | .ready => m.saved.isSome
  | .parked => m.saved.isSome
  | .absent => false
  | .running => false
  | .halted => false
  | .landed => false
  | .ending _ => m.saved.isSome
  | .ended _ => false

/-- The current size S of a partition, in MiB (R177). -/
def Context.scratchSize (c : Context) : Nat := c.blocks.length

def State.pipelineNo (s : State) (lnum : Nat) : Option Pipeline := s.pipelines.find? (·.lnum == lnum)

/-- The virtual address of a partition's backing range: in the area that the context was drained into, or in its own slot (R177, R328). -/
def State.backingAt (s : State) (m : Context) : Option Nat :=
  (if m.drainedAway then m.saved else (s.pipelineNo m.lnum).map (fun p => p.areaOf m.stage m.inst m.rank)).map (· + backingBase m.foot)

def State.locateMem (s : State) (md asid : Nat) (level : Level) (va : Nat) (a : Access) : Except XFault Loc :=
  match s.translate md asid level va a with
  | .error e => .error e
  | .ok pa =>
    match s.place pa with
    | none => .error .fault
    | some p => .ok (.mem p)

/-- The address space of a partition's backing range: the pipeline's (R304), or that of the area that CTXSAVE has named. -/
def Context.backingAsid (m : Context) (p : Pipeline) : Nat := if m.drainedAway then m.savedAsid else p.asid

/-- Where a byte of a partition's backing range lies: the device reaches it at supervisor level (R304). No access to the window faults for
it (R179): a byte that the device cannot reach is lost, and ends the pipeline. -/
def State.locateBacking (s : State) (m : Context) (off : Nat) (a : Access) : Loc :=
  match s.pipelineNo m.lnum, s.backingAt m with
  | some p, some base =>
    match s.locateMem (memDieOf s.variant m.die) (m.backingAsid p) .supervisor (base + off) a with
    | .ok (.mem q) => .backing q (if m.drainedAway then none else some m.die)
    | .ok (.scratch _ _) => .lost m.lnum (base + off)
    | .ok (.backing _ _) => .lost m.lnum (base + off)
    | .ok (.lost _ _) => .lost m.lnum (base + off)
    | .error _ => .lost m.lnum (base + off)
  | _, _ => .lost m.lnum off

/-- The location of one byte (R177, R180, R207, R215). -/
def State.locate (s : State) (w : Who) (va : Nat) (a : Access) : Except XFault Loc :=
  if 2 ^ 56 ≤ va then .error .fault
  else if bwin ≤ va then
    let rank := (va - bwin) / 0x4000000
    let off := (va - bwin) % 0x4000000
    match s.member w rank with
    | none => .error .fault
    | some m =>
      if a.exec || decide (w.brigade ≤ rank) || decide (m.scrhi.toNat * 2 ^ 20 ≤ off) then .error .fault
      else if !m.drainedAway && decide (off < 2 ^ 20 * m.scratchSize) then .ok (.scratch rank off)
      else .ok (s.locateBacking m off a)
  else s.locateMem w.md w.asid w.level va a

/-- The locations of `n` bytes from `va`, or the first fault with its address. -/
def State.locateBytes (s : State) (w : Who) (va : Nat) (a : Access) : Nat → Except (XFault × Nat) (List Loc)
  | 0 => .ok []
  | n + 1 =>
    match s.locate w va a with
    | .error e => .error (e, va)
    | .ok l =>
      match s.locateBytes w (va + 1) a n with
      | .error e => .error e
      | .ok r => .ok (l :: r)

/-- The window slot of an address, or none outside the window (R179). -/
def windowSlot (va : Nat) : Option Nat := if bwin ≤ va then some ((va - bwin) / 0x4000000) else none

/-- As `locateBytes`; an access that meets the window stays in one slot of it (R180). -/
def State.locateN (s : State) (w : Who) (va : Nat) (a : Access) (n : Nat) : Except (XFault × Nat) (List Loc) :=
  if windowSlot va = windowSlot (va + (n - 1)) then s.locateBytes w va a n else .error (.fault, va)

/-- The TLB fill of one byte's translation: its own, or, for a byte of a window that lies in a backing range, the device's (R177, R216). -/
def State.fillAt (s : State) (w : Who) (va : Nat) : State :=
  if va < bwin then s.tlbFill w.md w.asid va
  else
    match s.member w ((va - bwin) / 0x4000000) with
    | none => s
    | some m =>
      let off := (va - bwin) % 0x4000000
      if !m.drainedAway && decide (off < 2 ^ 20 * m.scratchSize) then s
      else
        match s.pipelineNo m.lnum, s.backingAt m with
        | some p, some base => s.tlbFill (memDieOf s.variant m.die) (m.backingAsid p) (base + off)
        | _, _ => s

/-- The TLB fills of an access of `n` bytes: its first and its last page. -/
def State.fillPages (s : State) (w : Who) (va n : Nat) : State := (s.fillAt w va).fillAt w (va + (n - 1))

/-- A byte of a member's partition. -/
def State.scratchGet (s : State) (w : Who) (rank off : Nat) : Byte × Bool :=
  match s.member w rank with
  | none => (0, false)
  | some m => (memGet m.scratch off, m.scratchPoi.contains off)

def State.scratchPut (s : State) (w : Who) (rank off : Nat) (b : Byte) (poison : Bool) : State :=
  mapCtxs s (fun c => if c.sameBrigade w && c.rank == rank && !c.gone then
    { c with scratch := memSet c.scratch off b, scratchPoi := setPut c.scratchPoi off poison } else c)

/-! ### Caches on a path (R175, R231) -/

/-- The L1 that holds a line for an array: its own, or, while the array belongs to a fused set, the slice of the set that the address
names, whichever brigade the context is of (R175). -/
def State.l1Of (s : State) (array pa : Nat) : CacheId :=
  match s.fusedSets.find? (fun f => f.arrays.contains array) with
  | none => .l1 array
  | some f => .l1 (f.arrays.getD (pa / 128 % f.arrays.length) array)

/-- The caches on a context's path, nearest first: an L1 in which a fused set that was there before has left the line for its array
(R175), its L1, its die cache, and the L2 slice of its memory die that the address names. -/
def State.pathOf (s : State) (c : Context) (pa : Nat) : List CacheId :=
  (((s.swLines.filter (fun l => l.line == pa / 128 && l.serves.contains c.arrayOr0)).map (·.cache)) ++
    [s.l1Of c.arrayOr0 pa, .die c.die, .l2 (memDieOf s.variant c.die) (homeSlice pa)]).eraseDups

/-- The cache below one on the way to memory. -/
def CacheId.below (v : Variant) (pa : Nat) : CacheId → Option CacheId
  | .l1 a => some (.die (dieOfArray a))
  | .die d => some (.l2 (memDieOf v d) (homeSlice pa))
  | .l2 _ _ => none

/-- The caches below one. -/
def CacheId.wayDown (v : Variant) (pa : Nat) (k : CacheId) : List CacheId :=
  (k.below v pa).toList ++ ((k.below v pa).bind (CacheId.below v pa)).toList

/-- Whether two caches are one, or one lies below the other. -/
def CacheId.onePath (v : Variant) (pa : Nat) (k j : CacheId) : Bool :=
  k == j || (k.wayDown v pa).contains j || (j.wayDown v pa).contains k

/-- The compute die of a cache. -/
def CacheId.computeDie : CacheId → Option Nat
  | .l1 a => some (dieOfArray a)
  | .die d => some d
  | .l2 _ _ => none

/-! ### Write-backs in flight (R188, R199, R202, R204) -/

/-- Whether a write-back must merge before a later one of the same line: the caches that sent them lie on one path, or served one array,
so that they may hold one context's bytes (log entry 17); or the later one's die has been shown the earlier; or both are stores to host
memory. -/
def WriteBack.before (v : Variant) (a b : WriteBack) : Bool :=
  a.key == b.key && (match a.src, b.src with
    | none, none => true
    | some j, some k => j.onePath v (128 * a.line) k || a.serves.any b.serves.contains || k.computeDie.any a.fenced.contains
    | _, _ => false)

/-- Those that merge when `p` asks for some, with every one that must merge before them, and those that stay, in order. -/
def splitMerge (v : Variant) (p : WriteBack → Bool) : List WriteBack → List WriteBack × List WriteBack
  | [] => ([], [])
  | wb :: r =>
    let (m, k) := splitMerge v p r
    if p wb || m.any (fun x => wb.before v x) then (wb :: m, k) else (m, wb :: k)

def WriteBack.place (wb : WriteBack) : Place :=
  { pa := 128 * wb.line, key := wb.key, cls := if 2 ^ 40 ≤ wb.key then .host else .software, zmap := false, cmpr := false }

def WriteBack.byte (wb : WriteBack) (i : Nat) : Byte := BitVec.ofNat 8 (wb.data.toNat / 2 ^ (8 * i))

/-- A write-back merges at the home, byte by byte (R188). -/
def State.mergeBack (s : State) (wb : WriteBack) : State :=
  (List.range 128).foldl (fun s i => if wb.mask.getLsbD i then s.putByte (wb.key + i) (wb.byte i) (wb.poi.getLsbD i) else s)
    (s.homeWrite wb.place)

/-- Every write-back that satisfies `p` merges, oldest first. -/
def State.mergeWhere (s : State) (p : WriteBack → Bool) : State :=
  let (m, k) := splitMerge s.variant p s.writeBacks
  { m.foldl State.mergeBack s with writeBacks := k }

/-- A byte as an agent of a compute die sees it: a write-back that a FENCE.die has made visible there, or a store of the device to host
memory, stands before what the home holds (R202, R204). -/
def State.seenByte (s : State) (die : Option Nat) (key : Nat) : Byte × Bool :=
  match (s.writeBacks.filter (fun wb => wb.key == lineOf key && wb.mask.getLsbD (key % 128) &&
      (decide (2 ^ 40 ≤ key) || die.any wb.fenced.contains))).getLast? with
  | some wb => (wb.byte (key % 128), wb.poi.getLsbD (key % 128))
  | none => s.homeByte key

/-- Whether a write-back concerns a context's own accesses: it sent it, or a cache on its path or one that served its array did, which may
hold bytes that it stored (R175, R199, R231). -/
def State.sentFor (s : State) (c : Context) (wb : WriteBack) : Bool :=
  wb.owner == some c.ctxid.toNat || wb.serves.contains c.arrayOr0 || wb.src.any (s.pathOf c (128 * wb.line)).contains

/-- Before an agent of a compute die writes a line at its home, what that agent has been shown merges. -/
def State.mergeSeen (s : State) (die : Option Nat) (key : Nat) : State :=
  s.mergeWhere (fun wb => wb.key == lineOf key && (decide (2 ^ 40 ≤ key) || die.any wb.fenced.contains))

/-- One byte of a line of which another number holds the bytes. -/
def putBits (data : BitVec 1024) (i : Nat) (b : Byte) : BitVec 1024 :=
  (data &&& ~~~(BitVec.ofNat 1024 (255 * 2 ^ (8 * i)))) ||| BitVec.ofNat 1024 (b.toNat * 2 ^ (8 * i))

def putMark (marks : BitVec 128) (i : Nat) (b : Bool) : BitVec 128 :=
  if b then marks ||| BitVec.ofNat 128 (2 ^ i) else marks &&& ~~~(BitVec.ofNat 128 (2 ^ i))

/-- A write of a context or of one of its engine commands to host memory is on its way until a FENCE.system (R204). It joins the one before
it where that is the context's own to the same line. -/
def State.hostStore (s : State) (owner : Nat) (p : Place) (b : Byte) (poison : Bool) : State :=
  let i := p.key % 128
  let put (wb : WriteBack) : WriteBack :=
    { wb with data := putBits wb.data i b, mask := putMark wb.mask i true, poi := putMark wb.poi i poison }
  let fresh : WriteBack := { line := p.pa / 128, key := lineOf p.key, data := 0, poi := 0, mask := 0, owner := some owner, src := none,
                             serves := [], fenced := [] }
  match s.writeBacks.getLast? with
  | none => { s with writeBacks := [put fresh] }
  | some wb =>
    if wb.key = lineOf p.key ∧ wb.owner = some owner ∧ wb.src = none then { s with writeBacks := s.writeBacks.dropLast ++ [put wb] }
    else { s with writeBacks := s.writeBacks ++ [put fresh] }

/-! ### Software-managed lines (R187, R188) -/

def State.swLine (s : State) (k : CacheId) (line : Nat) : Option SwLine := s.swLines.find? (fun l => l.cache == k && l.line == line)

def State.putSw (s : State) (l : SwLine) : State :=
  { s with swLines := l :: s.swLines.filter (fun x => !(x.cache == l.cache && x.line == l.line)) }

/-- The 128 bytes of a line at the home, as a number, and their poison marks. -/
def State.homeLine (s : State) (key : Nat) : BitVec 1024 × BitVec 128 :=
  (BitVec.ofNat 1024 (ofLeBytes (s.homeBytes key 128)),
   BitVec.ofNat 128 (((List.range 128).map (fun i => if (s.homeByte (key + i)).2 then 2 ^ i else 0)).sum))

/-- 1 in every bit of the bytes that a mask names. -/
def byteMask (n : Nat) (m : Nat) : Nat := ((List.range n).map (fun i => if m / 2 ^ i % 2 = 1 then 255 * 2 ^ (8 * i) else 0)).sum

/-- A line's bytes in a cache, with those of a mask replaced. -/
def SwLine.overlay (l : SwLine) (mask : BitVec 128) (data : BitVec 1024) (poi : BitVec 128) : SwLine :=
  let m := BitVec.ofNat 1024 (byteMask 128 mask.toNat)
  { l with data := (l.data &&& ~~~m) ||| (data &&& m), poi := (l.poi &&& ~~~mask) ||| (poi &&& mask) }

/-- The arrays whose contexts find a line in an L1 under the mapping as it stands (R175). -/
def State.servedBy (s : State) (k : CacheId) (pa : Nat) : List Nat :=
  match k with
  | .l1 a => (s.fusedSets.flatMap (fun f => if f.arrays.contains a then f.arrays else [])).filter (fun b => s.l1Of b pa == k) ++
      (if s.fusedSets.any (fun f => f.arrays.contains a) then [] else [a])
  | .die _ => []
  | .l2 _ _ => []

/-- A line is made valid in a cache: clean bytes come from the home and dirty ones stay (R187). Write-backs that must merge first do: those
of a cache on one path with it, or that served an array it serves, so that no context loses its own stores (log entry 17), and those that
its die has been shown. -/
def State.fillSw (s : State) (k : CacheId) (p : Place) : State :=
  let key := lineOf p.key
  let arrays := s.servedBy k p.pa
  let s := s.mergeWhere (fun wb => wb.key == key && (wb.src.any (CacheId.onePath s.variant p.pa k) || wb.serves.any arrays.contains ||
    k.computeDie.any wb.fenced.contains))
  let (d, q) := s.homeLine key
  match s.swLine k (p.pa / 128) with
  | some l => s.putSw { l.overlay (~~~l.dirty) d q with stale := false }
  | none => s.putSw { cache := k, line := p.pa / 128, key := key, data := d, poi := q, dirty := 0, stale := false, serves := arrays }

/-- Dirty bytes of a cached line go home (R187, R188). A copy in a cache below, through which they pass, takes them (R174). -/
def State.sendDirty (s : State) (owner : Option Nat) (l : SwLine) : State :=
  if l.dirty = 0 then s
  else
    let way := l.cache.wayDown s.variant (128 * l.line)
    { s with
      writeBacks := s.writeBacks ++ [{ line := l.line, key := l.key, data := l.data, poi := l.poi, mask := l.dirty, owner := owner,
                                       src := some l.cache, serves := l.serves, fenced := [] }],
      swLines := s.swLines.map (fun x => if x.line = l.line ∧ way.contains x.cache = true then
        { x.overlay l.dirty l.data l.poi with dirty := x.dirty &&& ~~~l.dirty } else x) }

/-- The cache that serves a context's access to a line: the first on its path that holds it, else its L1. -/
def State.swServes (s : State) (c : Context) (p : Place) : CacheId :=
  ((s.pathOf c p.pa).find? (fun k => (s.swLine k (p.pa / 128)).isSome)).getD (s.l1Of c.arrayOr0 p.pa)

/-- The state of R187 before a load or a store of one byte: an absent line is filled, and so is a stale one of which a load needs a
byte that is not dirty. -/
def State.swReady (s : State) (c : Context) (p : Place) (write : Bool) : State :=
  let k := s.swServes c p
  match s.swLine k (p.pa / 128) with
  | none => s.fillSw k p
  | some l => if l.stale && !write && !l.dirty.getLsbD (p.key % 128) then s.fillSw k p else s

def State.swGet (s : State) (k : CacheId) (p : Place) : Byte × Bool :=
  match s.swLine k (p.pa / 128) with
  | none => s.homeByte p.key
  | some l => (BitVec.ofNat 8 (l.data.toNat / 2 ^ (8 * (p.key % 128))), l.poi.getLsbD (p.key % 128))

def State.swPut (s : State) (k : CacheId) (p : Place) (b : Byte) (poison : Bool) : State :=
  match s.swLine k (p.pa / 128) with
  | none => s
  | some l =>
    let i := p.key % 128
    s.putSw { l with data := putBits l.data i b, dirty := putMark l.dirty i true, poi := putMark l.poi i poison }

/-! ### Writes of the host (R203, R204) -/

/-- What the device has on its way to a line of host memory is performed (R204, R228). -/
def State.flushHost (s : State) (key : Nat) : State := s.mergeWhere (fun wb => wb.key == lineOf key && decide (2 ^ 40 ≤ key))

/-- One byte that the host writes, with the tokens of the host port (R204). A line of host memory comes back from the device first. -/
def State.hostPut (s : State) (p : Place) (b : Byte) : State :=
  match p.cls with
  | .host => (s.flushHost p.key).putByte p.key b false
  | .software => (s.homeWrite p).putByte p.key b false
  | .plain => (s.acquire hostAgent p true).putByte p.key b false
  | .packed => (s.acquire hostAgent p true).putByte p.key b false
  | .pinned => (s.acquire hostAgent p true).putByte p.key b false

def State.hostPuts (s : State) (pa : Nat) : List Byte → State
  | [] => s
  | b :: r =>
    (match s.place pa with
     | none => s
     | some p => s.hostPut p b).hostPuts (pa + 1) r

/-- Posted write `n` is performed, and with it those that an order has made earlier and that nothing awaits any more leave the list. -/
def State.performPosted (s : State) (n : Nat) : State :=
  match s.posted[n]? with
  | none => s
  | some e =>
    if e.performed then s
    else
      let s := s.hostPuts e.pa e.bytes
      { s with posted := (s.posted.set n { e with performed := true }).dropWhile (·.performed) }

/-- The host's writes up to number `n` are performed, in the order in which it made them. -/
def State.performUpTo (s : State) (n : Nat) : State :=
  { (s.posted.take n).foldl (fun s e => if e.performed then s else s.hostPuts e.pa e.bytes) s with
    posted := (s.posted.drop n).dropWhile (·.performed) }

/-- The memory keys that places have. -/
def memKeys : List Loc → List Nat
  | [] => []
  | .mem p :: r => p.key :: memKeys r
  | .backing p _ :: r => p.key :: memKeys r
  | .scratch _ _ :: r => memKeys r
  | .lost _ _ :: r => memKeys r

/-- Whether reads of some bytes take in every byte of a host write, each with the value it wrote (R203). -/
def Posted.readWhole (s : State) (keys : List Nat) (e : Posted) : Bool :=
  e.performed && (e.bytes.zipIdx.all (fun x => match s.place (e.pa + x.2) with
    | none => false
    | some p => keys.contains p.key && memGet s.mem p.key == x.1))

/-- A read that synchronises with a write of the host makes every write that the host ordered before it visible (R203). -/
def State.synchronise (s : State) (ls : List Loc) : State :=
  if s.posted = [] then s
  else
    let keys := memKeys ls
    let n := ((List.range s.posted.length).filter (fun i => (s.posted[i]?).any (Posted.readWhole s keys))).foldl max 0
    if n = 0 then s else s.performUpTo n

/-! ### Accesses of a sequencer -/

/-- The home of a partition's backing byte makes ready for an access: its tokens are gathered in the die cache through which it is
reached, or at the home (R177, R181). -/
def State.backingReady (s : State) (p : Place) (die : Option Nat) (write : Bool) : State :=
  match die with
  | some d => if p.cls.coherent then s.acquire (agentOfCache (.die d)) p write else if write then s.homeWrite p else s
  | none => if write then s.homeWrite p else s.gatherHome p

/-- The device has met a page of a pipeline's own ranges that it cannot reach (R304). -/
def State.deviceMiss (s : State) (lnum va : Nat) : State := { s with devFaults := s.devFaults ++ [(lnum, va)] }

/-- What a sequencer's access does to the caches before it reads or writes a byte: tokens are gathered, or a software-managed line
is filled, or a flag is cleared. -/
def State.prepare (s : State) (c : Context) (write : Bool) : Loc → State
  | .scratch _ _ => s
  | .lost lnum va => s.deviceMiss lnum va
  | .backing p die => s.backingReady p die write
  | .mem p =>
    match p.cls with
    | .software => s.swReady c p write
    | .host => s
    | .plain => s.acquire (agentOfCache (s.l1Of c.arrayOr0 p.pa)) p write
    | .packed => s.acquire (agentOfCache (s.l1Of c.arrayOr0 p.pa)) p write
    | .pinned => s.acquire (agentOfCache (s.l1Of c.arrayOr0 p.pa)) p write

/-- Whether a byte lies in the coherent line that the byte before it has made ready. -/
def Loc.sameLine : Loc → Loc → Bool
  | .mem p, .mem q => p.cls.coherent && q.cls.coherent && p.pa / 128 == q.pa / 128
  | .backing p d, .backing q e => d.isSome && d == e && p.cls.coherent && q.cls.coherent && p.pa / 128 == q.pa / 128
  | _, _ => false

/-- Each line of an access makes ready once. -/
def State.prepareFrom (s : State) (c : Context) (write : Bool) : Option Loc → List Loc → State
  | _, [] => s
  | last, l :: r => (if last.any l.sameLine then s else s.prepare c write l).prepareFrom c write (some l) r

def State.prepareAll (s : State) (c : Context) (write : Bool) (ls : List Loc) : State := s.prepareFrom c write none ls

/-- An atomic gathers all tokens of its line before it reads (R357). -/
def State.prepareAtomic (s : State) (c : Context) (ls : List Loc) : State :=
  match ls.head? with
  | some (.mem p) => s.gatherFor (agentOfCache (s.l1Of c.arrayOr0 p.pa)) p true
  | some (.backing p die) =>
    match die with
    | some d => s.gatherFor (agentOfCache (.die d)) p true
    | none => s.gatherHome p
  | some (.scratch _ _) => s
  | some (.lost _ _) => s
  | none => s

/-- One byte as a sequencer's load sees it. What a lost byte reads as is not stated (log entry 7). -/
def State.loadByte (s : State) (c : Context) : Loc → Byte × Bool
  | .scratch rank off => s.scratchGet (c.who s.variant) rank off
  | .backing p _ => s.homeByte p.key
  | .lost _ va => (Config.freeByte s.free va, false)
  | .mem p => if p.cls = .software then s.swGet (s.swServes c p) p else s.seenByte (some c.die) p.key

/-- One byte stored by a sequencer. -/
def State.storeByte (s : State) (c : Context) (b : Byte) : Loc → State
  | .scratch rank off => s.scratchPut (c.who s.variant) rank off b false
  | .backing p _ => (s.putByte p.key b false).regrow p
  | .lost _ _ => s
  | .mem p =>
    match p.cls with
    | .software => s.swPut (s.swServes c p) p b false
    | .host => s.hostStore c.ctxid.toNat p b false
    | .plain => s.putByte p.key b false
    | .packed => s.putByte p.key b false
    | .pinned => s.putByte p.key b false

def State.storeBytes (s : State) (c : Context) : List Loc → List Byte → State
  | l :: ls, b :: bs => (s.storeByte c b l).storeBytes c ls bs
  | _, _ => s

/-! ### Accesses of engines and of the device, which act at the home (R188, R200) -/

def State.engineByte (s : State) (w : Who) : Loc → Byte × Bool
  | .scratch rank off => s.scratchGet w rank off
  | .backing p _ => s.homeByte p.key
  | .lost _ va => (Config.freeByte s.free va, false)
  | .mem p => s.seenByte w.die p.key

/-- What an engine's read of a byte does to the caches: a copy of a coherent line comes into the slice of the reader's memory die that
serves the address, as a requester-side copy where the home is another die (R183, R357). -/
def State.engineReady (s : State) (w : Who) : Loc → State
  | .scratch _ _ => s
  | .lost lnum va => s.deviceMiss lnum va
  | .backing p die => s.backingReady p die false
  | .mem p =>
    match w.die with
    | some _ => s.acquire (agentOfCache (.l2 w.md (homeSlice p.pa))) p false
    | none => s.gatherHome p

/-- What a read of `n` bytes by an engine leaves behind besides its bytes: copies in the caches, what its translation reads (R216, R357),
whether that succeeds or not, and the order of R203. -/
def State.engineTouch (s : State) (w : Who) (va n : Nat) : State :=
  match s.locateN w va .load n with
  | .error _ => s.fillPages w va n
  | .ok ls => ((ls.foldl (fun s l => s.engineReady w l) s).fillPages w va n).synchronise ls

/-- A byte written at the home. -/
def State.enginePut (s : State) (w : Who) (b : Byte) (poison : Bool) : Loc → State
  | .scratch rank off => s.scratchPut w rank off b poison
  | .lost lnum va => s.deviceMiss lnum va
  | .backing p die => ((s.backingReady p die true).putByte p.key b poison).regrow p
  | .mem p =>
    match p.cls, w.ctxid with
    | .host, some o => s.hostStore o p b poison
    | _, _ => (((s.mergeSeen w.die p.key).homeWrite p).putByte p.key b poison).regrow p

/-- Bytes that an engine reads, each with its poison mark, or the fault and its address. -/
def State.engineRead (s : State) (w : Who) (va n : Nat) : Except (XFault × Nat) (List (Byte × Bool)) :=
  match s.locateN w va .load n with
  | .error e => .error e
  | .ok ls => .ok (ls.map (s.engineByte w))

/-- Bytes that an engine writes, each with its poison mark, all of them or none. -/
def State.engineWrite (s : State) (w : Who) (va : Nat) (bs : List (Byte × Bool)) : Except (XFault × Nat) State :=
  match s.locateN w va .store bs.length with
  | .error e => .error e
  | .ok ls => .ok (((ls.zip bs).foldl (fun s (l, b, p) => s.enginePut w b p l) s).fillPages w va bs.length)

/-- A number that an engine reads, least significant byte first. -/
def numOf (bs : List (Byte × Bool)) : Nat := ofLeBytes (bs.map Prod.fst)

def anyPoison (bs : List (Byte × Bool)) : Bool := bs.any Prod.snd

end Sys2Proof.Machine
end

