-- ==== Sys2Proof/Machine/Cells.lean ====
section
/-! DEFINITION. Reading and writing the registers and the store of one cell (R88, R89, R133, R147). A register is read as a
number with a poison mark for each byte (each bit of a mask register). -/

namespace Sys2Proof.Machine

/-- A value read from a cell register: its bits and its poison marks, as numbers. -/
structure Bits where
  val : Nat
  poi : Nat
  deriving DecidableEq, Repr

/-- The side part as 512 bits (R147): PSN, RES, META from the high end. -/
def Chunk.side (c : Chunk) : Nat := c.psn.toNat * 2 ^ 448 + c.res.toNat * 2 ^ 384 + c.info.toNat

/-- The 128 bytes of a communication register: data part, then side part. -/
def Chunk.toNat (c : Chunk) : Nat := c.data.toNat + c.side * 2 ^ 512

def Chunk.ofParts (data side : Nat) (bad : BitVec 48) : Chunk :=
  { data := BitVec.ofNat 512 data, psn := BitVec.ofNat 64 (side / 2 ^ 448), res := BitVec.ofNat 64 (side / 2 ^ 384),
    info := BitVec.ofNat 384 side, bad := bad }

/-- A register's bits and marks; the marks of a communication register are those of its META bytes. -/
def CellState.get (c : CellState) : CellReg → Bits
  | .v n => ⟨c.v[n].bits.toNat, c.v[n].poi.toNat⟩
  | .m n => ⟨c.m[n].bits.toNat, c.m[n].poi.toNat⟩
  | .g n => ⟨c.g[n].bits.toNat, c.g[n].poi.toNat⟩
  | .f => ⟨c.f.toNat, c.fPoi.toNat⟩
  | .xh => ⟨c.xh.toNat, c.xh.bad.toNat⟩
  | .xv => ⟨c.xv.toNat, c.xv.bad.toNat⟩

def CellState.set (c : CellState) (r : CellReg) (val poi : Nat) : CellState :=
  match r with
  | .v n => { c with v := c.v.set n { bits := BitVec.ofNat _ val, poi := BitVec.ofNat _ poi } }
  | .m n => { c with m := c.m.set n { bits := BitVec.ofNat _ val, poi := BitVec.ofNat _ poi } }
  | .g n => { c with g := c.g.set n { bits := BitVec.ofNat _ val, poi := BitVec.ofNat _ poi } }
  | .f => { c with f := val % 2 == 1, fPoi := poi % 2 == 1 }
  | .xh => { c with xh := Chunk.ofParts val (val / 2 ^ 512) (BitVec.ofNat 48 poi) }
  | .xv => { c with xv := Chunk.ofParts val (val / 2 ^ 512) (BitVec.ofNat 48 poi) }

/-- The 64-byte unit of a partition; an unlisted one is zero. -/
def storeGet : List (Nat × Unit64) → Nat → Unit64
  | [], _ => { bits := 0, poi := 0 }
  | (k, u) :: r, a => if k = a then u else storeGet r a

def storePut : List (Nat × Unit64) → Nat → Unit64 → List (Nat × Unit64)
  | [], a, v => if v = { bits := 0, poi := 0 } then [] else [(a, v)]
  | (k, w) :: r, a, v =>
    if a < k then (if v = { bits := 0, poi := 0 } then (k, w) :: r else (a, v) :: (k, w) :: r)
    else if a = k then (if v = { bits := 0, poi := 0 } then r else (a, v) :: r)
    else (k, w) :: storePut r a v

/-- Units `u` to `u + n - 1` of a partition as one number. -/
def CellState.storeRead (c : CellState) (u : Nat) : Nat → Bits
  | 0 => ⟨0, 0⟩
  | n + 1 =>
    let x := storeGet c.store u
    let r := c.storeRead (u + 1) n
    ⟨x.bits.toNat + r.val * 2 ^ 512, x.poi.toNat + r.poi * 2 ^ 64⟩

def CellState.storeWrite (c : CellState) (u val poi : Nat) : Nat → CellState
  | 0 => c
  | n + 1 =>
    { c with store := storePut c.store u { bits := BitVec.ofNat 512 val, poi := BitVec.ofNat 64 poi } }.storeWrite
      (u + 1) (val / 2 ^ 512) (poi / 2 ^ 64) n

/-- A cell of a context's array or chain; cell 16 r + k. -/
def Context.cell (c : Context) (i : Nat) : CellState := c.cells.getD i CellState.zero

def Context.setCell (c : Context) (i : Nat) (f : CellState → CellState) : Context := { c with cells := c.cells.modify i f }

/-- `old` with its bits [lo + len − 1 : lo] replaced by those of `new`. -/
def splice (old lo len new : Nat) : Nat := old % 2 ^ lo + new / 2 ^ lo % 2 ^ len * 2 ^ lo + old / 2 ^ (lo + len) * 2 ^ (lo + len)

/-- The META bytes of a communication register, at its bits 512 to 895, that a span of bits touches: the first and how many. -/
def metaMarks (lo len : Nat) : Nat × Nat := (min 48 ((lo - 512) / 8), min 48 ((lo + len - 505) / 8) - min 48 ((lo - 512) / 8))

/-- The poison marks that stand for a span of bits: bytes of a vector or tile register, bits of a mask, META bytes of a communication
register. -/
def CellReg.marks : CellReg → Nat → Nat → Nat × Nat
  | .v _, lo, len => (lo / 8, (lo + len + 7) / 8 - lo / 8)
  | .m _, lo, len => (lo / 8, (lo + len + 7) / 8 - lo / 8)
  | .g _, lo, len => (lo, len)
  | .f, _, _ => (0, 1)
  | .xh, lo, len => metaMarks lo len
  | .xv, lo, len => metaMarks lo len

/-- A register's contents after a write. -/
def CellWrite.onto (w : CellWrite) (old : Bits) : Bits :=
  let span := w.reg.marks w.lo w.len
  ⟨splice old.val w.lo w.len w.val, splice old.poi span.1 span.2 w.poi⟩

def CellState.write (c : CellState) (w : CellWrite) : CellState :=
  let n := w.onto (c.get w.reg)
  c.set w.reg n.val n.poi

/-- The number of bits of a register. -/
def CellReg.width : CellReg → Nat
  | .v _ => 4096
  | .m _ => 16384
  | .g _ => 1024
  | .f => 1
  | .xh => 1024
  | .xv => 1024

/-- Whether a write replaces the whole of a struck 8-byte word, and so ends the error (R320). -/
def CellWrite.mends (w : CellWrite) (e : CellErr) : Bool :=
  e.cell == w.cell && e.reg == some w.reg && decide (w.lo ≤ 64 * e.word) && decide (min (64 * e.word + 64) w.reg.width ≤ w.lo + w.len)

def Context.applyWrite (c : Context) (w : CellWrite) : Context :=
  { c.setCell w.cell (fun x => x.write w) with cellErrs := c.cellErrs.filter (fun e => !w.mends e) }

/-- A cell in which 8-byte word `w` of a register carries poison marks (R320): of a communication register, words 0 to 7 are its data part,
whose marks are PSN bits, and words 8 to 13 its META bits. -/
def CellState.strikeReg (c : CellState) (r : CellReg) (w : Nat) : CellState :=
  let byte8 := BitVec.ofNat 2048 (255 * 2 ^ (8 * w))
  let chunk (x : Chunk) : Chunk :=
    if w < 8 then { x with psn := x.psn ||| byte8.setWidth 64 } else { x with bad := x.bad ||| BitVec.ofNat 48 (255 * 2 ^ (8 * (w - 8))) }
  match r with
  | .v n => { c with v := c.v.set n { c.v[n] with poi := c.v[n].poi ||| byte8.setWidth 512 } }
  | .m n => { c with m := c.m.set n { c.m[n] with poi := c.m[n].poi ||| byte8 } }
  | .g n => { c with g := c.g.set n { c.g[n] with poi := c.g[n].poi ||| BitVec.ofNat 1024 ((2 ^ 64 - 1) * 2 ^ (64 * w)) } }
  | .f => { c with fPoi := true }
  | .xh => { c with xh := chunk c.xh }
  | .xv => { c with xv := chunk c.xv }

/-- A cell in whose partition 8-byte word `w` of the store carries poison marks (R320). -/
def CellState.strikeStore (c : CellState) (w : Nat) : CellState :=
  let u := storeGet c.store (w / 8)
  { c with store := storePut c.store (w / 8) { u with poi := u.poi ||| BitVec.ofNat 64 (255 * 2 ^ (8 * (w % 8))) } }

/-- Every poison mark of a register set, for the bits [lo + len − 1 : lo]. A communication register's are its PSN bits and the
marks of its META bytes. -/
def CellState.poisoned (c : CellState) (cell : Nat) (r : CellReg) (lo len : Nat) : CellWrite :=
  let val := match r with
    | .v _ => (c.get r).val
    | .m _ => (c.get r).val
    | .g _ => (c.get r).val
    | .f => (c.get r).val
    | .xh => { c.xh with psn := BitVec.allOnes 64 }.toNat
    | .xv => { c.xv with psn := BitVec.allOnes 64 }.toNat
  { cell := cell, reg := r, lo := lo, len := len, val := val, poi := 2 ^ (r.marks 0 (lo + len)).2 - 1 }

end Sys2Proof.Machine
end

