-- ==== Sys2Proof/Machine/Operands.lean ====
section
/-! DEFINITION. Scalar operands: the registers s0 to s47, the streams q0 to q14 and the drip tray q15 (R7, R8, R50, R130, R131,
R242 to R245). Registers are read as they stood before the issue (`State.src`, R9); a stream's elements are taken in turn. -/

namespace Sys2Proof.Machine

/-- What a check answers before an instruction acts: go on, be held at issue, or take a trap with a cause and TINFO. -/
inductive Verdict where
  | go
  | hold
  | trap (cause : Nat) (info : Word)
  deriving DecidableEq, Repr

/-- The first verdict that is no `go`. -/
def Verdict.andThen (v w : Verdict) : Verdict :=
  match v with
  | .go => w
  | .hold => .hold
  | .trap c i => .trap c i

def Verdict.all : List Verdict → Verdict
  | [] => .go
  | v :: r => v.andThen (Verdict.all r)

def trapIf (b : Prop) [Decidable b] (cause : Nat) (info : Word) : Verdict := if b then .trap cause info else .go
def holdIf (b : Prop) [Decidable b] : Verdict := if b then .hold else .go

/-- Cause 0x0A, with its reason and stream number (R319). -/
def streamTrap (reason q : Nat) : Verdict := .trap 0x0A (BitVec.ofNat 64 (reason * 2 ^ 60 + q * 2 ^ 56))

/-! ### Registers -/

/-- s0 reads zero (R6). -/
def Context.reg (c : Context) (n : Fin 48) : Word := if n.val = 0 then 0 else c.regs[n]

/-- Writes to s0 are discarded (R6). -/
def Context.setReg (c : Context) (n : Fin 48) (w : Word) : Context := if n.val = 0 then c else { c with regs := c.regs.set n w }

def State.setCtx (s : State) (c : Context) : State := { s with ctx := c }

/-- The newest result outstanding for a register. -/
def Context.owedReg (c : Context) (n : Fin 48) : Option Pending := c.pend.reverse.find? (fun p => p.dest == .reg n)

/-- A register as it stood before the issue. Before the bound of a result that is still to land, a read returns either value
(R19, log entry 3). -/
def State.readReg (s : State) (n : Fin 48) : Word :=
  match s.src.owedReg n with
  | none => s.src.reg n
  | some p => if n.val != 0 && p.poison.isNone && Config.raceNew (s.free * 64 + n.val) then p.value else s.src.reg n

/-! ### Streams (R242 to R245) -/

/-- Elements of the pattern. -/
def Stream.total (q : Stream) : Nat := (q.cnt.toList.map BitVec.toNat).foldl (· * ·) 1

/-- Elements that a read stream delivers (R243). -/
def Stream.deliver (q : Stream) : Nat := if q.delta then q.total - 1 else q.total

def Stream.width (q : Stream) : Nat := 2 ^ q.size.toNat

/-- The address of pattern element `k` (R242), modulo 2^64. -/
def Stream.addr (q : Stream) (k : Nat) : Nat :=
  let c (i : Nat) : Nat := (q.cnt.toList.getD i 0).toNat
  let st (i : Nat) : Nat := (q.str.toList.getD i 0).toNat
  (q.base.toNat + k % c 0 * st 0 + k / c 0 % c 1 * st 1 + k / (c 0 * c 1) % c 2 * st 2 + k / (c 0 * c 1 * c 2) * st 3) % 2 ^ 64

/-- One buffered pattern element, or why it cannot be taken. `bundle` is the reading bundle's address (R319). -/
def elemAt (q : Nat) (bundle : Nat) : Option StreamElem → Except Verdict Word
  | none => .error .hold
  | some (.value w) => .ok w
  | some (.poisoned _ _) => .error (.trap 0x0C (BitVec.ofNat 64 (2 * 2 ^ 60 + bundle % 2 ^ 56)))
  | some (.fault cause a) => .error (.trap cause (BitVec.ofNat 64 (q * 2 ^ 56 + a % 2 ^ 56)))
  | some (.owed _) => .error .hold

/-- The element that a read of stream `n` takes after `k` others: its value, or the hold or trap of R7 and R243. A poisoned
element makes the read trap before its bundle acts (log entry 18). -/
def Context.peekStream (c : Context) (n k : Nat) : Except Verdict Word :=
  let q := c.streams.toList.getD n Stream.free
  if q.bind = .unbound then .error (streamTrap 0 n)
  else if q.bind = .binding then .error .hold
  else if q.write then .error (streamTrap 1 n)
  else if q.deliver ≤ q.taken + k then .error (streamTrap 2 n)
  else
    match elemAt n c.pc q.buf[k]? with
    | .error v => .error v
    | .ok x =>
      if q.delta then
        match elemAt n c.pc q.buf[k + 1]? with
        | .error v => .error v
        | .ok y => if y.toNat < x.toNat then .error (streamTrap 3 n) else .ok (y - x)
      else .ok x

/-- Takes one element off a read stream (R7). -/
def Context.popStream (c : Context) (n : Fin 16) : Context :=
  let q := c.streams[n]
  { c with streams := c.streams.set n { q with taken := q.taken + 1, buf := q.buf.drop 1 } }

/-- The trap that a store's fault takes on its stream's behalf (R244): 256 above its cause, which marks it so until it is taken. -/
def storeTrap (n : Nat) (f : Nat × Nat) : Verdict := .trap (f.1 + 256) (BitVec.ofNat 64 (n * 2 ^ 56 + f.2 % 2 ^ 56))

/-- The check of the `j`-th further write to stream `n` (R7, R244). -/
def Context.checkWrite (c : Context) (n j : Nat) : Verdict :=
  let q := c.streams.toList.getD n Stream.free
  if n = 15 then streamTrap 4 15
  else if q.bind = .unbound then streamTrap 0 n
  else if q.bind = .binding then .hold
  else if !q.write then streamTrap 1 n
  else
    match q.stuck with
    | some f => storeTrap n f
    | none => if q.total ≤ q.taken + j then streamTrap 5 n else holdIf (256 ≤ q.buf.length + j)

/-- Appends an element to a write stream (R50). -/
def Context.pushStream (c : Context) (n : Fin 16) (e : StreamElem) : Context :=
  let q := c.streams[n]
  { c with streams := c.streams.set n { q with taken := q.taken + 1, buf := q.buf ++ [e] } }

def fillOwed (tag : Nat) (w : Word) : List StreamElem → List StreamElem
  | [] => []
  | .owed t :: r => if t = tag then .value w :: r else .owed t :: fillOwed tag w r
  | e :: r => e :: fillOwed tag w r

/-- The element that an outstanding result owed to a write stream arrives. -/
def Context.fillStream (c : Context) (n : Fin 16) (tag : Nat) (w : Word) : Context :=
  let q := c.streams[n]
  { c with streams := c.streams.set n { q with buf := fillOwed tag w q.buf } }

/-- A result that consumed poison appends nothing (R322). -/
def Context.dropOwed (c : Context) (n : Fin 16) (tag : Nat) : Context :=
  let q := c.streams[n]
  { c with streams := c.streams.set n { q with taken := q.taken - 1, buf := q.buf.filter (· != .owed tag) } }

/-! ### The drip tray (R130, R131) -/

def DripRec.low (r : DripRec) : Word :=
  BitVec.ofNat 64 (r.slot.toNat * 2 ^ 56 + r.addr.toNat)

def DripRec.high (r : DripRec) : Word :=
  BitVec.ofNat 64 (r.count.toNat * 2 ^ 32 + r.event.toNat * 2 ^ 16 + r.col.toNat * 2 ^ 8 + r.row.toNat)

/-- One read of q15: the element and the tray after it. -/
def Context.dripRead (c : Context) : Word × Context :=
  match c.dripHalf, c.drip with
  | .record, r :: t => (r.high, { c with drip := t, dripHalf := .none })
  | .record, [] => (0, { c with dripHalf := .none })
  | .null, _ => (0, { c with dripHalf := .none })
  | .none, r :: _ => (r.low, { c with dripHalf := .record })
  | .none, [] => (0, { c with dripHalf := .null })

/-- The context after `k` reads of q15. -/
def Context.dripSkip (c : Context) : Nat → Context
  | 0 => c
  | k + 1 => (c.dripRead.2).dripSkip k

/-! ### Reading and writing operands -/

/-- The streams that the slots before this one read in the bundle, and those they write, each once for every element. -/
structure Claims where
  reads : List Nat
  writes : List Nat
  deriving DecidableEq, Repr

def Claims.none : Claims := ⟨[], []⟩

/-- The value that an operand field delivers after the claims of earlier fields, or the hold or trap that reading it gives. -/
def State.peek (s : State) (cl : Claims) : Opnd → Except Verdict Word
  | .s n => .ok (s.readReg n)
  | .q n =>
    if n.val = 15 then .ok ((s.ctx.dripSkip (cl.reads.count 15)).dripRead.1)
    else s.ctx.peekStream n.val (cl.reads.count n.val)

def Claims.read (cl : Claims) : Opnd → Claims
  | .s _ => cl
  | .q n => { cl with reads := n.val :: cl.reads }

def Claims.write (cl : Claims) : Opnd → Claims
  | .s _ => cl
  | .q n => { cl with writes := n.val :: cl.writes }

/-- The check of a destination field (R7, R244). -/
def State.checkDest (s : State) (cl : Claims) : Opnd → Verdict
  | .s _ => .go
  | .q n => s.ctx.checkWrite n.val (cl.writes.count n.val)

/-- The checks of source fields, taken in the order given, and the values they deliver. -/
def State.peekAll (s : State) (cl : Claims) : List Opnd → Except Verdict (List Word)
  | [] => .ok []
  | o :: r =>
    match s.peek cl o with
    | .error v => .error v
    | .ok w =>
      match s.peekAll (cl.read o) r with
      | .error v => .error v
      | .ok ws => .ok (w :: ws)

def State.checkDests (s : State) (cl : Claims) : List Opnd → Verdict
  | [] => .go
  | o :: r => (s.checkDest cl o).andThen (s.checkDests (cl.write o) r)

/-- Takes an operand's value: a stream or the drip tray moves on. -/
def State.take (s : State) : Opnd → Word × State
  | .s n => (s.readReg n, s)
  | .q n =>
    if n.val = 15 then (s.ctx.dripRead.1, s.setCtx s.ctx.dripRead.2)
    else
      match s.ctx.peekStream n.val 0 with
      | .ok w => (w, s.setCtx (s.ctx.popStream n))
      | .error _ => (0, s)

/-- Writes a result of fixed latency to a destination field (R49, R50). -/
def State.put (s : State) (d : Opnd) (w : Word) : State :=
  match d with
  | .s n => s.setCtx (s.ctx.setReg n w)
  | .q n => s.setCtx (s.ctx.pushStream n (.value w))

/-- `n` further elements of one operand field. -/
def State.takeN (s : State) (o : Opnd) : Nat → List Word × State
  | 0 => ([], s)
  | n + 1 =>
    let (w, s1) := s.take o
    let (ws, s2) := s1.takeN o n
    (w :: ws, s2)

end Sys2Proof.Machine
end

