-- ==== Sys2Proof/Machine/Flags.lean ====
section
/-! DEFINITION. The condition queue, which holds every flag of the sequencer (R15), and the conditions of CMP (R31, R58). -/

namespace Sys2Proof.Machine

/-- Whether A cc B holds; codes 10 to 15 are reserved. -/
def condHolds (cc : BitVec 4) (a b : Word) : Bool :=
  match cc.toNat with
  | 0 => a == b
  | 1 => a != b
  | 2 => a.slt b
  | 3 => a.sle b
  | 4 => b.slt a
  | 5 => b.sle a
  | 6 => a.ult b
  | 7 => a.ule b
  | 8 => b.ult a
  | 9 => b.ule a
  | _ => false

/-- A producer reserves the tail entry; `val` is its bit where it fills at the end of its issue cycle (R15). -/
def Context.cqReserve (c : Context) (val : Option Bool) : Context :=
  { c with cq := c.cq ++ [{ tag := c.tag, val := val, poi := false }], tag := c.tag + 1 }

/-- The entry that a producer reserved is filled. -/
def Context.cqFill (c : Context) (tag : Nat) (b poison : Bool) : Context :=
  { c with cq := c.cq.map (fun e => if e.tag == tag && e.val.isNone then { e with val := some b, poi := poison } else e) }

/-- Pops `n` head entries (R15). -/
def Context.cqPop (c : Context) (n : Nat) : Context := { c with cq := c.cq.drop n }

/-- The bit of the head entry. -/
def Context.cqHead (c : Context) : Bool := (c.cq.head?.bind (·.val)).getD false

/-- Whether the first `n` entries are there and filled. -/
def Context.cqReady (c : Context) (n : Nat) : Bool := n ≤ c.cq.length && (c.cq.take n).all (·.val.isSome)

def Context.cqAllFilled (c : Context) : Bool := c.cq.all (·.val.isSome)

/-- The check of a consumer that takes `n` entries after `before` others (R15): cause 0x02 when the queue holds too few, else a
hold while one is unfilled. -/
def Context.checkPop (c : Context) (slot before n : Nat) : Verdict :=
  if c.cq.length < before + n then .trap 0x02 (BitVec.ofNat 64 slot)
  else holdIf (!(c.cqReady (before + n)) = true)

end Sys2Proof.Machine
end

