-- ==== Sys2Proof/Machine/Ops.lean ====
section
/-! DEFINITION. Shared operations of a context: results that land (R18), trap entry (R25, R313), the return from a trap (R336),
and the form of every meaning: a check, then an effect. -/

namespace Sys2Proof.Machine

/-! ### Results under bounds (R18 to R20) -/

/-- The report that consumed poison raises (R319, R322). -/
def poisonInfo (source addr : Nat) : Word := BitVec.ofNat 64 (source * 2 ^ 60 + addr % 2 ^ 56)

def Context.report (c : Context) (issue source addr : Nat) : Context :=
  { c with reports := c.reports ++ [{ issue := issue, info := poisonInfo source addr, held := false }] }

/-- A result lands: it writes its destination, or raises the report of the poison it consumed (R61, R322). -/
def Context.landOne (c : Context) (p : Pending) : Context :=
  match p.poison with
  | some source =>
    let c := c.report p.made source p.addr
    match p.dest with
    | .stream q tag => c.dropOwed q tag
    | .reg _ => c
    | .cells => c
    | .none => c
  | none =>
    match p.dest with
    | .reg n => c.setReg n p.value
    | .stream q tag => c.fillStream q tag p.value
    | .cells => p.writes.foldl Context.applyWrite c
    | .none => c

/-- Every outstanding result lands, oldest first. -/
def Context.landAll (c : Context) : Context := c.pend.foldl Context.landOne { c with pend := [] }

/-- Whether two results are accumulations into one register of one cell, which land in their order (R160). -/
def Pending.chained (p q : Pending) : Bool :=
  p.acc && q.acc && p.writes.any (fun w => q.writes.any (fun v => w.cell == v.cell && w.reg == v.reg))

/-- The results whose bound is at most `n`, and the rest. An accumulation stays with an earlier one into the same register that stays
(R160). -/
def splitDue (n : Nat) (kept : List Pending) : List Pending → List Pending × List Pending
  | [] => ([], kept)
  | p :: r =>
    if p.bound ≤ n && !kept.any (·.chained p) then
      let (d, k) := splitDue n kept r
      (p :: d, k)
    else splitDue n (kept ++ [p]) r

/-- The results that fall due at the next issue land (R18). -/
def Context.landDue (c : Context) : Context :=
  let (due, rest) := splitDue c.issues [] c.pend
  due.foldl Context.landOne { c with pend := rest }

/-- The issue that first may read a destination: the LAT value, or 1 when it is 0, after this issue (R18). -/
def Context.boundOf (c : Context) (lat : Nat) : Nat := c.issues + max lat 1

/-- Adds an outstanding result. -/
def Context.owe (c : Context) (p : Pending) : Context := { c with pend := c.pend ++ [p] }

/-- The destination of a result that lands later, with the stream element it owes (R50). -/
def Context.oweDest (c : Context) : Opnd → Context × Dest
  | .s n => (c, .reg n)
  | .q n => ({ c.pushStream n (.owed c.tag) with tag := c.tag + 1 }, .stream n c.tag)

/-! ### Flag aggregates (R98) -/

/-- A selector changes, also for the repeats of the bundle being issued, which a flag aggregate gates from its cycle on (R98). -/
def Context.gate (c : Context) (z : BitVec 2) (f : Selector → Selector) : Context :=
  { c with z := c.z.set z.toFin (f c.z[z.toFin]), cellRegs := c.cellRegs.map (fun r => { r with z := r.z.set z.toFin (f r.z[z.toFin]) }) }

/-- A flag aggregate arrives: it fills its queue entry, or replaces one mask of its selector (R98, R155). -/
def Context.arriveFagg (c : Context) (f : FaggFlight) : Context :=
  match f.target with
  | .queue tag =>
    let c := c.cqFill tag (f.value.getLsbD 0 && !f.poi) f.poi
    if f.poi then c.report f.made 3 f.addr else c
  | .rows z => if f.poi then c.report f.made 3 f.addr else c.gate z (fun x => { x with rows := f.value })
  | .cols z => if f.poi then c.report f.made 3 f.addr else c.gate z (fun x => { x with cols := f.value })

def Context.arriveAllFaggs (c : Context) : Context := c.faggs.foldl Context.arriveFagg { c with faggs := [] }

/-! ### The drip tray (R129) -/

/-- Whether a record coalesces with one in the tray. -/
def DripRec.same (a b : DripRec) : Bool := a.addr == b.addr && a.slot == b.slot && a.row == b.row && a.col == b.col && a.event == b.event

def dripMerge (r : DripRec) : List DripRec → Option (List DripRec)
  | [] => none
  | x :: t =>
    if x.same r then some ({ x with count := if x.count = 0xFFFFFFFF then x.count else x.count + 1 } :: t)
    else (dripMerge r t).map (x :: ·)

/-- One record is appended, coalesces, or is lost. -/
def Context.dripAppend (c : Context) (r : DripRec) : Context :=
  let lead := if c.dripHalf = .record then 1 else 0
  match dripMerge r (c.drip.drop lead) with
  | some t => { c with drip := c.drip.take lead ++ t }
  | none =>
    if 256 ≤ c.drip.length then
      { c with dtlost := if c.dtlost.toNat % 2 ^ 32 = 0xFFFFFFFF then c.dtlost else c.dtlost + 1 }
    else { c with drip := c.drip ++ [r] }

def Context.dripLand (c : Context) (f : DripFlight) : Context := f.recs.foldl Context.dripAppend c

def Context.dripLandAll (c : Context) : Context := c.dripFlights.foldl Context.dripLand { c with dripFlights := [] }

/-! ### Traps (R25, R313 to R319) -/

def Level.code : Level → Nat
  | .user => 0
  | .supervisor => 1
  | .firmware => 3

/-- The chain's added latency C (R99, R352). -/
def Context.chainC (c : Context) : Nat := c.chainlat.toNat % 256

def Context.inh (c : Context) : Bool := c.tcause.getLsbD 10

/-- TINFO of a deferred fault (R319). -/
def DeferredFault.info (f : DeferredFault) : Word := BitVec.ofNat 64 (f.row % 64 * 2 ^ 58 + f.col % 16 * 2 ^ 54 + f.addr / 4 % 2 ^ 54)

/-- FKIND, FSLOT and MULTI of TCAUSE (R317). -/
def faultBits : List DeferredFault → Nat
  | [] => 0
  | f :: r => f.kind.toNat * 2 ^ 14 + f.slot.toNat * 2 ^ 12 + (if r.isEmpty then 0 else 2 ^ 11)

/-- The deferred faults and the reports that no trap of another cause has pushed behind it (R315). -/
def Context.liveFaults (c : Context) : List DeferredFault := c.faults.filter (fun f => !f.held)
def Context.liveReports (c : Context) : List PoisonReport := c.reports.filter (fun r => !r.held)

/-- Everything under way that trap entry waits for lands: results, flag aggregates and event records (R25, R313). -/
def Context.quiesce (c : Context) : Context := c.landAll.arriveAllFaggs.dripLandAll

/-- The context stops issuing, with steps 1 to 3 of R87: results land, the condition queue and the loop stack go, wave words
drain. -/
def Context.stopFor (c : Context) (r : EndReason) : Context :=
  { c.quiesce with status := .ending r, cq := [], loops := [], sticky := Sticky.none, suspended := none, trapDue := none, rep := 0, dsc := 0, cur := [],
                   reports := [], faults := [], request := none, stepping := false, doomed := none, cellRegs := none, inWaitq := false }

def StreamElem.good : StreamElem → Bool
  | .value _ => true
  | .owed _ => true
  | .poisoned _ _ => false
  | .fault _ _ => false

/-- Elements of a read stream from the first whose fetch failed are forgotten, so that they are fetched again (R243, R245). -/
def Stream.forget (q : Stream) : Stream :=
  let l := q.buf.takeWhile StreamElem.good
  if q.write then q else { q with buf := l, next := q.next - (q.buf.length - l.length) }

/-- A trap taken on behalf of a stream's stores is taken once (R244). -/
def Context.unstick (c : Context) (cause : Nat) (info : Word) : Vector Stream 16 :=
  if cause < 256 then c.streams
  else
    let n := Fin.ofNat 16 (info.toNat / 2 ^ 56)
    c.streams.set n { c.streams[n] with stuck := none }

/-- The registers that the cells read. -/
def Context.cellView (c : Context) : CellRegs :=
  { mshp := c.mshp, fnver := c.fnver, dtmask := c.dtmask, sgeoa := c.sgeoa, sgeob := c.sgeob, z := c.z }

/-- The context as a repeat of a bundle reads it: the wave words of one bundle see the registers that its S slot writes as they stood before
it issued (R63). -/
def Context.asRepeat (c : Context) : Context :=
  match c.cellRegs with
  | none => c
  | some r => { c with mshp := r.mshp, fnver := r.fnver, dtmask := r.dtmask, sgeoa := r.sgeoa, sgeob := r.sgeob, z := r.z }

/-- Trap entry once nothing is outstanding (R25, R313). A trap while INH is set is a double fault (R314). The reports that this
trap does not take stay pending (R315). One set of sticky slots is saved: a trap inside a handler that has cleared INH saves the handler's
over the outer one (log entry 62). -/
def Context.enterTrap (c : Context) (cause : Nat) (info : Word) : Context :=
  if c.inh then c.stopFor .aborted
  else
    { c with
      tcause := BitVec.ofNat 64 (cause % 256 + c.level.code * 2 ^ 8 + 2 ^ 10 + (if cause = 0x0D then faultBits c.liveFaults else 0))
      tepc := BitVec.ofNat 64 (c.pc % 2 ^ 56 / 4 * 4)
      tdsc := BitVec.ofNat 64 c.dsc
      tbtgt := BitVec.ofNat 64 (if c.dsc = 0 then 0 else c.target.toNat % 2 ^ 56)
      late := false, cellRegs := none, inWaitq := false
      trep := BitVec.ofNat 64 c.rep
      tinfo := info
      level := .supervisor
      pc := c.tvec.toNat + 256 * (cause % 256)
      dsc := 0, target := 0, rep := 0
      suspended := some c.sticky, sticky := Sticky.none
      stepping := false, trapDue := none, yielded := false, landPoint := false, cur := [], streams := (c.unstick cause info).map Stream.forget
      faults := if cause = 0x0D then c.faults.filter (·.held) else c.faults.map (fun f => { f with held := true })
      reports := c.reports.map (fun r => { r with held := true }) }

/-- A trap is taken: what is outstanding lands first. Condition-queue entries that other agents still owe keep it waiting (R25,
R68). -/
def Context.takeTrap (c : Context) (cause : Nat) (info : Word) : Context :=
  if c.inh then c.stopFor .aborted
  else
    let c := c.quiesce
    if c.cqAllFilled then c.enterTrap cause info else { c with trapDue := some (cause, info) }

def State.takeTrap (s : State) (cause : Nat) (info : Word) : State := s.setCtx (s.ctx.takeTrap cause info)

def Level.ofCode : Nat → Level
  | 0 => .user
  | 1 => .supervisor
  | _ => .firmware

/-- The return from a trap (R336): sticky slots, and level, pc, repeat and delay state as the trap registers held them before the bundle,
as RFT's check saw them (R9, log entry 61). Reports that waited fall due before the first issue (R315). The boundary is a landing point only
where no delay, repeat or step state has come back (R324). -/
def Context.returnFromTrap (c src : Context) : Context :=
  { c with
    level := .ofCode (src.tcause.toNat / 256 % 4)
    tcause := c.tcause &&& ~~~(BitVec.ofNat 64 (2 ^ 10))
    sticky := c.suspended.getD Sticky.none, suspended := none
    pc := src.tepc.toNat
    rep := src.trep.toNat, cur := []
    dsc := src.tdsc.toNat % 4
    target := src.tbtgt
    late := decide (src.tdsc.toNat % 4 ≠ 0) && src.tbtgt == Config.lateTarget.setWidth 64
    stepping := src.tdsc.getLsbD 8
    landPoint := c.landPoint && src.trep == 0 && src.tdsc == 0
    faults := c.faults.map (fun f => { f with held := false, due := f.due || f.held })
    reports := c.reports.map (fun r => { r with held := false }) }

/-! ### The form of a meaning -/

/-- The machine goes on to `s`. -/
def next (s : State) : Host.Outcome State Fault Refusal := .next s

/-- A held bundle waits a cycle and acts later (R11). -/
def State.hold (s : State) : State := { s with ctx.cycle := s.ctx.cycle + 1 }

/-- A check, then an effect: a trap or a hold takes its place. -/
def gated (v : Verdict) (act : State → State) (s : State) : Host.Outcome State Fault Refusal :=
  match v with
  | .go => .next (act s)
  | .hold => .next s.hold
  | .trap cause info => .next (s.takeTrap cause info)

/-- The checks of an instruction's operands: sources in their order, then destinations. -/
def State.checkOpnds (s : State) (cl : Claims) (srcs dsts : List Opnd) : Verdict :=
  match s.peekAll cl srcs with
  | .error v => v
  | .ok _ => s.checkDests cl dsts

end Sys2Proof.Machine
end

