-- ==== Sys2Proof/Machine/Scalar.lean ====
section
/-! DEFINITION. The S slot (R49 to R70, R226 to R231, R333, R335). Each operation has a check, which takes the claims of the
fields before it in its bundle, and an effect. -/

namespace Sys2Proof.Machine

abbrev Result := Host.Outcome State Fault Refusal

/-! ### Values of the integer operations (R51 to R57) -/

/-- Clamps an exact integer to 64 signed bits (R51). -/
def satWord (x : Int) : Word :=
  if x < -(2 ^ 63) then BitVec.ofInt 64 (-(2 ^ 63)) else if 2 ^ 63 - 1 < x then BitVec.ofInt 64 (2 ^ 63 - 1) else BitVec.ofInt 64 x

def aluAdd (sat : Bool) (a b : Word) : Word := if sat then satWord (a.toInt + b.toInt) else a + b
def aluSub (sat : Bool) (a b : Word) : Word := if sat then satWord (a.toInt - b.toInt) else a - b
def aluMul (sat : Bool) (a b : Word) : Word := if sat then satWord (a.toInt * b.toInt) else a * b
def aluMulh (a b : Word) : Word := BitVec.ofInt 64 (a.toInt * b.toInt / 2 ^ 64)
def aluMulhn (a b : Word) : Word := BitVec.ofNat 64 (a.toNat * b.toNat / 2 ^ 64)

/-- R52: division by zero gives all ones, and −2^63 / −1 wraps. -/
def aluDiv (a b : Word) : Word := if b = 0 then BitVec.allOnes 64 else BitVec.ofInt 64 (a.toInt.tdiv b.toInt)
def aluDivn (a b : Word) : Word := if b = 0 then BitVec.allOnes 64 else BitVec.ofNat 64 (a.toNat / b.toNat)
def aluRem (a b : Word) : Word := if b = 0 then a else BitVec.ofInt 64 (a.toInt.tmod b.toInt)
def aluRemn (a b : Word) : Word := if b = 0 then a else BitVec.ofNat 64 (a.toNat % b.toNat)

def aluShl (a b : Word) : Word := a <<< (b.toNat % 64)
def aluShr (a b : Word) : Word := a >>> (b.toNat % 64)
def aluSra (a b : Word) : Word := a.sshiftRight (b.toNat % 64)
def aluRot (a b : Word) : Word := a.rotateRight (b.toNat % 64)
def aluMin (a b : Word) : Word := if a.slt b then a else b
def aluMax (a b : Word) : Word := if a.slt b then b else a
def aluMinn (a b : Word) : Word := if a.ult b then a else b
def aluMaxn (a b : Word) : Word := if a.ult b then b else a

/-- Leading and trailing zero bits and one bits among the low `n` bits (R53). -/
def clzFrom (a : Word) : Nat → Nat
  | 0 => 0
  | n + 1 => if a.getLsbD n then 0 else 1 + clzFrom a n

def ctzFrom (a : Word) (i : Nat) : Nat → Nat
  | 0 => 0
  | n + 1 => if a.getLsbD i then 0 else 1 + ctzFrom a (i + 1) n

def popFrom (a : Word) : Nat → Nat
  | 0 => 0
  | n + 1 => (if a.getLsbD n then 1 else 0) + popFrom a n

def aluClz (a : Word) : Word := BitVec.ofNat 64 (clzFrom a 64)
def aluCtz (a : Word) : Word := BitVec.ofNat 64 (ctzFrom a 0 64)
def aluPopc (a : Word) : Word := BitVec.ofNat 64 (popFrom a 64)

/-- The bits of a narrow width code: 8, 16 or 32 (R31). -/
def narrow (w : BitVec 2) : Nat := 8 * 2 ^ w.toNat

def aluSext (w : BitVec 2) (a : Word) : Word := (a.setWidth (narrow w)).signExtend 64
def aluZext (w : BitVec 2) (a : Word) : Word := (a.setWidth (narrow w)).setWidth 64

def aluBext (pos wm1 : BitVec 6) (a : Word) : Word := BitVec.ofNat 64 (a.toNat / 2 ^ pos.toNat % 2 ^ (wm1.toNat + 1))

/-- The mask of the field that BINS and MOVK replace. -/
def fieldMask (pos width : Nat) : Word := BitVec.ofNat 64 ((2 ^ width - 1) * 2 ^ pos)

def aluBins (pos wm1 : BitVec 6) (d a : Word) : Word :=
  (d &&& ~~~(fieldMask pos.toNat (wm1.toNat + 1))) ||| ((a <<< pos.toNat) &&& fieldMask pos.toNat (wm1.toNat + 1))

def aluMovk (hw : BitVec 2) (imm : BitVec 16) (d : Word) : Word :=
  (d &&& ~~~(fieldMask (16 * hw.toNat) 16)) ||| ((imm.setWidth 64) <<< (16 * hw.toNat))

def aluLea (sh : BitVec 3) (a b : Word) : Word := a + (b <<< sh.toNat)

/-! ### Shapes of operations -/

def checkSrcsDst (srcs : List Opnd) (d : Opnd) (cl : Claims) (s : State) : Verdict := s.checkOpnds cl srcs [d]

/-- D = f(A, B). -/
def op2 (d a b : Opnd) (f : Word → Word → Word) (s : State) : Result :=
  gated (checkSrcsDst [a, b] d .none s) (fun s =>
    let (x, s) := s.take a
    let (y, s) := s.take b
    s.put d (f x y)) s

/-- D = f(A). -/
def op1 (d a : Opnd) (f : Word → Word) (s : State) : Result :=
  gated (checkSrcsDst [a] d .none s) (fun s =>
    let (x, s) := s.take a
    s.put d (f x)) s

/-- D = a constant. -/
def op0 (d : Opnd) (w : Word) (s : State) : Result := gated (checkSrcsDst [] d .none s) (fun s => s.put d w) s

/-- D = f(D, A), for the operations that read their destination (R54, R56). -/
def opMod (d : Opnd) (srcs : List Opnd) (f : Word → List Word → Word) (s : State) : Result :=
  gated (checkSrcsDst (d :: srcs) d .none s) (fun s =>
    let (old, s) := s.take d
    match srcs with
    | [] => s.put d (f old [])
    | a :: _ =>
      let (x, s) := s.take a
      s.put d (f old [x])) s

def execNop (s : State) : Result := gated .go id s
def execAdd (d a b : Opnd) (sat : Bool) (s : State) : Result := op2 d a b (aluAdd sat) s
def execSub (d a b : Opnd) (sat : Bool) (s : State) : Result := op2 d a b (aluSub sat) s
def execMul (d a b : Opnd) (sat : Bool) (s : State) : Result := op2 d a b (aluMul sat) s
def execMulh (d a b : Opnd) (s : State) : Result := op2 d a b aluMulh s
def execMulhn (d a b : Opnd) (s : State) : Result := op2 d a b aluMulhn s
def execDiv (d a b : Opnd) (s : State) : Result := op2 d a b aluDiv s
def execDivn (d a b : Opnd) (s : State) : Result := op2 d a b aluDivn s
def execRem (d a b : Opnd) (s : State) : Result := op2 d a b aluRem s
def execRemn (d a b : Opnd) (s : State) : Result := op2 d a b aluRemn s
def execAnd (d a b : Opnd) (s : State) : Result := op2 d a b (fun x y => x &&& y) s
def execOr (d a b : Opnd) (s : State) : Result := op2 d a b (fun x y => x ||| y) s
def execXor (d a b : Opnd) (s : State) : Result := op2 d a b (fun x y => x ^^^ y) s
def execAndn (d a b : Opnd) (s : State) : Result := op2 d a b (fun x y => x &&& ~~~y) s
def execShl (d a b : Opnd) (s : State) : Result := op2 d a b aluShl s
def execShr (d a b : Opnd) (s : State) : Result := op2 d a b aluShr s
def execSra (d a b : Opnd) (s : State) : Result := op2 d a b aluSra s
def execRot (d a b : Opnd) (s : State) : Result := op2 d a b aluRot s
def execMin (d a b : Opnd) (s : State) : Result := op2 d a b aluMin s
def execMax (d a b : Opnd) (s : State) : Result := op2 d a b aluMax s
def execMinn (d a b : Opnd) (s : State) : Result := op2 d a b aluMinn s
def execMaxn (d a b : Opnd) (s : State) : Result := op2 d a b aluMaxn s
def execClz (d a : Opnd) (s : State) : Result := op1 d a aluClz s
def execCtz (d a : Opnd) (s : State) : Result := op1 d a aluCtz s
def execPopc (d a : Opnd) (s : State) : Result := op1 d a aluPopc s
def execBext (d a : Opnd) (pos wm1 : BitVec 6) (s : State) : Result := op1 d a (aluBext pos wm1) s
def execBins (d a : Opnd) (pos wm1 : BitVec 6) (s : State) : Result :=
  opMod d [a] (fun old xs => aluBins pos wm1 old (xs.headD 0)) s
def execSext (d a : Opnd) (w : BitVec 2) (s : State) : Result := op1 d a (aluSext w) s
def execZext (d a : Opnd) (w : BitVec 2) (s : State) : Result := op1 d a (aluZext w) s
def execAddi (d a : Opnd) (imm : BitVec 14) (s : State) : Result := op1 d a (fun x => x + imm.signExtend 64) s
def execAndi (d a : Opnd) (imm : BitVec 14) (s : State) : Result := op1 d a (fun x => x &&& imm.setWidth 64) s
def execOri (d a : Opnd) (imm : BitVec 14) (s : State) : Result := op1 d a (fun x => x ||| imm.setWidth 64) s
def execXori (d a : Opnd) (imm : BitVec 14) (s : State) : Result := op1 d a (fun x => x ^^^ imm.setWidth 64) s
def execShli (d a : Opnd) (sh : BitVec 6) (s : State) : Result := op1 d a (fun x => x <<< sh.toNat) s
def execShri (d a : Opnd) (sh : BitVec 6) (s : State) : Result := op1 d a (fun x => x >>> sh.toNat) s
def execSrai (d a : Opnd) (sh : BitVec 6) (s : State) : Result := op1 d a (fun x => x.sshiftRight sh.toNat) s
def execMovi (d : Opnd) (imm : BitVec 20) (s : State) : Result := op0 d (imm.signExtend 64) s
def execMovk (d : Opnd) (hw : BitVec 2) (imm : BitVec 16) (s : State) : Result := opMod d [] (fun old _ => aluMovk hw imm old) s
def execLea (d a b : Opnd) (sh : BitVec 3) (s : State) : Result := op2 d a b (aluLea sh) s
def execQmov (d a : Opnd) (s : State) : Result := op1 d a id s

/-! ### The condition queue (R58, R59, R68) -/

def checkSrcs (srcs : List Opnd) (cl : Claims) (s : State) : Verdict := s.checkOpnds cl srcs []

def execCmp (a b : Opnd) (cc : BitVec 4) (s : State) : Result :=
  gated (checkSrcs [a, b] .none s) (fun s =>
    let (x, s) := s.take a
    let (y, s) := s.take b
    s.setCtx (s.ctx.cqReserve (some (condHolds cc x y)))) s

def execCmpi (cc : BitVec 4) (a : Opnd) (imm : BitVec 14) (s : State) : Result :=
  gated (checkSrcs [a] .none s) (fun s =>
    let (x, s) := s.take a
    s.setCtx (s.ctx.cqReserve (some (condHolds cc x (imm.signExtend 64))))) s

def checkSetc (d : Opnd) (cl : Claims) (s : State) : Verdict := (s.ctx.checkPop 0 0 1).andThen (s.checkDest cl d)

def execSetc (d : Opnd) (s : State) : Result :=
  gated (checkSetc d .none s) (fun s =>
    let h := s.ctx.cqHead
    (s.setCtx (s.ctx.cqPop 1)).put d (BitVec.ofNat 64 h.toNat)) s

def checkSel (d a b : Opnd) (cl : Claims) (s : State) : Verdict := (s.ctx.checkPop 0 0 1).andThen (checkSrcsDst [a, b] d cl s)

def execSel (d a b : Opnd) (s : State) : Result :=
  gated (checkSel d a b .none s) (fun s =>
    let h := s.ctx.cqHead
    let (x, s) := (s.setCtx (s.ctx.cqPop 1)).take a
    let (y, s) := s.take b
    s.put d (if h then x else y)) s

def execCqpush (a : Opnd) (s : State) : Result :=
  gated (checkSrcs [a] .none s) (fun s =>
    let (x, s) := s.take a
    s.setCtx (s.ctx.cqReserve (some (x != 0)))) s

/-- The bit that TKTEST fills with: none while its ticket is pending (R68). k0 and a ticket never produced count as status 0. -/
def tktestBit (c : Context) (k : Nat) : Option Bool :=
  if k = 0 then some true
  else
    let t := c.tickets.toList.getD k Ticket.free
    if t.pending then none else some (t.status == 0)

/-- The tag of a queue entry that waits for ticket `k`, so that the ticket's completion finds it. -/
def tktestTag (k : Nat) : Nat := 2 ^ 64 + k

def execTktest (k : BitVec 6) (s : State) : Result :=
  gated .go (fun s =>
    let c := s.ctx
    match tktestBit c k.toNat with
    | some b => s.setCtx (c.cqReserve (some b))
    | none => s.setCtx { c with cq := c.cq ++ [{ tag := tktestTag k.toNat, val := none, poi := false }] }) s

/-! ### Loads and stores (R32, R60, R61) -/

/-- The access size and the offset that an OFF field encodes (R32). -/
def offSize (off : BitVec 10) : Nat :=
  if off.getLsbD 0 then 1 else if off.getLsbD 1 then 2 else if off.getLsbD 2 then 4 else 8

def offBytes (off : BitVec 10) : Int :=
  let z := offSize off
  (off.toInt / (2 * z)) * z

/-- EA = (A + offset) mod 2^64 (R60). -/
def effAddr (a : Word) (off : BitVec 10) : Word := a + BitVec.ofInt 64 (offBytes off)

/-- Faults of an access of `n` bytes at `ea`, before any byte moves (R60, R61). -/
def checkAccess (s : State) (ea : Word) (n : Nat) (a : Access) : Verdict :=
  match s.locateN (s.src.who s.variant) ea.toNat a n with
  | .error (x, va) => .trap x.cause (BitVec.ofNat 64 va)
  | .ok _ => .go

/-- At most 64 results are outstanding (R20). -/
def checkRoom (s : State) : Verdict := holdIf (64 ≤ s.src.pend.length)

/-- The value of a source for an address check. -/
def withPeek (s : State) (cl : Claims) (o : Opnd) (k : Word → Verdict) : Verdict :=
  match s.peek cl o with
  | .error v => v
  | .ok w => k w

def checkLd (d a : Opnd) (off : BitVec 10) (cl : Claims) (s : State) : Verdict :=
  (checkSrcsDst [a] d cl s).andThen
    ((withPeek s cl a (fun x => checkAccess s (effAddr x off) (offSize off) .load)).andThen (checkRoom s))

/-- The bytes of an access that lie in the line of its first byte. -/
def lowPart (va n : Nat) : Nat := min n (128 - va % 128)

/-- The places of an access's upper part: none unless it crosses a line (R195). -/
def upperPart (va n : Nat) (ls : List Loc) : List Loc := ls.drop (lowPart va n)

/-- Reads bytes as a sequencer's load does: the bytes, and the machine after it. -/
def State.loadLocs (s : State) (c : Context) (ls : List Loc) : List (Byte × Bool) × State :=
  let s := (s.prepareAll c false ls).synchronise ls
  (ls.map (s.loadByte c), s)

/-- Writes bytes as a sequencer's store does. -/
def State.storeLocs (s : State) (c : Context) (ls : List Loc) (bs : List Byte) : State := (s.prepareAll c true ls).storeBytes c ls bs

/-- Reads `n` bytes at an address: their places, the bytes, and the machine after it. -/
def State.loadNum (s : State) (c : Context) (va n : Nat) : List Loc × List (Byte × Bool) × State :=
  match s.locateN (c.who s.variant) va .load n with
  | .error _ => ([], [], s)
  | .ok ls =>
    let (bs, s) := (s.fillPages (c.who s.variant) va n).loadLocs c ls
    (ls, bs, s)

/-- ST writes its lower part now; an upper part, where the bytes cross a line, is an access of its own, made before anything else the
context does (R195). -/
def State.storeNum (s : State) (c : Context) (va n : Nat) (v : Nat) : State :=
  match s.locateN (c.who s.variant) va .store n with
  | .error _ => s
  | .ok ls =>
    let k := lowPart va n
    let t := (s.fillPages (c.who s.variant) va n).storeLocs c (ls.take k) ((leBytes n v).take k)
    if upperPart va n ls = [] then t
    else t.setCtx { t.ctx with half := some { locs := upperPart va n ls, bytes := (leBytes n v).drop k, low := 0, lowPoi := false,
                                              dest := .none, made := t.ctx.issues, arrive := [] } }

/-- The upper part of a load arrives: the outstanding result takes its value and its poison from what the bytes hold now. -/
def Half.complete (h : Half) (upper : List (Byte × Bool)) (p : Pending) : Pending :=
  if p.made = h.made ∧ p.dest = h.dest then
    let bad := h.lowPoi || anyPoison upper
    { p with value := BitVec.ofNat 64 (p.value.toNat % 256 ^ h.low + 256 ^ h.low * numOf upper), poison := if bad then some 0 else none }
  else p

/-- One arrival at a barrier slot (R84). -/
def Context.arrive (c : Context) (slot : BitVec 3) : Context := { c with bars := c.bars.set slot.toFin (c.bars[slot.toFin] + 1) }

/-- The second part of an access that crosses a line is made, and then what waited for it (R195). -/
def State.settleHalf (s : State) : State :=
  match s.ctx.half with
  | none => s
  | some h =>
    let c := s.ctx
    let s := s.setCtx { c with half := none }
    let s :=
      if h.bytes = [] then
        let (bs, s) := s.loadLocs c h.locs
        s.setCtx { s.ctx with pend := s.ctx.pend.map (h.complete bs) }
      else s.storeLocs c h.locs h.bytes
    s.setCtx (h.arrive.foldl Context.arrive s.ctx)

/-- Adds a load's result to those outstanding. `source` is its code of R319. -/
def State.oweLoad (s : State) (d : Opnd) (lat source v : Nat) (poison : Bool) : State :=
  let (c, dest) := s.ctx.oweDest d
  s.setCtx (c.owe { dest := dest, value := BitVec.ofNat 64 v, writes := [], acc := false, bound := c.boundOf lat, made := c.issues, addr := c.pc,
                    poison := if poison then some source else none })

def execLd (d a : Opnd) (off : BitVec 10) (lat : BitVec 4) (s : State) : Result :=
  gated (checkLd d a off .none s) (fun s =>
    let (x, s) := s.take a
    let va := (effAddr x off).toNat
    let n := offSize off
    let (ls, bs, s) := s.loadNum s.src va n
    let t := s.oweLoad d lat.toNat 0 (numOf bs) (anyPoison bs)
    if upperPart va n ls = [] then t
    else t.setCtx { t.ctx with half := some { locs := upperPart va n ls, bytes := [], low := lowPart va n, lowPoi := anyPoison (bs.take (lowPart va n)),
                                              dest := (s.ctx.oweDest d).2, made := s.ctx.issues, arrive := [] } }) s

/-- ST reads D, then A (R8). -/
def checkSt (d a : Opnd) (off : BitVec 10) (cl : Claims) (s : State) : Verdict :=
  (checkSrcs [d, a] cl s).andThen
    (withPeek s (cl.read d) a (fun x => checkAccess s (effAddr x off) (offSize off) .store))

def execSt (d a : Opnd) (off : BitVec 10) (s : State) : Result :=
  gated (checkSt d a off .none s) (fun s =>
    let (v, s) := s.take d
    let (x, s) := s.take a
    s.storeNum s.src (effAddr x off).toNat (offSize off) v.toNat) s

/-! ### Atomics (R226 to R228) -/

/-- The bytes of an atomic. -/
def amoBytes (sz : Bool) : Nat := if sz then 8 else 4

/-- The checks of R228. -/
def checkAmoAddr (s : State) (ea : Word) (n : Nat) : Verdict :=
  Verdict.all [trapIf (2 ^ 56 ≤ ea.toNat) 0x09 ea, trapIf (ea.toNat / 128 ≠ (ea.toNat + n - 1) / 128) 0x07 ea, checkAccess s ea n .atomic]

/-- The new value (R227), for operands of `w` bits. -/
def amoNew (opc : BitVec 3) (w old b : Nat) : Nat :=
  let f : IFmt := { width := w, signed := true }
  let b := b % 2 ^ w
  match opc.toNat with
  | 0 => (old + b) % 2 ^ w
  | 1 => b
  | 2 => old &&& b
  | 3 => old ||| b
  | 4 => if f.value old < f.value b then old else b
  | 5 => if f.value old < f.value b then b else old
  | 6 => if old < b then old else b
  | _ => if old < b then b else old

/-- Whether an access lies in software-managed memory, where an atomic acts at the home (R198). -/
def Loc.software : Loc → Bool
  | .mem p => p.cls == .software
  | .scratch _ _ => false
  | .backing _ _ => false
  | .lost _ _ => false

/-- Reads, computes and writes at a single place in the order (R196, R227), on a line of which it has all tokens (R357). Poison, also that
of a struck flag, is found before the write makes ready, and leaves memory as it is (R191, R228). -/
def State.atomic (s : State) (c : Context) (ea : Nat) (n : Nat) (f : Nat → Nat) : Nat × Bool × State :=
  match s.locateN (c.who s.variant) ea .atomic n with
  | .error _ => (0, false, s)
  | .ok ls =>
    let w := c.who s.variant
    if ls.any Loc.software then
      let s := (s.mergeWhere (s.sentFor c)).fillPages w ea n
      let bs := ls.map (s.engineByte w)
      let old := numOf bs
      if anyPoison bs then (old, true, s)
      else (old, false, (ls.zip (leBytes n (f old))).foldl (fun s (l, b) => s.enginePut w b false l) s)
    else
      let (bs, s) := ((s.fillPages w ea n).prepareAtomic c ls).loadLocs c ls
      let old := numOf bs
      if anyPoison bs then (old, true, s) else (old, false, s.storeLocs c ls (leBytes n (f old)))

def checkAmo (d a b : Opnd) (n : Nat) (cl : Claims) (s : State) : Verdict :=
  (checkSrcsDst [a, b] d cl s).andThen ((withPeek s cl a (fun x => checkAmoAddr s x n)).andThen (checkRoom s))

def execAmo (d a b : Opnd) (opc : BitVec 3) (sz : Bool) (lat : BitVec 4) (s : State) : Result :=
  gated (checkAmo d a b (amoBytes sz) .none s) (fun s =>
    let (x, s) := s.take a
    let (y, s) := s.take b
    let (old, p, s) := s.atomic s.src x.toNat (amoBytes sz) (fun old => amoNew opc (8 * amoBytes sz) old y.toNat)
    s.oweLoad d lat.toNat 1 old p) s

/-- CAS reads D for the expected value, then A, then B (R8, R226). -/
def checkCas (d a b : Opnd) (n : Nat) (cl : Claims) (s : State) : Verdict :=
  (checkSrcs [d, a, b] cl s).andThen ((withPeek s cl a (fun x => checkAmoAddr s x n)).andThen (checkRoom s))

def execCas (d a b : Opnd) (sz : Bool) (lat : BitVec 4) (s : State) : Result :=
  gated (checkCas d a b (amoBytes sz) .none s) (fun s =>
    let (e, s) := s.take d
    let (x, s) := s.take a
    let (y, s) := s.take b
    let w := 8 * amoBytes sz
    let (old, p, s) := s.atomic s.src x.toNat (amoBytes sz) (fun old => if old = e.toNat % 2 ^ w then y.toNat % 2 ^ w else old)
    s.oweLoad d lat.toNat 1 old p) s

def execAmof (d a b : Opnd) (lat : BitVec 4) (s : State) : Result :=
  gated (checkAmo d a b 4 .none s) (fun s =>
    let (x, s) := s.take a
    let (y, s) := s.take b
    let (old, p, s) := s.atomic s.src x.toNat 4 (fun old => (addF32 old (y.toNat % 2 ^ 32)).1)
    s.oweLoad d lat.toNat 1 old p) s

/-! ### Control registers (R62 to R67, R333) -/

/-- Index, remaining count of loop-stack entry `n`, l0 outermost (R17). The stack lists the innermost entry first. -/
def Context.loopAt (c : Context) (n : Nat) : Option LoopEntry := c.loops.reverse[n]?

def Selector.view (z : Selector) : Word := BitVec.ofNat 64 (z.cols.toNat * 2 ^ 16 + z.rows.toNat)

/-- The value of a control register (R64). -/
def cregRead (kycap : Word) (c : Context) (n : Nat) : Word :=
  if n = 0x000 then kycap
  else if n = 0x001 then c.chainlat
  else if n = 0x002 then c.ctxid
  else if n = 0x003 then c.asid
  else if n = 0x004 then c.ttbase
  else if n = 0x005 then BitVec.ofNat 64 bwin
  else if n = 0x006 then c.scrlo
  else if n = 0x007 then c.scrhi
  else if n = 0x010 then BitVec.ofNat 64 c.loops.length
  else if 0x018 ≤ n ∧ n ≤ 0x01D then BitVec.ofNat 64 (((c.loopAt (n - 0x018)).map (·.idx)).getD 0 % 2 ^ 32)
  else if 0x020 ≤ n ∧ n ≤ 0x025 then BitVec.ofNat 64 (((c.loopAt (n - 0x020)).map (·.remain)).getD 0 % 2 ^ 32)
  else if 0x030 ≤ n ∧ n ≤ 0x033 then ((c.z.toList.getD (n - 0x030) { rows := 0, cols := 0 }).view)
  else if 0x040 ≤ n ∧ n ≤ 0x047 then c.mshp.toList.getD (n - 0x040) 0
  else if n = 0x050 then c.fnver
  else if n = 0x051 then c.dtmask
  else if n = 0x052 then c.dtlost
  else if n = 0x053 then c.sgeoa
  else if n = 0x054 then c.sgeob
  else if n = 0x100 then c.tvec
  else if n = 0x101 then c.tcause
  else if n = 0x102 then c.tepc
  else if n = 0x103 then c.tdsc
  else if n = 0x104 then c.tbtgt
  else if n = 0x105 then c.trep
  else if n = 0x106 then c.tinfo
  else 0

/-- Access S of R64. -/
def cregSupervisor (n : Nat) : Bool := 0x100 ≤ n

/-- Whether a register can be written at a level (R64). -/
def cregWritable (level : Level) (n : Nat) : Bool :=
  (0x040 ≤ n && n ≤ 0x047) || (0x050 ≤ n && n ≤ 0x054) || (level != .user && (n == 0x003 || n == 0x004 || 0x100 ≤ n))

/-- A tile shape that R65 does not reserve. -/
def shapeValid (w : Word) : Bool :=
  let n := w.toNat
  fld n 24 40 == 0 && fld n 6 2 == 0 && fmtWidth (fld n 0 6) != 0 &&
    decide ((fld n 8 8 + 1) * (fld n 16 8 + 1) * fmtWidth (fld n 0 6) ≤ 16384)

/-- Whether a value sets no reserved field and holds no reserved field value (R62). -/
def cregValueOk (n : Nat) (w : Word) : Bool :=
  let v := w.toNat
  if n = 0x003 then decide (v < 2 ^ 11)
  else if n = 0x004 then v % 128 == 0 && decide (v < 2 ^ 56)
  else if 0x040 ≤ n ∧ n ≤ 0x047 then shapeValid w
  else if n = 0x050 then v == 0x11111111
  else if n = 0x051 then decide (v < 2 ^ 6)
  else if n = 0x052 then decide (v < 2 ^ 32)
  else if n = 0x053 ∨ n = 0x054 then decide (v ≤ 6)
  else if n = 0x100 then v % 2 ^ 13 == 0 && decide (v < 2 ^ 56)
  else if n = 0x101 then decide (v < 2 ^ 17) && fld v 12 2 != 3
  else if n = 0x102 then v % 4 == 0 && decide (v < 2 ^ 56)
  else if n = 0x103 then decide (v < 2 ^ 9) && fld v 2 6 == 0 && fld v 0 2 != 3
  else if n = 0x104 then decide (v < 2 ^ 56)
  else if n = 0x105 then decide (v < 2 ^ 8)
  else true

def cregWrite (c : Context) (n : Nat) (w : Word) : Context :=
  if n = 0x003 then { c with asid := w }
  else if n = 0x004 then { c with ttbase := w }
  else if h : 0x040 ≤ n ∧ n ≤ 0x047 then { c with mshp := c.mshp.set (n - 0x040) w (by omega) }
  else if n = 0x050 then { c with fnver := w }
  else if n = 0x051 then { c with dtmask := w }
  else if n = 0x052 then { c with dtlost := w }
  else if n = 0x053 then { c with sgeoa := w }
  else if n = 0x054 then { c with sgeob := w }
  else if n = 0x100 then { c with tvec := w }
  else if n = 0x101 then { c with tcause := w }
  else if n = 0x102 then { c with tepc := w }
  else if n = 0x103 then { c with tdsc := w }
  else if n = 0x104 then { c with tbtgt := w }
  else if n = 0x105 then { c with trep := w }
  else if n = 0x106 then { c with tinfo := w }
  else c

/-- Causes 0x02 and 0x04 of a check later than R29 name the slot only (R319). -/
def slotInfo (slot : Nat) : Word := BitVec.ofNat 64 slot

/-- Row 7 of R29: a supervisor opcode at user level. -/
def privilegeTrap (need level : Level) (slot : Nat) : Verdict :=
  trapIf (level.code < need.code) 0x04 (BitVec.ofNat 64 (7 * 16 + slot))

def checkMfc (d : Opnd) (creg : BitVec 14) (cl : Claims) (s : State) : Verdict :=
  (s.checkDest cl d).andThen (trapIf (cregSupervisor creg.toNat = true ∧ s.src.level = .user) 0x04 (slotInfo 0))

def execMfc (d : Opnd) (creg : BitVec 14) (s : State) : Result :=
  gated (checkMfc d creg .none s) (fun s => s.put d (cregRead s.kycap s.src creg.toNat)) s

def checkMtc (a : Opnd) (creg : BitVec 14) (cl : Claims) (s : State) : Verdict :=
  (checkSrcs [a] cl s).andThen
    ((trapIf (cregSupervisor creg.toNat = true ∧ s.src.level = .user) 0x04 (slotInfo 0)).andThen
      ((trapIf (cregWritable s.src.level creg.toNat = false) 0x02 (slotInfo 0)).andThen
        (withPeek s cl a (fun w => trapIf (cregValueOk creg.toNat w = false) 0x02 (slotInfo 0)))))

def execMtc (a : Opnd) (creg : BitVec 14) (s : State) : Result :=
  gated (checkMtc a creg .none s) (fun s =>
    let (w, s) := s.take a
    s.setCtx (cregWrite s.ctx creg.toNat w)) s

def checkMfcs (d : Opnd) (creg : BitVec 14) (cl : Claims) (s : State) : Verdict :=
  (privilegeTrap .supervisor s.src.level 0).andThen (checkMfc d creg cl s)

def execMfcs (d : Opnd) (creg : BitVec 14) (s : State) : Result :=
  gated (checkMfcs d creg .none s) (fun s => s.put d (cregRead s.kycap s.src creg.toNat)) s

def checkMtcs (a : Opnd) (creg : BitVec 14) (cl : Claims) (s : State) : Verdict :=
  (privilegeTrap .supervisor s.src.level 0).andThen (checkMtc a creg cl s)

def execMtcs (a : Opnd) (creg : BitVec 14) (s : State) : Result :=
  gated (checkMtcs a creg .none s) (fun s =>
    let (w, s) := s.take a
    s.setCtx (cregWrite s.ctx creg.toNat w)) s

def checkMtsh (a : Opnd) (cl : Claims) (s : State) : Verdict :=
  (checkSrcs [a] cl s).andThen (withPeek s cl a (fun w => trapIf (shapeValid w = false) 0x02 (slotInfo 0)))

def execMtsh (t : BitVec 3) (a : Opnd) (s : State) : Result :=
  gated (checkMtsh a .none s) (fun s =>
    let (w, s) := s.take a
    s.setCtx { s.ctx with mshp := s.ctx.mshp.set t.toFin w }) s

def execMsel (z : BitVec 2) (a b : Opnd) (s : State) : Result :=
  gated (checkSrcs [a, b] .none s) (fun s =>
    let (x, s) := s.take a
    let (y, s) := s.take b
    s.setCtx { s.ctx with z := s.ctx.z.set z.toFin { rows := x.setWidth 16, cols := y.setWidth 16 } }) s

/-! ### Fences and cache maintenance (R229 to R231) -/

/-- FENCE performs the context's earlier accesses and write-backs for the observers in its scope (R202): within the die, the die's
agents are shown its write-backs; within the package, they merge at their homes; and for the system, its stores to host memory reach the
host as well. -/
def execFence (scope : BitVec 2) (s : State) : Result :=
  gated .go (fun s =>
    let mine (wb : WriteBack) : Bool := s.sentFor s.ctx wb
    if scope = 0 then
      { s with writeBacks := s.writeBacks.map (fun wb => if mine wb && wb.src.isSome then { wb with fenced := setAdd wb.fenced s.ctx.die } else wb) }
    else if scope = 1 then s.mergeWhere (fun wb => mine wb && wb.src.isSome)
    else s.mergeWhere mine) s

/-- A + B beyond 2^56 (R230). -/
def checkRange (a b : Opnd) (cl : Claims) (s : State) : Verdict :=
  (checkSrcs [a, b] cl s).andThen
    (withPeek s cl a (fun x => withPeek s (cl.read a) b (fun y => trapIf (2 ^ 56 < x.toNat + y.toNat) 0x09 x)))

/-- The 128-byte lines that meet [a, a + b), and whether a virtual line is covered at all (R230). -/
def inRange (a b va : Nat) : Bool := b != 0 && decide (a / 128 ≤ va / 128) && decide (va / 128 ≤ (a + b - 1) / 128)

/-- The lines in the context's caches that a virtual range names: those of its software-managed lines whose page the
context may read (R231). Each 64 KiB page of the range is translated once for every line held. -/
def State.coveredLines (s : State) (c : Context) (a b : Nat) : List (CacheId × Nat) :=
  (s.swLines.filter (fun l =>
    (List.range ((a + b - 1) / 65536 - a / 65536 + 1)).any (fun i =>
      let page := (a / 65536 + i) * 65536
      match s.translate (memDieOf s.variant c.die) c.asid.toNat c.level page .load with
      | .error _ => false
      | .ok pa =>
        (List.range 512).any (fun j =>
          match s.place (pa + 128 * j) with
          | none => false
          | some p => p.cls == .software && p.pa / 128 == l.line && decide (page + 128 * j < bwin) && inRange a b (page + 128 * j) &&
              (s.pathOf c p.pa).contains l.cache)))).map (fun l => (l.cache, l.line))

/-- Sends the dirty bytes of a line home (R188, R231). -/
def State.sendBack (s : State) (owner : Option Nat) (k : CacheId × Nat) : State :=
  match s.swLine k.1 k.2 with
  | none => s
  | some l => if l.dirty = 0 then s else (s.sendDirty owner l).putSw { l with dirty := 0 }

def State.markStale (s : State) (k : CacheId × Nat) : State :=
  match s.swLine k.1 k.2 with
  | none => s
  | some l => s.putSw { l with stale := true }

def State.cwb (s : State) (a b : Nat) : State :=
  if b = 0 then s else (s.coveredLines s.src a b).foldl (fun s k => s.sendBack (some s.ctx.ctxid.toNat) k) s

def State.cinv (s : State) (a b : Nat) : State :=
  if b = 0 then s else (s.coveredLines s.src a b).foldl State.markStale s

/-- The lines covered are written back and then made stale. -/
def State.cflush (s : State) (a b : Nat) : State :=
  if b = 0 then s
  else
    let ks := s.coveredLines s.src a b
    ks.foldl State.markStale (ks.foldl (fun s k => s.sendBack (some s.ctx.ctxid.toNat) k) s)

/-- Reads the range and acts on it. -/
def rangeOp (a b : Opnd) (f : State → Nat → Nat → State) (s : State) : Result :=
  gated (checkRange a b .none s) (fun s =>
    let (x, s) := s.take a
    let (y, s) := s.take b
    f s x.toNat y.toNat) s

def execCwb (a b : Opnd) (s : State) : Result := rangeOp a b State.cwb s
def execCinv (a b : Opnd) (s : State) : Result := rangeOp a b State.cinv s
def execCflush (a b : Opnd) (s : State) : Result := rangeOp a b State.cflush s

/-! ### Breakpoint (R69) -/

/-- BKPT's trap, which falls after its bundle's last repeat (R69): the pc has then moved on. -/
def execBkpt (imm : BitVec 14) (s : State) : Result := .next (s.takeTrap 0x0E (imm.setWidth 64))

end Sys2Proof.Machine
end

