-- ==== Sys2Proof/Machine/Control.lean ====
section
/-! DEFINITION. The B slot (R71 to R87, R336): branches and their delay bundles, hardware loops, waits, barriers, software traps,
EXIT, RFT, CTXSW and HALT. A branch leaves its target and its two delay bundles in the context; the sequencer moves the pc when
a bundle is complete. -/

namespace Sys2Proof.Machine

/-! ### Fetching (R30) -/

/-- The bytes of `n` bundle bytes at a virtual address, or the fetch fault: the word that failed, or the poisoned word. -/
def State.fetchWord (s : State) (c : Context) (va : Nat) : Except Verdict Nat :=
  match s.locateN (c.who s.variant) va .fetch 4 with
  | .error (x, _) => .error (.trap x.cause (BitVec.ofNat 64 va))
  | .ok ls =>
    let bs := ls.map (s.loadByte c)
    if anyPoison bs then .error (.trap 0x0C (poisonInfo 5 va)) else .ok (numOf bs)

def State.fetchWords (s : State) (c : Context) (va : Nat) : Nat → Except Verdict (List Nat)
  | 0 => .ok []
  | n + 1 =>
    match s.fetchWord c va with
    | .error v => .error v
    | .ok w =>
      match s.fetchWords c (va + 4) n with
      | .error v => .error v
      | .ok ws => .ok (w :: ws)

/-- The address of the bundle after the one at `va`. A header that the bundle being issued has fetched is not fetched again after its S
slot has acted (R30). -/
def State.nextBundle (s : State) (c : Context) (va : Nat) : Except Verdict Nat :=
  match s.ahead.find? (fun x => x.1 == va) with
  | some x => .ok (va + x.2)
  | none =>
    match s.fetchWord c va with
    | .error v => .error v
    | .ok h => .ok (va + bundleLen h)

/-- The address `n` bundles further on. -/
def State.bundlesOn (s : State) (c : Context) (va : Nat) : Nat → Except Verdict Nat
  | 0 => .ok va
  | n + 1 =>
    match s.nextBundle c va with
    | .error v => .error v
    | .ok a => s.bundlesOn c a n

/-- The verdict of a fetch ahead: a fault traps before the bundle acts (R30). -/
def fetchCheck (r : Except Verdict Nat) : Verdict :=
  match r with
  | .error v => v
  | .ok _ => .go

/-- A 56-bit address that the spec does not state, for a branch not taken whose delay bundles cannot be fetched yet
(log entry 19). -/
def freeAddr (key : Nat) : Nat := ofLeBytes ((List.range 7).map (fun i => Config.freeByte key i))

/-- A 32-bit detail that the spec does not state (log entry 21). -/
def freeDetail (key : Nat) : Nat := ofLeBytes ((List.range 4).map (fun i => Config.freeByte key (64 + i)))

/-- The address that follows the second delay bundle of the bundle being issued (R73, R75). -/
def State.afterDelays (s : State) : Nat :=
  match s.bundlesOn s.src s.src.pc 3 with
  | .ok a => a
  | .error _ => freeAddr s.free

/-- What the fetch of `n` bytes of code from `va` on does to the caches and to the TLB (R174, R216). -/
def State.touchCode (s : State) (c : Context) (va n : Nat) : State :=
  match s.locateN (c.who s.variant) va .fetch n with
  | .error _ => s
  | .ok ls => (s.prepareAll c false ls).fillPages (c.who s.variant) va n

/-- What fetching the bundle at the pc does: the header first, then the words that it announces. -/
def State.fetchReady (s : State) : State :=
  let c := s.ctx
  if c.cur ≠ [] then s
  else
    let t := s.touchCode c c.pc 4
    match t.fetchWord c c.pc with
    | .error _ => t
    | .ok h => if bundleLen h ≤ 4 then t else t.touchCode c (c.pc + 4) (bundleLen h - 4)

/-! ### Checks common to the slot -/

/-- A B operation in a delay bundle (R21). -/
def checkDelay (s : State) : Verdict := trapIf (0 < s.src.dsc) 0x03 (slotInfo 1)

/-- Whether a branch's own bundle or one of its delay bundles is the one at `last`. Where the first delay bundle's header cannot be read,
the second may lie at any distance that a bundle can have, and a free value decides (log entry 19). -/
def State.branchMeets (s : State) (last : Nat) : Bool :=
  match s.nextBundle s.src s.src.pc with
  | .error _ => s.src.pc == last
  | .ok a =>
    s.src.pc == last || a == last || (match s.nextBundle s.src a with
      | .ok b => b == last
      | .error _ => decide (a < last) && decide (last ≤ a + 36) && Config.raceNew s.free)

/-- A branch whose own bundle or delay bundles end the innermost body (R75). -/
def checkBranchLoop (s : State) : Verdict :=
  match s.src.loops with
  | [] => .go
  | e :: _ => trapIf (s.branchMeets e.last = true) 0x02 (slotInfo 1)

def checkBranch (s : State) : Verdict := (checkDelay s).andThen (checkBranchLoop s)

/-- The target of a branch with an offset (R34, R73), modulo 2^64. -/
def State.branchTarget (s : State) (off : BitVec 22) : Word := BitVec.ofNat 64 s.src.pc + BitVec.ofInt 64 (4 * off.toInt)

/-- The pending target and its two delay bundles (R21). -/
def State.branchTo (s : State) (target : Word) : State := { s with ctx.dsc := 2, ctx.target := target, ctx.late := false }

/-- A branch not taken goes on after its delay bundles. Where their headers cannot be read yet, the address is found once they have been
issued; until then TBTGT would record `Config.lateTarget`, by which RFT knows it (R75, log entry 19). -/
def State.fallThrough (s : State) : State :=
  match s.bundlesOn s.src s.src.pc 3 with
  | .ok a => { s with ctx.dsc := 2, ctx.target := BitVec.ofNat 64 a, ctx.late := false }
  | .error _ => { s with ctx.dsc := 2, ctx.target := Config.lateTarget.setWidth 64, ctx.late := true }

/-! ### Branches -/

def execNopB (s : State) : Result := gated (checkDelay s) id s

/-- The pops of the S slot come first in a bundle; `before` is their number (R59). -/
def checkBr (before : Nat) (s : State) : Verdict := (checkBranch s).andThen (s.ctx.checkPop 1 before 1)

/-- BR.T and BR.F: taken when the head entry equals `want`. -/
def branchIf (want : Bool) (off : BitVec 22) (s : State) : Result :=
  gated (checkBr 0 s) (fun s =>
    let h := s.ctx.cqHead
    let s := s.setCtx (s.ctx.cqPop 1)
    if h = want then s.branchTo (s.branchTarget off) else s.fallThrough) s

def execBrT (off : BitVec 22) (s : State) : Result := branchIf true off s
def execBrF (off : BitVec 22) (s : State) : Result := branchIf false off s
def execJ (off : BitVec 22) (s : State) : Result := gated (checkBranch s) (fun s => s.branchTo (s.branchTarget off)) s

def checkJr (a : Opnd) (cl : Claims) (s : State) : Verdict := (checkBranch s).andThen (checkSrcs [a] cl s)

def execJr (a : Opnd) (s : State) : Result :=
  gated (checkJr a .none s) (fun s =>
    let (x, s) := s.take a
    s.branchTo x) s

/-- CALL and CALLR fetch the headers of their delay bundles ahead (R30, R73). -/
def checkCall (s : State) : Verdict := (fetchCheck (s.bundlesOn s.src s.src.pc 3)).andThen (checkBranch s)

/-- s46 receives the return address (R73). -/
def State.link (s : State) : State := s.setCtx (s.ctx.setReg 46 (BitVec.ofNat 64 s.afterDelays))

def execCall (off : BitVec 22) (s : State) : Result := gated (checkCall s) (fun s => s.link.branchTo (s.branchTarget off)) s

def checkCallr (a : Opnd) (cl : Claims) (s : State) : Verdict := (checkCall s).andThen (checkSrcs [a] cl s)

def execCallr (a : Opnd) (s : State) : Result :=
  gated (checkCallr a .none s) (fun s =>
    let (x, s) := s.take a
    s.link.branchTo x) s

def execRet (s : State) : Result := gated (checkBranch s) (fun s => s.branchTo (s.readReg 46)) s

/-! ### Hardware loops (R76 to R79) -/

/-- The end action of a body's last bundle at `a`, from the innermost entry out: where the next iteration begins, if one does, and
the stack after it (R17, R78). -/
def loopEnd (a : Nat) : List LoopEntry → Option Nat × List LoopEntry
  | [] => (none, [])
  | e :: r =>
    if e.last = a then
      if 0 < e.remain then (some e.first, { e with idx := e.idx + 1, remain := e.remain - 1 } :: r) else loopEnd a r
    else (none, e :: r)

/-- Where the sequencer goes when the bundle at `last` counts as completed (R76, R79). Its header is fetched whether or not an enclosing
iteration begins (R30). -/
def State.cascade (s : State) (last : Nat) (loops : List LoopEntry) : Except Verdict (Nat × List LoopEntry) :=
  match s.nextBundle s.src last with
  | .error v => .error v
  | .ok a =>
    match loopEnd last loops with
    | (some b, r) => .ok (b, r)
    | (none, r) => .ok (a, r)

def cascadeCheck (r : Except Verdict (Nat × List LoopEntry)) : Verdict :=
  match r with
  | .error v => v
  | .ok _ => .go

/-- The address of the body's last bundle (R34). -/
def State.loopLast (s : State) (last : BitVec 14) : Nat := s.src.pc + 4 * last.toNat

/-- The checks of a loop instruction with trip count `n` (R16, R76, R77). No rule orders them where several fail; the model takes the count
first, then the full stack, then the nesting (log entry 29). -/
def checkLoop (n : Nat) (last : BitVec 14) (s : State) : Verdict :=
  let e := s.loopLast last
  Verdict.all
    [if n = 0 then cascadeCheck (s.cascade e s.src.loops) else .go,
     checkDelay s,
     trapIf (2 ^ 32 ≤ n) 0x02 (slotInfo 1),
     trapIf (n ≠ 0 ∧ 6 ≤ s.src.loops.length) 0x12 (slotInfo 1),
     match s.src.loops with
     | [] => .go
     | x :: _ => trapIf (x.last < e) 0x02 (slotInfo 1)]

/-- Pushes an entry, or skips the body (R76). -/
def State.loopStart (s : State) (n : Nat) (last : BitVec 14) : State :=
  let e := s.loopLast last
  if n = 0 then
    match s.cascade e s.ctx.loops with
    | .error _ => s
    | .ok (a, r) => { s with ctx.loops := r, ctx.goto := some a }
  else
    let first := match s.nextBundle s.src s.src.pc with
      | .ok a => a
      | .error _ => freeAddr s.free
    { s with ctx.loops := { first := first, last := e, idx := 0, remain := n - 1 } :: s.ctx.loops }

def execLoop (cnt : BitVec 13) (last : BitVec 14) (s : State) : Result :=
  gated (checkLoop cnt.toNat last s) (fun s => s.loopStart cnt.toNat last) s

def checkLoopv (a : Opnd) (last : BitVec 14) (cl : Claims) (s : State) : Verdict :=
  (checkSrcs [a] cl s).andThen (withPeek s cl a (fun x => checkLoop x.toNat last s))

def execLoopv (a : Opnd) (last : BitVec 14) (s : State) : Result :=
  gated (checkLoopv a last .none s) (fun s =>
    let (x, s) := s.take a
    s.loopStart x.toNat last) s

/-- LOOPS needs a stream bound in delta mode (R76). -/
def checkDeltaMode (a : Opnd) (s : State) : Verdict :=
  match a with
  | .s _ => .trap 0x02 (slotInfo 1)
  | .q n =>
    let q := s.ctx.streams[n]
    if q.bind = .unbound then streamTrap 0 n.val
    else if q.bind = .binding then .hold
    else if q.delta then .go else streamTrap 6 n.val

def checkLoops (a : Opnd) (last : BitVec 14) (cl : Claims) (s : State) : Verdict := (checkDeltaMode a s).andThen (checkLoopv a last cl s)

def execLoops (a : Opnd) (last : BitVec 14) (s : State) : Result :=
  gated (checkLoops a last .none s) (fun s =>
    let (x, s) := s.take a
    s.loopStart x.toNat last) s

def checkLeave (s : State) : Verdict :=
  match s.src.loops with
  | [] => (checkDelay s).andThen (.trap 0x02 (slotInfo 1))
  | e :: r => (cascadeCheck (s.cascade e.last r)).andThen (checkDelay s)

def execLeave (s : State) : Result :=
  gated (checkLeave s) (fun s =>
    match s.ctx.loops with
    | [] => s
    | e :: r =>
      match s.cascade e.last r with
      | .error _ => s
      | .ok (a, l) => { s with ctx.loops := l, ctx.goto := some a }) s

/-! ### Dropping entries and waiting (R80 to R83) -/

def checkCqdrop (nm1 : BitVec 4) (before : Nat) (s : State) : Verdict :=
  (checkDelay s).andThen (s.ctx.checkPop 1 before (nm1.toNat + 1))

def execCqdrop (nm1 : BitVec 4) (s : State) : Result :=
  gated (checkCqdrop nm1 0 s) (fun s => s.setCtx (s.ctx.cqPop (nm1.toNat + 1))) s

def Context.ticket (c : Context) (k : BitVec 6) : Ticket := c.tickets[k.toFin]

/-- The trap of TKWAIT, as TINFO shows it (R81, R319). -/
def ticketInfo (t : Ticket) (k : BitVec 6) : Word :=
  BitVec.ofNat 64 (t.detail.toNat * 2 ^ 32 + t.status.toNat * 2 ^ 8 + k.toNat)

/-- Whether the command that produced a ticket asked for a trap and ended in error (R81). -/
def Ticket.traps (t : Ticket) : Bool := t.te && t.status != 0 && t.status != 5

def checkTkwait (k : BitVec 6) (s : State) : Verdict := (checkDelay s).andThen (holdIf ((s.src.ticket k).pending = true))

/-- The trap falls after the bundle acts, when the pc has moved on (R81). -/
def execTkwait (k : BitVec 6) (s : State) : Result :=
  gated (checkTkwait k s) (fun s => if (s.src.ticket k).traps then s.takeTrap 0x0B (ticketInfo (s.src.ticket k) k) else s) s

/-- The pipeline and the stage of a context. -/
def State.pipelineOf (s : State) (lnum : Nat) : Option Pipeline := s.pipelines.find? (·.lnum == lnum)
def State.stageOf (s : State) (c : Context) : Option Stage := (s.pipelineOf c.lnum).bind (fun p => p.stages[c.stage]?)

/-- Entries of a context's input queue. -/
def State.inputCount (s : State) (c : Context) : Nat := ((s.stageOf c).map (fun g => g.queue.length)).getD 0

def checkWaitq (s : State) : Verdict := (checkDelay s).andThen (holdIf (s.inputCount s.src = 0))

def execWaitq (s : State) : Result := gated (checkWaitq s) id s

def checkYield (s : State) : Verdict := (checkDelay s).andThen (holdIf (s.src.yielded = false))

/-- YIELD is held for one cycle, then acts as no operation (R83). -/
def execYield (s : State) : Result :=
  match checkYield s with
  | .go => .next { s with ctx.yielded := false }
  | .hold => .next { s.hold with ctx.yielded := true, ctx.landPoint := true }
  | .trap cause info => .next (s.takeTrap cause info)

/-! ### Barriers (R84, R85) -/

/-- A member that counts as having arrived everywhere: it has ended, its remaining work included (R84, R87). -/
def Context.arrivedForAll (c : Context) : Bool :=
  match c.status with
  | .ending _ => false
  | .ended _ => true
  | .absent => true
  | .ready => false
  | .running => false
  | .halted => false
  | .landed => false
  | .parked => false

/-- How far one arrival count is ahead of another. Counts differ by less than half their range. -/
def aheadBy (a b : BitVec 32) : Int := (a - b).toInt

/-- The counts of the brigade's other members for a slot, those only that still count. -/
def State.otherCounts (s : State) (slot : BitVec 3) : List (BitVec 32) :=
  ((s.others.filter (fun m => m.sameBrigade (s.ctx.who s.variant) && !m.arrivedForAll)).map (fun m => m.bars[slot.toFin]))

def checkBara (slot : BitVec 3) (s : State) : Verdict :=
  (checkDelay s).andThen (holdIf ((s.otherCounts slot).any (fun n => decide (255 < aheadBy (s.src.bars[slot.toFin] + 1) n)) = true))

/-- BARA arrives after every access that stands before it: where one of its own bundle still has a part to make, with that part (R85). -/
def execBara (slot : BitVec 3) (s : State) : Result :=
  gated (checkBara slot s) (fun s =>
    match s.ctx.half with
    | none => s.setCtx (s.ctx.arrive slot)
    | some h => { s with ctx.half := some { h with arrive := h.arrive ++ [slot] } }) s

def checkBarw (slot : BitVec 3) (s : State) : Verdict :=
  (checkDelay s).andThen (holdIf ((s.otherCounts slot).any (fun n => decide (0 < aheadBy s.src.bars[slot.toFin] n)) = true))

def execBarw (slot : BitVec 3) (s : State) : Result := gated (checkBarw slot s) id s

/-! ### Ending and calling out (R86, R87, R336) -/

/-- TRAP and SYS take their trap after their bundle acts (R86). -/
def execTrap (code : BitVec 16) (s : State) : Result := gated (checkDelay s) (fun s => s.takeTrap 0x10 (code.setWidth 64)) s
def execSys (code : BitVec 16) (s : State) : Result := gated (checkDelay s) (fun s => s.takeTrap 0x11 (code.setWidth 64)) s

def checkExit (a : Opnd) (cl : Claims) (s : State) : Verdict := (checkDelay s).andThen (checkSrcs [a] cl s)

/-- EXIT: the context stops issuing, and what it has under way drains (R87). -/
def execExit (a : Opnd) (s : State) : Result :=
  gated (checkExit a .none s) (fun s =>
    let (x, s) := s.take a
    { s.setCtx (s.ctx.stopFor (.exit (x.setWidth 32))) with ctx.exitVal := some (x.setWidth 32) }) s

/-- RFT checks TCAUSE.PL (R336). -/
def checkRft (s : State) : Verdict :=
  let pl := s.src.tcause.toNat / 256 % 4
  Verdict.all [privilegeTrap .supervisor s.src.level 1, checkDelay s, trapIf (pl = 2) 0x02 (slotInfo 1),
    trapIf (pl = 3 ∧ s.src.level = .supervisor) 0x04 (slotInfo 1)]

def execRft (s : State) : Result := gated (checkRft s) (fun s => s.setCtx (s.ctx.returnFromTrap s.src)) s

/-- A request lands at a context that stands at a landing point: it stops issuing once its results have landed, its queue is
filled, and no report and no trap is pending (R324). -/
def Context.land (c : Context) : Context :=
  let c := c.landAll.arriveAllFaggs
  if c.cqAllFilled && c.liveReports.isEmpty && c.liveFaults.isEmpty && c.trapDue.isNone then { c.dripLandAll with status := .landed, yielded := false } else c

/-- How strong a request is: one for a drain does what one for a switch is for, and a chain that CTXSAVE parks is drained. -/
def RequestKind.strength : RequestKind → Nat
  | .switch => 1
  | .drain => 2
  | .park _ _ _ _ => 3

def requestStrength (r : Option RequestKind) : Nat := (r.map RequestKind.strength).getD 0

/-- Asks every member of a chain for the same thing. A request as strong that is pending already stays (R338). -/
def State.requestChain (s : State) (c : Context) (k : RequestKind) : State :=
  mapCtxs s (fun m =>
    if m.lnum == c.lnum && m.stage == c.stage && m.inst == c.inst && m.rank / c.chainLen == c.rank / c.chainLen then
      (if k.strength ≤ requestStrength m.request then m else { m with request := some k }) else m)

def checkCtxsw (s : State) : Verdict := (privilegeTrap .supervisor s.src.level 1).andThen (checkDelay s)

/-- CTXSW: the boundary after the bundle is a landing point, and the whole chain is drained (R336). -/
def execCtxsw (s : State) : Result :=
  gated (checkCtxsw s) (fun s =>
    let s := s.requestChain s.ctx .drain
    s.setCtx ({ s.ctx with landPoint := true }.land)) s

def checkHalt (s : State) : Verdict := (privilegeTrap .firmware s.src.level 1).andThen (checkDelay s)

/-- HALT: the context stops issuing with steps 1 to 3 of R87; its state stays, and its watchdog stops (R336). -/
def execHalt (s : State) : Result :=
  gated (checkHalt s) (fun s => s.setCtx { s.ctx.quiesce with status := .halted, cq := [] }) s

end Sys2Proof.Machine
end

