-- ==== Sys2Proof/Machine/Tensor.lean ====
section
/-! DEFINITION. Tensors (R218 to R225): handles, shape records and the record cache, the layout unit, and the reading and
writing of elements by an engine command, for the row-major and the tiled layouts. -/

namespace Sys2Proof.Machine

/-! ### Shape records (R218 to R220) -/

/-- Coordinates, or extents, of dimensions 0 to 4. -/
structure Coord where
  c0 : Nat
  c1 : Nat
  c2 : Nat
  c3 : Nat
  c4 : Nat
  deriving DecidableEq, Repr

def Coord.add (a b : Coord) : Coord := ⟨a.c0 + b.c0, a.c1 + b.c1, a.c2 + b.c2, a.c3 + b.c3, a.c4 + b.c4⟩

structure Shape where
  code : Nat
  rank : Nat
  layout : Nat
  zmapen : Bool
  tlog0 : Nat
  tlog1 : Nat
  nmm : Nat
  nm1 : Nat
  scen : Bool
  slogw : Nat
  slogh : Nat
  sch : Nat
  base : Nat
  ext : Coord
  str : Coord
  gen : Nat
  deriving DecidableEq, Repr

/-- The fields of R219. -/
def Shape.ofBits (w : BitVec 1024) : Shape :=
  let r := w.toNat
  { code := fld r 15 6, rank := fld r 21 3, layout := fld r 24 3, zmapen := fld r 27 1 == 1, tlog0 := fld r 32 4, tlog1 := fld r 36 4,
    nmm := fld r 40 2, nm1 := fld r 42 5, scen := fld r 87 1 == 1, slogw := fld r 83 4, slogh := fld r 80 3, sch := fld r 48 32,
    base := fld r 128 64,
    ext := ⟨fld r 192 32, fld r 224 32, fld r 256 32, fld r 288 32, fld r 320 32⟩,
    str := ⟨0, fld r 352 64, fld r 416 64, fld r 480 64, fld r 544 64⟩, gen := fld r 0 12 }

def Shape.width (h : Shape) : Nat := fmtWidth h.code

/-- An extent that R220 admits in dimension `i`. -/
def extOk (rank i e : Nat) : Bool := if i < rank then e != 0 else e == 1

/-- A malformed record (R220). An N above M is a reserved value (R38). -/
def recMalformed (w : BitVec 1024) : Bool :=
  let r := w.toNat
  let h := Shape.ofBits w
  fld r 608 416 != 0 || fld r 88 40 != 0 || fld r 47 1 != 0 || fld r 28 4 != 0 || fld r 12 3 != 0 ||
  h.width == 0 || h.rank == 0 || decide (5 < h.rank) || decide (3 < h.layout) || decide (2 ^ 56 ≤ h.base) ||
  !(extOk h.rank 0 h.ext.c0 && extOk h.rank 1 h.ext.c1 && extOk h.rank 2 h.ext.c2 && extOk h.rank 3 h.ext.c3 && extOk h.rank 4 h.ext.c4) ||
  (if h.layout = 0 then h.tlog0 != 0 || h.tlog1 != 0
   else 2 ^ (h.tlog0 + h.tlog1) * h.width != 32768 || !(h.str == ⟨0, 0, 0, 0, 0⟩)) ||
  (h.scen && (!isBinary8 h.code || !(2 ≤ h.slogw && h.slogw ≤ 7) || (h.slogw ≤ 6 && h.slogh + h.slogw != 6) || h.slogh == 7)) ||
  (if h.layout = 2 then decide (4 * 2 ^ h.nmm < h.nm1 + 1) else h.nmm != 0 || h.nm1 != 0)

/-! ### The record cache (R223, R224) -/

/-- Why a record cannot be used: a status and its detail. -/
abbrev Failure := Nat × Nat

/-- Poisoned 64-byte units among bytes read from an address (R239). -/
def poisonedUnits (va : Nat) (bs : List (Byte × Bool)) : List Nat :=
  (bs.zipIdx.filter (fun x => x.1.2)).foldl (fun l x => setAdd l ((va + x.2) / 64)) []

/-- Reads a record from memory as a coherent reader. -/
def State.recordFromMemory (s : State) (w : Who) (va : Nat) : Except Failure (BitVec 1024) :=
  match s.engineRead w va 128 with
  | .error (_, a) => .error (3, a % 2 ^ 32)
  | .ok bs => if anyPoison bs then .error (6, (poisonedUnits va bs).length) else .ok (BitVec.ofNat 1024 (numOf bs))

/-- A record through the record cache of compute die `die`: at a command's issue a cached copy that differs from memory is used or
not, as `Config.useOld` says (R224, log entry 4); at a tile check the cached copy is used (R223, R291). -/
def State.readRecord (s : State) (atIssue : Bool) (die : Nat) (w : Who) (va : Nat) : Except Failure (BitVec 1024) × State :=
  let now := s.recordFromMemory w va
  let kept := s.recCache.filter (fun r => !(r.die == die && r.asid == w.asid && r.va == va))
  let keep (b : BitVec 1024) : State :=
    { s.engineTouch w va 128 with recCache := { die := die, asid := w.asid, va := va, bits := b } :: kept }
  match s.recCache.find? (fun r => r.die == die && r.asid == w.asid && r.va == va), now with
  | some r, .ok b => if !atIssue || r.bits == b || Config.useOld (s.free * 2 ^ 56 + va) then (.ok r.bits, s) else (.ok b, keep b)
  | some r, .error f => if !atIssue || Config.useOld (s.free * 2 ^ 56 + va) then (.ok r.bits, s) else (.error f, { s with recCache := kept })
  | none, .ok b => (.ok b, keep b)
  | none, .error f => (.error f, s)

/-- The address of a handle's record (R218). -/
def recordAddr (ttbase handle : Nat) : Nat := ttbase % 2 ^ 56 / 128 * 128 + 128 * (handle % 2 ^ 20)

def handleGen (handle : Nat) : Nat := handle / 2 ^ 20 % 2 ^ 12

/-- The checks of R223 on the handle at operand position `pos`, its scale record with it. -/
def State.checkHandle (s : State) (die : Nat) (w : Who) (ttbase pos handle : Nat) :
    Except Failure (BitVec 1024 × Option (BitVec 1024)) × State :=
  match s.readRecord true die w (recordAddr ttbase handle) with
  | (.error f, s) => (.error f, s)
  | (.ok b, s) =>
    let h := Shape.ofBits b
    if h.gen ≠ handleGen handle ∨ recMalformed b = true then (.error (1, pos), s)
    else if h.scen then
      match s.readRecord true die w (recordAddr ttbase h.sch) with
      | (.error f, s) => (.error f, s)
      | (.ok b', s) =>
        let h' := Shape.ofBits b'
        if h'.gen ≠ handleGen h.sch ∨ recMalformed b' = true ∨ h'.code ≠ 1 then (.error (1, pos), s) else (.ok (b, some b'), s)
    else (.ok (b, none), s)

/-! ### The layout unit (R221, R222) -/

def Shape.inside (h : Shape) (c : Coord) : Bool :=
  decide (c.c0 < h.ext.c0) && decide (c.c1 < h.ext.c1) && decide (c.c2 < h.ext.c2) && decide (c.c3 < h.ext.c3) && decide (c.c4 < h.ext.c4)

/-- Tiles in dimensions 0 and 1. -/
def Shape.t0 (h : Shape) : Nat := (h.ext.c0 + 2 ^ h.tlog0 - 1) / 2 ^ h.tlog0
def Shape.t1 (h : Shape) : Nat := (h.ext.c1 + 2 ^ h.tlog1 - 1) / 2 ^ h.tlog1

/-- The tensor's tile count (R254). -/
def Shape.tileCount (h : Shape) : Nat := h.t0 * (h.t1 * (h.ext.c2 * (h.ext.c3 * h.ext.c4)))

/-- The tile number of coordinates. -/
def Shape.tileNo (h : Shape) (c : Coord) : Nat :=
  c.c0 / 2 ^ h.tlog0 + h.t0 * (c.c1 / 2 ^ h.tlog1 + h.t1 * (c.c2 + h.ext.c2 * (c.c3 + h.ext.c3 * c.c4)))

/-- The element's number within its tile, dimension 0 fastest. -/
def Shape.tilePos (h : Shape) (c : Coord) : Nat := c.c1 % 2 ^ h.tlog1 * 2 ^ h.tlog0 + c.c0 % 2 ^ h.tlog0

/-- Elements of a tile. -/
def Shape.tileElems (h : Shape) : Nat := 32768 / h.width

/-- The byte address and the bit within the byte of an element inside the extents, in layouts 0 and 1. R221 gives the modulus 2^64 for
row-major addresses; the model takes it for tiled and packed ones too (log entry 71). -/
def Shape.bitAddr (h : Shape) (c : Coord) : Nat × Nat :=
  let bits := if h.layout = 0 then c.c0 * h.width else h.tilePos c * h.width
  let byte :=
    if h.layout = 0 then h.base + bits / 8 + c.c1 * h.str.c1 + c.c2 * h.str.c2 + c.c3 * h.str.c3 + c.c4 * h.str.c4
    else h.base + 4096 * h.tileNo c + bits / 8
  (byte % 2 ^ 64, bits % 8)

/-! ### Bytes of memory for a command -/

/-- A command at work on the module. -/
structure Job where
  s : State
  c : EngCmd
  deriving DecidableEq, Repr

/-- Who makes a command's accesses: its context, with the address space and the level of its issue (R223). -/
def Job.who (j : Job) : Who := { j.s.ctx.who j.s.variant with asid := j.c.asid, level := j.c.level }

/-- Marks a 64 KiB frame as touched and not resident (R239). -/
def Job.missed (j : Job) (va : Nat) : Job := { j with c.miss := setAdd j.c.miss (va / 65536) }

/-- A byte as an engine reads it: poison mark, whether its page is not resident, whether its zero-map flag is set. -/
structure EByte where
  byte : Byte
  poi : Bool
  res : Bool
  flag : Bool
  deriving DecidableEq, Repr

/-- Whether a byte lies in a flagged tile of a zero-mapped region. -/
def State.flagged (s : State) : Loc → Bool
  | .scratch _ _ => false
  | .mem p => p.zmap && s.zflags.contains (tileOf p.key)
  | .backing p _ => p.zmap && s.zflags.contains (tileOf p.key)
  | .lost _ _ => false

/-- Reads one byte (R225); the error is the faulting address. The read leaves a copy and a translation behind (R183, R216). -/
def Job.readByte (j : Job) (va : Nat) : Except Nat (EByte × Job) :=
  match j.s.locate j.who va .load with
  | .error .fault => .error va
  | .error .nonResident => .ok ({ byte := 0, poi := false, res := true, flag := false }, j.missed va)
  | .ok l =>
    let (b, p) := j.s.engineByte j.who l
    .ok ({ byte := b, poi := p, res := false, flag := j.s.flagged l },
      { j with s := ((j.s.engineReady j.who l).fillPages j.who va 1).synchronise [l] })

def Job.readRun (j : Job) (va : Nat) : Nat → Except Nat (List EByte × Job)
  | 0 => .ok ([], j)
  | n + 1 =>
    match j.readByte va with
    | .error a => .error a
    | .ok (b, j) =>
      match j.readRun ((va + 1) % 2 ^ 64) n with
      | .error a => .error a
      | .ok (r, j) => .ok (b :: r, j)

/-- Whether `n` bytes lie outside the window or in one slot of it (R180). -/
def oneSlot (va n : Nat) : Bool := windowSlot va == windowSlot (va + (n - 1))

def Job.readBytes (j : Job) (va n : Nat) : Except Nat (List EByte × Job) := if oneSlot va n then j.readRun va n else .error va

/-- Records what a command has written to a byte of a zero-mapped tile (R189). -/
def zeroedAdd (l : List (Nat × Nat)) (key : Nat) (zero : Bool) : List (Nat × Nat) :=
  let t := tileOf key
  let old := ((l.find? (·.1 == t)).map Prod.snd).getD 0
  let bit := 2 ^ (key % 4096)
  (t, if zero then old ||| bit else old - (old &&& bit)) :: l.filter (·.1 != t)

/-- What a command knows of the zeros it has written to the tile of a byte: a clear that its own write asks for voids what came
before it (R189). -/
def Job.noteZero (j : Job) (p : Place) (zero : Bool) : EngCmd :=
  if p.zmap then
    let k := if j.s.zflags.contains (tileOf p.key) then j.c.clearAsked (tileOf p.key) else j.c
    { k with zeroed := zeroedAdd k.zeroed p.key zero }
  else j.c

def Job.noteByte (j : Job) (zero : Bool) : Loc → EngCmd
  | .mem p => j.noteZero p zero
  | .backing p _ => j.noteZero p zero
  | .scratch _ _ => j.c
  | .lost _ _ => j.c

/-- The bytes that a command has yet to write, but for one place. -/
def EngCmd.outBut (k : EngCmd) (l : Loc) : List (Loc × Byte × Bool) := k.out.filter (fun x => x.1 != l)

/-- One byte of a transfer, written now, or later where the event says so (R194). -/
def Job.emit (j : Job) (l : Loc) (b : Byte) (poi : Bool) : Job :=
  if j.c.later % 2 = 1 then { j with c := { j.c with later := j.c.later / 2, out := j.c.outBut l ++ [(l, b, poi)] } }
  else
    let k := j.noteByte (b == 0 && !poi) l
    { s := j.s.enginePut j.who b poi l, c := { k with later := k.later / 2, out := k.outBut l } }

/-- What a byte holds, or will hold once the command's own bytes are written. -/
def Job.ownByte (j : Job) (l : Loc) : Byte × Bool := ((j.c.out.find? (fun x => x.1 == l)).map Prod.snd).getD (j.s.engineByte j.who l)

/-- Writes one byte; a byte of a page that is not resident is left (R225). -/
def Job.writeByte (j : Job) (va : Nat) (b : Byte) (poi : Bool) : Except Nat Job :=
  match j.s.locate j.who va .store with
  | .error .fault => .error va
  | .error .nonResident => .ok (j.missed va)
  | .ok l =>
    let j := { j with s := j.s.fillPages j.who va 1, c := { j.c with units := if poi then setAdd j.c.units (va / 64) else j.c.units } }
    .ok (j.emit l b poi)

def Job.writeRun (j : Job) (va : Nat) : List (Byte × Bool) → Except Nat Job
  | [] => .ok j
  | (b, p) :: r =>
    match j.writeByte va b p with
    | .error a => .error a
    | .ok j => j.writeRun ((va + 1) % 2 ^ 64) r

def Job.writeBytes (j : Job) (va : Nat) (l : List (Byte × Bool)) : Except Nat Job :=
  if oneSlot va l.length then j.writeRun va l else .error va

/-- The home takes every token of the 32 lines of the tile of a placed byte (R368). -/
def State.gatherTile (s : State) (p : Place) : State :=
  (List.range 32).foldl (fun s i => s.gatherHome { p with pa := p.pa / 4096 * 4096 + 128 * i, key := p.key / 4096 * 4096 + 128 * i }) s

/-- Every byte of the tile of a placed byte becomes zero and unpoisoned, and its flag is set (R189, R368); the bitmap records it
(R217). -/
def State.setFlag (s : State) (p : Place) : State :=
  let t := tileOf p.key
  { (s.gatherTile p).zeroKeys (4096 * t) 4096 with zflags := setAdd s.zflags t, zflagErr := setDel s.zflagErr t }.setDirty (4096 * t)

/-- Whether a tile holds zero throughout. -/
def State.tileZero (s : State) (tile : Nat) : Bool :=
  s.mem.all (fun c => tileOf c.1 != tile) && s.pois.all (fun k => tileOf k != tile)

/-- The store path: where the command has written zeros to every byte of a tile, the home gathers the tile's tokens, looks, and sets
the flag if the tile is zero (R189, R368). -/
def Job.storePath (j : Job) : Job :=
  if j.c.out ≠ [] then j
  else
    j.c.zeroed.foldl (fun j t =>
      if t.2 = 2 ^ 4096 - 1 then
        match j.s.placeOfKey (4096 * t.1) with
        | none => j
        | some p =>
          { s := if j.s.tileZero t.1 then j.s.setFlag p else j.s.gatherTile p, c := { j.c with zeroed := j.c.zeroed.filter (·.1 != t.1) } }
      else j) j

/-- Bytes left for later are written, in their order, but for those that `later` names (R194). -/
def Job.flushOut (j : Job) : Job :=
  (j.c.out.foldl (fun (j : Job) x => j.emit x.1 x.2.1 x.2.2) { j with c.out := [] }).storePath

/-! ### Elements -/

/-- An element read or to be written: its bits, and the poison and not-resident marks of its bytes (one mark for an element
smaller than a byte). `flag`: it comes from a flagged tile. -/
structure Elem where
  val : Nat
  poi : Nat
  res : Nat
  flag : Bool
  deriving DecidableEq, Repr

def Elem.zero : Elem := { val := 0, poi := 0, res := 0, flag := false }

/-- Bytes that an element of width `w` covers. -/
def elemBytes (w : Nat) : Nat := (w + 7) / 8

def marks (l : List Bool) : Nat := (l.zipIdx.map (fun x => if x.1 then 2 ^ x.2 else 0)).sum

/-- The element at bit `shift` of the byte at `va`. Where only some of its bytes lie on a non-resident page, those alone are zeros marked
RES (log entry 72). -/
def Job.readAt (j : Job) (va shift w : Nat) : Except Nat (Elem × Job) :=
  match j.readBytes va (elemBytes w) with
  | .error a => .error a
  | .ok (bs, j) =>
    .ok ({ val := ofLeBytes (bs.map (·.byte)) / 2 ^ shift % 2 ^ w, poi := marks (bs.map (·.poi)), res := marks (bs.map (·.res)),
           flag := bs.all (·.flag) }, j)

/-- The bytes of an element with their marks. -/
def Elem.bytes (e : Elem) (w : Nat) : List (Byte × Bool) :=
  (List.range (elemBytes w)).map (fun i => (BitVec.ofNat 8 (e.val / 2 ^ (8 * i)), e.poi / 2 ^ i % 2 == 1))

/-- Writes an element at bit `shift` of the byte at `va`. An element smaller than a byte leaves the byte's other bits, and a mark
of theirs, as they are (R110, R320). -/
def Job.writeAt (j : Job) (va shift w : Nat) (e : Elem) : Except Nat Job :=
  if 8 ≤ w then j.writeBytes va (e.bytes w)
  else
    match j.s.locate j.who va .store with
    | .error .fault => .error va
    | .error .nonResident => .ok (j.missed va)
    | .ok l =>
      let (b, p) := j.ownByte l
      let v := b.toNat - b.toNat / 2 ^ shift % 2 ^ w * 2 ^ shift + e.val * 2 ^ shift
      j.writeByte va (BitVec.ofNat 8 v) (p || e.poi != 0)

end Sys2Proof.Machine
end

