-- ==== Sys2Proof/Machine/Packed.lean ====
section
/-! DEFINITION. The packed tile formats (R252 to R256, R273): expanding and writing bitmask-packed and N:M-packed tiles, and the
reading of elements in every layout. -/

namespace Sys2Proof.Machine

def inHatchOp : Instr → Bool
  | .hload _ => true
  | .hgath _ => true
  | .hldz _ => true
  | _ => false

/-! ### Bitmask-plus-values (R252 to R254) -/

/-- Number of ones among the first `n` bits of a byte list. -/
def onesBelow (bytes : List Byte) (n : Nat) : Nat := ((List.range n).filter (fun i => (bytes.getD (i / 8) 0).getLsbD (i % 8))).length

/-- The bytes of a bitmask for `n` elements (R252). -/
def maskBytes (n : Nat) : Nat := 8 * ((n + 63) / 64)

/-- The checks of R253 on a header and bitmask: NNZ counts the ones of the whole bitmask part, its padding too (R252). -/
def headerOk (code : Nat) (bs : List Byte) : Bool :=
  ofLeBytes (bs.take 4) == onesBelow (bs.drop 8) (8 * (bs.length - 8)) && (bs.getD 4 0).toNat % 64 == code

/-- A poisoned zero of width `w` (R128). -/
def Elem.bad (w : Nat) : Elem := { val := 0, poi := 2 ^ elemBytes w - 1, res := 0, flag := false }

/-- A zero of a page that is not resident (R225). -/
def Elem.absent (w : Nat) : Elem := { val := 0, poi := 0, res := 2 ^ elemBytes w - 1, flag := false }

/-- A load meets a fault of metadata: status 6, with the poisoned units read, each counted once (R239, R253). A command that writes
memory meets it in what it writes. -/
def Job.metaFault (j : Job) (va : Nat) (bs : List EByte) : Job :=
  if inHatchOp j.c.op then
    { j with c.met6 := true, c.units := (poisonedUnits va (bs.map (fun b => (b.byte, b.poi)))).foldl setAdd j.c.units }
  else j

/-- Whether the bytes of a tile's own slot lie in flagged zero-map tiles (R191). -/
def Job.slotFlagged (j : Job) (h : Shape) (n : Nat) : Bool :=
  let flag (va : Nat) : Bool := match j.s.locate j.who va .load with
    | .error _ => false
    | .ok l => j.s.flagged l
  flag ((h.base + 4096 * n) % 2 ^ 64) && flag ((h.base + 4096 * n + 4095) % 2 ^ 64)

/-- The address of tile `n`'s header and bitmask (R254). -/
def Shape.maskAddr (h : Shape) (n : Nat) : Nat := (h.base + 4096 * h.tileCount + n * (8 + h.tileElems / 8)) % 2 ^ 64

/-- The elements `k` on of a values part, in order, for the bits of a bitmask; `flag` says whether an omitted element counts as one
of a flagged tile. -/
def Job.expand (j : Job) (va w k : Nat) (flag : Bool) : List Bool → Except Nat (List Elem × Job)
  | [] => .ok ([], j)
  | false :: r =>
    match j.expand va w k flag r with
    | .error a => .error a
    | .ok (l, j) => .ok ({ Elem.zero with flag := flag } :: l, j)
  | true :: r =>
    match j.readAt ((va + k * w / 8) % 2 ^ 64) (k * w % 8) w with
    | .error a => .error a
    | .ok (e, j) =>
      match j.expand va w (k + 1) flag r with
      | .error a => .error a
      | .ok (l, j) => .ok (e :: l, j)

def bitmask (bytes : List Byte) (n : Nat) : List Bool := (List.range n).map (fun i => (bytes.getD (i / 8) 0).getLsbD (i % 8))

/-- Every element of a bitmask-packed tile. -/
def Job.readTile3 (j : Job) (h : Shape) (n : Nat) : Except Nat (List Elem × Job) :=
  let w := h.width
  let count := h.tileElems
  match j.readBytes (h.maskAddr n) (8 + count / 8) with
  | .error a => .error a
  | .ok (hd, j) =>
    let bs := hd.map (·.byte)
    if hd.any (·.res) then .ok (List.replicate count (Elem.absent w), j)
    else if hd.any (·.poi) || !headerOk h.code bs then .ok (List.replicate count (Elem.bad w), j.metaFault (h.maskAddr n) hd)
    else j.expand ((h.base + 4096 * n) % 2 ^ 64) w 0 (j.slotFlagged h n) (bitmask (bs.drop 8) count)

/-- An element that R252 keeps. -/
def Elem.kept (e : Elem) : Bool := e.val != 0 || e.poi != 0

def packByte (w i : Nat) (l : List Elem) : Byte × Bool :=
  if 8 ≤ w then
    let e := l.getD (8 * i / w) Elem.zero
    let k := i - 8 * i / w * (w / 8)
    (BitVec.ofNat 8 (e.val / 2 ^ (8 * k)), e.poi / 2 ^ k % 2 == 1)
  else
    let es := (List.range (8 / w)).map (fun k => (k, l.getD (8 / w * i + k) Elem.zero))
    (BitVec.ofNat 8 ((es.map (fun x => x.2.val * 2 ^ (w * x.1))).sum), es.any (fun x => x.2.poi != 0))

/-- Elements packed as R110 lays down, in `bytes` bytes padded with zero. -/
def packElems (w bytes : Nat) (l : List Elem) : List (Byte × Bool) := (List.range bytes).map (fun i => packByte w i l)

/-- The header and the bitmask of a record (R252). -/
def recordHead (code : Nat) (l : List Elem) : List (Byte × Bool) :=
  let nnz := (l.filter Elem.kept).length
  let mask := (l.zipIdx.map (fun x => if x.1.kept then 2 ^ x.2 else 0)).sum
  (leBytes 4 nnz ++ [BitVec.ofNat 8 code, 0, 0, 0] ++ leBytes (maskBytes l.length) mask).map (fun b => (b, false))

/-- The values part of a record. -/
def recordValues (w : Nat) (l : List Elem) : List (Byte × Bool) :=
  let ks := l.filter Elem.kept
  packElems w (8 * ((ks.length * w + 63) / 64)) ks

/-- Both planes of a bitmask-packed tile are written (R254). -/
def Job.writeTile3 (j : Job) (h : Shape) (n : Nat) (l : List Elem) : Except Nat Job :=
  match j.writeBytes ((h.base + 4096 * n) % 2 ^ 64) (recordValues h.width l) with
  | .error a => .error a
  | .ok j => j.writeBytes (h.maskAddr n) (recordHead h.code l)

/-! ### N:M-packed tiles (R255, R256, R273) -/

def Shape.patM (h : Shape) : Nat := 4 * 2 ^ h.nmm
def Shape.patN (h : Shape) : Nat := h.nm1 + 1

/-- Slots of a tile. -/
def Shape.slots (h : Shape) : Nat := h.patN * (h.tileElems / h.patM)

/-- The address of the index byte of slot `k` of tile `n`. -/
def Shape.indexAddr (h : Shape) (n k : Nat) : Nat := (h.base + 4096 * h.tileCount + n * h.slots + k) % 2 ^ 64

/-- The index bytes of a group. -/
def Job.readIndex (j : Job) (h : Shape) (n q : Nat) : Except Nat (List EByte × Job) := j.readBytes (h.indexAddr n (q * h.patN)) h.patN

/-- A poisoned or a reserved index byte (R255, R256). -/
def indexBad (h : Shape) (b : EByte) : Bool := b.poi || !(b.byte.toNat == 0x1F || decide (b.byte.toNat < h.patM))

/-- The value of slot `k` of tile `n`. -/
def Job.readSlot (j : Job) (h : Shape) (n k : Nat) : Except Nat (Elem × Job) :=
  j.readAt ((h.base + 4096 * n + k * h.width / 8) % 2 ^ 64) (k * h.width % 8) h.width

/-- The element at position `p` of tile `n`, expanded. -/
def Job.readElem2 (j : Job) (h : Shape) (n p : Nat) : Except Nat (Elem × Job) :=
  let q := p / h.patM
  match j.readIndex h n q with
  | .error a => .error a
  | .ok (ix, j) =>
    if ix.any (·.res) then .ok (Elem.absent h.width, j)
    else if ix.any (indexBad h) then .ok (Elem.bad h.width, j.metaFault (h.indexAddr n (q * h.patN)) ix)
    else
      match ix.findIdx? (fun b => b.byte.toNat != 0x1F && b.byte.toNat == p % h.patM) with
      | none => .ok ({ Elem.zero with flag := j.slotFlagged h n }, j)
      | some k => j.readSlot h n (q * h.patN + k)

def Job.readList2 (j : Job) (h : Shape) (n : Nat) : List Nat → Except Nat (List Elem × Job)
  | [] => .ok ([], j)
  | p :: r =>
    match j.readElem2 h n p with
    | .error a => .error a
    | .ok (e, j) =>
      match j.readList2 h n r with
      | .error a => .error a
      | .ok (l, j) => .ok (e :: l, j)

/-- The rank by magnitude of R273: poison first, then NaN, then numbers. -/
def elemRank (code : Nat) (e : Elem) : Nat :=
  if e.poi ≠ 0 then 2 ^ 41
  else
    match fmtOf code with
    | none => 0
    | some (.int f) => (f.value e.val).natAbs
    | some (.flt f) =>
      match f.value e.val with
      | .nan => 2 ^ 40
      | .inf _ => e.val % 2 ^ (f.width - (if f.signed then 1 else 0))
      | .fin _ _ _ => e.val % 2 ^ (f.width - (if f.signed then 1 else 0))

/-- The positions that a group keeps: at most N, of greatest magnitude, the lower position first among equals; an element whose
bits are all zero needs no slot. -/
def keptPositions (code n : Nat) (l : List Elem) : List Nat :=
  let xs := (l.zipIdx.filter (fun x => x.1.kept)).map (fun x => (elemRank code x.1, x.2))
  (xs.filter (fun x => decide ((xs.filter (fun y => decide (x.1 < y.1) || (x.1 == y.1 && decide (y.2 < x.2)))).length < n))).map Prod.snd

/-- A group's slots: index byte and value, ascending, empty ones last. Position 31 of a group of 32 has no index (R255), so its
slot stays empty. -/
def groupSlots (h : Shape) (l : List Elem) : List (Nat × Elem) :=
  let ks := (keptPositions h.code h.patN l).filter (· != 31)
  ks.map (fun p => (p, l.getD p Elem.zero)) ++ List.replicate (h.patN - ks.length) (0x1F, Elem.zero)

/-- Both planes of an N:M-packed tile are written, each group pruned (R273). -/
def Job.writeTile2 (j : Job) (h : Shape) (n : Nat) (l : List Elem) : Except Nat Job :=
  let sl := (List.range (h.tileElems / h.patM)).flatMap (fun q => groupSlots h (((l.drop (q * h.patM)).take h.patM)))
  match j.writeBytes ((h.base + 4096 * n) % 2 ^ 64) (packElems h.width ((sl.length * h.width + 7) / 8) (sl.map Prod.snd)) with
  | .error a => .error a
  | .ok j => j.writeBytes (h.indexAddr n 0) (sl.map (fun x => (BitVec.ofNat 8 x.1, false)))

/-! ### Any layout -/

def Job.readTile (j : Job) (h : Shape) (n : Nat) : Except Nat (List Elem × Job) :=
  if h.layout = 3 then j.readTile3 h n else j.readList2 h n (List.range h.tileElems)

/-- Expanded tiles by number. -/
abbrev Tiles := List (Nat × List Elem)

/-- An element counts as one of a flagged tile where its record lets the zero map be used (R219). -/
def Elem.ofMap (e : Elem) (h : Shape) : Elem := { e with flag := e.flag && h.zmapen }

/-- The elements at coordinates, in order; one beyond the extents is zero (R222). Bitmask-packed tiles are expanded once. -/
def Job.readElems (j : Job) (h : Shape) (ts : Tiles) : List Coord → Except Nat (List Elem × Job)
  | [] => .ok ([], j)
  | c :: r =>
    if !h.inside c then
      match j.readElems h ts r with
      | .error a => .error a
      | .ok (l, j) => .ok (Elem.zero :: l, j)
    else if h.layout = 3 then
      match ts.find? (·.1 == h.tileNo c) with
      | some t =>
        match j.readElems h ts r with
        | .error a => .error a
        | .ok (l, j) => .ok ((t.2.getD (h.tilePos c) Elem.zero).ofMap h :: l, j)
      | none =>
        match j.readTile3 h (h.tileNo c) with
        | .error a => .error a
        | .ok (es, j) =>
          match j.readElems h ((h.tileNo c, es) :: ts) r with
          | .error a => .error a
          | .ok (l, j) => .ok ((es.getD (h.tilePos c) Elem.zero).ofMap h :: l, j)
    else
      match (if h.layout = 2 then j.readElem2 h (h.tileNo c) (h.tilePos c) else j.readAt (h.bitAddr c).1 (h.bitAddr c).2 h.width) with
      | .error a => .error a
      | .ok (e, j) =>
        match j.readElems h ts r with
        | .error a => .error a
        | .ok (l, j) => .ok (e.ofMap h :: l, j)

/-- Elements written at coordinates of a row-major or tiled tensor, in order; one beyond the extents is discarded. -/
def Job.writeElems (j : Job) (h : Shape) : List (Coord × Elem) → Except Nat Job
  | [] => .ok j
  | (c, e) :: r =>
    if !h.inside c then j.writeElems h r
    else
      match j.writeAt (h.bitAddr c).1 (h.bitAddr c).2 h.width e with
      | .error a => .error a
      | .ok j => j.writeElems h r

/-- Elements written into one packed tile, which keeps its other elements. The last of several writes to one place remains. -/
def Job.writePacked (j : Job) (h : Shape) (n : Nat) (l : List (Coord × Elem)) : Except Nat Job :=
  let mine := ((l.filter (fun x => h.inside x.1 && h.tileNo x.1 == n)).map (fun x => (h.tilePos x.1, x.2))).reverse
  let old := if (List.range h.tileElems).all (fun p => mine.any (·.1 == p)) then .ok (List.replicate h.tileElems Elem.zero, j) else j.readTile h n
  match old with
  | .error a => .error a
  | .ok (es, j) =>
    let es := es.zipIdx.map (fun x => ((mine.find? (·.1 == x.2)).map Prod.snd).getD x.1)
    if h.layout = 3 then j.writeTile3 h n es else j.writeTile2 h n es

/-- Elements written into a tensor of any layout, tile by tile in a packed one. -/
def Job.writeAny (j : Job) (h : Shape) (l : List (Coord × Elem)) : Except Nat Job :=
  if h.layout < 2 then j.writeElems h l
  else
    let ns := (l.filter (fun x => h.inside x.1)).foldl (fun ns x => setAdd ns (h.tileNo x.1)) []
    ns.foldl (fun r n => match r with
      | .error a => .error a
      | .ok j => j.writePacked h n l) (.ok j)

end Sys2Proof.Machine
end

