-- ==== Sys2Proof/Machine/Engine.lean ====
section
/-! DEFINITION. Issuing an engine command (R237, R238, R265): its hold at issue, its operands, the checks made at issue, and its
ticket. What the command does later is a step of its own (Transfer.lean). -/

namespace Sys2Proof.Machine

/-! ### Tickets (R237, R238) -/

/-- Commands that have not ended. -/
def Context.inFlight (c : Context) : List EngCmd := c.cmds.filter (fun k => !k.closed)

/-- The producer of a pending ticket. -/
def Context.producer (c : Context) (k : BitVec 6) : Option EngCmd := c.inFlight.find? (fun x => x.e.kp == k)

/-- What a consumed ticket stands for at issue: nothing for k0; a command in flight; or the status that the ticket holds, which is
0 when no command has produced it. -/
def Context.depOf (c : Context) (k : BitVec 6) : List TicketDep :=
  if k = 0 then []
  else
    let t := c.tickets[k.toFin]
    match c.producer k with
    | some x => if t.pending then [{ seq := x.seq, kept := none }] else [{ seq := 0, kept := some (t.status, t.detail) }]
    | none => [{ seq := 0, kept := some (t.status, t.detail) }]

def isRfence : Instr → Bool
  | .rfence _ => true
  | _ => false

/-- The holds of R237, and of R233 behind an RFENCE that has not taken effect. -/
def checkIssue (e : Cmd) (s : State) : Verdict :=
  Verdict.all
    [holdIf ((e.kp != 0 && (s.src.ticket e.kp).pending) = true), holdIf (64 ≤ s.src.inFlight.length + s.src.qops.length),
     holdIf ((s.src.cmds.any (fun k => isRfence k.op && !k.started && !k.closed)) = true)]

/-- The check of a command that reads `srcs`. -/
def checkCmd (srcs : List Opnd) (e : Cmd) (cl : Claims) (s : State) : Verdict := (checkSrcs srcs cl s).andThen (checkIssue e s)

/-- A command as it issues. -/
def EngCmd.fresh (i : Instr) (e : Cmd) (c src : Context) (p : Vector Word 4) (idx : List Word) : EngCmd :=
  { op := i, e := e, seq := c.cmdSeq, p := p, idx := idx, asid := src.asid.toNat, level := src.level, ttbase := src.ttbase.toNat,
    deps := src.depOf e.kc0 ++ src.depOf e.kc1 ++ src.depOf e.kc2, started := false, closed := false, outcome := none, sink := false,
    recs := [], scales := [], block := 0, bytes := [], tile := 0, serial := false, prog := List.replicate 16 0, checked := [], miss := [], met6 := false,
    poisoned := 0, units := [], clamps := 0, zeroed := [], held := [], out := [], later := 0, opNo := 0 }

/-- A command ends early (R239). Every detail of 2^32 or more saturates, that of status 4 too, of which the table does not say so (log entry
74). -/
def EngCmd.ends (k : EngCmd) (f : Failure) : EngCmd :=
  { k with outcome := some (BitVec.ofNat 4 f.1, if f.2 < 2 ^ 32 then BitVec.ofNat 32 f.2 else 0xFFFFFFFF) }

def EngCmd.endsIf (k : EngCmd) (r : Except Failure Unit) : EngCmd :=
  match r with
  | .ok _ => k
  | .error f => k.ends f

/-- What precedes a command in program order has been performed before it reads anything: an access's second part, the context's
write-backs, and its stores to host memory (R195, R200). -/
def State.beforeCmd (s : State) : State :=
  let s := s.settleHalf
  s.mergeWhere (s.sentFor s.ctx)

/-- The command is in flight: its ticket is pending. -/
def State.launchCmd (s : State) (k : EngCmd) : State :=
  let c := s.ctx
  let t : Ticket := { c.tickets[k.e.kp.toFin] with pending := true, te := k.e.te, away := false }
  s.setCtx { c with cmds := c.cmds ++ [k], cmdSeq := c.cmdSeq + 1, tickets := if k.e.kp = 0 then c.tickets else c.tickets.set k.e.kp.toFin t }

/-- Takes the operands that the command reads, in field order. -/
def State.takeAll (s : State) : List Opnd → List Word × State
  | [] => ([], s)
  | o :: r =>
    let (w, s) := s.take o
    let (ws, s) := s.takeAll r
    (w :: ws, s)

def fourWords (l : List Word) : Vector Word 4 := #v[l.getD 0 0, l.getD 1 0, l.getD 2 0, l.getD 3 0]

/-- Issue of a command that reads `srcs`: stages 3 to 5 of R265 are `judge`, which may end it at once. -/
def issueCmd (i : Instr) (e : Cmd) (srcs : List Opnd) (judge : State → EngCmd → EngCmd × State) (s : State) : Result :=
  gated (checkCmd srcs e .none s) (fun s =>
    let (ws, s) := s.beforeCmd.takeAll srcs
    let (k, s) := judge s (EngCmd.fresh i e s.ctx s.src (fourWords ws) [])
    s.launchCmd k) s

/-- No check beyond the encoding. -/
def judgeNone (s : State) (k : EngCmd) : EngCmd × State := (k, s)

/-- Value checks only. -/
def judgeBy (f : EngCmd → Except Failure Unit) (s : State) (k : EngCmd) : EngCmd × State := (k.endsIf (f k), s)

/-! ### Operand values (R268 to R272) -/

def EngCmd.pNat (k : EngCmd) (n : Nat) : Nat := (k.p.toList.getD n 0).toNat

def require (b : Bool) (f : Failure) : Except Failure Unit := if b then .ok () else .error f

def allOf : List (Except Failure Unit) → Except Failure Unit
  | [] => .ok ()
  | .ok _ :: r => allOf r
  | .error f :: _ => .error f

def spanLf (v : Nat) : Nat := fld v 32 4
def spanLcnt (v : Nat) : Nat := fld v 36 4
def spanE (v : Nat) : Nat := fld v 0 32
def spanOk (v : Nat) : Bool := fld v 40 24 == 0 && decide (spanLf v + spanLcnt v ≤ 15) && spanE v != 0

/-- The half of the origin that names a row (R269). -/
def rowHalf (e : Cmd) (v : Nat) : Nat := if e.feed = 1 then fld v 32 32 else fld v 0 32

/-- The index stream's element size (R271). -/
def indexSizeOk (s : State) (o : Opnd) : Bool :=
  match o with
  | .s _ => false
  | .q n => s.src.streams[n].size == 2

/-! ### Handles (R223) -/

/-- Checks handles in order and keeps their records. -/
def State.takeHandles (s : State) (k : EngCmd) : List (Nat × Nat) → EngCmd × State
  | [] => (k, s)
  | (pos, handle) :: r =>
    let w : Who := { s.ctx.who s.variant with asid := k.asid, level := k.level }
    match s.checkHandle s.ctx.die w k.ttbase pos handle with
    | (.error f, s) => (k.ends f, s)
    | (.ok (b, sc), s) => s.takeHandles { k with recs := k.recs ++ [b], scales := k.scales ++ [sc] } r

/-- A value check, then the handles, then a check on their records. -/
def judgeHandles (f : State → EngCmd → Except Failure Unit) (hs : EngCmd → List (Nat × Nat)) (g : EngCmd → Except Failure Unit)
    (s : State) (k : EngCmd) : EngCmd × State :=
  match f s k with
  | .error x => (k.ends x, s)
  | .ok _ =>
    let (k, s) := s.takeHandles k (hs k)
    if k.outcome.isSome then (k, s) else (k.endsIf (g k), s)

def EngCmd.shape (k : EngCmd) (n : Nat) : Shape := Shape.ofBits (k.recs.getD n 0)

def noCheck (_ : EngCmd) : Except Failure Unit := .ok ()

/-! ### The commands -/

def spanHigh (_ : State) (k : EngCmd) : Except Failure Unit := allOf [require (spanOk (k.pNat 2)) (1, 2), require (fld (k.pNat 3) 63 1 == 0) (1, 3)]

def handle0 (k : EngCmd) : List (Nat × Nat) := [(0, k.pNat 0 % 2 ^ 32)]

def hatchSrcs (e : Cmd) : List Opnd := [e.p0, e.p1, e.p2, e.p3]

def execHload (e : Cmd) (s : State) : Result := issueCmd (.hload e) e (hatchSrcs e) (judgeHandles spanHigh handle0 noCheck) s
def execHstore (e : Cmd) (s : State) : Result := issueCmd (.hstore e) e (hatchSrcs e) (judgeHandles spanHigh handle0 noCheck) s

/-- The tensor form of HSTZ needs a bitmask-packed tensor (R272). -/
def execHstzTensor (e : Cmd) (s : State) : Result :=
  issueCmd (.hstzTensor e) e (hatchSrcs e) (judgeHandles spanHigh handle0 (fun k => require ((k.shape 0).layout == 3) (1, 0))) s

/-- Elements that P3 takes (R271): 16 for each lane of the span word. -/
def indexCount (span : Word) : Nat := 16 * (spanLcnt span.toNat + 1)

/-- The check of HGATH and HSCAT: the index stream must deliver every index (R271). -/
def checkIndexed (e : Cmd) (cl : Claims) (s : State) : Verdict :=
  match s.peekAll cl [e.p0, e.p1, e.p2] with
  | .error v => v
  | .ok ws =>
    let cl' := ((cl.read e.p0).read e.p1).read e.p2
    (checkSrcs (List.replicate (indexCount (ws.getD 2 0)) e.p3) cl' s).andThen (checkIssue e s)

def indexedValues (s : State) (k : EngCmd) : Except Failure Unit :=
  allOf [require (rowHalf k.e (k.pNat 1) == 0) (1, 1), require (spanOk (k.pNat 2)) (1, 2), require (indexSizeOk s k.e.p3) (1, 3)]

/-- Issue of HGATH and HSCAT. -/
def issueIndexed (i : Instr) (e : Cmd) (s : State) : Result :=
  gated (checkIndexed e .none s) (fun s =>
    let (ws, s) := s.beforeCmd.takeAll [e.p0, e.p1, e.p2]
    let (idx, s) := s.takeN e.p3 (indexCount (ws.getD 2 0))
    let (k, s) := judgeHandles indexedValues handle0 noCheck s (EngCmd.fresh i e s.ctx s.src (fourWords ws) idx)
    s.launchCmd k) s

def execHgath (e : Cmd) (s : State) : Result := issueIndexed (.hgath e) e s
def execHscat (e : Cmd) (s : State) : Result := issueIndexed (.hscat e) e s

def lanesBits (v : Nat) : Nat := (min (spanLf v + spanLcnt v) 15 - spanLf v + 1) * spanE v * 512

def ldzValues (k : EngCmd) : Except Failure Unit :=
  allOf [require (decide (k.pNat 1 < 64)) (1, 1), require (spanOk (k.pNat 2)) (1, 2), require (fmtWidth (k.pNat 1) != 0) (1, 1)]

def execHldz (e : Cmd) (s : State) : Result := issueCmd (.hldz e) e [e.p0, e.p1, e.p2] (judgeBy ldzValues) s

def stzValues (k : EngCmd) : Except Failure Unit :=
  allOf [require (fld (k.pNat 1) 6 26 == 0) (1, 1), require (spanOk (k.pNat 2) && decide (lanesBits (k.pNat 2) ≤ 262144)) (1, 2),
    require (fmtWidth (fld (k.pNat 1) 0 6) != 0) (1, 1)]

def execHstz (e : Cmd) (s : State) : Result := issueCmd (.hstz e) e [e.p0, e.p1, e.p2] (judgeBy stzValues) s

/-- P1 is not read and encodes as s0 (R269). -/
def execHmcast (e : Cmd) (s : State) : Result :=
  issueCmd (.hmcast e) e [e.p0, .zero, e.p2] (judgeBy (fun k => require (spanOk (k.pNat 2)) (1, 2))) s

def execCopy (e : Cmd) (s : State) : Result :=
  issueCmd (.copy e) e [e.p0, e.p1, e.p2]
    (judgeHandles (fun _ _ => .ok ()) (fun k => [(0, k.pNat 0 % 2 ^ 32), (1, k.pNat 1 % 2 ^ 32)])
      (fun k => require ((k.shape 0).code == (k.shape 1).code) (1, 1))) s

def execCfill (e : Cmd) (s : State) : Result :=
  issueCmd (.cfill e) e [e.p0, e.p1, e.p2]
    (judgeHandles (fun _ _ => .ok ()) (fun k => [(1, k.pNat 1 % 2 ^ 32)])
      (fun k => require (decide (k.pNat 0 < 2 ^ (k.shape 0).width)) (1, 0))) s

/-- A positive finite f32 (R258). -/
def epsOk (bits : Nat) : Bool :=
  match fmtF32.value bits with
  | .fin false m _ => m != 0
  | .fin true _ _ => false
  | .inf _ => false
  | .nan => false

def squeezable (code : Nat) : Bool := code == 0x08 || code == 0x09 || code == 0x0A

def csqzValues (k : EngCmd) : Except Failure Unit :=
  allOf [require (epsOk (k.pNat 1 / 2 ^ 32)) (1, 1), require (fld (k.pNat 3) 38 26 == 0) (1, 3), require (squeezable (fld (k.pNat 3) 32 6)) (1, 3)]

/-- Status 7 on a part without the compressor (R260), then `f`. -/
def judgeUnit (f : EngCmd → Except Failure Unit) (s : State) (k : EngCmd) : EngCmd × State :=
  if s.hasUnit .compressor then (k.endsIf (f k), s) else (k.ends (7, 0), s)

def execCsqz (e : Cmd) (s : State) : Result := issueCmd (.csqz e) e (hatchSrcs e) (judgeUnit csqzValues) s
def execCxpd (e : Cmd) (s : State) : Result := issueCmd (.cxpd e) e (hatchSrcs e) (judgeUnit noCheck) s

def execZmap (e : Cmd) (s : State) : Result :=
  issueCmd (.zmap e) e [e.p0, e.p1] (judgeBy (fun k => require (k.pNat 1 == 0 || decide (k.pNat 0 + k.pNat 1 ≤ 2 ^ 56)) (1, 1))) s

def execTkjoin (e : Cmd) (s : State) : Result := issueCmd (.tkjoin e) e [] judgeNone s
def execRfence (e : Cmd) (s : State) : Result := issueCmd (.rfence e) e [] judgeNone s
def execPgreq (e : Cmd) (s : State) : Result := issueCmd (.pgreq e) e [e.p0] judgeNone s
def execScrlim (e : Cmd) (s : State) : Result := issueCmd (.scrlim e) e [e.p0, e.p1] judgeNone s

/-! ### Streams (R242 to R245, R280) -/

def State.setStream (s : State) (n : Fin 16) (q : Stream) : State := { s with ctx.streams := s.ctx.streams.set n q }

/-- A stream's accesses are translated as at the issue of its SBIND (R245). -/
def State.streamWho (s : State) (q : Stream) : Who := { s.ctx.who s.variant with asid := q.asid, level := q.level }

/-- Pattern elements that the buffer of a read stream holds: 256, and one more where its elements are the differences of
neighbours (R243). -/
def Stream.room (q : Stream) : Nat := if q.delta then 257 else 256

/-- The engine fetches the next pattern element of a read stream, at most 256 elements ahead (R243). -/
def State.streamFetch (s : State) (n : Fin 16) : State :=
  let q := s.ctx.streams[n]
  if s.ctx.drainedAway = true ∨ q.bind ≠ .bound ∨ q.write = true ∨ q.room ≤ q.buf.length ∨ q.total ≤ q.next ∨ q.buf.all StreamElem.good = false then s
  else
    let a := q.addr q.next
    let e := match s.engineRead (s.streamWho q) a q.width with
      | .error (x, va) => StreamElem.fault x.cause va
      | .ok bs => if anyPoison bs then .poisoned (BitVec.ofNat 64 (numOf bs)) a else .value (BitVec.ofNat 64 (numOf bs))
    (s.engineTouch (s.streamWho q) a q.width).setStream n { q with next := q.next + 1, buf := q.buf ++ [e] }

def execStreamFetch (n : Fin 16) (s : State) : Result := .next (s.streamFetch n)

/-- The oldest written element is stored at its pattern address; a fault ends the stream's stores (R244), and the elements written
after it are dropped. -/
def State.streamStore (s : State) (n : Fin 16) : State :=
  let q := s.ctx.streams[n]
  if s.ctx.drainedAway = true ∨ q.bind ≠ .bound ∨ q.write = false then s
  else
    match q.buf with
    | .value w :: r =>
      if q.dead then s.setStream n { q with next := q.next + 1, buf := r }
      else
      match s.engineWrite (s.streamWho q) (q.addr q.next) ((leBytes q.width w.toNat).map (fun b => (b, false))) with
      | .error (x, _) => s.setStream n { q with dead := true, stuck := some (x.cause, q.addr q.next), next := q.next + 1, buf := r }
      | .ok s => s.setStream n { q with next := q.next + 1, buf := r }
    | .poisoned _ _ :: _ => s
    | .fault _ _ :: _ => s
    | .owed _ :: _ => s
    | [] => s

def execStreamStore (n : Fin 16) (s : State) : Result := .next (s.streamStore n)

/-- Stores up to `k` further elements. -/
def State.storeAhead (s : State) (n : Fin 16) : Nat → State
  | 0 => s
  | k + 1 => (s.streamStore n).storeAhead n k

/-- Unbinds a stream. An element that another slot of the same bundle has just written is stored first. -/
def State.unbind (s : State) (n : Fin 16) : State := (s.storeAhead n s.ctx.streams[n].buf.length).setStream n Stream.free

/-- The hold and the trap of R280 before stream `n` is unbound. -/
def checkUnbind (n : Nat) (s : State) : Verdict :=
  let q := s.src.streams.toList.getD n Stream.free
  if n = 15 ∨ q.write = false ∨ q.bind ≠ .bound then .go
  else
    match q.stuck with
    | some f => storeTrap n f
    | none => holdIf (q.buf ≠ [])

/-- The stream that EFN names. -/
def streamOf (e : Cmd) : Fin 16 := Fin.ofNat 16 (e.efn.toNat % 16)

def checkSbind (e : Cmd) (cl : Claims) (s : State) : Verdict :=
  (checkSrcs [e.p0] cl s).andThen ((checkUnbind (streamOf e).val s).andThen (checkIssue e s))

/-- From its issue the stream counts as bound (R242). -/
def execSbind (e : Cmd) (s : State) : Result :=
  gated (checkSbind e .none s) (fun s =>
    let (a, s) := s.beforeCmd.take e.p0
    let k := EngCmd.fresh (.sbind e) e s.ctx s.src (fourWords [a]) []
    if (streamOf e) = 15 then s.launchCmd (k.ends (1, freeDetail s.free))
    else if a.toNat % 64 ≠ 0 then (s.unbind (streamOf e)).launchCmd (k.ends (1, 0))
    else
      ((s.unbind (streamOf e)).setStream (streamOf e)
        { Stream.free with bind := .binding, binder := k.seq, asid := k.asid, level := k.level }).launchCmd k) s

def checkSfree (e : Cmd) (_ : Claims) (s : State) : Verdict := (checkUnbind (streamOf e).val s).andThen (checkIssue e s)

/-- Every element that the stream was given is stored, so the ticket can complete at once (R245, R280). -/
def execSfree (e : Cmd) (s : State) : Result :=
  gated (checkSfree e .none s) (fun s =>
    let s := s.beforeCmd
    let k := EngCmd.fresh (.sfree e) e s.ctx s.src (fourWords []) []
    if (streamOf e) = 15 then s.launchCmd (k.ends (1, freeDetail s.free))
    else (s.unbind (streamOf e)).launchCmd k) s

end Sys2Proof.Machine
end

