-- ==== Sys2Proof/Machine/Transfer.lean ====
section
/-! DEFINITION. What the hatch commands and the copy engine do after their issue (R238 to R241, R246 to R257, R261, R266, R274 to
R279): operand blocks, in-hatch fills, drain takes, transfer tiles and how a command ends. -/

namespace Sys2Proof.Machine

/-! ### A command at work -/

def drainOp : Instr → Bool
  | .hstore _ => true
  | .hscat _ => true
  | .hstz _ => true
  | .hstzTensor _ => true
  | .hmcast _ => true
  | _ => false

/-- The outcome of a command that did not end early (R239). A drain command counts the elements it took with a poison mark, a load the
poisoned units of metadata it met, and any other the units it wrote with a mark. -/
def EngCmd.result (k : EngCmd) : BitVec 4 × BitVec 32 :=
  let sat (n : Nat) : BitVec 32 := if n < 2 ^ 32 then BitVec.ofNat 32 n else 0xFFFFFFFF
  if k.met6 then (6, sat (if drainOp k.op then k.poisoned else k.units.length))
  else if k.clamps ≠ 0 then (8, sat k.clamps)
  else if k.miss ≠ [] then (5, sat k.miss.length)
  else (0, 0)

def EngCmd.finish (k : EngCmd) : EngCmd := if k.outcome.isSome then k else { k with outcome := some k.result }

/-- A command that writes memory finishes: it has met status 6 if it has written a poison mark (R239, R270). -/
def EngCmd.finishCopy (k : EngCmd) : EngCmd := ({ k with met6 := k.met6 || k.units != [] } : EngCmd).finish

def replaceNth (l : List EngCmd) (n : Nat) (k : EngCmd) : List EngCmd := l.take n ++ k :: l.drop (n + 1)

/-- Puts a command back in its place. -/
def State.putCmd (s : State) (n : Nat) (k : EngCmd) : State := { s with ctx.cmds := replaceNth s.ctx.cmds n k }

/-- A command ends early at work, or goes on. -/
def Job.settle (j : Job) (r : Except Failure Job) : Job :=
  match r with
  | .ok j => j.storePath
  | .error f => { j with c := j.c.ends f }

def vaFailure (va : Nat) : Failure := (3, va % 2 ^ 32)

def liftVa {α : Type} (r : Except Nat α) : Except Failure α :=
  match r with
  | .ok x => .ok x
  | .error va => .error (vaFailure va)

/-- A 64-byte operand block at the address in field `pos` (R266). -/
def Job.readBlock (j : Job) (pos : Nat) : Except Failure (BitVec 512) :=
  let va := j.c.pNat pos
  if va % 64 ≠ 0 then .error (1, pos)
  else
    match j.s.engineRead j.who va 64 with
    | .error (_, a) => .error (vaFailure a)
    | .ok bs => if anyPoison bs then .error (6, 1) else .ok (BitVec.ofNat 512 (numOf bs))

/-- What the read of the block leaves behind (R183, R216). -/
def Job.blockRead (j : Job) (pos : Nat) : Job := { j with s := j.s.engineTouch j.who (j.c.pNat pos) 64 }

/-- The generation check of R223 before transfer tile `n` of the tensor at place `t`, its scale record with it. -/
def Job.checkGen (j : Job) (t handle n : Nat) : Except Failure Job :=
  if j.c.checked.contains (t, n) then .ok j
  else
    let one (s : State) (hd : Nat) : Except Failure State :=
      match s.readRecord false s.ctx.die j.who (recordAddr j.c.ttbase hd) with
      | (.error f, _) => .error f
      | (.ok b, s) => if (Shape.ofBits b).gen = handleGen hd then .ok s else .error (2, n)
    match one j.s handle with
    | .error f => .error f
    | .ok s =>
      let h := j.c.shape t
      match (if h.scen then one s h.sch else .ok s) with
      | .error f => .error f
      | .ok s => .ok { s := s, c := { j.c with checked := (t, n) :: j.c.checked } }

def Job.checkGens (j : Job) (t handle : Nat) : List Nat → Except Failure Job
  | [] => .ok j
  | n :: r =>
    match j.checkGen t handle n with
    | .error f => .error f
    | .ok j => j.checkGens t handle r

/-! ### The geometry of a hatch command (R248, R250, R251, R268) -/

def EngCmd.lf (k : EngCmd) : Nat := spanLf (k.pNat 2)
def EngCmd.lanes (k : EngCmd) : Nat := min (spanLf (k.pNat 2) + spanLcnt (k.pNat 2)) 15 - spanLf (k.pNat 2) + 1
def EngCmd.epos (k : EngCmd) : Nat := spanE (k.pNat 2)
def EngCmd.total (k : EngCmd) : Nat := k.lanes * k.epos
def EngCmd.progress (k : EngCmd) (l : Nat) : Nat := k.prog.getD l 0

/-- Every element that the command owes has been delivered or taken. -/
def EngCmd.served (k : EngCmd) : Bool := (List.range k.lanes).all (fun i => decide (k.epos ≤ k.progress (k.lf + i)))

/-- An element's place in the order of R270. -/
def EngCmd.ordinal (k : EngCmd) (l e : Nat) : Nat := (l - k.lf) * k.epos + e

def isMcast : Instr → Bool
  | .hmcast _ => true
  | _ => false

/-- The origin (o0, o1). -/
def EngCmd.origin (k : EngCmd) : Nat × Nat :=
  if isMcast k.op then (fld k.block.toNat 128 32, fld k.block.toNat 160 32) else (fld (k.pNat 1) 0 32, fld (k.pNat 1) 32 32)

def isIndexed : Instr → Bool
  | .hgath _ => true
  | .hscat _ => true
  | _ => false

/-- Coordinates of dimensions 2 to 4 (R268, R269, R274). -/
def EngCmd.high (k : EngCmd) : Nat × Nat × Nat :=
  if isIndexed k.op || isMcast k.op then (0, 0, 0) else (fld (k.pNat 3) 0 21, fld (k.pNat 3) 21 21, fld (k.pNat 3) 42 21)

/-- The row of chunk lane `i` of lane `l`: an index where the command has indices (R251). The indices are those of the lanes from LF on
(log entry 73). -/
def EngCmd.row (k : EngCmd) (o l i : Nat) : Nat :=
  if isIndexed k.op then (k.idx.getD ((l - k.lf) * 16 + i) 0).toNat % 2 ^ 32 else o + 16 * l + i

/-- Group size of a width (R159). -/
def groupOf (w : Nat) : Nat := 32 / w

/-- The coordinates of the elements of chunk (l, e), in chunk order, for elements of width `w` (R248). -/
def EngCmd.coords (k : EngCmd) (w l e : Nat) : List Coord :=
  let (o0, o1) := k.origin
  let (c2, c3, c4) := k.high
  let g := groupOf w
  match k.e.feed with
  | 0 => (List.range (512 / w)).map (fun j => ⟨o0 + 512 / w * e + j, o1 + l, c2, c3, c4⟩)
  | 1 => (List.range (16 * g)).map (fun j => ⟨o0 + g * e + j % g, k.row o1 l (j / g), c2, c3, c4⟩)
  | _ => (List.range (16 * g)).map (fun j => ⟨k.row o0 l (j / g), o1 + g * e + j % g, c2, c3, c4⟩)

/-- Transfer tiles of a chunk (R241). -/
def EngCmd.chunkTiles (k : EngCmd) (h : Shape) (l e : Nat) (cs : List Coord) : List Nat :=
  if h.layout = 0 then [k.ordinal l e / 64] else (cs.filter h.inside).foldl (fun ns c => setAdd ns (h.tileNo c)) []

/-! ### In-hatch elements (R249, R252, R256) -/

def orAll (l : List Nat) : Nat := l.foldl (· ||| ·) 0

/-- A chunk of elements of width `w`, each byte marked from the elements that lie in it (R157, R249). -/
def chunkOf (w : Nat) (es : List Elem) (zero : Bool) (info : Nat) (bad : Nat) : Chunk :=
  { data := BitVec.ofNat 512 ((es.zipIdx.map (fun x => x.1.val * 2 ^ (w * x.2))).sum),
    psn := BitVec.ofNat 64 (orAll (es.zipIdx.map (fun x => x.1.poi * 2 ^ (w * x.2 / 8)))),
    res := BitVec.ofNat 64 (orAll (es.zipIdx.map (fun x => x.1.res * 2 ^ (w * x.2 / 8)))),
    info := BitVec.ofNat 384 ((if zero then 2 ^ 383 else 0) + info), bad := BitVec.ofNat 48 bad }

/-- What an early end delivers: zero, with every PSN bit set (R250). -/
def Chunk.lost : Chunk := { data := 0, psn := BitVec.allOnes 64, res := 0, info := 0, bad := 0 }

/-- The coordinates of a SCALE byte (R249): `c` is the data coordinate of its chunk lane, slot 0. -/
def scaleCoord (h : Shape) (feed : Nat) (c : Coord) : Coord :=
  let hh := 2 ^ h.slogh
  let ww := 2 ^ h.slogw
  if feed = 1 then { c with c0 := c.c0 / ww, c1 := c.c1 / hh } else { c with c0 := c.c0 / hh, c1 := c.c1 / ww }

/-- The SCALE bytes of a chunk whose lanes begin at `lane`, and the marks of those that are poisoned, which are errors of metadata
(R321); none where the record or the feed order has no SCALE bytes (R249). -/
def Job.scales (j : Job) (h : Shape) (lane : Nat → Coord) : Except Nat (Nat × Nat × Job) :=
  match j.c.scales.getD 0 none with
  | none => .ok (0, 0, j)
  | some sb =>
    if j.c.e.feed = 0 then .ok (0, 0, j)
    else
      let hh := 2 ^ h.slogh
      let bs := (List.range 16).filter (fun b => decide (b * hh < 16))
      match j.readElems (Shape.ofBits sb) [] (bs.map (fun b => scaleCoord h j.c.e.feed (lane (b * hh)))) with
      | .error a => .error a
      | .ok (es, j) => .ok ((es.zipIdx.map (fun x => x.1.val * 2 ^ (8 * x.2))).sum, marks (es.map (fun e => e.poi != 0)), j)

/-- The dense window width of an N:M-packed operand (R167, R256). -/
def Shape.sigma (h : Shape) : Nat := if 4 * h.patN ≤ h.patM then 4 else if 2 * h.patN ≤ h.patM then 2 else 1

/-- Whether a chunk is filled with slots: a tensor of N:M-packed tiles, K along dimension 0, of a width that MMAS takes. -/
def slotted (h : Shape) (feed : Nat) : Bool := h.layout == 2 && feed == 1 && (h.width == 8 || h.width == 16)

/-- What one chunk lane of slots is filled from: each slot with its index, or why the lane has none. -/
inductive LaneSlots where
  | slots (l : List (Nat × Elem))
  | bad
  | absent
  deriving DecidableEq, Repr

/-- The slots of one group that lie in a window that begins at `k0` (R256). -/
def Job.groupWindow (j : Job) (h : Shape) (c : Coord) (k0 kw : Nat) : Except Nat (LaneSlots × Job) :=
  let kb := c.c0 / h.patM * h.patM
  let n := h.tileNo { c with c0 := kb }
  let q := h.tilePos { c with c0 := kb } / h.patM
  match j.readIndex h n q with
  | .error a => .error a
  | .ok (ix, j) =>
    if ix.any (·.res) then .ok (.absent, j)
    else if ix.any (indexBad h) then .ok (.bad, j.metaFault (h.indexAddr n (q * h.patN)) ix)
    else
      let keep := ix.zipIdx.filter (fun x =>
        let kk := kb + x.1.byte.toNat
        x.1.byte.toNat != 0x1F && decide (k0 ≤ kk) && decide (kk < k0 + kw) && decide (kk < h.ext.c0))
      keep.foldl (fun r x => match r with
        | .error a => .error a
        | .ok (.slots l, j) =>
          (match j.readSlot h n (q * h.patN + x.2) with
          | .error a => .error a
          | .ok (e, j) => .ok (.slots (l ++ [(kb + x.1.byte.toNat - k0, e)]), j))
        | .ok (.bad, j) => .ok (.bad, j)
        | .ok (.absent, j) => .ok (.absent, j)) (.ok (.slots [], j))

/-- Every group that meets the window, in order. -/
def Job.laneWindow (j : Job) (h : Shape) (k0 kw : Nat) : List Coord → Except Nat (LaneSlots × Job)
  | [] => .ok (.slots [], j)
  | c :: r =>
    match j.groupWindow h c k0 kw with
    | .error a => .error a
    | .ok (.bad, j) => .ok (.bad, j)
    | .ok (.absent, j) => .ok (.absent, j)
    | .ok (.slots l, j) =>
      match j.laneWindow h k0 kw r with
      | .error a => .error a
      | .ok (.bad, j) => .ok (.bad, j)
      | .ok (.absent, j) => .ok (.absent, j)
      | .ok (.slots l', j) => .ok (.slots (l ++ l'), j)

/-- The `g` elements and slot indices of one chunk lane. Slots past the `g`-th find no room. -/
def LaneSlots.fill (g w : Nat) : LaneSlots → List Elem × List Nat
  | .bad => (List.replicate g (Elem.bad w), List.replicate g 31)
  | .absent => (List.replicate g (Elem.absent w), List.replicate g 31)
  | .slots l =>
    let l := l.take g
    (l.map Prod.snd ++ List.replicate (g - l.length) Elem.zero, l.map Prod.fst ++ List.replicate (g - l.length) 31)

/-- The first coordinates of the groups of M along dimension 0 that meet a window, inside the extents. -/
def windowGroups (h : Shape) (k0 kw : Nat) (c : Coord) : List Coord :=
  ((List.range ((k0 + kw - 1) / h.patM - k0 / h.patM + 1)).map (fun i => { c with c0 := (k0 / h.patM + i) * h.patM })).filter h.inside

def Job.slotLanes (j : Job) (h : Shape) (k0 kw g : Nat) : List Coord → Except Nat (List Elem × List Nat × Job)
  | [] => .ok ([], [], j)
  | c :: r =>
    match j.laneWindow h k0 kw (windowGroups h k0 kw c) with
    | .error a => .error a
    | .ok (ls, j) =>
      match j.slotLanes h k0 kw g r with
      | .error a => .error a
      | .ok (es, ix, j) => .ok ((ls.fill g h.width).1 ++ es, (ls.fill g h.width).2 ++ ix, j)

/-- The low META bits of a chunk with both slot indices and SCALE bytes, which lie in the same 16 bytes: the spec does not say which of
the two a byte holds (R162, R249). -/
def Job.mixMeta (j : Job) (ix sc : Nat) : Nat :=
  let byte (b : Nat) : Nat := (if Config.raceNew (j.s.free * 2 ^ 56 + j.c.seq * 2 ^ 8 + b) then ix else sc) / 2 ^ (8 * b) % 256
  ix / 2 ^ 128 * 2 ^ 128 + ((List.range 16).map (fun b => byte b * 2 ^ (8 * b))).sum

/-- A chunk of an N:M-packed operand with its slot indices (R256). -/
def Job.slotChunk (j : Job) (h : Shape) (l e : Nat) : Except Nat (Chunk × Job) :=
  let g := groupOf h.width
  let kw := g * h.sigma
  let k0 := j.c.origin.1 + kw * e
  let (c2, c3, c4) := j.c.high
  let lane (i : Nat) : Coord := ⟨k0, j.c.row j.c.origin.2 l i, c2, c3, c4⟩
  let tiles := (((List.range 16).flatMap (fun i => windowGroups h k0 kw (lane i))).foldl (fun ns c => setAdd ns (h.tileNo c)) [])
  let zero := h.zmapen && tiles != [] && tiles.all (j.slotFlagged h)
  match j.slotLanes h k0 kw g ((List.range 16).map lane) with
  | .error a => .error a
  | .ok (es, ix, j) =>
    let info := (ix.zipIdx.map (fun x => x.1 * 2 ^ (5 * x.2))).sum
    match j.scales h lane with
    | .error a => .error a
    | .ok (sc, bad, j) => .ok (chunkOf h.width es zero (if h.scen then j.mixMeta info sc else info) bad, j)

/-- A chunk of a tensor for HLOAD and HGATH. -/
def Job.loadChunk (j : Job) (l e : Nat) : Except Failure (Chunk × Job) :=
  let h := j.c.shape 0
  let slot := slotted h j.c.e.feed
  let g := groupOf h.width
  let cs := if slot then
      (List.range 16).flatMap (fun i => (windowGroups h (j.c.origin.1 + g * h.sigma * e) (g * h.sigma)
        ⟨0, j.c.row j.c.origin.2 l i, j.c.high.1, j.c.high.2.1, j.c.high.2.2⟩))
    else j.c.coords h.width l e
  match j.checkGens 0 (j.c.pNat 0 % 2 ^ 32) (j.c.chunkTiles h l e cs) with
  | .error f => .error f
  | .ok j =>
    if slot then liftVa (j.slotChunk h l e)
    else
      match j.readElems h [] cs with
      | .error a => .error (vaFailure a)
      | .ok (es, j) =>
        let zero := (es.zip cs).any (fun x => h.inside x.2) && (es.zip cs).all (fun x => x.1.flag || !h.inside x.2)
        match j.scales h (fun i => cs.getD (i * g) ⟨0, 0, 0, 0, 0⟩) with
        | .error a => .error (vaFailure a)
        | .ok (sc, bad, j) => .ok (chunkOf h.width es zero sc bad, j)

/-- Elements of a bitmask-plus-values record that one chunk holds, for HLDZ (R272). A header that was not resident leaves no
bytes. -/
def Job.recordChunk (j : Job) (l e : Nat) : Except Failure (Chunk × Job) :=
  let w := fmtWidth (j.c.pNat 1)
  let n := 512 / w
  let first := j.c.ordinal l e * n
  if j.c.bytes = [] then .ok (chunkOf w (List.replicate n (Elem.absent w)) false 0 0, j)
  else
    let mask := j.c.bytes.drop 8
    let bits := (List.range n).map (fun i => (mask.getD ((first + i) / 8) 0).getLsbD ((first + i) % 8))
    let flag := match j.s.locate j.who (j.c.pNat 0 + 8 + first / 8) .load with
      | .error _ => false
      | .ok l => j.s.flagged l
    match j.expand (j.c.pNat 0 + 8 + maskBytes (j.c.total * n)) w (onesBelow mask first) flag bits with
    | .error a => .error (vaFailure a)
    | .ok (es, j) => .ok (chunkOf w es (es.all (·.flag)) 0 0, j)

def isHldz : Instr → Bool
  | .hldz _ => true
  | _ => false

/-- The next element of an in-hatch command, with its status. -/
def Job.fillChunk (j : Job) (l : Nat) : Chunk × Job :=
  if j.c.outcome.isSome || j.c.sink then (Chunk.lost, j)
  else
    match (if isHldz j.c.op then j.recordChunk l (j.c.progress l) else j.loadChunk l (j.c.progress l)) with
    | .error f => (Chunk.lost, { j with c := j.c.ends f })
    | .ok (ch, j) => (ch, { j with c.met6 := j.c.met6 || ch.psn != 0 || ch.bad != 0 })

/-! ### Serving the hatches (R246, R247) -/

def hatchOp (i : Instr) : Bool := inHatchOp i || drainOp i

/-- Whether command `n` is served now: every earlier command on its hatch has had its whole sequence (R247), and it has started
or ended early. -/
def Context.serves (c : Context) (n : Nat) (k : EngCmd) : Bool :=
  !c.drainedAway && (k.started || k.outcome.isSome) && (c.cmds.take n).all (fun x => !hatchOp x.op || x.e.hatch != k.e.hatch || x.served)

/-- The hatch that a command names. -/
def EngCmd.hatchIx (k : EngCmd) : Fin 12 := Fin.ofNat 12 k.e.hatch

def Context.lane (c : Context) (h : Fin 12) (l : Nat) : List Chunk := (c.hatches[h].toList.getD l [])
def Context.setLane (c : Context) (h : Fin 12) (l : Nat) (x : List Chunk) : Context :=
  { c with hatches := c.hatches.set h (c.hatches[h].set (Fin.ofNat 16 l) x) }

def EngCmd.advance (k : EngCmd) (l : Nat) : EngCmd := { k with prog := (k.prog.take l) ++ (k.progress l + 1) :: k.prog.drop (l + 1) }

/-- Puts a command back, or drops it when its ticket is complete and it owes nothing more. -/
def State.returnCmd (s : State) (n : Nat) (k : EngCmd) : State :=
  if k.closed && k.served then { s with ctx.cmds := s.ctx.cmds.eraseIdx n } else s.putCmd n k

/-- Lane `l` of command `n` is one that it serves and has not finished. -/
def EngCmd.wants (k : EngCmd) (l : Nat) : Bool := decide (k.lf ≤ l) && decide (l < k.lf + k.lanes) && decide (k.progress l < k.epos)

/-- Every lower lane of a command is finished or cannot move now: elements move in ascending lane (R270). -/
def EngCmd.lowest (k : EngCmd) (c : Context) (l : Nat) : Bool :=
  (List.range l).all (fun x => !k.wants x || (if inHatchOp k.op then decide (32 ≤ (c.lane k.hatchIx x).length) else (c.lane k.hatchIx x).isEmpty))

/-- An in-hatch command places its next element of a lane, where there is room (R246). -/
def State.hatchFill (s : State) (n l : Nat) : State :=
  match s.ctx.cmds[n]? with
  | none => s
  | some k =>
    if !inHatchOp k.op || !k.wants l || !k.lowest s.ctx l || !s.ctx.serves n k || decide (32 ≤ (s.ctx.lane k.hatchIx l).length) then s
    else
      let (ch, j) := ({ s := s, c := k } : Job).fillChunk l
      let k := j.c.advance l
      let k := if k.served then k.finish else k
      (j.s.setCtx (j.s.ctx.setLane k.hatchIx l (j.s.ctx.lane k.hatchIx l ++ [ch]))).returnCmd n k

def execHatchFill (n l : Nat) (s : State) : Result := .next (s.hatchFill n l)

/-- A drain command takes its next element of a lane (R247). Elements taken after an early end are discarded (R250). -/
def State.hatchDrainTake (s : State) (n l : Nat) : State :=
  match s.ctx.cmds[n]? with
  | none => s
  | some k =>
    if !drainOp k.op || !k.wants l || !k.lowest s.ctx l || !s.ctx.serves n k then s
    else
      match s.ctx.lane k.hatchIx l with
      | [] => s
      | ch :: rest =>
        let k' := if k.outcome.isSome then k
          else { k with held := k.held ++ [(l, k.progress l, ch)], poisoned := if ch.psn != 0 then k.poisoned + 1 else k.poisoned }
        (s.setCtx (s.ctx.setLane k.hatchIx l rest)).returnCmd n (k'.advance l)

def execHatchDrainTake (n l : Nat) (s : State) : Result := .next (s.hatchDrainTake n l)

/-! ### Transfer tiles of the drain commands -/

/-- Elements of a chunk, for a destination of width `w`. -/
def chunkElems (w : Nat) (ch : Chunk) : List Elem :=
  (List.range (512 / w)).map (fun j =>
    { val := ch.data.toNat / 2 ^ (w * j) % 2 ^ w, poi := ch.psn.toNat / 2 ^ (w * j / 8) % 2 ^ elemBytes w, res := 0, flag := false })

def EngCmd.heldAt (k : EngCmd) (o : Nat) : Option Chunk :=
  (k.held.find? (fun x => x.1 == k.lf + o / k.epos && x.2.1 == o % k.epos)).map (fun x => x.2.2)

/-- Destinations of a drain command: their handles. -/
def EngCmd.dests (k : EngCmd) : List Nat :=
  if isMcast k.op then (List.range (k.e.xtra + 1)).map (fun i => fld k.block.toNat (32 * i) 32) else [k.pNat 0 % 2 ^ 32]

/-- The tile of a tiled or packed tensor that element `o` of the order begins in. -/
def EngCmd.tileAt (k : EngCmd) (d o : Nat) : Nat :=
  let h := k.shape d
  match (k.coords h.width (k.lf + o / k.epos) (o % k.epos)).find? h.inside with
  | none => h.tileCount
  | some c => h.tileNo c

/-- Whether the elements for a tensor move tile by tile. Those of an N:M-packed one do where no group of M is cut in two by the order, so
that each is pruned once, from all its elements (R273). -/
def EngCmd.byTile (k : EngCmd) (d : Nat) : Bool :=
  let h := k.shape d
  h.layout != 2 || (!isIndexed k.op && decide (k.e.feed ≤ 1) && k.origin.1 % (if k.e.feed = 0 then 512 / h.width else groupOf h.width) == 0)

/-- Whether a mark, which is a number of elements in the order of R270, is a boundary between two transfer tiles (R241). -/
def EngCmd.boundary (k : EngCmd) (d p : Nat) : Bool :=
  p == 0 || p == k.total ||
    (if k.recs.isEmpty || (k.shape d).layout == 0 then p % 64 == 0 else k.byTile d && k.tileAt d p != k.tileAt d (p - 1))

/-- The next boundary after a mark. -/
def EngCmd.nextBoundary (k : EngCmd) (d p : Nat) : Nat :=
  ((List.range (k.total - p)).find? (fun i => k.boundary d (p + 1 + i))).elim k.total (p + 1 + ·)

/-- The destinations that a transfer writes: all of them, or the one whose turn it is. -/
def EngCmd.turnDests (k : EngCmd) : List Nat := if k.serial then [k.tile / k.total] else List.range k.dests.length

/-- The mark up to which those destinations are written. -/
def EngCmd.mark (k : EngCmd) : Nat := if k.serial then k.tile % k.total else k.tile

/-- The mark at which the next transfer ends. -/
def EngCmd.upTo (k : EngCmd) : Nat := k.nextBoundary (k.turnDests.headD 0) k.mark

/-- Every destination has every element. -/
def EngCmd.allStored (k : EngCmd) : Bool := decide ((if k.serial then k.dests.length else 1) * k.total ≤ k.tile)

/-- The elements that every destination has. -/
def EngCmd.stored (k : EngCmd) : Nat := if k.serial then k.tile - (k.dests.length - 1) * k.total else k.tile

/-- The chunks of the next transfer, by their place in the order, once all of them are held. -/
def EngCmd.runChunks (k : EngCmd) : Option (List (Nat × Chunk)) :=
  ((List.range (k.upTo - k.mark)).map (k.mark + ·)).mapM (fun o => (k.heldAt o).map (fun c => (o, c)))

/-- The coordinates and elements of chunks. -/
def EngCmd.storeList (k : EngCmd) (w : Nat) (cs : List (Nat × Chunk)) : List (Coord × Elem) :=
  cs.flatMap (fun x => (k.coords w (k.lf + x.1 / k.epos) (x.1 % k.epos)).zip (chunkElems w x.2))

/-- One transfer to a tensor: its generations are checked, then its elements are written (R241, R261, R270, R273). -/
def Job.storeRun (j : Job) (d handle : Nat) (cs : List (Nat × Chunk)) : Except Failure Job :=
  let h := j.c.shape d
  let l := j.c.storeList h.width cs
  let ns := if h.layout = 0 then cs.foldl (fun ns x => setAdd ns (x.1 / 64)) [] else (l.filter (fun x => h.inside x.1)).foldl (fun ns x => setAdd ns (h.tileNo x.1)) []
  match j.checkGens d handle ns with
  | .error f => .error (if isMcast j.c.op && f.1 == 3 then (3, d) else f)
  | .ok j =>
    match j.writeAny h l with
    | .error a => .error (if isMcast j.c.op then (3, d) else vaFailure a)
    | .ok j => .ok j

/-- One transfer to several tensors, in their order. -/
def Job.storeRuns (j : Job) (cs : List (Nat × Chunk)) : List Nat → Except Failure Job
  | [] => .ok j
  | d :: r =>
    match j.storeRun d (j.c.dests.getD d 0) cs with
    | .error f => .error f
    | .ok j => j.storeRuns cs r

/-- The next transfer of a drain command that writes tensors. -/
def Job.drainTile (j : Job) : Job :=
  if j.c.allStored then { j with c := if j.c.served then j.c.finishCopy else j.c }
  else
    match j.c.runChunks with
    | none => j
    | some cs =>
      let j := j.settle (j.storeRuns cs j.c.turnDests)
      if j.c.outcome.isSome then j
      else
        let k : EngCmd := { j.c with tile := j.c.tile + cs.length }
        let k : EngCmd := { k with held := k.held.filter (fun x => decide (k.stored ≤ k.ordinal x.1 x.2.1)) }
        { j with c := if k.allStored then k.finishCopy else k }

/-- The whole record of HSTZ, once every element is held (R252, R253, R272). -/
def Job.recordTile (j : Job) : Job :=
  let code := fld (j.c.pNat 1) 0 6
  let w := fmtWidth code
  match (List.range j.c.total).mapM j.c.heldAt with
  | none => j
  | some cs =>
    let es := cs.flatMap (chunkElems w)
    let bytes := recordHead code es ++ recordValues w es
    if fld (j.c.pNat 1) 32 32 < bytes.length then { j with c := j.c.ends (4, bytes.length) }
    else
      let j := j.settle (liftVa (j.writeBytes (j.c.pNat 0) bytes))
      { j with c := j.c.finishCopy }

/-! ### Operand checks at the start of a command -/

/-- HLDZ reads the header and the bitmask of its record (R253). -/
def Job.startHldz (j : Job) : Job :=
  let code := j.c.pNat 1
  let n := j.c.total * (512 / fmtWidth code)
  match j.readBytes (j.c.pNat 0) (8 + maskBytes n) with
  | .error a => { j with c := j.c.ends (vaFailure a) }
  | .ok (bs, j) =>
    if bs.any (·.res) then j
    else if bs.any (·.poi) || !headerOk code (bs.map (·.byte)) then
      let j := j.metaFault (j.c.pNat 0) bs
      { j with c.sink := true }
    else { j with c.bytes := bs.map (·.byte) }

/-- Whether a byte can be written, or is merely not resident. -/
def Job.permitted (j : Job) (va : Nat) : Bool :=
  match j.s.locate j.who va .store with
  | .error .fault => false
  | .error .nonResident => true
  | .ok _ => true

/-- The address at which an access of `n` bytes breaks the rule of the window, if it does (R180). -/
def Job.windowFault (j : Job) (a : Access) (va n : Nat) : Option Nat :=
  if va + n ≤ bwin ∨ 2 ^ 56 ≤ va then none
  else
    match j.s.locateN j.who va a n with
    | .error e => some e.2
    | .ok _ => none

/-- As `windowFault`, for the elements of a tensor at some coordinates, or the planes of its packed tiles that hold them. -/
def Job.tensorFault (j : Job) (h : Shape) (a : Access) (cs : List Coord) : Option Nat :=
  let cs := cs.filter h.inside
  if h.layout < 2 then cs.findSome? (fun c => j.windowFault a (h.bitAddr c).1 (elemBytes h.width))
  else
    (cs.foldl (fun ns c => setAdd ns (h.tileNo c)) []).findSome? (fun n =>
      let va := (h.base + 4096 * n) % 2 ^ 64
      if h.layout = 3 then (j.windowFault a va 1).or (j.windowFault a (h.maskAddr n) (8 + h.tileElems / 8))
      else (j.windowFault a va (h.slots * h.width / 8)).or (j.windowFault a (h.indexAddr n 0) h.slots))

/-- A command that would break the rule of the window somewhere ends before it writes anything (R180). -/
def Job.unlessFault (j : Job) (f : Option Nat) : Job :=
  match f with
  | none => j
  | some a => { j with c := j.c.ends (vaFailure a) }

/-- Every coordinate that a drain command stores to. -/
def EngCmd.storeCoords (k : EngCmd) (w : Nat) : List Coord :=
  (List.range k.total).flatMap (fun o => k.coords w (k.lf + o / k.epos) (o % k.epos))

/-- HSTORE, HSCAT and the tensor form of HSTZ begin. -/
def Job.startStore (j : Job) : Job :=
  let h := j.c.shape 0
  j.unlessFault (j.tensorFault h .store (j.c.storeCoords h.width))

/-- Addresses of a packed tile's planes. -/
def Shape.planeEnds (h : Shape) (n : Nat) : List Nat :=
  let a := (h.base + 4096 * n) % 2 ^ 64
  if h.layout = 3 then [a, (a + 4095) % 2 ^ 64, h.maskAddr n, (h.maskAddr n + 7 + h.tileElems / 8) % 2 ^ 64]
  else [a, (a + 4095) % 2 ^ 64, h.indexAddr n 0, h.indexAddr n (h.slots - 1)]

/-- Every page of a destination can be written (R261). -/
def Job.destOk (j : Job) (d : Nat) : Bool :=
  let h := j.c.shape d
  let cs := (j.c.storeCoords h.width).filter h.inside
  if (j.tensorFault h .store cs).isSome then false
  else if h.layout < 2 then cs.all (fun c => (List.range (elemBytes h.width)).all (fun i => j.permitted (((h.bitAddr c).1 + i) % 2 ^ 64)))
  else cs.all (fun c => (h.planeEnds (h.tileNo c)).all j.permitted)

/-- The places of the bytes that a multicast writes to a destination. -/
def Job.destLocs (j : Job) (d : Nat) : List Loc :=
  let h := j.c.shape d
  ((j.c.storeCoords h.width).filter h.inside).flatMap (fun c => (List.range (elemBytes h.width)).filterMap (fun i =>
    (j.s.locate j.who (((h.bitAddr c).1 + i) % 2 ^ 64) .store).toOption))

/-- Whether the order in which destinations are written can show: two of them share a byte, or one is packed, whose bytes depend on what
its tiles hold (R261). -/
def Job.overlap (j : Job) (dn : Nat) : Bool :=
  decide (1 < dn) && ((List.range dn).any (fun d => decide (2 ≤ (j.c.shape d).layout)) ||
    (List.range dn).any (fun d => (List.range d).any (fun e => (j.destLocs d).any (j.destLocs e).contains)))

/-- HMCAST reads its block and makes the checks of R261. A status 3 names a destination (R239, R266). -/
def Job.startHmcast (j : Job) : Job :=
  match j.readBlock 0 with
  | .error f => { j with c := j.c.ends (if f.1 = 3 then (3, 4) else f) }
  | .ok b =>
    let j := j.blockRead 0
    let n := b.toNat
    let dn := j.c.e.xtra + 1
    if fld n 192 320 ≠ 0 ∨ fld n (32 * dn) (128 - 32 * dn) ≠ 0 then { j with c := j.c.ends (1, 0) }
    else
      let k := { j.c with block := b }
      let (k, s) := k.dests.zipIdx.foldl (fun (x : EngCmd × State) d =>
        if x.1.outcome.isSome then x
        else
          let (k, s) := x.2.takeHandles x.1 [(d.2, d.1)]
          (match k.outcome with
          | some (3, _) => ({ x.1 with outcome := some (3, BitVec.ofNat 32 d.2) }, s)
          | _ => (k, s))) (k, j.s)
      let j : Job := { s := s, c := k }
      if k.outcome.isSome then j
      else
        match (List.range dn).find? (fun d => !j.destOk d) with
        | some d => { j with c := j.c.ends (3, d) }
        | none => { j with c.serial := j.overlap dn }

/-- A command at work goes back to its context. -/
def Job.commit (j : Job) : State := { j.s with ctx.cmds := j.s.ctx.cmds.map (fun k => if k.seq = j.c.seq then j.c else k) }

/-- A drain command moves a tile once it holds all the tile's elements. -/
def EngCmd.tileReady (k : EngCmd) : Bool :=
  match k.op with
  | .hstz _ => (List.range k.total).all (fun o => (k.heldAt o).isSome)
  | _ =>
    if drainOp k.op then (if k.allStored then k.served else k.runChunks.isSome) else true

/-! ### Stopping at a transfer-tile boundary (R241, R327) -/

/-- The first element that a hatch command has not moved. -/
def EngCmd.firstOpen (k : EngCmd) : Nat :=
  ((List.range k.total).find? (fun o => decide (k.progress (k.lf + o / k.epos) ≤ o % k.epos))).getD k.total

/-- Elements of lane `l` before a mark. -/
def EngCmd.laneMark (k : EngCmd) (p l : Nat) : Nat := min (p - (l - k.lf) * k.epos) k.epos

/-- The progress of a command that has moved exactly the elements before a mark. -/
def EngCmd.progAt (k : EngCmd) (p : Nat) : List Nat := (List.range 16).map (fun l => if l < k.lf then 0 else k.laneMark p l)

/-- Whether its transfer tiles are the runs of 64 chunks of R241. -/
def EngCmd.inRuns (k : EngCmd) : Bool := k.recs.isEmpty || (k.shape 0).layout == 0

/-- The transfer tile in which a command stands at a mark, the next one where the mark is a boundary, and the mark at which one begins that
moves a tile next. -/
def EngCmd.tileFrom (k : EngCmd) (p : Nat) : Nat :=
  if k.inRuns then (if k.total ≤ p then (p + 63) / 64 else p / 64) else if k.total ≤ p then (k.shape 0).tileCount else k.tileAt 0 p

def EngCmd.resumeAt (k : EngCmd) (t : Nat) : Nat :=
  if k.inRuns then min (64 * t) k.total else ((List.range k.total).find? (fun o => k.tileAt 0 o == t)).getD k.total

/-- The lane from which, or to which, a command moves an element next. -/
def Context.nextLane (c : Context) (n : Nat) (k : EngCmd) : Option Nat :=
  if c.serves n k then
    (List.range 16).find? (fun l => k.wants l && k.lowest c l &&
      (if inHatchOp k.op then decide ((c.lane k.hatchIx l).length < 32) else !(c.lane k.hatchIx l).isEmpty))
  else none

/-- An in-hatch command goes on to its next boundary, as far as the lanes have room. -/
def State.fillOn (s : State) (n : Nat) : Nat → State
  | 0 => s
  | fuel + 1 =>
    match s.ctx.cmds[n]? with
    | none => s
    | some k =>
      if k.outcome.isSome || (k.prog == k.progAt k.firstOpen && k.boundary 0 k.firstOpen) then s
      else
        match s.ctx.nextLane n k with
        | none => s
        | some l => (s.hatchFill n l).fillOn n fuel

/-- A drain command goes on to its next boundary, as far as the lanes hold elements. -/
def State.takeOn (s : State) (n : Nat) : Nat → State
  | 0 => s
  | fuel + 1 =>
    match s.ctx.cmds[n]? with
    | none => s
    | some k =>
      if k.outcome.isSome || k.prog == k.progAt k.stored then s
      else if k.tileReady then ({ s := s, c := k } : Job).drainTile.commit.takeOn n fuel
      else
        match s.ctx.nextLane n k with
        | none => s
        | some l => (s.hatchDrainTake n l).takeOn n fuel

/-- The last boundary that a mark has passed. -/
def EngCmd.lastBoundary (k : EngCmd) (p : Nat) : Nat := ((List.range (p + 1)).reverse.find? (k.boundary 0)).getD 0

/-- What an in-hatch command has placed after a mark leaves the ends of its lanes, where all of it still stands there. -/
def Context.backFill (c : Context) (n : Nat) (k : EngCmd) (p : Nat) : Context :=
  let extra (l : Nat) : Nat := k.progress l - (k.progAt p).getD l 0
  if (List.range 16).all (fun l => decide (extra l ≤ (c.lane k.hatchIx l).length)) then
    let c := (List.range 16).foldl (fun c l => c.setLane k.hatchIx l ((c.lane k.hatchIx l).take ((c.lane k.hatchIx l).length - extra l))) c
    { c with cmds := replaceNth c.cmds n { k with prog := k.progAt p } }
  else c

/-- What a drain command has taken after a mark goes back to the front of its lanes, where there is room for all of it. -/
def Context.backTake (c : Context) (n : Nat) (k : EngCmd) (p : Nat) : Context :=
  let mine (l : Nat) : List (Nat × Nat × Chunk) := k.held.filter (fun x => x.1 == l && decide (p ≤ k.ordinal x.1 x.2.1))
  if (List.range 16).all (fun l => decide ((mine l).length + (c.lane k.hatchIx l).length ≤ 32)) then
    let c := (List.range 16).foldl (fun c l => c.setLane k.hatchIx l ((mine l).map (fun x => x.2.2) ++ c.lane k.hatchIx l)) c
    let back := (List.range 16).flatMap mine
    let k := { k with prog := k.progAt p, tile := if k.serial && p == 0 then 0 else k.tile, held := k.held.filter (fun x => !back.contains x),
                      poisoned := k.poisoned - (back.filter (fun x => x.2.2.psn != 0)).length }
    { c with cmds := replaceNth c.cmds n k }
  else c

/-- A command that has stopped checks the generations of its next tile anew (R223, R327). -/
def State.recheck (s : State) (n : Nat) : State :=
  { s with ctx.cmds := s.ctx.cmds.zipIdx.map (fun x => if x.2 = n then { x.1 with checked := [] } else x.1) }

/-- A hatch command stops at a boundary between two transfer tiles (R327): the next one that it can reach, or the last one that it has
passed. The record form of HSTZ stops at any element, since what it has taken is saved. One that can do neither keeps the place where
it stands (log entry 56). -/
def State.stopCmd (s : State) (n : Nat) : State :=
  match s.ctx.cmds[n]? with
  | none => s
  | some k =>
    if !hatchOp k.op || k.closed || k.outcome.isSome then s
    else
      let s := if inHatchOp k.op then s.fillOn n (k.total + 1) else match k.op with
        | .hstz _ => s
        | _ => s.takeOn n (2 * k.total + 2)
      match s.ctx.cmds[n]? with
      | none => s
      | some k =>
        if k.outcome.isSome then s
        else
          match k.op with
          | .hstz _ => s.setCtx (s.ctx.backTake n k k.firstOpen)
          | _ => State.recheck (s.setCtx (if inHatchOp k.op then s.ctx.backFill n k (k.lastBoundary k.firstOpen) else s.ctx.backTake n k k.stored)) n

/-! ### COPY and CFILL (R257, R275, R277) -/

def isFill : Instr → Bool
  | .cfill _ => true
  | _ => false

/-- The rectangle's sizes and origins. -/
def blockCoord (b : BitVec 512) (lo : Nat) : Coord :=
  ⟨fld b.toNat lo 32, fld b.toNat (lo + 32) 32, fld b.toNat (lo + 64) 32, fld b.toNat (lo + 96) 32, fld b.toNat (lo + 128) 32⟩

def EngCmd.size (k : EngCmd) : Coord := blockCoord k.block 320
def EngCmd.dstOrg (k : EngCmd) : Coord := blockCoord k.block 160
def EngCmd.srcOrg (k : EngCmd) : Coord := blockCoord k.block 0

def Coord.volume (c : Coord) : Nat := c.c0 * c.c1 * c.c2 * c.c3 * c.c4

/-- The place of the destination's record among those kept: COPY keeps the source's first. -/
def EngCmd.dstIx (k : EngCmd) : Nat := if isFill k.op then 0 else 1

def sizeOk (rank : Nat) (c : Coord) : Bool :=
  let f (i e : Nat) : Bool := if i < rank then e != 0 else e == 1
  f 0 c.c0 && f 1 c.c1 && f 2 c.c2 && f 3 c.c3 && f 4 c.c4

/-- The n-th coordinates of a box, dimension 0 fastest. -/
def Coord.nth (sz : Coord) (n : Nat) : Coord :=
  ⟨n % sz.c0, n / sz.c0 % sz.c1, n / (sz.c0 * sz.c1) % sz.c2, n / (sz.c0 * sz.c1 * sz.c2) % sz.c3, n / (sz.c0 * sz.c1 * sz.c2 * sz.c3)⟩

/-- The rectangle-order number of an element. -/
def Coord.ordinal (sz c : Coord) : Nat := c.c0 + sz.c0 * (c.c1 + sz.c1 * (c.c2 + sz.c2 * (c.c3 + sz.c3 * c.c4)))

/-- The destination's tiles that the rectangle meets inside the extents: first tile index and number of tiles, by dimension. -/
def EngCmd.tileBox (k : EngCmd) : Coord × Coord :=
  let h := k.shape k.dstIx
  let d := k.dstOrg
  let z := k.size
  let cnt (o n ext tl : Nat) : Nat := if o < min (o + n) ext then (min (o + n) ext - 1) / 2 ^ tl - o / 2 ^ tl + 1 else 0
  (⟨d.c0 / 2 ^ h.tlog0, d.c1 / 2 ^ h.tlog1, d.c2, d.c3, d.c4⟩,
   ⟨cnt d.c0 z.c0 h.ext.c0 h.tlog0, cnt d.c1 z.c1 h.ext.c1 h.tlog1, cnt d.c2 z.c2 h.ext.c2 0, cnt d.c3 z.c3 h.ext.c3 0, cnt d.c4 z.c4 h.ext.c4 0⟩)

/-- Transfer tiles of the destination (R241). -/
def EngCmd.copyTiles (k : EngCmd) : Nat :=
  let h := k.shape k.dstIx
  if h.layout = 0 then (k.size.volume * h.width + 32767) / 32768 else k.tileBox.2.volume

/-- The elements of transfer tile `u`, as coordinates within the rectangle, in its order. -/
def EngCmd.copyCoords (k : EngCmd) (u : Nat) : List Coord :=
  let h := k.shape k.dstIx
  let z := k.size
  let per := 32768 / h.width
  if h.layout = 0 then (List.range (min per (z.volume - per * u))).map (fun i => z.nth (per * u + i))
  else
    let (lo, n) := k.tileBox
    let t := n.nth u
    let d := k.dstOrg
    let a0 := max d.c0 ((lo.c0 + t.c0) * 2 ^ h.tlog0)
    let b0 := min (min (d.c0 + z.c0) h.ext.c0) ((lo.c0 + t.c0 + 1) * 2 ^ h.tlog0)
    let a1 := max d.c1 ((lo.c1 + t.c1) * 2 ^ h.tlog1)
    let b1 := min (min (d.c1 + z.c1) h.ext.c1) ((lo.c1 + t.c1 + 1) * 2 ^ h.tlog1)
    (List.range (b1 - a1)).flatMap (fun y => (List.range (b0 - a0)).map (fun x =>
      ⟨a0 + x - d.c0, a1 + y - d.c1, t.c2, t.c3, t.c4⟩))

/-- COPY and CFILL read their region block (R266, R275). -/
def Job.startCopy (j : Job) : Job :=
  match j.readBlock 2 with
  | .error f => { j with c := j.c.ends f }
  | .ok b =>
    let j := j.blockRead 2
    let k : EngCmd := { j.c with block := b }
    if fld b.toNat 480 32 ≠ 0 ∨ sizeOk (k.shape k.dstIx).rank k.size = false ∨ (isFill k.op = true ∧ fld b.toNat 0 160 ≠ 0) then
      { j with c := j.c.ends (1, 2) }
    else if k.copyTiles = 0 then { j with c := k.finishCopy }
    else
      let cs := (List.range k.size.volume).map k.size.nth
      let j : Job := { j with c := k }
      let dst := j.tensorFault (k.shape k.dstIx) .store (cs.map (fun c => k.dstOrg.add c))
      j.unlessFault (if isFill k.op then dst else (j.tensorFault (k.shape 0) .load (cs.map (fun c => k.srcOrg.add c))).or dst)

/-- The tile number of a tensor that the first of some elements lies in; row-major tiles follow the rectangle's order (R241). -/
def EngCmd.copyTileNo (k : EngCmd) (h : Shape) (org : Coord) (cs : List Coord) : Nat :=
  match cs.find? (fun c => h.inside (org.add c)) with
  | some c => if h.layout = 0 then k.size.ordinal c * h.width / 32768 else h.tileNo (org.add c)
  | none => match cs with
    | [] => 0
    | c :: _ => k.size.ordinal c * h.width / 32768

/-- One destination tile: generations, then every source element, then the writes (R257). Source bytes of a page that is not resident are
read as zeros and written or encoded as such (log entry 72). -/
def Job.copyRun (j : Job) : Except Failure Job :=
  let k := j.c
  let cs := k.copyCoords k.tile
  let hd := k.shape k.dstIx
  if isFill k.op then
    match j.checkGen 0 (k.pNat 1 % 2 ^ 32) (k.copyTileNo hd k.dstOrg cs) with
    | .error f => .error f
    | .ok j => liftVa (j.writeAny hd (cs.map (fun c => (k.dstOrg.add c, { val := k.pNat 0, poi := 0, res := 0, flag := false }))))
  else
    let hs := k.shape 0
    match j.checkGen 0 (k.pNat 0 % 2 ^ 32) (k.copyTileNo hs k.srcOrg cs) with
    | .error f => .error f
    | .ok j =>
      match j.checkGen 1 (k.pNat 1 % 2 ^ 32) (k.copyTileNo hd k.dstOrg cs) with
      | .error f => .error f
      | .ok j =>
        match j.readElems hs [] (cs.map (fun c => k.srcOrg.add c)) with
        | .error a => .error (vaFailure a)
        | .ok (es, j) => liftVa (j.writeAny hd ((cs.map (fun c => k.dstOrg.add c)).zip es))

/-- The next transfer tile of COPY or CFILL. Each tile's generations are checked anew. -/
def Job.copyTile (j : Job) : Job :=
  if j.c.copyTiles ≤ j.c.tile then { j with c := j.c.finishCopy }
  else
    let j := ({ j with c.checked := [] } : Job)
    let j := j.settle j.copyRun
    if j.c.outcome.isSome then j
    else
      let k := { j.c with tile := j.c.tile + 1 }
      { j with c := if k.copyTiles ≤ k.tile then k.finishCopy else k }

/-! ### ZMAP (R257, R279) -/

def EngCmd.zmapTiles (k : EngCmd) : Nat :=
  if k.pNat 1 = 0 then 0 else (k.pNat 0 + k.pNat 1 - 1) / 4096 - k.pNat 0 / 4096 + 1

/-- ZMAP begins: each slot of the window that its range meets is checked at both ends of what it covers there (R180). -/
def Job.startZmap (j : Job) : Job :=
  let lo := j.c.pNat 0
  let hi := lo + j.c.pNat 1
  j.unlessFault ((List.range 16).findSome? (fun r =>
    let a := max lo (bwin + 0x4000000 * r)
    let b := min hi (bwin + 0x4000000 * (r + 1))
    if a < b then (j.windowFault .store a 1).or (j.windowFault .store (b - 1) 1) else none))

/-- The next 4 KiB of the range: the flag of a whole tile of a zero-mapped region, zeros over anything else. -/
def Job.zmapTile (j : Job) : Job :=
  let k := j.c
  if k.zmapTiles ≤ k.tile then { j with c := k.finish }
  else
    let lo := (k.pNat 0 / 4096 + k.tile) * 4096
    let a := max lo (k.pNat 0)
    let b := min (lo + 4096) (k.pNat 0 + k.pNat 1)
    let j :=
      match (if b - a = 4096 then (j.s.locate j.who a .store).toOption else none) with
      | some (.mem p) => if p.zmap then { j with s := j.s.setFlag p } else j.settle (liftVa (j.writeBytes a (List.replicate (b - a) (0, false))))
      | some (.backing p _) => if p.zmap then { j with s := j.s.setFlag p } else j.settle (liftVa (j.writeBytes a (List.replicate (b - a) (0, false))))
      | some (.scratch _ _) => j.settle (liftVa (j.writeBytes a (List.replicate (b - a) (0, false))))
      | some (.lost _ _) => j.settle (liftVa (j.writeBytes a (List.replicate (b - a) (0, false))))
      | none => j.settle (liftVa (j.writeBytes a (List.replicate (b - a) (0, false))))
    if j.c.outcome.isSome then j
    else
      let k := { j.c with tile := j.c.tile + 1 }
      { j with c := if k.zmapTiles ≤ k.tile then k.finish else k }

/-! ### Tickets complete (R237, R240) -/

/-- The completion of a command's ticket reaches the commands that consume it. -/
def TicketDep.reach (seq : Nat) (r : BitVec 4 × BitVec 32) (d : TicketDep) : TicketDep :=
  if d.seq = seq ∧ d.kept = none then { d with kept := some r } else d

/-- The ticket holds the command's status, the entries of TKTEST that waited for it fill, and its consumers see it. -/
def Context.completeTicket (c : Context) (k : EngCmd) (r : BitVec 4 × BitVec 32) : Context :=
  let c := { c with cmds := c.cmds.map (fun x => { x with deps := x.deps.map (TicketDep.reach k.seq r) }) }
  if k.e.kp = 0 then c
  else
    let t := c.tickets[k.e.kp.toFin]
    ({ c with tickets := c.tickets.set k.e.kp.toFin { t with pending := false, status := r.1, detail := r.2, away := false } }).cqFill
      (tktestTag k.e.kp.toNat) (r.1 == 0) false

/-- Command `n`, which has its outcome, ends. One that still owes elements to its hatch stays to deliver them (R250). -/
def Context.ticketComplete (c : Context) (n : Nat) : Context :=
  match c.cmds[n]? with
  | none => c
  | some k =>
    match k.outcome with
    | none => c
    | some r =>
      if k.closed || k.out != [] then c
      else
        let c := if hatchOp k.op && !k.served then { c with cmds := replaceNth c.cmds n { k with closed := true } }
          else { c with cmds := c.cmds.eraseIdx n }
        c.completeTicket k r

/-- R240's ranking of statuses, highest first. -/
def joinRank : List (BitVec 4) := [7, 1, 3, 2, 4, 6, 8, 5, 0]

/-- The status and detail of TKJOIN: the highest-ranked of those it consumes, the lowest field among equals. -/
def joinOutcome (l : List (BitVec 4 × BitVec 32)) : BitVec 4 × BitVec 32 :=
  ((joinRank.map (fun st => l.find? (fun r => r.1 == st))).findSome? id).getD (0, 0)

end Sys2Proof.Machine
end

