-- ==== Sys2Proof/Machine/Compress.lean ====
section
/-! DEFINITION. The error-bounded compressor (R258 to R260, R278): CSQZ and CXPD. Each runs whole, as one transfer. -/

namespace Sys2Proof.Machine

/-- ε as a mantissa and the exponent of 2ε. -/
def twoEps (bits : Nat) : Nat × Int :=
  match fmtF32.value bits with
  | .fin _ m e => (m, e + 1)
  | .inf _ => (0, 0)
  | .nan => (0, 0)

/-- The float format of a stream's FMT byte. -/
def squeezeFmt (code : Nat) : Option FFmt :=
  match fmtOf code with
  | some (.flt f) => if squeezable code then some f else none
  | some (.int _) => none
  | none => none

/-- The value that the expander returns for `q` (R259). -/
def dequantize (f : FFmt) (eps : Nat × Int) (q : Int) : Nat := (f.roundFin .rne false (decide (q < 0)) (q.natAbs * eps.1) eps.2 false).1

/-- Round-half-even of n / d. -/
def divRne (n d : Nat) : Nat :=
  let q := n / d
  let r := n % d
  if d < 2 * r ∨ (2 * r = d ∧ q % 2 = 1) then q + 1 else q

def zigzag (d : Int) : Nat := if 0 ≤ d then (2 * d).toNat else (-2 * d - 1).toNat
def unzigzag (z : Nat) : Int := if z % 2 = 0 then (z / 2 : Nat) else -((z / 2 : Nat) : Int) - 1

/-- The quantum of a value and its zigzag difference, or none where the value is escaped (R259). -/
def quantize (f : FFmt) (eps : Nat × Int) (x : Nat) (prev : Int) : Option (Int × Nat) :=
  match f.value x with
  | .nan => none
  | .inf _ => none
  | .fin neg m e =>
    let num := m * 2 ^ (e - eps.2).toNat
    let den := eps.1 * 2 ^ (eps.2 - e).toNat
    if den * 2 ^ 30 ≤ num then none
    else
      let a := divRne num den
      let q : Int := if neg then -(a : Int) else a
      match f.value (dequantize f eps q) with
      | .nan => none
      | .inf _ => none
      | .fin n' m' e' =>
        let e0 := min (min e e') (eps.2 - 1)
        let diff := (scaled neg m e e0 - scaled n' m' e' e0).natAbs
        let z := zigzag (q - prev)
        if (eps.1 * 2 ^ (eps.2 - 1 - e0).toNat) < diff ∨ 2 ^ 31 ≤ z then none else some (q, z)

/-- Escape bits and list of a block (R259). A poisoned value is escaped (R278). -/
def blockList (f : FFmt) (eps : Nat × Int) : Int → List (Nat × Nat) → List Bool × List Nat
  | _, [] => ([], [])
  | prev, (x, p) :: r =>
    match (if p ≠ 0 then none else quantize f eps x prev) with
    | none =>
      let (es, zs) := blockList f eps prev r
      (true :: es, zs)
    | some (q, z) =>
      let (es, zs) := blockList f eps q r
      (false :: es, z :: zs)

def bitLength (n : Nat) : Nat := if n = 0 then 0 else Nat.log2 n + 1

/-- One encoded block with its poison marks. -/
def encodeBlock (f : FFmt) (eps : Nat × Int) (xs : List (Nat × Nat)) : List (Byte × Bool) :=
  let (es, zs) := blockList f eps 0 xs
  let w := bitLength (zs.foldl max 0)
  let esc := marks es
  let clean (l : List Byte) : List (Byte × Bool) := l.map (fun b => (b, false))
  clean [BitVec.ofNat 8 (w + (if esc = 0 then 0 else 32))] ++
    (if esc = 0 then [] else clean (leBytes 8 esc)) ++
    clean (leBytes ((w * zs.length + 7) / 8) ((zs.zipIdx.map (fun x => x.1 * 2 ^ (w * x.2))).sum)) ++
    ((xs.zip es).filter Prod.snd).flatMap (fun x => ({ val := x.1.1, poi := x.1.2, res := 0, flag := false } : Elem).bytes f.width)

def chunksOf {α : Type} (n : Nat) : Nat → List α → List (List α)
  | 0, _ => []
  | fuel + 1, l => if l.isEmpty then [] else l.take n :: chunksOf n fuel (l.drop n)

/-- The whole stream (R258). -/
def encodeStream (code epsBits : Nat) (f : FFmt) (xs : List (Nat × Nat)) : List (Byte × Bool) :=
  (leBytes 4 xs.length ++ leBytes 4 epsBits ++ [BitVec.ofNat 8 code, 1, 0, 0, 0, 0, 0, 0]).map (fun b => (b, false)) ++
    (chunksOf 64 xs.length xs).flatMap (encodeBlock f (twoEps epsBits))

/-- CSQZ: reads, encodes, and writes the stream when it fits (R260, R278). -/
def Job.csqz (j : Job) : Job :=
  let code := fld (j.c.pNat 3) 32 6
  match squeezeFmt code with
  | none => { j with c := j.c.ends (1, 3) }
  | some f =>
    let n := fld (j.c.pNat 1) 0 32
    let wb := f.width / 8
    match j.readBytes (j.c.pNat 0) (n * wb) with
    | .error a => { j with c := j.c.ends (vaFailure a) }
    | .ok (bs, j) =>
      let xs := (List.range n).map (fun i =>
        let b := (bs.drop (i * wb)).take wb
        (ofLeBytes (b.map (·.byte)), marks (b.map (·.poi))))
      let out := encodeStream code (fld (j.c.pNat 1) 32 32) f xs
      if fld (j.c.pNat 3) 0 32 < out.length then { j with c := j.c.ends (4, out.length) }
      else
        let j := j.settle (liftVa (j.writeBytes (j.c.pNat 2) out))
        { j with c := j.c.finishCopy }

/-! ### CXPD -/

/-- The reader of CXPD: what it has read, where it stands, and the poisoned units met. -/
structure InStream where
  j : Job
  pos : Nat
  units : List Nat
  deriving DecidableEq, Repr

/-- The next `n` bytes: none when P1 cuts them short (R278). -/
def InStream.take (i : InStream) (n : Nat) : Except Nat (Option (List EByte) × InStream) :=
  let k := min n (i.j.c.pNat 1 - i.pos)
  match i.j.readBytes ((i.j.c.pNat 0 + i.pos) % 2 ^ 64) k with
  | .error a => .error a
  | .ok (bs, j) =>
    let us := (poisonedUnits (i.j.c.pNat 0 + i.pos) (bs.map (fun b => (b.byte, b.poi)))).foldl setAdd i.units
    .ok (if k < n then none else some bs, { j := j, pos := i.pos + n, units := us })

/-- The values of one block: kept ones from their quanta, escaped ones raw. -/
def blockValues (f : FFmt) (eps : Nat × Int) (w : Nat) (diff : Nat) (raw : List EByte) : Int → Nat → Nat → List Bool → List Elem
  | _, _, _, [] => []
  | prev, k, r, false :: es =>
    let q := prev + unzigzag (diff / 2 ^ (w * k) % 2 ^ w)
    { val := dequantize f eps q, poi := 0, res := 0, flag := false } :: blockValues f eps w diff raw q (k + 1) r es
  | prev, k, r, true :: es =>
    let b := (raw.drop (r * (f.width / 8))).take (f.width / 8)
    { val := ofLeBytes (b.map (·.byte)), poi := marks (b.map (·.poi)), res := 0, flag := false } :: blockValues f eps w diff raw prev k (r + 1) es

/-- One block of `c` values: none on a stream fault (R260). -/
def InStream.block (i : InStream) (f : FFmt) (eps : Nat × Int) (c : Nat) : Except Nat (Option (List Elem) × InStream) :=
  match i.take 1 with
  | .error a => .error a
  | .ok (none, i) => .ok (none, i)
  | .ok (some hb, i) =>
    let h := (((hb.map EByte.byte : List Byte)).getD 0 0).toNat
    if hb.any (·.poi) || decide (64 ≤ h) then .ok (none, i)
    else
      match i.take (if h / 32 % 2 = 1 then 8 else 0) with
      | .error a => .error a
      | .ok (none, i) => .ok (none, i)
      | .ok (some eb, i) =>
        if eb.any (·.poi) then .ok (none, i)
        else
          let esc := ofLeBytes (eb.map (·.byte))
          let es := (List.range c).map (fun t => esc / 2 ^ t % 2 == 1)
          let kept := (es.filter (! ·)).length
          let w := h % 32
          match i.take ((w * kept + 7) / 8) with
          | .error a => .error a
          | .ok (none, i) => .ok (none, i)
          | .ok (some db, i) =>
            if db.any (·.poi) then .ok (none, i)
            else
              match i.take ((c - kept) * (f.width / 8)) with
              | .error a => .error a
              | .ok (none, i) => .ok (none, i)
              | .ok (some raw, i) => .ok (some (blockValues f eps w (ofLeBytes (db.map (·.byte))) raw 0 0 0 es), i)

/-- The blocks of `n` values: those before the first fault, and whether there is one. -/
def InStream.blocks (i : InStream) (f : FFmt) (eps : Nat × Int) : Nat → Nat → Except Nat (List Elem × Bool × InStream)
  | 0, _ => .ok ([], false, i)
  | fuel + 1, n =>
    if n = 0 then .ok ([], false, i)
    else
      match i.block f eps (min 64 n) with
      | .error a => .error a
      | .ok (none, i) => .ok ([], true, i)
      | .ok (some l, i) =>
        match i.blocks f eps fuel (n - 64) with
        | .error a => .error a
        | .ok (r, bad, i) => .ok (l ++ r, bad, i)

/-- Writes what has been expanded, and ends (R260). -/
def Job.expanded (j : Job) (f : FFmt) (l : List Elem) (bad : Bool) (units : List Nat) : Job :=
  match j.writeBytes (j.c.pNat 2) (l.flatMap (fun e => e.bytes f.width)) with
  | .error a => { j with c := j.c.ends (vaFailure a) }
  | .ok j =>
    let j := j.storePath
    if bad || l.any (fun e => e.poi != 0) then { j with c := j.c.ends (6, units.length) } else { j with c := j.c.finish }

/-- CXPD (R260, R278). -/
def Job.cxpd (j : Job) : Job :=
  match ({ j := j, pos := 0, units := [] } : InStream).take 16 with
  | .error a => { j with c := j.c.ends (vaFailure a) }
  | .ok (none, i) => { i.j with c := i.j.c.ends (6, i.units.length) }
  | .ok (some hb, i) =>
    let hs : List Byte := hb.map EByte.byte
    let epsBits := ofLeBytes ((hs.drop 4).take 4)
    match squeezeFmt (hs.getD 8 0).toNat with
    | none => { i.j with c := i.j.c.ends (6, i.units.length) }
    | some f =>
      if hb.any (·.poi) || (hs.getD 9 0 != 1) || (hs.drop 10).any (· != 0) || !epsOk epsBits then
        { i.j with c := i.j.c.ends (6, i.units.length) }
      else
        let n := ofLeBytes (hs.take 4)
        if j.c.pNat 3 < n * (f.width / 8) then { i.j with c := i.j.c.ends (4, n * (f.width / 8)) }
        else
          match i.blocks f (twoEps epsBits) n n with
          | .error a => { i.j with c := i.j.c.ends (vaFailure a) }
          | .ok (l, bad, i) => i.j.expanded f l bad i.units

end Sys2Proof.Machine
end

