-- ==== Sys2Proof/Machine/Pipe.lean ====
section
/-! DEFINITION. Pipelines (R106 to R109, R302 to R304, R310, R337): the launch record and its checks, the device's own accesses,
the ways in which contexts and pipelines end, and the completion record. -/

namespace Sys2Proof.Machine

/-! ### The device's accesses (R304) -/

/-- The device accesses a pipeline's memory in its ASID, at supervisor level. -/
def deviceWho (asid : Nat) : Who := { ctxid := none, md := 0, die := none, asid := asid, level := .supervisor, lnum := 0, stage := 8, inst := 0, brigade := 0 }

def State.deviceRead (s : State) (asid va n : Nat) : Except Nat (List (Byte × Bool)) :=
  match s.engineRead (deviceWho asid) va n with
  | .error (_, a) => .error a
  | .ok bs => .ok bs

def State.deviceWrite (s : State) (asid va : Nat) (bs : List (Byte × Bool)) : Except Nat State :=
  match s.engineWrite (deviceWho asid) va bs with
  | .error (_, a) => .error a
  | .ok s => .ok s

/-- What such a read leaves behind. -/
def State.deviceTouch (s : State) (asid va n : Nat) : State := s.engineTouch (deviceWho asid) va n

def cleanBytes (l : List Byte) : List (Byte × Bool) := l.map (fun b => (b, false))

/-- The first byte from `va` on, below `va + n`, that an access cannot reach; each page is translated once. -/
def State.rangeFault (s : State) (w : Who) (va n : Nat) (a : Access) : Nat → Option Nat
  | 0 => none
  | fuel + 1 =>
    if n = 0 then none
    else
      match s.locate w va a with
      | .error _ => some va
      | .ok _ =>
        let sh := ((s.entryFor w.md w.asid va).map (fun e => pageShift e.size)).getD 16
        let step := 2 ^ sh - va % 2 ^ sh
        if n ≤ step then none else s.rangeFault w (va + step) (n - step) a fuel

/-- The first byte of a range of the device's that fails. -/
def State.deviceRange (s : State) (asid va n : Nat) (a : Access) : Option Nat :=
  if n = 0 then none
  else if 2 ^ 56 < va + n then some (max va (2 ^ 56))
  else s.rangeFault (deviceWho asid) va n a (n / 65536 + 2)

/-! ### Launch records (R107 to R109) -/

def Stage.ofBits (d : Nat) : Stage :=
  { quota := fld d 160 32, maxInst := fld d 128 16, minInst := fld d 112 16, scrHi := fld d 96 8, scrLo := fld d 88 8, out1 := fld d 84 4,
    out0 := fld d 80 4, foot := fld d 72 4, fuse := fld d 70 1 == 1, chain := fld d 68 2 + 1, ctxs := fld d 64 4 + 1, entry := fld d 0 64,
    queue := [] }

def outOk (nstg o : Nat) : Bool := o ≤ nstg || o == 0xE || o == 0xF

/-- A stage descriptor that R109 accepts. -/
def stageOk (nstg : Nat) (d : Nat) : Bool :=
  let g := Stage.ofBits d
  fld d 144 16 == 0 && fld d 104 8 == 0 && fld d 76 4 == 0 && fld d 71 1 == 0 && g.maxInst != 0 && decide (g.minInst ≤ g.maxInst) &&
    decide (g.scrHi ≤ 64) && decide (g.scrLo ≤ g.scrHi) && outOk nstg g.out0 && outOk nstg g.out1 && g.foot != 0 && decide (g.foot ≤ 12) &&
    g.ctxs % g.chain == 0 && g.entry % 4 == 0 && decide (g.entry < 2 ^ 56)

def addrOk (a align : Nat) : Bool := a % align == 0 && decide (a < 2 ^ 56)

/-- The descriptor of stage `i` of a record. -/
def recordStage (r i : Nat) : Nat := fld r (512 + 192 * i) 192

/-- The checks of R109 on the record's own fields. -/
def launchRecordOk (r : Nat) : Bool :=
  let n := fld r 16 3
  let gs := (List.range (n + 1)).map (fun i => Stage.ofBits (recordStage r i))
  fld r 8 8 == 1 && fld r 20 1 == 0 && fld r 21 3 == 0 && fld r 29 3 == 0 && fld r 43 21 == 0 && addrOk (fld r 64 64) 128 &&
    addrOk (fld r 128 64) 4096 && addrOk (fld r 256 64) 64 && addrOk (fld r 320 64) 64 && addrOk (fld r 384 64) 64 &&
    (List.range (n + 1)).all (fun i => stageOk n (recordStage r i)) && (List.range 8).all (fun i => decide (i ≤ n) || recordStage r i == 0) &&
    decide ((gs.map Stage.saveNeed).sum ≤ fld r 192 64) && decide (fld r 448 16 ≤ 64 + fld r (512 + 160) 32)

def orDefault (v d : Nat) : Nat := if v = 0 then d else v

/-- The pipeline of a record, with no instance and no entry yet. -/
def Pipeline.ofRecord (lnum r : Nat) : Pipeline :=
  { lnum := lnum, asid := fld r 32 11, level := if fld r 19 2 = 1 then .supervisor else .user, prio := fld r 24 5,
    wdog := orDefault (fld r 496 16) 1000, age := orDefault (fld r 480 16) 128, rebal := orDefault (fld r 464 16) 8, compl := fld r 320 64,
    spill := fld r 256 64, saveBase := fld r 128 64, saveLen := fld r 192 64, ttbase := fld r 64 64, phase := BitVec.ofNat 8 r,
    stages := (List.range (fld r 16 3 + 1)).map (fun i => Stage.ofBits (recordStage r i)), insts := [], results := [], exitOr := 0, nzcnt := 0,
    dispatched := false, status := 0, closing := false, aborters := [] }

/-- Entries of the spill ring of stage `i` begin here (R108). -/
def Pipeline.ringBase (p : Pipeline) (i : Nat) : Nat := p.spill + 64 * ((p.stages.take i).map (·.quota)).sum

/-- The ranges that the device translates before a launch (R304): address, length, kind. -/
def launchRanges (r : Nat) : List (Nat × Nat × Access) :=
  let p := Pipeline.ofRecord 0 r
  [(fld r 384 64, 64 * fld r 448 16, .load), (p.spill, 64 * (p.stages.map (·.quota)).sum, .atomic), (p.saveBase, p.saveLen, .atomic)]

/-! ### Pipelines in the state -/

def State.mapPipe (s : State) (lnum : Nat) (f : Pipeline → Pipeline) : State :=
  { s with pipelines := s.pipelines.map (fun p => if p.lnum = lnum then f p else p) }

def Pipeline.mapStage (p : Pipeline) (i : Nat) (f : Stage → Stage) : Pipeline :=
  { p with stages := p.stages.zipIdx.map (fun x => if x.2 = i then f x.1 else x.1) }

def State.contexts (s : State) : List Context := (s.ctx :: s.others).filter (fun c => c.status != .absent)

def State.contextOf (s : State) (id : Nat) : Option Context := s.contexts.find? (fun c => c.ctxid.toNat == id && !c.gone)

def Pipeline.mapInst (p : Pipeline) (stage slot : Nat) (f : Inst → Inst) : Pipeline :=
  { p with insts := p.insts.map (fun i => if i.stage = stage ∧ i.slot = slot then f i else i) }

/-- The contexts of one instance. -/
def Context.ofInst (c : Context) (lnum stage slot : Nat) : Bool := c.lnum == lnum && c.stage == stage && c.inst == slot && c.status != .absent

/-- Members of one chain. -/
def Context.sameChain (c m : Context) : Bool :=
  c.lnum == m.lnum && c.stage == m.stage && c.inst == m.inst && c.rank / c.chainLen == m.rank / m.chainLen && m.status != .absent

/-- The outcome of a command is decided by another agent. -/
def State.endCmd (s : State) (id seq : Nat) (f : Failure) : State :=
  mapCtxs s (fun c => if c.ctxid.toNat = id then { c with cmds := c.cmds.map (fun k => if k.seq = seq ∧ k.outcome = none then k.ends f else k) } else c)

/-! ### Ending contexts (R87, R102, R311, R314) -/

/-- A context that can still be ended. -/
def Context.live (c : Context) : Bool :=
  match c.status with
  | .absent => false
  | .ending _ => false
  | .ended _ => false
  | .ready => true
  | .running => true
  | .halted => true
  | .landed => true
  | .parked => true

/-- The context ends. Where its chain was away in a save area, it is so no longer. -/
def Context.terminate (c : Context) (r : EndReason) : Context :=
  if c.live then { c.stopFor r with saved := none } else if c.gone then c else { c with saved := none }

def Context.endReason (c : Context) : Option EndReason :=
  match c.status with
  | .ending r => some r
  | .ended r => some r
  | .absent => none
  | .ready => none
  | .running => none
  | .halted => none
  | .landed => none
  | .parked => none

/-- Endings that take the whole chain along (R102). -/
def EndReason.spreads : EndReason → Bool
  | .aborted => true
  | .watchdog => true
  | .deviceFault => true
  | .exit _ => false
  | .chain => false
  | .idle => false

/-- What the ending of its chain's other members means for a member (R102). -/
def chainFate (ms : List Context) (c : Context) : Option EndReason :=
  match ms.findSome? (fun m => if c.sameChain m then m.endReason.bind (fun r => if r.spreads then some r else none) else none) with
  | some r => some r
  | none => if ms.any (fun m => c.sameChain m && m.rank % m.chainLen == 0 && m.endReason.isSome) then some .chain else none

/-- Members of a chain end together. -/
def State.spreadEnds (s : State) : State :=
  let ms := s.contexts
  if ms.all (fun m => m.endReason.isNone) then s
  else mapCtxs s (fun c => match chainFate ms c with
    | some r => c.terminate r
    | none => c)

/-- The STATUS that an ending gives its pipeline (R302). -/
def EndReason.status : EndReason → Nat
  | .aborted => 3
  | .watchdog => 4
  | .deviceFault => 5
  | .exit _ => 0
  | .chain => 0
  | .idle => 0

def EndReason.value : EndReason → Option (BitVec 32)
  | .exit v => some v
  | .aborted => none
  | .watchdog => none
  | .deviceFault => none
  | .chain => none
  | .idle => none

/-! ### Ending pipelines (R302, R304, R310, R337) -/

/-- A context that ABORT ends stops after its bundle, whose repeats it still issues (R337). -/
def Context.abort (c : Context) (r : EndReason) : Context :=
  if c.status = .running ∧ c.rep ≠ 0 then { c with doomed := some r } else c.terminate r

/-- Every context of a pipeline is terminated; its stage queues and rings are discarded; nothing of it is dispatched any more. -/
def State.abortPipe (s : State) (lnum status : Nat) (r : EndReason) : State :=
  let s := s.mapPipe lnum (fun p =>
    { p with closing := true, status := max p.status status, stages := p.stages.map (fun g => { g with queue := [] }),
             insts := p.insts.map (fun i => if i.state = .fresh then { i with state := .ended } else i) })
  mapCtxs s (fun c => if c.lnum = lnum then c.abort r else c)

/-- A device access for a live pipeline faults (R304). -/
def State.deviceFault (s : State) (lnum va : Nat) : State := (s.abortPipe lnum 5 .deviceFault).log (.deviceAccess va)

/-- The faults that the device has met in this step. -/
def State.takeDevFaults (s : State) : State :=
  s.devFaults.foldl (fun s f => if s.pipelines.any (fun p => p.lnum == f.1) then s.deviceFault f.1 f.2 else s) { s with devFaults := [] }

def entryBytes (q : QEntry) : List (Byte × Bool) :=
  (leBytes 64 q.bits.toNat).zipIdx.map (fun x => (x.1, q.poi.getLsbD x.2))

/-- Completion record bytes (R302). -/
def completionBytes (phase : BitVec 8) (status rcnt nz : Nat) (exitOr : BitVec 32) : List Byte :=
  leBytes 64 (phase.toNat + 2 ^ 8 * status + 2 ^ 16 * rcnt + 2 ^ 64 * (nz % 2 ^ 32) + 2 ^ 96 * exitOr.toNat)

/-- Result entries, then the record (R302). A result entry that faults makes the status 5 (R304). -/
def State.writeResults (s : State) (asid compl : Nat) : Nat → List QEntry → State × Bool
  | _, [] => (s, false)
  | j, q :: r =>
    match s.deviceWrite asid (compl + 64 + 64 * j) (entryBytes q) with
    | .error a =>
      let (s, _) := (s.log (.deviceAccess a)).writeResults asid compl (j + 1) r
      (s, true)
    | .ok s => s.writeResults asid compl (j + 1) r

/-- A completion record and its result entries; none is written after a fatal error (R403). -/
def State.complete (s : State) (asid compl : Nat) (phase : BitVec 8) (status : Nat) (results : List QEntry) (nz : Nat) (exitOr : BitVec 32) : State :=
  if s.mgmt.fatal then s
  else
    let (s, bad) := s.writeResults asid compl 0 results
    match s.deviceWrite asid compl (cleanBytes (completionBytes phase (if bad then 5 else status) results.length nz exitOr)) with
    | .error a => s.log (.deviceAccess a)
    | .ok s => s.msix 2

/-- The contexts of a pipeline that is gone leave the state; another context has the turn. -/
def State.dropContexts (s : State) (lnum : Nat) : State :=
  let keep := s.others.filter (fun c => c.lnum != lnum || c.status == .absent)
  if s.ctx.lnum = lnum ∧ s.ctx.status ≠ .absent then
    match keep with
    | [] => { s with ctx := Context.blank, others := [] }
    | c :: r => { s with ctx := c, others := r }
  else { s with others := keep }

/-- A pipeline is removed with its completion record, which every write of it precedes, by whatever cache it was sent (R302); and the ABORT
commands that waited for it end (R337). -/
def State.endPipe (s : State) (p : Pipeline) (status : Nat) : State :=
  let s := s.mergeWhere (fun _ => true)
  let s := s.complete p.asid p.compl p.phase status p.results p.nzcnt p.exitOr
  let s := p.aborters.foldl (fun s a => s.endCmd a.1 a.2 (0, 0)) s
  ({ s with pipelines := s.pipelines.filter (fun q => q.lnum != p.lnum) }).dropContexts p.lnum

/-- Whether a context is held in WAITQ on an empty input queue (R310): it waits there, or has landed there, and no trap comes before. -/
def State.heldInWaitq (s : State) (c : Context) : Bool :=
  c.inWaitq && c.status != .halted && s.inputCount c == 0 && c.trapDue.isNone && c.liveReports.isEmpty && c.liveFaults.isEmpty

/-- No engine command of a context is in flight, queue operations among them (R327). -/
def Context.idle (c : Context) : Bool := c.inFlight.isEmpty && c.qops.isEmpty

/-- The conditions of R310. -/
def State.pipeIdle (s : State) (p : Pipeline) : Bool :=
  p.stages.all (fun g => g.queue.isEmpty) && p.insts.all (fun i => i.state != .fresh) &&
    (s.contexts.filter (fun c => c.lnum == p.lnum)).all (fun c => c.idle && (c.gone || s.heldInWaitq c))

/-- A pipeline whose work is done: its held contexts are terminated, and once every context has ended the completion record is
written (R310). -/
def State.pipelineEnd (s : State) (lnum : Nat) : State :=
  match s.pipelineOf lnum with
  | none => s
  | some p =>
    if (s.contexts.filter (fun c => c.lnum == lnum)).all (fun c => c.gone) && (p.closing || s.pipeIdle p) then s.endPipe p p.status
    else if s.pipeIdle p then
      mapCtxs (s.mapPipe lnum (fun p => { p with closing := true })) (fun c => if c.lnum = lnum then c.terminate .idle else c)
    else s

def execPipelineEnd (lnum : Nat) (s : State) : Result := .next (s.pipelineEnd lnum)

/-! ### Launching (R308, R337) -/

/-- Instances of a stage that are not over. -/
def Pipeline.instsOf (p : Pipeline) (i : Nat) : List Inst := p.insts.filter (fun x => x.stage == i && x.state != .ended)

/-- Starts one instance of stage `i` in the lowest free slot. -/
def Pipeline.start (p : Pipeline) (i now : Nat) : Pipeline :=
  let used := (p.instsOf i).map (·.slot)
  match (List.range (used.length + 1)).find? (fun k => !used.contains k) with
  | none => p
  | some k =>
    { p with insts := p.insts.filter (fun x => !(x.stage == i && x.slot == k)) ++ [{ stage := i, slot := k, state := .fresh, prio := p.prio, since := now }] }

def Pipeline.startN (p : Pipeline) (i now : Nat) : Nat → Pipeline
  | 0 => p
  | n + 1 => (p.start i now).startN i now n

/-- The initial entries from the `k`-th on are read and enter stage 0's queue: 64 on chip, the rest in its ring. The error is the
address of an access that faults (R304). -/
def State.initialEntries (s : State) (p : Pipeline) (init : Nat) : Nat → Nat → Except Nat (State × List QEntry)
  | _, 0 => .ok (s, [])
  | k, n + 1 =>
    let va := init + 64 * k
    match s.deviceRead p.asid va 64 with
    | .error a => .error a
    | .ok bs =>
      let s := s.deviceTouch p.asid va 64
      let e : QEntry := if k < 64 then { bits := BitVec.ofNat 512 (numOf bs), poi := BitVec.ofNat 64 (marks (bs.map Prod.snd)), ring := none }
        else { bits := 0, poi := 0, ring := some (k - 64) }
      match (if k < 64 then .ok s else s.deviceWrite p.asid (p.ringBase 0 + 64 * (k - 64)) bs) with
      | .error a => .error a
      | .ok s =>
        match s.initialEntries p init (k + 1) n with
        | .error a => .error a
        | .ok (s, l) => .ok (s, e :: l)

/-- A launch number that no live pipeline has (R337). -/
def State.freshLnum (s : State) : Nat :=
  ((List.range 257).map (fun i => (s.nextLnum + i) % 2 ^ 32)).find? (fun n => s.pipelines.all (fun p => p.lnum != n)) |>.getD s.nextLnum

/-- A checked record becomes a live pipeline: MININST instances of each stage, and the initial entries (R308). -/
def State.accept (s : State) (r : Nat) : State × Nat :=
  let n := s.freshLnum
  let p := Pipeline.ofRecord n r
  let p := p.stages.zipIdx.foldl (fun p g => p.startN g.2 s.free g.1.minInst) p
  let live (s : State) (p : Pipeline) : State := { s with pipelines := s.pipelines ++ [p], nextLnum := (n + 1) % 2 ^ 32 }
  match s.initialEntries p (fld r 384 64) 0 (fld r 448 16) with
  | .error a => ((live s p).deviceFault n a, n)
  | .ok (s, q) => (live s (p.mapStage 0 (fun g => { g with queue := q })), n)

/-- Why a record is not launched. -/
inductive LaunchFail where
  /-- The record is bad (R109); its completion record says so. -/
  | bad
  /-- The completion range fails at an address (R304). -/
  | compl (va : Nat)
  /-- 256 pipelines are live. -/
  | full
  deriving DecidableEq, Repr

/-- Where a record's completion range fails: an address (R304). -/
def State.complFault (s : State) (bs : List (Byte × Bool)) : Option Nat :=
  s.deviceRange (fld (numOf bs) 32 11) (fld (numOf bs) 320 64) (64 + 64 * 64) .store

/-- The completion record of a record that is not launched says so (R109). It is written at COMPL, misaligned or not, unless the bytes of
COMPL or of the ASID are poisoned or the range fails (log entry 57). -/
def State.refuse (s : State) (bs : List (Byte × Bool)) : State :=
  let r := numOf bs
  if anyPoison ((bs.drop 40).take 8) || anyPoison ((bs.drop 4).take 2) || (s.complFault bs).isSome then s
  else s.complete (fld r 32 11) (fld r 320 64) (BitVec.ofNat 8 r) 1 [] 0 0

/-- A record given as bytes is checked whole, and launched (R109, R304). -/
def State.tryLaunch (s : State) (bs : List (Byte × Bool)) : Except LaunchFail Nat × State :=
  let r := numOf bs
  if anyPoison ((bs.drop 40).take 8) || anyPoison ((bs.drop 4).take 2) then (.error .bad, s)
  else
    match s.complFault bs with
    | some va => (.error (.compl va), s)
    | none =>
      if anyPoison bs || !launchRecordOk r || (launchRanges r).any (fun x => (s.deviceRange (fld r 32 11) x.1 x.2.1 x.2.2).isSome) then
        (.error .bad, s.refuse bs)
      else if 256 ≤ s.pipelines.length then (.error .full, s)
      else
        let (s, n) := s.accept r
        (.ok n, s)

/-! ### LAUNCH, CANCEL, ABORT (R337) -/

def execLaunch (e : Cmd) (s : State) : Result := issueCmd (.launch e) e [e.p0] judgeNone s
def execCancel (e : Cmd) (s : State) : Result := issueCmd (.cancel e) e [e.p0] judgeNone s
def execAbort (e : Cmd) (s : State) : Result := issueCmd (.abort e) e [e.p0] judgeNone s

def Job.done (j : Job) (f : Failure) : Job := { j with c := j.c.ends f }

/-- LAUNCH reads and checks its record. A misaligned one is bad, and its completion record says so. -/
def Job.startLaunch (j : Job) : Job :=
  let va := j.c.pNat 0
  let bad := va % 64 ≠ 0
  match j.s.engineRead j.who va 256 with
  | .error (_, a) => j.done (if bad then (1, 0) else vaFailure a)
  | .ok bs =>
    let j := { j with s := j.s.engineTouch j.who va 256 }
    let r := numOf bs
    if j.c.level = .user ∧ (fld r 32 11 ≠ j.c.asid ∨ fld r 19 2 = 1) then j.done (if bad then (1, 0) else (3, 0))
    else
      if bad then ({ j with s := j.s.refuse bs } : Job).done (1, 0)
      else
        match j.s.tryLaunch bs with
        | (.ok n, s) => ({ j with s := s } : Job).done (0, n)
        | (.error .bad, s) => ({ j with s := s } : Job).done (1, 0)
        | (.error (.compl a), s) => ({ j with s := s } : Job).done (vaFailure a)
        | (.error .full, s) => ({ j with s := s } : Job).done (4, 0)

/-- The pipeline that P0 names, or the command's outcome. -/
def Job.target (j : Job) : Except Failure Pipeline :=
  match j.s.pipelineOf (j.c.pNat 0) with
  | none => .error (0, 2)
  | some p => if j.c.level = .user ∧ p.asid ≠ j.c.asid then .error (3, 0) else .ok p

def Job.startCancel (j : Job) : Job :=
  match j.target with
  | .error f => j.done f
  | .ok p => if p.dispatched then j.done (0, 1) else ({ j with s := j.s.endPipe { p with results := [] } 2 } : Job).done (0, 0)

/-- ABORT waits for the completion record. One aimed at its own pipeline ends with its context. -/
def Job.startAbort (j : Job) : Job :=
  match j.target with
  | .error f => j.done f
  | .ok p =>
    let s := j.s.abortPipe p.lnum 3 .aborted
    if p.lnum = j.s.ctx.lnum then ({ j with s := s } : Job).done (0, 0)
    else { j with s := s.mapPipe p.lnum (fun p => { p with aborters := (j.s.ctx.ctxid.toNat, j.c.seq) :: p.aborters }) }

end Sys2Proof.Machine
end

