-- ==== Sys2Proof/Machine/Queue.lean ====
section
/-! DEFINITION. Hardware queues (R262, R263, R282 to R284, R303): ENQ, DEQ and QINFO at issue, the queue's decision, and the
spill engine. -/

namespace Sys2Proof.Machine

/-- C, the number of registers (R282). -/
def queueCount (e : Cmd) : Nat := e.efn.toNat % 8 + 1

/-- The registers of a run, or as many elements of a stream (R283). -/
def regRun (o : Opnd) (n : Nat) : List Opnd :=
  match o with
  | .s r => (List.range n).map (fun i => .s (Fin.ofNat 48 (r.val + i)))
  | .q k => List.replicate n (.q k)

/-- The output code that an ENQ or a QINFO names; the input queue has no code. -/
def outCode (g : Stage) (which : Nat) : Nat := if which = 1 then g.out0 else g.out1

/-- An output coded none traps (R283). -/
def checkOutput (which : Nat) (s : State) : Verdict :=
  if which = 0 then .go
  else trapIf (((s.stageOf s.src).map (fun g => outCode g which)).getD 0xF = 0xF) 0x02 (slotInfo 2)

def enqWhich (e : Cmd) : Nat := if e.efn.toNat / 8 % 2 = 1 then 2 else 1

def checkEnq (e : Cmd) (cl : Claims) (s : State) : Verdict :=
  (checkOutput (enqWhich e) s).andThen ((checkSrcs (regRun e.p0 (queueCount e)) cl s).andThen (checkIssue e s))

/-- A queue operation reserves its condition-queue entry and waits for the decision. -/
def Context.ask (c : Context) (op : QueueOp) : Context := { c.cqReserve none with qops := c.qops ++ [{ op with tag := c.tag }] }

/-- What stands before an ENQ in program order has been performed before its entry can be taken: the second part of an access of its own
bundle, too (R195, R201). -/
def execEnq (e : Cmd) (s : State) : Result :=
  gated (checkEnq e .none s) (fun s =>
    let (ws, s) := s.settleHalf.takeAll (regRun e.p0 (queueCount e))
    s.setCtx (s.ctx.ask
      { kind := .enq, which := enqWhich e, tag := 0, entry := BitVec.ofNat 512 ((ws.zipIdx.map (fun x => x.1.toNat * 2 ^ (64 * x.2))).sum), poi := 0,
        dest := .zero, count := 0, made := s.ctx.issues, addr := s.ctx.pc })) s

/-- `n` elements that a queue operation owes to a write stream, after its own tag. -/
def Context.oweElems (c : Context) (q : Fin 16) : Nat → Context
  | 0 => c
  | n + 1 => ({ c.pushStream q (.owed c.tag) with tag := c.tag + 1 }).oweElems q n

/-- A reading queue operation, with the stream elements that its result will fill. -/
def Context.askFor (c : Context) (op : QueueOp) : Context :=
  let c := c.ask op
  match op.dest with
  | .s _ => c
  | .q k => c.oweElems k op.count

def checkDeq (e : Cmd) (cl : Claims) (s : State) : Verdict := (s.checkDests cl (regRun e.p0 (queueCount e))).andThen (checkIssue e s)

def execDeq (e : Cmd) (s : State) : Result :=
  gated (checkDeq e .none s) (fun s =>
    s.setCtx (s.ctx.askFor
      { kind := .deq, which := 0, tag := 0, entry := 0, poi := 0, dest := e.p0, count := queueCount e, made := s.ctx.issues, addr := s.ctx.pc })) s

def checkQinfo (e : Cmd) (cl : Claims) (s : State) : Verdict := (checkOutput (e.efn.toNat % 4) s).andThen ((s.checkDest cl e.p0).andThen (checkIssue e s))

def execQinfo (e : Cmd) (s : State) : Result :=
  gated (checkQinfo e .none s) (fun s =>
    s.setCtx (s.ctx.askFor
      { kind := .qinfo, which := e.efn.toNat % 4, tag := 0, entry := 0, poi := 0, dest := e.p0, count := 1, made := s.ctx.issues, addr := s.ctx.pc })) s

/-! ### The decision (R262, R263) -/

/-- The stage whose input queue an operation names, or none for the result queue. -/
def opStage (c : Context) (g : Stage) (op : QueueOp) : Option Nat :=
  if op.which = 0 then some c.stage
  else
    let o := outCode g op.which
    if o < 8 then some o else none

def onChip (q : List QEntry) : Nat := (q.filter (fun e => e.ring.isNone)).length

/-- A free slot of a ring of `quota` entries. -/
def freeSlot (q : List QEntry) (quota : Nat) : Option Nat := (List.range (min quota (q.length + 1))).find? (fun k => !q.any (fun e => e.ring == some k))

/-- An entry enters a stage's queue: on chip where there is room, else in the ring. The error is the address of a ring access that
faults (R304). -/
def State.enqueue (s : State) (p : Pipeline) (i : Nat) (g : Stage) (e : QEntry) : Except Nat (State × Bool) :=
  if 64 + g.quota ≤ g.queue.length then .ok (s, false)
  else if onChip g.queue < 64 then
    .ok (s.mapPipe p.lnum (fun p => p.mapStage i (fun g => { g with queue := g.queue ++ [e] })), true)
  else
    match freeSlot g.queue g.quota with
    | none => .ok (s, false)
    | some k =>
      match s.deviceWrite p.asid (p.ringBase i + 64 * k) (entryBytes e) with
      | .error a => .error a
      | .ok s => .ok (s.mapPipe p.lnum (fun p => p.mapStage i (fun g => { g with queue := g.queue ++ [{ bits := 0, poi := 0, ring := some k }] })), true)

/-- The bytes of an entry, wherever it lies. -/
def State.entryAt (s : State) (p : Pipeline) (i : Nat) (e : QEntry) : Except Nat QEntry :=
  match e.ring with
  | none => .ok e
  | some k =>
    match s.deviceRead p.asid (p.ringBase i + 64 * k) 64 with
    | .error a => .error a
    | .ok bs => .ok { bits := BitVec.ofNat 512 (numOf bs), poi := BitVec.ofNat 64 (marks (bs.map Prod.snd)), ring := none }

/-- Writes the words of a result: a run of registers, or the stream elements owed from `tag` on. -/
def Context.giveWords (c : Context) (dest : Opnd) (tag : Nat) : Nat → List Word → Context
  | _, [] => c
  | i, w :: r =>
    match dest with
    | .s n => (c.setReg (Fin.ofNat 48 (n.val + i)) w).giveWords dest tag (i + 1) r
    | .q k => (c.fillStream k (tag + i) w).giveWords dest tag (i + 1) r

/-- The stream elements that a failed operation owed are dropped. -/
def Context.dropWords (c : Context) (dest : Opnd) (tag : Nat) : Nat → Context
  | 0 => c
  | n + 1 =>
    match dest with
    | .s _ => c
    | .q k => (c.dropOwed k (tag + n)).dropWords dest tag n

/-- The operation is over: its condition entry is filled with `b`. -/
def Context.answer (c : Context) (n : Nat) (op : QueueOp) (b : Bool) : Context :=
  ({ c with qops := c.qops.eraseIdx n }).cqFill op.tag b false

/-- What QINFO reads: total and on-chip entries. -/
def queueWord (total chip : Nat) : Word := BitVec.ofNat 64 (total + 2 ^ 32 * chip)

def entryWords (e : QEntry) (n : Nat) : List Word := (List.range n).map (fun i => BitVec.ofNat 64 (e.bits.toNat / 2 ^ (64 * i)))

/-- DEQ takes the oldest entry (R262). One whose delivered bytes are poisoned is removed, and its registers stay (R322). -/
def State.dequeue (s : State) (p : Pipeline) (g : Stage) (n : Nat) (op : QueueOp) : State :=
  let c := s.ctx
  match g.queue with
  | [] => s.setCtx ((c.answer n op false).dropWords op.dest (op.tag + 1) op.count)
  | e :: r =>
    match s.entryAt p c.stage e with
    | .error a => s.deviceFault p.lnum a
    | .ok e =>
      let s := s.mapPipe p.lnum (fun p => p.mapStage c.stage (fun g => { g with queue := r }))
      let c := c.answer n op true
      if e.poi.toNat % 2 ^ (8 * op.count) ≠ 0 then s.setCtx ((c.report op.made 4 op.addr).dropWords op.dest (op.tag + 1) op.count)
      else s.setCtx (c.giveWords op.dest (op.tag + 1) 0 (entryWords e op.count))

/-- The queue decides operation `n`. Operations of one context on one queue are decided in program order (R263). -/
def State.queueDecision (s : State) (n : Nat) : State :=
  let c := s.ctx
  match s.pipelineOf c.lnum, s.stageOf c, c.qops[n]? with
  | some p, some g, some op =>
    let target := opStage c g op
    if (c.qops.take n).any (fun o => opStage c g o == target) then s
    else
      match op.kind with
      | .deq => s.dequeue p g n op
      | .enq =>
        match target with
        | none =>
          if 64 ≤ p.results.length then s.setCtx (c.answer n op false)
          else (s.mapPipe p.lnum (fun p => { p with results := p.results ++ [{ bits := op.entry, poi := op.poi, ring := none }] })).setCtx (c.answer n op true)
        | some i =>
          match s.enqueue p i (p.stages.getD i g) { bits := op.entry, poi := op.poi, ring := none } with
          | .error a => s.deviceFault p.lnum a
          | .ok (s, b) => s.setCtx (c.answer n op b)
      | .qinfo =>
        let (total, chip, room) := match target with
          | none => (p.results.length, p.results.length, 64)
          | some i =>
            let h := p.stages.getD i g
            (h.queue.length, onChip h.queue, 64 + h.quota)
        s.setCtx ((c.answer n op (if op.which = 0 then decide (0 < total) else decide (total < room))).giveWords op.dest (op.tag + 1) 0
          [queueWord total chip])
  | _, _, _ => s

def execQueueDecision (n : Nat) (s : State) : Result := .next (s.queueDecision n)

/-! ### The spill engine (R262) -/

/-- The newest on-chip entry moves to a free slot of the ring. -/
def State.spillOut (s : State) (p : Pipeline) (i : Nat) (g : Stage) : State :=
  match freeSlot g.queue g.quota, g.queue.reverse.findIdx? (fun e => e.ring.isNone) with
  | some k, some j =>
    let at_ := g.queue.length - 1 - j
    match g.queue[at_]? with
    | none => s
    | some e =>
      match s.deviceWrite p.asid (p.ringBase i + 64 * k) (entryBytes e) with
      | .error a => s.deviceFault p.lnum a
      | .ok s => s.mapPipe p.lnum (fun p => p.mapStage i (fun g => { g with queue := g.queue.set at_ { bits := 0, poi := 0, ring := some k } }))
  | _, _ => s

/-- The oldest entry of the ring moves onto the chip. -/
def State.spillIn (s : State) (p : Pipeline) (i : Nat) (g : Stage) : State :=
  if 64 ≤ onChip g.queue then s
  else
    match g.queue.findIdx? (fun e => e.ring.isSome) with
    | none => s
    | some j =>
      match g.queue[j]? with
      | none => s
      | some e =>
        match s.entryAt p i e with
        | .error a => s.deviceFault p.lnum a
        | .ok e => s.mapPipe p.lnum (fun p => p.mapStage i (fun g => { g with queue := g.queue.set j e }))

def State.spillMove (s : State) (lnum i : Nat) (toRing : Bool) : State :=
  match s.pipelineOf lnum with
  | none => s
  | some p =>
    match p.stages[i]? with
    | none => s
    | some g => if toRing then s.spillOut p i g else s.spillIn p i g

def execSpillMove (lnum i : Nat) (toRing : Bool) (s : State) : Result := .next (s.spillMove lnum i toRing)

end Sys2Proof.Machine
end

