-- ==== Sys2Proof/Machine/Save.lean ====
section
/-! DEFINITION. The save area (R328 to R332): a context's state written to memory, and read back. -/

namespace Sys2Proof.Machine

open Host (Cell)

/-! ### Images

A piece of an image is `n` bytes at an offset: their value, least significant byte first, and the poison mark of each. An image
read back lists the bytes that are not zero and the poisoned offsets. -/

structure Piece where
  off : Nat
  n : Nat
  val : Nat
  poi : Nat
  deriving DecidableEq, Repr

structure Image where
  bytes : List Cell
  pois : List Nat
  deriving DecidableEq, Repr

def clean (off n val : Nat) : Piece := { off := off, n := n, val := val, poi := 0 }

/-- The bytes of a piece that are not zero or are poisoned. -/
def Piece.bytes (p : Piece) : List (Nat × Byte × Bool) :=
  if p.val = 0 ∧ p.poi = 0 then []
  else (List.range p.n).filterMap (fun i =>
    let b := BitVec.ofNat 8 (p.val / 2 ^ (8 * i))
    let m := p.poi / 2 ^ i % 2 == 1
    if b = 0 ∧ m = false then none else some (p.off + i, b, m))

/-- The number at an offset. -/
def Image.num (im : Image) (off n : Nat) : Nat :=
  im.bytes.foldl (fun a c => if off ≤ c.1 ∧ c.1 < off + n then a + c.2.toNat * 2 ^ (8 * (c.1 - off)) else a) 0

/-- The poison marks of the bytes at an offset. -/
def Image.mask (im : Image) (off n : Nat) : Nat :=
  im.pois.foldl (fun a o => if off ≤ o ∧ o < off + n then a + 2 ^ (o - off) else a) 0

/-- The part of an image from an offset on. -/
def Image.slice (im : Image) (off n : Nat) : Image :=
  { bytes := (im.bytes.filter (fun c => off ≤ c.1 && decide (c.1 < off + n))).map (fun c => (c.1 - off, c.2)),
    pois := (im.pois.filter (fun o => off ≤ o && decide (o < off + n))).map (· - off) }

def Image.word (im : Image) (off : Nat) : Word := BitVec.ofNat 64 (im.num off 8)

/-! ### Memory behind an area -/

/-- The home gathers the tokens of a tile's lines of which any are away. -/
def State.recallTile (s : State) (p : Place) : State :=
  let first := p.pa / 4096 * 32
  let near (n : Nat) : Bool := decide (first ≤ n) && decide (n < first + 32)
  let ls := ((s.lines.map (·.line)) ++ s.msgs.map (·.line)).filter near
  ls.foldl (fun s n => s.gatherHome { p with pa := 128 * n, key := p.key / 4096 * 4096 + 128 * (n - first) }) s

/-- Every byte of a 4 KiB tile becomes zero and unpoisoned. -/
def State.wipeTile (s : State) (p : Place) : State :=
  let t := tileOf p.key
  let s := s.recallTile p
  ({ s with zflags := setDel s.zflags t, zflagErr := setDel s.zflagErr t }.zeroTile t).clearAsked t

/-- The bytes of `tiles` tiles from a virtual address become zero. The error is the faulting address. -/
def State.wipe (s : State) (w : Who) (va : Nat) : Nat → Except Nat State
  | 0 => .ok s
  | n + 1 =>
    match s.locate w va .store with
    | .error _ => .error va
    | .ok (.scratch _ _) => .error va
    | .ok (.backing _ _) => .error va
    | .ok (.lost _ _) => .error va
    | .ok (.mem p) => ((s.wipeTile p).fillPages w va 1).wipe w (va + 4096) n

def State.writePieceBytes (s : State) (w : Who) (base : Nat) : List (Nat × Byte × Bool) → Except Nat State
  | [] => .ok s
  | (o, b, m) :: r =>
    match s.engineWrite w (base + o) [(b, m)] with
    | .error (_, a) => .error a
    | .ok s => s.writePieceBytes w base r

/-- An image of `len` bytes, a multiple of 4 KiB, is written at a 4 KiB-aligned address. -/
def State.writeImage (s : State) (w : Who) (base len : Nat) (ps : List Piece) : Except Nat State :=
  match s.wipe w base (len / 4096) with
  | .error a => .error a
  | .ok s => s.writePieceBytes w base (ps.flatMap Piece.bytes)

/-- Reads the bytes of [base, base + len) that lie in `tiles` tiles from a tile-aligned address. -/
def State.readTiles (s : State) (w : Who) (base len va : Nat) : Nat → Except Nat Image
  | 0 => .ok { bytes := [], pois := [] }
  | n + 1 =>
    match s.locate w va .load with
    | .error _ => .error (max base va)
    | .ok (.scratch _ _) => .error (max base va)
    | .ok (.backing _ _) => .error (max base va)
    | .ok (.lost _ _) => .error (max base va)
    | .ok (.mem p) =>
      match s.readTiles w base len (va + 4096) n with
      | .error a => .error a
      | .ok im =>
        let t := tileOf p.key
        let inside (o : Nat) : Bool := decide (base ≤ va + o) && decide (va + o < base + len)
        let here := if s.zflags.contains t then [] else s.mem.filter (fun c => tileOf c.1 == t && inside (c.1 % 4096))
        let bad := if s.flagStruck t then (List.range 4096).filter inside
          else if s.zflags.contains t then []
          else ((s.pois.filter (fun k => tileOf k == t)).map (· % 4096)).filter inside
        .ok { bytes := here.map (fun c => (va + c.1 % 4096 - base, c.2)) ++ im.bytes, pois := bad.map (fun o => va + o - base) ++ im.pois }

def State.readImage (s : State) (w : Who) (base len : Nat) : Except Nat Image :=
  s.readTiles w base len (base / 4096 * 4096) ((base % 4096 + len + 4095) / 4096)

/-- What such a read leaves behind: the tiles' lines at their home, and translations (R216, R357). -/
def State.touchImage (s : State) (w : Who) (va : Nat) : Nat → State
  | 0 => s
  | n + 1 =>
    match s.locate w va .load with
    | .ok (.mem p) => ((s.recallTile p).fillPages w va 1).touchImage w (va + 4096) n
    | _ => s

def State.touchArea (s : State) (w : Who) (base len : Nat) : State :=
  s.touchImage w (base / 4096 * 4096) ((base % 4096 + len + 4095) / 4096)

/-! ### Where an area lies (R330) -/

def State.areaLen (s : State) (c : Context) : Nat := ((s.stageOf c).map (fun g => areaSize g.foot g.scrHi)).getD 0

/-! ### Writing a context (R328, R329) -/

def wordPieces (off : Nat) (ws : List Word) : List Piece := ws.zipIdx.map (fun x => clean (off + 8 * x.2) 8 x.1.toNat)

def codeOf (o : Option Instr) : Nat := (o.map encode).getD 0

/-- A sticky set. `w1n` and `mn` number a slot's last issue from 0; the counts of R328 count issues. -/
def stickyPieces (off : Nat) (t : Sticky) (valid : Bool) : List Piece :=
  [clean off 4 (codeOf t.w0), clean (off + 4) 4 (codeOf t.w1), clean (off + 8) 8 (codeOf t.m),
   clean (off + 16) 4 (if t.w1.isSome then t.w1n + 1 else 0), clean (off + 20) 4 (if t.m.isSome then t.mn + 1 else 0),
   clean (off + 24) 1 (t.w0.isSome.toNat + 2 * t.w1.isSome.toNat + 4 * t.m.isSome.toNat + 8 * valid.toNat)]

/-- l0 is the outermost entry (R16). -/
def loopPieces (ls : List LoopEntry) : List Piece :=
  clean 0x1D0 8 ls.length :: ls.reverse.zipIdx.flatMap (fun x =>
    [clean (0x1D8 + 24 * x.2) 8 x.1.first, clean (0x1E0 + 24 * x.2) 8 x.1.last, clean (0x1E8 + 24 * x.2) 4 x.1.idx,
     clean (0x1EC + 24 * x.2) 4 x.1.remain])

def queueWordOf (q : List CqEntry) : Nat :=
  q.length + marks (q.map (fun e => e.val == some true)) * 2 ^ 8 + marks (q.map (·.poi)) * 2 ^ 24

/-- A hatch element: data bytes, then side bytes; an error of its META bits marks those bytes. -/
def chunkPieces (off : Nat) (c : Chunk) : List Piece :=
  [clean off 64 c.data.toNat, { off := off + 64, n := 64, val := c.side, poi := c.bad.toNat }]

def Ticket.word (t : Ticket) : Nat :=
  t.detail.toNat + t.status.toNat * 2 ^ 32 + t.pending.toNat * 2 ^ 36 + t.te.toNat * 2 ^ 37 + t.away.toNat * 2 ^ 38

/-- The descriptor of a bound stream (R242). -/
def Stream.descriptor (q : Stream) : Nat :=
  q.base.toNat + ((q.str.toList.zipIdx.map (fun x => x.1.toNat * 2 ^ (64 + 64 * x.2))).sum) +
    ((q.cnt.toList.zipIdx.map (fun x => x.1.toNat * 2 ^ (320 + 32 * x.2))).sum) + q.size.toNat * 2 ^ 448 + q.write.toNat * 2 ^ 450 +
    q.delta.toNat * 2 ^ 451

def StreamElem.bits : StreamElem → Nat
  | .value w => w.toNat
  | .poisoned w _ => w.toNat
  | .fault _ _ => 0
  | .owed _ => 0

/-- A stream as its slot holds it: without elements whose fetch failed, and no more than 256. -/
def Stream.keep256 (q : Stream) : Stream :=
  let q := q.forget
  if 256 < q.buf.length then { q with buf := q.buf.take 256, next := q.next - (q.buf.length - 256) } else q

def streamPieces (off : Nat) (q : Stream) : List Piece :=
  if q.bind = .unbound then []
  else
    let q := q.keep256
    [clean off 64 q.descriptor, clean (off + 64) 8 q.next, clean (off + 72) 8 q.buf.length,
     clean (off + 80) 8 ((q.stuck.map (fun x => x.2 % 2 ^ 56 + 2 ^ 63)).getD 0)] ++
      q.buf.zipIdx.map (fun x => clean (off + 256 + 8 * x.2) 8 x.1.bits)

def isHstz : Instr → Bool
  | .hstz _ => true
  | _ => false

/-- The next transfer tile that a record names; for the record form of HSTZ, the elements that it has taken (log entry 56). -/
def EngCmd.nextTile (k : EngCmd) : Nat :=
  if isHstz k.op then k.firstOpen
  else if drainOp k.op then k.tileFrom k.stored
  else if inHatchOp k.op then k.tileFrom k.firstOpen
  else k.tile

/-- The status and detail so far. -/
def EngCmd.soFar (k : EngCmd) : Nat :=
  let r := k.outcome.getD { k with met6 := k.met6 || (k.units != [] && !inHatchOp k.op) }.result
  r.2.toNat + r.1.toNat * 2 ^ 32

/-- A command record of 2 KiB. -/
def commandPieces (off : Nat) (k : EngCmd) : List Piece :=
  [clean off 8 (encode k.op), clean (off + 40) 8 k.nextTile, clean (off + 48) 8 k.soFar, clean (off + 64) 64 k.block.toNat] ++
    wordPieces (off + 8) k.p.toList ++
    ((k.recs ++ k.scales.filterMap id).take 4).zipIdx.map (fun x => clean (off + 128 + 128 * x.2) 128 x.1.toNat) ++
    k.idx.zipIdx.map (fun x => clean (off + 640 + 4 * x.2) 4 x.1.toNat)

/-- The elements that a record-form HSTZ holds, in order, in its hatch's staging area. -/
def stagingPieces (k : EngCmd) : List Piece :=
  if isHstz k.op then
    k.held.map (fun x => { off := 0x31000 + 32768 * (k.e.hatch - 8) + 64 * k.ordinal x.1 x.2.1, n := 64, val := x.2.2.data.toNat,
                           poi := x.2.2.psn.toNat })
  else []

def vregsOf (c : CellState) : Nat := (c.v.toList.zipIdx.map (fun x => x.1.poi.toNat * 2 ^ (512 * x.2))).sum
def tregsOf (c : CellState) : Nat := (c.m.toList.zipIdx.map (fun x => x.1.poi.toNat * 2 ^ (2048 * x.2))).sum

/-- A cell register image (R329). -/
def cellPieces (off : Nat) (c : CellState) : List Piece :=
  if c = CellState.zero then []
  else
    c.v.toList.zipIdx.map (fun x => clean (off + 512 * x.2) 512 x.1.bits.toNat) ++
    c.m.toList.zipIdx.map (fun x => clean (off + 0x4000 + 2048 * x.2) 2048 x.1.bits.toNat) ++
    c.g.toList.zipIdx.map (fun x => clean (off + 0x8000 + 128 * x.2) 128 x.1.bits.toNat) ++
    chunkPieces (off + 0x8400) c.xh ++ chunkPieces (off + 0x8480) c.xv ++
    [clean (off + 0x8500) 2048 (vregsOf c), clean (off + 0x8D00) 2048 (tregsOf c)] ++
    c.g.toList.zipIdx.map (fun x => clean (off + 0x9500 + 128 * x.2) 128 x.1.poi.toNat) ++
    [clean (off + 0x9900) 1 (c.f.toNat + 2 * c.fPoi.toNat)]

/-- A cell-store image: the partition, then its poison marks. -/
def storePieces (off foot : Nat) (c : CellState) : List Piece :=
  c.store.flatMap (fun x => [clean (off + 64 * x.1) 64 x.2.bits.toNat, clean (off + 8192 * foot + 8 * x.1) 8 x.2.poi.toNat])

/-- Where the parts of an area that depend on the footprint begin. -/
def cellOff : Nat := 0x111000
def storeOff : Nat := 0xB11000

def scratchPieces (foot : Nat) (c : Context) : List Piece :=
  c.scratch.map (fun x => { off := backingBase foot + x.1, n := 1, val := x.2.toNat, poi := (c.scratchPoi.contains x.1).toNat }) ++
    (c.scratchPoi.filter (fun o => memGet c.scratch o == 0)).map (fun o => { off := backingBase foot + o, n := 1, val := 0, poi := 1 })

/-- The sequencer's registers and the control registers. -/
def seqPieces (c : Context) : List Piece :=
  wordPieces 0x40 (0 :: c.regs.toList.drop 1) ++
  [clean 0x1C0 8 (c.pc % 2 ^ 56 + c.level.code * 2 ^ 56), clean 0x1C8 8 (queueWordOf c.cq)] ++ loopPieces c.loops ++
  c.z.toList.zipIdx.map (fun x => clean (0x268 + 4 * x.2) 4 (x.1.rows.toNat + x.1.cols.toNat * 2 ^ 16)) ++
  stickyPieces 0x278 c.sticky true ++ stickyPieces 0x298 (c.suspended.getD Sticky.none) c.suspended.isSome ++
  wordPieces 0x2B8 [c.tvec, c.tcause, c.tepc, c.tdsc, c.tbtgt, c.trep, c.tinfo] ++ wordPieces 0x2F0 c.mshp.toList ++
  wordPieces 0x330 [c.fnver, c.dtmask, c.dtlost, c.sgeoa, c.sgeob, c.scrlo, c.scrhi, c.asid, c.ttbase, c.ctxid] ++
  [clean 0x380 8 (c.drip.length + (if c.dripHalf = .none then 0 else 2 ^ 9))] ++
  c.drip.zipIdx.flatMap (fun x => [clean (0x30000 + 16 * x.2) 8 x.1.low.toNat, clean (0x30008 + 16 * x.2) 8 x.1.high.toNat])

def hatchPieces (c : Context) : List Piece :=
  c.hatches.toList.zipIdx.flatMap (fun h => h.1.toList.zipIdx.flatMap (fun l =>
    clean (0x600 + 16 * h.2 + l.2) 1 l.1.length ::
      l.1.zipIdx.flatMap (fun x => chunkPieces (0x51000 + 4096 * (16 * h.2 + l.2) + 128 * x.2) x.1)))

/-- The header, with STATE zero. -/
def headerPieces (g : Stage) (c : Context) : List Piece :=
  [clean 0 4 1, clean 4 1 g.foot, clean 5 1 g.scrHi, clean 6 1 (c.rank % c.chainLen + 4 * (c.chainLen - 1)),
   clean 8 8 (areaSize g.foot g.scrHi)]

/-- The collective commands, which no record holds: they run on in their unit (R327). -/
def collectiveOp : Instr → Bool
  | .reds _ => true
  | .redd _ => true
  | .bcst _ => true
  | .rgrp _ => true
  | _ => false

/-- The commands that a drain writes to records. -/
def Context.recorded (c : Context) : List EngCmd := c.cmds.filter (fun k => !collectiveOp k.op)

/-- The whole area of a context, whose cells are given. -/
def contextPieces (g : Stage) (c : Context) (cells : List CellState) : List Piece :=
  headerPieces g c ++ seqPieces c ++
  c.tickets.toList.zipIdx.map (fun x => clean (0x400 + 8 * x.2) 8 x.1.word) ++ hatchPieces c ++
  c.recorded.zipIdx.flatMap (fun x => commandPieces (0x1000 + 2048 * x.2) x.1 ++ stagingPieces x.1) ++
  (c.streams.toList.take 15).zipIdx.flatMap (fun x => streamPieces (0x21000 + 4096 * x.2) x.1) ++
  cells.zipIdx.flatMap (fun x => cellPieces (cellOff + 0xA000 * x.2) x.1 ++ storePieces (storeOff + 9216 * g.foot * x.2) g.foot x.1) ++
  scratchPieces g.foot c

/-- STATE is set last (R326). -/
def setAreaState (w : Who) (area : Nat) : Except Nat State → Except Nat State
  | .error a => .error a
  | .ok s =>
    match s.engineWrite w (area + 7) [(1, false)] with
    | .error (_, a) => .error a
    | .ok s => .ok s

/-- An image as pieces, `off` bytes further on. -/
def Image.pieces (im : Image) (off : Nat) : List Piece :=
  im.bytes.map (fun c => { off := off + c.1, n := 1, val := c.2.toNat, poi := (im.pois.contains c.1).toNat }) ++
    (im.pois.filter (fun o => !im.bytes.any (fun c => c.1 == o))).map (fun o => { off := off + o, n := 1, val := 0, poi := 1 })

/-- The area is written (R326). The part of the partition that lies in no block of SRAM stands in the backing range of the context's own
slot already; it is copied where the area is another. -/
def State.saveContext (s : State) (w : Who) (area : Nat) (own : Who) (slot : Nat) (g : Stage) (c : Context) (cells : List CellState) :
    Except Nat State :=
  let high := backingBase g.foot + 2 ^ 20 * c.scratchSize
  let len := areaSize g.foot g.scrHi
  if area = slot ∧ w = own then setAreaState w area (s.writeImage w area high (contextPieces g c cells))
  else
    match s.readImage own (slot + high) (len - high) with
    | .error a => .error a
    | .ok im =>
      setAreaState w area ((s.touchArea own (slot + high) (len - high)).writeImage w area len (contextPieces g c cells ++ im.pieces high))

/-! ### Reading a context back (R331) -/

def readInstr (im : Image) (off n : Nat) (dec : Nat → Except Reject Instr) (present : Bool) : Option Instr :=
  if present then (dec (im.num off n)).toOption else none

def readSticky (im : Image) (off : Nat) : Sticky :=
  let p := im.num (off + 24) 1
  { w0 := readInstr im off 4 decodeW0 (fld p 0 1 == 1), w1 := readInstr im (off + 4) 4 decodeW1 (fld p 1 1 == 1),
    m := readInstr im (off + 8) 8 decodeM (fld p 2 1 == 1), w1n := im.num (off + 16) 4 - 1, mn := im.num (off + 20) 4 - 1 }

def readLoops (im : Image) : List LoopEntry :=
  ((List.range (min 6 (im.num 0x1D0 8))).map (fun i =>
    { first := im.num (0x1D8 + 24 * i) 8, last := im.num (0x1E0 + 24 * i) 8, idx := im.num (0x1E8 + 24 * i) 4,
      remain := im.num (0x1EC + 24 * i) 4 })).reverse

def readQueue (im : Image) : List CqEntry :=
  let w := im.num 0x1C8 8
  (List.range (min 16 (fld w 0 5))).map (fun i => { tag := 0, val := some (fld w (8 + i) 1 == 1), poi := fld w (24 + i) 1 == 1 })

/-- An element; marks that its bytes have gained in memory join its own (R320). -/
def readChunk (im : Image) (off : Nat) : Chunk :=
  let c := Chunk.ofParts (im.num off 64) (im.num (off + 64) 64) (BitVec.ofNat 48 (im.mask (off + 64) 48))
  { c with psn := c.psn ||| BitVec.ofNat 64 (im.mask off 64) }

def readTicket (w : Nat) : Ticket :=
  { detail := BitVec.ofNat 32 w, status := BitVec.ofNat 4 (w / 2 ^ 32), pending := fld w 36 1 == 1, te := fld w 37 1 == 1,
    away := fld w 38 1 == 1 }

def readDrip (lo hi : Nat) : DripRec :=
  { count := BitVec.ofNat 32 (hi / 2 ^ 32), event := BitVec.ofNat 8 (hi / 2 ^ 16), col := BitVec.ofNat 4 (hi / 2 ^ 8),
    row := BitVec.ofNat 6 hi, slot := BitVec.ofNat 3 (lo / 2 ^ 56), addr := BitVec.ofNat 56 lo }

/-- A stream as its slot holds it. A fault that ended its stores keeps the cause that the context had for it, and the stores of the stream
that was saved stay ended where its trap has been taken (R244, log entry 20). -/
def readStream (im : Image) (off : Nat) (c : Context) (old : Stream) : Stream :=
  let d := im.num off 64
  if d = 0 then Stream.free
  else
    let nx := im.num (off + 64) 8
    let n := im.num (off + 72) 8
    let f := im.num (off + 80) 8
    { bind := .bound, delta := fld d 451 1 == 1, write := fld d 450 1 == 1, size := BitVec.ofNat 2 (d / 2 ^ 448),
      cnt := (Vector.range 4).map (fun i => BitVec.ofNat 32 (d / 2 ^ (320 + 32 * i))),
      str := (Vector.range 4).map (fun i => BitVec.ofNat 64 (d / 2 ^ (64 + 64 * i))), base := BitVec.ofNat 64 d,
      taken := if fld d 450 1 = 1 then nx + n else nx - n, next := nx,
      buf := (List.range (min n 256)).map (fun i => .value (im.word (off + 256 + 8 * i))),
      dead := fld f 63 1 == 1 || (old.dead && old.bind == .bound && old.descriptor == d), stuck := if fld f 63 1 = 1 then some ((old.stuck.map Prod.fst).getD 0x09, fld f 0 56) else none,
      binder := old.binder, asid := if old.bind = .bound then old.asid else c.asid.toNat,
      level := if old.bind = .bound then old.level else c.level }

/-- Handles whose shape records a command keeps. -/
def handlesOf : Instr → Nat
  | .hload _ => 1
  | .hstore _ => 1
  | .hgath _ => 1
  | .hscat _ => 1
  | .hstzTensor _ => 1
  | .hmcast e => e.xtra + 1
  | .copy _ => 2
  | .cfill _ => 1
  | _ => 0

/-- The scale records that follow a command's shape records, one for each that has them. -/
def takeScales : List (BitVec 1024) → List (BitVec 1024) → List (Option (BitVec 1024))
  | [], _ => []
  | b :: r, l =>
    if (Shape.ofBits b).scen then
      match l with
      | [] => none :: takeScales r []
      | x :: l => some x :: takeScales r l
    else none :: takeScales r l

/-- The elements of a record-form HSTZ in its staging area. -/
def readStaging (im : Image) (k : EngCmd) (taken : Nat) : List (Nat × Nat × Chunk) :=
  (List.range taken).map (fun o =>
    let off := 0x31000 + 32768 * (k.e.hatch - 8) + 64 * o
    (k.lf + o / k.epos, o % k.epos,
      { data := BitVec.ofNat 512 (im.num off 64), psn := BitVec.ofNat 64 (im.mask off 64), res := 0, info := 0, bad := 0 }))

/-- A command that record `r` of an area describes. What the record's layout has no place for begins anew (log entry 20). -/
def readCommand (im r : Image) (c : Context) (seq : Nat) : Option EngCmd :=
  match (decodeE (r.num 0 8)).toOption with
  | none => none
  | some i =>
    let e := decodeCmd (r.num 0 8)
    let so := r.num 48 8
    let st := fld so 32 4
    let all := (List.range 4).map (fun n => BitVec.ofNat 1024 (r.num (128 + 128 * n) 128))
    let recs := all.take (handlesOf i)
    let k := EngCmd.fresh i e c c ((Vector.range 4).map (fun n => r.word (8 + 8 * n))) ((List.range 256).map (fun n => BitVec.ofNat 64 (r.num (640 + 4 * n) 4)))
    let t := r.num 40 8
    let k : EngCmd :=
      { k with seq := seq, started := decide (t ≠ 0 ∨ r.num 64 64 ≠ 0) && !isHldz i, block := BitVec.ofNat 512 (r.num 64 64), recs := recs,
               scales := takeScales recs (all.drop (handlesOf i)), tile := if hatchOp i then 0 else t, met6 := st == 6,
               poisoned := if st = 6 then fld so 0 32 else 0, units := if st = 6 then (List.range (fld so 0 32)).map (2 ^ 60 + ·) else [],
               clamps := if st = 8 then fld so 0 32 else 0, miss := if st = 5 then (List.range (fld so 0 32)).map (2 ^ 60 + ·) else [] }
    some (if isHstz i then { k with prog := k.progAt t, held := readStaging im k (min t k.total) }
      else if drainOp i then { k with prog := k.progAt (k.resumeAt t), tile := k.resumeAt t, serial := k.e.xtra != 0 && isMcast i }
      else if inHatchOp i then { k with prog := k.progAt (k.resumeAt t) }
      else k)

/-- The commands of the records. One whose record still stands as the drain wrote it is the command that was saved. -/
def recordedCommands (im : Image) (c : Context) : List EngCmd :=
  (List.range 64).filterMap (fun i =>
    let r := im.slice (0x1000 + 2048 * i) 2048
    if r.num 0 8 = 0 then none
    else
      match c.recorded[i]? with
      | none => readCommand im r c (c.cmdSeq + i)
      | some k =>
        if (commandPieces 0 k).all (fun p => r.num p.off p.n == p.val) && (stagingPieces k).all (fun p => im.num p.off p.n == p.val) then some k
        else readCommand im r c k.seq)

/-- Inserts a command by its number. -/
def insertCmd (k : EngCmd) : List EngCmd → List EngCmd
  | [] => [k]
  | x :: r => if k.seq < x.seq then k :: x :: r else x :: insertCmd k r

/-- The commands of the records with the collectives that ran on. -/
def readCommands (im : Image) (c : Context) : List EngCmd :=
  (c.cmds.filter (fun k => collectiveOp k.op)).foldl (fun l k => insertCmd k l) (recordedCommands im c)

/-- The stored marks of `n` bytes of a vector or tile register, with those that its image has gained in memory. -/
def readMarks (im : Image) (off n : Nat) : Nat := im.num (0x8500 + off / 8) (n / 8) ||| im.mask off n

def readCell (im : Image) : CellState :=
  { v := Vector.ofFn (fun i : Fin 32 => { bits := BitVec.ofNat 4096 (im.num (512 * i.val) 512), poi := BitVec.ofNat 512 (readMarks im (512 * i.val) 512) }),
    m := Vector.ofFn (fun i : Fin 8 =>
      { bits := BitVec.ofNat 16384 (im.num (0x4000 + 2048 * i.val) 2048), poi := BitVec.ofNat 2048 (readMarks im (0x4000 + 2048 * i.val) 2048) }),
    g := Vector.ofFn (fun i : Fin 8 =>
      { bits := BitVec.ofNat 1024 (im.num (0x8000 + 128 * i.val) 128),
        poi := BitVec.ofNat 1024 (im.num (0x9500 + 128 * i.val) 128 ||| byteMask 128 (im.mask (0x8000 + 128 * i.val) 128)) }),
    f := fld (im.num 0x9900 1) 0 1 == 1, fPoi := fld (im.num 0x9900 1) 1 1 == 1 || im.mask 0x9900 1 == 1, xh := readChunk im 0x8400,
    xv := readChunk im 0x8480, store := [] }

def readStore (im : Image) (foot : Nat) : List (Nat × Unit64) :=
  (List.range (128 * foot)).foldl (fun l u =>
    storePut l u { bits := BitVec.ofNat 512 (im.num (64 * u) 64), poi := BitVec.ofNat 64 (im.num (8192 * foot + 8 * u) 8 ||| im.mask (64 * u) 64) }) []

def readCells (im : Image) (foot : Nat) : List CellState :=
  (List.range 256).map (fun i =>
    let r := im.slice (cellOff + 0xA000 * i) 0xA000
    let t := im.slice (storeOff + 9216 * foot * i) (9216 * foot)
    let c := if r.bytes = [] ∧ r.pois = [] then CellState.zero else readCell r
    if t.bytes = [] ∧ t.pois = [] then c else { c with store := readStore t foot })

/-- The bits of a control register that no reserved field takes (R65, R127, R132, R166, R208, R218, R316). -/
def cregBits (n : Nat) : Nat :=
  if n = 0x003 then 2 ^ 11 - 1
  else if n = 0x004 then 2 ^ 56 - 128
  else if n = 0x006 ∨ n = 0x007 then 127
  else if 0x040 ≤ n ∧ n ≤ 0x047 then 0xFFFF3F
  else if n = 0x050 ∨ n = 0x052 then 2 ^ 32 - 1
  else if n = 0x051 then 63
  else if n = 0x053 ∨ n = 0x054 then 7
  else if n = 0x100 then 2 ^ 56 - 2 ^ 13
  else if n = 0x101 then 2 ^ 17 - 1
  else if n = 0x102 then 2 ^ 56 - 4
  else if n = 0x103 then 0x103
  else if n = 0x104 then 2 ^ 56 - 1
  else if n = 0x105 then 255
  else 2 ^ 64 - 1

/-- A control register as an image gives it: reserved bits read zero, and a reserved value is not taken, so that the register keeps its
value of launch (R5, log entry 58). -/
def Image.creg (im : Image) (off n : Nat) (keep : Word) : Word :=
  let w := im.word off &&& BitVec.ofNat 64 (cregBits n)
  if cregValueOk n w then w else keep

/-- The sequencer's registers and the control registers, but for the context's identity. The privilege level 0b10, which R24 never uses and
only an edited image holds, is read as firmware (log entry 58). -/
def Context.readSeq (c : Context) (im : Image) : Context :=
  let pcw := im.num 0x1C0 8
  let live := readSticky im 0x278
  let b := Context.blank
  { c with
    regs := Vector.ofFn (fun i : Fin 48 => if i.val = 0 then 0 else im.word (0x40 + 8 * i.val)), pc := fld pcw 0 56, level := .ofCode (fld pcw 56 2),
    cq := readQueue im, loops := readLoops im,
    z := Vector.ofFn (fun i : Fin 4 => { rows := BitVec.ofNat 16 (im.num (0x268 + 4 * i.val) 2), cols := BitVec.ofNat 16 (im.num (0x26A + 4 * i.val) 2) }),
    sticky := live, suspended := if fld (im.num 0x2B0 1) 3 1 = 1 then some (readSticky im 0x298) else none,
    tvec := im.creg 0x2B8 0x100 c.tvec, tcause := im.creg 0x2C0 0x101 b.tcause, tepc := im.creg 0x2C8 0x102 b.tepc, tdsc := im.creg 0x2D0 0x103 b.tdsc,
    tbtgt := im.creg 0x2D8 0x104 b.tbtgt, trep := im.creg 0x2E0 0x105 b.trep, tinfo := im.word 0x2E8,
    mshp := Vector.ofFn (fun i : Fin 8 => im.creg (0x2F0 + 8 * i.val) (0x040 + i.val) 0x1F0F0A), fnver := im.creg 0x330 0x050 b.fnver,
    dtmask := im.creg 0x338 0x051 b.dtmask, dtlost := im.creg 0x340 0x052 b.dtlost, sgeoa := im.creg 0x348 0x053 b.sgeoa,
    sgeob := im.creg 0x350 0x054 b.sgeob, scrlo := im.creg 0x358 0x006 c.scrlo, scrhi := im.creg 0x360 0x007 c.scrhi,
    asid := im.creg 0x368 0x003 c.asid, ttbase := im.creg 0x370 0x004 c.ttbase,
    drip := (List.range (min 256 (fld (im.num 0x380 8) 0 9))).map (fun i => readDrip (im.num (0x30000 + 16 * i) 8) (im.num (0x30008 + 16 * i) 8)) }

/-- What the tray's bit [9] stands for: the half that the context had returned, or the oldest record's. -/
def readHalf (im : Image) (c : Context) : DripHalf :=
  if fld (im.num 0x380 8) 9 1 = 0 then .none
  else if c.dripHalf ≠ .none then c.dripHalf
  else if fld (im.num 0x380 8) 0 9 = 0 then .null else .record

/-- Sequencer state, records or streams that a poisoned byte of memory has struck (R322). -/
def Image.seqStruck (im : Image) : Bool := im.pois.any (fun o => decide (o < 0x31000))

/-- The first `size` MiB of the backing range, as the blocks of the partition (R331). -/
def readScratch (im : Image) (foot size : Nat) : Image := im.slice (backingBase foot) (2 ^ 20 * size)

def sortCells (l : List Cell) : List Cell := l.foldl (fun a c => memSet a c.1 c.2) []
def sortNats (l : List Nat) : List Nat := l.foldl setAdd []

/-- The state that an image holds, put into a context. The cells are given back beside it. -/
def Context.load (c : Context) (im : Image) (foot : Nat) : Context × List CellState :=
  let old := c
  let c := { c.readSeq im with dripHalf := readHalf im c }
  let c := { c with
    tickets := Vector.ofFn (fun i : Fin 64 => readTicket (im.num (0x400 + 8 * i.val) 8)),
    hatches := Vector.ofFn (fun h : Fin 12 => Vector.ofFn (fun l : Fin 16 =>
      (List.range (min 32 (im.num (0x600 + 16 * h.val + l.val) 1))).map (fun i => readChunk im (0x51000 + 4096 * (16 * h.val + l.val) + 128 * i)))),
    streams := Vector.ofFn (fun q : Fin 16 => if q.val = 15 then Stream.free else readStream (im.slice (0x21000 + 4096 * q.val) 4096) 0 c old.streams[q]) }
  let c := { c with cmds := readCommands im { c with cmds := old.cmds } }
  let sc := readScratch im foot c.scrlo.toNat
  ({ c with scratch := sortCells sc.bytes, scratchPoi := sortNats sc.pois, rep := 0, dsc := 0, target := 0, goto := none, yielded := false, half := none, doomed := none,
            landPoint := true, trapDue := none, timer := 0,
            stepping := c.suspended.isNone && c.tdsc.getLsbD 8 && (old.stepping || old.issues == 0),
            tickets := Vector.ofFn (fun i : Fin 64 => { c.tickets[i] with away := false }) }, readCells im foot)

/-! ### Collectives that run away (R332) -/

/-- The collectives among a context's commands keep running while it is drained, and their ticket entries say so (R327). -/
def Context.runAway (c : Context) : Context :=
  let ks := (c.inFlight.filter (fun k => collectiveOp k.op)).map (·.e.kp)
  { c with tickets := Vector.ofFn (fun i : Fin 64 =>
      if ks.contains (BitVec.ofNat 6 i.val) && i.val != 0 then { c.tickets[i] with away := true } else c.tickets[i]) }

/-- A collective of a drained context has ended: its ticket, and the ticket entry in the context's area, receive status and
detail. -/
def State.endAway (s : State) (id seq area : Nat) : State :=
  match s.contexts.find? (fun c => c.ctxid.toNat == id) with
  | none => s
  | some c =>
    match c.cmds.findIdx? (fun k => k.seq == seq && k.outcome.isSome) with
    | none => s
    | some n =>
      let c' := c.ticketComplete n
      let s := mapCtxs s (fun m => if m.ctxid.toNat = id then m.ticketComplete n else m)
      match c.cmds[n]? with
      | none => s
      | some k =>
        if k.e.kp = 0 then s
        else
          match s.engineWrite (deviceWho c.savedAsid) (area + 0x400 + 8 * k.e.kp.toNat)
              (cleanBytes (leBytes 8 (c'.tickets[k.e.kp.toFin]).word)) with
          | .error (_, a) => s.deviceFault c.lnum a
          | .ok s => s

/-- A collective's outcome reaches its context: the live ticket later, or a drained context's entry at once. -/
def State.endCollective (s : State) (id seq : Nat) (f : Failure) : State :=
  let s := s.endCmd id seq f
  match s.contexts.find? (fun c => c.ctxid.toNat == id && c.drainedAway) with
  | none => s
  | some c => s.endAway id seq (c.saved.getD 0)

end Sys2Proof.Machine
end

