-- ==== Sys2Proof/Machine/Collective.lean ====
section
/-! DEFINITION. Reductions in the network (R370 to R383): groups, their declarations and release, the collective commands, the
logical tree and its merges. The model is one module: a contributor on another module never declares here (NOTES.md, Scope). -/

namespace Sys2Proof.Machine

/-! ### Contexts other than the one on turn -/

/-- Exchanges the context on turn with the one of a CTXID. -/
def State.turnTo (s : State) (id : Nat) : State :=
  if s.ctx.ctxid.toNat = id then s
  else
    match s.others.findIdx? (fun c => c.ctxid.toNat == id) with
    | none => s
    | some n =>
      match s.others[n]? with
      | none => s
      | some c => { s with ctx := c, others := s.others.set n s.ctx }

/-- Runs `f` for the context of a CTXID, and gives the turn back. -/
def State.forContext {α : Type} (s : State) (id : Nat) (f : State → α × State) : α × State :=
  let me := s.ctx.ctxid.toNat
  let (x, s) := f (s.turnTo id)
  (x, s.turnTo me)

/-! ### Accesses that have been begun (R178, R194, R195, R335) -/

/-- A command's bytes that wait are written. -/
def State.flushCmd (s : State) (n : Nat) : State :=
  match s.ctx.cmds[n]? with
  | none => s
  | some k => if k.out = [] then s else ({ s := s, c := { k with later := 0 } } : Job).flushOut.commit

/-- What the context on turn and its commands have begun is performed: the second part of an access, and bytes of a transfer. -/
def State.finishBegun (s : State) : State := (List.range s.ctx.cmds.length).foldl State.flushCmd s.settleHalf

/-- Whether a context has an access that has been begun and not performed: its place has been found already. -/
def Context.begun (c : Context) : Bool := c.half.isSome || c.cmds.any (fun k => k.out != [])

/-- Every access anywhere that has been begun is performed, before a place that it has found stands for something else. -/
def State.performBegun (s : State) : State :=
  (((s.ctx :: s.others).filter Context.begun).map (·.ctxid.toNat)).foldl (fun s id => (s.forContext id (fun s => ((), s.finishBegun))).2) s

/-! ### Issue (R377, R379) -/

/-- GRP: EFN[1:0]. -/
def EngCmd.slot (k : EngCmd) : Fin 4 := Fin.ofNat 4 (k.e.efn.toNat % 4)

def GroupSlot.boundKey : GroupSlot → Option Nat
  | .free => none
  | .pending _ => none
  | .bound key => some key

/-- A collective on a slot that is bound takes the next operation number of its group; on any other it ends (R379). -/
def judgeCollective (f : EngCmd → Except Failure Unit) (s : State) (k : EngCmd) : EngCmd × State :=
  match f k with
  | .error x => (k.ends x, s)
  | .ok _ =>
    match s.ctx.groups[k.slot].boundKey with
    | none => (k.ends (1, 0), s)
    | some _ => ({ k with opNo := s.ctx.groupOps[k.slot] },
        { s with ctx.groupOps := s.ctx.groupOps.set k.slot (s.ctx.groupOps[k.slot] + 1) })

def reddValues (k : EngCmd) : Except Failure Unit := require (k.pNat 1 != 0 && decide (k.pNat 1 < 2 ^ 32)) (1, 1)
def bcstValues (k : EngCmd) : Except Failure Unit := require (decide (k.pNat 3 < 2 ^ 16)) (1, 3)

def execReds (e : Cmd) (s : State) : Result := issueCmd (.reds e) e (hatchSrcs e) (judgeCollective noCheck) s
def execRedd (e : Cmd) (s : State) : Result := issueCmd (.redd e) e (hatchSrcs e) (judgeCollective reddValues) s
def execBcst (e : Cmd) (s : State) : Result := issueCmd (.bcst e) e (hatchSrcs e) (judgeCollective bcstValues) s
def execRgrp (e : Cmd) (s : State) : Result := issueCmd (.rgrp e) e [e.p0] judgeNone s

/-! ### Groups in the state -/

def State.groupAt (s : State) (asid key : Nat) : Option Group := s.groups.find? (fun g => g.asid == asid && g.key == key)

def State.mapGroup (s : State) (asid key : Nat) (f : Group → Group) : State :=
  { s with groups := s.groups.map (fun g => if g.asid = asid ∧ g.key = key then f g else g) }

def State.dropGroup (s : State) (asid key : Nat) : State := { s with groups := s.groups.filter (fun g => !(g.asid == asid && g.key == key)) }

def State.setSlot (s : State) (id slot : Nat) (b : GroupSlot) : State :=
  mapCtxs s (fun c => if c.ctxid.toNat = id then { c with groups := c.groups.set (Fin.ofNat 4 slot) b, groupOps := c.groupOps.set (Fin.ofNat 4 slot) 0 } else c)

/-! ### RGRP (R371, R378) -/

/-- FMT of a group block (R371): bytes of a value in a result. -/
def groupWidth (fmt : Nat) : Nat := if fmt = 0x09 then 2 else 4

def groupFmtOk (fmt : Nat) : Bool := fmt == 0x0A || fmt == 0x09 || fmt == 0x03

/-- The block's fields are as R371 allows. -/
def groupBlockOk (b : Nat) : Bool :=
  fld b 192 320 == 0 && fld b 91 37 == 0 && fld b 78 2 == 0 && fld b 68 4 == 0 && decide (1 ≤ fld b 32 16) && decide (fld b 32 16 ≤ 4096) &&
    decide (fld b 48 16 < fld b 32 16) && decide (2 ≤ fld b 64 4) && decide (fld b 64 4 ≤ 8) && groupFmtOk (fld b 72 6) &&
    decide (fld b 80 11 ≤ 1024) && fld b 128 64 % 64 == 0

/-- The rank map: the module of each rank. Without one every rank lies on this module. -/
def Job.rankMap (j : Job) (b : Nat) : Except Failure (List Nat) :=
  let n := fld b 32 16
  let va := fld b 128 64
  if va = 0 then .ok (List.replicate n (j.s.mgmt.modnum.toNat % 2 ^ 16))
  else
    match j.s.engineRead j.who va (2 * n) with
    | .error (_, a) => .error (vaFailure a)
    | .ok bs =>
      if anyPoison bs then .error (6, (poisonedUnits va bs).length)
      else .ok ((List.range n).map (fun i => numOf ((bs.drop (2 * i)).take 2)))

/-- What reading a rank map leaves behind. -/
def Job.touchMap (j : Job) (b : Nat) : Job :=
  if fld b 128 64 = 0 then j else { j with s := j.s.engineTouch j.who (fld b 128 64) (2 * fld b 32 16) }

/-- Whether a declaration's ranks lie on several modules, of which this one is `here`. -/
def GroupDecl.spans (d : GroupDecl) (here : Nat) : Bool := d.rmap.any (· != here)

/-- Whether a way to another module is left: a link that is up (R397). -/
def State.routed (s : State) : Bool := s.mgmt.links.toList.any (fun w => w.getLsbD 0)

/-- The group that a declaration names: by its address space and KEY, and where both span modules by the KEY alone (R370). -/
def State.groupNamed (s : State) (asid key : Nat) (spans : Bool) : Option Group :=
  match s.groupAt asid key with
  | some g => some g
  | none => s.groups.find? (fun g => spans && g.key == key && g.decls.any (fun d => d.spans (s.mgmt.modnum.toNat % 2 ^ 16)))

/-- A contributor declares its group; the command waits until the group forms. Where no route is left to a module of its rank map, it ends
(R397). -/
def Job.declare (j : Job) : Job :=
  match j.readBlock 0 with
  | .error f => j.done f
  | .ok blk =>
    let b := blk.toNat
    if !groupBlockOk b || j.s.ctx.groups[j.c.slot] != .free then j.done (1, 0)
    else
      match j.rankMap b with
      | .error f => j.done f
      | .ok rmap =>
        let j := j.touchMap b
        let key := fld b 0 32
        let rank := fld b 48 16
        let d : GroupDecl := { ctx := j.s.ctx.ctxid.toNat, slot := j.c.slot.val, cmd := j.c.seq, rank := rank, n := fld b 32 16, f := fld b 64 4,
                               fmt := fld b 72 6, t := orDefault (fld b 80 11) 256, rmap := rmap }
        if rmap.getD rank 0 ≠ j.s.mgmt.modnum.toNat % 2 ^ 16 then j.done (1, 0)
        else if d.spans (j.s.mgmt.modnum.toNat % 2 ^ 16) && !j.s.routed then j.done (3, 0)
        else
          match j.s.groupNamed j.c.asid key (d.spans (j.s.mgmt.modnum.toNat % 2 ^ 16)) with
          | some g =>
            if g.formed then j.done (1, 0xFFFFFFFF)
            else { s := (j.s.mapGroup g.asid key (fun g => { g with decls := g.decls ++ [d] })).setSlot d.ctx d.slot (.pending key),
                   c := { j.c with started := true } }
          | none =>
            if 256 ≤ j.s.groups.length then j.done (4, 0)
            else
              { s := (({ j.s with groups := j.s.groups ++ [{ key := key, asid := j.c.asid, decls := [d], formed := false, done := 0, run := none, released := [] }] } : State)).setSlot
                  d.ctx d.slot (.pending key),
                c := { j.c with started := true } }

/-- The declaration that a context's slot made, while the slot has not released it. -/
def Group.declOf (g : Group) (id slot : Nat) : Option GroupDecl :=
  g.decls.find? (fun d => d.ctx == id && d.slot == slot && !g.released.contains d.rank)

/-- The live group that a context's slot has declared. -/
def State.groupOf (s : State) (id slot : Nat) : Option Group := s.groups.find? (fun g => (g.declOf id slot).isSome)

/-- A slot whose group has formed is released: the group ends with its last contributor. -/
def State.releaseBound (s : State) (id slot : Nat) : State :=
  match s.groupOf id slot with
  | none => s.setSlot id slot .free
  | some g =>
    let released := match g.declOf id slot with
      | none => g.released
      | some d => setAdd g.released d.rank
    let s := (s.mapGroup g.asid g.key (fun g => { g with released := released })).setSlot id slot .free
    if g.decls.all (fun d => released.contains d.rank) then s.dropGroup g.asid g.key else s

/-- A pending declaration is withdrawn, and its RGRP ends with status 1. -/
def State.withdraw (s : State) (id slot : Nat) : State :=
  match s.groupOf id slot with
  | none => s.setSlot id slot .free
  | some g =>
    let left := g.decls.filter (fun x => !(x.ctx == id && x.slot == slot))
    let s := (s.mapGroup g.asid g.key (fun g => { g with decls := left })).setSlot id slot .free
    let s := match g.declOf id slot with
      | none => s
      | some d => s.endCollective id d.cmd (1, 0)
    if left = [] then s.dropGroup g.asid g.key else s

/-- The commands that form operations of a group. -/
def operationOp : Instr → Bool
  | .reds _ => true
  | .redd _ => true
  | .bcst _ => true
  | _ => false

def isRgrp : Instr → Bool
  | .rgrp _ => true
  | _ => false

/-- Collectives of a slot that have not ended. -/
def Context.slotBusy (c : Context) (slot before : Nat) : Bool :=
  c.inFlight.any (fun k => operationOp k.op && k.slot.val == slot && k.seq < before)

/-- An RGRP that declares a group on a slot and has not begun. -/
def EngCmd.waitsToDeclare (k : EngCmd) (slot before : Nat) : Bool :=
  isRgrp k.op && k.slot.val == slot && decide (k.seq < before) && k.pNat 0 != 0 && !k.started && k.outcome.isNone

/-- RGRP with P0 = 0. On a slot that is free it withdraws what an earlier RGRP, which has not begun yet, would declare there. -/
def Job.release (j : Job) : Job :=
  let id := j.s.ctx.ctxid.toNat
  let slot := j.c.slot.val
  match j.s.ctx.groups[j.c.slot] with
  | .free =>
    ({ j with s := { j.s with ctx.cmds := j.s.ctx.cmds.map (fun k => if k.waitsToDeclare slot j.c.seq then k.ends (1, 0) else k) } } : Job).done (0, 0)
  | .pending _ => ({ j with s := j.s.withdraw id slot } : Job).done (0, 0)
  | .bound _ => if j.s.ctx.slotBusy slot j.c.seq then j else ({ j with s := j.s.releaseBound id slot } : Job).done (0, 0)

def Job.startRgrp (j : Job) : Job := if j.c.pNat 0 = 0 then j.release else j.declare

/-- Two declarations agree (R378). -/
def GroupDecl.agrees (a b : GroupDecl) : Bool := a.n == b.n && a.f == b.f && a.fmt == b.fmt && a.t == b.t && a.rmap == b.rmap

def Group.conflict (g : Group) : Bool :=
  match g.decls with
  | [] => false
  | d :: r => r.any (fun x => !d.agrees x) || !decide ((g.decls.map (·.rank)).Nodup)

/-- Where no route to another module is left, every operation on a group that spans modules ends with status 3 (R397): here, the declarations
that wait for contributors elsewhere. -/
def State.endUnrouted (s : State) : State :=
  if s.routed then s
  else
    (s.groups.filter (fun g => g.decls.any (fun d => d.spans (s.mgmt.modnum.toNat % 2 ^ 16)))).foldl (fun s g =>
      (g.decls.foldl (fun s x => (s.endCollective x.ctx x.cmd (3, 0)).setSlot x.ctx x.slot .free) s).dropGroup g.asid g.key) s

/-- Group `n` forms once all its contributors have declared it, or its declarations disagree (R378). -/
def State.groupFormation (s : State) (n : Nat) : State :=
  match s.groups[n]? with
  | none => s
  | some g =>
    match g.decls with
    | [] => s
    | d :: _ =>
      if g.formed then s
      else if g.conflict then
        (g.decls.foldl (fun s x => (s.endCollective x.ctx x.cmd (1, 0xFFFFFFFF)).setSlot x.ctx x.slot .free) s).dropGroup g.asid g.key
      else if g.decls.length = d.n then
        (g.decls.foldl (fun s x => (s.endCollective x.ctx x.cmd (0, 0)).setSlot x.ctx x.slot (.bound g.key)) s).mapGroup g.asid g.key
          (fun g => { g with formed := true })
      else s

def execGroupFormation (n : Nat) (s : State) : Result := .next (s.groupFormation n)

/-! ### What contributors feed (R373, R380, R381) -/

/-- A contribution: index, value bits, poison; the conditions met while it was read, and the non-resident frames; and the stripe from which
a poisoned index taints the result. -/
structure Feed where
  vals : List (Nat × BitVec 32 × Bool)
  fates : List Failure
  miss : List Nat
  taint : Option Nat
  deriving DecidableEq, Repr

/-- A value as it travels: bf16 as f32 (R374). -/
def leafBits (fmt raw : Nat) : BitVec 32 := if fmt = 0x09 then BitVec.ofNat 32 (raw * 2 ^ 16) else BitVec.ofNat 32 raw

/-- Reads pairs from `va` on; `prev` is the last index. What the reads leave behind in the caches comes with them (R357). -/
def Job.readPairs (j : Job) (fmt va i : Nat) (prev : Option Nat) : Nat → Feed × State
  | 0 => ({ vals := [], fates := [], miss := j.c.miss, taint := none }, j.s)
  | n + 1 =>
    match j.readBytes va 8 with
    | .error a => ({ vals := [], fates := [vaFailure a], miss := j.c.miss, taint := none }, j.s)
    | .ok (bs, j) =>
      let ix := ofLeBytes ((bs.take 4).map (·.byte))
      let vb := (bs.drop 4).take (groupWidth fmt)
      if bs.any (·.res) then ({ vals := [], fates := [], miss := j.c.miss, taint := none }, j.s)
      else if (bs.take 4).any (·.poi) then ({ vals := [], fates := [], miss := j.c.miss, taint := some (prev.getD 0 / 1024) }, j.s)
      else if (match prev with | none => false | some p => decide (ix ≤ p)) then ({ vals := [], fates := [(1, i)], miss := j.c.miss, taint := none }, j.s)
      else
        let (r, s) := j.readPairs fmt ((va + 8) % 2 ^ 64) (i + 1) (some ix) n
        ({ r with vals := (ix, leafBits fmt (ofLeBytes (vb.map (·.byte))), vb.any (·.poi)) :: r.vals }, s)

/-- Reads the elements of a plain vector. -/
def Job.readVector (j : Job) (fmt va i : Nat) : Nat → Feed × State
  | 0 => ({ vals := [], fates := [], miss := j.c.miss, taint := none }, j.s)
  | n + 1 =>
    match j.readBytes va (groupWidth fmt) with
    | .error a => ({ vals := [], fates := [vaFailure a], miss := j.c.miss, taint := none }, j.s)
    | .ok (bs, j) =>
      let (r, s) := j.readVector fmt ((va + groupWidth fmt) % 2 ^ 64) (i + 1) n
      (if bs.any (·.res) then r else { r with vals := (i, leafBits fmt (ofLeBytes (bs.map (·.byte))), bs.any (·.poi)) :: r.vals }, s)

/-- The stripes of rising indices (R373). -/
def stripesOf (dense : Bool) (t : Nat) : List (Nat × BitVec 32 × Bool) → List Stripe
  | [] => []
  | v :: r =>
    match stripesOf dense t r with
    | [] => [{ num := v.1 / 1024, dense := dense || decide (t < 1), vals := [(v.1 % 1024, v.2)] }]
    | x :: xs =>
      if x.num = v.1 / 1024 then
        { num := x.num, dense := dense || decide (t < x.vals.length + 1), vals := (v.1 % 1024, v.2) :: x.vals } :: xs
      else { num := v.1 / 1024, dense := dense || decide (t < 1), vals := [(v.1 % 1024, v.2)] } :: x :: xs

/-! ### Merging (R372, R374) -/

/-- Bits under a poison mark (R128, log entry 5). -/
def hiddenBits (key : Nat) : BitVec 32 := BitVec.ofNat 32 (Config.underPoison key 32)

/-- Add of R374, with the clamps it counts. -/
def groupAdd (fmt : Nat) (sat : Bool) (key : Nat) (a b : BitVec 32 × Bool) : (BitVec 32 × Bool) × Nat :=
  if a.2 || b.2 then ((hiddenBits key, true), 0)
  else if fmt = 0x03 then
    let x := a.1.toInt + b.1.toInt
    let y := max (-(2 ^ 31)) (min (2 ^ 31 - 1) x)
    ((BitVec.ofInt 32 y, false), if x = y then 0 else 1)
  else
    let va := fmtF32.value a.1.toNat
    let vb := fmtF32.value b.1.toNat
    let (v, _) := Val.add .rne va vb
    let clampable := sat && !va.isInf && !vb.isInf
    let (c, ev) := fmtF32.roundVal .rne clampable v
    ((BitVec.ofNat 32 c, false), if clampable ∧ ev / evSat % 2 = 1 then 1 else 0)

/-- Adds a stripe's values into those of the children before it; both rise by offset. -/
def mergeVals (fmt : Nat) (sat : Bool) (key : Nat) : List (Nat × BitVec 32 × Bool) → List (Nat × BitVec 32 × Bool) →
    List (Nat × BitVec 32 × Bool) × Nat
  | [], ys => (ys, 0)
  | x :: xs, ys =>
    let before := ys.takeWhile (fun y => y.1 < x.1)
    let rest := ys.dropWhile (fun y => y.1 < x.1)
    match rest with
    | [] => (before ++ x :: xs, 0)
    | y :: t =>
      if y.1 = x.1 then
        let (v, n) := groupAdd fmt sat key x.2 y.2
        let (r, n') := mergeVals fmt sat key xs t
        (before ++ (x.1, v) :: r, n + n')
      else
        let (r, n') := mergeVals fmt sat key xs rest
        (before ++ x :: r, n')

/-- A child's stripe joins what the children before it have left of the same number. -/
def mergeStripe (fmt t : Nat) (sat : Bool) (key : Nat) (y : Stripe) : List Stripe → List Stripe × Nat
  | [] => ([y], 0)
  | x :: r =>
    if y.num < x.num then (y :: x :: r, 0)
    else if x.num = y.num then
      let (v, n) := mergeVals fmt sat key x.vals y.vals
      ({ num := x.num, dense := x.dense || y.dense || decide (t < v.length), vals := v } :: r, n)
    else
      let (r, n) := mergeStripe fmt t sat key y r
      (x :: r, n)

def mergeChild (fmt t : Nat) (sat : Bool) (key : Nat) (acc : List Stripe × Nat) (child : List Stripe) : List Stripe × Nat :=
  child.foldl (fun a y =>
    let (l, n) := mergeStripe fmt t sat key y a.1
    (l, a.2 + n)) acc

/-- The stripes of a merge node, and the clamps counted, from its children in ascending logical rank. -/
def mergeNode (fmt t : Nat) (sat : Bool) (key : Nat) (children : List (List Stripe)) : List Stripe × Nat :=
  children.foldl (mergeChild fmt t sat key) ([], 0)

/-- The number of nodes of each level above one of `c` nodes, with fan-in `f` (R372). -/
def levelSizes (f : Nat) : Nat → Nat → List Nat
  | 0, _ => []
  | fuel + 1, c => if c ≤ 1 then [] else (c + f - 1) / f :: levelSizes f fuel ((c + f - 1) / f)

/-- The operations that a contributor has issued on its slot and that have begun, oldest first. -/
def State.slotCmds (s : State) (d : GroupDecl) : List EngCmd :=
  match s.contexts.find? (fun c => c.ctxid.toNat == d.ctx) with
  | none => []
  | some c => c.inFlight.filter (fun k => operationOp k.op && k.slot.val == d.slot && k.started && k.outcome.isNone)

/-- The command that a contributor has issued as the group's next operation. -/
def State.groupCmd (s : State) (g : Group) (d : GroupDecl) : Option EngCmd := (s.slotCmds d).find? (fun k => k.opNo == g.done)

/-- `.sat` of the running operation. -/
def EngCmd.satBit (k : EngCmd) : Bool := k.e.efn.toNat / 4 % 2 == 1
def EngCmd.allBit (k : EngCmd) : Bool := k.e.efn.toNat / 8 % 2 == 1

def replaceAt {α : Type} (l : List α) (n : Nat) (x : α) : List α := l.take n ++ x :: l.drop (n + 1)

/-- Merge node `node` of level `level` merges its children, once all of them are formed (R374). -/
def State.stripeMerge (s : State) (n level node : Nat) : State :=
  match s.groups[n]? with
  | none => s
  | some g =>
    match g.run, g.decls with
    | some r, d :: _ =>
      match level, r.levels[level]?, (s.groupCmd g d) with
      | 0, _, _ => s
      | _, none, _ => s
      | _, _, none => s
      | lv + 1, some nodes, some k =>
        match nodes[node]?, (((r.levels.getD lv []).drop (d.f * node)).take d.f).mapM id with
        | some none, some children =>
          let (st, clamps) := mergeNode d.fmt d.t k.satBit s.free children
          let r' : GroupRun := { r with levels := replaceAt r.levels (lv + 1) (replaceAt nodes node (some st)), clamps := r.clamps + clamps }
          s.mapGroup g.asid g.key (fun g => { g with run := some r' })
        | _, _ => s
    | _, _ => s

def execStripeMerge (n level node : Nat) (s : State) : Result := .next (s.stripeMerge n level node)

/-! ### Results (R376, R381, R382) -/

/-- A result being laid out: bytes with their marks. -/
abbrev Marked := List (Byte × Bool)

def padTo (m : Nat) (l : Marked) : Marked := l ++ List.replicate ((l.length + m - 1) / m * m - l.length) (0, false)

def valueBytes (w : Nat) (v : BitVec 32 × Bool) : Marked := (leBytes w v.1.toNat).map (fun b => (b, v.2))

/-- A stripe record. -/
def stripeRecord (w : Nat) (x : Stripe) : Marked :=
  let head := cleanBytes (leBytes 4 x.num ++ leBytes 2 x.vals.length ++ [if x.dense then 1 else 0, 0])
  if x.dense then
    head ++ cleanBytes (leBytes 128 ((x.vals.map (fun v => 2 ^ v.1)).sum)) ++
      (List.range 1024).flatMap (fun o =>
        match x.vals.find? (·.1 == o) with
        | none => cleanBytes (leBytes w 0)
        | some v => valueBytes w v.2)
  else head ++ padTo 8 (cleanBytes (x.vals.flatMap (fun v => leBytes 2 v.1))) ++ padTo 8 (x.vals.flatMap (fun v => valueBytes w v.2))

/-- The reduction result of REDS. -/
def reductionResult (fmt : Nat) (st : List Stripe) : Marked :=
  let body := st.flatMap (stripeRecord (groupWidth fmt))
  cleanBytes (leBytes 4 (16 + body.length) ++ leBytes 4 st.length ++ [BitVec.ofNat 8 fmt, 1] ++ leBytes 6 0) ++ body

/-- The plain vector of REDD. -/
def plainResult (fmt n : Nat) (st : List Stripe) : Marked :=
  (List.range n).flatMap (fun i =>
    match (st.find? (fun x => x.num == i / 1024)).bind (fun x => x.vals.find? (·.1 == i % 1024)) with
    | none => cleanBytes (leBytes (groupWidth fmt) 0)
    | some v => valueBytes (groupWidth fmt) v.2)

/-- The root rounds each value to the group's format; bf16 values may clamp (R374). -/
def rootValue (fmt : Nat) (sat : Bool) (v : BitVec 32 × Bool) : (BitVec 32 × Bool) × Nat :=
  if fmt ≠ 0x09 ∨ v.2 = true then (v, 0)
  else
    let x := fmtF32.value v.1.toNat
    let (c, ev) := fmtBf16.roundVal .rne (sat && !x.isInf) x
    ((BitVec.ofNat 32 c, false), if sat ∧ ev / evSat % 2 = 1 then 1 else 0)

def rootStripe (fmt : Nat) (sat : Bool) (x : Stripe) : Stripe × Nat :=
  let vs := x.vals.map (fun v => (v.1, rootValue fmt sat v.2))
  ({ x with vals := vs.map (fun v => (v.1, v.2.1)) }, (vs.map (fun v => v.2.2)).sum)

def ruined (key num : Nat) : Stripe := { num := num, dense := true, vals := (List.range 1024).map (fun o => (o, hiddenBits (key + o), true)) }

/-- A poisoned index ruins its stripe, and every stripe above it that is present (R382). -/
def taintStripes (key : Nat) (taint : Option Nat) (st : List Stripe) : List Stripe :=
  match taint with
  | none => st
  | some t => st.filter (fun x => x.num < t) ++ ruined key t :: (st.filter (fun x => t < x.num)).map (fun x => ruined key x.num)

/-! ### Operations (R379, R382, R383) -/

/-- What must agree between the contributors of an operation. -/
def EngCmd.signature (k : EngCmd) : Nat × Nat × Nat × Nat :=
  match k.op with
  | .reds _ => (0, k.e.efn.toNat / 4, 0, 0)
  | .redd _ => (1, k.e.efn.toNat / 4, k.pNat 1, 0)
  | .bcst _ => (2, 0, k.pNat 1, k.pNat 3)
  | _ => (3, 0, 0, 0)

def isBcst : Instr → Bool
  | .bcst _ => true
  | _ => false

def isReds : Instr → Bool
  | .reds _ => true
  | _ => false

/-- Every contributor's command for the next operation, in rank order. -/
def State.operation (s : State) (g : Group) : Option (List (GroupDecl × EngCmd)) :=
  let n := (g.decls.head?.map (·.n)).getD 0
  (List.range n).mapM (fun r => (g.decls.find? (·.rank == r)).bind (fun d => (s.groupCmd g d).map (fun x => (d, x))))

/-- Ends the operation at each contributor with what `f` gives. -/
def State.endOperation (s : State) (g : Group) (ops : List (GroupDecl × EngCmd)) (f : GroupDecl → Failure) : State :=
  (ops.foldl (fun s x => s.endCollective x.1.ctx x.2.seq (f x.1)) s).mapGroup g.asid g.key (fun g => { g with done := g.done + 1, run := none })

/-- A contributor's input is read. -/
def State.readFeed (s : State) (d : GroupDecl) (k : EngCmd) : Feed × State :=
  s.forContext d.ctx (fun s =>
    let j : Job := { s := s, c := k }
    if isReds k.op then j.readPairs d.fmt (k.pNat 0 % 2 ^ 64) 0 none (k.pNat 1) else j.readVector d.fmt (k.pNat 0 % 2 ^ 64) 0 (k.pNat 1))

/-- The lower of two stripes. -/
def minTaint : Option Nat → Option Nat → Option Nat
  | none, b => b
  | some a, none => some a
  | some a, some b => some (min a b)

/-- The operation starts: every contributor's input is read into its leaf. -/
def State.startReduction (s : State) (g : Group) (ops : List (GroupDecl × EngCmd)) : State :=
  let (fs, s) := ops.foldl (fun (a : List (Nat × Feed × List Stripe) × State) x =>
    let (fd, s) := a.2.readFeed x.1 x.2
    (a.1 ++ [(x.1.rank, fd, stripesOf (!isReds x.2.op) x.1.t fd.vals)], s)) ([], s)
  let f := (g.decls.head?.map (·.f)).getD 2
  let levels := fs.map (fun x => some x.2.2) :: (levelSizes f ops.length ops.length).map (fun n => List.replicate n none)
  let r : GroupRun :=
    { levels := levels, clamps := 0, fates := fs.flatMap (fun x => x.2.1.fates.map (fun y => (x.1, y))),
      miss := fs.flatMap (fun x => x.2.1.miss.map (fun y => (x.1, y))), ends := none,
      taint := fs.foldl (fun t x => minTaint t x.2.1.taint) none }
  s.mapGroup g.asid g.key (fun g => { g with run := some r })

def satCount (n : Nat) : Nat := min n 0xFFFFFFFF

/-- A receiver gets a result to write, or nothing when a page faults: its command writes the bytes in steps of its own, so that a reader may
meet any mixture of them (R194). With it come the receiver's own conditions and the frames that are not resident. -/
def State.writeOutput (s : State) (d : GroupDecl) (k : EngCmd) (bs : Marked) : (List Failure × List Nat) × State :=
  s.forContext d.ctx (fun s =>
    match ({ s := s, c := { k with later := 2 ^ bs.length - 1 } } : Job).writeBytes (k.pNat 2 % 2 ^ 64) bs with
    | .error a => (([vaFailure a], []), s)
    | .ok j =>
      ((if isBcst k.op ∧ j.c.units ≠ [] then [(6, satCount j.c.units.length)] else [], j.c.miss),
        ({ j with c := { k with out := j.c.out } } : Job).commit))

/-- Status 5 of one contributor or receiver: the frames that it met, and for REDD, whose absent elements are no condition of one contributor
(R379, R381, R382), those that any contributor met; each frame counted once. -/
def missFates (shared : Bool) (rank : Nat) (met : List (Nat × Nat)) (own : List Nat) : List Failure :=
  let l := (((met.filter (fun x => shared || x.1 == rank)).map Prod.snd) ++ own).eraseDups
  if l = [] then [] else [(5, satCount l.length)]

/-- The status of one contributor (R239): its own conditions with those of the operation. -/
def rankOutcome (l : List Failure) : Failure :=
  ((joinRank.map (fun st => l.find? (fun r => r.1 == st.toNat))).findSome? id).getD (0, 0)

/-- The outcome of each contributor is settled; its command ends once every receiver has written what it got (R379). -/
def State.settleOperation (s : State) (g : Group) (r : GroupRun) (ops : List (GroupDecl × EngCmd)) (f : GroupDecl → Failure) : State :=
  s.mapGroup g.asid g.key (fun g => { g with run := some { r with ends := some (ops.map (fun x => (x.1.rank, f x.1))) } })

/-- The root's stripes have reached the collective units: receivers check their capacity and write. -/
def State.deliver (s : State) (g : Group) (r : GroupRun) (ops : List (GroupDecl × EngCmd)) (root : List Stripe) : State :=
  match ops with
  | [] => s
  | (d0, k0) :: _ =>
    let st := (taintStripes s.free r.taint root).map (rootStripe d0.fmt k0.satBit)
    let clamps := r.clamps + (st.map Prod.snd).sum
    let stripes := st.map Prod.fst
    let poisoned := (stripes.map (fun x => (x.vals.filter (fun v => v.2.2)).length)).sum
    let bs := if isReds k0.op then reductionResult d0.fmt stripes else plainResult d0.fmt (k0.pNat 1) stripes
    let common := (if clamps = 0 then [] else [(8, satCount clamps)]) ++ (if poisoned = 0 then [] else [(6, satCount poisoned)])
    let (own, s) := ops.foldl (fun (a : List (Nat × List Failure × List Nat) × State) x =>
      if !(k0.allBit || x.1.rank == 0) then a
      else if x.2.pNat 3 < bs.length then (a.1 ++ [(x.1.rank, [(4, satCount bs.length)], [])], a.2)
      else
        let (fs, s) := a.2.writeOutput x.1 x.2 bs
        (a.1 ++ [(x.1.rank, fs)], s)) ([], s)
    s.settleOperation g r ops (fun d =>
      let mine := own.filter (·.1 == d.rank)
      rankOutcome (common ++ (r.fates.filter (·.1 == d.rank)).map Prod.snd ++ mine.flatMap (·.2.1) ++
        missFates (!isReds k0.op) d.rank r.miss (mine.flatMap (·.2.2))))

/-- BCST, whole (R383). -/
def State.broadcast (s : State) (g : Group) (ops : List (GroupDecl × EngCmd)) : State :=
  match ops with
  | [] => s
  | (_, k0) :: _ =>
    match ops.find? (fun x => x.1.rank == k0.pNat 3) with
    | none => s.endOperation g ops (fun _ => (1, 3))
    | some (dr, kr) =>
      let (r, s) := s.forContext dr.ctx (fun s =>
        let r := ({ s := s, c := kr } : Job).readBytes (kr.pNat 0 % 2 ^ 64) (k0.pNat 1)
        (r, match r with
          | .error _ => s
          | .ok (_, j) => j.s))
      match r with
      | .error a => s.endOperation g ops (fun _ => vaFailure a)
      | .ok (bs, _) =>
        match bs.findIdx? (·.res) with
        | some i => s.endOperation g ops (fun _ => vaFailure (kr.pNat 0 + i))
        | none =>
          let (own, s) := ops.foldl (fun (a : List (Nat × List Failure × List Nat) × State) x =>
            let (fs, s) := a.2.writeOutput x.1 x.2 (bs.map (fun b => (b.byte, b.poi)))
            (a.1 ++ [(x.1.rank, fs)], s)) ([], s)
          s.settleOperation g { levels := [], clamps := 0, fates := [], miss := [], ends := none, taint := none } ops (fun d =>
            let mine := own.filter (·.1 == d.rank)
            rankOutcome (mine.flatMap (·.2.1) ++ missFates false d.rank [] (mine.flatMap (·.2.2))))

/-- The next operation of group `n` starts, or delivers its result (R379). Where a contributor has released the group, what the
others issue ends with status 1 (R378). -/
def State.collectiveOperation (s : State) (n : Nat) : State :=
  match s.groups[n]? with
  | none => s
  | some g =>
    if !g.formed then s
    else if g.released ≠ [] then
      (g.decls.filter (fun d => !g.released.contains d.rank)).foldl (fun s d =>
        (s.slotCmds d).foldl (fun s k => s.endCollective d.ctx k.seq (1, 0xFFFFFFFD)) s) s
    else
      match s.operation g with
      | none => s
      | some ops =>
        match ops with
        | [] => s
        | (_, k0) :: _ =>
          if (g.run.bind (·.ends)).isSome then
            if ops.all (fun x => x.2.out.isEmpty) then
              s.endOperation g ops (fun d => ((((g.run.bind (·.ends)).getD []).find? (·.1 == d.rank)).map Prod.snd).getD (0, 0))
            else s
          else if ops.any (fun x => x.2.signature != k0.signature) then s.endOperation g ops (fun _ => (1, 0xFFFFFFFE))
          else if isBcst k0.op then s.broadcast g ops
          else
            match g.run with
            | none => s.startReduction g ops
            | some r =>
              match r.levels.getLast? with
              | some [some root] => s.deliver g r ops root
              | _ => s

def execCollectiveOperation (n : Nat) (s : State) : Result := .next (s.collectiveOperation n)

end Sys2Proof.Machine
end

