-- ==== Sys2Proof/Machine/Scratch.lean ====
section
/-! DEFINITION. The SRAM of a compute die (R176 to R178, R236): the blocks that scratch partitions take and give back; and the fused sets of
L1s (R175). -/

namespace Sys2Proof.Machine

/-! ### Contexts -/

def State.mapCtx (s : State) (id : Nat) (f : Context → Context) : State :=
  mapCtxs s (fun c => if c.ctxid.toNat = id ∧ c.status ≠ .absent then f c else c)

/-- The contexts that have an array of a compute die. -/
def State.onDie (s : State) (die : Nat) : List Context := s.contexts.filter (fun c => c.array.isSome && c.die == die)

/-! ### Blocks of die SRAM (R176, R178) -/

def State.usedBlocks (s : State) (die : Nat) : List Nat := (s.onDie die).flatMap (·.blocks)

/-- The blocks of a die that the die cache has. -/
def State.freeBlocks (s : State) (die : Nat) : List Nat := (List.range 64).filter (fun b => !(s.usedBlocks die).contains b)

/-- A block leaves the die cache: its software-managed lines are written back and dropped, and the cache's tokens of its coherent lines go
to their homes by WB (R358). -/
def State.evictBlock (s : State) (die b : Nat) : State :=
  let mine (line : Nat) : Bool := Config.sramBlock die line % 64 == b
  let s := ((s.swLines.filter (fun l => l.cache == .die die && mine l.line)).map (fun l => (l.cache, l.line))).foldl (fun s k => s.sendBack none k) s
  let s : State := { s with swLines := s.swLines.filter (fun l => !(l.cache == .die die && mine l.line)) }
  ((s.lines.filter (fun l => mine l.line && decide (0 < (l.holder (agentOfCache (.die die))).tokens))).map (·.line)).foldl (fun s n =>
    s.surrender n (agentOfCache (.die die)) none) s

def State.evictBlocks (s : State) (die : Nat) (bs : List Nat) : State := bs.foldl (fun s b => s.evictBlock die b) s

/-- The bytes of a partition from `lo` to `hi` MiB, as pieces of an image that begins at `lo`. -/
def Context.megabytes (c : Context) (lo hi : Nat) : List Piece :=
  let inside (o : Nat) : Bool := decide (2 ^ 20 * lo ≤ o) && decide (o < 2 ^ 20 * hi)
  Image.pieces { bytes := (c.scratch.filter (fun x => inside x.1)).map (fun x => (x.1 - 2 ^ 20 * lo, x.2)),
                 pois := (c.scratchPoi.filter inside).map (· - 2 ^ 20 * lo) } 0

/-- The bytes of a partition from `n` MiB on are in die SRAM no longer. -/
def Context.cutScratch (c : Context) (n : Nat) : Context :=
  { c with scratch := c.scratch.filter (fun x => x.1 < 2 ^ 20 * n), scratchPoi := c.scratchPoi.filter (fun o => o < 2 ^ 20 * n), blocks := c.blocks.take n }

/-- An outcome of the device's accesses: a fault ends the pipeline (R304). -/
def State.orFault (s : State) (lnum : Nat) : Except Nat State → State
  | .ok t => t
  | .error a => s.deviceFault lnum a

/-- A partition's blocks from the `n`-th on are written to its backing range and go back to the die cache. -/
def State.shrinkTo (s : State) (p : Pipeline) (c : Context) (n : Nat) : State :=
  if c.scratchSize ≤ n then s
  else
    let base := (s.backingAt c).getD 0 + 2 ^ 20 * n
    (s.orFault p.lnum (s.writeImage (deviceWho p.asid) base (2 ^ 20 * (c.scratchSize - n)) (c.megabytes n c.scratchSize))).mapCtx c.ctxid.toNat
      (Context.cutScratch · n)

/-- The partition that gives up a block for context `id` when the die cache has too few: another one that is above its lower limit (R178,
R236). -/
def State.givesBlock (s : State) (die id : Nat) : Option Context :=
  (s.onDie die).find? (fun c => c.ctxid.toNat != id && decide (c.scrlo.toNat < c.scratchSize))

/-- The die cache gets `n` blocks together for context `id`, as far as other partitions stand above their lower limits. -/
def State.makeBlocks (s : State) (die id n : Nat) : Nat → State
  | 0 => s
  | fuel + 1 =>
    if n ≤ (s.freeBlocks die).length then s
    else
      match s.givesBlock die id with
      | none => s
      | some c =>
        match s.pipelineOf c.lnum with
        | none => s
        | some p => (s.shrinkTo p c (c.scratchSize - 1)).makeBlocks die id n fuel

/-- `n` blocks of a die, free of lines, for the partition of context `id`. -/
def State.claimBlocks (s : State) (die id n : Nat) : State × List Nat :=
  let s := if n = 0 then s else s.makeBlocks die id n 64
  let bs := (s.freeBlocks die).take n
  (s.evictBlocks die bs, bs)

/-- A partition grows to `n` MiB, as far as there are blocks: each is filled from its backing range first (R178). -/
def State.growTo (s : State) (p : Pipeline) (id n : Nat) : State :=
  match s.contexts.find? (fun c => c.ctxid.toNat == id) with
  | none => s
  | some c =>
    if n ≤ c.scratchSize then s
    else
      let (s, bs) := s.claimBlocks c.die id (n - c.scratchSize)
      let base := (s.backingAt c).getD 0 + 2 ^ 20 * c.scratchSize
      match s.readImage (deviceWho p.asid) base (2 ^ 20 * bs.length) with
      | .error a => s.deviceFault p.lnum a
      | .ok im =>
        (s.touchArea (deviceWho p.asid) base (2 ^ 20 * bs.length)).mapCtx id (fun c =>
          { c with scratch := c.scratch ++ sortCells (im.bytes.map (fun x => (x.1 + 2 ^ 20 * c.scratchSize, x.2))),
                   scratchPoi := c.scratchPoi ++ sortNats (im.pois.map (· + 2 ^ 20 * c.scratchSize)), blocks := c.blocks ++ bs })

/-- The backing range of a partition from `lo` to `hi` MiB becomes zero. -/
def State.zeroBacking (s : State) (p : Pipeline) (c : Context) (lo hi : Nat) : State :=
  if hi ≤ lo then s
  else s.orFault p.lnum (s.wipe (deviceWho p.asid) ((s.backingAt c).getD 0 + 2 ^ 20 * lo) (256 * (hi - lo)))

/-- SCRLIM's new limits take effect (R236): blocks move so that the size lies within them, bytes above the upper one are discarded, and the
limits are written. -/
def State.setLimits (s : State) (p : Pipeline) (c : Context) (lo hi : Nat) : State :=
  let id := c.ctxid.toNat
  let s := s.performBegun.mapCtx id (Context.cutScratch · hi)
  let s := s.zeroBacking p c hi c.scrhi.toNat
  (s.growTo p id lo).mapCtx id (fun c => { c with scrlo := BitVec.ofNat 64 lo, scrhi := BitVec.ofNat 64 hi })

/-- One boundary move (R178). -/
def State.moveBlock (s : State) (die id : Nat) (grow : Bool) : State :=
  match s.contexts.find? (fun c => c.ctxid.toNat == id) with
  | none => s
  | some c =>
    match s.pipelineOf c.lnum with
    | none => s
    | some p =>
      if c.array = none ∨ c.die ≠ die then s
      else if grow then
        (if c.scratchSize < c.scrhi.toNat ∧ 0 < (s.freeBlocks die).length then s.growTo p id (c.scratchSize + 1) else s)
      else if c.scrlo.toNat < c.scratchSize then s.shrinkTo p c (c.scratchSize - 1) else s

/-- Boundary moves in one die's SRAM (R178): contexts by CTXID, each at most once. -/
def State.moveBlocks (s : State) (die : Nat) (moves : List (Nat × Bool)) : State :=
  moves.foldl (fun s m => s.moveBlock die m.1 m.2) s.performBegun

def execScratchSample (die : Nat) (moves : List (Nat × Bool)) (s : State) : Result :=
  .next (if (moves.map Prod.fst).Nodup then s.moveBlocks die moves else s)

/-! ### Fused sets (R175) -/

/-- The arrays that an instance's members have on a die, one for each member, in the order of their ranks. -/
def State.fusedArrays (s : State) (lnum stage inst die : Nat) : List Nat :=
  (List.range 16).filterMap (fun r => ((s.onDie die).find? (fun c => c.ofInst lnum stage inst && c.rank == r)).bind (·.array))

/-- The slice of a set that a line lies in. -/
def FusedSet.slice (f : FusedSet) (line : Nat) : Nat := f.arrays.getD (line % f.arrays.length) 0

/-- Whether a line lies in an L1 of a set's arrays, or one that has served any of them. -/
def FusedSet.concerns (f : FusedSet) (l : SwLine) : Bool :=
  match l.cache with
  | .l1 a => f.arrays.contains a || l.serves.any f.arrays.contains
  | .die _ => false
  | .l2 _ _ => false

/-- A copy of a line joins another: its dirty bytes come with it where the other's are clean. -/
def SwLine.join (x y : SwLine) : SwLine :=
  { x.overlay (y.dirty &&& ~~~x.dirty) y.data y.poi with dirty := x.dirty ||| y.dirty, serves := (x.serves ++ y.serves).eraseDups }

/-- What the L1s of a set hold of a line comes together in the slice that the line lies in from now on: its dirty bytes stay, and its clean
ones are stale, since each array has had a copy of its own. -/
def State.fuseLine (s : State) (f : FusedSet) (n : Nat) : State :=
  let ls := s.swLines.filter (fun l => l.line == n && f.concerns l)
  let (mine, rest) := (ls.filter (fun l => l.cache == .l1 (f.slice n)), ls.filter (fun l => l.cache != .l1 (f.slice n)))
  match mine ++ rest with
  | [] => s
  | l :: r =>
    let x := r.foldl SwLine.join l
    let y : SwLine := { x with cache := .l1 (f.slice n), stale := true, serves := (x.serves ++ f.arrays).eraseDups }
    State.putSw { s with swLines := s.swLines.filter (fun l => !(l.line == n && f.concerns l)) } y

/-- A set forms: what its L1s hold of software-managed lines comes together, and the tokens of coherent lines that lie in a wrong slice go
home (R175). -/
def State.fuseSet (s : State) (f : FusedSet) : State :=
  let s := ((s.swLines.filter f.concerns).map (·.line)).eraseDups.foldl (fun s n => s.fuseLine f n) s
  s.lines.foldl (fun s l => (f.arrays.filter (· != f.slice l.line)).foldl (fun s a => s.surrender l.line a none) s) s

/-- The members of an instance that lie on one die fuse their L1s when they are placed. f counts members, so that the L1 of an array that
two of them share is two slices (log entry 34). -/
def State.fuse (s : State) (lnum stage inst : Nat) : State :=
  let sets := (List.range 12).filterMap (fun d =>
    let l := s.fusedArrays lnum stage inst d
    if l.length < 2 then none else some { lnum := lnum, stage := stage, inst := inst, die := d, arrays := l : FusedSet })
  sets.foldl State.fuseSet { s with fusedSets := s.fusedSets.filter (fun f => !(f.lnum == lnum && f.stage == stage && f.inst == inst)) ++ sets }

/-- A set dissolves when its last member leaves the die. -/
def State.dissolve (s : State) : State :=
  { s with fusedSets := s.fusedSets.filter (fun f => (s.onDie f.die).any (fun c => c.ofInst f.lnum f.stage f.inst)) }

end Sys2Proof.Machine
end

