-- ==== Sys2Proof/Machine/Sched.lean ====
section
/-! DEFINITION. Scheduling (R305 to R312), landing, switching, draining and resuming contexts (R324 to R332), and the end of a context
(R87, R102). -/

namespace Sys2Proof.Machine

/-! ### Arrays and their residents (R104) -/

/-- The contexts placed on an array. -/
def State.residents (s : State) (a : Nat) : List Context := s.contexts.filter (fun c => c.array == some a)

/-- Members of the chain of a context, in the order of their ranks. -/
def State.chainOf (s : State) (c : Context) : List Context :=
  (List.range 16).filterMap (fun r => s.contexts.find? (fun m => c.sameChain m && m.rank == r))

/-- Whether nothing but the members of a chain issues on any of the chain's arrays. -/
def State.arraysFree (s : State) (c : Context) : Bool :=
  (s.chainOf c).all (fun m => (m.array.map (fun b => (s.residents b).all (fun x => !x.active || c.sameChain x))).getD true)

/-- A chain's members issue on their arrays. -/
def State.activateChain (s : State) (c : Context) : State :=
  mapCtxs s (fun m => if c.sameChain m && m.array.isSome then { m with active := true } else m)

/-- A resident that waits on an array takes it over, with its whole chain, where nothing else issues on any of the chain's arrays. A
member that has ended keeps its array until its chain is over (R102). -/
def State.activateOn (s : State) (a : Nat) : State :=
  match (s.residents a).find? (fun c => !c.active && (s.chainOf c).any (fun m => !m.gone) && s.arraysFree c) with
  | none => s
  | some c => s.activateChain c

def State.activateAll (s : State) (l : List Nat) : State := l.foldl (fun s a => if (s.residents a).any (·.active) then s else s.activateOn a) s

/-! ### Placement (R89, R99, R105, R178, R305, R352) -/

/-- C_0 to C_3 of a chain on the given arrays (R99). -/
def chainDelays : List Nat → List Nat
  | [] => []
  | [_] => [0]
  | a :: b :: r =>
    let step := if dieOfArray a = dieOfArray b then 17 else 23
    0 :: (chainDelays (b :: r)).map (· + step)

/-- CHAINLAT (R352). -/
def chainlatOf (arrays : List Nat) : Word :=
  let d := chainDelays arrays
  if arrays.length ≤ 1 then 0
  else BitVec.ofNat 64 (d.getLastD 0 + d.getD 1 0 * 2 ^ 8 + d.getD 2 0 * 2 ^ 16 + d.getD 3 0 * 2 ^ 24 + (arrays.length - 1) * 2 ^ 32)

/-- The arrays of the chain that member `rank` belongs to. -/
def chainArrays (chain rank : Nat) (arrays : List Nat) : List Nat := (arrays.drop (rank / chain * chain)).take chain

/-- Whether two memory dies are the same or stand next to each other in the grid (R346). -/
def nearDies (v : Variant) (a b : Nat) : Bool :=
  let w := match v with
    | .ky9480 => 3
    | .ky9460 => 3
    | .ky9440 => 2
  let dx := max (a % w) (b % w) - min (a % w) (b % w)
  let dy := max (a / w) (b / w) - min (a / w) (b / w)
  decide (dx + dy ≤ 1)

/-- Every link of a chain joins arrays of one compute die, or of dies whose memory dies are near (R353). -/
def linksNear (v : Variant) : List Nat → Bool
  | [] => true
  | [_] => true
  | a :: b :: r => (dieOfArray a == dieOfArray b || nearDies v (memDieOf v (dieOfArray a)) (memDieOf v (dieOfArray b))) && linksNear v (b :: r)

/-- Whether an array can take one more context of a stage beside those to be placed on `chosen` (R89, R104, R178). -/
def State.takes (s : State) (g : Stage) (chosen : List Nat) (a : Nat) : Bool :=
  let d := dieOfArray a
  s.hasUnit (.array a) && decide ((s.residents a).length + chosen.count a < 2) &&
    decide (((s.residents a).map (·.foot)).sum + (chosen.count a + 1) * g.foot ≤ 12) &&
    decide (((s.onDie d).map (·.descLo)).sum + ((chosen.filter (fun b => dieOfArray b == d)).length + 1) * g.scrLo ≤ 64)

/-- Arrays that can take contexts of a stage one after another. -/
def State.takesAll (s : State) (g : Stage) : List Nat → Bool
  | [] => true
  | a :: r => s.takes g r a && s.takesAll g r

/-- Every array can take the contexts that are to be placed on it, and every die their partitions; each chain lies on arrays of its own,
linked as R353 wants them. -/
def State.fits (s : State) (g : Stage) (arrays : List Nat) : Bool :=
  s.takesAll g arrays &&
  (List.range (arrays.length / g.chain)).all (fun i =>
    let l := (arrays.drop (i * g.chain)).take g.chain
    decide l.Nodup && linksNear s.variant l)

/-- Whether an array can follow another in a chain (R353). -/
def followsNear (v : Variant) (prev : Option Nat) (a : Nat) : Bool := (prev.map (fun b => linksNear v [b, a])).getD true

/-- The first arrays for `n` members of one chain beside those chosen for others. -/
def State.placeChain (s : State) (g : Stage) (chosen : List Nat) : List Nat → Nat → Option (List Nat)
  | mine, 0 => some mine.reverse
  | mine, n + 1 =>
    (List.range s.variant.arrays).findSome? (fun a =>
      if s.takes g (mine ++ chosen) a && !mine.contains a && followsNear s.variant mine.head? a then s.placeChain g chosen (a :: mine) n else none)

/-- The first arrays for `n` chains of a stage, one after another. -/
def State.placeChains (s : State) (g : Stage) : List Nat → Nat → Option (List Nat)
  | chosen, 0 => some chosen
  | chosen, n + 1 =>
    match s.placeChain g chosen [] g.chain with
    | none => none
    | some l => s.placeChains g (chosen ++ l) n

/-- Arrays for an instance of `n` contexts of a stage, where the search above finds any. -/
def State.freeArrays (s : State) (g : Stage) (n : Nat) : Option (List Nat) := s.placeChains g [] (n / g.chain)

/-- CTXID (R334). -/
def ctxidOf (lnum stage inst rank : Nat) : Word := BitVec.ofNat 64 (lnum * 2 ^ 32 + stage * 2 ^ 28 + inst * 2 ^ 12 + rank * 2 ^ 8)

/-- A context as it starts (R6, R105, R177). -/
def State.newContext (s : State) (p : Pipeline) (g : Stage) (stage inst rank : Nat) (arrays : List Nat) : Context :=
  let b := Context.blank
  let pos := rank % g.chain
  { b with
    status := .running, lnum := p.lnum, stage := stage, inst := inst, rank := rank, brigade := g.ctxs, chainLen := g.chain, foot := g.foot,
    array := arrays[rank]?, fused := g.fuse,
    regs := (((b.regs.set 1 (BitVec.ofNat 64 rank)).set 2 (BitVec.ofNat 64 g.ctxs)).set 3 (BitVec.ofNat 64 g.chain)).set 4 (BitVec.ofNat 64 pos),
    pc := g.entry, level := p.level, tvec := s.mgmt.tvecdef, asid := BitVec.ofNat 64 p.asid, ttbase := BitVec.ofNat 64 p.ttbase,
    ctxid := ctxidOf p.lnum stage inst rank, chainlat := chainlatOf (chainArrays g.chain rank arrays),
    scrlo := BitVec.ofNat 64 g.scrLo, scrhi := BitVec.ofNat 64 g.scrHi, descLo := g.scrLo, descHi := g.scrHi,
    cells := if pos = 0 then List.replicate (256 * g.chain) CellState.zero else [] }

/-- Contexts join the module; one takes the turn where no context has it. -/
def State.addContexts (s : State) (cs : List Context) : State :=
  match s.ctx.status, cs with
  | .absent, c :: r => { s with ctx := c, others := s.others ++ r }
  | _, _ => { s with others := s.others ++ cs }

def Inst.waits (i : Inst) : Bool := i.state == .fresh || i.state == .drained

/-- The drained contexts of an instance, in the order of their ranks: whole chains, those members included that have ended or are
ending (R102, R326). -/
def State.drained (s : State) (lnum stage inst : Nat) : List Context :=
  (List.range 16).filterMap (fun r => s.contexts.find? (fun c => c.ofInst lnum stage inst && c.rank == r && c.saved.isSome &&
    s.contexts.any (fun m => c.sameChain m && m.status == .ready)))

/-- Whether a waiting instance could be placed now. -/
def State.placeable (s : State) (p : Pipeline) (i : Inst) : Bool :=
  i.waits && !p.closing && ((p.stages[i.stage]?).any (fun g =>
    let n := if i.state = .fresh then g.ctxs else (s.drained p.lnum i.stage i.slot).length
    decide (n ≠ 0) && (s.freeArrays g n).isSome))

/-- No other ready instance that could be placed has a higher effective priority, or the same and has been ready for longer (R307). -/
def State.topPriority (s : State) (i : Inst) : Bool :=
  s.pipelines.all (fun p => p.insts.all (fun x =>
    !x.waits || decide (x.prio < i.prio ∨ (x.prio = i.prio ∧ i.since ≤ x.since)) || !s.placeable p x))

/-- The blocks of a partition that starts at `n` MiB. -/
def State.takeBlocks (s : State) (id n : Nat) : State :=
  match s.contexts.find? (fun c => c.ctxid.toNat == id) with
  | none => s
  | some c =>
    let (s, bs) := s.claimBlocks c.die id n
    s.mapCtx id (fun c => { c with blocks := bs })

/-- A partition as its context is launched: SCRLO blocks, and zeros everywhere (R177, R178). -/
def State.startScratch (s : State) (p : Pipeline) (c : Context) : State :=
  let s := s.takeBlocks c.ctxid.toNat c.scrlo.toNat
  s.zeroBacking p c ((((s.contexts.find? (fun m => m.ctxid == c.ctxid)).map (·.scratchSize))).getD 0) c.scrhi.toNat

/-- What an instance is doing, by its contexts: some of them wait in save areas, all are parked, or it runs. One that comes to wait joins the
end of its priority's queue. -/
def State.restate (s : State) (c : Context) : State :=
  let ms := s.contexts.filter (fun m => m.ofInst c.lnum c.stage c.inst)
  let st : InstState := if ms.any (fun m => m.status == .ready && m.saved.isSome) then .drained
    else if ms.all (fun m => m.status == .parked || m.gone) then .parked else .running
  let now := s.free
  s.mapPipe c.lnum (fun p => p.mapInst c.stage c.inst (fun i =>
    { i with state := st, since := if st = .drained ∧ i.state ≠ .drained then now else i.since }))

/-- A ready instance that has never run is bound to arrays (R312). -/
def State.dispatch (s : State) (lnum stage inst : Nat) (arrays : List Nat) : State :=
  match s.pipelineOf lnum with
  | none => s
  | some p =>
    match p.stages[stage]?, p.insts.find? (fun i => i.stage == stage && i.slot == inst && i.state == .fresh) with
    | some g, some i =>
      if p.closing || arrays.length != g.ctxs || !s.fits g arrays || !s.topPriority i then s
      else
        let s := s.performBegun
        let cs := (List.range g.ctxs).map (fun r => s.newContext p g stage inst r arrays)
        let s := s.mapPipe lnum (fun p => { p.mapInst stage inst (fun i => { i with state := .running, prio := p.prio }) with dispatched := true })
        let s := cs.foldl (fun s c => s.startScratch p c) (s.addContexts cs)
        (if g.fuse then s.fuse lnum stage inst else s).activateAll arrays
    | _, _ => s

def execDispatch (lnum stage inst : Nat) (arrays : List Nat) (s : State) : Result := .next (s.dispatch lnum stage inst arrays)

/-- A waiting instance's priority rises (R307). -/
def State.agingInterval (s : State) (lnum stage inst : Nat) : State :=
  s.mapPipe lnum (fun p => p.mapInst stage inst (fun i => if i.waits then { i with prio := min 31 (i.prio + 1) } else i))

def execAgingInterval (lnum stage inst : Nat) (s : State) : Result := .next (s.agingInterval lnum stage inst)

/-- Whether an output has room for an entry. -/
def Pipeline.room (p : Pipeline) (o : Nat) : Bool :=
  if o < 8 then ((p.stages[o]?).map (fun h => decide (h.queue.length < 64 + h.quota))).getD false
  else if o = 0xE then decide (p.results.length < 64) else true

/-- Whether a stage's outputs have room. -/
def Pipeline.open (p : Pipeline) (g : Stage) : Bool := p.room g.out0 && p.room g.out1

/-- Inserts a stage by its rank (R308): those with room before those under back-pressure, then by occupancy. -/
def Pipeline.insertRank (p : Pipeline) (x : Stage × Nat) : List (Stage × Nat) → List (Stage × Nat)
  | [] => [x]
  | y :: r =>
    let key (z : Stage) : Nat × Nat := (if p.open z then 1 else 0, z.queue.length)
    if (key y.1).1 < (key x.1).1 ∨ ((key y.1).1 = (key x.1).1 ∧ (key y.1).2 < (key x.1).2) then x :: y :: r else y :: p.insertRank x r

def Pipeline.ranked (p : Pipeline) : List (Stage × Nat) := p.stages.zipIdx.foldl (fun l x => p.insertRank x l) []

/-- Every stage with work, room in its outputs and fewer than MAXINST instances gets one more, the first in rank first (R308).
Pre-emption for balance is a request of its own. -/
def Pipeline.rebalance (p : Pipeline) (now : Nat) : Pipeline :=
  p.ranked.foldl (fun q x =>
    if !x.1.queue.isEmpty && p.open x.1 && decide ((q.instsOf x.2).length < x.1.maxInst) then q.start x.2 now else q) p

def State.rebalanceInterval (s : State) (lnum : Nat) : State := s.mapPipe lnum (fun p => if p.closing then p else p.rebalance s.free)

def execRebalanceInterval (lnum : Nat) (s : State) : Result := .next (s.rebalanceInterval lnum)

/-! ### Requests, landing and switching (R306, R307, R324, R325) -/

/-- The operations of the bundle at a context's pc, where it can be read. -/
def State.bundleAt (s : State) (c : Context) : List Instr :=
  match s.fetchWord c c.pc with
  | .error _ => []
  | .ok h =>
    match s.fetchWords c (c.pc + 4) ((bundleLen h - 4) / 4) with
    | .error _ => []
    | .ok ws =>
      match decodeBundle h ws with
      | .error _ => []
      | .ok b => b.ops

/-- Whether a running context could issue: it is not held in a wait whose condition is still unmet (R306). -/
def State.couldIssue (s : State) (c : Context) : Bool :=
  c.status == .running && !(c.landPoint && (s.forContext c.ctxid.toNat (fun t =>
    let t := { t with src := t.ctx }
    ((t.bundleAt t.ctx).any (fun i => match i with
      | .tkwait k => checkTkwait k t == .hold
      | .waitq => checkWaitq t == .hold
      | .barw b => checkBarw b t == .hold
      | _ => false), t))).1)

/-- A ready chain that waits on an array of a context's chain, and for which the other arrays that it lies on are free: its member there
(R104, R306). -/
def State.readyRival (s : State) (c : Context) : Option Context :=
  let mine := s.chainOf c
  let off (s : State) : State := mapCtxs s (fun m => if c.sameChain m then { m with active := false } else m)
  (mine.filterMap (·.array)).findSome? (fun a => (s.residents a).find? (fun m =>
    !m.active && !c.sameChain m && (s.chainOf m).any s.couldIssue && (off s).arraysFree m))

/-- Whether a ready instance has a higher effective priority than a context's own (R307). -/
def State.outranked (s : State) (c : Context) : Bool :=
  let mine := ((s.pipelineOf c.lnum).bind (fun p => (p.insts.find? (fun i => i.stage == c.stage && i.slot == c.inst)).map (·.prio))).getD 0
  s.pipelines.any (fun p => !p.closing && p.insts.any (fun i => i.waits && decide (mine < i.prio)))

/-- Whether a context has been asked to leave its array. -/
def Context.leaving (c : Context) : Bool :=
  match c.request with
  | some .drain => true
  | some (.park _ _ _ _) => true
  | some .switch => false
  | none => false

/-- Whether a stage under back-pressure has more than MININST instances running, those not counted that have been asked to leave (R308). -/
def State.mayShed (s : State) (c : Context) : Bool :=
  match s.pipelineOf c.lnum, s.stageOf c with
  | some p, some g => !p.open g && decide (g.minInst < (p.insts.filter (fun i => i.stage == c.stage && i.state == .running &&
      !s.contexts.any (fun m => m.ofInst p.lnum i.stage i.slot && m.leaving))).length)
  | _, _ => false

/-- The scheduler's request: a drain, for an instance of a higher priority or because the stage is under back-pressure, so that neither
waits for ever behind residents that are always ready (R309); else a switch where another resident is ready. -/
def State.preemptionRequest (s : State) (id : Nat) : State :=
  match s.contextOf id with
  | none => s
  | some c =>
    if c.status ≠ .running ∨ c.active = false ∨ c.request ≠ none then s
    else if s.outranked c || s.mayShed c then s.requestChain c .drain
    else if (s.readyRival c).isSome then s.requestChain c .switch
    else s

def execPreemptionRequest (id : Nat) (s : State) : Result := .next (s.preemptionRequest id)

/-- A request is pending at a context that stands at a landing point, with no trap due before it. One that the array's other resident has
displaced stands at one. -/
def Context.awaitsLanding (c : Context) : Bool :=
  c.request.isSome && c.trapDue.isNone && (if c.active then c.landPoint && c.dsc == 0 && c.rep == 0 else c.request != some .switch)

/-- The pending request lands at a landing point (R324). -/
def State.landing (s : State) : State :=
  if s.ctx.status = .running ∧ s.ctx.awaitsLanding = true then
    s.settleHalf.setCtx s.settleHalf.ctx.land
  else s

def execLanding (s : State) : Result := .next s.landing

/-- Every member of the chain has landed, or has stopped issuing. -/
def State.chainLanded (s : State) (c : Context) : Bool := (s.chainOf c).all (fun m => m.status == .landed || m.endReason.isSome)

/-- A landed chain goes on with what it did. -/
def State.unland (s : State) (c : Context) (active : Bool) : State :=
  mapCtxs s (fun m => if c.sameChain m then
    { m with status := if m.status = .landed then .running else m.status, active := active && m.array.isSome, request := none, yielded := false } else m)

/-- A chain that has landed for a switch makes room for a ready one on its array, which takes over all its own arrays; other residents take
what is left (R104, R325). Where none is ready any more, the chain goes on. -/
def State.contextSwitch (s : State) : State :=
  let c := s.ctx
  if c.status ≠ .landed ∨ c.request ≠ some .switch ∨ s.chainLanded c = false then s
  else
    match s.readyRival c with
    | none => s.unland c true
    | some m => ((s.unland c false).activateChain m).activateAll ((s.chainOf c).filterMap (·.array))

def execContextSwitch (s : State) : Result := .next s.contextSwitch

/-! ### Draining (R326, R327, R232) -/

/-- Commands that a drain waits for. -/
def waitedOp : Instr → Bool
  | .csqz _ => true
  | .cxpd _ => true
  | .rfence _ => true
  | .pgreq _ => true
  | .scrlim _ => true
  | .launch _ => true
  | .cancel _ => true
  | .abort _ => true
  | .ctxsave _ => true
  | .ctxload _ => true
  | .flushall _ => true
  | .sbind _ => true
  | .sfree _ => true
  | _ => false

/-- Every dirty byte on a context's path merges at its home (R232). -/
def State.flushPath (s : State) (c : Context) : State :=
  let ls := (s.swLines.filter (fun l => (s.pathOf c (128 * l.line)).contains l.cache)).map (fun l => (l.cache, l.line))
  let s := ls.foldl (fun s k => s.sendBack (some c.ctxid.toNat) k) s
  s.mergeWhere (s.sentFor c)

/-- Lines on a context's new path become stale (R232). -/
def State.stalePath (s : State) (c : Context) : State :=
  { s with swLines := s.swLines.map (fun l => if (s.pathOf c (128 * l.line)).contains l.cache then { l with stale := true } else l) }

def Context.completeAll (c : Context) : Nat → Context
  | 0 => c
  | n + 1 => (c.ticketComplete n).completeAll n

/-- What a drain does to the context on turn before its state is written: written stream elements are stored, commands stop at a boundary
of transfer tiles, those that have their outcome complete, and write-backs merge (R326, R327). -/
def State.settleContext (s : State) : State :=
  let s := s.settleHalf
  let s := (List.range 15).foldl (fun s q => s.storeAhead (Fin.ofNat 16 q) s.ctx.streams[Fin.ofNat 16 q].buf.length) s
  let s := (List.range s.ctx.cmds.length).foldl (fun s n => (s.flushCmd n).stopCmd n) s
  let s := s.setCtx ((s.ctx.completeAll s.ctx.cmds.length).runAway)
  s.flushPath s.ctx

/-- The area that CTXSAVE has asked a chain's leader to be saved in, if it has. -/
def parkArea (ms : List Context) : Option Nat :=
  ms.findSome? (fun m => match m.request with
    | some (.park area _ _ _) => some area
    | some .drain => none
    | some .switch => none
    | none => none)

/-- The address space of that area. -/
def parkAsid (ms : List Context) : Option Nat :=
  ms.findSome? (fun m => match m.request with
    | some (.park _ asid _ _) => some asid
    | some .drain => none
    | some .switch => none
    | none => none)

/-- The commands of CTXSAVE that wait for a chain's drain. -/
def parkOwners (ms : List Context) : List (Nat × Nat) :=
  ms.filterMap (fun m => match m.request with
    | some (.park _ _ owner seq) => some (owner, seq)
    | some .drain => none
    | some .switch => none
    | none => none)

/-- The cells of one member of a chain: its leader holds them all. -/
def State.cellsOf (s : State) (c : Context) : List CellState :=
  match (s.chainOf c).head? with
  | none => []
  | some l => (l.cells.drop (256 * (c.rank % c.chainLen))).take 256

/-- What a context is once its state lies in an area. One that has stopped issuing stays so. -/
def Context.awayAt (c : Context) (area asid : Nat) (park : Bool) : Context :=
  { c with status := if c.status = .landed then (if park then .parked else .ready) else c.status, saved := some area, savedAsid := asid,
           lastArray := c.array, array := none, active := false, request := none, yielded := false, scratch := [], scratchPoi := [], blocks := [] }

/-- `settleContext` for a member of a chain. -/
def State.settleMember (s : State) (id : Nat) : State := (s.forContext id (fun s => ((), s.settleContext))).2

/-- The area of a member: its own slot, or its part of the area that CTXSAVE has given. -/
def State.areaFor (s : State) (p : Pipeline) (park : Option Nat) (c : Context) : Nat :=
  (park.map (· + c.rank % c.chainLen * s.areaLen c)).getD (p.areaOf c.stage c.inst c.rank)

/-- A member is written to its area, which lies in address space `asid`, and leaves its array. Where a write fails, its address is given. -/
def State.saveMember (s : State) (p : Pipeline) (g : Stage) (park : Option Nat) (asid id : Nat) : State × Option Nat :=
  match s.contexts.find? (fun c => c.ctxid.toNat == id) with
  | none => (s, none)
  | some c =>
    match s.saveContext (deviceWho asid) (s.areaFor p park c) (deviceWho p.asid) (p.areaOf c.stage c.inst c.rank) g c (s.cellsOf c) with
    | .error a => (s, some a)
    | .ok t => (t.mapCtx id (Context.awayAt · (s.areaFor p park c) asid park.isSome), none)

/-- The members of a chain are saved one after another; where one fails, the rest stay. -/
def State.saveMembers (s : State) (p : Pipeline) (g : Stage) (park : Option Nat) (asid : Nat) : List Context → State × Option Nat
  | [] => (s, none)
  | m :: r =>
    let x := (s.settleMember m.ctxid.toNat).saveMember p g park asid m.ctxid.toNat
    if x.2.isSome then x else x.1.saveMembers p g park asid r

/-- Whether the device reaches the pipeline's own slots of some members (R304). -/
def State.slotsReached (s : State) (p : Pipeline) (ms : List Context) : Bool :=
  ms.all (fun m => (s.deviceRange p.asid (p.areaOf m.stage m.inst m.rank) (s.areaLen m) .load).isNone)

/-- CTXSAVE cannot write its area: its command ends, and the chain goes on with no state changed (R338). -/
def State.failPark (s : State) (c : Context) (ms : List Context) (va : Nat) : State :=
  ((parkOwners ms).foldl (fun s o => s.endCmd o.1 o.2 (vaFailure va)) s).unland c true

/-- The landed chain of the context on turn is drained, members that have stopped issuing with it (R102, R326). -/
def State.drain (s : State) : State :=
  let c := s.ctx
  let ms := s.chainOf c
  if c.status ≠ .landed ∨ c.request = some .switch ∨ s.chainLanded c = false ∨ ms.any (fun m => m.inFlight.any (fun k => waitedOp k.op)) = true then s
  else
    match s.pipelineOf c.lnum, s.stageOf c with
    | some p, some g =>
      let park := parkArea ms
      let old := s
      match s.performBegun.saveMembers p g park ((parkAsid ms).getD p.asid) ms with
      | (s, some a) => if park.isSome && old.slotsReached p ms then old.failPark c ms a else s.deviceFault p.lnum a
      | (s, none) =>
        let s := mapCtxs s (fun m => if c.sameChain m then { m with cells := [] } else m)
        let s := (s.restate c).mapPipe p.lnum (fun p => p.mapInst c.stage c.inst (fun i => { i with prio := p.prio }))
        let s := ((parkOwners ms).take 1).foldl (fun s o => s.endCmd o.1 o.2 (0, 0)) s
        s.dissolve.activateAll (ms.filterMap (·.array))
    | _, _ => s

def execDrain (s : State) : Result := .next s.drain

/-! ### Resumption (R331) -/

/-- A member's image, or the address where reading it fails. -/
def State.imageOf (s : State) (c : Context) : Except Nat Image :=
  s.readImage (deviceWho c.savedAsid) (c.saved.getD 0) (s.areaLen c)

def mapLeft {α : Type} (l : List (Except Nat α)) : Except Nat (List α) :=
  match l with
  | [] => .ok []
  | .error a :: _ => .error a
  | .ok x :: r =>
    match mapLeft r with
    | .error a => .error a
    | .ok xs => .ok (x :: xs)

/-- A member as its image gives it, on its array. One that has stopped issuing stays so. -/
def Context.resumed (c : Context) (im : Image) (foot a : Nat) (arrays : List Nat) : Context :=
  { (c.load im foot).1 with status := if c.status = .ready then .running else c.status, array := some a, active := false, saved := none,
                            chainlat := chainlatOf arrays, cells := [] }

/-- Puts a loaded member in place: its cells go to its chain's leader, and its partition takes SCRLO blocks. -/
def State.placeMember (s : State) (c c' : Context) (struck : Bool) (cells : List CellState) : State :=
  let s := s.mapCtx c.ctxid.toNat (fun _ => if struck && c'.live then c'.stopFor .aborted else c')
  let s := mapCtxs s (fun m => if c.sameChain m && m.rank % m.chainLen == 0 then { m with cells := m.cells ++ cells } else m)
  s.takeBlocks c.ctxid.toNat c'.scrlo.toNat

/-- A member is read from its area. -/
def State.loadMember (s : State) (g : Stage) (c : Context) (im : Image) (a : Nat) (arrays : List Nat) : State :=
  (s.touchArea (deviceWho c.savedAsid) (c.saved.getD 0) (backingBase g.foot + 2 ^ 20 * (c.resumed im g.foot a arrays).scrlo.toNat)).placeMember c
    (c.resumed im g.foot a arrays) im.seqStruck (c.load im g.foot).2

/-- A member is loaded, and its area's header says so. -/
def State.resumeMember (s : State) (p : Pipeline) (g : Stage) (c : Context) (im : Image) (a : Nat) (arrays : List Nat) : State :=
  (s.loadMember g c im a arrays).orFault p.lnum
    (match (s.loadMember g c im a arrays).engineWrite (deviceWho c.savedAsid) (c.saved.getD 0 + 7) [(2, false)] with
    | .error (_, a) => .error a
    | .ok s => .ok s)

/-- The saved contexts of an instance are loaded onto arrays and run on. The lines on the path of one that has moved become stale once all
have their arrays. -/
def State.resumption (s : State) (lnum stage inst : Nat) (arrays : List Nat) : State :=
  let cs := s.drained lnum stage inst
  match s.pipelineOf lnum with
  | none => s
  | some p =>
    match p.stages[stage]?, p.insts.find? (fun i => i.stage == stage && i.slot == inst) with
    | some g, some i =>
      if p.closing || cs.isEmpty || arrays.length != cs.length || !s.fits g arrays || !s.topPriority i then s
      else
        let s := s.performBegun
        match mapLeft (cs.map s.imageOf) with
        | .error a => s.deviceFault lnum a
        | .ok ims =>
          let s := ((cs.zip ims).zip arrays).zipIdx.foldl (fun s x =>
            s.resumeMember p g x.1.1.1 x.1.1.2 x.1.2 (chainArrays g.chain x.2 arrays)) s
          let s := if g.fuse then s.fuse lnum stage inst else s
          let moved := (cs.zip arrays).filter (fun x => x.1.lastArray != some x.2)
          let s := (s.contexts.filter (fun c => moved.any (fun x => x.1.ctxid == c.ctxid))).foldl State.stalePath s
          (s.mapPipe lnum (fun p => p.mapInst stage inst (fun i => { i with state := .running, prio := p.prio }))).spreadEnds.activateAll arrays
    | _, _ => s

def execResumption (lnum stage inst : Nat) (arrays : List Nat) (s : State) : Result := .next (s.resumption lnum stage inst arrays)

/-! ### The watchdog (R311) -/

def State.wdogCycles (s : State) (c : Context) : Nat := ((s.pipelineOf c.lnum).map (·.wdog)).getD 0 * Config.cyclesPerMicro

def State.watchdogExpiry (s : State) : State :=
  if s.ctx.status = .running ∧ (s.pipelineOf s.ctx.lnum).isSome = true ∧ s.wdogCycles s.ctx ≤ s.ctx.timer then
    (s.setCtx (s.ctx.terminate .watchdog)).spreadEnds
  else s

def execWatchdogExpiry (s : State) : Result := .next s.watchdogExpiry

/-! ### The end of a context (R87, R102) -/

/-- Whether an in-hatch or drain command can move an element now. -/
def Context.canServe (c : Context) (n : Nat) (k : EngCmd) : Bool :=
  c.serves n k && (List.range 16).any (fun l => k.wants l &&
    (if inHatchOp k.op then decide ((c.lane k.hatchIx l).length < 32) else !(c.lane k.hatchIx l).isEmpty))

/-- Whether the hatch command `n` of an ending context waits for elements that nothing gives or takes any more. -/
def Context.stranded (c : Context) (n : Nat) (k : EngCmd) : Bool :=
  hatchOp k.op && (k.started || k.outcome.isSome) && !k.served && !c.canServe n k

/-- The commands that wait for ever end where they stand. -/
def Context.endStranded (c : Context) : Context :=
  match c.cmds.zipIdx.find? (fun x => c.stranded x.2 x.1) with
  | none => c
  | some (k, n) =>
    let k' := k.finish
    let c' := { c with cmds := c.cmds.eraseIdx n }
    if k.closed then c' else c'.completeTicket k' (k'.outcome.getD (0, 0))

/-- Every stream is freed: what was written is stored up to the first fault (R87). -/
def State.freeStreams (s : State) : State :=
  (List.range 15).foldl (fun s q => s.unbind (Fin.ofNat 16 q)) s

/-- Every bound slot is released (R87). -/
def State.releaseSlots (s : State) : State :=
  (List.range 4).foldl (fun s i =>
    match s.ctx.groups[Fin.ofNat 4 i].boundKey with
    | none => s
    | some _ => s.releaseBound s.ctx.ctxid.toNat i) s

/-- The pipeline records how a context ended (R302). -/
def Pipeline.endedWith (p : Pipeline) (r : EndReason) : Pipeline :=
  { p with status := max p.status r.status,
           exitOr := p.exitOr ||| r.value.getD 0,
           nzcnt := if r.value.getD 0 = 0 then p.nzcnt else p.nzcnt + 1 }

/-- A chain that has ended leaves its arrays (R102). -/
def State.freeChain (s : State) (c : Context) : State :=
  let ms := s.chainOf c
  if ms.all (fun m => m.gone) then
    let arrays := ms.filterMap (·.array)
    (mapCtxs s (fun m => if c.sameChain m then { m with array := none, active := false, cells := [], blocks := [] } else m)).dissolve.activateAll arrays
  else s

/-- An instance whose contexts have all ended is over. -/
def State.freeInstance (s : State) (c : Context) : State :=
  let mine (m : Context) : Bool := m.ofInst c.lnum c.stage c.inst
  if (s.contexts.filter mine).all (fun m => m.gone) then
    let s := s.mapPipe c.lnum (fun p => p.mapInst c.stage c.inst (fun i => { i with state := .ended }))
    { s with others := s.others.filter (fun m => !mine m), ctx := if mine s.ctx then Context.blank else s.ctx }
  else s

/-- Steps 5 and 6 of R87, and the end, once no queue operation and no command is left. -/
def State.finishEnding (s : State) : State :=
  match s.ctx.status with
  | .ending r =>
    if s.ctx.qops ≠ [] ∨ s.ctx.cmds ≠ [] then s
    else
      let s := s.freeStreams.releaseSlots
      let c := { s.ctx with status := .ended r }
      let s := (s.setCtx c).mapPipe c.lnum (fun p => p.endedWith r)
      (s.spreadEnds.freeChain c).freeInstance c
  | .absent => s
  | .ready => s
  | .running => s
  | .halted => s
  | .landed => s
  | .parked => s
  | .ended _ => s

end Sys2Proof.Machine
end

