-- ==== Sys2Proof/Machine/System.lean ====
section
/-! DEFINITION. The instructions that act on the machine as a whole (R233 to R236, R335, R338, R339, R400) and the start of SBIND, SFREE and
TKJOIN (R240, R242, R245). -/

namespace Sys2Proof.Machine

/-! ### TLBI (R335) -/

/-- A malformed entry latches as invalid, and is logged (R349). -/
def latchRegs (v : Variant) (x : XlatRegs) : XlatRegs :=
  { x with rgn := x.rgn.map (fun w => if regionMalformed v w then w &&& ~~~(BitVec.ofNat 128 (2 ^ 117)) else w) }

/-- Latches the translation registers and the region table (R211, R349). -/
def State.latchAll (s : State) : State :=
  let bad := (List.range 64).filter (fun i =>
    regionValid (s.mgmt.regs.rgn.toList.getD i 0) && regionMalformed s.variant (s.mgmt.regs.rgn.toList.getD i 0))
  { s with mgmt.latched := latchRegs s.variant s.mgmt.regs, mgmt.errlog := lastEntries (s.mgmt.errlog ++ bad.map LogEntry.badRegion), tlb := [] }

/-- The translations that a TLBI removes. -/
def State.tlbiPage (s : State) (va asid : Nat) : State :=
  { s with tlb := s.tlb.filter (fun t => !(t.asid == asid && va / 2 ^ pageShift t.size * 2 ^ (pageShift t.size - 16) == t.vpn)) }

def State.tlbiAsid (s : State) (asid : Nat) : State := { s with tlb := s.tlb.filter (fun t => t.asid != asid) }

/-- Which of A and B an extent reads. -/
def tlbiSrcs (a b : Opnd) (ext : BitVec 2) : List Opnd := if ext = 0 then [a, b] else if ext = 1 then [b] else []

def checkTlbi (a b : Opnd) (ext : BitVec 2) (cl : Claims) (s : State) : Verdict :=
  (privilegeTrap .supervisor s.src.level 0).andThen
    ((checkSrcs (tlbiSrcs a b ext) cl s).andThen
      (if ext = 0 then
        withPeek s cl a (fun x => withPeek s (cl.read a) b (fun y =>
          (trapIf (2 ^ 11 ≤ y.toNat) 0x02 (slotInfo 0)).andThen (trapIf (2 ^ 56 ≤ x.toNat) 0x09 x)))
      else if ext = 1 then withPeek s cl b (fun y => trapIf (2 ^ 11 ≤ y.toNat) 0x02 (slotInfo 0))
      else .go))

/-- TLBI completes within its issue, so the next bundle is never held for it: every access that has been begun is performed first, and then
the translations go (R335). -/
def execTlbi (a b : Opnd) (ext : BitVec 2) (s : State) : Result :=
  gated (checkTlbi a b ext .none s) (fun s =>
    if ext = 0 then
      let (x, s) := s.take a
      let (y, s) := s.take b
      if bwin ≤ x.toNat then s else s.performBegun.tlbiPage x.toNat y.toNat
    else if ext = 1 then
      let (y, s) := s.take b
      s.performBegun.tlbiAsid y.toNat
    else s.performBegun.latchAll) s

/-! ### Physical accesses of the device -/

def State.physPlaces (s : State) (pa : Nat) : Nat → Option (List Place)
  | 0 => some []
  | n + 1 =>
    match s.place pa, s.physPlaces (pa + 1) n with
    | some p, some r => some (p :: r)
    | _, _ => none

/-- Bytes that the device reads at physical addresses; the home gathers what is not there first. -/
def State.physRead (s : State) (pa n : Nat) : Option (List (Byte × Bool)) :=
  (s.physPlaces pa n).map (fun ps => ps.map (fun p => s.homeByte p.key))

/-- What such a read does besides: it may synchronise with a write of the host (R203, R301). -/
def State.physTouch (s : State) (pa n : Nat) : State :=
  let ps := (s.physPlaces pa n).getD []
  (ps.foldl State.gatherHome s).synchronise (ps.map Loc.mem)

/-- A byte that the device writes at its home (R217). -/
def State.physPut (s : State) (p : Place) (b : Byte) (poison : Bool) : State := s.enginePut (deviceWho 0) b poison (.mem p)

def State.physWrite (s : State) (pa : Nat) (bs : List (Byte × Bool)) : Option State :=
  (s.physPlaces pa bs.length).map (fun ps => (ps.zip bs).foldl (fun s x => s.physPut x.1 x.2.1 x.2.2) s)

/-- A write to host memory only, which the host may not accept (R400). -/
def State.hostWrite (s : State) (pa : Nat) (bs : List (Byte × Bool)) : Option State :=
  match s.physPlaces pa bs.length with
  | none => none
  | some ps => if ps.all (fun p => p.cls == .host) && !Config.hostRefuses (s.free * 2 ^ 56 + pa) then s.physWrite pa bs else none

/-! ### SBIND, SFREE, TKJOIN -/

/-- A stream descriptor as R242 wants it. -/
def descriptorOk (d : Nat) : Bool :=
  fld d 453 59 == 0 && decide (fld d 451 2 < 2) && (List.range 4).all (fun i => fld d (320 + 32 * i) 32 != 0) && fld d 56 8 == 0 &&
    !(fld d 451 1 == 1 && (fld d 450 1 == 1 || decide (fld d 448 2 < 2)))

def Stream.ofDescriptor (q : Stream) (d : Nat) : Stream :=
  { q with bind := .bound, delta := fld d 451 1 == 1, write := fld d 450 1 == 1, size := BitVec.ofNat 2 (d / 2 ^ 448),
           cnt := Vector.ofFn (fun i : Fin 4 => BitVec.ofNat 32 (d / 2 ^ (320 + 32 * i.val))),
           str := Vector.ofFn (fun i : Fin 4 => BitVec.ofNat 64 (d / 2 ^ (64 + 64 * i.val))), base := BitVec.ofNat 64 d }

/-- The descriptor is read and the stream bound, or left unbound. -/
def Job.startSbind (j : Job) : Job :=
  let n := streamOf j.c.e
  let q := j.s.ctx.streams[n]
  let mine := q.bind == .binding && q.binder == j.c.seq
  let put (s : State) (x : Stream) : State := if mine then s.setStream n x else s
  match j.readBlock 0 with
  | .error f => ({ j with s := put j.s Stream.free } : Job).done f
  | .ok d =>
    if descriptorOk d.toNat then ({ j with s := put j.s (q.ofDescriptor d.toNat) } : Job).done (0, 0)
    else ({ j with s := put j.s Stream.free } : Job).done (1, 0)

/-- Statuses of consumed tickets. -/
def EngCmd.consumed (k : EngCmd) : List (BitVec 4 × BitVec 32) := k.deps.filterMap (·.kept)

def Job.startTkjoin (j : Job) : Job := { j with c := { j.c with outcome := some (joinOutcome j.c.consumed) } }

/-! ### RFENCE, PGREQ, SCRLIM -/

/-- Every compute die drops its copies of the records of the context's address space (R233). -/
def Job.startRfence (j : Job) : Job :=
  ({ j with s := { j.s with recCache := j.s.recCache.filter (fun r => r.asid != j.c.asid) } } : Job).done (0, 0)

/-- The 32-byte record of R225. -/
def pageRecord (va asid kinds ctxid : Nat) : List Byte :=
  leBytes 8 (va / 65536 * 65536) ++ leBytes 2 (asid % 2 ^ 11 + kinds % 8 * 2 ^ 12) ++ leBytes 6 0 ++ leBytes 8 ctxid ++ leBytes 8 0

/-- PGREQ appends to the page-request ring (R234, R400). -/
def Job.startPgreq (j : Job) : Job :=
  let va := j.c.pNat 0
  let m := j.s.mgmt
  let logn := fld m.prqcfg.toNat 0 4
  if fld m.prqcfg.toNat 4 1 = 0 then j.done (4, 32)
  else if 2 ^ 56 ≤ va ∨ bwin ≤ va then j.done (vaFailure va)
  else if (m.prqTail - m.prqhead.setWidth 32).toNat = 2 ^ logn then j.done (4, 32)
  else
    let a := m.prqbase.toNat + 32 * (m.prqTail.toNat % 2 ^ logn)
    match j.s.hostWrite a (cleanBytes (pageRecord va j.c.asid (j.c.e.efn.toNat % 8) j.s.ctx.ctxid.toNat)) with
    | none => ({ j with s := j.s.log (.pageRing a) } : Job).done (3, 0)
    | some s =>
      match s.hostWrite m.prqtaila.toNat (cleanBytes (leBytes 4 (m.prqTail + 1).toNat)) with
      | none => ({ j with s := s.log (.pageRing m.prqtaila.toNat) } : Job).done (3, 0)
      | some s =>
        let s : State := { s with mgmt.prqTail := m.prqTail + 1 }
        ({ j with s := s.msix 1 } : Job).done (0, 0)

/-- SCRLIM (R235, R236). The detail of a refusal is not stated (log entry 21). -/
def Job.startScrlim (j : Job) : Job :=
  let lo := j.c.pNat 0
  let hi := j.c.pNat 1
  let c := j.s.ctx
  if lo ≤ hi ∧ hi ≤ c.descHi ∧ lo ≤ c.descLo then
    match j.s.pipelineOf c.lnum with
    | none => j.done (0, 0)
    | some p => ({ j with s := j.s.setLimits p c lo hi } : Job).done (0, 0)
  else j.done (3, freeDetail j.s.free)

/-! ### FLUSHALL (R339) -/

/-- A line that is dirty at its home or at a holder is written through to HBM4, where the bitmap records it (R217). -/
def State.flushLine (s : State) (l : Line) : State :=
  if l.homeDirty || l.holders.any (·.dirty) then
    (s.writeBlock l.line l.key).setLine { l with tag := l.tag.map (fun t => { t with dirty := false }), holders := l.holders.map (fun h => { h with dirty := false }) }
  else s

/-- Dirty data that travels with a message is written through too. -/
def State.flushMsg (s : State) (m : TokMsg) : State :=
  if m.dirty then ((s.lineAt m.line).map (fun l => s.writeBlock l.line l.key)).getD s else s

def TokMsg.cleaned (m : TokMsg) : TokMsg := { m with dirty := false }

def State.flushAll (s : State) : State :=
  let ls := (s.swLines.filter (fun l => l.dirty != 0)).map (fun l => (l.cache, l.line))
  let s := (ls.foldl (fun s k => s.sendBack none k) s).mergeWhere (fun _ => true)
  let s := s.msgs.foldl State.flushMsg s
  let s : State := { s with msgs := s.msgs.map TokMsg.cleaned }
  s.lines.foldl State.flushLine s

def Job.startFlushall (j : Job) : Job := ({ j with s := j.s.flushAll } : Job).done (0, 0)

/-! ### CTXSAVE and CTXLOAD (R338) -/

/-- The context that P names, in the issuer's address space. -/
def Job.saveTarget (j : Job) (id : Nat) : Option Context :=
  match j.s.contextOf id with
  | none => none
  | some c => if c.live && c.asid.toNat == j.c.asid then some c else none

/-- An image is copied to another area, which may lie in another address space. -/
def State.copyArea (s : State) (from_ src to_ dst len : Nat) : Except Nat State :=
  match s.readImage (deviceWho from_) src len with
  | .error a => .error a
  | .ok im =>
    (s.touchArea (deviceWho from_) src len).writeImage (deviceWho to_) dst len (im.pieces 0)

/-- The images of saved contexts are copied to areas in address space `asid`. -/
def State.copyAreas (s : State) (asid : Nat) : List (Context × Nat × Nat) → Except Nat State
  | [] => .ok s
  | (m, dst, len) :: r =>
    match s.copyArea m.savedAsid (m.saved.getD 0) asid dst len with
    | .error a => .error a
    | .ok s => s.copyAreas asid r

/-- Whether a whole chain lies in save areas. -/
def chainAway (ms : List Context) : Bool := ms.all (fun m => m.array.isNone && m.saved.isSome)

/-- The images of a chain that is drained or parked are copied to an area of CTXSAVE's, and the chain is parked. -/
def Job.copyParked (j : Job) (c : Context) (ms : List Context) (area z : Nat) : Job :=
  match j.s.performBegun.copyAreas j.c.asid (ms.map (fun m => (m, area + m.rank % m.chainLen * z, z))) with
  | .error a => j.done (vaFailure a)
  | .ok s =>
    if ms.any (fun m => m.status == .parked) then ({ j with s := s } : Job).done (0, 0)
    else
      let s := mapCtxs s (fun m => if c.sameChain m then
        { m with status := if m.status = .ready then .parked else m.status, saved := some (area + m.rank % m.chainLen * z), savedAsid := j.c.asid }
        else m)
      ({ j with s := s.restate c } : Job).done (0, 0)

/-- CTXSAVE: the target's chain is asked to drain and park. One that is drained or parked already is copied. -/
def Job.startCtxsave (j : Job) : Job :=
  let area := j.c.pNat 1
  if area % 4096 ≠ 0 then j.done (1, 1)
  else
    match j.saveTarget (j.c.pNat 0) with
    | none => j.done (3, 0)
    | some c =>
      if c.sameChain j.s.ctx then j.done (1, 1)
      else
        let ms := j.s.chainOf c
        let z := j.s.areaLen c
        match (if area + c.chainLen * z ≤ 2 ^ 56 then j.s.rangeFault (deviceWho j.c.asid) area (c.chainLen * z) .store (c.chainLen * z / 65536 + 2)
            else some (max area (2 ^ 56))) with
        | some a => j.done (vaFailure a)
        | none =>
          if chainAway ms then j.copyParked c ms area z
          else { s := j.s.requestChain c (.park area j.c.asid j.s.ctx.ctxid.toNat j.c.seq), c := { j.c with started := true } }

/-- CTXSAVE waits: a target that has ended is no live context any more; one whose chain another request has drained is copied; and the
request is sent again where none to park the chain is pending. -/
def Job.awaitPark (j : Job) : Job :=
  match j.saveTarget (j.c.pNat 0) with
  | none => j.done (3, 0)
  | some c =>
    let ms := j.s.chainOf c
    if chainAway ms then j.copyParked c ms (j.c.pNat 1) (j.s.areaLen c)
    else if (parkArea ms).isSome then j
    else { j with s := j.s.requestChain c (.park (j.c.pNat 1) j.c.asid j.s.ctx.ctxid.toNat j.c.seq) }

/-- Images are written, each to an area of its length in a pipeline's own space. -/
def State.putImages (s : State) (p : Pipeline) : List (Image × Nat × Nat) → Except Nat State
  | [] => .ok s
  | (im, dst, len) :: r =>
    match s.writeImage (deviceWho p.asid) dst len (im.pieces 0) with
    | .error a => .error a
    | .ok s => s.putImages p r

/-- A header that CTXLOAD accepts. -/
def headerFits (g : Stage) (m : Context) (im : Image) : Bool :=
  im.num 0 4 == 1 && im.num 7 1 == 1 && im.num 4 1 == g.foot && im.num 5 1 == g.scrHi &&
    im.num 6 1 == m.rank % m.chainLen + 4 * (m.chainLen - 1)

/-- CTXLOAD: the areas are loaded into the parked chain's own slots, and the chain is ready. -/
def Job.startCtxload (j : Job) : Job :=
  let area := j.c.pNat 0
  match j.saveTarget (j.c.pNat 1) with
  | none => j.done (3, 0)
  | some c =>
    let ms := j.s.chainOf c
    let z := j.s.areaLen c
    if ms.any (fun m => m.status != .parked && m.endReason.isNone) then j.done (1, 1)
    else
      match j.s.pipelineOf c.lnum, j.s.stageOf c, mapLeft (ms.map (fun m => j.s.readImage (deviceWho j.c.asid) (area + m.rank % m.chainLen * z) z)) with
      | some p, some g, .ok ims =>
        if (ms.zip ims).all (fun x => headerFits g x.1 x.2) then
          let slot (m : Context) : Nat := p.areaOf m.stage m.inst m.rank
          let s := ms.foldl (fun s m => s.touchArea (deviceWho j.c.asid) (area + m.rank % m.chainLen * z) z) j.s.performBegun
          match s.putImages p (ims.zip (ms.map (fun m => (slot m, z)))) with
          | .error a => ({ j with s := s.deviceFault p.lnum a } : Job).done (vaFailure a)
          | .ok s =>
            let s := mapCtxs s (fun m => if c.sameChain m then
              { m with status := if m.status = .parked then .ready else m.status, saved := some (slot m), savedAsid := p.asid } else m)
            ({ j with s := s.restate c } : Job).done (0, 0)
        else j.done (1, 0)
      | _, _, .error a => j.done (vaFailure a)
      | _, _, .ok _ => j.done (3, 0)

/-- The check of a privileged command: a supervisor opcode traps at user level (R29, R40). -/
def checkPrivCmd (srcs : List Opnd) (e : Cmd) (cl : Claims) (s : State) : Verdict :=
  (privilegeTrap .supervisor s.src.level 2).andThen (checkCmd srcs e cl s)

/-- Issue of a privileged command, which reads `srcs`. -/
def issuePriv (i : Instr) (e : Cmd) (srcs : List Opnd) (s : State) : Result :=
  gated (checkPrivCmd srcs e .none s) (fun s =>
    let (ws, s) := s.beforeCmd.takeAll srcs
    s.launchCmd (EngCmd.fresh i e s.ctx s.src (fourWords ws) [])) s

def execCtxsave (e : Cmd) (s : State) : Result := issuePriv (.ctxsave e) e [e.p0, e.p1] s
def execCtxload (e : Cmd) (s : State) : Result := issuePriv (.ctxload e) e [e.p0, e.p1] s
def execFlushall (e : Cmd) (s : State) : Result := issuePriv (.flushall e) e [] s

end Sys2Proof.Machine
end

