-- ==== Sys2Proof/Machine/Coherence.lean ====
section
/-! DEFINITION. Token coherence (R354 to R369), write-backs of software-managed lines (R188), and the host's answers to
back-invalidates (R363). Data is stored once: every valid copy of a coherent line equals the latest write (R357). -/

namespace Sys2Proof.Machine

/-! ### Persistent requests (R361 to R364) -/

/-- An agent number that the part has (R361). -/
def agentOk (v : Variant) (a : Nat) : Bool :=
  decide (a < v.arrays) || (decide (72 ≤ a) && decide (a < 72 + v.computeDies)) || (decide (84 ≤ a) && decide (a < 84 + 32 * v.memDies)) ||
    (decide (276 ≤ a) && decide (a < 276 + v.memDies)) || a == hostAgent

/-- Persistent-request message `n` arrives, where it is of the kind asked for. -/
def State.persistentEvent (s : State) (act : Bool) (n : Nat) : State :=
  if (s.pmsgs[n]?).any (·.act == act) then s.persistentArrive n else s

def execPact (agent line n : Nat) (s : State) : Result :=
  .next (if (s.pmsgs[n]?).any (fun m => m.agent == agent && m.line == line) then s.persistentEvent true n else s)

def execPdeact (n : Nat) (s : State) : Result := .next (s.persistentEvent false n)

/-! ### Transient requests (R359, R360) -/

/-- Whether a holder answers a transient request: it may ignore one, and does while its table holds a persistent request for the line
(R359, R363). -/
def State.answers (s : State) (line agent : Nat) : Bool :=
  ((s.table (tableDie s.variant agent)).winner line).isNone && !Config.useOld (s.free * 1024 + agent)

/-- The answers to a GETS. The request reaches the home, and the holders on the dies that the home slice's hints name (R182, R359). -/
def State.answerRead (s : State) (agent : Nat) (l : Line) : State :=
  if l.homeOwner then
    if !s.answers l.line (homeAgent l.die) || s.keepsForClear l (homeAgent l.die) then s
    else if l.homeTokens = 128 ∨ l.homeTokens = 1 then s.sendHome l.line agent
    else s.sendOne agent (l.homeKeeps (l.homeTokens - 1) true s.free)
  else
    match l.holders.find? (·.owner) with
    | none => s
    | some h =>
      if h.agent = agent ∨ l.hints.contains (tableDie s.variant h.agent) = false ∨ s.answers l.line h.agent = false then s
      else if h.tokens = 1 ∨ s.keepsForClear l h.agent = true then s.sendAll l h.agent (some agent)
      else if h.agent = hostAgent then s.askHost { line := l.line, dest := agent, all := false }
      else s.sendOne agent (l.setHolder { h with tokens := h.tokens - 1 })

/-- The answers to a GETX. -/
def State.answerWrite (s : State) (agent : Nat) (l : Line) : State :=
  let hs := (l.holders.map (·.agent)).filter (fun a => a != agent && l.hints.contains (tableDie s.variant a) && s.answers l.line a)
  let go := s.answers l.line (homeAgent l.die)
  let s := hs.foldl (fun s a => s.surrender l.line a (some agent)) s
  if go then s.sendHome l.line agent else s

def State.answer (s : State) (r : TransientReq) : State :=
  match s.lineAt r.line with
  | none => s
  | some l => if r.write then s.answerWrite r.agent l else s.answerRead r.agent l

/-- A die cache or an L2 slice fills a software-managed line from its home (R187): no tokens move. -/
def State.requestSw (s : State) (agent line : Nat) : State :=
  match s.place (128 * line), cacheOfAgent agent with
  | some p, some (.die d) => if p.cls = .software ∧ (s.swLine (.die d) line).isNone = true then s.fillSw (.die d) p else s
  | some p, some (.l2 md k) =>
    if p.cls = .software ∧ homeSlice p.pa = k ∧ (s.swLine (.l2 md k) line).isNone = true then s.fillSw (.l2 md k) p else s
  | _, _ => s

/-- A transient request is sent. -/
def State.request (s : State) (agent line : Nat) (write : Bool) : State :=
  let r : TransientReq := { agent := agent, line := line, write := write, sent := 1 }
  match s.lineAt line with
  | none => if write || !agentOk s.variant agent then s else s.requestSw agent line
  | some l =>
    if !agentOk s.variant agent || l.satisfied agent write || s.treqs.any (fun t => t.agent == agent && t.line == line) then s
    else ({ s with treqs := s.treqs ++ [r] }).answer r

def execGets (agent line : Nat) (s : State) : Result := .next (s.request agent line false)
def execGetx (agent line : Nat) (s : State) : Result := .next (s.request agent line true)

/-- An unsatisfied request is sent again, four times in all (R360). -/
def State.transientRetry (s : State) (n : Nat) : State :=
  match s.treqs[n]? with
  | none => s
  | some r => if 4 ≤ r.sent then s else ({ s with treqs := s.treqs.set n { r with sent := r.sent + 1 } }).answer r

def execTransientRetry (n : Nat) (s : State) : Result := .next (s.transientRetry n)

/-- A request becomes persistent when its fourth sending has gone unsatisfied, or 2 µs after its first (R360). -/
def State.persistentEscalation (s : State) (n : Nat) : State :=
  match s.treqs[n]? with
  | none => s
  | some r => if r.sent = 4 || Config.timeUp (s.free * 1024 + r.agent) then s.escalate r.agent r.line r.write else s

def execPersistentEscalation (n : Nat) (s : State) : Result := .next (s.persistentEscalation n)

/-! ### Messages (R358) -/

def execTok (n : Nat) (s : State) : Result := .next (s.tokArrive n)

/-- A cache evicts a software-managed line: its dirty bytes go home (R187). -/
def State.swEvict (s : State) (l : SwLine) : State :=
  let s := s.sendDirty none l
  { s with swLines := s.swLines.filter (fun x => !(x.cache == l.cache && x.line == l.line)) }

/-- A holder evicts a line: its tokens return to the home, with its data if it owns it (R358); the home gives up a tag (R365); a
software-managed line leaves its cache (R187). -/
def State.wbSend (s : State) (agent line : Nat) : State :=
  match (cacheOfAgent agent).bind (fun k => s.swLine k line) with
  | some l => s.swEvict l
  | none =>
    match s.findLine line with
    | none => s
    | some l => if agent = homeAgent l.die then s.homeEvict l else s.sendAll l agent none

def execWb (agent line : Nat) (s : State) : Result := .next (s.wbSend agent line)

/-! ### The zero map (R190, R367) -/

/-- A holder of all tokens of a line in a flagged tile asks for the clear. -/
def State.zclr (s : State) (agent tile : Nat) : State :=
  if s.zflags.contains tile ∧ s.lines.any (fun l => l.cls.coherent && tileOf l.key == tile && l.satisfied agent true) = true ∧
      s.zclrs.contains (agent, tile) = false then
    { s with zclrs := s.zclrs ++ [(agent, tile)] }.clearAsked tile
  else s

def execZclr (agent tile : Nat) (s : State) : Result := .next (s.zclr agent tile)

def execZack (n : Nat) (s : State) : Result := .next (s.zack n)

/-! ### Errors (R320, R369, R403) -/

def execFatalError (k : FatalKind) (s : State) : Result := .next (s.fatalError k)

/-- A host that does not answer a back-invalidate (R363). -/
def execBackInvalidateTimeout (line : Nat) (s : State) : Result :=
  .next (if s.snoops.any (·.line == line) then s.fatalError .backInvalidate else s)

def execBackInvalidateAnswer (line : Nat) (s : State) : Result := .next (s.backInvalidateAnswer line)

def State.poisonBytes (s : State) (key : Nat) : Nat → State
  | 0 => s
  | n + 1 => ({ s with pois := setAdd s.pois key }).poisonBytes (key + 1) n

/-- The fabric is drained: every message in flight arrives, every clear asked for is served, and so is what they give rise to (R369). -/
def State.drainFabric (s : State) : Nat → State
  | 0 => s
  | fuel + 1 =>
    match s.msgs, s.pmsgs, s.zclrs with
    | [], [], [] => s
    | [], [], _ :: _ => (s.zack 0).drainFabric fuel
    | [], _ :: _, _ => (s.persistentArrive 0).drainFabric fuel
    | _ :: _, _, _ => (s.tokArrive 0).drainFabric fuel

/-- A line reset: with the fabric drained, write-backs among its messages, every holder drops its tokens and its data, and the home takes
all 128, with every byte poisoned and AWAY 0, for which it clears the flag of the line's tile (log entry 15); then traffic resumes, and a
winner gets them (R363, R369). -/
def State.lineReset (s : State) (line : Nat) : State :=
  match s.lineAt line with
  | none => s
  | some _ =>
    let s := (s.drainFabric trafficBound).mergeWhere (fun wb => wb.src.isSome)
    match s.lineAt line with
    | none => s
    | some l =>
      let s := State.dropFlag { s with msgs := s.msgs.filter (fun m => m.line != line), snoops := s.snoops.filter (·.line != line) } (tileOf l.key)
      ((s.setLine { l with holders := [], tag := none, away := false, hints := [] }).poisonBytes l.key 128).tokensMoved line

def execLineReset (line : Nat) (s : State) : Result := .next (s.lineReset line)

/-! ### Write-backs (R188, R199) -/

/-- Write-back `n` merges, and before it those that must (R199). -/
def State.writeBackMerge (s : State) (n : Nat) : State :=
  match s.writeBacks[n]? with
  | none => s
  | some wb =>
    let (m, k) := splitMerge s.variant (fun x => x.before s.variant wb) (s.writeBacks.take n)
    ({ m.foldl State.mergeBack s with writeBacks := k ++ s.writeBacks.drop (n + 1) }).mergeBack wb

def execSwWriteBackMerge (n : Nat) (s : State) : Result := .next (s.writeBackMerge n)

end Sys2Proof.Machine
end

