-- ==== Sys2Proof/Machine/HostSide.lean ====
section
/-! DEFINITION. The host side (R299 to R301, R394 to R403): management registers, submission queues, host accesses, resets, links,
current and temperature, measurement; uncorrectable errors (R317, R320 to R322, R369); and the management controller's restart. -/

namespace Sys2Proof.Machine

/-! ### Management registers (R211, R395, R400) -/

/-- A value has no bit outside [hi : lo]. -/
def onlyBits (v lo hi : Nat) : Bool := v % 2 ^ lo == 0 && decide (v < 2 ^ (hi + 1))

/-- A write ignored whole and logged, when its value is not allowed. -/
def State.regWrite (s : State) (off : Nat) (ok : Bool) (f : State → State) : State := if ok then f s else s.log (.badWrite off)

/-- The value of R211's registers that a write may give. -/
def xhatbOk (v : Nat) : Bool := decide (v < 2 ^ 52) && fld v 5 7 == 0 && decide (16 ≤ fld v 0 5) && decide (fld v 0 5 ≤ 24)

/-- Writing 1 to XLATCH begins what TLBI.all does; it reads 1 until that completes (R395). -/
def State.xlatchWrite (s : State) (v : Word) : State := if v ≠ 1 then s else { s with mgmt.xlatch := 1 }

/-- XLATCH completes: every access that has been begun is performed, the registers are latched (R335), and index 4 is extended with the
region table as written and MCPART as the register holds it (R401, log entry 22). -/
def State.xlatchDone (s : State) : State :=
  if s.mgmt.xlatch = 0 then s
  else
    let s := s.performBegun.latchAll
    let item := MeasItem.config s.kycap s.mgmt.mcpart s.mgmt.regs.rgn
    { s with mgmt.xlatch := 0, mgmt.measured := s.mgmt.measured.set 3 (s.mgmt.measured[3] ++ [item]) }

/-- PWRBUD is 200 to 3,400 (R395). -/
def State.pwrbudWrite (s : State) (v : Word) : State :=
  s.regWrite 0x28 (decide (200 ≤ v.toNat) && decide (v.toNat ≤ 3400)) (fun s => { s with mgmt.pwrbud := v })

/-- A write to the register at an offset of BAR0. Read-only registers and offsets that name none ignore it, as every register does before
READY (R398). -/
def State.mgmtWrite (s : State) (off v : Nat) : State :=
  let w := BitVec.ofNat 64 v
  let small := decide (v < 2 ^ 64)
  if s.mgmt.ready = false then s
  else if off = 0x10 then s.regWrite off (decide (v < 2 ^ 16)) (fun s => { s with mgmt.modnum := w })
  else if off = 0x18 then s.regWrite off (decide (1 ≤ v) && decide (v ≤ 11)) (fun s => { s with mgmt.mcpart := w })
  else if off = 0x20 then (if small then s.xlatchWrite w else s)
  else if off = 0x28 then (if small then s.pwrbudWrite w else s.log (.badWrite off))
  else if off = 0x30 then s.regWrite off (onlyBits v 13 55) (fun s => { s with mgmt.tvecdef := w })
  else if off = 0x1000 then s.regWrite off (xhatbOk v) (fun s => { s with mgmt.regs.xhatb := w })
  else if off = 0x1008 then s.regWrite off (onlyBits v 12 51) (fun s => { s with mgmt.regs.xastb := w })
  else if 0x1010 ≤ off ∧ off < 0x1040 ∧ off % 8 = 0 then
    s.regWrite off (onlyBits v 16 51) (fun s => { s with mgmt.regs.xiptb := s.mgmt.regs.xiptb.set (Fin.ofNat 6 ((off - 0x1010) / 8)) w })
  else if 0x1040 ≤ off ∧ off < 0x1070 ∧ off % 8 = 0 then
    s.regWrite off (onlyBits v 16 51) (fun s => { s with mgmt.regs.xdbmb := s.mgmt.regs.xdbmb.set (Fin.ofNat 6 ((off - 0x1040) / 8)) w })
  else if 0x2000 ≤ off ∧ off < 0x2400 ∧ off % 16 = 0 then
    { s with mgmt.regs.rgn := s.mgmt.regs.rgn.set (Fin.ofNat 64 ((off - 0x2000) / 16)) (BitVec.ofNat 128 v) }
  else if 0x3000 ≤ off ∧ off < 0x3800 ∧ off % 32 = 0 then
    let q := Fin.ofNat 64 ((off - 0x3000) / 32)
    { s with mgmt.queues := s.mgmt.queues.set q { s.mgmt.queues[q] with sqd := BitVec.ofNat 256 v } }
  else if off = 0x4000 then s.regWrite off (onlyBits v 12 51) (fun s => { s with mgmt.prqbase := w })
  else if off = 0x4008 then s.regWrite off (decide (v < 2 ^ 5) && v % 16 != 0) (fun s => { s with mgmt.prqcfg := w })
  else if off = 0x4010 then s.regWrite off (onlyBits v 2 51) (fun s => { s with mgmt.prqtaila := w })
  else if off = 0x4018 then s.regWrite off (decide (v < 2 ^ 32)) (fun s => { s with mgmt.prqhead := w })
  else s

def execXlatchWrite (v : Word) (s : State) : Result := .next (if s.mgmt.ready then s.xlatchWrite v else s)
def execPwrbudWrite (v : Word) (s : State) : Result := .next (if s.mgmt.ready then s.pwrbudWrite v else s)
def execMgmtRegisterWrite (off v : Nat) (s : State) : Result := .next (s.mgmtWrite off v)

/-- DEVSTAT (R399). -/
def Mgmt.devstat (m : Mgmt) : Nat := m.ready.toNat + 2 * m.throt.toNat + 4 * m.fatal.toNat

/-- An entry of the error log as 32 bytes, whose form the spec does not give (log entry 7). -/
def State.errEntry (s : State) (i : Nat) : Nat :=
  if i < s.mgmt.errlog.length then ofLeBytes ((List.range 32).map (fun b => Config.freeByte (s.free * 64 + i) b)) else 0

/-- What the register at an offset of BAR0 reads as (R395, R398). -/
def State.mgmtRead (s : State) (off : Nat) : Nat :=
  let m := s.mgmt
  if off = 0 then s.kycap.toNat
  else if off = 8 then m.devstat
  else if m.ready = false then 0
  else if off = 0x10 then m.modnum.toNat
  else if off = 0x18 then m.mcpart.toNat
  else if off = 0x20 then m.xlatch.toNat
  else if off = 0x28 then m.pwrbud.toNat
  else if off = 0x30 then m.tvecdef.toNat
  else if off = 0x1000 then m.regs.xhatb.toNat
  else if off = 0x1008 then m.regs.xastb.toNat
  else if 0x1010 ≤ off ∧ off < 0x1040 ∧ off % 8 = 0 then (m.regs.xiptb[Fin.ofNat 6 ((off - 0x1010) / 8)]).toNat
  else if 0x1040 ≤ off ∧ off < 0x1070 ∧ off % 8 = 0 then (m.regs.xdbmb[Fin.ofNat 6 ((off - 0x1040) / 8)]).toNat
  else if 0x2000 ≤ off ∧ off < 0x2400 ∧ off % 16 = 0 then (m.regs.rgn[Fin.ofNat 64 ((off - 0x2000) / 16)]).toNat
  else if 0x3000 ≤ off ∧ off < 0x3800 ∧ off % 32 = 0 then (m.queues[Fin.ofNat 64 ((off - 0x3000) / 32)]).sqd.toNat
  else if 0x3800 ≤ off ∧ off < 0x3900 ∧ off % 4 = 0 then (m.queues[Fin.ofNat 64 ((off - 0x3800) / 4)]).lnum.toNat
  else if off = 0x4000 then m.prqbase.toNat
  else if off = 0x4008 then m.prqcfg.toNat
  else if off = 0x4010 then m.prqtaila.toNat
  else if off = 0x4018 then m.prqhead.toNat
  else if 0x4100 ≤ off ∧ off < 0x4190 ∧ off % 8 = 0 then (m.links[Fin.ofNat 18 ((off - 0x4100) / 8)]).toNat
  else if 0x5000 ≤ off ∧ off < 0x5800 ∧ off % 32 = 0 then s.errEntry ((off - 0x5000) / 32)
  else 0

/-! ### Submission queues (R299 to R301) -/

structure QueueDesc where
  logn : Nat
  heada : Nat
  taila : Nat
  base : Nat
  deriving DecidableEq, Repr

/-- The descriptor of a queue that is served (R299). -/
def SubQueue.desc (q : SubQueue) : Option QueueDesc :=
  let d := q.sqd.toNat
  if fld d 196 1 = 1 ∧ fld d 197 59 = 0 ∧ fld d 192 4 ≠ 0 ∧ fld d 128 64 % 4 = 0 ∧ fld d 64 64 % 4 = 0 ∧ fld d 0 64 % 256 = 0 then
    some { logn := fld d 192 4, heada := fld d 128 64, taila := fld d 64 64, base := fld d 0 64 }
  else none

def State.setQueue (s : State) (q : Fin 64) (x : SubQueue) : State := { s with mgmt.queues := s.mgmt.queues.set q x }

/-- A store to the tail line makes the device read the tail (R300). A value that overruns is logged and ignored until the tail changes
again; a queue that waits for a change goes on with one (R301). -/
def State.sqTailUpdate (s : State) (q : Fin 64) : State :=
  let x := s.mgmt.queues[q]
  match x.desc with
  | none => s
  | some d =>
    match s.physRead d.taila 4 with
    | none => s.log (.deviceAccess d.taila)
    | some bs =>
      let t := BitVec.ofNat 32 (numOf bs)
      let s := s.physTouch d.taila 4
      if anyPoison bs then s.log (.deviceAccess d.taila)
      else if t = x.seen then s
      else if 2 ^ d.logn < (t - x.head).toNat then (s.setQueue q { x with seen := t }).log (.tailOverrun q.val)
      else s.setQueue q { x with tail := t, seen := t, waiting := false }

def execSqTailUpdate (q : Fin 64) (s : State) : Result := .next (s.sqTailUpdate q)

/-- A queue with records to take. -/
def SubQueue.ready (x : SubQueue) : Bool := x.desc.isSome && !x.waiting && x.head != x.tail

/-- The queue whose turn it is. -/
def Mgmt.nextQueue (m : Mgmt) : Option Nat :=
  ((List.range 64).map (fun i => (m.turn + i) % 64)).find? (fun q => ((m.queues.toList[q]?).map SubQueue.ready).getD false)

/-- The address of the record at the head, and the phase that it must show (R300). -/
def SubQueue.record (x : SubQueue) (d : QueueDesc) : Nat × Nat :=
  (d.base + 256 * (x.head.toNat % 2 ^ d.logn), 1 + x.head.toNat / 2 ^ d.logn % 2)

/-- Whether the record's PHASE matches. -/
def State.phaseMatches (s : State) (x : SubQueue) (d : QueueDesc) : Bool :=
  match s.physRead (x.record d).1 1 with
  | none => false
  | some bs => !anyPoison bs && numOf bs == (x.record d).2

/-- The device writes the head index after a record that it has taken. -/
def State.advanceHead (s : State) (q : Fin 64) (d : QueueDesc) : State :=
  let x := s.mgmt.queues[q]
  let s : State := { (s.setQueue q { x with head := x.head + 1 }) with mgmt.turn := (q.val + 1) % 64 }
  match s.physWrite d.heada (cleanBytes (leBytes 4 (x.head + 1).toNat)) with
  | none => s.log (.deviceAccess d.heada)
  | some s => s

/-- Installing the supervisor runtime, a launch at supervisor level from the host, extends index 3 (R401, log entry 22). -/
def State.measureRuntime (s : State) (r : List Byte) : State :=
  if fld (ofLeBytes r) 19 2 = 1 then
    { s with mgmt.measured := s.mgmt.measured.set 2 (s.mgmt.measured[2] ++ [.runtime (Config.runtimeImage r)]) }
  else s

/-- The device takes the next record of a queue, in turn: PHASE first, then the rest (R300, R301). One that finds 256 live pipelines
waits. -/
def State.submissionRecord (s : State) (q : Fin 64) : State :=
  let x := s.mgmt.queues[q]
  match x.desc with
  | none => s
  | some d =>
    if s.mgmt.fatal || s.mgmt.nextQueue != some q.val || !s.phaseMatches x d then s
    else
      let a := (x.record d).1
      let s := s.physTouch a 1
      match s.physRead a 256 with
      | none => (s.log (.deviceAccess a)).advanceHead q d
      | some bs =>
        match (s.physTouch a 256).tryLaunch bs with
        | (.ok n, s) =>
          let s := s.measureRuntime (bs.map Prod.fst)
          (s.setQueue q { s.mgmt.queues[q] with lnum := BitVec.ofNat 32 n }).advanceHead q d
        | (.error .bad, s) => s.advanceHead q d
        | (.error (.compl va), s) => (s.log (.badRecord q.val x.head.toNat va)).advanceHead q d
        | (.error .full, s) => s

def execSubmissionRecord (q : Fin 64) (s : State) : Result := .next (s.submissionRecord q)

/-- PHASE does not match after its retries (R301). -/
def State.submissionNotReady (s : State) (q : Fin 64) : State :=
  let x := s.mgmt.queues[q]
  match x.desc with
  | none => s
  | some d => if x.ready && !s.phaseMatches x d then (s.setQueue q { x with waiting := true }).log (.notReady q.val x.head.toNat) else s

def execSubmissionNotReady (q : Fin 64) (s : State) : Result := .next (s.submissionNotReady q)

/-! ### Host accesses (R204, R394) -/

/-- A module before READY, and one in its fatal state, answers a host's reads with poison (R398, R403). -/
def Mgmt.dark (m : Mgmt) : Bool := m.fatal || !m.ready

/-- Bytes that the host reads: what no region places is not stated (log entry 7). -/
def State.hostReadAt (s : State) (pa : Nat) : Nat → List (Byte × Bool) × State
  | 0 => ([], s)
  | n + 1 =>
    match s.place pa with
    | none =>
      let (r, s') := s.hostReadAt (pa + 1) n
      ((Config.freeByte s.free pa, s.mgmt.dark) :: r, s')
    | some p =>
      let s1 := if p.cls = .host then s else s.acquire hostAgent p false
      let b := s1.homeByte p.key
      let (r, s') := s1.hostReadAt (pa + 1) n
      ((b.1, b.2 || (s.mgmt.dark && p.cls != .host)) :: r, s')

/-- Addresses that the host can name: device addresses and its own memory. -/
def hostReach (pa len : Nat) : Bool := decide (pa + len ≤ 2 ^ 49)

/-- A Kyorad link has been trained with a peer, before READY: it is up, unless both ends carry one module number (R397, R398). -/
def State.linkTrain (s : State) (n : Fin 18) (peer : BitVec 16) : State :=
  if s.mgmt.ready || !s.hasUnit (.link n.val) then s
  else
    let same := s.mgmt.modnum.toNat % 2 ^ 16 == peer.toNat
    let s : State := { s with mgmt.links := s.mgmt.links.set n (BitVec.ofNat 64 (peer.toNat * 2 ^ 16 + (!same).toNat)) }
    if same then s.log (.sameModule n) else s

/-- A host access. What a read returns is kept as address, value and poison marks; offsets of BAR0 stand above 2^52. The host's own order of its accesses is its own
(R204): a read, or a write performed at once, finds its earlier writes performed. A posted write may be performed at any later time, but
no byte of it before an earlier write of the same byte (R197, R203). -/
def State.hostMemAccess (s : State) (op : HostOp) (pa len value : Nat) : State :=
  match op with
  | .register => { s with hostData := s.hostData ++ [(2 ^ 52 + pa, s.mgmtRead pa, 0)] }
  | .read =>
    if !hostReach pa len then s
    else
      let (bs, s) := (s.performUpTo s.posted.length).hostReadAt pa len
      { s with hostData := s.hostData ++ [(pa, numOf bs, marks (bs.map Prod.snd))] }
  | .write => if !hostReach pa len then s else (s.performUpTo s.posted.length).hostPuts pa (leBytes len value)
  | .post => if !hostReach pa len then s else { s with posted := s.posted ++ [{ pa := pa, bytes := leBytes len value, performed := false }] }
  | .perform n =>
    match s.posted[n]? with
    | none => s
    | some e =>
      if (s.posted.take n).any (fun x => !x.performed && decide (x.pa < e.pa + e.bytes.length) && decide (e.pa < x.pa + x.bytes.length)) then s
      else s.performPosted n
  | .xlatchDone => s.xlatchDone
  | .train n peer => s.linkTrain n peer

def execHostMemAccess (op : HostOp) (pa len value : Nat) (s : State) : Result := .next (s.hostMemAccess op pa len value)

/-! ### Resets (R398) -/

/-- The module after a reset sequence, up to READY. Host memory, which is the host's, keeps its bytes; units that have failed for good are
marked absent. -/
def State.resetKeeping (s : State) (modnum mcpart pwrbud : Word) : State :=
  { State.resetWith s.variant modnum mcpart pwrbud with
    mgmt := { Mgmt.reset modnum mcpart pwrbud with broken := s.mgmt.broken, absent := s.mgmt.broken },
    mem := s.mem.filter (fun c => decide (2 ^ 40 ≤ c.1)), pois := s.pois.filter (fun k => decide (2 ^ 40 ≤ k)), hostData := s.hostData,
    inputs := s.inputs, free := s.free }

def execPowerOnReset (s : State) : Result := .next (s.resetKeeping 0 8 3400)
def State.warmReset (s : State) : State := s.resetKeeping s.mgmt.modnum s.mgmt.mcpart s.mgmt.pwrbud
def execConventionalReset (s : State) : Result := .next s.warmReset
def execFunctionLevelReset (s : State) : Result := .next s.warmReset

/-- With power off the module keeps no state (R398). -/
def execPowerOff (s : State) : Result := .next { s.resetKeeping 0 8 3400 with power := false }

/-! ### Links (R346, R347, R397) -/

/-- The modules of a pair of adjacent memory dies that have not failed: two at first. -/
def State.modulesLeft (s : State) (a b : Nat) : Nat := 2 - (s.mgmt.dieLinks.filter (fun l => l == (a, b) || l == (b, a))).length

def State.linked (s : State) (a b : Nat) : Bool := a != b && nearDies s.variant a b && decide (0 < s.modulesLeft a b)

/-- The dies that can be reached from some. -/
def State.reach (s : State) : Nat → List Nat → List Nat
  | 0, l => l
  | n + 1, l => s.reach n (l ++ (List.range s.variant.memDies).filter (fun b => !l.contains b && l.any (fun a => s.linked a b)))

def State.connected (s : State) : Bool := (s.reach 6 [0]).length == s.variant.memDies

/-- A link whose replay fails is taken out of service. With the last one goes the route to every other module (R397). -/
def State.linkFailure (s : State) (l : LinkId) : State :=
  match l with
  | .die a b =>
    if !s.linked a.val b.val then s
    else
      let s := ({ s with mgmt.dieLinks := (a.val, b.val) :: s.mgmt.dieLinks }).log (.linkDown none)
      if s.connected then s else s.fatalError .noRoute
  | .kyorad n =>
    if s.hasUnit (.link n.val) then
      (State.endUnrouted { s with mgmt.links := s.mgmt.links.set n (s.mgmt.links[n] &&& ~~~1) }).log (.linkDown (some n))
    else s

def execLinkReplayFailure (l : LinkId) (s : State) : Result := .next (s.linkFailure l)

/-! ### Current and temperature (R402) -/

def sumMin (lam : Nat) (q : List Nat) : Nat := (q.map (fun x => min x lam)).sum

/-- The largest λ with Σ min(q, λ) ≤ B. -/
def lambdaOf (b : Nat) (q : List Nat) : Nat := ((List.range (b + 1)).reverse.find? (fun lam => decide (sumMin lam q ≤ b))).getD 0

/-- One ampere more to each die that asked for more, in order, until the grants sum to B. -/
def topUp (lam : Nat) : Nat → List Nat → List Nat
  | _, [] => []
  | rest, x :: r => if lam < x ∧ 0 < rest then (lam + 1) :: topUp lam (rest - 1) r else min x lam :: topUp lam rest r

/-- The grants of R402 for requests within a budget. -/
def grantsOf (b : Nat) (q : List Nat) : List Nat :=
  if q.sum ≤ b then q
  else
    let lam := lambdaOf b q
    topUp lam (b - sumMin lam q) q

/-- A die whose request is missing keeps its previous grant for one period and then gets nothing, and the others share the rest of the
budget; a hot die gets at most nine tenths of its previous grant (log entry 49). -/
def State.powerPeriod (s : State) (requests : List (Option Nat)) : State :=
  let m := s.mgmt
  let n := s.variant.computeDies
  let prev (i : Nat) : Nat := m.grants.getD i 0
  let kept (i : Nat) : Option Nat :=
    match requests.getD i none with
    | some _ => none
    | none => some (if m.missing.getD i false then 0 else prev i)
  let held := ((List.range n).map (fun i => (kept i).getD 0)).sum
  let g := (grantsOf (m.pwrbud.toNat - held) ((List.range n).map (fun i => (requests.getD i none).getD 0))).zipIdx.map (fun x =>
    (kept x.2).getD x.1)
  let g := g.zipIdx.map (fun x => if m.hot.getD x.2 false then min x.1 (prev x.2 * 9 / 10) else x.1)
  { s with mgmt.grants := if m.compute then g else List.replicate n 0, mgmt.pwrbudNow := m.pwrbud,
           mgmt.missing := (List.range n).map (fun i => (requests.getD i none).isNone) }

def execPowerArbiterPeriod (requests : List (Option Nat)) (s : State) : Result := .next (s.powerPeriod requests)

/-- At 115 °C the compute rail goes down, which is fatal. -/
def State.thermalTrip (s : State) : State :=
  State.fatalError { s with mgmt.compute := false, mgmt.grants := List.replicate s.variant.computeDies 0 } .thermalTrip

/-- A junction temperature: throttling from 105 °C until the die is below 100 °C, and the trip from 115 °C on. -/
def State.thermal (s : State) (die temp : Nat) : State :=
  if s.variant.computeDies ≤ die then s
  else
    let old := (List.range s.variant.computeDies).map (fun i => s.mgmt.hot.getD i false)
    let hot := old.zipIdx.map (fun x => if x.2 = die then (if 105 ≤ temp then true else if temp < 100 then false else x.1) else x.1)
    let s : State := { s with mgmt.hot := hot, mgmt.throt := hot.any id }
    if 115 ≤ temp then s.thermalTrip else s

def execThermalThrottle (die temp : Nat) (s : State) : Result := .next (s.thermal die temp)

def execThermalTrip (die : Nat) (s : State) : Result := .next (if s.variant.computeDies ≤ die then s else s.thermalTrip)

/-! ### Measurement (R401) -/

/-- The digest of an index: its items extended one after another. -/
def itemBytes : MeasItem → List Byte
  | .bootRom => Config.bootImage
  | .firmware => Config.firmwareImage
  | .runtime b => b
  | .config k p r => leBytes 8 k.toNat ++ leBytes 8 p.toNat ++ r.toList.flatMap (fun w => leBytes 16 w.toNat)

def digestOf (l : List MeasItem) : BitVec 512 :=
  match l with
  | [] => 0
  | x :: r => r.foldl (fun d y => Config.extend d (sha512 (itemBytes y))) (sha512 (itemBytes x))

/-- A request on the DOE mailbox is answered from the log as it stands. The codes are SPDM 1.2's (log entry 8). -/
def State.spdm (s : State) (request nonce : Nat) : State :=
  { s with mgmt.doe := s.mgmt.doe ++ [{ request := request, nonce := nonce, log := s.mgmt.measured }] }

/-- The bytes of an answer. -/
def SpdmAnswer.bytes (a : SpdmAnswer) : List Byte :=
  Config.spdmAnswer a.request (leBytes 32 a.nonce ++ a.log.toList.flatMap (fun l => leBytes 64 (digestOf l).toNat))

/-- The signature over an answer that is signed. -/
def SpdmAnswer.signature (a : SpdmAnswer) : List Byte := Config.sign a.bytes

def execGetVersion (s : State) : Result := .next (s.spdm 0x84 0)
def execGetCapabilities (s : State) : Result := .next (s.spdm 0xE1 0)
def execNegotiateAlgorithms (s : State) : Result := .next (s.spdm 0xE3 0)
def execGetCertificate (s : State) : Result := .next (s.spdm 0x82 0)
def execChallenge (nonce : Nat) (s : State) : Result := .next (s.spdm 0x83 nonce)
def execGetMeasurements (s : State) : Result := .next (s.spdm 0xE0 0)

/-! ### Uncorrectable errors (R317, R320 to R322, R369, R403) -/

/-- An error strikes an 8-byte word of a cell of the context on turn: its bytes are poisoned (R320), and the first operation that reads it
raises the fault (R317). -/
def State.strike (s : State) (cell : Nat) (reg : Option CellReg) (word : Nat) : State :=
  let c := s.ctx.setCell cell (fun c => match reg with
    | some r => c.strikeReg r word
    | none => c.strikeStore word)
  s.setCtx { c with cellErrs := { cell := cell, reg := reg, word := word } :: c.cellErrs }

/-- The data of a message in flight is struck: it is delivered poisoned (R347). Data is stored once, so that every copy of the line is then
poisoned, one that a holder had beside it, too (log entry 28). -/
def State.strikeMessage (s : State) (n : Nat) : State :=
  match s.msgs[n]? with
  | none => s
  | some m =>
    if m.data then
      (match s.lineAt m.line with
      | none => s
      | some l => s.poisonBytes l.key 128)
    else s

def State.uncorrectable (s : State) (u : ErrUnit) : State :=
  match u with
  | .sector key => s.poisonBytes (key / 32 * 32) 32
  | .scratch off => { s with ctx.scratchPoi := (List.range 32).foldl (fun l i => setAdd l (off / 32 * 32 + i)) s.ctx.scratchPoi }
  | .cached n i =>
    match s.swLines[n]? with
    | none => s
    | some l => { s with swLines := s.swLines.set n { l with poi := l.poi ||| BitVec.ofNat 128 ((2 ^ 32 - 1) * 2 ^ (32 * (i % 4))) } }
  | .sizeCode key => s.poisonBytes (key / 128 * 128) 128
  | .vec cell v w => s.strike cell (some (.v (Fin.ofNat 32 v))) (w % 64)
  | .tile cell m w => s.strike cell (some (.m (Fin.ofNat 8 m))) (w % 256)
  | .store cell w => s.strike cell none w
  | .mask cell g w => s.strike cell (some (.g (Fin.ofNat 8 g))) (w % 16)
  | .flag cell => s.strike cell (some .f) 0
  | .chunk cell vert w => s.strike cell (some (if vert then .xv else .xh)) (w % 8)
  | .metadata cell vert w => s.strike cell (some (if vert then .xv else .xh)) (8 + w % 6)
  | .zflag tile => { s with zflagErr := setAdd s.zflagErr tile }
  | .sequencer => ((s.setCtx (s.ctx.terminate .aborted)).spreadEnds).log .uncorrectable
  | .tokens line => s.lineReset line
  | .controller => s.fatalError .controller
  | .message n => s.strikeMessage n
  | .writeBack n =>
    match s.writeBacks[n]? with
    | none => s
    | some wb => { s with writeBacks := s.writeBacks.set n { wb with poi := wb.poi ||| wb.mask } }
  | .unit u => if s.variant.has u && !s.mgmt.broken.contains u then { s with mgmt.broken := u :: s.mgmt.broken } else s

def execUncorrectableError (u : ErrUnit) (s : State) : Result := .next (s.uncorrectable u)

/-! ### The management controller's restart (R336) -/

/-- A context that HALT stopped issues again; its watchdog counts from zero. -/
def State.restart (s : State) (id : Nat) : State :=
  s.mapCtx id (fun c => if c.status = .halted then { c with status := .running, timer := 0 } else c)

def execManagementControllerRestart (id : Nat) (s : State) : Result := .next (s.restart id)

end Sys2Proof.Machine
end

