-- ==== Sys2Proof/Machine/Command.lean ====
section
/-! DEFINITION. How a command in flight begins (R238) and how it moves its next transfer tile (R241). -/

namespace Sys2Proof.Machine

def Job.begun (j : Job) : Job := { j with c.started := true }

/-- What a command does when it begins: its operand block, its descriptor or record is read, or the whole of it is done. -/
def Job.start (j : Job) : Job :=
  match j.c.op with
  | .hldz _ => j.startHldz.begun
  | .hmcast _ => j.startHmcast.begun
  | .hstore _ => j.startStore.begun
  | .hscat _ => j.startStore.begun
  | .hstzTensor _ => j.startStore.begun
  | .zmap _ => j.startZmap.begun
  | .copy _ => j.startCopy.begun
  | .cfill _ => j.startCopy.begun
  | .tkjoin _ => j.startTkjoin.begun
  | .sbind _ => j.startSbind.begun
  | .sfree _ => j.begun.done (0, 0)
  | .rfence _ => j.startRfence.begun
  | .pgreq _ => j.startPgreq.begun
  | .scrlim _ => j.startScrlim.begun
  | .rgrp _ => j.startRgrp
  | .launch _ => j.startLaunch.begun
  | .cancel _ => j.startCancel.begun
  | .abort _ => j.startAbort.begun
  | .ctxsave _ => j.startCtxsave.begun
  | .ctxload _ => j.startCtxload.begun
  | .flushall _ => j.startFlushall.begun
  | _ => j.begun

/-- Every ticket that a command consumes is complete (R238). -/
def EngCmd.depsDone (k : EngCmd) : Bool := k.deps.all (fun d => d.kept.isSome)

/-- Command `n` can begin. A collective does so while its context is drained, too: it runs on in its unit (R327, R383). -/
def Context.startable (c : Context) (k : EngCmd) : Bool :=
  (!c.drainedAway || collectiveOp k.op) && !k.started && !k.closed && k.outcome.isNone && k.depsDone

def State.commandStart (s : State) (n : Nat) : State :=
  match s.ctx.cmds[n]? with
  | none => s
  | some k => if s.ctx.startable k then ({ s := s, c := k } : Job).start.commit else s

def execCommandStart (n : Nat) (s : State) : Result := .next (s.commandStart n)

/-- Command `n` ends; the ticket of one whose context is drained is completed in the context's area, too (R332). -/
def State.ticketDone (s : State) (n : Nat) : State :=
  if s.ctx.drainedAway then
    match s.ctx.cmds[n]? with
    | none => s
    | some k => s.endAway s.ctx.ctxid.toNat k.seq (s.ctx.saved.getD 0)
  else s.setCtx (s.ctx.ticketComplete n)

def execTicketComplete (n : Nat) (s : State) : Result := .next (s.ticketDone n)

/-- The next transfer of a command. In-hatch commands move their elements by HATCH_FILL. -/
def Job.transfer (j : Job) : Job :=
  match j.c.op with
  | .hstore _ => j.drainTile
  | .hscat _ => j.drainTile
  | .hstzTensor _ => j.drainTile
  | .hmcast _ => j.drainTile
  | .hstz _ => j.recordTile
  | .copy _ => j.copyTile
  | .cfill _ => j.copyTile
  | .zmap _ => j.zmapTile
  | .csqz _ => j.csqz
  | .cxpd _ => j.cxpd
  | .ctxsave _ => j.awaitPark
  | _ => j

def Context.movable (c : Context) (k : EngCmd) : Bool := !c.drainedAway && k.started && !k.closed && k.outcome.isNone

/-- The event's choice of bytes that stay for later is over. -/
def Job.punctual (j : Job) : Job := { j with c := { j.c with later := 0 } }

/-- A command writes the bytes that its last transfer has left, or makes its next transfer. Of the bytes that it writes, those that
`later` names stay for an event to come, so that a reader may meet any mixture of them (R194). -/
def State.transferTile (s : State) (n later : Nat) : State :=
  match s.ctx.cmds[n]? with
  | none => s
  | some k =>
    let j : Job := { s := s, c := { k with later := later } }
    if k.out ≠ [] then j.flushOut.punctual.commit
    else if s.ctx.movable k then j.transfer.punctual.commit
    else s

def execTransferTile (m : TileMove) (s : State) : Result := .next (s.transferTile m.command m.later)

end Sys2Proof.Machine
end

