-- ==== Sys2Proof/Machine/Special.lean ====
section
/-! DEFINITION. The special functions of R126, correctly rounded. Roots and reciprocals are exact integer computations with a
sticky bit. The others enclose the function value between two bounds in fixed point, at rising precisions, until both bounds
round alike; the enclosures rest on the power series of exp, atanh, arctan and sin. Should no precision tried separate them, the
result is a free value (log entry 6). -/

namespace Sys2Proof.Machine

/-! ### Fixed-point series: a number x is kept as ⌊x · 2^p⌋ -/

/-- Σ z^k / k! for k from `k` on, `n` terms, given the term before. -/
def fxExpFrom (p z : Nat) (k term : Nat) : Nat → Nat
  | 0 => 0
  | n + 1 => let t := term * z / 2 ^ p / k; t + fxExpFrom p z (k + 1) t n

/-- e^z. -/
def fxExp (p z terms : Nat) : Nat := 2 ^ p + fxExpFrom p z 1 (2 ^ p) terms

/-- Σ z^(2k+1) / (2k+1), given z² and the power at hand. -/
def fxAtanhFrom (p z2 : Nat) (odd pow : Nat) : Nat → Nat
  | 0 => 0
  | n + 1 => pow / odd + fxAtanhFrom p z2 (odd + 2) (pow * z2 / 2 ^ p) n

/-- ln of the fraction a / b, from 1 to 2: 2 · atanh((a − b) / (a + b)). -/
def fxLn (p a b terms : Nat) : Nat :=
  let z := (a - b) * 2 ^ p / (a + b)
  2 * fxAtanhFrom p (z * z / 2 ^ p) 1 z terms

/-- arctan(1 / n) · 2^p, as alternating partial sums. -/
def fxAtanInv (n2 : Nat) (odd pow : Nat) : Nat → Int
  | 0 => 0
  | n + 1 => ((pow / odd : Nat) : Int) - fxAtanInv n2 (odd + 2) (pow / n2) n

/-- π by Machin's formula. -/
def fxPi (p terms : Nat) : Nat :=
  (16 * fxAtanInv 25 1 (2 ^ p / 5) terms - 4 * fxAtanInv 57121 1 (2 ^ p / 239) terms).toNat

/-- Σ ± term, where each term is the one before times w / (k (k + 1)). -/
def fxTrigFrom (alt : Bool) (p w : Nat) (k term : Nat) : Nat → Int
  | 0 => 0
  | n + 1 =>
    let r := fxTrigFrom alt p w (k + 2) (term * w / 2 ^ p / (k * (k + 1))) n
    (term : Int) + (if alt then -r else r)

/-! ### Exact roots and quotients -/

/-- ⌊√n⌋, bit by bit from bit `b − 1` down. -/
def isqrtFrom (n r : Nat) : Nat → Nat
  | 0 => r
  | b + 1 => isqrtFrom n (if (r + 2 ^ b) * (r + 2 ^ b) ≤ n then r + 2 ^ b else r) b

def isqrt (n : Nat) : Nat := isqrtFrom n 0 (Nat.log2 n / 2 + 1)

/-- 1 / (m · 2^e), m nonzero. -/
def rcpFin (f : FFmt) (neg : Bool) (m : Nat) (e : Int) : Nat × Nat :=
  let k := Nat.log2 m + 80
  f.roundFin .rne false neg (2 ^ k / m) (-e - k) (decide (2 ^ k % m ≠ 0))

/-- The root of m · 2^e. -/
def sqrtFin (f : FFmt) (m : Nat) (e : Int) : Nat × Nat :=
  let par := (e % 2).toNat
  let n := m * 2 ^ (par + 160)
  let r := isqrt n
  f.roundFin .rne false false r ((e - par) / 2 - 80) (decide (r * r ≠ n))

/-- The reciprocal root of m · 2^e, m nonzero. -/
def rsqFin (f : FFmt) (m : Nat) (e : Int) : Nat × Nat :=
  let par := (e % 2).toNat
  -- 1 / √(m 2^par 2^(e − par)), with 2^(2k) / (m 2^par) at hand
  let k := Nat.log2 m + 80
  let d := m * 2 ^ par
  let r := isqrt (2 ^ (2 * k) / d)
  f.roundFin .rne false false r (-((e - par) / 2) - k) (decide (r * r * d ≠ 2 ^ (2 * k)))

/-! ### Enclosures -/

/-- The result when the true magnitude lies within 2^12 units of `a`, in units of 2^e, and both ends round alike. -/
def tryRound (f : FFmt) (neg : Bool) (a : Nat) (e : Int) : Option (Nat × Nat) :=
  let lo := f.roundFin .rne false neg (a - 4096) e true
  let hi := f.roundFin .rne false neg (a + 4096) e true
  if lo = hi then some lo else none

/-- The precisions tried. -/
def precisions : List Nat := [96, 160, 320]

def firstSome (g : Nat → Option (Nat × Nat)) : List Nat → Option (Nat × Nat)
  | [] => none
  | p :: r =>
    match g p with
    | some x => some x
    | none => firstSome g r

/-- ⌊m · 2^e · 2^p⌋. -/
def toFixed (m : Nat) (e : Int) (p : Nat) : Nat := if 0 ≤ e + p then m * 2 ^ (e + p).toNat else m / 2 ^ (-(e + p)).toNat

/-- 2^t for t = ±m · 2^e. Beyond the range of every format the result is that of an end of the range. -/
def exp2Fin (f : FFmt) (neg : Bool) (m : Nat) (e : Int) : Option (Nat × Nat) :=
  if m = 0 then some (f.roundFin .rne false false 1 0 false)
  else if 9 < e + Nat.log2 m then
    some (if neg then f.roundFin .rne false false 1 (-1000) true else f.roundFin .rne false false 1 1000 false)
  else
    -- t = i + r / 2^k with 0 ≤ r < 2^k
    let k := (-e).toNat
    let t : Int := (if neg then -1 else 1) * (m * 2 ^ e.toNat : Nat)
    let i : Int := t / 2 ^ k
    let r := (t % 2 ^ k).toNat
    if r = 0 then some (f.roundFin .rne false false 1 i false)
    else
      firstSome (fun p =>
        let y := toFixed r (-(k : Int)) p * fxLn p 2 1 (p / 3 + 2) / 2 ^ p
        tryRound f false (fxExp p y (p / 3 + 20)) (i - p)) precisions

/-- log2 of m · 2^e, m nonzero. -/
def log2Fin (f : FFmt) (m : Nat) (e : Int) : Option (Nat × Nat) :=
  let k : Int := e + Nat.log2 m
  if m = 2 ^ Nat.log2 m then some (f.roundFin .rne false (decide (k < 0)) k.natAbs 0 false)
  else
    firstSome (fun p =>
      let frac := fxLn p m (2 ^ Nat.log2 m) (p / 3 + 2) * 2 ^ p / fxLn p 2 1 (p / 3 + 2)
      let x : Int := k * 2 ^ p + frac
      tryRound f (decide (x < 0)) x.natAbs (-(p : Int))) precisions

/-- sin(π u) for u = m · 2^e between 0 and 1/2: u times an even series. -/
def sinPiSmall (f : FFmt) (neg : Bool) (m : Nat) (e : Int) : Option (Nat × Nat) :=
  if m = 2 ^ Nat.log2 m ∧ e + Nat.log2 m = -1 then some (f.roundFin .rne false neg 1 0 false)
  else
    firstSome (fun p =>
      let pi := fxPi p p
      let u := toFixed m e p
      let w := pi * u / 2 ^ p * (pi * u / 2 ^ p) / 2 ^ p
      let g := (fxTrigFrom true p w 2 pi (p / 3 + 10)).toNat
      -- the width of the enclosure is 2^12 units of g, which m scales
      let lo := f.roundFin .rne false neg (m * (g - 4096)) (e - p) true
      let hi := f.roundFin .rne false neg (m * (g + 4096)) (e - p) true
      if lo = hi then some lo else none) precisions

/-- The fraction parts of an argument: ⌊x⌋ modulo 2 and the rest as a number of units 2^−k. -/
def unitParts (m : Nat) (e : Int) : Nat × Nat × Nat :=
  let k := (-e).toNat + 1
  let n := m * 2 ^ (e + k).toNat
  (n / 2 ^ k % 2, n % 2 ^ k, k)

/-- sin(π x), x = ±m · 2^e. -/
def sinPiFin (f : FFmt) (neg : Bool) (m : Nat) (e : Int) : Option (Nat × Nat) :=
  let (odd, r, k) := unitParts m e
  if r = 0 then some (f.zero neg, 0)
  else
    let u := if 2 ^ (k - 1) < r then 2 ^ k - r else r
    sinPiSmall f (neg != (odd == 1)) u (-(k : Int))

/-- cos(π x) = sin(π (1/2 − a)), a the distance of |x| from an even number. -/
def cosPiFin (f : FFmt) (m : Nat) (e : Int) : Option (Nat × Nat) :=
  let (odd, r, k) := unitParts m e
  let half := 2 ^ (k - 1)
  let u := if r ≤ half then half - r else r - half
  if u = 0 then some (f.zero false, 0)
  else sinPiSmall f ((odd == 1) != decide (half < r)) u (-(k : Int))

/-- tanh of a positive m · 2^e. -/
def tanhFin (f : FFmt) (neg : Bool) (m : Nat) (e : Int) : Option (Nat × Nat) :=
  if 5 ≤ e + Nat.log2 m then some (f.roundFin .rne false neg (2 ^ 64 - 1) (-64) true)
  else if 0 ≤ e + Nat.log2 m then
    firstSome (fun p =>
      let big := fxExp p (2 * toFixed m e p) (p + 250)
      tryRound f neg ((big - 2 ^ p) * 2 ^ p / (big + 2 ^ p)) (-(p : Int))) precisions
  else
    firstSome (fun p =>
      let x := toFixed m e p
      let w := x * x / 2 ^ p
      let s := (fxTrigFrom false p w 2 (2 ^ p) (p / 3 + 10)).toNat
      let c := (fxTrigFrom false p w 1 (2 ^ p) (p / 3 + 10)).toNat
      let g := s * 2 ^ p / c
      let lo := f.roundFin .rne false neg (m * (g - 4096)) (e - p) true
      let hi := f.roundFin .rne false neg (m * (g + 4096)) (e - p) true
      if lo = hi then some lo else none) precisions

/-! ### The functions with their special values (R126) -/

/-- The opcodes of R144. -/
inductive SpecialFn where
  | exp2
  | log2
  | rcp
  | rsq
  | sqrt
  | sinp
  | cosp
  | tanh
  deriving DecidableEq, Repr

/-- A function of one finite operand. -/
def finOr (fn : Nat) (f : FFmt) (c : Nat) : Option (Nat × Nat) → Nat × Nat
  | some r => r
  | none => (Config.specialValue fn f.width c % 2 ^ f.width, 0)

/-- Every special function but VEXP2. -/
def special1 (fn : SpecialFn) (f : FFmt) (c : Nat) : Nat × Nat :=
  match f.value c with
  | .nan => (f.nan, 0)
  | .inf neg =>
    match fn with
    | .exp2 => (f.nan, 0)
    | .log2 => if neg then (f.nan, evInv) else (f.infCode false, 0)
    | .rcp => (f.zero neg, 0)
    | .rsq => if neg then (f.nan, evInv) else (f.zero false, 0)
    | .sqrt => if neg then (f.nan, evInv) else (f.infCode false, 0)
    | .sinp => (f.nan, evInv)
    | .cosp => (f.nan, evInv)
    | .tanh => f.roundFin .rne false neg 1 0 false
  | .fin neg m e =>
    if m = 0 then
      match fn with
      | .exp2 => (f.nan, 0)
      | .log2 => (f.infCode true, 0)
      | .rcp => (f.infCode neg, 0)
      | .rsq => (f.infCode neg, 0)
      | .sqrt => (f.zero neg, 0)
      | .sinp => (f.zero neg, 0)
      | .cosp => f.roundFin .rne false false 1 0 false
      | .tanh => (f.zero neg, 0)
    else
      match fn with
      | .exp2 => (f.nan, 0)
      | .log2 => if neg then (f.nan, evInv) else finOr 1 f c (log2Fin f m e)
      | .rcp => rcpFin f neg m e
      | .rsq => if neg then (f.nan, evInv) else rsqFin f m e
      | .sqrt => if neg then (f.nan, evInv) else sqrtFin f m e
      | .sinp => finOr 5 f c (sinPiFin f neg m e)
      | .cosp => finOr 6 f c (cosPiFin f m e)
      | .tanh => finOr 7 f c (tanhFin f neg m e)

/-- VEXP2: 2^((a − m) · s), fused. -/
def specialExp2 (f : FFmt) (a m s : Nat) (scaledBy : Bool) : Nat × Nat :=
  let sv := if scaledBy then f.value s else .fin false 1 0
  let (d, bad1) := Val.add .rne (f.value a) (f.value m).neg
  let (t, bad2) := Val.mul d sv
  if (f.value a).isNan || (f.value m).isNan || sv.isNan then (f.nan, 0)
  else if bad1 || bad2 then (f.nan, evInv)
  else
    match t with
    | .nan => (f.nan, 0)
    | .inf neg => if neg then (f.zero false, 0) else (f.infCode false, 0)
    | .fin neg k e => finOr 0 f (a + m * 2 ^ f.width + s * 2 ^ (2 * f.width)) (exp2Fin f neg k e)

end Sys2Proof.Machine
end

