-- ==== Sys2Proof/Machine/Wave.lean ====
section
/-! DEFINITION. How one operation of a wave word runs over the grid (R90 to R101): which cells execute it, what they read of their
own registers and of their neighbours, and where their writes, events and faults go. Own registers, the east and the south are
read as they stood before the wave word (`State.src`); the west and the north are read after it, which the order of the cells
gives, since only the W1 slot writes the communication registers and the M slot runs after it. -/

namespace Sys2Proof.Machine

/-- Bits [lo + len − 1 : lo] of a register that an operation reads. -/
structure RegRead where
  cell : Nat
  reg : CellReg
  lo : Nat
  len : Nat
  deriving DecidableEq, Repr

def RegRead.whole (cell : Nat) (r : CellReg) : RegRead := { cell := cell, reg := r, lo := 0, len := r.width }

/-- A part of what is read. -/
def RegRead.part (lo len : Nat) (r : RegRead) : RegRead := { r with lo := lo, len := len }

/-- What one cell does for one operation. -/
structure CellOut where
  writes : List CellWrite
  /-- A write of the cell store: first unit, contents, units. -/
  stored : Option (Nat × Bits × Nat)
  reads : List RegRead
  /-- The units of the cell store that a load reads. -/
  loaded : Option (Nat × Nat)
  events : Nat
  /-- Kinds of deferred fault (R317). -/
  faults : List Nat
  deriving DecidableEq, Repr

def CellOut.nothing : CellOut := { writes := [], stored := none, reads := [], loaded := none, events := 0, faults := [] }

/-- An operation of a wave slot in one cell. -/
abbrev CellOp := State → Nat → CellOut

/-! ### Places -/

def rowOf (i : Nat) : Nat := i / 16
def colOf (i : Nat) : Nat := i % 16

/-- Whether the selector of the wave word enables a cell (R92, R100). -/
def State.enabled (s : State) (i : Nat) : Bool :=
  let z := s.src.z[s.wave.sel.toFin]
  z.rows.getLsbD (rowOf i % 16) && z.cols.getLsbD (colOf i)

def State.cellCount (s : State) : Nat := s.src.cells.length

/-! ### Reading -/

/-- Bit `k` of a mask stands for `w` bits from `w` · k on, for `n` such runs. -/
def spread (w mask : Nat) : Nat → Nat
  | 0 => 0
  | n + 1 => spread w mask n + (if mask.testBit n then (2 ^ w - 1) * 2 ^ (w * n) else 0)

/-- Each bit from the old or the new value: 1 in `sel` selects the new one. -/
def mixBits (sel old new : Nat) : Nat := old ^^^ ((old ^^^ new) &&& sel)

/-- The marks of a register that belong to its elements of `w` bits which a mask selects; two 4-bit elements that share a byte share the
choice of its first for the byte's mark. -/
def markMask (r : CellReg) (w mask : Nat) : Nat :=
  let bytes (n : Nat) : Nat := if 8 ≤ w then spread (w / 8) mask (8 * n / w) else spread 1 (((List.range n).map (fun b => if mask.testBit (8 / w * b) then 2 ^ b else 0)).sum) n
  match r with
  | .v _ => bytes 512
  | .m _ => bytes 2048
  | .g _ => mask
  | .f => mask
  | .xh => bytes 48
  | .xv => bytes 48

/-- A register whose elements of `w` bits read each as their old or as their new value (R19, log entry 3). -/
def mixReg (key w : Nat) (r : CellReg) (old new : Bits) : Bits :=
  let mask := Config.raceMask key
  let w := max w 1
  ⟨mixBits (spread w mask (r.width / w)) old.val new.val, mixBits (markMask r w mask) old.poi new.poi⟩

/-- A key for a draw that belongs to a cell. -/
def State.cellKey (s : State) (i n : Nat) : Nat := (s.free * 2 ^ 12 + i) * 2 ^ 24 + n

/-- A register as it stood before the wave word, read as elements of `width` bits. Where a result is outstanding for it, each element reads
as either value (R19); with `accum`, the outstanding products are taken as done, in their order (R160). -/
def State.cellReg (s : State) (i : Nat) (r : CellReg) (accum : Bool) (width : Nat) : Bits :=
  s.src.pend.foldl (fun b p =>
    p.writes.foldl (fun b w =>
      if w.cell = i ∧ w.reg = r then
        let n := w.onto b
        if accum && p.acc then n
        else mixReg (s.cellKey i (p.made % 2 ^ 24)) width r b n
      else b) b) ((s.src.cell i).get r)

/-- The neighbour operands (R93, R94, R100), coded as SRC of R148, with the register they come from. -/
def State.chunk (s : State) (i src : Nat) : Chunk × List RegRead :=
  match src with
  | 0 => ((s.src.cell i).xh, [.whole i .xh])
  | 1 => ((s.src.cell i).xv, [.whole i .xv])
  | 2 => if colOf i = 0 then (s.wave.west.getD (rowOf i) Chunk.zero, []) else ((s.ctx.cell (i - 1)).xh, [.whole (i - 1) .xh])
  | 3 => if rowOf i = 0 then (s.wave.north.getD (colOf i) Chunk.zero, []) else ((s.ctx.cell (i - 16)).xv, [.whole (i - 16) .xv])
  | 4 => if colOf i = 15 then (Chunk.zero, []) else ((s.src.cell (i + 1)).xh, [.whole (i + 1) .xh])
  | _ => if rowOf i % 16 = 15 then (Chunk.zero, []) else ((s.src.cell (i + 16)).xv, [.whole (i + 16) .xv])

/-! ### Drains (R97) -/

/-- Appends a value to a lane of a hatch of chain member `member`. -/
def pushLane (c : Context) (hatch : Fin 12) (lane : Fin 16) (x : Chunk) : Context :=
  { c with hatches := c.hatches.set hatch (c.hatches[hatch].set lane (c.hatches[hatch][lane] ++ [x])) }

/-- The chain member `j` places after the leader on turn. -/
def Context.isMember (leader c : Context) (j : Nat) : Bool :=
  c.lnum == leader.lnum && c.stage == leader.stage && c.inst == leader.inst && c.rank == leader.rank + j

def State.inMember (s : State) (j : Nat) (f : Context → Context) : State :=
  if j = 0 then { s with ctx := f s.ctx } else { s with others := s.others.map (fun c => if s.ctx.isMember c j then f c else c) }

/-- The drains that a SEL serves. -/
def eastDrain (sel : BitVec 2) : Fin 12 := if sel.toNat < 2 then 8 else 9
def southDrain (sel : BitVec 2) : Fin 12 := if sel.toNat < 2 then 10 else 11

/-- A value written to xh in column 15, or to xv in the last row of the chain, goes to its drain lane. -/
def State.drainOut (s : State) (i : Nat) (r : CellReg) : State :=
  match r with
  | .xh =>
    if colOf i = 15 then
      s.inMember (rowOf i / 16) (fun c => pushLane c (eastDrain s.wave.sel) (Fin.ofNat 16 (rowOf i)) (s.ctx.cell i).xh)
    else s
  | .xv =>
    if rowOf i + 1 = 16 * s.src.chainLen then
      s.inMember (s.src.chainLen - 1) (fun c => pushLane c (southDrain s.wave.sel) (Fin.ofNat 16 (colOf i)) (s.ctx.cell i).xv)
    else s
  | .v _ => s
  | .m _ => s
  | .g _ => s
  | .f => s

/-! ### Faults and events -/

/-- Adds a deferred fault. Two suffice: the first is reported, and a second sets MULTI (R317). -/
def Context.raise (c : Context) (slot kind i : Nat) : Context :=
  let f : DeferredFault := { issue := c.issues, held := false, due := false, kind := BitVec.ofNat 3 kind, slot := BitVec.ofNat 2 slot,
                             row := rowOf i, col := colOf i, addr := c.pc }
  { c with faults := c.faults.filter (·.held) ++ (c.liveFaults ++ [f]).take 2 }

/-- The events of one slot, cell by cell, as records in the order of R129, those only that DTMASK lets through. -/
def dripRecords (dtmask : Word) (addr slot : Nat) (evs : List (Nat × Nat)) : List DripRec :=
  (List.range 6).flatMap (fun b =>
    if dtmask.getLsbD b then
      (evs.filter (fun e => e.2.testBit b)).map (fun e =>
        { count := 1, event := BitVec.ofNat 8 (b + 1), col := BitVec.ofNat 4 (colOf e.1), row := BitVec.ofNat 6 (rowOf e.1),
          slot := BitVec.ofNat 3 slot, addr := BitVec.ofNat 56 addr })
    else [])

/-! ### Running an operation -/

structure WaveAcc where
  s : State
  late : List CellWrite
  evs : List (Nat × Nat)

/-- The slot that first names a register which two slots of a wave word name (R91). -/
def firstNamer : CellReg → Nat
  | .v _ => 0
  | .g _ => 0
  | .f => 0
  | .m _ => 1
  | .xh => 1
  | .xv => 1

/-- The struck words that a cell's reads meet, in its registers (kind 3) and in its store (kind 4). -/
def CellOut.meets (o : CellOut) (i : Nat) (e : CellErr) : Option Nat :=
  match e.reg with
  | some r =>
    if o.reads.any (fun x => x.cell == e.cell && x.reg == r && decide (x.lo < 64 * e.word + 64) && decide (64 * e.word < x.lo + x.len)) then some 3
    else none
  | none =>
    match o.loaded with
    | none => none
    | some (u, n) => if e.cell = i ∧ u ≤ e.word / 8 ∧ e.word / 8 < u + n then some 4 else none

/-- Puts one fixed-latency write in place; a communication register at an edge also drains. -/
def State.applyCell (s : State) (w : CellWrite) : State := ({ s with ctx := s.ctx.applyWrite w } : State).drainOut w.cell w.reg

/-- Struck words that an operation has met are reported once; their bytes stay poisoned until they are written (R317, R320). -/
def State.meetErrs (s : State) (o : CellOut) (i : Nat) : State :=
  { s with ctx := { s.ctx with cellErrs := s.ctx.cellErrs.filter (fun e => (o.meets i e).isNone) } }

/-- Registers that two slots name are poisoned (R91). -/
def State.spoil (s : State) (i : Nat) (rs : List CellReg) : State :=
  rs.foldl (fun s r => s.applyCell ((s.ctx.cell i).poisoned i r 0 r.width)) s

def State.putWrites (s : State) (ws : List CellWrite) : State := ws.foldl State.applyCell s

/-- A write of the cell's store, which mends the struck words that it covers. -/
def State.putStored (s : State) (i : Nat) : Option (Nat × Bits × Nat) → State
  | none => s
  | some (u, b, n) =>
    { s with ctx := { s.ctx.setCell i (fun c => c.storeWrite u b.val b.poi n) with
                        cellErrs := s.ctx.cellErrs.filter (fun e =>
                          !(e.cell == i && e.reg.isNone && decide (u ≤ e.word / 8) && decide (e.word / 8 < u + n))) } }

def State.raiseAll (s : State) (slot i : Nat) (kinds : List Nat) : State :=
  { s with ctx := kinds.foldl (fun c k => c.raise slot k i) s.ctx }

/-- One cell's part of an operation. Under a LAT bound every write of the operation lands with the result, the poison that an illegal word
or a CLD out of bounds writes included (log entry 70). -/
def runCell (slot : Nat) (late : Bool) (op : CellOp) (a : WaveAcc) (i : Nat) : WaveAcc :=
  if a.s.enabled i then
    let o := op a.s i
    let shared := a.s.wave.conflict.filter (fun r => firstNamer r == slot)
    let met := a.s.src.cellErrs.filterMap (o.meets i)
    let writes := o.writes.filter (fun w => !a.s.wave.conflict.contains w.reg)
    { s := ((((a.s.meetErrs o i).spoil i shared).putWrites (if late then [] else writes)).putStored i o.stored).raiseAll slot i
             (o.faults ++ shared.map (fun _ => 0) ++ met)
      late := if late then a.late ++ writes else a.late
      evs := if o.events = 0 then a.evs else a.evs ++ [(i, o.events)] }
  else a

/-- Runs an operation of slot 0 W0, 1 W1 or 2 M in every enabled cell. `late` is the LAT of an operation that has one, and
`accum` marks an accumulating product. -/
def State.runWave (s : State) (slot : Nat) (late : Option Nat) (accum : Bool) (op : CellOp) : State :=
  let a := (List.range s.cellCount).foldl (runCell slot late.isSome op) { s := s, late := [], evs := [] }
  let recs := dripRecords s.src.dtmask s.src.pc slot a.evs
  let c := a.s.ctx
  let c := if recs.isEmpty then c else { c with dripFlights := c.dripFlights ++ [{ due := c.cycle + 34 + c.chainC, recs := recs }] }
  let c := match late with
    | none => c
    | some n => c.owe { dest := .cells, value := 0, writes := a.late, acc := accum, bound := c.boundOf n, made := c.issues, addr := c.pc,
                        poison := none }
  { a.s with ctx := c }

/-! ### The sticky slots (R13) -/

def State.stickW0 (s : State) (i : Option Instr) : State := { s with ctx.sticky.w0 := i }
def State.stickW1 (s : State) (i : Option Instr) : State :=
  { s with ctx.sticky.w1 := i, ctx.sticky.w1n := if i.isNone then 0 else s.wave.w1n }
def State.stickM (s : State) (i : Option Instr) : State :=
  { s with ctx.sticky.m := i, ctx.sticky.mn := if i.isNone then 0 else s.wave.mn }

/-- An illegal wave encoding in one cell: it writes poison to the spans that its destination names, and raises a deferred fault
of kind 0 (R158, R404). -/
def illegalOut (s : State) (i : Nat) (spans : List (CellReg × Nat × Nat)) : CellOut :=
  { CellOut.nothing with writes := spans.map (fun d => (s.src.cell i).poisoned i d.1 d.2.1 d.2.2), faults := [0] }

/-- A whole register. -/
def whole (r : CellReg) : CellReg × Nat × Nat := (r, 0, r.width)

end Sys2Proof.Machine
end

