-- ==== Sys2Proof/Machine/Vector.lean ====
section
/-! DEFINITION. The W0 slot (R133 to R146, R404): element-wise arithmetic, compares, conversions, special functions, reductions and
permutes in one cell. Every operation names the spans it writes, says which encodings are legal, and computes one cell's part. -/

namespace Sys2Proof.Machine

/-! ### Fields (R36) -/

def Fmt.isInt : Fmt → Bool
  | .int _ => true
  | .flt _ => false

/-- Class F of R135. -/
def Fmt.isFloat : Fmt → Bool
  | .int _ => false
  | .flt f => f.ieee

end Sys2Proof.Machine

namespace Sys2Proof

def W0.fmt (w : W0) : Option Machine.Fmt := Machine.fmtOf w.typ.toNat
def W0.sat (w : W0) : Bool := w.var.getLsbD 4
def W0.mode (w : W0) : Machine.Mode := .ofCode (w.var.toNat / 4 % 4)
def W0.low (w : W0) : Nat := w.var.toNat % 4

/-- R135 on VAR: whether .sat is allowed, whether the operation rounds, and the largest value of VAR[1:0] that it uses. -/
def W0.varOk (w : W0) (f : Machine.Fmt) (sat rounds : Bool) (low : Nat) : Bool :=
  (sat || !w.sat) && (w.var.toNat / 4 % 4 == 0 || (rounds && !f.isInt)) && decide (w.low ≤ low)

end Sys2Proof

namespace Sys2Proof.Machine

/-! ### Registers as elements (R110, R133) -/

def eltVal (b : Bits) (w j : Nat) : Nat := b.val / 2 ^ (w * j) % 2 ^ w

/-- An element is poisoned when any of its bytes is marked. -/
def eltPoi (b : Bits) (w j : Nat) : Bool := b.poi / 2 ^ (w * j / 8) % 2 ^ ((w + 7) / 8) != 0

/-- The marks of an element's bytes. -/
def eltMarks (b : Bits) (w j : Nat) : Nat := b.poi / 2 ^ (w * j / 8) % 2 ^ ((w + 7) / 8)

/-- A computed element, with the events it raises. -/
structure Elt where
  val : Nat
  /-- The marks of its bytes. -/
  marks : Nat
  ev : Nat
  deriving DecidableEq, Repr

def packVals (w : Nat) : List Elt → Nat
  | [] => 0
  | e :: r => e.val % 2 ^ w + 2 ^ w * packVals w r

/-- The marks of elements from number `j` on; a 4-bit element marks the byte it shares. -/
def packPois (w j : Nat) : List Elt → Nat
  | [] => 0
  | e :: r => (e.marks * 2 ^ (w * j / 8)) ||| packPois w (j + 1) r

def eltEvents (l : List Elt) : Nat := l.foldl (fun a e => a ||| e.ev) 0

/-- An element computed from operands: poison replaces the value and its events (R128, log entry 5). -/
def State.elt (s : State) (i j w : Nat) (poisoned : Bool) (r : Nat × Nat) : Elt :=
  if poisoned then ⟨Config.underPoison (s.cellKey i j) w % 2 ^ w, 2 ^ ((w + 7) / 8) - 1, evPsn⟩ else ⟨r.1, 0, r.2⟩

/-- The whole of a vector register. -/
def vecWrite (i d w : Nat) (l : List Elt) : CellWrite :=
  { cell := i, reg := .v (Fin.ofNat 32 d), lo := 0, len := 4096, val := packVals w l, poi := packPois w 0 l }

def lanes (w : Nat) : Nat := 4096 / w

/-- A vector register read as elements of `w` bits, and a mask register. -/
def State.vreg (s : State) (i n w : Nat) : Bits := s.cellReg i (.v (Fin.ofNat 32 n)) false w
def State.greg (s : State) (i n : Nat) : Bits := s.cellReg i (.g (Fin.ofNat 8 n)) false 1

def vName (i n : Nat) : RegRead := .whole i (.v (Fin.ofNat 32 n))
def gName (i n : Nat) : RegRead := .whole i (.g (Fin.ofNat 8 n))

/-- One vector register written, with the registers read. -/
def vecOut (i d w : Nat) (reads : List RegRead) (l : List Elt) : CellOut :=
  { CellOut.nothing with writes := [vecWrite i d w l], reads := reads, events := eltEvents l }

/-! ### Destinations (R140, R404) -/

/-- A span of a destination: a register with its lowest bit and its number of bits. -/
abbrev Span := CellReg × Nat × Nat

def vSpan (d : Nat) : List Span := [whole (.v (Fin.ofNat 32 d))]
def gSpan (d : Nat) : List Span := if d < 8 then [whole (.g (Fin.ofNat 8 d))] else []

/-- A group of `rho` registers when it is aligned, else its first. -/
def groupSpans (d rho : Nat) : List Span := if d % rho = 0 then (List.range rho).flatMap (fun k => vSpan (d + k)) else vSpan d

/-- An operation that is legal in some formats. -/
def w0Cell (w : W0) (spans : List Span) (legal : Fmt → Bool) (act : Fmt → CellOp) : CellOp := fun s i =>
  match w.fmt with
  | none => illegalOut s i spans
  | some f => if legal f then act f s i else illegalOut s i spans

/-- Sends a W0 operation over the grid and makes it sticky. -/
def runW0 (i : Instr) (late : Option Nat) (op : CellOp) (s : State) : Host.Outcome State Fault Refusal :=
  .next ((s.runWave 0 late false op).stickW0 (some i))

/-! ### Element-wise arithmetic (R136) -/

def eltwise1 (w : W0) (f : Fmt) (g : Nat → Nat × Nat) : CellOp := fun s i =>
  let a := s.vreg i w.a.toNat f.width
  vecOut i w.d.toNat f.width [vName i w.a.toNat]
    ((List.range (lanes f.width)).map (fun j => s.elt i j f.width (eltPoi a f.width j) (g (eltVal a f.width j))))

def eltwise2 (w : W0) (f : Fmt) (g : Nat → Nat → Nat × Nat) : CellOp := fun s i =>
  let a := s.vreg i w.a.toNat f.width
  let b := s.vreg i w.b.toNat f.width
  vecOut i w.d.toNat f.width [vName i w.a.toNat, vName i w.b.toNat]
    ((List.range (lanes f.width)).map (fun j =>
      s.elt i j f.width (eltPoi a f.width j || eltPoi b f.width j) (g (eltVal a f.width j) (eltVal b f.width j))))

def eltwise3 (w : W0) (f : Fmt) (g : Nat → Nat → Nat → Nat × Nat) : CellOp := fun s i =>
  let a := s.vreg i w.a.toNat f.width
  let b := s.vreg i w.b.toNat f.width
  let d := s.vreg i w.d.toNat f.width
  vecOut i w.d.toNat f.width [vName i w.a.toNat, vName i w.b.toNat, vName i w.d.toNat]
    ((List.range (lanes f.width)).map (fun j =>
      s.elt i j f.width (eltPoi a f.width j || eltPoi b f.width j || eltPoi d f.width j)
        (g (eltVal a f.width j) (eltVal b f.width j) (eltVal d f.width j))))

/-- A value rounded once, with the invalid event of its computation. -/
def FFmt.settle (f : FFmt) (md : Mode) (sat : Bool) (v : Val × Bool) : Nat × Nat :=
  let r := f.roundVal md sat v.1
  (r.1, r.2 ||| (if v.2 then evInv else 0))

def fmtAdd (f : Fmt) (md : Mode) (sat : Bool) (a b : Nat) : Nat × Nat :=
  match f with
  | .int g => g.put sat (g.value a + g.value b)
  | .flt g => g.settle md sat (Val.add md (g.value a) (g.value b))

def fmtSub (f : Fmt) (md : Mode) (sat : Bool) (a b : Nat) : Nat × Nat :=
  match f with
  | .int g => g.put sat (g.value a - g.value b)
  | .flt g => g.settle md sat (Val.add md (g.value a) (g.value b).neg)

def fmtMul (f : Fmt) (md : Mode) (sat : Bool) (a b : Nat) : Nat × Nat :=
  match f with
  | .int g => g.put sat (g.value a * g.value b)
  | .flt g => g.settle md sat (Val.mul (g.value a) (g.value b))

/-- The exact sum of an addend and a product, or of its negative; both may be invalid. -/
def fusedVal (md : Mode) (minus : Bool) (a b d : Val) : Val × Bool :=
  let (p, bad) := Val.mul a b
  let (v, bad') := Val.add md d (if minus then p.neg else p)
  (v, bad || bad')

def fmtFma (f : Fmt) (md : Mode) (sat minus : Bool) (a b d : Nat) : Nat × Nat :=
  match f with
  | .int g => g.put sat (if minus then g.value d - g.value a * g.value b else g.value a * g.value b + g.value d)
  | .flt g => g.settle md sat (fusedVal md minus (g.value a) (g.value b) (g.value d))

/-- Minimum, or maximum, under R119; it rounds nothing. -/
def fmtMinMax (f : Fmt) (max : Bool) (a b : Nat) : Nat × Nat :=
  match f with
  | .int g => if (g.value b < g.value a) = (max = false) then (b, 0) else (a, 0)
  | .flt g =>
    match Val.lt (g.value b) (g.value a) with
    | none => (g.nan, 0)
    | some less => if less = !max then (b, 0) else (a, 0)

def Val.abs : Val → Val
  | .nan => .nan
  | .inf _ => .inf false
  | .fin _ m e => .fin false m e

def fmtAbs (f : Fmt) (md : Mode) (sat : Bool) (a : Nat) : Nat × Nat :=
  match f with
  | .int g => g.put sat |g.value a|
  | .flt g => g.roundVal md sat (g.value a).abs

def fmtNeg (f : Fmt) (md : Mode) (sat : Bool) (a : Nat) : Nat × Nat :=
  match f with
  | .int g => g.put sat (-g.value a)
  | .flt g => g.roundVal md sat (g.value a).neg

def cellVadd (w : W0) : CellOp := w0Cell w (vSpan w.d.toNat) (fun f => w.varOk f true true 0) (fun f => eltwise2 w f (fmtAdd f w.mode w.sat))
def cellVsub (w : W0) : CellOp := w0Cell w (vSpan w.d.toNat) (fun f => w.varOk f true true 0) (fun f => eltwise2 w f (fmtSub f w.mode w.sat))
def cellVmul (w : W0) : CellOp := w0Cell w (vSpan w.d.toNat) (fun f => w.varOk f true true 0) (fun f => eltwise2 w f (fmtMul f w.mode w.sat))
def cellVfma (w : W0) : CellOp :=
  w0Cell w (vSpan w.d.toNat) (fun f => w.varOk f true true 0) (fun f => eltwise3 w f (fmtFma f w.mode w.sat false))
def cellVfms (w : W0) : CellOp :=
  w0Cell w (vSpan w.d.toNat) (fun f => w.varOk f true true 0) (fun f => eltwise3 w f (fmtFma f w.mode w.sat true))
def cellVmin (w : W0) : CellOp := w0Cell w (vSpan w.d.toNat) (fun f => w.varOk f false true 0) (fun f => eltwise2 w f (fmtMinMax f false))
def cellVmax (w : W0) : CellOp := w0Cell w (vSpan w.d.toNat) (fun f => w.varOk f false true 0) (fun f => eltwise2 w f (fmtMinMax f true))
def cellVabs (w : W0) : CellOp :=
  w0Cell w (vSpan w.d.toNat) (fun f => w.varOk f true true 0 && w.b == 0) (fun f => eltwise1 w f (fmtAbs f w.mode w.sat))
def cellVneg (w : W0) : CellOp :=
  w0Cell w (vSpan w.d.toNat) (fun f => w.varOk f true true 0 && w.b == 0) (fun f => eltwise1 w f (fmtNeg f w.mode w.sat))

/-! ### Logic and shifts (R137) -/

def bitwise (w : W0) (g : Nat → Nat → Nat) : CellOp :=
  w0Cell w (vSpan w.d.toNat) (fun f => f.isInt && w.varOk f false false 0) (fun f => eltwise2 w f (fun a b => (g a b, 0)))

def cellVand (w : W0) : CellOp := bitwise w (fun a b => a &&& b)
def cellVor (w : W0) : CellOp := bitwise w (fun a b => a ||| b)
def cellVxor (w : W0) : CellOp := bitwise w (fun a b => a ^^^ b)

def shlBits (n a k : Nat) : Nat := a * 2 ^ k % 2 ^ n
def shrBits (_ a k : Nat) : Nat := a / 2 ^ k

/-- Copies of bit n − 1 come in, in every format. -/
def sraBits (n a k : Nat) : Nat := ((({ width := n, signed := true } : IFmt).value a / 2 ^ k) % 2 ^ n).toNat

/-- The amount is B_j modulo the width, or the B field when VAR[0] = 1. -/
def shift (w : W0) (g : Nat → Nat → Nat → Nat) : CellOp :=
  w0Cell w (vSpan w.d.toNat) (fun f => f.isInt && w.varOk f false false 1) (fun f =>
    if w.low = 1 then eltwise1 w f (fun a => (g f.width a (w.b.toNat % f.width), 0))
    else eltwise2 w f (fun a b => (g f.width a (b % f.width), 0)))

def cellVshl (w : W0) : CellOp := shift w shlBits
def cellVshr (w : W0) : CellOp := shift w shrBits
def cellVsra (w : W0) : CellOp := shift w sraBits

/-! ### Compares, masks and the flag (R138, R139) -/

/-- Whether A is below B; none when a NaN takes part. -/
def Fmt.less (f : Fmt) (a b : Nat) : Option Bool :=
  match f with
  | .int g => some (decide (g.value a < g.value b))
  | .flt g => Val.lt (g.value a) (g.value b)

def Fmt.holds (f : Fmt) (cc a b : Nat) : Bool :=
  match f.less a b, f.less b a with
  | some l, some g =>
    match cc with
    | 0 => !l && !g
    | 1 => l || g
    | 2 => l
    | 3 => !g
    | 4 => g
    | _ => !l
  | _, _ => cc == 1

/-- A mask register from one bit for each element; the bits above are zero. -/
def maskWrite (i g : Nat) (l : List Elt) : CellWrite :=
  { cell := i, reg := .g (Fin.ofNat 8 g), lo := 0, len := 1024, val := packVals 1 l, poi := packVals 1 (l.map (fun e => ⟨e.marks, 0, 0⟩)) }

def cellVcmp (w : W0) : CellOp :=
  w0Cell w (gSpan w.d.toNat) (fun _ => decide (w.var.toNat < 6) && decide (w.d.toNat < 8)) (fun f s i =>
    let a := s.vreg i w.a.toNat f.width
    let b := s.vreg i w.b.toNat f.width
    let l := (List.range (lanes f.width)).map (fun j =>
      s.elt i j 1 (eltPoi a f.width j || eltPoi b f.width j) ((f.holds w.var.toNat (eltVal a f.width j) (eltVal b f.width j)).toNat, 0))
    { CellOut.nothing with writes := [maskWrite i w.d.toNat l], reads := [vName i w.a.toNat, vName i w.b.toNat], events := eltEvents l })

/-- A poisoned mask bit, or a poisoned element where it is the one copied, poisons the result element. -/
def cellVsel (w : W0) : CellOp :=
  w0Cell w (vSpan w.d.toNat) (fun f => w.varOk f false false 0 && decide (w.b.toNat < 8)) (fun f s i =>
    let a := s.vreg i w.a.toNat f.width
    let d := s.vreg i w.d.toNat f.width
    let g := s.greg i w.b.toNat
    vecOut i w.d.toNat f.width [vName i w.a.toNat, gName i w.b.toNat, vName i w.d.toNat]
      ((List.range (lanes f.width)).map (fun j =>
        let x := if g.val.testBit j then a else d
        s.elt i j f.width (g.poi.testBit j || eltPoi x f.width j) (eltVal x f.width j, 0))))

def cellVmask (w : W0) : CellOp :=
  w0Cell w (gSpan w.d.toNat) (fun _ => w.typ == 0 && decide (w.var.toNat < 4) && decide (w.d.toNat < 8) && decide (w.a.toNat < 8) &&
      decide (w.b.toNat < 8)) (fun _ s i =>
    let a := s.greg i w.a.toNat
    let b := s.greg i w.b.toNat
    let op (x y : Nat) : Nat :=
      match w.low with
      | 0 => x &&& y
      | 1 => x ||| y
      | 2 => x ^^^ y
      | _ => x ^^^ (x &&& y)
    let l := (List.range 1024).map (fun j => s.elt i j 1 ((a.poi ||| b.poi).testBit j)
      (op (eltVal a 1 j) (eltVal b 1 j), 0))
    { CellOut.nothing with writes := [maskWrite i w.d.toNat l], reads := [gName i w.a.toNat, gName i w.b.toNat], events := eltEvents l })

/-- The flag. -/
def flagWrite (i : Nat) (e : Elt) : CellWrite := { cell := i, reg := .f, lo := 0, len := 1, val := e.val, poi := e.marks }

def cellVflag (w : W0) : CellOp :=
  w0Cell w [whole .f] (fun f => w.varOk f false false 3 && w.d == 0 && w.b == 0 && decide (w.a.toNat < 8)) (fun f s i =>
    let a := s.greg i w.a.toNat
    let n := lanes f.width
    let bits := a.val % 2 ^ n
    let r := if w.low % 2 = 1 then decide (bits = 2 ^ n - 1) else decide (bits ≠ 0)
    let e := s.elt i 0 1 (decide (a.poi % 2 ^ n ≠ 0)) ((r != decide (2 ≤ w.low)).toNat, 0)
    { CellOut.nothing with writes := [flagWrite i e], reads := [gName i w.a.toNat], events := e.ev })

/-! ### Conversions and widening (R140 to R143) -/

/-- The writes of a destination group: register `k` holds at position `p` the element `g k p`. -/
def groupOut (i d w rho : Nat) (reads : List RegRead) (g : Nat → Nat → Elt) : CellOut :=
  let regs := (List.range rho).map (fun k => (d + k, (List.range (lanes w)).map (g k)))
  { CellOut.nothing with writes := regs.map (fun r => vecWrite i r.1 w r.2), reads := reads,
                         events := regs.foldl (fun a r => a ||| eltEvents r.2) 0 }

def groupNames (i a rho : Nat) : List RegRead := (List.range rho).map (fun k => vName i (a + k))

/-- VCVT's source format code. -/
def cvtSource (w : W0) : Nat := w.var.toNat % 2 * 32 + w.b.toNat

/-- The registers of the wider side of a conversion, if that is the destination. -/
def cvtSpans (w : W0) : List Span :=
  match w.fmt, fmtOf (cvtSource w) with
  | some f, some g => groupSpans w.d.toNat (if g.width < f.width then f.width / g.width else 1)
  | _, _ => vSpan w.d.toNat

/-- Conversion legality, given both formats (R141). -/
def cvtLegal (w : W0) (f g : Fmt) : Bool :=
  decide (w.low < 2) && (w.var.toNat / 4 % 4 == 0 || !(f.isInt && g.isInt)) &&
    (if g.width < f.width then w.d.toNat % (f.width / g.width) == 0 else w.a.toNat % (g.width / f.width) == 0)

def cellVcvt (w : W0) : CellOp := fun s i =>
  match w.fmt, fmtOf (cvtSource w) with
  | some f, some g =>
    if !cvtLegal w f g then illegalOut s i (cvtSpans w)
    else if g.width < f.width then
      let rho := f.width / g.width
      let a := s.vreg i w.a.toNat g.width
      groupOut i w.d.toNat f.width rho [vName i w.a.toNat] (fun k p =>
        s.elt i (p * rho + k) f.width (eltPoi a g.width (rho * p + k)) (convert g f w.mode w.sat (eltVal a g.width (rho * p + k))))
    else
      let rho := g.width / f.width
      let as := (List.range rho).map (fun k => s.vreg i (w.a.toNat + k) g.width)
      groupOut i w.d.toNat f.width 1 (groupNames i w.a.toNat rho) (fun _ j =>
        let a := as.getD (j % rho) ⟨0, 0⟩
        s.elt i j f.width (eltPoi a g.width (j / rho)) (convert g f w.mode w.sat (eltVal a g.width (j / rho))))
  | _, _ => illegalOut s i (cvtSpans w)

/-- The wide format of R142; none for the formats it does not list. -/
def wideOf : Fmt → Option Fmt
  | .int g => if g.width = 8 ∨ g.width = 16 then some (.int { width := 32, signed := g.signed }) else none
  | .flt g => if g.width = 32 then none else some (.flt fmtF32)

def wideSpans (w : W0) : List Span :=
  match w.fmt with
  | none => vSpan w.d.toNat
  | some f => if (wideOf f).isSome then groupSpans w.d.toNat (32 / f.width) else vSpan w.d.toNat

/-- A wide product, with an addend of the wide format when there is one. -/
def wideFma (f : Fmt) (md : Mode) (sat : Bool) (a b : Nat) (d : Option Nat) : Nat × Nat :=
  match f with
  | .int g =>
    let h : IFmt := { width := 32, signed := g.signed }
    h.put sat (g.value a * g.value b + (match d with | none => 0 | some x => h.value x))
  | .flt g =>
    match d with
    | none => fmtF32.settle md sat (Val.mul (g.value a) (g.value b))
    | some x => fmtF32.settle md sat (fusedVal md false (g.value a) (g.value b) (fmtF32.value x))

/-- VWMUL and VWFMA. -/
def wideCell (w : W0) (adds : Bool) : CellOp :=
  w0Cell w (wideSpans w) (fun f => (wideOf f).isSome && w.varOk f true true 0 && decide (w.d.toNat % (32 / f.width) = 0)) (fun f s i =>
    let rho := 32 / f.width
    let a := s.vreg i w.a.toNat f.width
    let b := s.vreg i w.b.toNat f.width
    let ds := (List.range rho).map (fun k => s.vreg i (w.d.toNat + k) 32)
    groupOut i w.d.toNat 32 rho
      ([vName i w.a.toNat, vName i w.b.toNat] ++ if adds then groupNames i w.d.toNat rho else []) (fun k p =>
        let j := rho * p + k
        let d := ds.getD k ⟨0, 0⟩
        s.elt i j 32 (eltPoi a f.width j || eltPoi b f.width j || (adds && eltPoi d 32 p))
          (wideFma f w.mode w.sat (eltVal a f.width j) (eltVal b f.width j) (if adds then some (eltVal d 32 p) else none))))

def cellVwmul (w : W0) : CellOp := wideCell w false
def cellVwfma (w : W0) : CellOp := wideCell w true

/-- The exact sum of products (R122, R123): a NaN operand gives NaN without an event; 0 × ∞ and ∞ − ∞ give an invalid NaN. -/
def groupSum (ps : List (Val × Val)) : Val × Bool :=
  if ps.any (fun p => p.1.isNan || p.2.isNan) then (.nan, false)
  else
    ps.foldl (fun a p =>
      let (x, bad) := Val.mul p.1 p.2
      let (y, bad') := Val.add .rne a.1 x
      (y, a.2 || bad || bad')) (.fin false 0 0, false)

/-- A group that is not exactly zero is applied to an f32 accumulator (R123). -/
def applyGroup (md : Mode) (sat : Bool) (acc : Nat) (g : Val × Bool) : Nat × Nat :=
  let (v, bad) := Val.add md (fmtF32.value acc) g.1
  fmtF32.settle md sat (v, bad || g.2)

/-- One element of VDOT: none when its group is exactly zero. -/
def dotElt (f : Fmt) (md : Mode) (sat : Bool) (ps : List (Nat × Nat)) (d : Nat) : Option (Nat × Nat) :=
  match f with
  | .int g =>
    let h : IFmt := { width := 32, signed := g.signed }
    let x := (ps.map (fun p => g.value p.1 * g.value p.2)).sum
    if x = 0 then none else some (h.put sat (h.value d + x))
  | .flt g =>
    let x := groupSum (ps.map (fun p => (g.value p.1, g.value p.2)))
    if x.1.isZero then none else some (applyGroup md sat d x)

/-- An accumulated element: a group read from poison poisons it, an exactly zero group leaves it as it is, marks and all, and any
other group on a poisoned element leaves it poisoned (R123, R128, R164). -/
def State.accElt (s : State) (i j : Nat) (acc : Bits) (poisoned : Bool) (r : Option (Nat × Nat)) : Elt :=
  if poisoned then s.elt i j 32 true (0, 0)
  else
    match r with
    | none => ⟨eltVal acc 32 j, eltMarks acc 32 j, 0⟩
    | some x => s.elt i j 32 (eltPoi acc 32 j) x

def cellVdot (w : W0) : CellOp :=
  w0Cell w (vSpan w.d.toNat) (fun f => (wideOf f).isSome && w.varOk f true true 0) (fun f s i =>
    let rho := 32 / f.width
    let a := s.vreg i w.a.toNat f.width
    let b := s.vreg i w.b.toNat f.width
    let d := s.vreg i w.d.toNat 32
    vecOut i w.d.toNat 32 [vName i w.a.toNat, vName i w.b.toNat, vName i w.d.toNat]
      ((List.range (lanes 32)).map (fun p =>
        let js := (List.range rho).map (fun k => rho * p + k)
        s.accElt i p d (js.any (fun j => eltPoi a f.width j || eltPoi b f.width j))
          (dotElt f w.mode w.sat (js.map (fun j => (eltVal a f.width j, eltVal b f.width j))) (eltVal d 32 p)))))

/-- A_j × 2^B_j. Beyond ±1,000 every exponent over- or underflows every format alike. -/
def scaleElt (g : FFmt) (md : Mode) (sat : Bool) (a b : Nat) : Nat × Nat :=
  let e := ({ width := g.width, signed := true } : IFmt).value b
  g.roundVal md sat ((g.value a).shift (max (-1000) (min 1000 e)))

def cellVscale (w : W0) : CellOp :=
  w0Cell w (vSpan w.d.toNat) (fun f => !f.isInt && w.varOk f true true 0) (fun f =>
    match f with
    | .int _ => eltwise2 w f (fun a _ => (a, 0))
    | .flt g => eltwise2 w f (scaleElt g w.mode w.sat))

/-- The codes of VCLASS. -/
def classOf (g : FFmt) (a : Nat) : Nat :=
  match g.value a with
  | .nan => 0
  | .inf true => 1
  | .inf false => 8
  | .fin neg m _ =>
    if m = 0 then (if neg then 4 else 5)
    else if m < 2 ^ g.t then (if neg then 3 else 6)
    else if neg then 2 else 7

def cellVclass (w : W0) : CellOp :=
  w0Cell w (vSpan w.d.toNat) (fun f => !f.isInt && w.varOk f false false 0 && w.b == 0) (fun f =>
    match f with
    | .int _ => eltwise1 w f (fun a => (a, 0))
    | .flt g => eltwise1 w f (fun a => (classOf g a, 0)))

/-! ### Special functions (R144) -/

def specialCell (w : W0) (fn : SpecialFn) : CellOp :=
  w0Cell w (vSpan w.d.toNat) (fun f => f.isFloat && decide (w.var.toNat < 16) && w.b == 0) (fun f =>
    match f with
    | .int _ => eltwise1 w f (fun a => (a, 0))
    | .flt g => eltwise1 w f (special1 fn g))

def cellVexp2 (w : W0) : CellOp :=
  w0Cell w (vSpan w.d.toNat) Fmt.isFloat (fun f =>
    match f with
    | .int _ => eltwise1 w f (fun a => (a, 0))
    | .flt g =>
      if w.var.getLsbD 4 then eltwise3 w f (fun a m d => specialExp2 g a m d true)
      else eltwise2 w f (fun a m => specialExp2 g a m 0 false))

def cellVlog2 (w : W0) : CellOp := specialCell w .log2
def cellVrcp (w : W0) : CellOp := specialCell w .rcp
def cellVrsq (w : W0) : CellOp := specialCell w .rsq
def cellVsqrt (w : W0) : CellOp := specialCell w .sqrt
def cellVsinp (w : W0) : CellOp := specialCell w .sinp
def cellVcosp (w : W0) : CellOp := specialCell w .cosp
def cellVtanh (w : W0) : CellOp := specialCell w .tanh

/-! ### Reductions (R124, R145) -/

/-- One level of the pairwise tree: an odd last element passes up unchanged. -/
def treeLevel (node : Val → Val → Val × Nat) : List Val → List Val × Nat
  | a :: b :: r =>
    let (x, e) := node a b
    let (xs, e') := treeLevel node r
    (x :: xs, e ||| e')
  | l => (l, 0)

/-- The tree over a list, `fuel` levels at most. -/
def treeFold (node : Val → Val → Val × Nat) : Nat → List Val → Val × Nat
  | 0, l => (l.headD .nan, 0)
  | n + 1, l =>
    match l with
    | [x] => (x, 0)
    | l =>
      let (xs, e) := treeLevel node l
      let (v, e') := treeFold node n xs
      (v, e ||| e')

/-- A node of a sum: one rounding to f32. -/
def sumNode (a b : Val) : Val × Nat :=
  let r := fmtF32.settle .rne false (Val.add .rne a b)
  (fmtF32.value r.1, r.2)

/-- A node of a minimum or a maximum (R119). -/
def minMaxNode (max : Bool) (a b : Val) : Val × Nat :=
  match Val.lt b a with
  | none => (.nan, 0)
  | some less => (if less = !max then b else a, 0)

/-- The sum of a group. An i32 tree that wraps at each node is the sum modulo 2^32. -/
def sumGroup (f : Fmt) (md : Mode) (sat : Bool) (l : List Nat) : Nat × Nat :=
  match f with
  | .int g =>
    let h : IFmt := { width := 32, signed := true }
    g.put sat (h.value (h.wrap ((l.map g.value).sum)))
  | .flt g =>
    let (v, e) := treeFold sumNode 10 (l.map g.value)
    let r := g.roundVal md false v
    (r.1, r.2 ||| e)

def minMaxGroup (max : Bool) (f : Fmt) (l : List Nat) : Nat × Nat :=
  match f with
  | .int _ =>
    match l with
    | [] => (0, 0)
    | x :: r => (r.foldl (fun a b => (fmtMinMax f max a b).1) x, 0)
  | .flt g => (g.roundVal .rne false (treeFold (minMaxNode max) 10 (l.map g.value)).1 |>.1, 0)

/-- The group size that VAR[1:0] selects. -/
def groupSize (w : W0) (n : Nat) : Nat :=
  match w.low with
  | 0 => n
  | 1 => 4
  | 2 => 16
  | _ => 64

def reduceOut (w : W0) (f : Fmt) (g : List Nat → Nat × Nat) : CellOp := fun s i =>
  let a := s.vreg i w.a.toNat f.width
  let n := lanes f.width
  let size := groupSize w n
  vecOut i w.d.toNat f.width [vName i w.a.toNat]
    ((List.range n).map (fun k =>
      if k < n / size then
        let js := (List.range size).map (fun t => size * k + t)
        s.elt i k f.width (js.any (eltPoi a f.width)) (g (js.map (eltVal a f.width)))
      else ⟨0, 0, 0⟩))

def cellVrsum (w : W0) : CellOp :=
  w0Cell w (vSpan w.d.toNat) (fun f => w.varOk f f.isInt true 3) (fun f => reduceOut w f (sumGroup f w.mode w.sat))
def cellVrmax (w : W0) : CellOp :=
  w0Cell w (vSpan w.d.toNat) (fun f => w.varOk f false false 3) (fun f => reduceOut w f (minMaxGroup true f))
def cellVrmin (w : W0) : CellOp :=
  w0Cell w (vSpan w.d.toNat) (fun f => w.varOk f false false 3) (fun f => reduceOut w f (minMaxGroup false f))

/-! ### Permutes, broadcasts and moves (R146) -/

/-- The element and marks that position `j` of VPERM's block receives. A poisoned index poisons it, without an event. -/
def permElt (s : State) (i w n : Nat) (a b : Bits) (j : Nat) : Elt :=
  let idx := eltVal b 16 j
  if eltPoi b 16 j then { s.elt i j w true (0, 0) with ev := 0 }
  else if idx < n then ⟨eltVal a w idx, eltMarks a w idx, 0⟩
  else ⟨0, 0, 0⟩

def cellVperm (w : W0) : CellOp :=
  w0Cell w (vSpan w.d.toNat) (fun f => w.varOk f false false 3 && decide (256 * w.low < lanes f.width)) (fun f s i =>
    let a := s.vreg i w.a.toNat f.width
    let b := s.vreg i w.b.toNat 16
    let n := lanes f.width
    let l := (List.range (min n 256)).map (permElt s i f.width n a b)
    { CellOut.nothing with
      writes := [{ cell := i, reg := .v (Fin.ofNat 32 w.d.toNat), lo := f.width * (256 * w.low), len := f.width * min n 256,
                   val := packVals f.width l * 2 ^ (f.width * (256 * w.low)), poi := packPois f.width (256 * w.low) l }]
      reads := [vName i w.a.toNat, vName i w.b.toNat] })

def cellVbcst (w : W0) : CellOp :=
  w0Cell w (vSpan w.d.toNat) (fun f => w.varOk f false false 3) (fun f s i =>
    let a := s.vreg i w.a.toNat f.width
    let k := w.low * 32 + w.b.toNat
    vecOut i w.d.toNat f.width [(vName i w.a.toNat).part (f.width * k) f.width] (List.replicate (lanes f.width) ⟨eltVal a f.width k, eltMarks a f.width k, 0⟩))

/-- Every element of vD gets one computed value. -/
def fillOut (w : W0) (f : Fmt) (g : Nat → Nat × Nat) : CellOp := fun _ i =>
  vecOut i w.d.toNat f.width [] ((List.range (lanes f.width)).map (fun j => ⟨(g j).1, 0, (g j).2⟩))

/-- The value of VMOVI's immediate {VAR[1:0], A, B}. -/
def moviVal (w : W0) (f : Fmt) : Nat × Nat :=
  let imm := w.low * 1024 + w.a.toNat * 32 + w.b.toNat
  match f with
  | .int g => (g.wrap (({ width := 12, signed := true } : IFmt).value imm), 0)
  | .flt g => g.roundVal .rne false (fmtF32.value (imm * 2 ^ 20))

def cellVmovi (w : W0) : CellOp :=
  w0Cell w (vSpan w.d.toNat) (fun f => w.varOk f false false 3) (fun f => fillOut w f (fun _ => moviVal w f))

def cellVmov (w : W0) : CellOp :=
  w0Cell w (vSpan w.d.toNat) (fun f => w.varOk f false false 0 && w.b == 0) (fun f s i =>
    let a := s.vreg i w.a.toNat f.width
    { CellOut.nothing with
      writes := [{ cell := i, reg := .v (Fin.ofNat 32 w.d.toNat), lo := 0, len := 4096, val := a.val, poi := a.poi }]
      reads := [vName i w.a.toNat] })

def iotaVal (f : Fmt) (j : Nat) : Nat × Nat :=
  match f with
  | .int g => (j % 2 ^ g.width, 0)
  | .flt g => g.roundVal .rne false (.fin false j 0)

def cellViota (w : W0) : CellOp :=
  w0Cell w (vSpan w.d.toNat) (fun f => w.varOk f false false 0 && w.a == 0 && w.b == 0) (fun f => fillOut w f (iotaVal f))

/-! ### The meanings -/

def execVnop (s : State) : Host.Outcome State Fault Refusal := .next (s.stickW0 none)
def execVadd (w : W0) (s : State) : Host.Outcome State Fault Refusal := runW0 (.vadd w) none (cellVadd w) s
def execVsub (w : W0) (s : State) : Host.Outcome State Fault Refusal := runW0 (.vsub w) none (cellVsub w) s
def execVmul (w : W0) (s : State) : Host.Outcome State Fault Refusal := runW0 (.vmul w) none (cellVmul w) s
def execVfma (w : W0) (s : State) : Host.Outcome State Fault Refusal := runW0 (.vfma w) none (cellVfma w) s
def execVfms (w : W0) (s : State) : Host.Outcome State Fault Refusal := runW0 (.vfms w) none (cellVfms w) s
def execVmin (w : W0) (s : State) : Host.Outcome State Fault Refusal := runW0 (.vmin w) none (cellVmin w) s
def execVmax (w : W0) (s : State) : Host.Outcome State Fault Refusal := runW0 (.vmax w) none (cellVmax w) s
def execVabs (w : W0) (s : State) : Host.Outcome State Fault Refusal := runW0 (.vabs w) none (cellVabs w) s
def execVneg (w : W0) (s : State) : Host.Outcome State Fault Refusal := runW0 (.vneg w) none (cellVneg w) s
def execVand (w : W0) (s : State) : Host.Outcome State Fault Refusal := runW0 (.vand w) none (cellVand w) s
def execVor (w : W0) (s : State) : Host.Outcome State Fault Refusal := runW0 (.vor w) none (cellVor w) s
def execVxor (w : W0) (s : State) : Host.Outcome State Fault Refusal := runW0 (.vxor w) none (cellVxor w) s
def execVshl (w : W0) (s : State) : Host.Outcome State Fault Refusal := runW0 (.vshl w) none (cellVshl w) s
def execVshr (w : W0) (s : State) : Host.Outcome State Fault Refusal := runW0 (.vshr w) none (cellVshr w) s
def execVsra (w : W0) (s : State) : Host.Outcome State Fault Refusal := runW0 (.vsra w) none (cellVsra w) s
def execVcmp (w : W0) (s : State) : Host.Outcome State Fault Refusal := runW0 (.vcmp w) none (cellVcmp w) s
def execVsel (w : W0) (s : State) : Host.Outcome State Fault Refusal := runW0 (.vsel w) none (cellVsel w) s
def execVcvt (w : W0) (s : State) : Host.Outcome State Fault Refusal := runW0 (.vcvt w) none (cellVcvt w) s
def execVwmul (w : W0) (s : State) : Host.Outcome State Fault Refusal := runW0 (.vwmul w) none (cellVwmul w) s
def execVwfma (w : W0) (s : State) : Host.Outcome State Fault Refusal := runW0 (.vwfma w) none (cellVwfma w) s
def execVdot (w : W0) (s : State) : Host.Outcome State Fault Refusal := runW0 (.vdot w) none (cellVdot w) s
def execVscale (w : W0) (s : State) : Host.Outcome State Fault Refusal := runW0 (.vscale w) none (cellVscale w) s
def execVclass (w : W0) (s : State) : Host.Outcome State Fault Refusal := runW0 (.vclass w) none (cellVclass w) s
def execVexp2 (w : W0) (s : State) : Host.Outcome State Fault Refusal := runW0 (.vexp2 w) (some (w.var.toNat % 16)) (cellVexp2 w) s
def execVlog2 (w : W0) (s : State) : Host.Outcome State Fault Refusal := runW0 (.vlog2 w) (some (w.var.toNat % 16)) (cellVlog2 w) s
def execVrcp (w : W0) (s : State) : Host.Outcome State Fault Refusal := runW0 (.vrcp w) (some (w.var.toNat % 16)) (cellVrcp w) s
def execVrsq (w : W0) (s : State) : Host.Outcome State Fault Refusal := runW0 (.vrsq w) (some (w.var.toNat % 16)) (cellVrsq w) s
def execVsqrt (w : W0) (s : State) : Host.Outcome State Fault Refusal := runW0 (.vsqrt w) (some (w.var.toNat % 16)) (cellVsqrt w) s
def execVsinp (w : W0) (s : State) : Host.Outcome State Fault Refusal := runW0 (.vsinp w) (some (w.var.toNat % 16)) (cellVsinp w) s
def execVcosp (w : W0) (s : State) : Host.Outcome State Fault Refusal := runW0 (.vcosp w) (some (w.var.toNat % 16)) (cellVcosp w) s
def execVtanh (w : W0) (s : State) : Host.Outcome State Fault Refusal := runW0 (.vtanh w) (some (w.var.toNat % 16)) (cellVtanh w) s
def execVrsum (w : W0) (s : State) : Host.Outcome State Fault Refusal := runW0 (.vrsum w) none (cellVrsum w) s
def execVrmax (w : W0) (s : State) : Host.Outcome State Fault Refusal := runW0 (.vrmax w) none (cellVrmax w) s
def execVrmin (w : W0) (s : State) : Host.Outcome State Fault Refusal := runW0 (.vrmin w) none (cellVrmin w) s
def execVperm (w : W0) (s : State) : Host.Outcome State Fault Refusal := runW0 (.vperm w) none (cellVperm w) s
def execVbcst (w : W0) (s : State) : Host.Outcome State Fault Refusal := runW0 (.vbcst w) none (cellVbcst w) s
def execVmovi (w : W0) (s : State) : Host.Outcome State Fault Refusal := runW0 (.vmovi w) none (cellVmovi w) s
def execVmov (w : W0) (s : State) : Host.Outcome State Fault Refusal := runW0 (.vmov w) none (cellVmov w) s
def execVmask (w : W0) (s : State) : Host.Outcome State Fault Refusal := runW0 (.vmask w) none (cellVmask w) s
def execVflag (w : W0) (s : State) : Host.Outcome State Fault Refusal := runW0 (.vflag w) none (cellVflag w) s
def execViota (w : W0) (s : State) : Host.Outcome State Fault Refusal := runW0 (.viota w) none (cellViota w) s

end Sys2Proof.Machine
end

