-- ==== Sys2Proof/Machine/Move.lean ====
section
/-! DEFINITION. The W1 slot (R147 to R155, R404): communication registers, moves between vector and tile registers, the cell store,
the cell flag and its aggregation. -/

namespace Sys2Proof

def W1Move.field (w : W1Move) (lo n : Nat) : Nat := fld w.ctl.toNat lo n

end Sys2Proof

namespace Sys2Proof.Machine

/-- Sends a W1 operation over the grid and makes it sticky. -/
def runW1 (i : Instr) (late : Option Nat) (op : CellOp) (s : State) : Host.Outcome State Fault Refusal :=
  .next ((s.runWave 1 late false op).stickW1 (some i))

/-- An operation with one legality test. -/
def w1Cell (spans : List Span) (legal : Bool) (act : CellOp) : CellOp := fun s i => if legal then act s i else illegalOut s i spans

/-- The communication register that T names. -/
def commReg (t : Nat) : CellReg := if t = 0 then .xh else .xv

def chunkWrite (i : Nat) (r : CellReg) (c : Chunk) : CellWrite :=
  { cell := i, reg := r, lo := 0, len := 1024, val := c.toNat, poi := c.bad.toNat }

/-- Bytes 64c to 64c + 63 of a vector register written. -/
def vChunkWrite (i d c val poi : Nat) : CellWrite :=
  { cell := i, reg := .v (Fin.ofNat 32 d), lo := 512 * c, len := 512, val := val * 2 ^ (512 * c), poi := poi * 2 ^ (64 * c) }

/-- Chunk `c` of a register: 64 bytes and their marks. -/
def Bits.chunk (b : Bits) (c : Nat) : Nat × Nat := (b.val / 2 ^ (512 * c) % 2 ^ 512, b.poi / 2 ^ (64 * c) % 2 ^ 64)

/-! ### Communication registers (R149, R150) -/

def cellXset (w : W1Move) : CellOp :=
  w1Cell [whole (commReg (w.field 0 1))] (decide (w.ctl.toNat < 16) && w.d == 0) (fun s i =>
    let x := (s.vreg i w.a.toNat 8).chunk (w.field 1 3)
    let c : Chunk := { data := BitVec.ofNat 512 x.1, psn := BitVec.ofNat 64 x.2, res := 0, info := 0, bad := 0 }
    { CellOut.nothing with writes := [chunkWrite i (commReg (w.field 0 1)) c], reads := [(vName i w.a.toNat).part (512 * w.field 1 3) 512] })

def cellXget (w : W1Move) : CellOp :=
  w1Cell (vSpan w.d.toNat) (decide (w.ctl.toNat < 64) && w.a == 0 && decide (w.field 0 3 < 6)) (fun s i =>
    let (c, reads) := s.chunk i (w.field 0 3)
    { CellOut.nothing with
      writes := [vChunkWrite i w.d.toNat (w.field 3 3) c.data.toNat c.psn.toNat]
      reads := reads.map (RegRead.part 0 512)
      events := if c.res = 0 then 0 else evRes })

def shfSpans (w : W1Move) : List Span :=
  (if w.field 0 1 = 1 then [whole .xh] else []) ++ (if w.field 1 1 = 1 then [whole .xv] else [])

def cellXshf (w : W1Move) : CellOp :=
  w1Cell (shfSpans w) (decide (w.ctl.toNat < 16) && decide (w.field 0 2 ≠ 0) && w.d == 0 && w.a == 0) (fun s i =>
    let h := s.chunk i (if w.field 2 1 = 0 then 2 else 4)
    let v := s.chunk i (if w.field 3 1 = 0 then 3 else 5)
    { CellOut.nothing with
      writes := (if w.field 0 1 = 1 then [chunkWrite i .xh h.1] else []) ++ (if w.field 1 1 = 1 then [chunkWrite i .xv v.1] else [])
      reads := (if w.field 0 1 = 1 then h.2 else []) ++ (if w.field 1 1 = 1 then v.2 else []) })

def sideSpans (w : W1Move) : List Span :=
  match w.field 1 2 with
  | 0 => gSpan w.d.toNat
  | 1 => vSpan w.d.toNat
  | 2 => [whole (commReg (w.field 0 1))]
  | _ => []

def sideLegal (w : W1Move) : Bool :=
  decide (w.ctl.toNat < 64) &&
    (match w.field 1 2 with
     | 0 => w.a == 0 && decide (w.d.toNat < 8)
     | 1 => w.a == 0
     | 2 => w.d == 0
     | _ => false)

def cellXside (w : W1Move) : CellOp :=
  w1Cell (sideSpans w) (sideLegal w) (fun s i =>
    let (c, reads) := s.chunk i (w.field 0 1)
    let k := w.field 3 3
    match w.field 1 2 with
    | 0 =>
      { CellOut.nothing with
        writes := [{ cell := i, reg := .g (Fin.ofNat 8 w.d.toNat), lo := 0, len := 1024, val := c.res.toNat, poi := 0 }], reads := reads.map (RegRead.part 896 64) }
    | 1 => { CellOut.nothing with writes := [vChunkWrite i w.d.toNat k c.side 0], reads := reads.map (RegRead.part 512 512) }
    | _ =>
      -- bytes 0 to 47 of the chunk; poison in them makes the metadata bad
      let x := (s.vreg i w.a.toNat 8).chunk k
      let bad := BitVec.ofNat 48 x.2
      let c' : Chunk := { c with info := BitVec.ofNat 384 x.1, res := 0, bad := bad }
      { CellOut.nothing with writes := [{ chunkWrite i (commReg (w.field 0 1)) c' with lo := 512, len := 512 }], reads := [(vName i w.a.toNat).part (512 * k) 384],
                             events := if bad = 0 then 0 else evPsn })

/-! ### Vector and tile registers (R151) -/

/-- A tile register read as elements of `w` bits. -/
def State.mreg (s : State) (i n w : Nat) : Bits := s.cellReg i (.m (Fin.ofNat 8 n)) false w
def mName (i n : Nat) : RegRead := .whole i (.m (Fin.ofNat 8 n))

def mSpan (d lo len : Nat) : List Span := if d < 8 then [(.m (Fin.ofNat 8 d), lo, len)] else []

def mvmSpans (w : W1Move) : List Span := if w.field 0 1 = 0 then mSpan w.d.toNat (4096 * w.field 1 2) 4096 else vSpan w.d.toNat

def cellMvm (w : W1Move) : CellOp :=
  w1Cell (mvmSpans w) (decide (w.ctl.toNat < 8) && (if w.field 0 1 = 0 then decide (w.d.toNat < 8) else decide (w.a.toNat < 8))) (fun s i =>
    let q := w.field 1 2
    if w.field 0 1 = 0 then
      let a := s.vreg i w.a.toNat 8
      { CellOut.nothing with
        writes := [{ cell := i, reg := .m (Fin.ofNat 8 w.d.toNat), lo := 4096 * q, len := 4096, val := a.val * 2 ^ (4096 * q),
                     poi := a.poi * 2 ^ (512 * q) }]
        reads := [vName i w.a.toNat] }
    else
      let a := s.mreg i w.a.toNat 8
      { CellOut.nothing with
        writes := [{ cell := i, reg := .v (Fin.ofNat 32 w.d.toNat), lo := 0, len := 4096, val := a.val / 2 ^ (4096 * q),
                     poi := a.poi / 2 ^ (512 * q) }]
        reads := [(mName i w.a.toNat).part (4096 * q) 4096] })

/-! ### Cell store (R152, R153) -/

/-- The byte offset of this issue, and whether it and `size` bytes lie inside the footprint. -/
def storeOffset (w : W1Store) (n : Nat) : Int := 64 * ((w.off.toNat : Int) + n * w.step.toInt)

def State.inStore (s : State) (w : W1Store) (size : Nat) : Option Nat :=
  let o := storeOffset w s.wave.w1n
  if 0 ≤ o ∧ o + size ≤ 8192 * s.src.foot then some (o.toNat / 64) else none

/-- CLD and CLDM: `reg` receives `size` bytes. -/
def loadCell (w : W1Store) (spans : List Span) (legal : Bool) (reg : CellReg) (size : Nat) : CellOp :=
  w1Cell spans legal (fun s i =>
    match s.inStore w size with
    | none => { CellOut.nothing with writes := spans.map (fun d => (s.src.cell i).poisoned i d.1 d.2.1 d.2.2), faults := [1] }
    | some u =>
      let b := (s.src.cell i).storeRead u (size / 64)
      { CellOut.nothing with writes := [{ cell := i, reg := reg, lo := 0, len := 8 * size, val := b.val, poi := b.poi }],
                             loaded := some (u, size / 64) })

/-- CST and CSTM: `size` bytes of a register are written. -/
def storeCell (w : W1Store) (legal : Bool) (reg : CellReg) (size : Nat) : CellOp :=
  w1Cell [] legal (fun s i =>
    match s.inStore w size with
    | none => { CellOut.nothing with faults := [1] }
    | some u => { CellOut.nothing with stored := some (u, s.cellReg i reg false 8, size / 64), reads := [.whole i reg] })

def cellCld (w : W1Store) : CellOp := loadCell w (vSpan w.d.toNat) true (.v (Fin.ofNat 32 w.d.toNat)) 512
def cellCldm (w : W1Store) : CellOp :=
  loadCell w (mSpan w.d.toNat 0 16384) (decide (w.d.toNat < 8)) (.m (Fin.ofNat 8 w.d.toNat)) 2048
def cellCst (w : W1Store) : CellOp := storeCell w true (.v (Fin.ofNat 32 w.d.toNat)) 512
def cellCstm (w : W1Store) : CellOp := storeCell w (decide (w.d.toNat < 8)) (.m (Fin.ofNat 8 w.d.toNat)) 2048

/-! ### The flag (R154) -/

def cellFset (w : W1Move) : CellOp :=
  w1Cell [whole .f] (decide (w.ctl.toNat < 2 ^ 12) && w.d == 0 &&
      (if w.field 0 2 = 3 then decide (w.a.toNat < 8) else w.a == 0 && decide (w.field 2 10 = 0))) (fun s i =>
    let f := s.cellReg i .f false 1
    match w.field 0 2 with
    | 0 => { CellOut.nothing with writes := [flagWrite i ⟨0, 0, 0⟩] }
    | 1 => { CellOut.nothing with writes := [flagWrite i ⟨1, 0, 0⟩] }
    | 2 =>
      let e := s.elt i 0 1 (decide (f.poi ≠ 0)) (1 - f.val % 2, 0)
      { CellOut.nothing with writes := [flagWrite i e], reads := [.whole i .f], events := e.ev }
    | _ =>
      let a := s.greg i w.a.toNat
      let b := w.field 2 10
      { CellOut.nothing with writes := [flagWrite i ⟨(a.val.testBit b).toNat, (a.poi.testBit b).toNat, 0⟩], reads := [gName i w.a.toNat] })

/-! ### Aggregating the flag (R98, R100, R155) -/

/-- The legal forms. -/
def faggLegal (w : W1Move) : Bool :=
  decide (w.ctl.toNat < 64) && w.d == 0 && w.a == 0 &&
    (if w.field 3 1 = 0 then w.field 0 2 == 0 && w.field 4 2 == 0 else w.field 0 2 == 1 || w.field 0 2 == 2)

/-- What an enabled cell does for FAGG: it delivers its flag, and a poisoned one is an event. -/
def cellFagg (w : W1Move) : CellOp :=
  w1Cell [] (faggLegal w) (fun s i =>
    { CellOut.nothing with reads := [.whole i .f], events := if (s.cellReg i .f false 1).poi = 0 then 0 else evPsn })

/-- ANY or ALL of the flags of the enabled cells that satisfy `p`. -/
def State.aggregate (s : State) (all : Bool) (p : Nat → Bool) : Bool :=
  let cells := (List.range s.cellCount).filter (fun i => s.enabled i && p i)
  if all then cells.all (fun i => (s.cellReg i .f false 1).val == 1) else cells.any (fun i => (s.cellReg i .f false 1).val == 1)

/-- Sixteen aggregates as a mask. -/
def State.aggMask (s : State) (all : Bool) (key : Nat → Nat) : BitVec 16 :=
  BitVec.ofNat 16 (((List.range 16).map (fun n => if s.aggregate all (fun i => key i == n) then 2 ^ n else 0)).sum)

/-- The flags, combined as the word says. -/
def State.faggValue (s : State) (w : W1Move) : BitVec 16 :=
  let all := w.field 2 1 == 1
  match w.field 0 2 with
  | 0 => BitVec.ofNat 16 (s.aggregate all (fun _ => true)).toNat
  | 1 => s.aggMask all (fun i => rowOf i % 16)
  | _ => s.aggMask all colOf

/-- FAGG with a queue target reserves its entry at issue, legal or not; an illegal one fills it with 0. The result of a selector
target gates bundles from cycle t + 35 + C (R98). -/
def State.fagg (s : State) (w : W1Move) : State :=
  let legal := faggLegal w
  let poi := legal && (List.range s.cellCount).any (fun i => s.enabled i && (s.cellReg i .f false 1).poi != 0)
  let at_ := s.src.cycle + 34 + s.src.chainC
  let fly (c : Context) (due : Nat) (t : FaggTarget) (v : BitVec 16) : Context :=
    { c with faggs := c.faggs ++ [{ due := due, target := t, value := v, poi := poi, made := s.src.issues, addr := s.src.pc }] }
  if w.field 3 1 = 0 then
    s.setCtx (fly (s.ctx.cqReserve none) at_ (.queue s.ctx.tag) (if legal then s.faggValue w else 0))
  else if !legal then s
  else if w.field 0 2 = 1 then s.setCtx (fly s.ctx (at_ + 1) (.rows (BitVec.ofNat 2 (w.field 4 2))) (s.faggValue w))
  else s.setCtx (fly s.ctx (at_ + 1) (.cols (BitVec.ofNat 2 (w.field 4 2))) (s.faggValue w))

/-! ### The meanings -/

def execWnop (s : State) : Host.Outcome State Fault Refusal := .next (s.stickW1 none)
def execXset (w : W1Move) (s : State) : Host.Outcome State Fault Refusal := runW1 (.xset w) none (cellXset w) s
def execXget (w : W1Move) (s : State) : Host.Outcome State Fault Refusal := runW1 (.xget w) none (cellXget w) s
def execXshf (w : W1Move) (s : State) : Host.Outcome State Fault Refusal := runW1 (.xshf w) none (cellXshf w) s
def execCld (w : W1Store) (s : State) : Host.Outcome State Fault Refusal := runW1 (.cld w) (some w.lat.toNat) (cellCld w) s
def execCst (w : W1Store) (s : State) : Host.Outcome State Fault Refusal := runW1 (.cst w) none (cellCst w) s
def execCldm (w : W1Store) (s : State) : Host.Outcome State Fault Refusal := runW1 (.cldm w) (some w.lat.toNat) (cellCldm w) s
def execCstm (w : W1Store) (s : State) : Host.Outcome State Fault Refusal := runW1 (.cstm w) none (cellCstm w) s
def execFagg (w : W1Move) (s : State) : Host.Outcome State Fault Refusal := runW1 (.fagg w) none (cellFagg w) (s.fagg w)
def execFset (w : W1Move) (s : State) : Host.Outcome State Fault Refusal := runW1 (.fset w) none (cellFset w) s
def execXside (w : W1Move) (s : State) : Host.Outcome State Fault Refusal := runW1 (.xside w) none (cellXside w) s
def execMvm (w : W1Move) (s : State) : Host.Outcome State Fault Refusal := runW1 (.mvm w) none (cellMvm w) s

end Sys2Proof.Machine
end

