-- ==== Sys2Proof/Machine/Matrix.lean ====
section
/-! DEFINITION. The M slot (R156 to R173): products of K groups into an accumulator, and operations on whole tiles, in one cell. -/

namespace Sys2Proof.Machine

/-- Sends an M operation over the grid and makes it sticky. -/
def runM (i : Instr) (m : MOp) (accum : Bool) (op : CellOp) (s : State) : Host.Outcome State Fault Refusal :=
  .next ((s.runWave 2 (some m.lat.toNat) accum op).stickM (some i))

/-! ### Shapes (R65, R156) -/

structure TileShape where
  rows : Nat
  cols : Nat
  fmt : Fmt
  deriving DecidableEq, Repr

/-- The shape in MSHPn as it stood when the word issued; a format that no MTC can have written counts as one of no bits. -/
def State.shape (s : State) (n : Nat) : TileShape :=
  let w := (s.src.mshp.toList.getD n 0).toNat
  { rows := fld w 8 8 + 1, cols := fld w 16 8 + 1, fmt := (fmtOf (fld w 0 6)).getD (.int { width := 0, signed := false }) }

def TileShape.count (t : TileShape) : Nat := t.rows * t.cols
def TileShape.bits (t : TileShape) : Nat := t.count * t.fmt.width

/-- The accumulator region, and the shaped view. -/
def accSpan (m : MOp) : List Span := [(.m m.acc.toFin, 0, 8192)]
def shapedSpan (s : State) (m : MOp) : List Span := [(.m m.acc.toFin, 0, (s.shape m.acc.toNat).bits)]

/-! ### Operands (R157, R161 to R164) -/

/-- A 64-byte operand chunk with what its side part says. -/
structure MSrc where
  data : Nat
  psn : Nat
  res : Nat
  info : Nat
  zero : Bool
  bad : BitVec 48
  reads : List RegRead
  deriving DecidableEq, Repr

/-- 1 in every bit of the bytes that RES names, so that they read as zero (R164). -/
def MSrc.ofChunk (x : Chunk × List RegRead) : MSrc :=
  { data := x.1.data.toNat &&& (2 ^ 512 - 1 - byteMask 64 x.1.res.toNat), psn := x.1.psn.toNat, res := x.1.res.toNat,
    info := x.1.info.toNat, zero := x.1.info.getLsbD 383, bad := x.1.bad, reads := x.2.map (RegRead.part 0 512) }

/-- The words of META that hold the bytes of a mask, as reads of the communication register that the chunk comes from. -/
def MSrc.metaReads (x : MSrc) (bytes : BitVec 48) : List RegRead :=
  x.reads.flatMap (fun r =>
    if r.reg = .xh ∨ r.reg = .xv then
      (List.range 6).filterMap (fun w => if bytes.toNat / 2 ^ (8 * w) % 256 = 0 then none else some (r.part (512 + 64 * w) 64))
    else [])

/-- Chunk `c` of a tile, as elements of `w` bits; it has no side part. -/
def State.tileChunk (s : State) (i n c w : Nat) : MSrc :=
  let x := (s.mreg i n w).chunk c
  { data := x.1, psn := x.2, res := 0, info := 0, zero := false, bad := 0, reads := [(mName i n).part (512 * c) 512] }

/-- The operand of code `code`; a tile supplies chunk `c`, none above 31. -/
def State.source (s : State) (i code c w : Nat) : Option MSrc :=
  if code < 8 then (if c ≤ 31 then some (s.tileChunk i code c w) else none)
  else some (.ofChunk (s.chunk i (code - 6)))

/-- The group size of a pair of formats (R159). -/
def pairSize : Fmt → Fmt → Option Nat
  | .int f, .int g => if f.width = 4 ∧ g.width = 4 then some 8 else if f.width = 8 ∧ g.width = 8 then some 4 else none
  | .flt f, .flt g =>
    if f.width = 8 ∧ g.width = 8 then some 4
    else if f.width = 16 ∧ g.width = 16 then some 2
    else if f.width = 32 ∧ g.width = 32 then some 1
    else none
  | .int _, .flt _ => none
  | .flt _, .int _ => none

/-! ### Fields of an M word (R38, R158, R167) -/

end Sys2Proof.Machine

namespace Sys2Proof

open Machine

/-- The two formats and the group size of a product word. -/
def MOp.pair (m : MOp) : Option (Fmt × Fmt × Nat) :=
  match fmtOf m.afmt.toNat, fmtOf m.bfmt.toNat with
  | some f, some g => (pairSize f g).map (fun n => (f, g, n))
  | _, _ => none

/-- The fields that no product but MMAS and MMAQ uses. -/
def MOp.noPattern (m : MOp) : Bool := m.nmm == 0 && m.nm1 == 0

/-- R158 for the product operations: source codes, row origins, and an accumulator that is no source. -/
def MOp.productOk (m : MOp) : Bool :=
  decide (m.asrc.toNat ≤ 9) && decide (m.bsrc.toNat ≤ 9) && (decide (m.asrc.toNat < 8) || m.arow == 0) &&
    (decide (m.bsrc.toNat < 8) || m.brow == 0) && decide (m.asrc.toNat ≠ m.acc.toNat) && decide (m.bsrc.toNat ≠ m.acc.toNat)

/-- M, N and σ of an N:M pattern (R167). -/
def MOp.patM (m : MOp) : Nat := 4 * 2 ^ m.nmm.toNat
def MOp.patN (m : MOp) : Nat := m.nm1.toNat + 1
def MOp.sigma (m : MOp) : Nat := if 4 * m.patN ≤ m.patM then 4 else if 2 * m.patN ≤ m.patM then 2 else 1

/-- The legality of MMAS: N ≤ M, and a window that holds a whole pattern or every kept element. -/
def MOp.sparseOk (m : MOp) (g : Nat) : Bool :=
  decide (g = 2 ∨ g = 4) && decide (m.patN ≤ m.patM) && (decide (m.patM ≤ g * m.sigma) || decide (m.patN ≤ g))

/-- The fields that no tile operation uses. -/
def MOp.tileOk (m : MOp) : Bool := m.afmt == 0 && m.bfmt == 0 && m.kblk == 0 && m.brow == 0

end Sys2Proof

namespace Sys2Proof.Machine

/-! ### Groups (R121 to R123, R163, R165) -/

/-- What a product operation has at hand in a cell. `sel` gives for each row the A slots of a group, each with the chunk and the
place in a B lane that it meets; `scales` the exponents of rows and columns. -/
structure Product where
  fa : Fmt
  fb : Fmt
  g : Nat
  a : MSrc
  bs : List MSrc
  sel : Nat → List (Nat × Nat × Nat)
  scales : Option ((Nat → Int) × (Nat → Int))
  /-- The bytes of META that the operation reads of A, and of a B chunk (R162, R164). -/
  aMeta : BitVec 48
  bMeta : BitVec 48

def Product.aVal (p : Product) (x : Nat) : Nat := if p.a.zero then 0 else eltVal ⟨p.a.data, 0⟩ p.fa.width x
def Product.aPoi (p : Product) (x : Nat) : Bool := eltPoi ⟨0, p.a.psn⟩ p.fa.width x

def MSrc.none : MSrc := { data := 0, psn := 0, res := 0, info := 0, zero := false, bad := 0, reads := [] }

def Product.bSrc (p : Product) (c : Nat) : MSrc := p.bs.getD c MSrc.none
def Product.bVal (p : Product) (c y : Nat) : Nat := if (p.bSrc c).zero then 0 else eltVal ⟨(p.bSrc c).data, 0⟩ p.fb.width y
def Product.bPoi (p : Product) (c y : Nat) : Bool := eltPoi ⟨0, (p.bSrc c).psn⟩ p.fb.width y

/-- The pairs of element numbers of the group of row `i` and column `j`: A slot, B chunk, B element. -/
def Product.pairs (p : Product) (i j : Nat) : List (Nat × Nat × Nat) := (p.sel i).map (fun t => (t.1, t.2.1, p.g * j + t.2.2))

/-- The group's value after its scales; none when it is exactly zero. -/
def Product.group (p : Product) (i j : Nat) (acc : Nat) : Option (Nat × Nat) :=
  match p.fa, p.fb with
  | .int f, .int h =>
    let x := ((p.pairs i j).map (fun t => f.value (p.aVal t.1) * h.value (p.bVal t.2.1 t.2.2))).sum
    if x = 0 then none else some ((((acc : Int) + x) % 2 ^ 32).toNat, 0)
  | .flt f, .flt h =>
    let x := groupSum ((p.pairs i j).map (fun t => (f.value (p.aVal t.1), h.value (p.bVal t.2.1 t.2.2))))
    match p.scales with
    | none => if x.1.isZero then none else some (applyGroup .rne false acc x)
    | some (ea, eb) =>
      if ea i = -128 ∨ eb j = -128 then some (applyGroup .rne false acc (.nan, true))
      else if x.1.isZero then none
      else some (applyGroup .rne false acc (x.1.shift (ea i + eb j), x.2))
  | .int _, .flt _ => none
  | .flt _, .int _ => none

/-- The new accumulator element (R164). A chunk marked ZERO counts as zeros, so skipping it changes no result (R163); a group that
reads poison is not skipped (R128). -/
def Product.element (p : Product) (s : State) (cell : Nat) (acc : Bits) (n : Nat) : Elt :=
  let i := n / 16
  let j := n % 16
  s.accElt cell n acc ((p.pairs i j).any (fun t => p.aPoi t.1 || p.bPoi t.2.1 t.2.2)) (p.group i j (eltVal acc 32 n))

/-- Whether an element that the operation reads was supplied for a non-resident page. -/
def Product.missing (p : Product) : Bool :=
  (List.range 16).any (fun i => (p.sel i).any (fun t => eltPoi ⟨0, p.a.res⟩ p.fa.width t.1)) || p.bs.any (fun b => b.res != 0)

/-- An error has struck META bits that the operation reads. -/
def Product.metaBad (p : Product) : Bool := p.a.bad &&& p.aMeta != 0 || p.bs.any (fun b => b.bad &&& p.bMeta != 0)

/-- The byte of META that holds ZERO, and the first `n` bytes of it (R162). -/
def metaZero : BitVec 48 := BitVec.ofNat 48 (2 ^ 47)
def metaBytes (n : Nat) : BitVec 48 := BitVec.ofNat 48 (2 ^ n - 1)

/-- Runs the product in a cell: bad metadata poisons the whole accumulator region (R164). -/
def Product.run (p : Product) (m : MOp) (s : State) (cell : Nat) : CellOut :=
  let reg := CellReg.m m.acc.toFin
  let acc := s.cellReg cell reg true 32
  let reads := p.a.reads ++ p.a.metaReads p.aMeta ++ p.bs.flatMap (fun b => b.reads ++ b.metaReads p.bMeta) ++ [(RegRead.whole cell reg).part 0 8192]
  let miss := if p.missing then evRes else 0
  if p.metaBad then
    { CellOut.nothing with writes := [(s.src.cell cell).poisoned cell reg 0 8192], reads := reads, events := evPsn ||| miss }
  else
    let l := (List.range 256).map (p.element s cell acc)
    { CellOut.nothing with
      writes := [{ cell := cell, reg := reg, lo := 0, len := 8192, val := packVals 32 l, poi := packPois 32 0 l }]
      reads := reads
      events := eltEvents l ||| miss }

/-- A fault of a given kind: only poison is written. -/
def faultOut (s : State) (i kind : Nat) (spans : List Span) : CellOut := { illegalOut s i spans with faults := [kind] }

/-- Row `i` of a dense product: its g slots meet the same places of one B chunk. -/
def denseSel (g i : Nat) : List (Nat × Nat × Nat) := (List.range g).map (fun k => (g * i + k, 0, k))

/-! ### The products -/

/-- MMA and MMAQ with operands at hand. -/
def denseCell (m : MOp) (legal : Bool) (aMeta bMeta : BitVec 48) (scales : State → MSrc → MSrc → Option ((Nat → Int) × (Nat → Int))) : CellOp := fun s i =>
  match m.pair with
  | none => illegalOut s i (accSpan m)
  | some (fa, fb, g) =>
    if !(legal && m.productOk) then illegalOut s i (accSpan m)
    else
      let n := s.wave.mn
      match s.source i m.asrc.toNat (m.arow.toNat + n * m.step.toNat) fa.width, s.source i m.bsrc.toNat (m.brow.toNat + n * m.step.toNat) fb.width with
      | some a, some b =>
        ({ fa := fa, fb := fb, g := g, a := a, bs := [b], sel := denseSel g, scales := scales s a b,
           aMeta := aMeta, bMeta := bMeta } : Product).run m s i
      | _, _ => faultOut s i 2 (accSpan m)

def cellMma (m : MOp) : CellOp := denseCell m (m.noPattern && m.kblk == 0) metaZero metaZero (fun _ _ _ => none)

/-- The exponents that a side part's SCALE bytes give to rows or columns, in blocks of 2^logh (R165). -/
def scaleOf (src : MSrc) (code logh r : Nat) : Int :=
  if code < 8 then 0 else ({ width := 8, signed := true } : IFmt).value (src.info / 2 ^ (8 * (r / 2 ^ logh)))

def cellMmaq (m : MOp) : CellOp := fun s i =>
  let ha := if m.kblk = 0 then s.src.sgeoa.toNat % 8 else 0
  let hb := if m.kblk = 0 then s.src.sgeob.toNat % 8 else 0
  denseCell m (m.noPattern && decide (m.kblk.toNat ≤ 4) && isBinary8 m.afmt.toNat && decide (ha < 5) && decide (hb < 5))
    (metaZero ||| metaBytes (15 / 2 ^ ha + 1)) (metaZero ||| metaBytes (15 / 2 ^ hb + 1))
    (fun _ a b => some (scaleOf a m.asrc.toNat ha, scaleOf b m.bsrc.toNat hb)) s i

/-- Slot `k`'s index. -/
def slotIndex (a : MSrc) (k : Nat) : Nat := a.info / 2 ^ (5 * k) % 32

def cellMmas (m : MOp) : CellOp := fun s i =>
  match m.pair with
  | none => illegalOut s i (accSpan m)
  | some (fa, fb, g) =>
    if !(m.productOk && m.kblk == 0 && m.arow == 0 && m.asrc == 8 && decide (m.bsrc.toNat < 8) && m.sparseOk g) then
      illegalOut s i (accSpan m)
    else
      let a := MSrc.ofChunk (s.chunk i 2)
      let kw := g * m.sigma
      let w0 := m.brow.toNat + s.wave.mn * m.step.toNat * m.sigma
      let aMeta := metaZero ||| metaBytes (10 * g)
      if a.bad &&& aMeta == 0 && (List.range (16 * g)).any (fun k => decide (kw ≤ slotIndex a k) && decide (slotIndex a k ≤ 30)) then
        { faultOut s i 5 (accSpan m) with reads := a.metaReads aMeta }
      else if 31 < w0 + m.sigma - 1 then faultOut s i 2 (accSpan m)
      else
        let sel (r : Nat) : List (Nat × Nat × Nat) :=
          ((List.range g).filter (fun k => slotIndex a (g * r + k) != 31)).map (fun k =>
            (g * r + k, slotIndex a (g * r + k) / g, slotIndex a (g * r + k) % g))
        ({ fa := fa, fb := fb, g := g, a := a, bs := (List.range m.sigma).map (fun c => s.tileChunk i m.bsrc.toNat (w0 + c) fb.width),
           sel := sel, scales := none, aMeta := aMeta, bMeta := metaZero } : Product).run m s i

/-- The A operand of MMAB is the element taken from the cell's row lane (R168). -/
def cellMmab (m : MOp) : CellOp := fun s i =>
  match m.pair with
  | none => illegalOut s i (accSpan m)
  | some (fa, fb, g) =>
    if !(m.productOk && m.noPattern && m.kblk == 0 && m.arow == 0 && m.asrc == 8 && decide (m.bsrc.toNat < 8)) then illegalOut s i (accSpan m)
    else
      match s.source i m.bsrc.toNat (m.brow.toNat + s.wave.mn * m.step.toNat) fb.width with
      | none => faultOut s i 2 (accSpan m)
      | some b =>
        ({ fa := fa, fb := fb, g := g, a := .ofChunk (s.wave.west.getD (rowOf i) Chunk.zero, []), bs := [b], sel := denseSel g,
           scales := none, aMeta := metaZero, bMeta := metaZero } : Product).run m s i

/-! ### Tile operations (R169 to R173) -/

def cellMzero (m : MOp) : CellOp := fun s i =>
  if m.tileOk && m.asrc == 0 && m.bsrc == 0 && m.noPattern && m.arow == 0 && m.step == 0 then
    { CellOut.nothing with writes := [{ cell := i, reg := .m m.acc.toFin, lo := 0, len := 16384, val := 0, poi := 0 }] }
  else illegalOut s i (shapedSpan s m)

/-- The elements of a shaped view written; a last byte that only partly belongs to it keeps its other half with its mark. -/
def tileWrite (i : Nat) (m : MOp) (old : Bits) (w : Nat) (l : List Elt) : CellWrite :=
  let n := w * l.length
  let part := if n % 8 = 0 then 0 else old.poi / 2 ^ (n / 8) % 2 * 2 ^ (n / 8)
  { cell := i, reg := .m m.acc.toFin, lo := 0, len := n, val := packVals w l, poi := packPois w 0 l ||| part }

/-- The element-wise tile operations. -/
def tileEltwise (m : MOp) (srcs : List Nat) (g : List Nat → Nat × Nat) : CellOp := fun s i =>
  let d := s.shape m.acc.toNat
  let ops := srcs.map (fun n => ((s.shape n).fmt.width, s.mreg i n (s.shape n).fmt.width))
  let l := (List.range d.count).map (fun k =>
    s.elt i k d.fmt.width (ops.any (fun o => eltPoi o.2 o.1 k)) (g (ops.map (fun o => eltVal o.2 o.1 k))))
  { CellOut.nothing with writes := [tileWrite i m (s.mreg i m.acc.toNat 8) d.fmt.width l], reads := srcs.map (fun n => (mName i n).part 0 (s.shape n).bits), events := eltEvents l }

def cellMcvt (m : MOp) : CellOp := fun s i =>
  let a := s.shape m.asrc.toNat
  let d := s.shape m.acc.toNat
  if m.tileOk && decide (m.asrc.toNat < 8) && m.bsrc == 0 && m.arow == 0 && m.step == 0 && decide (m.nm1.toNat < 2) &&
      decide (a.rows = d.rows ∧ a.cols = d.cols) then
    tileEltwise m [m.asrc.toNat] (fun xs => convert a.fmt d.fmt (.ofCode m.nmm.toNat) (m.nm1 == 1) (xs.headD 0)) s i
  else illegalOut s i (shapedSpan s m)

def cellMadd (m : MOp) : CellOp := fun s i =>
  let a := s.shape m.asrc.toNat
  let b := s.shape m.bsrc.toNat
  let d := s.shape m.acc.toNat
  if m.tileOk && decide (m.asrc.toNat < 8) && decide (m.bsrc.toNat < 8) && m.arow == 0 && m.step == 0 && decide (m.nm1.toNat < 2) &&
      decide (a = d ∧ b = d) then
    tileEltwise m [m.asrc.toNat, m.bsrc.toNat] (fun xs => fmtAdd d.fmt (.ofCode m.nmm.toNat) (m.nm1 == 1) (xs.headD 0) (xs.tail.headD 0)) s i
  else illegalOut s i (shapedSpan s m)

def cellMtrn (m : MOp) : CellOp := fun s i =>
  let a := s.shape m.asrc.toNat
  let d := s.shape m.acc.toNat
  if m.tileOk && decide (m.asrc.toNat < 8) && m.bsrc == 0 && m.arow == 0 && m.step == 0 && m.noPattern &&
      decide (a.rows = d.cols ∧ a.cols = d.rows ∧ a.fmt = d.fmt) then
    let x := s.mreg i m.asrc.toNat d.fmt.width
    let w := d.fmt.width
    -- element (j, i) of mD, at position k = j · d.cols + i, comes from element (i, j) of mA
    let l := (List.range d.count).map (fun k =>
      let n := k % d.cols * a.cols + k / d.cols
      (⟨eltVal x w n, eltMarks x w n, 0⟩ : Elt))
    { CellOut.nothing with writes := [tileWrite i m (s.mreg i m.acc.toNat 8) w l], reads := [(mName i m.asrc.toNat).part 0 a.bits] }
  else illegalOut s i (shapedSpan s m)

/-- The chunk that MSTAT's issue `n` writes in a cell, if the cell writes. -/
def statChunk (m : MOp) (i n : Nat) : Option Nat :=
  if m.nm1 = 0 then some (m.arow.toNat + n * m.step.toNat)
  else
    let run := [1, 4, 16, 32].getD m.nmm.toNat 1
    let p := if m.asrc = 8 then colOf i else rowOf i
    if n / run = p then some (m.arow.toNat + n % run * m.step.toNat) else none

def cellMstat (m : MOp) : CellOp := fun s i =>
  if !(m.tileOk && (m.asrc == 8 || m.asrc == 9) && m.bsrc == 0 && decide (m.nm1.toNat < 2) && (m.nm1 == 1 || m.nmm == 0)) then
    illegalOut s i (accSpan m)
  else
    match statChunk m i s.wave.mn with
    | none => CellOut.nothing
    | some c =>
      if 31 < c then faultOut s i 2 (accSpan m)
      else
        let x := MSrc.ofChunk (s.chunk i (m.asrc.toNat - 6))
        { CellOut.nothing with
          writes := [{ cell := i, reg := .m m.acc.toFin, lo := 512 * c, len := 512, val := x.data * 2 ^ (512 * c),
                       poi := x.psn * 2 ^ (64 * c) }]
          reads := x.reads
          events := if x.res = 0 then 0 else evRes }

/-! ### The meanings -/

def execMnop (s : State) : Host.Outcome State Fault Refusal := .next (s.stickM none)
def execMma (m : MOp) (s : State) : Host.Outcome State Fault Refusal := runM (.mma m) m true (cellMma m) s
def execMmas (m : MOp) (s : State) : Host.Outcome State Fault Refusal := runM (.mmas m) m true (cellMmas m) s
def execMmaq (m : MOp) (s : State) : Host.Outcome State Fault Refusal := runM (.mmaq m) m true (cellMmaq m) s
def execMmab (m : MOp) (s : State) : Host.Outcome State Fault Refusal := runM (.mmab m) m true (cellMmab m) s
def execMzero (m : MOp) (s : State) : Host.Outcome State Fault Refusal := runM (.mzero m) m false (cellMzero m) s
def execMcvt (m : MOp) (s : State) : Host.Outcome State Fault Refusal := runM (.mcvt m) m false (cellMcvt m) s
def execMtrn (m : MOp) (s : State) : Host.Outcome State Fault Refusal := runM (.mtrn m) m false (cellMtrn m) s
def execMadd (m : MOp) (s : State) : Host.Outcome State Fault Refusal := runM (.madd m) m false (cellMadd m) s
def execMstat (m : MOp) (s : State) : Host.Outcome State Fault Refusal := runM (.mstat m) m false (cellMstat m) s

end Sys2Proof.Machine
end

