-- ==== Sys2Proof/Machine/Stick.lean ====
section
/-! DEFINITION. A wave word as a whole (R13, R90, R91, R95 to R97, R134): what its three operations take from the hatches, which
registers two of them name, how long each keeps its slot busy, and the header-only bundle, which issues the sticky slots
(R12, R13, R44). -/

namespace Sys2Proof.Machine

/-- The operation of a wave slot; an instruction of another slot does nothing here. -/
def waveExec (i : Instr) (s : State) : Host.Outcome State Fault Refusal :=
  match i with
  | .vnop => execVnop s
  | .vadd w => execVadd w s
  | .vsub w => execVsub w s
  | .vmul w => execVmul w s
  | .vfma w => execVfma w s
  | .vfms w => execVfms w s
  | .vmin w => execVmin w s
  | .vmax w => execVmax w s
  | .vabs w => execVabs w s
  | .vneg w => execVneg w s
  | .vand w => execVand w s
  | .vor w => execVor w s
  | .vxor w => execVxor w s
  | .vshl w => execVshl w s
  | .vshr w => execVshr w s
  | .vsra w => execVsra w s
  | .vcmp w => execVcmp w s
  | .vsel w => execVsel w s
  | .vcvt w => execVcvt w s
  | .vwmul w => execVwmul w s
  | .vwfma w => execVwfma w s
  | .vdot w => execVdot w s
  | .vscale w => execVscale w s
  | .vclass w => execVclass w s
  | .vexp2 w => execVexp2 w s
  | .vlog2 w => execVlog2 w s
  | .vrcp w => execVrcp w s
  | .vrsq w => execVrsq w s
  | .vsqrt w => execVsqrt w s
  | .vsinp w => execVsinp w s
  | .vcosp w => execVcosp w s
  | .vtanh w => execVtanh w s
  | .vrsum w => execVrsum w s
  | .vrmax w => execVrmax w s
  | .vrmin w => execVrmin w s
  | .vperm w => execVperm w s
  | .vbcst w => execVbcst w s
  | .vmovi w => execVmovi w s
  | .vmov w => execVmov w s
  | .vmask w => execVmask w s
  | .vflag w => execVflag w s
  | .viota w => execViota w s
  | .wnop => execWnop s
  | .xset w => execXset w s
  | .xget w => execXget w s
  | .xshf w => execXshf w s
  | .cld w => execCld w s
  | .cst w => execCst w s
  | .cldm w => execCldm w s
  | .cstm w => execCstm w s
  | .fagg w => execFagg w s
  | .fset w => execFset w s
  | .xside w => execXside w s
  | .mvm w => execMvm w s
  | .mnop => execMnop s
  | .mma w => execMma w s
  | .mmas w => execMmas w s
  | .mmaq w => execMmaq w s
  | .mmab w => execMmab w s
  | .mzero w => execMzero w s
  | .mcvt w => execMcvt w s
  | .mtrn w => execMtrn w s
  | .madd w => execMadd w s
  | .mstat w => execMstat w s
  | _ => .next s

/-- The state that an outcome goes on to. -/
def stateOf (s : State) (r : Host.Outcome State Fault Refusal) : State :=
  match r with
  | .next t => t
  | .fault _ => s
  | .refused _ => s

/-! ### What an operation's word says (R91, R96, R97, R134) -/

/-- The cell registers that an operation's fields name as its destination. -/
def waveRegs (i : Instr) : List CellReg :=
  let regs (l : List Span) : List CellReg := l.map Prod.fst
  match i with
  | .vcmp w => regs (gSpan w.d.toNat)
  | .vmask w => regs (gSpan w.d.toNat)
  | .vflag _ => [.f]
  | .vcvt w => regs (cvtSpans w)
  | .vwmul w => regs (wideSpans w)
  | .vwfma w => regs (wideSpans w)
  | .vadd w | .vsub w | .vmul w | .vfma w | .vfms w | .vmin w | .vmax w | .vabs w | .vneg w | .vand w | .vor w | .vxor w | .vshl w
  | .vshr w | .vsra w | .vsel w | .vdot w | .vscale w | .vclass w | .vexp2 w | .vlog2 w | .vrcp w | .vrsq w | .vsqrt w | .vsinp w
  | .vcosp w | .vtanh w | .vrsum w | .vrmax w | .vrmin w | .vperm w | .vbcst w | .vmovi w | .vmov w | .viota w => regs (vSpan w.d.toNat)
  | .xset w => [commReg (w.field 0 1)]
  | .xget w => regs (vSpan w.d.toNat)
  | .xshf w => regs (shfSpans w)
  | .cld w => regs (vSpan w.d.toNat)
  | .cldm w => regs (mSpan w.d.toNat 0 16384)
  | .fset _ => [.f]
  | .xside w => regs (sideSpans w)
  | .mvm w => regs (mvmSpans w)
  | .mma m | .mmas m | .mmaq m | .mmab m | .mzero m | .mcvt m | .mtrn m | .madd m | .mstat m => [.m m.acc.toFin]
  | _ => []

/-- Whether an operation's fields read xw (`code` 0) or xn (`code` 1), whatever their legality. -/
def waveTakes (code : Nat) (i : Instr) : Bool :=
  match i with
  | .xget w => w.field 0 3 == 2 + code
  | .xshf w => w.field code 1 == 1 && w.field (2 + code) 1 == 0
  | .mma m | .mmas m | .mmaq m | .mmab m | .mzero m | .mcvt m | .mtrn m | .madd m | .mstat m =>
    m.asrc.toNat == 8 + code || m.bsrc.toNat == 8 + code
  | _ => false

/-- The occupancy of R134. -/
def waveOcc (i : Instr) : Nat :=
  match i with
  | .vand _ | .vor _ | .vxor _ | .vmask _ | .vflag _ | .vclass _ | .vbcst _ | .vmovi _ | .vmov _ | .viota _ => 1
  | .vcvt w =>
    match w.fmt, fmtOf (cvtSource w) with
    | some f, some g => 2 * (max f.width g.width / min f.width g.width)
    | _, _ => 2
  | .vwmul w | .vwfma w =>
    match w.fmt with
    | some f => if (wideOf f).isSome then 2 * (32 / f.width) else 2
    | none => 2
  | .cldm _ | .cstm _ | .mcvt _ | .mtrn _ | .madd _ => 4
  | .mma m | .mmab m => if m.afmt = 0x0A ∨ m.bfmt = 0x0A then 2 else 1
  | .xset _ | .xget _ | .xshf _ | .cld _ | .cst _ | .fagg _ | .fset _ | .xside _ | .mvm _ | .mmas _ | .mmaq _ | .mzero _ | .mstat _ => 1
  | _ => 2

/-- Whether an operation's result waits under a bound (R18, R20). -/
def waveLate (i : Instr) : Bool :=
  match i with
  | .vexp2 _ | .vlog2 _ | .vrcp _ | .vrsq _ | .vsqrt _ | .vsinp _ | .vcosp _ | .vtanh _ | .cld _ | .cldm _ | .mma _ | .mmas _ | .mmaq _
  | .mmab _ | .mzero _ | .mcvt _ | .mtrn _ | .madd _ | .mstat _ => true
  | _ => false

/-- The operations of a wave word: those in force in its three slots, no-ops left out. -/
structure WaveWord where
  sel : BitVec 2
  w0 : Option Instr
  w1 : Option Instr
  w1n : Nat
  m : Option Instr
  mn : Nat
  deriving DecidableEq, Repr

def WaveWord.ops (w : WaveWord) : List Instr := w.w0.toList ++ w.w1.toList ++ w.m.toList

/-- The registers that two operations name (R91). -/
def WaveWord.conflict (w : WaveWord) : List CellReg :=
  let regs (o : Option Instr) : List CellReg := (o.map waveRegs).getD []
  (regs w.w1).filter (fun r => (regs w.w0).contains r || (regs w.m).contains r)

/-! ### Hatches (R95 to R97, R100) -/

/-- The context of chain member `j`. -/
def State.memberCtx (s : State) (j : Nat) : Option Context := if j = 0 then some s.ctx else s.others.find? (fun c => s.ctx.isMember c j)

def westHatch (sel : BitVec 2) : Fin 12 := Fin.ofNat 12 sel.toNat
def northHatch (sel : BitVec 2) : Fin 12 := Fin.ofNat 12 (4 + sel.toNat)

/-- The lanes of a hatch of chain member `j`. -/
def State.lanesOf (s : State) (j : Nat) (h : Fin 12) : List (List Chunk) :=
  match s.memberCtx j with
  | none => []
  | some c => c.hatches[h].toList

/-- Whether every lane has an element. -/
def State.lanesFull (s : State) (j : Nat) (h : Fin 12) : Bool := (s.lanesOf j h).all (fun l => !l.isEmpty)

/-- Whether a drain lane that the word could write is full: one whose edge cell the selector enables. -/
def State.drainFull (s : State) (j : Nat) (h : Fin 12) (gate : BitVec 16) : Bool :=
  ((s.lanesOf j h).zipIdx).any (fun l => gate.getLsbD l.2 && decide (32 ≤ l.1.length))

/-- Whether a wave word is held at issue: its slots busy (R134), an element it takes missing (R96), a drain full (R97). -/
def State.waveHeld (s : State) (w : WaveWord) : Bool :=
  let c := s.ctx
  let z := s.src.z[w.sel.toFin]
  let js := List.range c.chainLen
  (w.w0.isSome && decide (c.cycle < c.freeW0)) || (w.w1.isSome && decide (c.cycle < c.freeW1)) ||
    (w.m.isSome && decide (c.cycle < c.freeM)) ||
    (w.ops.any (waveTakes 0) && js.any (fun j => !s.lanesFull j (westHatch w.sel))) ||
    (w.ops.any (waveTakes 1) && !s.lanesFull 0 (northHatch w.sel)) ||
    (w.ops.any (fun i => (waveRegs i).contains .xh) && z.cols.getLsbD 15 && js.any (fun j => s.drainFull j (eastDrain w.sel) z.rows)) ||
    (w.ops.any (fun i => (waveRegs i).contains .xv) && z.rows.getLsbD 15 && s.drainFull (c.chainLen - 1) (southDrain w.sel) z.cols)

/-- The first element of every lane. -/
def State.heads (s : State) (j : Nat) (h : Fin 12) : List Chunk := (s.lanesOf j h).map (fun l => l.headD Chunk.zero)

def dropHeads (h : Fin 12) (c : Context) : Context := { c with hatches := c.hatches.set h (c.hatches[h].map (fun l => l.drop 1)) }

/-- The word leaves the sequencer: it takes its elements and occupies its slots. -/
def State.waveStart (s : State) (w : WaveWord) : State :=
  let js := List.range s.ctx.chainLen
  let west := w.ops.any (waveTakes 0)
  let north := w.ops.any (waveTakes 1)
  let c := s.ctx
  let s := { s with
    wave := { sel := w.sel, west := if west then js.flatMap (fun j => s.heads j (westHatch w.sel)) else [],
              north := if north then s.heads 0 (northHatch w.sel) else [], conflict := w.conflict, w1n := w.w1n, mn := w.mn }
    ctx := { c with freeW0 := (w.w0.map (fun i => c.cycle + waveOcc i)).getD c.freeW0
                    freeW1 := (w.w1.map (fun i => c.cycle + waveOcc i)).getD c.freeW1
                    freeM := (w.m.map (fun i => c.cycle + waveOcc i)).getD c.freeM } }
  let s := if west then js.foldl (fun s j => s.inMember j (dropHeads (westHatch w.sel))) s else s
  if north then s.inMember 0 (dropHeads (northHatch w.sel)) else s

/-- A follower's array is run by its leader (R101). -/
def Context.follower (c : Context) : Bool := c.rank % c.chainLen != 0

/-! ### The header-only bundle -/

/-- The sticky operations, each at its next step. -/
def Context.stickyWord (c : Context) (sel : BitVec 2) : WaveWord :=
  { sel := sel, w0 := c.sticky.w0, w1 := c.sticky.w1, w1n := c.sticky.w1n + 1, m := c.sticky.m, mn := c.sticky.mn + 1 }

def checkStick (sel : BitVec 2) (s : State) : Verdict := holdIf (s.waveHeld (s.src.stickyWord sel) = true)

/-- One issue of a header-only bundle (R13). Its repeats are issues of their own (R12). -/
def execStick (sel : BitVec 2) (_rep : BitVec 8) (s : State) : Host.Outcome State Fault Refusal :=
  gated (checkStick sel s) (fun s =>
    let w := s.src.stickyWord sel
    w.ops.foldl (fun s i => stateOf s (waveExec i s)) (s.waveStart w)) s

end Sys2Proof.Machine
end

