-- ==== Sys2Proof/Machine/Check.lean ====
section
/-! DEFINITION. What a bundle needs before it acts, slot by slot: the operands each instruction reads and writes (R7, R8, R283),
the entries it pops and reserves in the condition queue (R15), the results it leaves outstanding (R20), its privilege (R40), and its
own check. -/

namespace Sys2Proof.Machine

/-- The operands that an engine command reads, in order. -/
def cmdSrcs : Instr → List Opnd
  | .sbind e => [e.p0]
  | .hload e | .hstore e | .hstzTensor e | .csqz e | .cxpd e | .reds e | .redd e | .bcst e => hatchSrcs e
  | .hgath e | .hscat e => hatchSrcs e
  | .hldz e | .hstz e | .copy e | .cfill e => [e.p0, e.p1, e.p2]
  | .hmcast e => [e.p0, e.p2]
  | .zmap e | .scrlim e | .ctxsave e | .ctxload e => [e.p0, e.p1]
  | .enq e => regRun e.p0 (queueCount e)
  | .pgreq e | .rgrp e | .launch e | .cancel e | .abort e => [e.p0]
  | _ => []

/-- The operand fields that an instruction reads, in the order of R8. -/
def srcsOf : Instr → List Opnd
  | .add _ a b _ | .sub _ a b _ | .mul _ a b _ => [a, b]
  | .mulh _ a b | .mulhn _ a b | .div _ a b | .divn _ a b | .rem _ a b | .remn _ a b | .and _ a b | .or _ a b | .xor _ a b
  | .andn _ a b | .shl _ a b | .shr _ a b | .sra _ a b | .rot _ a b | .min _ a b | .max _ a b | .minn _ a b | .maxn _ a b => [a, b]
  | .clz _ a | .ctz _ a | .popc _ a | .bext _ a _ _ | .sext _ a _ | .zext _ a _ | .qmov _ a => [a]
  | .bins d a _ _ => [d, a]
  | .addi _ a _ | .andi _ a _ | .ori _ a _ | .xori _ a _ | .shli _ a _ | .shri _ a _ | .srai _ a _ => [a]
  | .movk d _ _ => [d]
  | .lea _ a b _ | .cmp a b _ | .sel _ a b | .msel _ a b | .cwb a b | .cinv a b | .cflush a b => [a, b]
  | .cmpi _ a _ | .ld _ a _ _ | .mtc a _ | .mtcs a _ | .mtsh _ a | .cqpush a => [a]
  | .st d a _ => [d, a]
  | .amo _ a b _ _ _ | .amof _ a b _ => [a, b]
  | .cas d a b _ _ => [d, a, b]
  | .tlbi a b ext => tlbiSrcs a b ext
  | .jr a | .callr a | .loopv a _ | .loops a _ | .exit a => [a]
  | .ret => [.s 46]
  | i => cmdSrcs i

/-- The operand fields that an instruction writes. -/
def destsOf : Instr → List Opnd
  | .add d _ _ _ | .sub d _ _ _ | .mul d _ _ _ => [d]
  | .mulh d _ _ | .mulhn d _ _ | .div d _ _ | .divn d _ _ | .rem d _ _ | .remn d _ _ | .and d _ _ | .or d _ _ | .xor d _ _
  | .andn d _ _ | .shl d _ _ | .shr d _ _ | .sra d _ _ | .rot d _ _ | .min d _ _ | .max d _ _ | .minn d _ _ | .maxn d _ _ => [d]
  | .clz d _ | .ctz d _ | .popc d _ | .bext d _ _ _ | .bins d _ _ _ | .sext d _ _ | .zext d _ _ | .qmov d _ => [d]
  | .addi d _ _ | .andi d _ _ | .ori d _ _ | .xori d _ _ | .shli d _ _ | .shri d _ _ | .srai d _ _ => [d]
  | .movi d _ | .movk d _ _ | .lea d _ _ _ | .setc d | .sel d _ _ | .ld d _ _ _ | .mfc d _ | .mfcs d _ => [d]
  | .amo d _ _ _ _ _ | .cas d _ _ _ _ | .amof d _ _ _ => [d]
  | .call _ | .callr _ => [.s 46]
  | .deq e => regRun e.p0 (queueCount e)
  | .qinfo e => [e.p0]
  | _ => []

/-- The streams that an instruction's fields claim before the next slot's. -/
def Claims.of (cl : Claims) (i : Instr) : Claims := (destsOf i).foldl Claims.write ((srcsOf i).foldl Claims.read cl)

/-- Entries that an instruction pops off the condition queue (R15, R59, R73, R80). -/
def popsOf : Instr → Nat
  | .setc _ => 1
  | .sel _ _ _ => 1
  | .brT _ => 1
  | .brF _ => 1
  | .cqdrop n => n.toNat + 1
  | _ => 0

/-- Entries that an instruction reserves in the condition queue. -/
def reservesOf : Instr → Nat
  | .cmp _ _ _ => 1
  | .cmpi _ _ _ => 1
  | .tktest _ => 1
  | .cqpush _ => 1
  | .enq _ => 1
  | .deq _ => 1
  | .qinfo _ => 1
  | .fagg w => if w.field 3 1 = 0 then 1 else 0
  | _ => 0

/-- Results that an instruction leaves outstanding under bounds (R20, R284). -/
def lateOf : Instr → Nat
  | .ld _ _ _ _ => 1
  | .amo _ _ _ _ _ _ => 1
  | .cas _ _ _ _ _ => 1
  | .amof _ _ _ _ => 1
  | .deq e => queueCount e
  | .qinfo _ => 1
  | i => (waveLate i).toNat

/-- The level that an opcode needs (R40). -/
def needOf : Instr → Level
  | .mfcs _ _ | .mtcs _ _ | .tlbi _ _ _ | .rft | .ctxsw | .ctxsave _ | .ctxload _ | .flushall _ => .supervisor
  | .halt => .firmware
  | _ => .user

/-- The check of one instruction of the S, B or E slot, after the pops and claims of the slots before it. -/
def checkOf (i : Instr) (before : Nat) (cl : Claims) (s : State) : Verdict :=
  match i with
  | .nop | .fence _ | .bkpt _ | .tktest _ => .go
  | .setc d => checkSetc d cl s
  | .sel d a b => checkSel d a b cl s
  | .ld d a off _ => checkLd d a off cl s
  | .st d a off => checkSt d a off cl s
  | .amo d a b _ sz _ => checkAmo d a b (amoBytes sz) cl s
  | .cas d a b sz _ => checkCas d a b (amoBytes sz) cl s
  | .amof d a b _ => checkAmo d a b 4 cl s
  | .mfc d n => checkMfc d n cl s
  | .mtc a n => checkMtc a n cl s
  | .mtsh _ a => checkMtsh a cl s
  | .cwb a b | .cinv a b | .cflush a b => checkRange a b cl s
  | .mfcs d n => checkMfcs d n cl s
  | .mtcs a n => checkMtcs a n cl s
  | .tlbi a b ext => checkTlbi a b ext cl s
  | .nopB | .trap _ | .sys _ => checkDelay s
  | .brT _ | .brF _ => checkBr before s
  | .j _ | .ret => checkBranch s
  | .jr a => checkJr a cl s
  | .call _ => checkCall s
  | .callr a => checkCallr a cl s
  | .loop cnt last => checkLoop cnt.toNat last s
  | .loopv a last => checkLoopv a last cl s
  | .loops a last => checkLoops a last cl s
  | .leave => checkLeave s
  | .cqdrop n => checkCqdrop n before s
  | .tkwait k => checkTkwait k s
  | .waitq => checkWaitq s
  | .yield => checkYield s
  | .bara b => checkBara b s
  | .barw b => checkBarw b s
  | .exit a => checkExit a cl s
  | .rft => checkRft s
  | .ctxsw => checkCtxsw s
  | .halt => checkHalt s
  | .hgath e | .hscat e => checkIndexed e cl s
  | .sbind e => checkSbind e cl s
  | .sfree e => checkSfree e cl s
  | .enq e => checkEnq e cl s
  | .deq e => checkDeq e cl s
  | .qinfo e => checkQinfo e cl s
  | .ctxsave e | .ctxload e | .flushall e => checkPrivCmd (cmdSrcs i) e cl s
  | .hmcast e => checkCmd [e.p0, .zero, e.p2] e cl s
  | .hload e | .hstore e | .hstzTensor e | .csqz e | .cxpd e | .reds e | .redd e | .bcst e | .hldz e | .hstz e | .copy e | .cfill e
  | .zmap e | .scrlim e | .pgreq e | .rgrp e | .launch e | .cancel e | .abort e | .tkjoin e | .rfence e => checkCmd (cmdSrcs i) e cl s
  | i =>
    match i.slot with
    | some .s => s.checkOpnds cl (srcsOf i) (destsOf i)
    | _ => .go

/-- The checks of a bundle's S, B and E instructions in slot order (R315 rank 8). -/
def checkOps (before : Nat) (cl : Claims) (s : State) : List Instr → Verdict
  | [] => .go
  | i :: r => (checkOf i before cl s).andThen (checkOps (before + popsOf i) (cl.of i) s r)

/-- The first slot whose pops reach past the entries that the queue holds (R15). -/
def underflow (c : Context) (before : Nat) : List Instr → Option Nat
  | [] => none
  | i :: r => if popsOf i ≠ 0 ∧ c.cq.length < before + popsOf i then i.slot.map Slot.code else underflow c (before + popsOf i) r

/-- A bundle that the queue cannot serve traps at once, though another slot would hold it (R15). -/
def checkSlots (s : State) (ops : List Instr) : Verdict :=
  match checkOps 0 .none s ops with
  | .hold =>
    match underflow s.ctx 0 ops with
    | some k => .trap 0x02 (slotInfo k)
    | none => .hold
  | .go => .go
  | .trap cause info => .trap cause info

/-- Row 7 of R29. -/
def checkPrivilege (s : State) (ops : List Instr) : Verdict :=
  Verdict.all (ops.map (fun i => privilegeTrap (needOf i) s.src.level ((i.slot.map Slot.code).getD 0)))

/-- Headers that the B instruction needs ahead of its issue (R30). The count of LOOPV and LOOPS is known only where its operand is
there. -/
def checkAhead (i : Instr) (cl : Claims) (s : State) : Verdict :=
  let skip (last : BitVec 14) : Verdict := cascadeCheck (s.cascade (s.loopLast last) s.src.loops)
  let counted (a : Opnd) (last : BitVec 14) : Verdict :=
    match s.peek cl a with
    | .error _ => .go
    | .ok n => if n = 0 then skip last else .go
  match i with
  | .call _ | .callr _ => fetchCheck (s.bundlesOn s.src s.src.pc 3)
  | .loop cnt last => if cnt = 0 then skip last else .go
  | .loopv a last => counted a last
  | .loops a last => if checkDeltaMode a s = .go then counted a last else .go
  | .leave =>
    match s.src.loops with
    | [] => .go
    | e :: r => cascadeCheck (s.cascade e.last r)
  | _ => .go

/-- Registers that an instruction reads or writes. -/
def regsOf (i : Instr) : List Nat :=
  (srcsOf i ++ destsOf i).filterMap (fun o => match o with | .s n => some n.val | .q _ => none)

/-- Registers that undecided queue operations will write (R284). -/
def Context.queueRegs (c : Context) : List Nat :=
  c.qops.flatMap (fun o => match o.kind, o.dest with
    | .enq, _ => []
    | .deq, .s n => (List.range o.count).map (n.val + ·)
    | .qinfo, .s n => [n.val]
    | .deq, .q _ => []
    | .qinfo, .q _ => [])

/-- Results outstanding, the writes of queue operations among them (R20, R284). -/
def Context.outstanding (c : Context) : Nat :=
  c.pend.length + (c.qops.map (fun o => match o.kind with | .enq => 0 | .deq => o.count | .qinfo => 1)).sum

/-- A hold of WAITQ, BARW, TKWAIT or YIELD, at which a request lands (R324). -/
def landingWait (i : Instr) (s : State) : Bool :=
  match i with
  | .tkwait k => checkTkwait k s == .hold
  | .waitq => checkWaitq s == .hold
  | .yield => checkYield s == .hold
  | .barw b => checkBarw b s == .hold
  | _ => false

/-- The traps that fall due after a bundle's last repeat, by rank: an engine error, TRAP and SYS, a breakpoint (R315). -/
def trapAfter (s : State) : Instr → Option (Nat × Nat × Word)
  | .tkwait k => if (s.src.ticket k).traps then some (9, 0x0B, ticketInfo (s.src.ticket k) k) else none
  | .trap code => some (10, 0x10, code.setWidth 64)
  | .sys code => some (10, 0x11, code.setWidth 64)
  | .bkpt imm => some (11, 0x0E, imm.setWidth 64)
  | _ => none

/-- Instructions whose own act comes when the bundle is over. -/
def actsAfter : Instr → Bool
  | .tkwait _ => true
  | .trap _ => true
  | .sys _ => true
  | .bkpt _ => true
  | .rft => true
  | .ctxsw => true
  | .halt => true
  | _ => false

end Sys2Proof.Machine
end

