-- ==== Sys2Proof/Machine/Land.lean ====
section
/-! DEFINITION. What arrives at a context after the issue that caused it: results under bounds (R18), flag aggregates (R98), event
records (R129), and the trap that has fallen due (R313). -/

namespace Sys2Proof.Machine

/-- Outstanding result `n` lands before its bound. -/
def Context.resultLand (c : Context) (n : Nat) : Context :=
  match c.pend[n]? with
  | none => c
  | some p => if (c.pend.take n).any (fun q => q.chained p) then c else ({ c with pend := c.pend.eraseIdx n }).landOne p

def execResultLand (n : Nat) (s : State) : Host.Outcome State Fault Refusal := .next (s.setCtx (s.ctx.resultLand n))

/-- Flag aggregate `n` arrives in its cycle. -/
def Context.faggResult (c : Context) (n : Nat) : Context :=
  match c.faggs[n]? with
  | none => c
  | some f => if f.due ≤ c.cycle then ({ c with faggs := c.faggs.eraseIdx n }).arriveFagg f else c

def execFaggResult (n : Nat) (s : State) : Host.Outcome State Fault Refusal := .next (s.setCtx (s.ctx.faggResult n))

/-- The records of wave word `n` in flight are appended, after those of the words before it. -/
def Context.dripTrayAppend (c : Context) (n : Nat) : Context :=
  match n, c.dripFlights with
  | 0, f :: r => if f.due ≤ c.cycle then ({ c with dripFlights := r }).dripLand f else c
  | _, _ => c

def execDripTrayAppend (n : Nat) (s : State) : Host.Outcome State Fault Refusal := .next (s.setCtx (s.ctx.dripTrayAppend n))

/-- The trap that has fallen due is entered once every reserved entry of the condition queue is filled (R25). -/
def Context.trapEntry (c : Context) : Context :=
  match c.trapDue with
  | none => c
  | some (cause, info) =>
    let c := c.quiesce
    if c.cqAllFilled then c.enterTrap cause info else c

def execTrapEntry (s : State) : Host.Outcome State Fault Refusal := .next (s.setCtx s.ctx.trapEntry)

/-- What falls due by the next issue arrives: results at their bounds, aggregates and records in their cycles. -/
def Context.arriveDue (c : Context) : Context :=
  let c := c.landDue
  let c := (c.faggs.filter (fun f => f.due ≤ c.cycle)).foldl Context.arriveFagg { c with faggs := c.faggs.filter (fun f => !(f.due ≤ c.cycle)) }
  (c.dripFlights.filter (fun f => f.due ≤ c.cycle)).foldl Context.dripLand
    { c with dripFlights := c.dripFlights.filter (fun f => !(f.due ≤ c.cycle)) }

end Sys2Proof.Machine
end

