-- ==== Sys2Proof/Machine/Dispatch.lean ====
section
/-! DEFINITION. One arm for each instruction: the call of its meaning. -/

namespace Sys2Proof.Machine

def exec (i : Instr) (s : State) : Host.Outcome State Fault Refusal :=
  match i with
  | .nop => Sys2Proof.Machine.execNop s
  | .add d a b sat => Sys2Proof.Machine.execAdd d a b sat s
  | .sub d a b sat => Sys2Proof.Machine.execSub d a b sat s
  | .mul d a b sat => Sys2Proof.Machine.execMul d a b sat s
  | .mulh d a b => Sys2Proof.Machine.execMulh d a b s
  | .mulhn d a b => Sys2Proof.Machine.execMulhn d a b s
  | .div d a b => Sys2Proof.Machine.execDiv d a b s
  | .divn d a b => Sys2Proof.Machine.execDivn d a b s
  | .rem d a b => Sys2Proof.Machine.execRem d a b s
  | .remn d a b => Sys2Proof.Machine.execRemn d a b s
  | .and d a b => Sys2Proof.Machine.execAnd d a b s
  | .or d a b => Sys2Proof.Machine.execOr d a b s
  | .xor d a b => Sys2Proof.Machine.execXor d a b s
  | .andn d a b => Sys2Proof.Machine.execAndn d a b s
  | .shl d a b => Sys2Proof.Machine.execShl d a b s
  | .shr d a b => Sys2Proof.Machine.execShr d a b s
  | .sra d a b => Sys2Proof.Machine.execSra d a b s
  | .rot d a b => Sys2Proof.Machine.execRot d a b s
  | .min d a b => Sys2Proof.Machine.execMin d a b s
  | .max d a b => Sys2Proof.Machine.execMax d a b s
  | .minn d a b => Sys2Proof.Machine.execMinn d a b s
  | .maxn d a b => Sys2Proof.Machine.execMaxn d a b s
  | .clz d a => Sys2Proof.Machine.execClz d a s
  | .ctz d a => Sys2Proof.Machine.execCtz d a s
  | .popc d a => Sys2Proof.Machine.execPopc d a s
  | .bext d a pos wm1 => Sys2Proof.Machine.execBext d a pos wm1 s
  | .bins d a pos wm1 => Sys2Proof.Machine.execBins d a pos wm1 s
  | .sext d a w => Sys2Proof.Machine.execSext d a w s
  | .zext d a w => Sys2Proof.Machine.execZext d a w s
  | .addi d a imm => Sys2Proof.Machine.execAddi d a imm s
  | .andi d a imm => Sys2Proof.Machine.execAndi d a imm s
  | .ori d a imm => Sys2Proof.Machine.execOri d a imm s
  | .xori d a imm => Sys2Proof.Machine.execXori d a imm s
  | .shli d a sh => Sys2Proof.Machine.execShli d a sh s
  | .shri d a sh => Sys2Proof.Machine.execShri d a sh s
  | .srai d a sh => Sys2Proof.Machine.execSrai d a sh s
  | .movi d imm => Sys2Proof.Machine.execMovi d imm s
  | .movk d hw imm => Sys2Proof.Machine.execMovk d hw imm s
  | .lea d a b sh => Sys2Proof.Machine.execLea d a b sh s
  | .cmp a b cc => Sys2Proof.Machine.execCmp a b cc s
  | .cmpi cc a imm => Sys2Proof.Machine.execCmpi cc a imm s
  | .setc d => Sys2Proof.Machine.execSetc d s
  | .sel d a b => Sys2Proof.Machine.execSel d a b s
  | .ld d a off lat => Sys2Proof.Machine.execLd d a off lat s
  | .st d a off => Sys2Proof.Machine.execSt d a off s
  | .amo d a b opc sz lat => Sys2Proof.Machine.execAmo d a b opc sz lat s
  | .cas d a b sz lat => Sys2Proof.Machine.execCas d a b sz lat s
  | .amof d a b lat => Sys2Proof.Machine.execAmof d a b lat s
  | .mfc d creg => Sys2Proof.Machine.execMfc d creg s
  | .mtc a creg => Sys2Proof.Machine.execMtc a creg s
  | .mtsh t a => Sys2Proof.Machine.execMtsh t a s
  | .msel z a b => Sys2Proof.Machine.execMsel z a b s
  | .qmov d a => Sys2Proof.Machine.execQmov d a s
  | .tktest k => Sys2Proof.Machine.execTktest k s
  | .cqpush a => Sys2Proof.Machine.execCqpush a s
  | .fence scope => Sys2Proof.Machine.execFence scope s
  | .cwb a b => Sys2Proof.Machine.execCwb a b s
  | .cinv a b => Sys2Proof.Machine.execCinv a b s
  | .cflush a b => Sys2Proof.Machine.execCflush a b s
  | .mfcs d creg => Sys2Proof.Machine.execMfcs d creg s
  | .mtcs a creg => Sys2Proof.Machine.execMtcs a creg s
  | .tlbi a b ext => Sys2Proof.Machine.execTlbi a b ext s
  | .bkpt imm => Sys2Proof.Machine.execBkpt imm s
  | .nopB => Sys2Proof.Machine.execNopB s
  | .brT off => Sys2Proof.Machine.execBrT off s
  | .brF off => Sys2Proof.Machine.execBrF off s
  | .j off => Sys2Proof.Machine.execJ off s
  | .jr a => Sys2Proof.Machine.execJr a s
  | .call off => Sys2Proof.Machine.execCall off s
  | .callr a => Sys2Proof.Machine.execCallr a s
  | .ret => Sys2Proof.Machine.execRet s
  | .loop cnt last => Sys2Proof.Machine.execLoop cnt last s
  | .loopv a last => Sys2Proof.Machine.execLoopv a last s
  | .loops a last => Sys2Proof.Machine.execLoops a last s
  | .leave => Sys2Proof.Machine.execLeave s
  | .cqdrop nm1 => Sys2Proof.Machine.execCqdrop nm1 s
  | .tkwait k => Sys2Proof.Machine.execTkwait k s
  | .waitq => Sys2Proof.Machine.execWaitq s
  | .yield => Sys2Proof.Machine.execYield s
  | .bara slot => Sys2Proof.Machine.execBara slot s
  | .barw slot => Sys2Proof.Machine.execBarw slot s
  | .trap code => Sys2Proof.Machine.execTrap code s
  | .sys code => Sys2Proof.Machine.execSys code s
  | .exit a => Sys2Proof.Machine.execExit a s
  | .rft => Sys2Proof.Machine.execRft s
  | .ctxsw => Sys2Proof.Machine.execCtxsw s
  | .halt => Sys2Proof.Machine.execHalt s
  | .stick sel rep => Sys2Proof.Machine.execStick sel rep s
  | .vnop => Sys2Proof.Machine.execVnop s
  | .vadd w => Sys2Proof.Machine.execVadd w s
  | .vsub w => Sys2Proof.Machine.execVsub w s
  | .vmul w => Sys2Proof.Machine.execVmul w s
  | .vfma w => Sys2Proof.Machine.execVfma w s
  | .vfms w => Sys2Proof.Machine.execVfms w s
  | .vmin w => Sys2Proof.Machine.execVmin w s
  | .vmax w => Sys2Proof.Machine.execVmax w s
  | .vabs w => Sys2Proof.Machine.execVabs w s
  | .vneg w => Sys2Proof.Machine.execVneg w s
  | .vand w => Sys2Proof.Machine.execVand w s
  | .vor w => Sys2Proof.Machine.execVor w s
  | .vxor w => Sys2Proof.Machine.execVxor w s
  | .vshl w => Sys2Proof.Machine.execVshl w s
  | .vshr w => Sys2Proof.Machine.execVshr w s
  | .vsra w => Sys2Proof.Machine.execVsra w s
  | .vcmp w => Sys2Proof.Machine.execVcmp w s
  | .vsel w => Sys2Proof.Machine.execVsel w s
  | .vcvt w => Sys2Proof.Machine.execVcvt w s
  | .vwmul w => Sys2Proof.Machine.execVwmul w s
  | .vwfma w => Sys2Proof.Machine.execVwfma w s
  | .vdot w => Sys2Proof.Machine.execVdot w s
  | .vscale w => Sys2Proof.Machine.execVscale w s
  | .vclass w => Sys2Proof.Machine.execVclass w s
  | .vexp2 w => Sys2Proof.Machine.execVexp2 w s
  | .vlog2 w => Sys2Proof.Machine.execVlog2 w s
  | .vrcp w => Sys2Proof.Machine.execVrcp w s
  | .vrsq w => Sys2Proof.Machine.execVrsq w s
  | .vsqrt w => Sys2Proof.Machine.execVsqrt w s
  | .vsinp w => Sys2Proof.Machine.execVsinp w s
  | .vcosp w => Sys2Proof.Machine.execVcosp w s
  | .vtanh w => Sys2Proof.Machine.execVtanh w s
  | .vrsum w => Sys2Proof.Machine.execVrsum w s
  | .vrmax w => Sys2Proof.Machine.execVrmax w s
  | .vrmin w => Sys2Proof.Machine.execVrmin w s
  | .vperm w => Sys2Proof.Machine.execVperm w s
  | .vbcst w => Sys2Proof.Machine.execVbcst w s
  | .vmovi w => Sys2Proof.Machine.execVmovi w s
  | .vmov w => Sys2Proof.Machine.execVmov w s
  | .vmask w => Sys2Proof.Machine.execVmask w s
  | .vflag w => Sys2Proof.Machine.execVflag w s
  | .viota w => Sys2Proof.Machine.execViota w s
  | .wnop => Sys2Proof.Machine.execWnop s
  | .xset w => Sys2Proof.Machine.execXset w s
  | .xget w => Sys2Proof.Machine.execXget w s
  | .xshf w => Sys2Proof.Machine.execXshf w s
  | .cld w => Sys2Proof.Machine.execCld w s
  | .cst w => Sys2Proof.Machine.execCst w s
  | .cldm w => Sys2Proof.Machine.execCldm w s
  | .cstm w => Sys2Proof.Machine.execCstm w s
  | .fagg w => Sys2Proof.Machine.execFagg w s
  | .fset w => Sys2Proof.Machine.execFset w s
  | .xside w => Sys2Proof.Machine.execXside w s
  | .mvm w => Sys2Proof.Machine.execMvm w s
  | .mnop => Sys2Proof.Machine.execMnop s
  | .mma m => Sys2Proof.Machine.execMma m s
  | .mmas m => Sys2Proof.Machine.execMmas m s
  | .mmaq m => Sys2Proof.Machine.execMmaq m s
  | .mmab m => Sys2Proof.Machine.execMmab m s
  | .mzero m => Sys2Proof.Machine.execMzero m s
  | .mcvt m => Sys2Proof.Machine.execMcvt m s
  | .mtrn m => Sys2Proof.Machine.execMtrn m s
  | .madd m => Sys2Proof.Machine.execMadd m s
  | .mstat m => Sys2Proof.Machine.execMstat m s
  | .sbind e => Sys2Proof.Machine.execSbind e s
  | .sfree e => Sys2Proof.Machine.execSfree e s
  | .hload e => Sys2Proof.Machine.execHload e s
  | .hgath e => Sys2Proof.Machine.execHgath e s
  | .hldz e => Sys2Proof.Machine.execHldz e s
  | .hstore e => Sys2Proof.Machine.execHstore e s
  | .hscat e => Sys2Proof.Machine.execHscat e s
  | .hstz e => Sys2Proof.Machine.execHstz e s
  | .hstzTensor e => Sys2Proof.Machine.execHstzTensor e s
  | .hmcast e => Sys2Proof.Machine.execHmcast e s
  | .copy e => Sys2Proof.Machine.execCopy e s
  | .cfill e => Sys2Proof.Machine.execCfill e s
  | .csqz e => Sys2Proof.Machine.execCsqz e s
  | .cxpd e => Sys2Proof.Machine.execCxpd e s
  | .zmap e => Sys2Proof.Machine.execZmap e s
  | .tkjoin e => Sys2Proof.Machine.execTkjoin e s
  | .enq e => Sys2Proof.Machine.execEnq e s
  | .deq e => Sys2Proof.Machine.execDeq e s
  | .qinfo e => Sys2Proof.Machine.execQinfo e s
  | .rfence e => Sys2Proof.Machine.execRfence e s
  | .pgreq e => Sys2Proof.Machine.execPgreq e s
  | .scrlim e => Sys2Proof.Machine.execScrlim e s
  | .reds e => Sys2Proof.Machine.execReds e s
  | .redd e => Sys2Proof.Machine.execRedd e s
  | .bcst e => Sys2Proof.Machine.execBcst e s
  | .rgrp e => Sys2Proof.Machine.execRgrp e s
  | .launch e => Sys2Proof.Machine.execLaunch e s
  | .cancel e => Sys2Proof.Machine.execCancel e s
  | .abort e => Sys2Proof.Machine.execAbort e s
  | .ctxsave e => Sys2Proof.Machine.execCtxsave e s
  | .ctxload e => Sys2Proof.Machine.execCtxload e s
  | .flushall e => Sys2Proof.Machine.execFlushall e s
  | .resultLand n => Sys2Proof.Machine.execResultLand n s
  | .faggResult n => Sys2Proof.Machine.execFaggResult n s
  | .dripTrayAppend n => Sys2Proof.Machine.execDripTrayAppend n s
  | .trapEntry => Sys2Proof.Machine.execTrapEntry s
  | .commandStart n => Sys2Proof.Machine.execCommandStart n s
  | .transferTile m => Sys2Proof.Machine.execTransferTile m s
  | .hatchFill n lane => Sys2Proof.Machine.execHatchFill n lane s
  | .hatchDrainTake n lane => Sys2Proof.Machine.execHatchDrainTake n lane s
  | .ticketComplete n => Sys2Proof.Machine.execTicketComplete n s
  | .streamFetch q => Sys2Proof.Machine.execStreamFetch q s
  | .streamStore q => Sys2Proof.Machine.execStreamStore q s
  | .queueDecision n => Sys2Proof.Machine.execQueueDecision n s
  | .spillMove lnum stage toRing => Sys2Proof.Machine.execSpillMove lnum stage toRing s
  | .swWriteBackMerge n => Sys2Proof.Machine.execSwWriteBackMerge n s
  | .gets agent line => Sys2Proof.Machine.execGets agent line s
  | .getx agent line => Sys2Proof.Machine.execGetx agent line s
  | .tok n => Sys2Proof.Machine.execTok n s
  | .wb agent line => Sys2Proof.Machine.execWb agent line s
  | .pact agent line n => Sys2Proof.Machine.execPact agent line n s
  | .pdeact n => Sys2Proof.Machine.execPdeact n s
  | .zclr agent tile => Sys2Proof.Machine.execZclr agent tile s
  | .zack n => Sys2Proof.Machine.execZack n s
  | .transientRetry n => Sys2Proof.Machine.execTransientRetry n s
  | .persistentEscalation n => Sys2Proof.Machine.execPersistentEscalation n s
  | .backInvalidateTimeout line => Sys2Proof.Machine.execBackInvalidateTimeout line s
  | .lineReset line => Sys2Proof.Machine.execLineReset line s
  | .uncorrectableError unit => Sys2Proof.Machine.execUncorrectableError unit s
  | .scratchSample die moves => Sys2Proof.Machine.execScratchSample die moves s
  | .groupFormation g => Sys2Proof.Machine.execGroupFormation g s
  | .collectiveOperation g => Sys2Proof.Machine.execCollectiveOperation g s
  | .stripeMerge g level node => Sys2Proof.Machine.execStripeMerge g level node s
  | .preemptionRequest id => Sys2Proof.Machine.execPreemptionRequest id s
  | .landing => Sys2Proof.Machine.execLanding s
  | .contextSwitch => Sys2Proof.Machine.execContextSwitch s
  | .drain => Sys2Proof.Machine.execDrain s
  | .resumption lnum stage inst arrays => Sys2Proof.Machine.execResumption lnum stage inst arrays s
  | .dispatch lnum stage inst arrays => Sys2Proof.Machine.execDispatch lnum stage inst arrays s
  | .agingInterval lnum stage inst => Sys2Proof.Machine.execAgingInterval lnum stage inst s
  | .rebalanceInterval lnum => Sys2Proof.Machine.execRebalanceInterval lnum s
  | .watchdogExpiry => Sys2Proof.Machine.execWatchdogExpiry s
  | .pipelineEnd lnum => Sys2Proof.Machine.execPipelineEnd lnum s
  | .sqTailUpdate q => Sys2Proof.Machine.execSqTailUpdate q s
  | .submissionRecord q => Sys2Proof.Machine.execSubmissionRecord q s
  | .submissionNotReady q => Sys2Proof.Machine.execSubmissionNotReady q s
  | .hostMemAccess op pa len value => Sys2Proof.Machine.execHostMemAccess op pa len value s
  | .powerOnReset => Sys2Proof.Machine.execPowerOnReset s
  | .conventionalReset => Sys2Proof.Machine.execConventionalReset s
  | .functionLevelReset => Sys2Proof.Machine.execFunctionLevelReset s
  | .linkReplayFailure link => Sys2Proof.Machine.execLinkReplayFailure link s
  | .fatalError kind => Sys2Proof.Machine.execFatalError kind s
  | .powerArbiterPeriod requests => Sys2Proof.Machine.execPowerArbiterPeriod requests s
  | .thermalThrottle die temp => Sys2Proof.Machine.execThermalThrottle die temp s
  | .thermalTrip die => Sys2Proof.Machine.execThermalTrip die s
  | .xlatchWrite value => Sys2Proof.Machine.execXlatchWrite value s
  | .pwrbudWrite value => Sys2Proof.Machine.execPwrbudWrite value s
  | .mgmtRegisterWrite off value => Sys2Proof.Machine.execMgmtRegisterWrite off value s
  | .getVersion => Sys2Proof.Machine.execGetVersion s
  | .getCapabilities => Sys2Proof.Machine.execGetCapabilities s
  | .negotiateAlgorithms => Sys2Proof.Machine.execNegotiateAlgorithms s
  | .getCertificate => Sys2Proof.Machine.execGetCertificate s
  | .challenge nonce => Sys2Proof.Machine.execChallenge nonce s
  | .getMeasurements => Sys2Proof.Machine.execGetMeasurements s
  | .managementControllerRestart id => Sys2Proof.Machine.execManagementControllerRestart id s
  | .backInvalidateAnswer line => Sys2Proof.Machine.execBackInvalidateAnswer line s
  | .powerOff => Sys2Proof.Machine.execPowerOff s

end Sys2Proof.Machine
end

