-- ==== Sys2Proof/Machine/Issue.lean ====
section
/-! DEFINITION. The sequencer: how a context fetches a bundle (R30), checks it (R29, R315), holds it (R11), lets its slots act
(R9, R10, R12, R13) and moves on (R17, R21, R318), what a context does that issues nothing, and which step of the other agents
comes where a context has to wait (log entry 13). Every operation and every event runs through `exec`. -/

namespace Sys2Proof.Machine

/-- The state after an instruction or an event. -/
def State.run (s : State) (i : Instr) : State := stateOf s (exec i s)

/-! ### Steps of the other agents (log entry 13) -/

def queueEvents (s : State) : List Instr := if s.ctx.qops ≠ [] ∧ (s.pipelineOf s.ctx.lnum).isSome = true then [.queueDecision 0] else []

/-- Commands that move transfer tiles. -/
def tileOp : Instr → Bool
  | .hstore _ | .hscat _ | .hstzTensor _ | .hmcast _ | .hstz _ | .copy _ | .cfill _ | .zmap _ | .csqz _ | .cxpd _ | .ctxsave _ => true
  | _ => false

/-- Elements that a hatch command can move. -/
def laneEvents (c : Context) (n : Nat) (k : EngCmd) : List Instr :=
  match c.nextLane n k with
  | none => []
  | some l => if inHatchOp k.op then [.hatchFill n l] else [.hatchDrainTake n l]

def commandEvents (c : Context) (n : Nat) (k : EngCmd) : List Instr :=
  (if k.outcome.isSome && !k.closed && k.out.isEmpty then [.ticketComplete n] else []) ++ (if c.startable k then [.commandStart n] else []) ++
    (if hatchOp k.op then laneEvents c n k else []) ++
    (if k.out ≠ [] ∨ (c.movable k && tileOp k.op && k.tileReady) = true then [.transferTile ⟨n, 0⟩] else [])

def streamEvents (c : Context) (n : Nat) : List Instr :=
  let q := c.streams.toList.getD n Stream.free
  if q.bind ≠ .bound ∨ c.drainedAway = true then []
  else if q.write then
    (match q.buf.head? with
     | some (.value _) => [.streamStore (Fin.ofNat 16 n)]
     | _ => [])
  else if q.buf.length < q.room ∧ q.next < q.total ∧ q.buf.all StreamElem.good = true then [.streamFetch (Fin.ofNat 16 n)] else []

/-- The first node that has not merged. -/
def mergeSpot (r : GroupRun) : Option (Nat × Nat) :=
  (r.levels.zipIdx).findSome? (fun x => (x.1.findIdx? Option.isNone).map (fun n => (x.2, n)))

def groupEvents (n : Nat) (g : Group) : List Instr :=
  if !g.formed then [.groupFormation n]
  else
    match g.run.bind mergeSpot with
    | some (level, node) => [.stripeMerge n level node]
    | none => [.collectiveOperation n]

/-- Steps of the scheduler for an instance that waits: it ages, and is placed where it can be. -/
def instEvents (s : State) (p : Pipeline) (i : Inst) : List Instr :=
  match p.stages[i.stage]? with
  | none => []
  | some g =>
    if i.waits && !p.closing then
      .agingInterval p.lnum i.stage i.slot ::
        (match s.freeArrays g (if i.state = .fresh then g.ctxs else (s.drained p.lnum i.stage i.slot).length) with
         | none => []
         | some l => if i.state = .fresh then [.dispatch p.lnum i.stage i.slot l] else [.resumption p.lnum i.stage i.slot l])
    else []

/-- Steps of the scheduler for a pipeline: its end, where it can end; another instance, where a stage asks for one (R308); and those of its
instances. -/
def pipeEvents (s : State) (p : Pipeline) : List Instr :=
  .pipelineEnd p.lnum :: (if (p.rebalance s.free).insts.length = p.insts.length then [] else [.rebalanceInterval p.lnum]) ++ p.insts.flatMap (instEvents s p)

/-- The scheduler asks a context at a landing point for its array, where another waits for it (R306 to R309). -/
def requestEvents (s : State) (c : Context) : List Instr :=
  if c.status = .running ∧ c.active = true ∧ c.landPoint = true ∧ c.request = none ∧
      ((s.readyRival c).isSome || s.outranked c || s.mayShed c) = true then [.preemptionRequest c.ctxid.toNat]
  else []

/-- Steps of the coherence fabric (R358 to R367): a message arrives, a request is sent again, the host answers. -/
def fabricEvents (s : State) : List Instr :=
  (if s.msgs = [] then [] else [.tok 0]) ++
    (match s.pmsgs with
     | [] => []
     | m :: _ => [if m.act then .pact m.agent m.line 0 else .pdeact 0]) ++
    (match s.treqs with
     | [] => []
     | r :: _ => [if r.sent < 4 then .transientRetry 0 else .persistentEscalation 0]) ++
    (match s.snoops with
     | [] => []
     | x :: _ => [.backInvalidateAnswer x.line]) ++
    (if s.zclrs = [] then [] else [.zack 0]) ++ (if s.mgmt.xlatch = 0 then [] else [.hostMemAccess .xlatchDone 0 0 0]) ++ (if s.posted = [] then [] else [.hostMemAccess (.perform 0) 0 0 0])

/-- Steps of the queues and engines for the context on turn. -/
def ownEvents (s : State) : List Instr := queueEvents s ++ (s.ctx.cmds.zipIdx).flatMap (fun x => commandEvents s.ctx x.2 x.1)

/-- A result may land before its bound (R18, R280, log entry 13). -/
def landEvents (s : State) : List Instr := if s.ctx.pend = [] then [] else [.resultLand 0]

/-- Steps that some agent can take now. -/
def openEvents (s : State) : List Instr :=
  ownEvents s ++ landEvents s ++ (List.range 15).flatMap (streamEvents s.ctx) ++
    (if s.writeBacks = [] then [] else [.swWriteBackMerge 0]) ++ fabricEvents s ++ (s.groups.zipIdx).flatMap (fun x => groupEvents x.2 x.1) ++
    requestEvents s s.ctx ++ s.pipelines.flatMap (pipeEvents s)

/-- One of them comes: in the turns of each context one after another, so that none waits for ever (R309). -/
def State.background (s : State) : State :=
  match openEvents s with
  | [] => s
  | i :: r => State.run { s with ctx.polls := s.ctx.polls + 1, src := s.ctx } (((i :: r)[s.ctx.polls % (r.length + 1)]?).getD i)

/-- The turn goes to the next context. -/
def State.rotate (s : State) : State :=
  match s.others with
  | [] => s
  | c :: r => { s with ctx := c, others := if s.ctx.status = .absent then r else r ++ [s.ctx] }

/-- The turn goes to the `n`-th of the other contexts. -/
def State.turnOf (s : State) (n : Nat) : State :=
  match s.others[n]? with
  | none => s
  | some c => { s with ctx := c, others := s.others.set n s.ctx }

/-- The context on turn has to wait: another agent, then another context, gets its step. -/
def State.wait (s : State) : State := s.background.rotate

/-! ### Reports and deferred faults (R315 rank 1, R317, R322) -/

/-- The slot that a report's producer stood in, by its source (R319). -/
def PoisonReport.slot (r : PoisonReport) : Nat :=
  match r.info.toNat / 2 ^ 60 with
  | 3 => 4
  | 4 => 2
  | _ => 0

/-- Earlier producers come first; within one issue, earlier slots. -/
def earlier (a b : Nat × Nat) : Bool := decide (a.1 < b.1) || (a.1 == b.1 && decide (a.2 ≤ b.2))

def firstReport : List PoisonReport → Option PoisonReport
  | [] => none
  | r :: l =>
    match firstReport l with
    | none => some r
    | some x => if earlier (r.issue, r.slot) (x.issue, x.slot) then some r else some x

/-- Whether a deferred fault is taken before the next issue (R317), or at a landing point at which a request waits (R324). -/
def Context.faultDue (c : Context) : Bool :=
  c.liveFaults.any (fun f => f.due || decide (f.issue + 35 + c.chainC ≤ c.issues)) ||
    (c.request.isSome && c.landPoint && !c.liveFaults.isEmpty)

/-- The trap of the first pending report, with the context that it leaves. -/
def Context.dueReport (c : Context) : Option (Nat × Word × Context) :=
  let r := firstReport c.liveReports
  let f := c.liveFaults.head?
  if r.isNone && !c.faultDue then none
  else
    match r, f with
    | none, none => none
    | none, some f => some (0x0D, f.info, c)
    | some r, none => some (0x0C, r.info, { c with reports := c.reports.erase r })
    | some r, some f =>
      if earlier (f.issue, 3 + f.slot.toNat) (r.issue, r.slot) then some (0x0D, f.info, c)
      else some (0x0C, r.info, { c with reports := c.reports.erase r })

/-! ### Fetching (R30, R74) -/

/-- The words of the bundle at the pc, header first. -/
def State.fetchBundle (s : State) : Except Verdict (List Nat) :=
  let c := s.src
  if c.pc % 4 ≠ 0 then .error (.trap 0x06 (BitVec.ofNat 64 c.pc))
  else if 2 ^ 56 ≤ c.pc then .error (.trap 0x09 (BitVec.ofNat 64 c.pc))
  else
    match s.fetchWord c c.pc with
    | .error v => .error v
    | .ok h =>
      match s.fetchWords c (c.pc + 4) (bundleLen h / 4 - 1) with
      | .error v => .error v
      | .ok ws => .ok (h :: ws)

/-- A bundle is fetched once; its repeats are issues of the same words (R12). -/
def State.bundleWords (s : State) : Except Verdict (List Nat) := if s.src.cur = [] then s.fetchBundle else .ok s.src.cur

/-! ### Checks (R29, R315) -/

/-- An instruction of a bundle's S, B or E slot. -/
def scalarSlot (i : Instr) : Bool := i.slot == some .s || i.slot == some .b || i.slot == some .e

/-- An instruction of a wave slot. -/
def waveSlot (i : Instr) : Bool := i.slot == some .w0 || i.slot == some .w1 || i.slot == some .m

/-- The instruction of a bundle's B word, where it decodes, and the streams that its S word claims before it. -/
def wordB (ws : List Nat) : Option (Instr × Claims) :=
  let sws := slotWords (presentSlots (fld (ws.headD 0) 0 6)) ws.tail
  let cl := match sws.find? (fun x => x.1 == .s) with
    | none => Claims.none
    | some x => match decodeS x.2 with
      | .ok i => Claims.none.of i
      | .error _ => Claims.none
  match sws.find? (fun x => x.1 == .b) with
  | none => none
  | some x => match decodeB x.2 with
    | .ok i => some (i, cl)
    | .error _ => none

/-- Whether an instruction reads or writes a register that an undecided queue operation will write (R284). -/
def Context.owesReg (c : Context) (i : Instr) : Bool := (regsOf i).any c.queueRegs.contains

/-- The headers that the bundle's B word needs ahead (rank 2). Whether it needs one is not known while the register that it counts by is
owed (R284). -/
def State.checkFetchAhead (s : State) (ws : List Nat) : Verdict :=
  match wordB ws with
  | none => .go
  | some (i, cl) => if s.src.owesReg i then .hold else checkAhead i cl s

/-- The headers that a bundle's B word fetches ahead of its issue (R30). -/
def State.aheadOf (s : State) (ws : List Nat) : List Nat :=
  let c := s.src
  let next := c.pc + bundleLen (ws.headD 0)
  match wordB ws with
  | some (.call _, _) | some (.callr _, _) =>
    next :: (match s.nextBundle c next with
      | .ok a => [a]
      | .error _ => [])
  | some (.loop _ last, _) | some (.loopv _ last, _) | some (.loops _ last, _) => [s.loopLast last]
  | some (.leave, _) => (c.loops.head?.map (·.last)).toList
  | _ => []

/-- The headers that the bundle being issued has fetched, its own among them: what its slots do to memory does not change them. -/
def State.headers (s : State) (ws : List Nat) : List (Nat × Nat) :=
  (s.src.pc, bundleLen (ws.headD 0)) :: (s.aheadOf ws).filterMap (fun a => match s.fetchWord s.src a with
    | .ok h => some (a, bundleLen h)
    | .error _ => none)

/-- What fetching those headers does to the caches and to the TLB. -/
def State.touchAhead (s : State) (ws : List Nat) : State := (s.aheadOf ws).foldl (fun s a => s.touchCode s.ctx a 4) s

/-- A follower's bundle mentions no wave slot (R101). -/
def checkFollower (s : State) (ops : List Instr) : Verdict :=
  if s.src.follower then
    match ops.find? waveSlot with
    | none => .go
    | some i => .trap 0x02 (slotInfo ((i.slot.map Slot.code).getD 0))
  else .go

/-- Ranks 5 to 8. -/
def State.checkBundle (s : State) (b : Bundle) : Verdict :=
  let ops := if s.src.rep = 0 then b.ops.filter scalarSlot else []
  Verdict.all [checkPrivilege s ops, if ops.any (fun i => i.slot == some .b) then checkDelay s else .go, checkSlots s ops, checkFollower s b.ops]

/-! ### The wave word (R13) -/

def isWaveNop : Instr → Bool
  | .vnop => true
  | .wnop => true
  | .mnop => true
  | _ => false

/-- The operation that a bundle mentions in a slot. -/
def mention (b : Bundle) (k : Slot) : Option Instr := b.ops.find? (fun i => i.slot == some k)

/-- What a slot issues: the operation that the bundle mentions there, else the sticky one (R26). -/
def slotOp (m sticky : Option Instr) : Option Instr := if m.isSome then m.filter (fun i => !isWaveNop i) else sticky

/-- How often a slot's operation has issued before: a mention begins at 0, and again where a repeat finds another operation in the slot
(R13, log entry 67). -/
def slotCount (first : Bool) (m sticky : Option Instr) (old : Nat) : Nat := if m.isSome && (first || m != sticky) then 0 else old + 1

def Context.waveWord (c : Context) (b : Bundle) : WaveWord :=
  let first := c.rep == 0
  { sel := b.sel, w0 := slotOp (mention b .w0) c.sticky.w0, w1 := slotOp (mention b .w1) c.sticky.w1,
    w1n := slotCount first (mention b .w1) c.sticky.w1 c.sticky.w1n, m := slotOp (mention b .m) c.sticky.m,
    mn := slotCount first (mention b .m) c.sticky.m c.sticky.mn }

/-- The instructions that the wave slots run, no-ops included. -/
def Context.waveRuns (c : Context) (b : Bundle) : List Instr :=
  let pick (m sticky : Option Instr) : List Instr := if m.isSome then m.toList else sticky.toList
  pick (mention b .w0) c.sticky.w0 ++ pick (mention b .w1) c.sticky.w1 ++ pick (mention b .m) c.sticky.m

/-! ### Holding (R11) -/

/-- A sequencer access to memory, or an engine command, which follows an edge of R201 in program order. -/
def accessOp (i : Instr) : Bool :=
  match i with
  | .ld .. | .st .. | .amo .. | .cas .. | .amof .. | .cwb .. | .cinv .. | .cflush .. | .fence .. => true
  | .enq .. | .deq .. | .qinfo .. => false
  | _ => i.slot == some .e

/-- The holds that come before a bundle's operands are looked at: it reads or writes a register that a queue operation still owes (R284), or
it accesses memory while a DEQ is undecided, whose edge orders it after the producer (R201, log entry 63). -/
def State.queueHeld (s : State) (b : Bundle) : Bool :=
  let ops := if s.src.rep = 0 then b.ops.filter scalarSlot else []
  ops.any s.src.owesReg || (s.src.qops.any (fun o => o.kind == .deq) && ops.any accessOp)

/-- The holds that concern the bundle as a whole: room in the condition queue (R15), results outstanding (R20), and the wave word's own
(R96, R97, R134). -/
def State.bundleHeld (s : State) (b : Bundle) : Bool :=
  let c := s.src
  let ops := if c.rep = 0 then b.ops.filter scalarSlot else []
  let w := c.waveWord b
  let all := ops ++ w.ops
  let late := (all.map lateOf).sum
  decide (16 < c.cq.length - (ops.map popsOf).sum + (all.map reservesOf).sum ∧ (all.map reservesOf).sum ≠ 0) ||
    decide (late ≠ 0 ∧ 64 < c.outstanding + late) ||
    s.waveHeld w

/-- The instruction in whose wait a bundle is held: WAITQ, BARW, TKWAIT or YIELD, once nothing before it in the bundle holds (R324). -/
def State.waitsIn (s : State) (b : Bundle) : Option Instr :=
  let ops := b.ops.filter scalarSlot
  if s.src.rep = 0 ∧ checkOps 0 .none s (ops.filter (fun i => i.slot == some .s)) = .go ∧ ops.all (fun i => !s.src.owesReg i) = true then
    ops.find? (fun i => landingWait i s)
  else none

/-- A held bundle's cycle: a landing wait stops the watchdog's timer (R311) and is a landing point (R324). -/
def State.holdIssue (s : State) (b : Bundle) : State :=
  let w := s.waitsIn b
  let s := s.hold
  State.wait { s with ctx.timer := if w.isSome then 0 else s.ctx.timer + 1, ctx.landPoint := w.isSome, ctx.inWaitq := w == some .waitq,
                      ctx.yielded := s.ctx.yielded || w == some .yield }

/-! ### Acting (R9, R10, R12) -/

/-- Instructions that write a register which the cells read (R63). -/
def cellRegWrite : Instr → Bool
  | .mtc _ _ | .mtcs _ _ | .mtsh _ _ | .msel _ _ _ => true
  | _ => false

/-- A bundle with repeats keeps the registers that the cells read as they stood before it, where its S slot writes one (R63). -/
def State.keepCellRegs (s : State) (b : Bundle) : State :=
  if s.src.rep = 0 ∧ b.rep ≠ 0 ∧ b.ops.any cellRegWrite = true then { s with ctx.cellRegs := some s.src.cellView } else s

/-- The slots act: S, B and E at repeat index 0, then the wave word. -/
def State.act (s : State) (b : Bundle) : State :=
  let c := s.src
  let s := s.keepCellRegs b
  let s := if c.rep = 0 then (b.ops.filter (fun i => scalarSlot i && !actsAfter i)).foldl State.run s else s
  match b.ops with
  | [.stick sel rep] => s.run (.stick sel rep)
  | _ => (c.waveRuns b).foldl State.run (s.waveStart (c.waveWord b))

/-! ### Moving on (R12, R17, R21) -/

/-- Where the context goes once the bundle is complete. -/
def Context.complete (c src : Context) (len : Nat) : Context :=
  match c.goto with
  | some a => { c with pc := a, goto := none }
  | none =>
    if src.dsc = 1 then { c with pc := if src.late then src.pc + len else src.target.toNat, dsc := 0, target := 0, late := false }
    else
      let c := if src.dsc = 0 then c else { c with dsc := src.dsc - 1 }
      match loopEnd src.pc c.loops with
      | (some a, l) => { c with pc := a, loops := l }
      | (none, l) => { c with pc := src.pc + len, loops := l }

/-- Whether the boundary after a bundle is a landing point: outside loops, or at the end of the innermost body (R324). -/
def landsAfter (src : Context) (dsc : Nat) : Bool :=
  dsc == 0 && (match src.loops with
    | [] => true
    | e :: _ => e.last == src.pc)

/-- The first delay bundle of a branch not taken is over: where the second one's header can be read now, the target is known (R75). -/
def State.findTarget (s : State) (c : Context) : Context :=
  if c.late && c.dsc == 1 then
    match s.nextBundle c c.pc with
    | .ok a => { c with target := BitVec.ofNat 64 a, late := false }
    | .error _ => c
  else c

/-- The issue is over. -/
def State.advance (s : State) (b : Bundle) (ws : List Nat) : State :=
  let c := { s.ctx with issues := s.ctx.issues + 1, cycle := s.ctx.cycle + 1 }
  if s.src.rep < b.rep then s.setCtx { c with rep := s.src.rep + 1, cur := ws, timer := c.timer + 1, landPoint := false }
  else
    let c := s.findTarget (({ c with rep := 0, cur := [], cellRegs := none } : Context).complete s.src b.len)
    let land := landsAfter s.src c.dsc
    s.setCtx { c with landPoint := land, timer := if land then 0 else c.timer + 1 }

/-- Whether a stepped bundle is over (R318). -/
def stepDone (src c : Context) : Bool := src.stepping && (src.dsc == 0 || c.dsc == 0)

/-- RFT, CTXSW and HALT act when their bundle is over. A trap that falls due after the bundle comes before the landing of
CTXSW. -/
def State.actAfter (s : State) (traps : Bool) (i : Instr) : State :=
  match i with
  | .rft => s.run .rft
  | .halt => s.run .halt
  | .ctxsw => if traps then s.requestChain s.ctx .drain else s.run .ctxsw
  | _ => s

/-- What comes after the bundle's last repeat (R81, R86, R69, R318, R336): the traps by rank, then single step. Where the bundle's EXIT or
HALT has ended the context, neither a BKPT's trap nor the step trap is taken (log entry 32). -/
def State.afterBundle (s : State) (b : Bundle) : State :=
  let bOps := if s.src.rep = 0 then b.ops.filter (fun i => i.slot == some .b) else []
  let trapping := (bOps ++ b.ops.filter (fun i => i.slot == some .s)).filter (fun i => (trapAfter s i).isSome)
  let step := stepDone s.src s.ctx
  let s := bOps.foldl (fun s i => s.actAfter (!trapping.isEmpty || step) i) s
  if s.ctx.status ≠ .running then s
  else
    match trapping with
    | i :: _ => s.run i
    | [] => if step then s.takeTrap 0x0F 0 else s

/-- A context that has ended in this issue has let every slot act; what the later slots left under way lands too (R87). -/
def State.settleEnd (s : State) : State :=
  match s.ctx.status with
  | .ending r => (s.setCtx (s.ctx.stopFor r)).spreadEnds
  | _ => s

/-! ### What the translations of the S slot leave behind (R216, R357) -/

/-- The pages of a range in which a held line lies, by their number in it. -/
def State.linePages (s : State) (c : Context) (a b : Nat) : List Nat :=
  (List.range ((a + b - 1) / 65536 - a / 65536 + 1)).filter (fun i =>
    !(s.coveredLines c (max a ((a / 65536 + i) * 65536)) (min (a + b) ((a / 65536 + i + 1) * 65536) - max a ((a / 65536 + i) * 65536))).isEmpty)

/-- The addresses that an S-slot operation translates, each with a length: of a load, a store or an atomic its own; of a cache operation the
pages that it acts on. -/
def State.dataPages (s : State) (i : Instr) : List (Nat × Nat) :=
  let value (cl : Claims) (o : Opnd) : Option Nat := (s.peek cl o).toOption.map (·.toNat)
  let range (a b : Opnd) : List (Nat × Nat) :=
    match value .none a, value (Claims.none.read a) b with
    | some x, some y => if y = 0 then [] else (s.linePages s.src x y).map (fun i => (max x ((x / 65536 + i) * 65536), 1))
    | _, _ => []
  match i with
  | .ld _ a off _ => ((value .none a).map (fun x => ((effAddr (BitVec.ofNat 64 x) off).toNat, offSize off))).toList
  | .st d a off => ((value (Claims.none.read d) a).map (fun x => ((effAddr (BitVec.ofNat 64 x) off).toNat, offSize off))).toList
  | .amo _ a _ _ sz _ => ((value .none a).map (fun x => (x, amoBytes sz))).toList
  | .cas d a _ sz _ => ((value (Claims.none.read d) a).map (fun x => (x, amoBytes sz))).toList
  | .amof _ a _ _ => ((value .none a).map (fun x => (x, 4))).toList
  | .cwb a b => range a b
  | .cinv a b => range a b
  | .cflush a b => range a b
  | _ => []

/-- Those translations fill the TLB and read the tables, whether they succeed or not. -/
def State.touchData (s : State) (b : Bundle) : State :=
  if s.src.rep = 0 then
    ((b.ops.filter (fun i => i.slot == some .s)).flatMap s.dataPages).foldl (fun s x =>
      if x.1 + x.2 ≤ 2 ^ 56 then s.fillPages (s.ctx.who s.variant) x.1 x.2 else s) s
  else s

/-- One issue of a bundle that nothing holds. -/
def State.issue (s : State) (b : Bundle) (ws : List Nat) : State :=
  let t := { (State.act { s with ahead := s.headers ws } b).advance b ws with ahead := [] }
  (if s.src.rep < b.rep then t else t.afterBundle b).settleEnd

/-- A verdict before a bundle acts. -/
def State.stopped (s : State) (b : Bundle) : Verdict → State
  | .go => s
  | .hold => s.holdIssue b
  | .trap cause info => (s.takeTrap cause info).settleEnd

/-- A decoded bundle issues, is held, or traps. -/
def State.tryIssue (s : State) (b : Bundle) (ws : List Nat) : State :=
  if s.queueHeld b then s.holdIssue b
  else
    match s.checkBundle b with
    | .go => if s.bundleHeld b then s.holdIssue b else (s.touchData b).issue b ws
    | .hold => s.holdIssue b
    | .trap cause info => (if cause = 0x08 ∨ cause = 0x09 then s.touchData b else s).stopped b (.trap cause info)

/-- The bundle at the pc. -/
def State.issueBundle (s : State) : State :=
  let none : Bundle := { sel := 0, rep := 0, len := 0, ops := [] }
  let s := s.fetchReady
  match s.bundleWords with
  | .error v => s.stopped none v
  | .ok ws =>
    let ahead := if s.src.rep = 0 then s.checkFetchAhead ws else .go
    let s := if s.src.rep = 0 then s.touchAhead ws else s
    match ahead with
    | .trap cause info => s.stopped none (.trap cause info)
    | v =>
      match decodeBundle (ws.headD 0) ws.tail with
      | .error e => s.stopped none (if v = .hold then .hold else .trap e.cause (BitVec.ofNat 64 (e.row * 16 + e.slot.code)))
      | .ok b => s.tryIssue b ws

/-! ### The turn of a context -/

/-- A context that waits for what others owe it, its watchdog running (R311). -/
def State.waitCycle (s : State) : State := State.wait { s.hold with ctx.timer := s.ctx.timer + 1 }

/-- A running context on its array. The second part of an access that crossed a line comes first (R195). One that ABORT ends stops at the
boundary of its bundle (R337). -/
def State.runTurn (s : State) : State :=
  let s := s.settleHalf
  let c := s.ctx.arriveDue
  let s := { s with ctx := c, src := if c.rep = 0 then c else c.asRepeat }
  if c.doomed.isSome && c.rep == 0 then (s.setCtx (c.stopFor (c.doomed.getD .aborted))).spreadEnds
  else if (s.pipelineOf c.lnum).isSome = true ∧ s.wdogCycles c ≤ c.timer then s.run .watchdogExpiry
  else if c.trapDue.isSome then (if c.cqAllFilled then s.run .trapEntry else s.waitCycle)
  else
    match c.dueReport with
    | some (cause, info, c) => ((s.setCtx c).takeTrap cause info).settleEnd
    | none =>
      if c.awaitsLanding then
        let t := s.run .landing
        if t.ctx.status = .running then t.hold.wait else t
      else State.issueBundle { s with ctx.inWaitq := false }

/-- A landed context: its array switches, or it is drained once the commands that a drain waits for are over. -/
def State.landedTurn (s : State) : State :=
  if s.ctx.request = some .switch then (if s.chainLanded s.ctx then (s.run .contextSwitch).rotate else s.wait) else State.wait (s.run .drain)

/-- Whether a hatch command of an ending context may still be served: its chain's leader issues wave words that reach its hatches (R102). -/
def State.leaderLives (s : State) (c : Context) : Bool :=
  c.follower && s.contexts.any (fun m => c.sameChain m && !m.follower && m.live)

/-- An ending context: what it has under way drains; a hatch command that nothing serves any more ends where it stands (R87). One whose
chain is away in save areas waits with it (R102). -/
def State.endTurn (s : State) : State :=
  let s := s.settleHalf
  if s.ctx.drainedAway then s.wait
  else if ownEvents s ≠ [] then s.wait
  else if s.ctx.qops ≠ [] ∨ s.ctx.cmds ≠ [] then (if s.leaderLives s.ctx then s.wait else (s.setCtx s.ctx.endStranded).wait)
  else s.finishEnding.wait

/-- Every sixteenth step of a running context, the other agents get one too (log entry 13). -/
def State.share (s : State) (n : Nat) : State := if n % 16 = 15 then s.wait else s

/-- Steps that a fatal error ends: contexts are stopped, nothing is dispatched, and no completion record is written (R403; log entry 66). -/
def endedByFatal : Instr → Bool
  | .trapEntry | .landing | .contextSwitch | .drain | .watchdogExpiry => true
  | .resumption _ _ _ _ | .dispatch _ _ _ _ | .agingInterval _ _ _ | .rebalanceInterval _ | .preemptionRequest _ | .pipelineEnd _ => true
  | .submissionRecord _ | .managementControllerRestart _ => true
  | _ => false

/-- One step of the module of its own accord. After a fatal error nothing issues (R403); and after a reset the firmware sets READY, the last
step of bring-up (R398). -/
def State.turn (s : State) : State :=
  let s := { s with src := s.ctx }
  if s.mgmt.fatal then s.rotate
  else if !s.mgmt.ready then { s with mgmt.ready := true }
  else
    match s.ctx.status with
    | .running =>
      if s.ctx.active && s.ctx.array.isSome then s.runTurn.share s.free
      else if s.ctx.awaitsLanding then s.run .landing
      else s.wait
    | .landed => s.landedTurn
    | .ending _ => s.endTurn
    | _ => s.wait

end Sys2Proof.Machine
end

