-- ==== Sys2Proof/Machine/Launch.lean ====
section
/-! DEFINITION. A launch from outside that lets one given bundle issue next (log entry 23): a one-stage pipeline on array 0, whose
code page is mapped by real tables in the memory of die 0, with the bundle at the entry address. -/

namespace Sys2Proof.Machine

/-- A die-pinned physical address of die 0 (R209). -/
def pinned0 (off : Nat) : Nat := 2 ^ 51 + off

/-- Where the tables and the code page lie in die 0. -/
def astOff : Nat := 0x10000
def hatOff : Nat := 0x20000
def codeOff : Nat := 0x30000
def iptOff : Nat := 0x400000

/-- The entry address of the launched stage. -/
def entryVa : Nat := 0x1000

/-- The page-table entry that maps virtual page 0 of ASID 0 to the code page, resident, with every permission (R213). -/
def codeEntry : Nat := (2 ^ 35 + codeOff / 65536) * 2 ^ 88 + 7 * 2 ^ 45 + 0xF * 2 ^ 7 + 2 ^ 6 + 1

/-- The anchor of virtual page 0 of ASID 0: valid, with the code page's slot (R214). -/
def codeAnchor : Nat := 2 ^ 31 + codeOff / 65536

/-- The latched registers name the tables. -/
def tableRegs (x : XlatRegs) : XlatRegs :=
  { x with xhatb := BitVec.ofNat 64 (pinned0 hatOff + 16), xastb := BitVec.ofNat 64 (pinned0 astOff),
           xiptb := x.xiptb.set 0 (BitVec.ofNat 64 (pinned0 iptOff)) }

/-- The stage that runs the bundle. -/
def launchStage : Stage :=
  { quota := 0, maxInst := 1, minInst := 1, scrHi := 0, scrLo := 0, out0 := 0xF, out1 := 0xF, foot := 1, fuse := false, chain := 1,
    ctxs := 1, entry := entryVa, queue := [] }

def launchPipe (lnum : Nat) : Pipeline :=
  { lnum := lnum, asid := 0, level := .supervisor, prio := 0, wdog := 1000, age := 128, rebal := 8, compl := 0, spill := 0, saveBase := 0,
    saveLen := 0, ttbase := 0, phase := 0, stages := [launchStage], insts := [{ stage := 0, slot := 0, state := .running, prio := 0, since := 0 }],
    results := [], exitOr := 0, nzcnt := 0, dispatched := true, status := 0, closing := false, aborters := [] }

/-- The context of the launched pipeline, on array 0. -/
def State.launched (s : State) : Context :=
  { s.newContext (launchPipe s.nextLnum) launchStage 0 0 0 [0] with active := true }

/-- Puts the bytes of a bundle at the entry address, under tables of their own, and launches it. -/
def State.launchBytes (s : State) (bs : List Byte) : State :=
  let c := s.launched
  let s := { s with
    power := true, inputs := [], ctx := c, src := c, others := [], pipelines := s.pipelines ++ [launchPipe s.nextLnum], nextLnum := s.nextLnum + 1,
    mgmt := { s.mgmt with ready := true, fatal := false, regs := { tableRegs s.mgmt.regs with rgn := Vector.replicate 64 0 },
                          latched := { tableRegs s.mgmt.latched with rgn := Vector.replicate 64 0 } },
    pois := [], zflags := [], zflagErr := [], lines := [], msgs := [], swLines := [], writeBacks := [], tlb := [] }
  (((s.putBytes astOff [0x81]).putBytes hatOff (leBytes 4 codeAnchor)).putBytes (iptOff + 16 * (codeOff / 65536)) (leBytes 16 codeEntry)).putBytes
    (codeOff + entryVa) bs

end Sys2Proof.Machine
end

