-- ==== Sys2Proof/Machine/Step.lean ====
section
/-! DEFINITION. The step of the module: the input at the head of the list where there is one (log entry 13), else the step that
the context on turn takes of its own accord. -/

namespace Sys2Proof.Machine

/-- Every step draws free values of its own. Faults that the device has met in it end their pipelines (R304). -/
def State.tick (s : State) : State :=
  let s := if s.devFaults = [] then s else s.takeDevFaults
  { s with free := s.free + 1 }

/-- An input: an event of some agent, or the turn of another context. An instruction of a program is no event, and some agents have stopped
after a fatal error (R403). -/
def State.take1 (s : State) (i : Input) : Host.Outcome State Fault Refusal :=
  match i with
  | .turn n => .next (s.turnOf n)
  | .event e => if e.slot.isSome || (s.mgmt.fatal && endedByFatal e) then .next s else exec e { s with src := s.ctx }

/-- Without power only a power-on reset does anything (R398). -/
def State.powered (s : State) (i : Input) : Bool := s.power || decide (i = .event .powerOnReset)

def ticked : Host.Outcome State Fault Refusal → Host.Outcome State Fault Refusal
  | .next s => .next s.tick
  | .fault f => .fault f
  | .refused r => .refused r

def step (s : State) : Host.Outcome State Fault Refusal :=
  match s.inputs with
  | i :: r => if s.powered i then ticked (State.take1 { s with inputs := r } i) else .fault .noPower
  | [] => if s.power then .next s.turn.tick else .fault .noPower

/-- The bytes of the bundle that holds a lone word of the opcode table, in the first slot whose decoder takes it. -/
def wordBytes (nbits w : Nat) : List Byte :=
  match tableDecode (tableSlots nbits) w with
  | some (k, _) => loneBundle k w
  | none => loneBundle (if nbits ≤ 32 then .s else .e) w

/-- The machine with the instruction `w` where its next step fetches: a launch from outside (log entry 23). -/
def State.withFetchWord (s : State) (nbits w : Nat) : State := s.launchBytes (wordBytes nbits w)

end Sys2Proof.Machine
end

