-- ==== Sys2Proof/Safety.lean ====
section
/-! DEFINITION. The words in which claims are made: which operands an instruction finds, what it may leave changed, where it
stores, and the invariant of memory. -/

namespace Sys2Proof.Machine

/-! ### Operands -/

/-- The operand fields `os` can be read, one after the other, and deliver `ws` (R7, R8): a stream among them is bound for reading
and has its elements, unpoisoned. -/
def State.Delivers (s : State) (os : List Opnd) (ws : List Word) : Prop := s.peekAll Claims.none os = .ok ws

/-- The destination field can take a result (R7, R244): a register always can; a stream must be bound for writing, with room. -/
def State.Accepts (s : State) (d : Opnd) : Prop := s.checkDest Claims.none d = .go

/-- The machine once the operand fields `os` have been read: streams and the drip tray have moved on. -/
def State.reading (s : State) (os : List Opnd) : State := (s.takeAll os).2

/-- The value of the register or of the next stream element that a result has just reached. -/
def Context.lastOf (c : Context) : Opnd → Option StreamElem
  | .s n => some (.value (c.reg n))
  | .q n => c.streams[n].buf.getLast?

/-! ### Frames -/

/-- `t` differs from `s` in the scalar registers, the streams and the drip tray of the context on turn, at most: memory, flags,
special registers, loops, tickets, commands, cells and every other context are as they were. -/
def OnlyOperands (s t : State) : Prop :=
  t = { s with ctx.regs := t.ctx.regs, ctx.streams := t.ctx.streams, ctx.drip := t.ctx.drip, ctx.dripHalf := t.ctx.dripHalf }

/-- The scalar registers other than those that `ds` names are as they were. -/
def RegsBut (ds : List Opnd) (s t : State) : Prop := ∀ n : Fin 48, Opnd.s n ∉ ds → t.ctx.reg n = s.ctx.reg n

/-- The streams that `os` does not name are as they were, and the drip tray unless `os` names q15. -/
def StreamsBut (os : List Opnd) (s t : State) : Prop :=
  (∀ q : Fin 16, Opnd.q q ∉ os → t.ctx.streams[q] = s.ctx.streams[q]) ∧
    (Opnd.q 15 ∉ os → t.ctx.drip = s.ctx.drip ∧ t.ctx.dripHalf = s.ctx.dripHalf)

/-- Nothing changes but the context on turn. -/
def OnlyContext (s t : State) : Prop := t = { s with ctx := t.ctx }

/-- What every context's partition of die SRAM holds, with its poison marks. -/
def State.partitions (s : State) : List (List Host.Cell × List Nat) := (s.ctx :: s.others).map (fun c => (c.scratch, c.scratchPoi))

/-- Every byte of memory, with its poison mark, but those whose keys satisfy `p`, reads as it did; so does every byte of every
partition of scratch. -/
def BytesBut (p : Nat → Prop) (s t : State) : Prop := (∀ k, ¬ p k → t.homeByte k = s.homeByte k) ∧ t.partitions = s.partitions

/-- The special registers that software names (R64): a trap's, the tile shapes, the event registers, and the address space. -/
def Context.specials (c : Context) : List Word :=
  c.mshp.toList ++ [c.fnver, c.dtmask, c.dtlost, c.sgeoa, c.sgeob, c.scrlo, c.scrhi, c.asid, c.ttbase, c.ctxid, c.chainlat, c.tvec, c.tcause,
    c.tepc, c.tdsc, c.tbtgt, c.trep, c.tinfo]

/-- `t` differs from `s` in the cells of the context on turn, their drains, what they owe (results, events, faults) and the sticky
slots, and in the other contexts, at most. -/
def OnlyWave (s t : State) : Prop :=
  t = { s with ctx.cells := t.ctx.cells, ctx.cellErrs := t.ctx.cellErrs, ctx.hatches := t.ctx.hatches, ctx.faults := t.ctx.faults,
               ctx.pend := t.ctx.pend, ctx.dripFlights := t.ctx.dripFlights, ctx.sticky := t.ctx.sticky, others := t.others }

/-- Only drain hatches differ: the west and north hatches of the context on turn, and all of the other contexts but their hatches. -/
def OnlyDrains (s t : State) : Prop :=
  (∀ h : Fin 12, h.val < 8 → t.ctx.hatches[h] = s.ctx.hatches[h]) ∧
    t.others.map (fun c => { c with hatches := Context.blank.hatches }) = s.others.map (fun c => { c with hatches := Context.blank.hatches })

/-- Among the registers of the cells, none changes but those of `rs` in cells that the selector enables. -/
def CellsBut (rs : List CellReg) (s t : State) : Prop :=
  t.ctx.cells.length = s.ctx.cells.length ∧
    ∀ i, (s.enabled i = false → t.ctx.cell i = s.ctx.cell i) ∧ ∀ r, r ∉ rs → (t.ctx.cell i).get r = (s.ctx.cell i).get r

/-- No cell's store changes. -/
def StoresSame (s t : State) : Prop := ∀ i, (t.ctx.cell i).store = (s.ctx.cell i).store

/-- Lane `j` of a vector register of a cell, in a format of `n` bits (R110, R133). -/
def State.lane (s : State) (i : Nat) (r : BitVec 5) (n j : Nat) : BitVec n := ((s.ctx.cell i).v[r.toNat]).bits.extractLsb' (n * j) n

/-- No byte of the vector register is marked. -/
def State.unmarked (s : State) (i : Nat) (r : BitVec 5) : Prop := ((s.ctx.cell i).v[r.toNat]).poi = 0

/-- The sequencer's state that no wave operation and no engine command touches. -/
def SameSequencer (c d : Context) : Prop :=
  d.regs = c.regs ∧ d.pc = c.pc ∧ d.level = c.level ∧ d.loops = c.loops ∧ d.z = c.z ∧ d.streams = c.streams ∧ d.specials = c.specials ∧
    d.bars = c.bars ∧ d.scratch = c.scratch ∧ d.scratchPoi = c.scratchPoi ∧ d.status = c.status

/-- Memory with its poison marks, and everything between it and the contexts, is as it was. -/
def SameMemory (s t : State) : Prop :=
  t.mem = s.mem ∧ t.pois = s.pois ∧ t.zflags = s.zflags ∧ t.zflagErr = s.zflagErr ∧ t.swLines = s.swLines ∧ t.writeBacks = s.writeBacks ∧
    t.lines = s.lines ∧ t.msgs = s.msgs ∧ t.tlb = s.tlb ∧ t.codes = s.codes ∧ t.posted = s.posted ∧ t.mgmt = s.mgmt

/-! ### Commands -/

/-- No hold of R237 and R233 applies to a command or a queue operation with these fields. -/
def State.Free (s : State) (e : Cmd) : Prop :=
  (e.kp = 0 ∨ (s.ctx.ticket e.kp).pending = false) ∧ s.ctx.inFlight.length + s.ctx.qops.length < 64 ∧
    s.ctx.cmds.any (fun k => isRfence k.op && !k.started && !k.closed) = false

/-- Nothing waits to be performed when a command of the context reads: no second part of an access, no write-back, no posted write, no
clear of the zero map. -/
def State.Performed (s : State) : Prop := s.ctx.half = none ∧ s.writeBacks = [] ∧ s.posted = [] ∧ s.zclrs = []

/-- The commands of the context on turn in `t` are those of `s`, but for what they know of zeros written, and `k`, the newest. -/
def NewCommand (s t : State) (k : EngCmd) : Prop :=
  ∃ l, t.ctx.cmds = l ++ [k] ∧ l.map (fun x => { x with zeroed := [] }) = s.ctx.cmds.map (fun x => { x with zeroed := [] }) ∧
    (s.Performed → l = s.ctx.cmds)

/-! ### Where a store goes -/

/-- Whether a place lies in coherent memory of the part (R354). -/
def Loc.plainMem : Loc → Bool
  | .mem p => p.cls.coherent
  | .scratch _ _ => false
  | .backing _ _ => false
  | .lost _ _ => false

/-- Whether a place lies in host memory. -/
def Loc.hostMem : Loc → Bool
  | .mem p => p.cls == .host && decide (2 ^ 40 ≤ p.key)
  | .scratch _ _ => false
  | .backing _ _ => false
  | .lost _ _ => false

/-- Whether a place lies in the die SRAM of a partition. -/
def Loc.inScratch : Loc → Bool
  | .mem _ => false
  | .scratch _ _ => true
  | .backing _ _ => false
  | .lost _ _ => false

/-- No key of the list lies in a tile that a zero-map flag stands for, or whose flag was struck. -/
def State.Unmapped (s : State) (ks : List Nat) : Prop := ∀ k ∈ ks, tileOf k ∉ s.zflags ∧ tileOf k ∉ s.zflagErr

/-! ### The invariant of memory -/

/-- Memory keeps its canonical form: keys strictly rise, no listed byte is what an unlisted one reads as, and the list of poisoned
bytes strictly rises too. -/
def State.MemoryCanonical (s : State) : Prop := Memory.wf s.mem = true ∧ s.pois.Pairwise (· < ·)

/-- The byte of the dirty bitmap that records a write at a key, where the bitmap of its die is placed (R217). -/
def State.bitmapKey (s : State) (key : Nat) : Option Nat :=
  if 2 ^ 40 ≤ key then none
  else (s.place ((s.mgmt.latched.xdbmb.toList.getD (key / 2 ^ 37) 0).toNat + key % 2 ^ 37 / 32768)).map (·.key)

/-- A key that a dirty bitmap uses: some write to HBM4 marks a bit there (R217). -/
def State.BitmapByte (s : State) (k : Nat) : Prop := ∃ key, s.bitmapKey key = some k

/-! ### The turn of a context -/

/-- The machine when its context's turn comes: the second part of an access that crossed a line is made, what has fallen due has arrived,
and every source is read from here (R9, R18, R195). -/
def State.onTurn (s : State) : State :=
  let t := ({ s with src := s.ctx } : State).settleHalf
  let c := t.ctx.arriveDue
  { t with ctx := c, src := if c.rep = 0 then c else c.asRepeat }

/-- Nothing comes before the next issue: no end that ABORT asks for, no watchdog, no trap, no report or deferred fault that is due, no
landing. -/
def State.Undisturbed (u : State) : Prop :=
  u.ctx.doomed = none ∧ ((u.pipelineOf u.ctx.lnum).isSome = true → u.ctx.timer < u.wdogCycles u.ctx) ∧ u.ctx.trapDue = none ∧
    u.ctx.dueReport = none ∧ u.ctx.awaitsLanding = false

/-! ### Tokens (R355, R356) -/

/-- The tokens of a coherent line wherever they are: at its home, with holders, and in messages. -/
def State.tokenSum (s : State) (line : Nat) : Nat :=
  ((s.lineAt line).map Line.tokensHeld).getD 0 + ((s.msgs.filter (fun m => m.line == line)).map (·.tokens)).sum

/-- Lines stand in order, each once and each coherent one for the place that its address has, and so do the holders of each, none of them
the home; a home that has the owner token has a token, and one without a tag has all of them or none; every message carries tokens of a
coherent line; and no cached software-managed line and no write-back is one of a coherent line. -/
def State.TokensOrdered (s : State) : Prop :=
  s.lines.Pairwise (fun a b => a.line < b.line) ∧
    (∀ l ∈ s.lines, l.holders.Pairwise (fun a b => a.agent < b.agent) ∧ (∀ h ∈ l.holders, 0 < h.tokens ∧ h.agent ≠ homeAgent l.die) ∧
      (l.homeOwner = true → 0 < l.homeTokens) ∧ (s.place (128 * l.line)).any (·.cls.coherent) = l.cls.coherent ∧
      (l.cls.coherent = false → l.holders = [])) ∧
    (∀ m ∈ s.msgs, 0 < m.tokens ∧ (s.lineAt m.line).isSome = true) ∧
    (∀ x ∈ s.swLines, (s.place (128 * x.line)).any (·.cls.coherent) = false) ∧
    ∀ wb ∈ s.writeBacks, (s.place (128 * wb.line)).any (·.cls.coherent) = false

end Sys2Proof.Machine
end

