-- ==== Sys2Proof/Certificates/Slice0/Obligations.lean ====
section
/-! DEFINITION. The statements for the provers. Each docstring names the rules of spec/ that it formalises, and the log entry of a
value that the model chose, where one takes part. -/

open Sys2Proof Sys2Proof.Machine

/-- R51, R52: the two-source operations. -/
def Obligations.TwoSourceResults : Prop :=
  ∀ (s : State) (d a b : Opnd) (x y : Word), s.Delivers [a, b] [x, y] → s.Accepts d →
    let t (v : Word) : Host.Outcome State Fault Refusal := .next ((s.reading [a, b]).put d v)
    let sat (z : Int) : Word := BitVec.ofInt 64 (max (-(2 ^ 63)) (min (2 ^ 63 - 1) z))
    let k := y.toNat % 64
    exec (.add d a b false) s = t (x + y) ∧ exec (.add d a b true) s = t (sat (x.toInt + y.toInt)) ∧
    exec (.sub d a b false) s = t (x - y) ∧ exec (.sub d a b true) s = t (sat (x.toInt - y.toInt)) ∧
    exec (.mul d a b false) s = t (x * y) ∧ exec (.mul d a b true) s = t (sat (x.toInt * y.toInt)) ∧
    exec (.mulh d a b) s = t ((x.signExtend 128 * y.signExtend 128).extractLsb' 64 64) ∧
    exec (.mulhn d a b) s = t ((x.setWidth 128 * y.setWidth 128).extractLsb' 64 64) ∧
    exec (.div d a b) s = t (if y = 0 then BitVec.allOnes 64 else x.sdiv y) ∧
    exec (.divn d a b) s = t (if y = 0 then BitVec.allOnes 64 else x / y) ∧
    exec (.rem d a b) s = t (if y = 0 then x else x - y * x.sdiv y) ∧
    exec (.remn d a b) s = t (if y = 0 then x else x - y * (x / y)) ∧
    exec (.and d a b) s = t (x &&& y) ∧ exec (.or d a b) s = t (x ||| y) ∧ exec (.xor d a b) s = t (x ^^^ y) ∧
    exec (.andn d a b) s = t (x &&& ~~~y) ∧
    exec (.shl d a b) s = t (BitVec.ofNat 64 (x.toNat * 2 ^ k)) ∧ exec (.shr d a b) s = t (BitVec.ofNat 64 (x.toNat / 2 ^ k)) ∧
    exec (.sra d a b) s = t (BitVec.ofInt 64 (x.toInt / 2 ^ k)) ∧
    exec (.rot d a b) s = t ((x >>> k) ||| (x <<< (64 - k))) ∧
    exec (.min d a b) s = t (BitVec.ofInt 64 (min x.toInt y.toInt)) ∧ exec (.max d a b) s = t (BitVec.ofInt 64 (max x.toInt y.toInt)) ∧
    exec (.minn d a b) s = t (BitVec.ofNat 64 (min x.toNat y.toNat)) ∧ exec (.maxn d a b) s = t (BitVec.ofNat 64 (max x.toNat y.toNat))

/-- R57, whole: LEA. -/
def Obligations.LeaAddsShifted : Prop :=
  ∀ (s : State) (d a b : Opnd) (x y : Word) (sh : BitVec 3), s.Delivers [a, b] [x, y] → s.Accepts d →
    ∃ t : State, exec (.lea d a b sh) s = .next t ∧
      t = (s.reading [a, b]).put d (BitVec.ofNat 64 ((x.toNat + y.toNat * 2 ^ sh.toNat) % 2 ^ 64)) ∧
      BytesBut (fun _ => False) s t ∧ t.ctx.level = s.ctx.level ∧ t.ctx.pc = s.ctx.pc ∧ t.ctx.tcause = s.ctx.tcause ∧ t.ctx.tepc = s.ctx.tepc

/-- R53 and BEXT of R54. -/
def Obligations.OneSourceResults : Prop :=
  ∀ (s : State) (d a : Opnd) (x : Word), s.Delivers [a] [x] → s.Accepts d →
    let t (v : Word) : Host.Outcome State Fault Refusal := .next ((s.reading [a]).put d v)
    (∃ n ≤ 64, exec (.clz d a) s = t (BitVec.ofNat 64 n) ∧ x.toNat < 2 ^ (64 - n) ∧ (n < 64 → 2 ^ (63 - n) ≤ x.toNat)) ∧
    (∃ n ≤ 64, exec (.ctz d a) s = t (BitVec.ofNat 64 n) ∧ (∀ k < n, x.getLsbD k = false) ∧ (n < 64 → x.getLsbD n = true)) ∧
    exec (.popc d a) s = t (BitVec.ofNat 64 ((List.range 64).countP x.getLsbD)) ∧
    exec (.sext d a 0) s = t ((x.setWidth 8).signExtend 64) ∧ exec (.sext d a 1) s = t ((x.setWidth 16).signExtend 64) ∧
    exec (.sext d a 2) s = t ((x.setWidth 32).signExtend 64) ∧
    exec (.zext d a 0) s = t (BitVec.ofNat 64 (x.toNat % 2 ^ 8)) ∧ exec (.zext d a 1) s = t (BitVec.ofNat 64 (x.toNat % 2 ^ 16)) ∧
    exec (.zext d a 2) s = t (BitVec.ofNat 64 (x.toNat % 2 ^ 32)) ∧
    exec (.qmov d a) s = t x ∧
    ∀ pos wm1 : BitVec 6, pos.toNat + wm1.toNat ≤ 63 →
      ∃ v : Word, exec (.bext d a pos wm1) s = t v ∧
        ∀ k < 64, v.getLsbD k = (decide (k ≤ wm1.toNat) && x.getLsbD (pos.toNat + k))

/-- R55: the I-form operations. -/
def Obligations.ImmediateResults : Prop :=
  ∀ (s : State) (d a : Opnd) (x : Word) (imm : BitVec 14) (sh : BitVec 6), s.Delivers [a] [x] → s.Accepts d →
    let t (v : Word) : Host.Outcome State Fault Refusal := .next ((s.reading [a]).put d v)
    exec (.addi d a imm) s = t (BitVec.ofInt 64 (x.toInt + imm.toInt)) ∧
    exec (.andi d a imm) s = t (x &&& BitVec.ofNat 64 imm.toNat) ∧
    exec (.ori d a imm) s = t (x ||| BitVec.ofNat 64 imm.toNat) ∧
    exec (.xori d a imm) s = t (x ^^^ BitVec.ofNat 64 imm.toNat) ∧
    exec (.shli d a sh) s = t (BitVec.ofNat 64 (x.toNat * 2 ^ sh.toNat)) ∧
    exec (.shri d a sh) s = t (BitVec.ofNat 64 (x.toNat / 2 ^ sh.toNat)) ∧
    exec (.srai d a sh) s = t (BitVec.ofInt 64 (x.toInt / 2 ^ sh.toNat))

/-- BINS of R54, and R56. -/
def Obligations.FieldReplacingResults : Prop :=
  ∀ (s : State) (n : Fin 48) (a : Opnd) (x : Word) (pos wm1 : BitVec 6) (hw : BitVec 2) (imm : BitVec 16), s.Delivers [.s n, a] [s.readReg n, x] →
    pos.toNat + wm1.toNat ≤ 63 →
    (∃ v : Word, exec (.bins (.s n) a pos wm1) s = .next ((s.reading [a]).put (.s n) v) ∧
      ∀ k < 64, v.getLsbD k =
        if pos.toNat ≤ k ∧ k ≤ pos.toNat + wm1.toNat then x.getLsbD (k - pos.toNat) else (s.readReg n).getLsbD k) ∧
    (∃ v : Word, exec (.movk (.s n) hw imm) s = .next (s.put (.s n) v) ∧
      ∀ k < 64, v.getLsbD k =
        if 16 * hw.toNat ≤ k ∧ k < 16 * hw.toNat + 16 then imm.getLsbD (k - 16 * hw.toNat) else (s.readReg n).getLsbD k) ∧
    ∀ (d : Opnd) (i20 : BitVec 20), s.Accepts d → exec (.movi d i20) s = .next (s.put d (BitVec.ofInt 64 i20.toInt))

/-- R6, R49, R50: where a result goes. -/
def Obligations.ResultReachesDestination : Prop :=
  ∀ (s : State) (w : Word),
    s.put (.s 0) w = s ∧
    (∀ n : Fin 48, n ≠ 0 → (s.put (.s n) w).ctx.reg n = w) ∧
    (∀ q : Fin 16, ((s.put (.q q) w).ctx.streams[q]).buf = (s.ctx.streams[q]).buf ++ [.value w] ∧
      ((s.put (.q q) w).ctx.streams[q]).taken = (s.ctx.streams[q]).taken + 1) ∧
    ∀ d : Opnd, OnlyOperands s (s.put d w) ∧ RegsBut [d] s (s.put d w) ∧ StreamsBut [d] s (s.put d w)

/-- R7, R8: what reading operands does. -/
def Obligations.OperandsLeaveRestAlone : Prop :=
  ∀ (s : State) (os : List Opnd),
    OnlyOperands s (s.reading os) ∧ RegsBut [] s (s.reading os) ∧ StreamsBut os s (s.reading os) ∧
    (∀ ws, s.Delivers os ws → (s.takeAll os).1 = ws) ∧
    ∀ (q : Fin 16) (w : Word), q ≠ 15 → s.Delivers [.q q] [w] →
      ((s.reading [.q q]).ctx.streams[q]).buf = (s.ctx.streams[q]).buf.tail ∧
      ((s.reading [.q q]).ctx.streams[q]).taken = (s.ctx.streams[q]).taken + 1

/-- The frame of the integer S operations. -/
def Obligations.AluFrame : Prop :=
  ∀ (i : Instr) (s t : State), (match i with
      | .add _ _ _ _ | .sub _ _ _ _ | .mul _ _ _ _ | .mulh _ _ _ | .mulhn _ _ _ | .div _ _ _ | .divn _ _ _ | .rem _ _ _ | .remn _ _ _
      | .and _ _ _ | .or _ _ _ | .xor _ _ _ | .andn _ _ _ | .shl _ _ _ | .shr _ _ _ | .sra _ _ _ | .rot _ _ _ | .min _ _ _ | .max _ _ _
      | .minn _ _ _ | .maxn _ _ _ | .clz _ _ | .ctz _ _ | .popc _ _ | .bext _ _ _ _ | .bins _ _ _ _ | .sext _ _ _ | .zext _ _ _
      | .addi _ _ _ | .andi _ _ _ | .ori _ _ _ | .xori _ _ _ | .shli _ _ _ | .shri _ _ _ | .srai _ _ _ | .movi _ _ | .movk _ _ _
      | .lea _ _ _ _ | .qmov _ _ => True
      | _ => False) →
    s.checkOpnds Claims.none (srcsOf i) (destsOf i) = .go → exec i s = .next t →
    OnlyOperands s t ∧ RegsBut (destsOf i) s t ∧ StreamsBut (srcsOf i ++ destsOf i) s t

/-- R58; CQPUSH (R59) fills its entry the same way. -/
def Obligations.CompareFillsQueue : Prop :=
  ∀ (s : State) (a b : Opnd) (x y : Word) (imm : BitVec 14) (cc : BitVec 4),
    let holds (u v : Word) : Prop := match cc.toNat with
      | 0 => u = v
      | 1 => u ≠ v
      | 2 => u.toInt < v.toInt
      | 3 => u.toInt ≤ v.toInt
      | 4 => v.toInt < u.toInt
      | 5 => v.toInt ≤ u.toInt
      | 6 => u.toNat < v.toNat
      | 7 => u.toNat ≤ v.toNat
      | 8 => v.toNat < u.toNat
      | 9 => v.toNat ≤ u.toNat
      | _ => False
    let filled (r : State) (bit : Bool) : Host.Outcome State Fault Refusal :=
      .next { r with ctx.cq := r.ctx.cq ++ [{ tag := r.ctx.tag, val := some bit, poi := false }], ctx.tag := r.ctx.tag + 1 }
    (s.Delivers [a, b] [x, y] → ∃ bit : Bool, exec (.cmp a b cc) s = filled (s.reading [a, b]) bit ∧ (bit = true ↔ holds x y)) ∧
    (s.Delivers [a] [x] → ∃ bit : Bool, exec (.cmpi cc a imm) s = filled (s.reading [a]) bit ∧ (bit = true ↔ holds x (BitVec.ofInt 64 imm.toInt))) ∧
    (s.Delivers [a] [x] → ∃ bit : Bool, exec (.cqpush a) s = filled (s.reading [a]) bit ∧ (bit = true ↔ x ≠ 0))

/-- R68: TKTEST. -/
def Obligations.TicketTestFillsQueue : Prop :=
  ∀ (s : State) (k : BitVec 6), ∃ e : CqEntry,
    exec (.tktest k) s = .next { s with ctx.cq := s.ctx.cq ++ [e], ctx.tag := if e.val.isSome then s.ctx.tag + 1 else s.ctx.tag } ∧ e.poi = false ∧
      (k = 0 → e.val = some true) ∧
      (k ≠ 0 → (s.ctx.ticket k).pending = false → (e.val = some true ↔ (s.ctx.ticket k).status = 0) ∧ e.val.isSome = true) ∧
      (k ≠ 0 → (s.ctx.ticket k).pending = true → e.val = none ∧
        ∀ (c : Context) (j : EngCmd) (st : BitVec 4) (dt : BitVec 32), e ∈ c.cq → j.e.kp = k →
          { e with val := some (st == 0) } ∈ (c.completeTicket j (st, dt)).cq)

/-- SETC and SEL of R59, and R80. -/
def Obligations.ConsumersPopHead : Prop :=
  ∀ (s : State) (d a b : Opnd) (x y : Word) (nm1 : BitVec 4),
    (∀ (e : CqEntry) (r : List CqEntry) (bit : Bool), s.ctx.cq = e :: r → e.val = some bit →
      (s.Accepts d → exec (.setc d) s = .next (({ s with ctx.cq := r } : State).put d (if bit then 1 else 0))) ∧
      (s.Delivers [a, b] [x, y] → s.Accepts d →
        exec (.sel d a b) s = .next ((({ s with ctx.cq := r } : State).reading [a, b]).put d (if bit then x else y)))) ∧
    (s.src.dsc = 0 → nm1.toNat + 1 ≤ s.ctx.cq.length → (∀ e ∈ s.ctx.cq.take (nm1.toNat + 1), e.val.isSome = true) →
      exec (.cqdrop nm1) s = .next { s with ctx.cq := s.ctx.cq.drop (nm1.toNat + 1) }) ∧
    (s.ctx.cq = [] → exec (.setc d) s = .next (s.takeTrap 0x02 0) ∧ exec (.sel d a b) s = .next (s.takeTrap 0x02 0)) ∧
    (s.src.dsc = 0 → s.ctx.cq.length < nm1.toNat + 1 → exec (.cqdrop nm1) s = .next (s.takeTrap 0x02 1))

/-- R60, R61 and R18: LD. -/
def Obligations.LoadOwesItsBytes : Prop :=
  ∀ (s : State) (d a : Opnd) (off : BitVec 10) (lat : BitVec 4) (x : Word) (ls : List Loc), s.src = s.ctx →
    s.Delivers [a] [x] → s.Accepts d → s.ctx.pend.length < 64 →
    s.locateN (s.src.who s.variant) (effAddr x off).toNat .load (offSize off) = .ok ls →
    let ea := (effAddr x off).toNat
    let n := offSize off
    let bs := (((s.reading [a]).fillPages (s.src.who s.variant) ea n).loadLocs s.src ls).1
    let low := min n (128 - ea % 128)
    ∃ (t : State) (p : Pending), exec (.ld d a off lat) s = .next t ∧ t.ctx.pend = s.ctx.pend ++ [p] ∧
      p.value = BitVec.ofNat 64 (numOf bs) ∧ p.bound = s.ctx.issues + max lat.toNat 1 ∧ p.writes = [] ∧
      p.poison = (if anyPoison bs then some 0 else none) ∧ p.made = s.ctx.issues ∧ p.addr = s.ctx.pc ∧
      (∀ n, d = .s n → p.dest = .reg n) ∧
      (∀ q, d = .q q → p.dest = .stream q s.ctx.tag ∧ (t.ctx.streams[q]).buf = (s.ctx.streams[q]).buf ++ [.owed s.ctx.tag]) ∧
      t.ctx.regs = s.ctx.regs ∧ t.ctx.cq = s.ctx.cq ∧ t.ctx.specials = s.ctx.specials ∧ t.ctx.loops = s.ctx.loops ∧
      (ea % 128 + n ≤ 128 → t.ctx.half = s.ctx.half) ∧
      (128 < ea % 128 + n → t.ctx.half =
        some { locs := ls.drop low, bytes := [], low := low, lowPoi := anyPoison (bs.take low), dest := p.dest, made := s.ctx.issues,
               arrive := [] }) ∧
      (ls.all Loc.plainMem = true → s.posted = [] → BytesBut s.BitmapByte s t ∧
        ((∀ k ∈ memKeys ls, ¬ s.BitmapByte k) → bs = ls.map (s.loadByte s.src))) ∧
      ∀ (r : State) (h : Half), r.ctx.half = some h → h.bytes = [] →
        let up := (({ r with ctx.half := none } : State).loadLocs r.ctx h.locs).1
        let u := r.settleHalf
        u.ctx.half = none ∧ u.ctx.pend.length = r.ctx.pend.length ∧ u.ctx.regs = r.ctx.regs ∧ u.ctx.cq = r.ctx.cq ∧
        (∀ (i : Nat) (o o' : Pending), r.ctx.pend[i]? = some o → u.ctx.pend[i]? = some o' →
          ((o.made = h.made ∧ o.dest = h.dest) → o'.dest = o.dest ∧ o'.bound = o.bound ∧
            o'.value = BitVec.ofNat 64 (o.value.toNat % 256 ^ h.low + 256 ^ h.low * numOf up) ∧
            o'.poison = (if h.lowPoi = true ∨ anyPoison up = true then some 0 else none)) ∧
          (¬ (o.made = h.made ∧ o.dest = h.dest) → o' = o)) ∧
        (h.locs.all Loc.plainMem = true → r.posted = [] → BytesBut r.BitmapByte r u ∧
          ((∀ k ∈ memKeys h.locs, ¬ r.BitmapByte k) → up = h.locs.map (r.loadByte r.ctx)))

/-- R18, R61, R322: RESULT_LAND. -/
def Obligations.ResultLandsAtDestination : Prop :=
  ∀ (s : State) (p : Pending) (l r : List Pending), s.ctx.pend = l ++ p :: r → p.writes = [] → p.acc = false →
    ∃ t : State, exec (.resultLand l.length) s = .next t ∧ OnlyContext s t ∧ t.ctx.cq = s.ctx.cq ∧ t.ctx.specials = s.ctx.specials ∧
      t.ctx.cells = s.ctx.cells ∧
      (∀ n : Fin 48, p.dest = .reg n → (∀ o ∈ l, o.dest ≠ .reg n) → t.ctx.pend = l ++ r ∧
        (p.poison = none → t.ctx.reg n = (if n = 0 then 0 else p.value) ∧ RegsBut [.s n] s t ∧ t.ctx.reports = s.ctx.reports)) ∧
      (∀ (q : Fin 16) (tag : Nat), p.dest = .stream q tag → t.ctx.pend = l ++ r ∧ t.ctx.regs = s.ctx.regs ∧
        (p.poison = none → ∀ (u v : List StreamElem), (s.ctx.streams[q]).buf = u ++ .owed tag :: v → .owed tag ∉ u →
          (t.ctx.streams[q]).buf = u ++ .value p.value :: v)) ∧
      (∀ source, p.poison = some source → (∀ o ∈ l, o.dest ≠ p.dest) →
        t.ctx.regs = s.ctx.regs ∧ t.ctx.reports = s.ctx.reports ++ [{ issue := p.made, info := poisonInfo source p.addr, held := false }])

/-- R60, R61, R195: ST, with its frame. -/
def Obligations.StoreWritesItsBytes : Prop :=
  ∀ (s : State) (d a : Opnd) (off : BitVec 10) (v x : Word), s.MemoryCanonical → s.src = s.ctx → s.Delivers [d, a] [v, x] →
    let ea := (effAddr x off).toNat
    let n := offSize off
    let low := min n (128 - ea % 128)
    let byte (i : Nat) : Byte × Bool := (BitVec.ofNat 8 (v.toNat / 2 ^ (8 * i)), false)
    (∀ ls, s.locateN (s.src.who s.variant) ea .store n = .ok ls →
      let now := ls.take low
      ∃ t : State, exec (.st d a off) s = .next t ∧ t.ctx.regs = s.ctx.regs ∧ t.ctx.cq = s.ctx.cq ∧ t.ctx.specials = s.ctx.specials ∧
        t.ctx.loops = s.ctx.loops ∧ t.ctx.pend = s.ctx.pend ∧ StreamsBut [d, a] s t ∧
        (ea % 128 + n ≤ 128 → t.ctx.half = s.ctx.half) ∧
        (128 < ea % 128 + n → t.ctx.half =
          some { locs := ls.drop low, bytes := (leBytes n v.toNat).drop low, low := 0, lowPoi := false, dest := .none,
                 made := s.ctx.issues, arrive := [] }) ∧
        (now.all Loc.plainMem = true → s.Unmapped (memKeys now) → BytesBut (fun k => k ∈ memKeys now ∨ s.BitmapByte k) s t ∧
          ((memKeys now).Nodup → ∀ i < low, ∀ k, (memKeys now)[i]? = some k → t.homeByte k = byte i)) ∧
        (now.all Loc.hostMem = true → BytesBut s.BitmapByte s t ∧
          ((memKeys now).Nodup → ∀ i < low, ∀ k, (memKeys now)[i]? = some k → t.seenByte (some s.ctx.die) k = byte i)) ∧
        (ls.all Loc.inScratch = true → t.mem = s.mem ∧ t.pois = s.pois ∧ t.writeBacks = s.writeBacks) ∧
        (now.all Loc.inScratch = true → (∀ k, ¬ s.BitmapByte k → t.homeByte k = s.homeByte k) ∧
          ((∀ c ∈ s.ctx :: s.others, Memory.wf c.scratch = true ∧ c.scratchPoi.Pairwise (· < ·)) → now.Nodup → ∀ i < low, ∀ r o,
            now[i]? = some (.scratch r o) → t.scratchGet (s.src.who s.variant) r o = byte i)) ∧
        (now.all Loc.software = true → s.writeBacks = [] → BytesBut s.BitmapByte s t)) ∧
    (∀ (f : XFault) (va : Nat), s.locateN (s.src.who s.variant) ea .store n = .error (f, va) →
      exec (.st d a off) s = .next (s.takeTrap f.cause (BitVec.ofNat 64 va))) ∧
    (∀ h, s.ctx.half = some h → h.bytes ≠ [] → h.locs.all Loc.plainMem = true → s.Unmapped (memKeys h.locs) → (memKeys h.locs).Nodup →
      s.settleHalf.ctx.half = none ∧ BytesBut (fun k => k ∈ memKeys h.locs ∨ s.BitmapByte k) s s.settleHalf ∧
        ∀ (i k : Nat) (b : Byte), (memKeys h.locs)[i]? = some k → h.bytes[i]? = some b → s.settleHalf.homeByte k = (b, false))

/-- R226 to R228: the atomics. -/
def Obligations.AtomicsReadComputeWrite : Prop :=
  ∀ (s : State) (d a b : Opnd) (x y : Word) (sz : Bool) (lat : BitVec 4) (opc : BitVec 3), s.MemoryCanonical → s.src = s.ctx →
    s.ctx.pend.length < 64 →
    let n := amoBytes sz
    let w := 8 * n
    let signed (v : Nat) : Int := (BitVec.ofNat w v).toInt
    let combined (old : Nat) : Nat :=
      let z := y.toNat % 2 ^ w
      match opc.toNat with
      | 0 => (old + z) % 2 ^ w
      | 1 => z
      | 2 => old &&& z
      | 3 => old ||| z
      | 4 => if signed old ≤ signed z then old else z
      | 5 => if signed z ≤ signed old then old else z
      | 6 => min old z
      | _ => max old z
    let does (i : Instr) (m : Nat) (new : Nat → Nat) : Prop :=
      ∀ ls, s.locateN (s.src.who s.variant) x.toNat .atomic m = .ok ls → ls.all Loc.plainMem = true → s.Unmapped (memKeys ls) →
        (memKeys ls).Nodup → anyPoison (ls.map (s.loadByte s.src)) = false → s.posted = [] → (∀ k ∈ memKeys ls, ¬ s.BitmapByte k) →
        x.toNat < 2 ^ 56 → x.toNat / 128 = (x.toNat + m - 1) / 128 →
        let old := numOf (ls.map (s.loadByte s.src))
        ∃ (t : State) (p : Pending), exec i s = .next t ∧ t.ctx.pend = s.ctx.pend ++ [p] ∧ p.value = BitVec.ofNat 64 old ∧
          p.poison = none ∧ p.bound = s.ctx.issues + max lat.toNat 1 ∧ (∀ r, d = .s r → p.dest = .reg r) ∧
          t.ctx.regs = s.ctx.regs ∧ t.ctx.cq = s.ctx.cq ∧ t.ctx.specials = s.ctx.specials ∧
          BytesBut (fun k => k ∈ memKeys ls ∨ s.BitmapByte k) s t ∧
          ∀ j < m, ∀ k, (memKeys ls)[j]? = some k → t.homeByte k = (BitVec.ofNat 8 (new old / 2 ^ (8 * j)), false)
    (s.Delivers [a, b] [x, y] → s.Accepts d →
      does (.amo d a b opc sz lat) n combined ∧ does (.amof d a b lat) 4 (fun old => (addF32 old (y.toNat % 2 ^ 32)).1)) ∧
    (∀ (r : Fin 48) (e : Word), d = .s r → s.Delivers [d, a, b] [e, x, y] →
      does (.cas d a b sz lat) n (fun old => if old = e.toNat % 2 ^ w then y.toNat % 2 ^ w else old)) ∧
    let stops (i : Instr) (m : Nat) : Prop := (2 ^ 56 ≤ x.toNat → exec i s = .next (s.takeTrap 0x09 x)) ∧
      (x.toNat < 2 ^ 56 → x.toNat / 128 ≠ (x.toNat + m - 1) / 128 → exec i s = .next (s.takeTrap 0x07 x))
    (s.Delivers [a, b] [x, y] → s.Accepts d → stops (.amo d a b opc sz lat) n ∧ stops (.amof d a b lat) 4) ∧
    ∀ (r : Fin 48) (e : Word), d = .s r → s.Delivers [d, a, b] [e, x, y] → stops (.cas d a b sz lat) n

/-- R62, R64: MFC and MFCS. -/
def Obligations.ControlRegistersRead : Prop :=
  ∀ (s : State) (d : Opnd), s.Accepts d →
    let c := s.src
    let reads (n : BitVec 14) (v : Word) : Prop :=
      (n.toNat < 0x100 ∨ c.level ≠ .user → exec (.mfc d n) s = .next (s.put d v)) ∧
      (c.level ≠ .user → exec (.mfcs d n) s = .next (s.put d v)) ∧
      (0x100 ≤ n.toNat → c.level = .user → exec (.mfc d n) s = .next (s.takeTrap 0x04 0)) ∧
      (c.level = .user → exec (.mfcs d n) s = .next (s.takeTrap 0x04 0x70))
    reads 0x000 s.kycap ∧ reads 0x001 c.chainlat ∧ reads 0x002 c.ctxid ∧ reads 0x003 c.asid ∧ reads 0x004 c.ttbase ∧
    reads 0x005 0xFFFFFFC0000000 ∧ reads 0x006 c.scrlo ∧ reads 0x007 c.scrhi ∧ reads 0x010 (BitVec.ofNat 64 c.loops.length) ∧
    (∀ (k : Fin 6) (e : LoopEntry), c.loops.reverse[k.val]? = some e →
      reads (BitVec.ofNat 14 (0x018 + k.val)) (BitVec.ofNat 64 (e.idx % 2 ^ 32)) ∧
      reads (BitVec.ofNat 14 (0x020 + k.val)) (BitVec.ofNat 64 (e.remain % 2 ^ 32))) ∧
    (∀ k : Fin 6, c.loops.length ≤ k.val → reads (BitVec.ofNat 14 (0x018 + k.val)) 0 ∧ reads (BitVec.ofNat 14 (0x020 + k.val)) 0) ∧
    (∀ k : Fin 4, reads (BitVec.ofNat 14 (0x030 + k.val)) (BitVec.ofNat 64 (c.z[k].cols.toNat * 2 ^ 16 + c.z[k].rows.toNat))) ∧
    (∀ k : Fin 8, reads (BitVec.ofNat 14 (0x040 + k.val)) c.mshp[k]) ∧
    reads 0x050 c.fnver ∧ reads 0x051 c.dtmask ∧ reads 0x052 c.dtlost ∧ reads 0x053 c.sgeoa ∧ reads 0x054 c.sgeob ∧
    reads 0x100 c.tvec ∧ reads 0x101 c.tcause ∧ reads 0x102 c.tepc ∧ reads 0x103 c.tdsc ∧ reads 0x104 c.tbtgt ∧ reads 0x105 c.trep ∧
    reads 0x106 c.tinfo

/-- R62 to R67: MTC, MTCS, MTSH, MSEL. -/
def Obligations.ControlRegistersWrite : Prop :=
  ∀ (s : State) (a b : Opnd) (w v : Word) (n : BitVec 14) (tn : BitVec 3) (z : BitVec 2), s.src = s.ctx →
    let done (t : State) : Prop :=
      cregRead t.kycap t.ctx n.toNat = w ∧ (∀ m, m ≠ n.toNat → cregRead t.kycap t.ctx m = cregRead s.kycap s.ctx m) ∧
      RegsBut [] s t ∧ StreamsBut [a] s t ∧ SameMemory s t ∧ t.ctx.pc = s.ctx.pc ∧ t.ctx.cq = s.ctx.cq ∧ t.ctx.level = s.ctx.level
    (s.Delivers [a] [w] → cregWritable s.src.level n.toNat = true → cregValueOk n.toNat w = true →
      (∃ t, exec (.mtc a n) s = .next t ∧ done t) ∧ (s.src.level ≠ .user → ∃ t, exec (.mtcs a n) s = .next t ∧ done t)) ∧
    (s.Delivers [a] [w] → (n.toNat < 0x100 ∨ s.src.level ≠ .user) → (cregWritable s.src.level n.toNat = false ∨ cregValueOk n.toNat w = false) →
      exec (.mtc a n) s = .next (s.takeTrap 0x02 0)) ∧
    (s.Delivers [a] [w] → 0x100 ≤ n.toNat → s.src.level = .user → exec (.mtc a n) s = .next (s.takeTrap 0x04 0)) ∧
    (s.src.level = .user → exec (.mtcs a n) s = .next (s.takeTrap 0x04 0x70)) ∧
    exec (.mtsh tn a) s = exec (.mtc a (BitVec.ofNat 14 (0x040 + tn.toNat))) s ∧
    (s.Delivers [a] [w] → shapeValid w = true → ∃ t, exec (.mtsh tn a) s = .next t ∧ t.ctx.mshp[tn.toFin] = w) ∧
    (s.Delivers [a, b] [w, v] → exec (.msel z a b) s =
      .next { s.reading [a, b] with ctx.z := s.ctx.z.set z.toFin { rows := w.setWidth 16, cols := v.setWidth 16 } })

/-- R229 to R231, R202: fences and cache maintenance. That a copy below takes the bytes that pass it is a reading of R174 (log entry 17). -/
def Obligations.FencesAndCacheOps : Prop :=
  ∀ (s : State) (a b : Opnd) (x y : Word), s.src = s.ctx →
    let mine (wb : WriteBack) : Bool := s.sentFor s.ctx wb && wb.src.isSome
    let bare (wb : WriteBack) : WriteBack := { wb with fenced := [] }
    (∃ t, exec (.fence 0) s = .next t ∧ t = { s with writeBacks := t.writeBacks } ∧ t.writeBacks.map bare = s.writeBacks.map bare ∧
      (∀ (i : Nat) (wb wb' : WriteBack), s.writeBacks[i]? = some wb → t.writeBacks[i]? = some wb' →
        ∀ die, (die ∈ wb'.fenced ↔ die ∈ wb.fenced ∨ mine wb = true ∧ die = s.ctx.die)) ∧
      ∀ (wb : WriteBack) (i : Nat), s.writeBacks = [wb] → mine wb = true → wb.key % 128 = 0 → i < 128 → wb.mask.getLsbD i = true →
        t.seenByte (some s.ctx.die) (wb.key + i) = (BitVec.ofNat 8 (wb.data.toNat / 2 ^ (8 * i)), wb.poi.getLsbD i)) ∧
    (∀ scope : BitVec 2, scope ≠ 0 → ∃ t, exec (.fence scope) s = .next t ∧ (∀ wb ∈ t.writeBacks, wb ∈ s.writeBacks ∧ mine wb = false) ∧
      (scope = 2 → ∀ wb ∈ t.writeBacks, s.sentFor s.ctx wb = false) ∧ (s.writeBacks = [] → t = s) ∧
      SameSequencer s.ctx t.ctx ∧ t.ctx.pend = s.ctx.pend ∧ t.ctx.cells = s.ctx.cells ∧ t.swLines = s.swLines ∧
      (s.zflags = [] → s.zflagErr = [] → t.ctx = s.ctx ∧ t.others = s.others ∧
        BytesBut (fun k => (∃ wb ∈ s.writeBacks, wb.key ≤ k ∧ k < wb.key + 128) ∨ s.BitmapByte k) s t)) ∧
    (s.Delivers [a, b] [x, y] → x.toNat + y.toNat ≤ 2 ^ 56 →
      let r := s.reading [a, b]
      let lines := if y = 0 then [] else r.coveredLines s.src x.toNat y.toNat
      let same (t : State) : Prop := t = { r with swLines := t.swLines, writeBacks := t.writeBacks }
      let below (k : CacheId × Nat) : List CacheId := k.1.wayDown s.variant (128 * k.2)
      let holds (wb : WriteBack) (l : SwLine) (i : Nat) : Prop := l.dirty.getLsbD i = true ∧
        wb.byte i = BitVec.ofNat 8 (l.data.toNat / 2 ^ (8 * i)) ∧ wb.poi.getLsbD i = l.poi.getLsbD i
      let sent (t : State) : Prop := ∃ new, t.writeBacks = s.writeBacks ++ new ∧ (new.map (fun wb => (wb.src, wb.line))).Nodup ∧
        (∀ wb ∈ new, ∃ k ∈ lines, ∃ l, s.swLine k.1 k.2 = some l ∧ wb.src = some l.cache ∧ wb.line = l.line ∧ wb.key = l.key ∧
          wb.serves = l.serves ∧ wb.fenced = [] ∧ wb.owner = some s.ctx.ctxid.toNat ∧ wb.mask ≠ 0 ∧
          ∀ i < 128, wb.mask.getLsbD i = true → holds wb l i) ∧
        ∀ k ∈ lines, ∀ l, s.swLine k.1 k.2 = some l → ∀ i < 128, l.dirty.getLsbD i = true →
          ∃ wb ∈ new, wb.line = l.line ∧ wb.mask.getLsbD i = true ∧
            (wb.src = some l.cache ∨ ∃ k' ∈ lines, k'.2 = k.2 ∧ wb.src = some k'.1 ∧ k.1 ∈ below k')
      let clean (t : State) (stale : Bool) : Prop :=
        (∀ k ∈ lines, ∀ l, s.swLine k.1 k.2 = some l → ∃ l', t.swLine k.1 k.2 = some l' ∧ l'.dirty = 0 ∧ l'.stale = (stale || l.stale) ∧
          l'.key = l.key ∧ l'.serves = l.serves ∧ ((∀ k' ∈ lines, k'.2 = k.2 → k.1 ∉ below k') → l'.data = l.data ∧ l'.poi = l.poi)) ∧
        ∀ k, k ∉ lines → (∀ k' ∈ lines, k'.2 = k.2 → k.1 ∉ below k') → t.swLine k.1 k.2 = s.swLine k.1 k.2
      (∃ t, exec (.cwb a b) s = .next t ∧ same t ∧ sent t ∧ clean t false) ∧
      (∃ t, exec (.cinv a b) s = .next t ∧ same t ∧ t.writeBacks = s.writeBacks ∧
        (∀ k ∈ lines, ∀ l, s.swLine k.1 k.2 = some l → t.swLine k.1 k.2 = some { l with stale := true }) ∧
        ∀ k, k ∉ lines → t.swLine k.1 k.2 = s.swLine k.1 k.2) ∧
      (∃ t, exec (.cflush a b) s = .next t ∧ same t ∧ sent t ∧ clean t true)) ∧
    (s.Delivers [a, b] [x, y] → 2 ^ 56 < x.toNat + y.toNat →
      exec (.cwb a b) s = .next (s.takeTrap 0x09 x) ∧ exec (.cinv a b) s = .next (s.takeTrap 0x09 x) ∧
      exec (.cflush a b) s = .next (s.takeTrap 0x09 x))

/-- R335: TLBI. That it completes within its issue is the model’s choice (log entry 46). -/
def Obligations.TlbiRemovesTranslations : Prop :=
  ∀ (s : State) (a b : Opnd) (x y : Word) (ext : BitVec 2), s.src = s.ctx →
    (s.src.level ≠ .user →
      (s.Delivers [a, b] [x, y] → y.toNat < 2 ^ 11 → x.toNat < bwin → let u := (s.reading [a, b]).performBegun
        ∃ t, exec (.tlbi a b 0) s = .next t ∧ t = { u with tlb := t.tlb } ∧ (∀ e ∈ t.tlb, e ∈ u.tlb ∧ ∀ md, e.covers md y.toNat x.toNat = false) ∧
          ∀ e ∈ u.tlb, e.asid ≠ y.toNat → e ∈ t.tlb) ∧
      (s.Delivers [b] [y] → y.toNat < 2 ^ 11 → let u := (s.reading [b]).performBegun
        ∃ t, exec (.tlbi a b 1) s = .next t ∧ t = { u with tlb := u.tlb.filter (fun e => e.asid != y.toNat) }) ∧
      (let u := s.performBegun
        ∃ t, exec (.tlbi a b 2) s = .next t ∧ t.tlb = [] ∧ t.mem = u.mem ∧ t.ctx = u.ctx ∧ t.others = u.others ∧
          t.mgmt.latched.xhatb = u.mgmt.regs.xhatb ∧ t.mgmt.latched.xastb = u.mgmt.regs.xastb ∧ t.mgmt.latched.xiptb = u.mgmt.regs.xiptb) ∧
      ∀ r : State, (∀ c ∈ r.ctx :: r.others, c.half = none ∧ ∀ k ∈ c.cmds, k.out = []) → r.performBegun = r) ∧
    (s.src.level = .user → exec (.tlbi a b ext) s = .next (s.takeTrap 0x04 0x70))

/-- R25, R313, R314: trap entry. -/
def Obligations.TrapEntrySavesAndVectors : Prop :=
  ∀ (c : Context) (cause : Nat) (info : Word), cause < 256 → c.pc < 2 ^ 56 → c.pc % 4 = 0 → c.dsc < 3 → c.rep < 256 → c.target.toNat < 2 ^ 56 →
    (c.inh = false → c.quiesce.cqAllFilled = true →
      let d := c.takeTrap cause info
      d.tepc = BitVec.ofNat 64 c.pc ∧ d.tdsc = BitVec.ofNat 64 c.dsc ∧ d.tbtgt = (if c.dsc = 0 then 0 else c.target) ∧
      d.trep = BitVec.ofNat 64 c.rep ∧ d.tinfo = info ∧ d.tcause.toNat % 256 = cause ∧ d.tcause.toNat / 256 % 4 = c.level.code ∧
      d.inh = true ∧ (cause ≠ 0x0D → d.tcause.toNat < 2 ^ 11) ∧ d.level = .supervisor ∧ d.pc = c.tvec.toNat + 256 * cause ∧
      d.dsc = 0 ∧ d.rep = 0 ∧ d.sticky = Sticky.none ∧ d.suspended = some c.sticky ∧ d.pend = [] ∧ d.faggs = [] ∧ d.dripFlights = [] ∧
      d.cq = c.quiesce.cq ∧ d.loops = c.loops ∧ d.regs = c.quiesce.regs ∧ d.mshp = c.mshp ∧ d.tvec = c.tvec ∧ d.asid = c.asid ∧
      d.tickets = c.tickets ∧ d.cmds = c.cmds) ∧
    (c.inh = false → c.quiesce.cqAllFilled = false → (c.takeTrap cause info).trapDue = some (cause, info) ∧
      (c.takeTrap cause info).pc = c.pc ∧ (c.takeTrap cause info).level = c.level) ∧
    (c.inh = true → (c.takeTrap cause info).status = .ending .aborted ∧ (c.takeTrap cause info).cq = [] ∧ (c.takeTrap cause info).loops = [])

/-- R69, R86: the software traps. -/
def Obligations.SoftwareTrapsEnter : Prop :=
  ∀ (s : State) (code : BitVec 16) (imm : BitVec 14), s.src = s.ctx → s.ctx.inh = false → s.ctx.pc < 2 ^ 56 → s.ctx.pc % 4 = 0 →
    s.ctx.pend = [] → s.ctx.faggs = [] → s.ctx.dripFlights = [] → s.ctx.cqAllFilled = true →
    let entered (i : Instr) (cause : Nat) (info : Word) : Prop :=
      ∃ t, exec i s = .next t ∧ OnlyContext s t ∧ t.ctx.tcause.toNat % 256 = cause ∧ t.ctx.tcause.toNat / 256 % 4 = s.ctx.level.code ∧
        t.ctx.tepc = BitVec.ofNat 64 s.ctx.pc ∧ t.ctx.tinfo = info ∧ t.ctx.level = .supervisor ∧ t.ctx.pc = s.ctx.tvec.toNat + 256 * cause ∧
        t.ctx.regs = s.ctx.regs ∧ t.ctx.cq = s.ctx.cq ∧ t.ctx.loops = s.ctx.loops ∧ t.ctx.cells = s.ctx.cells
    (s.ctx.dsc = 0 → entered (.trap code) 0x10 (BitVec.ofNat 64 code.toNat) ∧ entered (.sys code) 0x11 (BitVec.ofNat 64 code.toNat)) ∧
    entered (.bkpt imm) 0x0E (BitVec.ofNat 64 imm.toNat) ∧
    (0 < s.ctx.dsc → exec (.trap code) s = .next (s.takeTrap 0x03 1) ∧ exec (.sys code) s = .next (s.takeTrap 0x03 1))

/-- R21, R73, R75: the branches. -/
def Obligations.BranchesSetTargetAndDelay : Prop :=
  ∀ (s : State) (off : BitVec 22) (a : Opnd) (x : Word) (ra : Nat), s.src = s.ctx → s.ctx.dsc = 0 →
    s.bundlesOn s.src s.src.pc 3 = .ok ra →
    (∀ e r, s.ctx.loops = e :: r → ∀ n < 3, s.bundlesOn s.src s.src.pc n ≠ .ok e.last) →
    let target := BitVec.ofInt 64 (s.ctx.pc + 4 * off.toInt)
    let goes (r : State) (w : Word) : Host.Outcome State Fault Refusal := .next { r with ctx.dsc := 2, ctx.target := w, ctx.late := false }
    let linked (r : State) : State := r.put (.s 46) (BitVec.ofNat 64 ra)
    (∀ (e : CqEntry) (r : List CqEntry) (bit : Bool), s.ctx.cq = e :: r → e.val = some bit →
      exec (.brT off) s = goes { s with ctx.cq := r } (if bit then target else BitVec.ofNat 64 ra) ∧
      exec (.brF off) s = goes { s with ctx.cq := r } (if bit then BitVec.ofNat 64 ra else target)) ∧
    exec (.j off) s = goes s target ∧
    (s.Delivers [a] [x] → exec (.jr a) s = goes (s.reading [a]) x) ∧
    exec (.call off) s = goes (linked s) target ∧
    (s.Delivers [a] [x] → exec (.callr a) s = goes (linked (s.reading [a])) x) ∧
    exec .ret s = goes s (s.readReg 46)

/-- R21: a B operation in a delay bundle. -/
def Obligations.BranchInDelaySlotTraps : Prop :=
  ∀ (s : State) (off : BitVec 22) (a : Opnd) (nm1 : BitVec 4) (k : BitVec 6) (slot : BitVec 3) (code : BitVec 16) (cnt : BitVec 13)
      (last : BitVec 14) (x : Word), 0 < s.src.dsc →
    let traps (i : Instr) : Prop := exec i s = .next (s.takeTrap 0x03 1)
    traps .nopB ∧ traps (.brT off) ∧ traps (.brF off) ∧ traps (.j off) ∧ traps (.jr a) ∧ traps .ret ∧ traps (.cqdrop nm1) ∧
    traps (.tkwait k) ∧ traps .waitq ∧ traps .yield ∧ traps (.bara slot) ∧ traps (.barw slot) ∧ traps (.trap code) ∧ traps (.sys code) ∧
    traps (.exit a) ∧ (s.src.level ≠ .user → traps .ctxsw ∧ traps .rft) ∧ (s.src.level = .firmware → traps .halt) ∧
    (∀ ra, s.bundlesOn s.src s.src.pc 3 = .ok ra → traps (.call off) ∧ traps (.callr a)) ∧
    let skips : Prop := ∃ r, s.cascade (s.src.pc + 4 * last.toNat) s.src.loops = .ok r
    ((cnt ≠ 0 ∨ skips) → traps (.loop cnt last)) ∧
    (s.Delivers [a] [x] → (x ≠ 0 ∨ skips) → traps (.loopv a last) ∧
      ∀ q : Fin 16, a = .q q → s.ctx.streams[q].bind = .bound → s.ctx.streams[q].delta = true → traps (.loops a last)) ∧
    (s.src.loops = [] → traps .leave) ∧ (∀ o r, s.src.loops = o :: r → (∃ z, s.cascade o.last r = .ok z) → traps .leave)

/-- R16, R76, R77, R79: the loop instructions. -/
def Obligations.LoopsPushAndSkip : Prop :=
  ∀ (s : State) (a : Opnd) (x : Word) (cnt : BitVec 13) (last : BitVec 14) (first dest : Nat) (rest : List LoopEntry), s.src = s.ctx →
    s.ctx.dsc = 0 → s.nextBundle s.src s.src.pc = .ok first →
    let e := s.ctx.pc + 4 * last.toNat
    let delta : Prop := ∃ q : Fin 16, a = .q q ∧ s.ctx.streams[q].bind = .bound ∧ s.ctx.streams[q].delta = true
    let inside : Prop := ∀ o r, s.ctx.loops = o :: r → e ≤ o.last
    let pushed (r : State) (n : Nat) : Host.Outcome State Fault Refusal :=
      .next { r with ctx.loops := { first := first, last := e, idx := 0, remain := n - 1 } :: s.ctx.loops }
    let skipped (r : State) : Host.Outcome State Fault Refusal := .next { r with ctx.loops := rest, ctx.goto := some dest }
    (inside → s.ctx.loops.length < 6 → cnt ≠ 0 → exec (.loop cnt last) s = pushed s cnt.toNat) ∧
    (inside → s.ctx.loops.length < 6 → s.Delivers [a] [x] → 0 < x.toNat → x.toNat < 2 ^ 32 →
      exec (.loopv a last) s = pushed (s.reading [a]) x.toNat ∧ (delta → exec (.loops a last) s = pushed (s.reading [a]) x.toNat)) ∧
    (inside → s.cascade e s.ctx.loops = .ok (dest, rest) → exec (.loop 0 last) s = skipped s ∧
      (s.Delivers [a] [0] → exec (.loopv a last) s = skipped (s.reading [a]) ∧ (delta → exec (.loops a last) s = skipped (s.reading [a])))) ∧
    (∀ o r, s.ctx.loops = o :: r → s.cascade o.last r = .ok (dest, rest) → exec .leave s = skipped s) ∧
    (s.ctx.loops = [] → exec .leave s = .next (s.takeTrap 0x02 1)) ∧
    (s.ctx.loops.length = 6 → cnt ≠ 0 → exec (.loop cnt last) s = .next (s.takeTrap 0x12 1)) ∧
    (s.ctx.loops.length < 6 → cnt ≠ 0 → ¬ inside → exec (.loop cnt last) s = .next (s.takeTrap 0x02 1)) ∧
    (s.Delivers [a] [x] → 2 ^ 32 ≤ x.toNat → exec (.loopv a last) s = .next (s.takeTrap 0x02 1) ∧
      (delta → exec (.loops a last) s = .next (s.takeTrap 0x02 1))) ∧
    (s.ctx.loops.length = 6 → s.Delivers [a] [x] → x ≠ 0 → x.toNat < 2 ^ 32 → exec (.loopv a last) s = .next (s.takeTrap 0x12 1) ∧
      (delta → exec (.loops a last) s = .next (s.takeTrap 0x12 1))) ∧
    (s.ctx.loops.length < 6 → ¬ inside → s.Delivers [a] [x] → x ≠ 0 → x.toNat < 2 ^ 32 → exec (.loopv a last) s = .next (s.takeTrap 0x02 1) ∧
      (delta → exec (.loops a last) s = .next (s.takeTrap 0x02 1)))

/-- R17, R21, R75, R78: where a completed bundle leads. -/
def Obligations.LoopEndAction : Prop :=
  ∀ (c src : Context) (len : Nat) (ended rest : List LoopEntry), c.goto = none → c.loops = ended ++ rest →
    (∀ e ∈ ended, e.last = src.pc ∧ e.remain = 0) →
    (src.dsc ≠ 1 → (∀ e r, rest = e :: r → e.last ≠ src.pc) →
      (c.complete src len).pc = src.pc + len ∧ (c.complete src len).loops = rest) ∧
    (src.dsc ≠ 1 → ∀ e r, rest = e :: r → e.last = src.pc → 0 < e.remain →
      (c.complete src len).pc = e.first ∧ (c.complete src len).loops = { e with idx := e.idx + 1, remain := e.remain - 1 } :: r) ∧
    (src.dsc = 1 → (c.complete src len).pc = (if src.late then src.pc + len else src.target.toNat) ∧ (c.complete src len).dsc = 0 ∧
      (c.complete src len).late = false ∧ (c.complete src len).loops = c.loops) ∧
    (src.dsc = 2 → (c.complete src len).dsc = 1)

/-- R71, R81 to R84: the waits and barriers. -/
def Obligations.WaitsHoldAndRelease : Prop :=
  ∀ (s : State) (k : BitVec 6) (slot : BitVec 3), s.src = s.ctx → s.ctx.dsc = 0 →
    let t := s.ctx.ticket k
    let mates := s.others.filter (fun m => m.sameBrigade (s.ctx.who s.variant) && !m.arrivedForAll)
    exec .nop s = .next s ∧ exec .nopB s = .next s ∧
    (t.pending = true → exec (.tkwait k) s = .next s.hold) ∧
    (t.pending = false → (t.te = false ∨ t.status = 0 ∨ t.status = 5) → exec (.tkwait k) s = .next s) ∧
    (t.pending = false → t.te = true → t.status ≠ 0 → t.status ≠ 5 → exec (.tkwait k) s =
      .next (s.takeTrap 0x0B (BitVec.ofNat 64 (t.detail.toNat * 2 ^ 32 + t.status.toNat * 2 ^ 8 + k.toNat)))) ∧
    (s.inputCount s.ctx = 0 → exec .waitq s = .next s.hold) ∧ (0 < s.inputCount s.ctx → exec .waitq s = .next s) ∧
    (s.ctx.yielded = false → ∃ u, exec .yield s = .next u ∧ u = { s.hold with ctx.yielded := true, ctx.landPoint := true } ∧
      exec .yield { u with src := u.ctx } = .next { u with src := u.ctx, ctx.yielded := false }) ∧
    let count (c : Context) : BitVec 32 := c.bars[slot.toFin]
    ((∀ m ∈ mates, (count s.ctx + 1 - count m).toInt ≤ 255) →
      (s.ctx.half = none → exec (.bara slot) s = .next { s with ctx.bars := s.ctx.bars.set slot.toFin (count s.ctx + 1) }) ∧
      ∀ h, s.ctx.half = some h → ∃ u, exec (.bara slot) s = .next u ∧ u = { s with ctx.half := u.ctx.half } ∧
        u.settleHalf.ctx.bars = s.settleHalf.ctx.bars.set slot.toFin (s.settleHalf.ctx.bars[slot.toFin] + 1)) ∧
    ((∃ m ∈ mates, 255 < (count s.ctx + 1 - count m).toInt) → exec (.bara slot) s = .next s.hold) ∧
    ((∀ m ∈ mates, (count s.ctx - count m).toInt ≤ 0) → exec (.barw slot) s = .next s) ∧
    ((∃ m ∈ mates, 0 < (count s.ctx - count m).toInt) → exec (.barw slot) s = .next s.hold)

/-- R87: EXIT. -/
def Obligations.ExitEndsContext : Prop :=
  ∀ (s : State) (a : Opnd) (x : Word), s.src = s.ctx → s.ctx.dsc = 0 → s.Delivers [a] [x] →
    ∃ t, exec (.exit a) s = .next t ∧ OnlyContext s t ∧ t.ctx.status = .ending (.exit (x.setWidth 32)) ∧ t.ctx.exitVal = some (x.setWidth 32) ∧
      t.ctx.pend = [] ∧ t.ctx.faggs = [] ∧ t.ctx.dripFlights = [] ∧ t.ctx.cq = [] ∧ t.ctx.loops = [] ∧ t.ctx.sticky = Sticky.none ∧
      t.ctx.tickets = s.ctx.tickets ∧ t.ctx.cmds = s.ctx.cmds ∧ t.ctx.groups = s.ctx.groups ∧ t.ctx.bars = s.ctx.bars ∧
      t.ctx.regs = (s.reading [a]).ctx.quiesce.regs

/-- R336: RFT. -/
def Obligations.ReturnFromTrapRestores : Prop :=
  ∀ s : State, s.src = s.ctx → s.ctx.dsc = 0 →
    let pl := s.ctx.tcause.toNat / 256 % 4
    (s.ctx.level ≠ .user → pl ≠ 2 → (pl = 3 → s.ctx.level = .firmware) →
      ∃ t, exec .rft s = .next t ∧ OnlyContext s t ∧ t.ctx.level.code = pl ∧ t.ctx.inh = false ∧
        t.ctx.tcause.toNat % 2 ^ 10 = s.ctx.tcause.toNat % 2 ^ 10 ∧ t.ctx.pc = s.ctx.tepc.toNat ∧ t.ctx.rep = s.ctx.trep.toNat ∧
        t.ctx.dsc = s.ctx.tdsc.toNat % 4 ∧ t.ctx.target = s.ctx.tbtgt ∧ t.ctx.stepping = s.ctx.tdsc.getLsbD 8 ∧
        (∀ k, s.ctx.suspended = some k → t.ctx.sticky = k) ∧ t.ctx.suspended = none ∧ t.ctx.regs = s.ctx.regs ∧ t.ctx.loops = s.ctx.loops ∧
        t.ctx.cq = s.ctx.cq ∧ t.ctx.streams = s.ctx.streams ∧ t.ctx.tepc = s.ctx.tepc ∧ t.ctx.cells = s.ctx.cells ∧
        (t.ctx.landPoint = true → t.ctx.rep = 0 ∧ t.ctx.dsc = 0 ∧ t.ctx.stepping = false)) ∧
    (s.ctx.level ≠ .user → pl = 2 → exec .rft s = .next (s.takeTrap 0x02 1)) ∧
    (s.ctx.level = .supervisor → pl = 3 → exec .rft s = .next (s.takeTrap 0x04 1)) ∧
    (s.ctx.level = .user → exec .rft s = .next (s.takeTrap 0x04 0x71))

/-- R336: CTXSW and HALT. -/
def Obligations.SwitchAndHaltStopIssuing : Prop :=
  ∀ s : State, s.src = s.ctx → s.ctx.dsc = 0 →
    (s.ctx.level ≠ .user → ∃ t, exec .ctxsw s = .next t ∧ t.mem = s.mem ∧ t.ctx.landPoint = true ∧
      (requestStrength s.ctx.request < 2 → t.ctx.request = some .drain) ∧ (2 ≤ requestStrength s.ctx.request → t.ctx.request = s.ctx.request) ∧
      (s.ctx.pend = [] → t.ctx.regs = s.ctx.regs) ∧ t.ctx.loops = s.ctx.loops ∧ t.ctx.pc = s.ctx.pc ∧ t.others.length = s.others.length ∧
      (∀ m ∈ s.others, m.lnum = s.ctx.lnum → m.stage = s.ctx.stage → m.inst = s.ctx.inst → m.rank / m.chainLen = s.ctx.rank / s.ctx.chainLen →
        m.chainLen = s.ctx.chainLen → (if 2 ≤ requestStrength m.request then m else { m with request := some .drain }) ∈ t.others) ∧
      (s.ctx.pend = [] → s.ctx.faggs = [] → s.ctx.dripFlights = [] → s.ctx.cqAllFilled = true → s.ctx.liveReports = [] → s.ctx.liveFaults = [] →
        s.ctx.trapDue = none → t.ctx.status = .landed)) ∧
    (s.ctx.level = .user → exec .ctxsw s = .next (s.takeTrap 0x04 0x71)) ∧
    (s.ctx.level = .firmware → ∃ t, exec .halt s = .next t ∧ OnlyContext s t ∧ t.ctx.status = .halted ∧ t.ctx.cq = [] ∧ t.ctx.pend = [] ∧
      t.ctx.regs = s.ctx.quiesce.regs ∧ t.ctx.loops = s.ctx.loops ∧ t.ctx.cmds = s.ctx.cmds ∧ t.ctx.tickets = s.ctx.tickets ∧
      t.ctx.exitVal = s.ctx.exitVal) ∧
    (s.ctx.level ≠ .firmware → exec .halt s = .next (s.takeTrap 0x04 0x71))

/-- R13: the header-only bundle. -/
def Obligations.StickIssuesStickySlots : Prop :=
  ∀ (s : State) (sel : BitVec 2) (rep : BitVec 8), s.src = s.ctx →
    let w : WaveWord := { sel := sel, w0 := s.ctx.sticky.w0, w1 := s.ctx.sticky.w1, w1n := s.ctx.sticky.w1n + 1, m := s.ctx.sticky.m,
                          mn := s.ctx.sticky.mn + 1 }
    ((∀ i ∈ w.ops, i.slot = some .w0 ∨ i.slot = some .w1 ∨ i.slot = some .m) → s.waveHeld w = false →
      exec (.stick sel rep) s = .next (w.ops.foldl (fun u i => stateOf u (exec i u)) (s.waveStart w))) ∧
    (s.ctx.sticky.w0 = none → s.ctx.sticky.w1 = none → s.ctx.sticky.m = none →
      ∃ t, exec (.stick sel rep) s = .next t ∧ t = { s with wave := t.wave }) ∧
    (s.waveHeld w = true → exec (.stick sel rep) s = .next s.hold)

/-- R92: the frame of the operations that act at once. -/
def Obligations.WaveOperationsKeepToTheirDestination : Prop :=
  (∀ s : State, exec .vnop s = .next { s with ctx.sticky.w0 := none } ∧
    exec .wnop s = .next { s with ctx.sticky.w1 := none, ctx.sticky.w1n := 0 } ∧
    exec .mnop s = .next { s with ctx.sticky.m := none, ctx.sticky.mn := 0 }) ∧
  ∀ (i : Instr) (s : State), (match i with
      | .vadd _ | .vsub _ | .vmul _ | .vfma _ | .vfms _ | .vmin _ | .vmax _ | .vabs _ | .vneg _ | .vand _ | .vor _ | .vxor _
      | .vshl _ | .vshr _ | .vsra _ | .vcmp _ | .vsel _ | .vcvt _ | .vwmul _ | .vwfma _ | .vdot _ | .vscale _ | .vclass _
      | .vrsum _ | .vrmax _ | .vrmin _ | .vperm _ | .vbcst _ | .vmovi _ | .vmov _ | .vmask _ | .vflag _ | .viota _ | .xset _
      | .xget _ | .xshf _ | .cst _ | .cstm _ | .fset _ | .xside _ | .mvm _ => True
      | _ => False) →
    ∃ t, exec i s = .next t ∧ OnlyWave s t ∧ OnlyDrains s t ∧ CellsBut (waveRegs i ++ s.wave.conflict) s t ∧ t.ctx.pend = s.ctx.pend ∧
      (i.slot = some .w0 → t.ctx.sticky = { s.ctx.sticky with w0 := some i }) ∧
      (i.slot = some .w1 → t.ctx.sticky = { s.ctx.sticky with w1 := some i, w1n := s.wave.w1n }) ∧
      ((∀ w, i ≠ .cst w) → (∀ w, i ≠ .cstm w) → StoresSame s t)

/-- R18, R92: the operations whose results wait under a bound. -/
def Obligations.LateWaveOperationsOweTheirResult : Prop :=
  ∀ (i : Instr) (s : State) (lat : Nat) (acc : Bool), (match i with
      | .vexp2 w | .vlog2 w | .vrcp w | .vrsq w | .vsqrt w | .vsinp w | .vcosp w | .vtanh w => lat = w.var.toNat % 16 ∧ acc = false
      | .cld w | .cldm w => lat = w.lat.toNat ∧ acc = false
      | .mma m | .mmas m | .mmaq m | .mmab m => lat = m.lat.toNat ∧ acc = true
      | .mzero m | .mcvt m | .mtrn m | .madd m | .mstat m => lat = m.lat.toNat ∧ acc = false
      | _ => False) →
    ∃ (t : State) (ws : List CellWrite), exec i s = .next t ∧ OnlyWave s t ∧ OnlyDrains s t ∧ CellsBut s.wave.conflict s t ∧ StoresSame s t ∧
      t.ctx.pend = s.ctx.pend ++ [{ dest := .cells, value := 0, writes := ws, acc := acc, bound := s.ctx.issues + max lat 1,
                                    made := s.ctx.issues, addr := s.ctx.pc, poison := none }] ∧
      (∀ w ∈ ws, w.reg ∈ waveRegs i ∧ s.enabled w.cell = true) ∧
      (i.slot = some .w0 → t.ctx.sticky = { s.ctx.sticky with w0 := some i }) ∧
      (i.slot = some .w1 → t.ctx.sticky = { s.ctx.sticky with w1 := some i, w1n := s.wave.w1n }) ∧
      (i.slot = some .m → t.ctx.sticky = { s.ctx.sticky with m := some i, mn := s.wave.mn })

/-- R18, R160: results under a bound in the cells. -/
def Obligations.CellResultsLand : Prop :=
  ∀ (s : State) (p : Pending) (l r : List Pending), s.ctx.pend = l ++ p :: r → p.dest = .cells → p.poison = none →
    p.writes.Pairwise (fun v w => v.cell ≠ w.cell ∨ v.reg ≠ w.reg) →
    ((∀ o ∈ l, o.chained p = false) → ∃ t, exec (.resultLand l.length) s = .next t ∧ OnlyContext s t ∧ t.ctx.pend = l ++ r ∧
      t.ctx.regs = s.ctx.regs ∧
      (∀ w ∈ p.writes, w.cell < s.ctx.cells.length → (t.ctx.cell w.cell).get w.reg =
        ((s.ctx.cell w.cell).set w.reg (w.onto ((s.ctx.cell w.cell).get w.reg)).val (w.onto ((s.ctx.cell w.cell).get w.reg)).poi).get w.reg) ∧
      ∀ i reg, (∀ w ∈ p.writes, w.cell ≠ i ∨ w.reg ≠ reg) → (t.ctx.cell i).get reg = (s.ctx.cell i).get reg) ∧
    ((∃ o ∈ l, o.chained p = true) → exec (.resultLand l.length) s = .next s)

/-- R111, R136, R137: integer lanes. -/
def Obligations.IntegerVectorResults : Prop :=
  ∀ (s : State) (w : W0) (c j n : Nat), s.src = s.ctx → s.ctx.pend = [] → s.wave.conflict = [] → c < s.ctx.cells.length →
    s.enabled c = true → w.typ.toNat < 8 → n = 4 * 2 ^ (w.typ.toNat % 4) → j < 4096 / n →
    s.unmarked c w.a → s.unmarked c w.b → s.unmarked c w.d →
    let val (x : BitVec n) : Int := if w.typ.toNat < 4 then x.toInt else x.toNat
    let a := s.lane c w.a n j
    let b := s.lane c w.b n j
    let d := s.lane c w.d n j
    let fit (x : Int) : BitVec n :=
      if w.var = 0 then BitVec.ofInt n x
      else if w.typ.toNat < 4 then BitVec.ofInt n (max (-(2 ^ (n - 1))) (min (2 ^ (n - 1) - 1) x))
      else BitVec.ofInt n (max 0 (min (2 ^ n - 1) x))
    let gives (i : Instr) (v : BitVec n) : Prop := ∃ t, exec i s = .next t ∧ t.lane c w.d n j = v ∧ t.unmarked c w.d
    (w.var = 0 ∨ w.var = 16 →
      gives (.vadd w) (fit (val a + val b)) ∧ gives (.vsub w) (fit (val a - val b)) ∧ gives (.vmul w) (fit (val a * val b)) ∧
      gives (.vfma w) (fit (val d + val a * val b)) ∧ gives (.vfms w) (fit (val d - val a * val b)) ∧
      (w.b = 0 → gives (.vabs w) (fit |val a|) ∧ gives (.vneg w) (fit (-val a)))) ∧
    (w.var = 0 → gives (.vmin w) (if val b < val a then b else a) ∧ gives (.vmax w) (if val a < val b then b else a) ∧
      gives (.vand w) (a &&& b) ∧ gives (.vor w) (a ||| b) ∧ gives (.vxor w) (a ^^^ b) ∧
      gives (.vshl w) (a <<< (b.toNat % n)) ∧ gives (.vshr w) (a >>> (b.toNat % n)) ∧ gives (.vsra w) (a.sshiftRight (b.toNat % n))) ∧
    (w.var = 1 → gives (.vshl w) (a <<< (w.b.toNat % n)) ∧ gives (.vshr w) (a >>> (w.b.toNat % n)) ∧
      gives (.vsra w) (a.sshiftRight (w.b.toNat % n)))

/-- R133, R138, R139, R146: masks, selects and copies. -/
def Obligations.MaskAndCopyResults : Prop :=
  ∀ (s : State) (w : W0) (c j n : Nat), s.src = s.ctx → s.ctx.pend = [] → s.wave.conflict = [] → c < s.ctx.cells.length →
    s.enabled c = true → w.typ.toNat < 8 → n = 4 * 2 ^ (w.typ.toNat % 4) → j < 4096 / n →
    s.unmarked c w.a → s.unmarked c w.b → s.unmarked c w.d → (∀ g : Fin 8, ((s.ctx.cell c).g[g]).poi = 0) →
    let val (x : BitVec n) : Int := if w.typ.toNat < 4 then x.toInt else x.toNat
    let a := s.lane c w.a n j
    let b := s.lane c w.b n j
    let bit (u : State) (g : BitVec 5) (k : Nat) : Bool := ((u.ctx.cell c).g[Fin.ofNat 8 g.toNat]).bits.getLsbD k
    let does (i : Instr) (p : State → Prop) : Prop := ∃ t, exec i s = .next t ∧ p t
    let low := w.var.toNat % 4
    (w.d.toNat < 8 → w.var.toNat < 6 → does (.vcmp w) (fun t => (bit t w.d j = true ↔ (match w.var.toNat with
        | 0 => val a = val b
        | 1 => val a ≠ val b
        | 2 => val a < val b
        | 3 => val a ≤ val b
        | 4 => val b < val a
        | _ => val b ≤ val a)) ∧ ∀ k, 4096 / n ≤ k → bit t w.d k = false)) ∧
    (w.var = 0 → w.b.toNat < 8 → does (.vsel w) (fun t => t.lane c w.d n j = if bit s w.b j then a else s.lane c w.d n j)) ∧
    (w.typ = 0 → w.var.toNat < 4 → w.d.toNat < 8 → w.a.toNat < 8 → w.b.toNat < 8 → does (.vmask w) (fun t => ∀ k < 1024, bit t w.d k =
        (match low with
          | 0 => bit s w.a k && bit s w.b k
          | 1 => bit s w.a k || bit s w.b k
          | 2 => bit s w.a k ^^ bit s w.b k
          | _ => bit s w.a k && !bit s w.b k))) ∧
    (w.var.toNat < 4 → w.d = 0 → w.b = 0 → w.a.toNat < 8 → does (.vflag w) (fun t => ((t.ctx.cell c).f = true ↔ (match low with
          | 0 => ∃ k < 4096 / n, bit s w.a k = true
          | 1 => ∀ k < 4096 / n, bit s w.a k = true
          | 2 => ¬ ∃ k < 4096 / n, bit s w.a k = true
          | _ => ¬ ∀ k < 4096 / n, bit s w.a k = true)) ∧ (t.ctx.cell c).fPoi = false)) ∧
    (w.var = 0 → w.b = 0 → does (.vmov w) (fun t => (t.ctx.cell c).v[w.d.toNat] = (s.ctx.cell c).v[w.a.toNat])) ∧
    (w.var.toNat < 4 → does (.vmovi w) (fun t => t.lane c w.d n j =
        BitVec.ofInt n (BitVec.ofNat 12 (low * 1024 + w.a.toNat * 32 + w.b.toNat)).toInt)) ∧
    (w.var.toNat < 4 → low * 32 + w.b.toNat < 4096 / n → does (.vbcst w) (fun t => t.lane c w.d n j = s.lane c w.a n (low * 32 + w.b.toNat))) ∧
    (w.var = 0 → w.a = 0 → w.b = 0 → does (.viota w) (fun t => t.lane c w.d n j = BitVec.ofNat n j)) ∧
    (w.var.toNat < 4 → 256 * low ≤ j → j < 256 * low + 256 → does (.vperm w) (fun t =>
        let k := (s.lane c w.b 16 (j - 256 * low)).toNat
        t.lane c w.d n j = if k < 4096 / n then s.lane c w.a n k else 0))

/-- R93, R94, R97, R149, R151, R152, R154: moves. -/
def Obligations.MoveResults : Prop :=
  ∀ (s : State) (w : W1Move) (v : W1Store) (c : Nat), s.src = s.ctx → s.ctx.pend = [] → s.wave.conflict = [] → c < s.ctx.cells.length →
    s.enabled c = true → s.ctx.cells.length = 256 → s.ctx.chainLen = 1 →
    let cell := s.ctx.cell c
    let does (i : Instr) (p : State → CellState → Prop) : Prop := ∃ t, exec i s = .next t ∧ p t (t.ctx.cell c)
    let ctl := w.ctl.toNat
    let chunk := ctl / 2 % 8
    (ctl < 16 → ctl % 2 = 0 → w.d = 0 → does (.xset w) (fun t d =>
      d.xh = { data := (cell.v[w.a.toNat]).bits.extractLsb' (512 * chunk) 512, psn := (cell.v[w.a.toNat]).poi.extractLsb' (64 * chunk) 64,
               res := 0, info := 0, bad := 0 } ∧
      (c % 16 = 15 → (t.ctx.hatches[eastDrain s.wave.sel])[c / 16]? = ((s.ctx.hatches[eastDrain s.wave.sel])[c / 16]?).map (· ++ [d.xh])))) ∧
    (ctl = 5 → w.d = 0 → w.a = 0 → does (.xshf w) (fun _ d => d.xh = if c % 16 = 15 then Chunk.zero else (s.ctx.cell (c + 1)).xh)) ∧
    (ctl = 1 → w.d = 0 → w.a = 0 → does (.xshf w) (fun t d => d.xh =
      if c % 16 = 0 then s.wave.west.getD (c / 16) Chunk.zero else (t.ctx.cell (c - 1)).xh)) ∧
    (ctl < 64 → ctl % 8 = 0 → w.a = 0 → does (.xget w) (fun _ d =>
      (d.v[w.d.toNat]).bits.extractLsb' (512 * (ctl / 8)) 512 = cell.xh.data ∧ (d.v[w.d.toNat]).poi.extractLsb' (64 * (ctl / 8)) 64 = cell.xh.psn ∧
      ∀ k < 8, k ≠ ctl / 8 → (d.v[w.d.toNat]).bits.extractLsb' (512 * k) 512 = (cell.v[w.d.toNat]).bits.extractLsb' (512 * k) 512)) ∧
    (ctl < 8 → ctl % 2 = 0 → w.d.toNat < 8 → does (.mvm w) (fun _ d => ∀ k < 4, (d.m[Fin.ofNat 8 w.d.toNat]).bits.extractLsb' (4096 * k) 4096 =
      if k = ctl / 2 then (cell.v[w.a.toNat]).bits else (cell.m[Fin.ofNat 8 w.d.toNat]).bits.extractLsb' (4096 * k) 4096)) ∧
    (ctl < 8 → ctl % 2 = 1 → w.a.toNat < 8 → does (.mvm w) (fun _ d =>
      (d.v[w.d.toNat]).bits = (cell.m[Fin.ofNat 8 w.a.toNat]).bits.extractLsb' (4096 * (ctl / 2)) 4096)) ∧
    (ctl < 3 → w.d = 0 → w.a = 0 → cell.fPoi = false → does (.fset w) (fun _ d => d.fPoi = false ∧
      d.f = (match ctl with
        | 0 => false
        | 1 => true
        | _ => !cell.f))) ∧
    (s.wave.w1n = 0 → v.off.toNat + 8 ≤ 128 * s.ctx.foot → cell.store.Pairwise (fun x y => x.1 < y.1) → does (.cst v) (fun _ d => ∀ k < 8, storeGet d.store (v.off.toNat + k) =
      { bits := (cell.v[v.d.toNat]).bits.extractLsb' (512 * k) 512, poi := (cell.v[v.d.toNat]).poi.extractLsb' (64 * k) 64 }))

/-- R98, R155: FAGG and its arrival. -/
def Obligations.FaggAggregatesFlags : Prop :=
  ∀ (s : State) (w : W1Move), s.src = s.ctx → s.ctx.pend = [] →
    let ctl := w.ctl.toNat
    let flag (i : Nat) : Prop := (s.ctx.cell i).f = true
    let joined (all : Prop) (p : Nat → Prop) : Prop :=
      (¬ all ∧ ∃ i < s.ctx.cells.length, s.enabled i = true ∧ p i ∧ flag i) ∨ (all ∧ ∀ i < s.ctx.cells.length, s.enabled i = true → p i → flag i)
    let clean : Prop := ∀ i < s.ctx.cells.length, (s.ctx.cell i).fPoi = false
    (w.d = 0 → w.a = 0 → (ctl = 0 ∨ ctl = 4) → clean → ∃ (t : State) (f : FaggFlight), exec (.fagg w) s = .next t ∧
      t.ctx.faggs = s.ctx.faggs ++ [f] ∧ f.due = s.ctx.cycle + 34 + s.ctx.chainC ∧ f.target = .queue s.ctx.tag ∧ f.poi = false ∧
      t.ctx.cq = s.ctx.cq ++ [{ tag := s.ctx.tag, val := none, poi := false }] ∧ CellsBut s.wave.conflict s t ∧
      (s.wave.conflict = [] → t.ctx.cells = s.ctx.cells) ∧
      (f.value.getLsbD 0 = true ↔ joined (ctl = 4) (fun _ => True)) ∧
      ∀ n, t.ctx.faggs[n]? = some f → (t.ctx.cycle < f.due → exec (.faggResult n) t = .next t) ∧
        (∀ u : State, u = { t with ctx.cycle := f.due } → (∀ e ∈ s.ctx.cq, e.tag ≠ s.ctx.tag) → ∃ x, exec (.faggResult n) u = .next x ∧
          x.ctx.cq = s.ctx.cq ++ [{ tag := s.ctx.tag, val := some (f.value.getLsbD 0), poi := false }])) ∧
    (w.d = 0 → w.a = 0 → ctl < 64 → ctl / 8 % 2 = 1 → (ctl % 4 = 1 ∨ ctl % 4 = 2) → clean → s.ctx.chainLen = 1 → s.ctx.cells.length = 256 →
      ∃ (t : State) (f : FaggFlight), exec (.fagg w) s = .next t ∧ t.ctx.faggs = s.ctx.faggs ++ [f] ∧ t.ctx.cq = s.ctx.cq ∧
      f.due = s.ctx.cycle + 35 + s.ctx.chainC ∧
      (∀ k < 16, f.value.getLsbD k = true ↔ joined (ctl / 4 % 2 = 1) (fun i => if ctl % 4 = 1 then i / 16 = k else i % 16 = k)) ∧
      ∀ n, t.ctx.faggs[n]? = some f → ∀ u : State, u = { t with ctx.cycle := f.due } → ∃ x, exec (.faggResult n) u = .next x ∧
        let z := Fin.ofNat 4 (ctl / 16)
        (ctl % 4 = 1 → x.ctx.z[z].rows = f.value ∧ x.ctx.z[z].cols = s.ctx.z[z].cols) ∧
        (ctl % 4 = 2 → x.ctx.z[z].cols = f.value ∧ x.ctx.z[z].rows = s.ctx.z[z].rows))

/-- R127 to R129, R132: poison in vector lanes. -/
def Obligations.PoisonedLanesPropagate : Prop :=
  ∀ (s : State) (w : W0) (f : Fmt) (c j : Nat), s.src = s.ctx → s.ctx.pend = [] → s.wave.conflict = [] → c < s.ctx.cells.length →
    s.enabled c = true → w.fmt = some f → w.var = 0 → j < 4096 / f.width → s.ctx.pc < 2 ^ 56 →
    let inLane (k : Nat) : Prop := f.width * j < 8 * (k + 1) ∧ 8 * k < f.width * (j + 1)
    let struck (r : BitVec 5) : Prop := ∃ k, inLane k ∧ ((s.ctx.cell c).v[r.toNat]).poi.getLsbD k = true
    ∀ i, ((i = .vadd w ∨ i = .vsub w ∨ i = .vmul w) ∧ (struck w.a ∨ struck w.b) ∨
        (i = .vfma w ∨ i = .vfms w) ∧ (struck w.a ∨ struck w.b ∨ struck w.d)) →
      ∃ t, exec i s = .next t ∧ (∀ k, inLane k → ((t.ctx.cell c).v[w.d.toNat]).poi.getLsbD k = true) ∧
        (s.ctx.dtmask.getLsbD 4 = true → c < 1024 → ∃ l, t.ctx.dripFlights = s.ctx.dripFlights ++ [l] ∧ l.due = s.ctx.cycle + 34 + s.ctx.chainC ∧
          { count := 1, event := 5, col := BitVec.ofNat 4 (c % 16), row := BitVec.ofNat 6 (c / 16), slot := 0,
            addr := BitVec.ofNat 56 s.ctx.pc } ∈ l.recs)

/-- R157, R159, R161, R169: MMA of integers, and MZERO. -/
def Obligations.IntegerProductResults : Prop :=
  ∀ (s : State) (m : MOp) (c : Nat), s.src = s.ctx → s.ctx.pend = [] → s.wave.conflict = [] → c < s.ctx.cells.length →
    s.enabled c = true → s.wave.mn = 0 →
    let tile (n : Nat) : TReg := (s.ctx.cell c).m[Fin.ofNat 8 n]
    let owes (i : Instr) (p : CellWrite → Prop) : Prop :=
      ∃ (t : State) (o : Pending) (w : CellWrite), exec i s = .next t ∧ t.ctx.pend = [o] ∧ w ∈ o.writes ∧ w.cell = c ∧ w.reg = .m m.acc.toFin ∧
        w.lo = 0 ∧ w.poi = 0 ∧ p w
    let elem (f : BitVec 6) (n chunk k : Nat) : Int :=
      let x := (tile n).bits.extractLsb' (512 * chunk + 8 * k) 8
      if f = 1 then x.toInt else x.toNat
    ((m.afmt = 1 ∨ m.afmt = 5) → (m.bfmt = 1 ∨ m.bfmt = 5) → m.nmm = 0 → m.nm1 = 0 → m.kblk = 0 → m.asrc.toNat < 8 → m.bsrc.toNat < 8 →
      m.arow.toNat ≤ 31 → m.brow.toNat ≤ 31 → m.asrc.toNat ≠ m.acc.toNat → m.bsrc.toNat ≠ m.acc.toNat → (∀ n, (tile n).poi = 0) →
      owes (.mma m) (fun w => w.len = 8192 ∧ ∀ i < 16, ∀ j < 16,
        (w.val / 2 ^ (32 * (16 * i + j)) % 2 ^ 32 : Int) = (((tile m.acc.toNat).bits.extractLsb' (32 * (16 * i + j)) 32).toNat +
          ((List.range 4).map (fun k => elem m.afmt m.asrc.toNat m.arow.toNat (4 * i + k) * elem m.bfmt m.bsrc.toNat m.brow.toNat (4 * j + k))).sum)
          % 2 ^ 32)) ∧
    (m.afmt = 0 → m.bfmt = 0 → m.kblk = 0 → m.asrc = 0 → m.bsrc = 0 → m.arow = 0 → m.brow = 0 → m.step = 0 → m.nmm = 0 → m.nm1 = 0 →
      owes (.mzero m) (fun w => w.len = 16384 ∧ w.val = 0))

/-- R237, R238, R265: the issue of an engine command. -/
def Obligations.CommandsIssue : Prop :=
  ∀ (i : Instr) (e : Cmd) (s : State) (ws : List Word), (match i with
      | .hload x | .hstore x | .hstzTensor x | .hldz x | .hstz x | .hmcast x | .copy x | .cfill x | .csqz x | .cxpd x | .zmap x | .tkjoin x
      | .rfence x | .pgreq x | .scrlim x | .reds x | .redd x | .bcst x | .rgrp x | .launch x | .cancel x | .abort x => x = e
      | .ctxsave x | .ctxload x | .flushall x => x = e ∧ s.ctx.level ≠ .user
      | _ => False) →
    let srcs := match i with
      | .hmcast x => [x.p0, .zero, x.p2]
      | j => srcsOf j
    s.src = s.ctx → s.Delivers srcs ws → s.Free e →
    ∃ (t : State) (k : EngCmd), exec i s = .next t ∧ NewCommand s t k ∧ k.op = i ∧ k.e = e ∧ k.seq = s.ctx.cmdSeq ∧
      (∀ (j : Nat) (w : Word), ws[j]? = some w → k.p[j]? = some w) ∧ k.asid = s.ctx.asid.toNat ∧ k.level = s.ctx.level ∧ k.ttbase = s.ctx.ttbase.toNat ∧
      k.started = false ∧ k.closed = false ∧ t.ctx.cmdSeq = s.ctx.cmdSeq + 1 ∧
      (e.kp ≠ 0 → (t.ctx.ticket e.kp).pending = true ∧ (t.ctx.ticket e.kp).te = e.te) ∧
      (∀ n, n ≠ e.kp ∨ n = 0 → t.ctx.ticket n = s.ctx.ticket n) ∧
      t.ctx.regs = s.ctx.regs ∧ t.ctx.cq = s.ctx.cq ∧ t.ctx.loops = s.ctx.loops ∧ t.ctx.specials = s.ctx.specials ∧ t.ctx.cells = s.ctx.cells ∧
      t.ctx.hatches = s.ctx.hatches ∧ t.ctx.pc = s.ctx.pc ∧ t.ctx.level = s.ctx.level ∧ StreamsBut srcs s t ∧ (t.others.length = s.others.length) ∧
      (s.Performed → t.others = s.others ∧ BytesBut s.BitmapByte s t ∧ t.zflags = s.zflags)

/-- R239, R265: the checks of operand values. -/
def Obligations.CommandValuesChecked : Prop :=
  ∀ (e : Cmd) (s : State) (a b c d : Word), s.src = s.ctx →
    s.Free e →
    let spanBad (v : Word) : Prop := v.toNat / 2 ^ 40 ≠ 0 ∨ 15 < v.toNat / 2 ^ 32 % 16 + v.toNat / 2 ^ 36 % 16 ∨ v.toNat % 2 ^ 32 = 0
    let spanBytes (v : Word) : Nat := (v.toNat / 2 ^ 36 % 16 + 1) * (v.toNat % 2 ^ 32) * 64
    let noFormat (x : Nat) : Prop := 0x0A < x ∧ (x < 0x20 ∨ 0x40 ≤ x ∨ x % 8 = 7)
    let ends (i : Instr) (o : Option (BitVec 4 × BitVec 32)) : Prop :=
      ∃ (t : State) (k : EngCmd), exec i s = .next t ∧ NewCommand s t k ∧ k.op = i ∧ k.outcome = o
    let who := { s.ctx.who s.variant with asid := s.ctx.asid.toNat, level := s.ctx.level }
    let check (u : State) (pos : Nat) (h : Word) := u.checkHandle s.ctx.die who s.ctx.ttbase.toNat pos (h.toNat % 2 ^ 32)
    let asOutcome (f : Nat × Nat) : Option (BitVec 4 × BitVec 32) := some (BitVec.ofNat 4 f.1, BitVec.ofNat 32 (min f.2 0xFFFFFFFF))
    let ready (os : List Opnd) : State := s.beforeCmd.reading os
    let four := [e.p0, e.p1, e.p2, e.p3]
    (s.Delivers four [a, b, c, d] →
      (∀ i, (i = .hload e ∨ i = .hstore e ∨ i = .hstzTensor e) → (spanBad c → ends i (some (1, 2))) ∧ (¬ spanBad c → 2 ^ 63 ≤ d.toNat → ends i (some (1, 3))) ∧
        (¬ spanBad c → d.toNat < 2 ^ 63 → ∀ f u, check (ready four) 0 a = (.error f, u) → ends i (asOutcome f))) ∧
      (¬ spanBad c → d.toNat < 2 ^ 63 → ∀ r u, check (ready four) 0 a = (.ok r, u) → ends (.hload e) none ∧ ends (.hstore e) none ∧
        ends (.hstzTensor e) (if (Shape.ofBits r.1).layout = 3 then none else some (1, 0)))) ∧
    (s.Delivers [e.p0, e.p1, e.p2] [a, b, c] →
      (b.toNat / 2 ^ 6 % 2 ^ 26 ≠ 0 → ends (.hstz e) (some (1, 1))) ∧
      (b.toNat / 2 ^ 6 % 2 ^ 26 = 0 → (spanBad c ∨ 32768 < spanBytes c) → ends (.hstz e) (some (1, 2))) ∧
      (b.toNat / 2 ^ 6 % 2 ^ 26 = 0 → ¬ spanBad c → spanBytes c ≤ 32768 →
        (noFormat (b.toNat % 64) → ends (.hstz e) (some (1, 1))) ∧ (¬ noFormat (b.toNat % 64) → ends (.hstz e) none)) ∧
      (64 ≤ b.toNat → ends (.hldz e) (some (1, 1))) ∧ (b.toNat < 64 → spanBad c → ends (.hldz e) (some (1, 2))) ∧
      (b.toNat < 64 → ¬ spanBad c → (noFormat b.toNat → ends (.hldz e) (some (1, 1))) ∧ (¬ noFormat b.toNat → ends (.hldz e) none)) ∧
      (∀ f u, check (ready [e.p0, e.p1, e.p2]) 0 a = (.error f, u) → ends (.copy e) (asOutcome f)) ∧
      (∀ r u, check (ready [e.p0, e.p1, e.p2]) 0 a = (.ok r, u) → (∀ f v, check u 1 b = (.error f, v) → ends (.copy e) (asOutcome f)) ∧
        ∀ q v, check u 1 b = (.ok q, v) → ends (.copy e) (if (Shape.ofBits r.1).code = (Shape.ofBits q.1).code then none else some (1, 1))) ∧
      (∀ f u, check (ready [e.p0, e.p1, e.p2]) 1 b = (.error f, u) → ends (.cfill e) (asOutcome f)) ∧
      (∀ r u, check (ready [e.p0, e.p1, e.p2]) 1 b = (.ok r, u) →
        ends (.cfill e) (if a.toNat < 2 ^ (Shape.ofBits r.1).width then none else some (1, 0)))) ∧
    (s.Delivers [e.p0, .zero, e.p2] [a, 0, c] → (spanBad c → ends (.hmcast e) (some (1, 2))) ∧ (¬ spanBad c → ends (.hmcast e) none)) ∧
    (s.Delivers [e.p0, e.p1] [a, b] → (2 ^ 56 < a.toNat + b.toNat → b ≠ 0 → ends (.zmap e) (some (1, 1))) ∧
      ((a.toNat + b.toNat ≤ 2 ^ 56 ∨ b = 0) → ends (.zmap e) none) ∧ ends (.scrlim e) none ∧
      (s.ctx.level ≠ .user → ends (.ctxsave e) none ∧ ends (.ctxload e) none)) ∧
    (s.Delivers four [a, b, c, d] → s.hasUnit .compressor = false → ends (.csqz e) (some (7, 0)) ∧ ends (.cxpd e) (some (7, 0))) ∧
    (s.Delivers four [a, b, c, d] → s.hasUnit .compressor = true → ends (.cxpd e) none ∧
      let eps := b.toNat / 2 ^ 32
      let fmt := d.toNat / 2 ^ 32 % 64
      let epsOk : Prop := 0 < eps ∧ eps < 0x7F800000
      (¬ epsOk → ends (.csqz e) (some (1, 1))) ∧ (epsOk → 2 ^ 38 ≤ d.toNat → ends (.csqz e) (some (1, 3))) ∧
      (epsOk → d.toNat < 2 ^ 38 → ends (.csqz e) (if fmt = 0x08 ∨ fmt = 0x09 ∨ fmt = 0x0A then none else some (1, 3)))) ∧
    (s.Delivers [e.p0] [a] → ends (.pgreq e) none ∧ ends (.rgrp e) none ∧ ends (.launch e) none ∧ ends (.cancel e) none ∧ ends (.abort e) none) ∧
    ends (.tkjoin e) none ∧ ends (.rfence e) none ∧ (s.ctx.level ≠ .user → ends (.flushall e) none)

/-- R237, R233, R40: holds and privilege of commands. -/
def Obligations.CommandsHoldAtIssue : Prop :=
  ∀ (i : Instr) (e : Cmd) (s : State) (ws : List Word), s.src = s.ctx →
    ((match i with
      | .hload x | .hstore x | .hstzTensor x | .hldz x | .hstz x | .hmcast x | .copy x | .cfill x | .csqz x | .cxpd x | .zmap x | .tkjoin x
      | .rfence x | .pgreq x | .scrlim x | .reds x | .redd x | .bcst x | .rgrp x | .launch x | .cancel x | .abort x => x = e
      | .ctxsave x | .ctxload x | .flushall x => x = e ∧ s.ctx.level ≠ .user
      | _ => False) →
      s.Delivers (match i with
        | .hmcast x => [x.p0, .zero, x.p2]
        | j => srcsOf j) ws →
      ((e.kp ≠ 0 ∧ (s.ctx.ticket e.kp).pending = true) ∨ 64 ≤ s.ctx.inFlight.length + s.ctx.qops.length ∨
        s.ctx.cmds.any (fun k => isRfence k.op && !k.started && !k.closed) = true) → exec i s = .next s.hold) ∧
    (s.ctx.level = .user → exec (.ctxsave e) s = .next (s.takeTrap 0x04 0x72) ∧ exec (.ctxload e) s = .next (s.takeTrap 0x04 0x72) ∧
      exec (.flushall e) s = .next (s.takeTrap 0x04 0x72))

/-- R271: HGATH and HSCAT. -/
def Obligations.IndexedCommandsIssue : Prop :=
  ∀ (e : Cmd) (s : State) (a b c : Word) (q : Fin 16) (idx : List Word), s.src = s.ctx → q ≠ 15 → e.p3 = .q q →
    (∀ o ∈ [e.p0, e.p1, e.p2], o ≠ .q q) → s.Delivers [e.p0, e.p1, e.p2] [a, b, c] →
    s.Delivers (List.replicate (16 * (c.toNat / 2 ^ 36 % 16 + 1)) (.q q)) idx → s.Free e →
    let row := if e.feed = 1 then b.toNat / 2 ^ 32 else b.toNat % 2 ^ 32
    let spanOk : Prop := c.toNat / 2 ^ 40 = 0 ∧ c.toNat / 2 ^ 32 % 16 + c.toNat / 2 ^ 36 % 16 ≤ 15 ∧ c.toNat % 2 ^ 32 ≠ 0
    row = 0 → spanOk →
    let who := { s.ctx.who s.variant with asid := s.ctx.asid.toNat, level := s.ctx.level }
    ∀ i, (i = .hgath e ∨ i = .hscat e) →
      ∃ (t : State) (k : EngCmd), exec i s = .next t ∧ NewCommand s t k ∧ k.op = i ∧ k.idx = idx ∧
        (t.ctx.streams[q]).buf = ((s.ctx.streams[q]).buf).drop idx.length ∧ (t.ctx.streams[q]).taken = (s.ctx.streams[q]).taken + idx.length ∧
        t.ctx.regs = s.ctx.regs ∧ (e.kp ≠ 0 → (t.ctx.ticket e.kp).pending = true) ∧ t.ctx.cells = s.ctx.cells ∧
        ((s.ctx.streams[q]).size ≠ 2 → k.outcome = some (1, 3)) ∧
        ((s.ctx.streams[q]).size = 2 → ∀ r u, ((s.beforeCmd.reading [e.p0, e.p1, e.p2]).takeN e.p3 idx.length).2.checkHandle s.ctx.die who
          s.ctx.ttbase.toNat 0 (a.toNat % 2 ^ 32) = (.ok r, u) → k.outcome = none)

/-- R242, R245, R280: SBIND and SFREE. That a misaligned SBIND leaves the stream unbound and that a faulted store traps once is the model’s
choice (log entry 53). The detail of the status that q15 gives is a free value (log entry 21). -/
def Obligations.StreamsBindAndFree : Prop :=
  ∀ (e : Cmd) (s : State) (a : Word) (n : Fin 16), s.src = s.ctx → n = Fin.ofNat 16 (e.efn.toNat % 16) →
    let q := s.ctx.streams[n]
    let put (i : Instr) (p : State → EngCmd → Prop) : Prop :=
      ∃ (t : State) (k : EngCmd), exec i s = .next t ∧ NewCommand s t k ∧ k.op = i ∧ k.p[0] = (match i with
        | .sbind _ => a
        | _ => 0) ∧ t.ctx.regs = s.ctx.regs ∧ t.ctx.cells = s.ctx.cells ∧ (s.Performed → t.others = s.others) ∧ p t k
    (s.Free e →
      (q.write = false ∨ q.buf = []) → q.stuck = none → n ≠ 15 →
      put (.sfree e) (fun t k => t.ctx.streams[n] = Stream.free ∧ k.outcome = none) ∧
      (s.Delivers [e.p0] [a] → (a.toNat % 64 = 0 → put (.sbind e) (fun t k => (t.ctx.streams[n]).bind = .binding ∧
          (t.ctx.streams[n]).binder = k.seq ∧ (t.ctx.streams[n]).buf = [] ∧ k.outcome = none)) ∧
        (a.toNat % 64 ≠ 0 → put (.sbind e) (fun t k => (t.ctx.streams[n]).bind = .unbound ∧ k.outcome = some (1, 0))))) ∧
    (s.Free e →
      n = 15 → put (.sfree e) (fun _ k => ∃ d, k.outcome = some (1, d)) ∧ (s.Delivers [e.p0] [a] → put (.sbind e) (fun _ k => ∃ d, k.outcome = some (1, d)))) ∧
    (n ≠ 15 → q.write = true → q.bind = .bound → q.stuck = none → q.buf ≠ [] → exec (.sfree e) s = .next s.hold ∧
      (s.Delivers [e.p0] [a] → exec (.sbind e) s = .next s.hold)) ∧
    (∀ cause va, n ≠ 15 → q.write = true → q.bind = .bound → q.stuck = some (cause, va) → cause < 256 →
      ∃ t, exec (.sfree e) s = .next t ∧ t = s.takeTrap (cause + 256) (BitVec.ofNat 64 (n.val * 2 ^ 56 + va % 2 ^ 56)) ∧
        (s.ctx.inh = false → s.ctx.quiesce.cqAllFilled = true → t.ctx.tcause.toNat % 256 = cause ∧ t.ctx.tinfo = BitVec.ofNat 64 (n.val * 2 ^ 56 + va % 2 ^ 56) ∧
          t.ctx.pc = s.ctx.tvec.toNat + 256 * cause ∧ (t.ctx.streams[n]).stuck = none))

/-- R262, R282, R283: the queue instructions at issue. -/
def Obligations.QueueOperationsAsk : Prop :=
  ∀ (e : Cmd) (s : State) (ws : List Word) (g : Stage), s.src = s.ctx → s.stageOf s.ctx = some g →
    let n := e.efn.toNat % 8 + 1
    let out (w : Nat) : Nat := if w = 1 then g.out0 else g.out1
    let which := if e.efn.toNat / 8 % 2 = 1 then 2 else 1
    let asks (i : Instr) (u : State) (op : QueueOp) : Prop :=
      ∃ t, exec i s = .next t ∧ t.ctx.cq = s.ctx.cq ++ [{ tag := s.ctx.tag, val := none, poi := false }] ∧ t.ctx.qops = s.ctx.qops ++ [op] ∧
        t.ctx.regs = s.ctx.regs ∧ t.pipelines = s.pipelines ∧ SameMemory u t ∧ t.others = u.others ∧ t.ctx.specials = s.ctx.specials ∧
        t.ctx.cells = s.ctx.cells ∧ t.ctx.half = u.ctx.half
    (∀ r : Fin 48, e.p0 = .s r → r.val + n ≤ 48 → s.Delivers (regRun e.p0 n) ws → out which ≠ 0xF → s.Free e →
      asks (.enq e) s.settleHalf { kind := .enq, which := which, tag := s.ctx.tag, entry := BitVec.ofNat 512 ((ws.zipIdx.map (fun x => x.1.toNat * 2 ^ (64 * x.2))).sum),
                                   poi := 0, dest := .zero, count := 0, made := s.ctx.issues, addr := s.ctx.pc }) ∧
    (∀ r : Fin 48, e.p0 = .s r → s.Free e →
      asks (.deq e) s { kind := .deq, which := 0, tag := s.ctx.tag, entry := 0, poi := 0, dest := e.p0, count := n,
                          made := s.ctx.issues, addr := s.ctx.pc }) ∧
    (∀ r : Fin 48, e.p0 = .s r → (e.efn.toNat % 4 = 0 ∨ out (e.efn.toNat % 4) ≠ 0xF) → s.Free e →
      asks (.qinfo e) s { kind := .qinfo, which := e.efn.toNat % 4, tag := s.ctx.tag, entry := 0, poi := 0, dest := e.p0, count := 1,
                              made := s.ctx.issues, addr := s.ctx.pc }) ∧
    (∀ r : Fin 48, e.p0 = .s r → 64 ≤ s.ctx.inFlight.length + s.ctx.qops.length → exec (.deq e) s = .next s.hold) ∧
    (out which = 0xF → exec (.enq e) s = .next (s.takeTrap 0x02 2)) ∧
    (e.efn.toNat % 4 ≠ 0 → out (e.efn.toNat % 4) = 0xF → exec (.qinfo e) s = .next (s.takeTrap 0x02 2))

/-- R129, R25, R237, R262, R263: what arrives at a context, and what its queues decide. That the spill engine moves the newest on-chip entry
to the lowest free ring slot is the model’s choice (log entry 44). -/
def Obligations.ArrivalsAndDecisionsComplete : Prop :=
  ∀ s : State,
    (∀ (f : DripFlight) (rest : List DripFlight) (r : DripRec), s.ctx.dripFlights = f :: rest → f.due ≤ s.ctx.cycle → f.recs = [r] →
      s.ctx.dripHalf ≠ .record → ∃ t, exec (.dripTrayAppend 0) s = .next t ∧ OnlyContext s t ∧ t.ctx.dripFlights = rest ∧ t.ctx.regs = s.ctx.regs ∧
        ((∀ x ∈ s.ctx.drip, x.same r = false) → s.ctx.drip.length < 256 → t.ctx.drip = s.ctx.drip ++ [r] ∧ t.ctx.dtlost = s.ctx.dtlost) ∧
        (∀ u x v, s.ctx.drip = u ++ x :: v → (∀ y ∈ u, y.same r = false) → x.same r = true → x.count ≠ 0xFFFFFFFF →
          t.ctx.drip = u ++ { x with count := x.count + 1 } :: v) ∧
        ((∀ x ∈ s.ctx.drip, x.same r = false) → 256 ≤ s.ctx.drip.length → s.ctx.dtlost.toNat < 0xFFFFFFFF →
          t.ctx.drip = s.ctx.drip ∧ t.ctx.dtlost = s.ctx.dtlost + 1)) ∧
    (∀ (cause : Nat) (info : Word), s.ctx.trapDue = some (cause, info) → s.ctx.inh = false → ∃ t, exec .trapEntry s = .next t ∧ OnlyContext s t ∧
      t.ctx.regs = s.ctx.quiesce.regs ∧
      (s.ctx.quiesce.cqAllFilled = true → t.ctx.level = .supervisor ∧ t.ctx.pc = s.ctx.tvec.toNat + 256 * (cause % 256) ∧ t.ctx.tinfo = info ∧
        t.ctx.tepc = BitVec.ofNat 64 (s.ctx.pc % 2 ^ 56 / 4 * 4) ∧ t.ctx.tcause.toNat % 2 ^ 8 = cause % 2 ^ 8 ∧ t.ctx.trapDue = none ∧
        t.ctx.suspended = some s.ctx.sticky ∧ t.ctx.loops = s.ctx.loops ∧ t.ctx.cq = s.ctx.quiesce.cq) ∧
      (s.ctx.quiesce.cqAllFilled = false → t.ctx.level = s.ctx.level ∧ t.ctx.pc = s.ctx.pc ∧ t.ctx.trapDue = s.ctx.trapDue)) ∧
    (∀ (n : Nat) (k : EngCmd) (st : BitVec 4) (d : BitVec 32), s.ctx.cmds[n]? = some k → k.outcome = some (st, d) → k.closed = false → k.out = [] →
      k.e.kp ≠ 0 → s.ctx.drainedAway = false →
      ∃ t, exec (.ticketComplete n) s = .next t ∧ OnlyContext s t ∧ t.ctx.regs = s.ctx.regs ∧ t.ctx.hatches = s.ctx.hatches ∧
        t.ctx.tickets = s.ctx.tickets.set k.e.kp.toFin
          { s.ctx.tickets[k.e.kp.toFin] with pending := false, status := st, detail := d, away := false } ∧
        (∀ x ∈ t.ctx.cmds, ∀ dep ∈ x.deps, dep.seq = k.seq → dep.kept.isSome = true) ∧
        ((hatchOp k.op = false ∨ k.served = true) → t.ctx.cmds.map (·.seq) = (s.ctx.cmds.map (·.seq)).eraseIdx n) ∧
        (hatchOp k.op = true → k.served = false → t.ctx.cmds.map (·.seq) = s.ctx.cmds.map (·.seq))) ∧
    (∀ (p : Pipeline) (g : Stage) (n : Nat) (op : QueueOp), s.pipelineOf s.ctx.lnum = some p → s.stageOf s.ctx = some g → s.ctx.qops[n]? = some op →
      (∀ o ∈ s.ctx.qops.take n, opStage s.ctx g o ≠ opStage s.ctx g op) →
      let entry : QEntry := { bits := op.entry, poi := op.poi, ring := none }
      let decides (b : Bool) (ps : List Pipeline) (rs : List Opnd) : Prop := ∃ t, exec (.queueDecision n) s = .next t ∧
        t = { s with ctx := t.ctx, pipelines := ps } ∧ t.ctx.qops = s.ctx.qops.eraseIdx n ∧ t.ctx.cq = (s.ctx.cqFill op.tag b false).cq ∧
        RegsBut rs s t
      let changed (f : Pipeline → Pipeline) : List Pipeline := s.pipelines.map (fun q => if q.lnum = p.lnum then f q else q)
      (op.kind = .enq → opStage s.ctx g op = none →
        (p.results.length < 64 → decides true (changed (fun q => { q with results := q.results ++ [entry] })) []) ∧
        (64 ≤ p.results.length → decides false s.pipelines [])) ∧
      (op.kind = .enq → ∀ i h, opStage s.ctx g op = some i → p.stages[i]? = some h →
        (h.queue.length < 64 + h.quota → onChip h.queue < 64 →
          decides true (changed (fun q => q.mapStage i (fun x => { x with queue := x.queue ++ [entry] }))) []) ∧
        (64 + h.quota ≤ h.queue.length → decides false s.pipelines [])) ∧
      (op.kind = .deq → ∀ d : Fin 48, op.dest = .s d →
        (g.queue = [] → decides false s.pipelines []) ∧
        (∀ e r, g.queue = e :: r → e.ring = none → e.poi.toNat % 2 ^ (8 * op.count) = 0 →
          decides true (changed (fun q => q.mapStage s.ctx.stage (fun x => { x with queue := r }))) (regRun op.dest op.count) ∧
          (d.val + op.count ≤ 48 → ∀ i < op.count, ∀ j : Fin 48, j.val = d.val + i → j ≠ 0 → ∀ t, exec (.queueDecision n) s = .next t →
            t.ctx.reg j = BitVec.ofNat 64 (e.bits.toNat / 2 ^ (64 * i))))) ∧
      (op.kind = .qinfo → op.which = 0 → ∀ d : Fin 48, op.dest = .s d → d ≠ 0 → ∃ t, exec (.queueDecision n) s = .next t ∧
        t = { s with ctx := t.ctx } ∧ t.ctx.cq = (s.ctx.cqFill op.tag (decide (0 < g.queue.length)) false).cq ∧
        t.ctx.reg d = BitVec.ofNat 64 (g.queue.length + 2 ^ 32 * onChip g.queue))) ∧
    (∀ (p : Pipeline) (i : Nat) (g : Stage) (u v : List QEntry) (e : QEntry), s.pipelineOf p.lnum = some p → p.stages[i]? = some g →
      g.queue = u ++ e :: v →
      let moved (r : State) (x : QEntry) : Host.Outcome State Fault Refusal :=
        .next (r.mapPipe p.lnum (fun q => q.mapStage i (fun y => { y with queue := y.queue.set u.length x })))
      (∀ k r, e.ring = none → (∀ x ∈ v, x.ring.isSome = true) → freeSlot g.queue g.quota = some k →
        s.deviceWrite p.asid (p.ringBase i + 64 * k) (entryBytes e) = .ok r →
        exec (.spillMove p.lnum i true) s = moved r { bits := 0, poi := 0, ring := some k }) ∧
      (∀ k bs, e.ring = some k → (∀ x ∈ u, x.ring = none) → onChip g.queue < 64 → s.deviceRead p.asid (p.ringBase i + 64 * k) 64 = .ok bs →
        exec (.spillMove p.lnum i false) s =
          moved s { bits := BitVec.ofNat 512 (numOf bs), poi := BitVec.ofNat 64 (marks (bs.map Prod.snd)), ring := none }))

/-- R238, R240, R233 to R236, R279, R246, R247, R250, R243, R244: what commands and streams do after their issue. The lane order of the
hatches is the model’s choice (log entry 60), and so are what an early ended hatch command delivers (log entry 40) and the dropping of
elements after a faulted store (log entry 53). -/
def Obligations.CommandsWork : Prop :=
  ∀ s : State,
    (∀ (u v : List EngCmd) (k : EngCmd), s.ctx.cmds = u ++ k :: v → (∀ x ∈ u ++ v, x.seq ≠ k.seq) →
      let ends (r : BitVec 4 × BitVec 32) : List EngCmd := u ++ { k with started := true, outcome := some r } :: v
      let idle : Prop := ∀ c ∈ s.ctx :: s.others, c.half = none ∧ ∀ x ∈ c.cmds, x.out = []
      (s.ctx.startable k = false → exec (.commandStart u.length) s = .next s) ∧
      (s.ctx.startable k = true → ∀ e : Cmd,
        (k.op = .tkjoin e → ∃ r, exec (.commandStart u.length) s = .next { s with ctx.cmds := ends r } ∧ (k.consumed = [] → r = (0, 0)) ∧
          (k.consumed ≠ [] → (∀ x ∈ k.consumed, x.1 ∈ joinRank) → r ∈ k.consumed ∧ ∀ x ∈ k.consumed, joinRank.idxOf r.1 ≤ joinRank.idxOf x.1)) ∧
        (k.op = .rfence e → exec (.commandStart u.length) s =
          .next { s with ctx.cmds := ends (0, 0), recCache := s.recCache.filter (fun r => r.asid != k.asid) }) ∧
        (k.op = .scrlim e → let lo := (k.p[0]).toNat
          let hi := (k.p[1]).toNat
          (lo ≤ hi → hi ≤ s.ctx.descHi → lo ≤ s.ctx.descLo → (s.pipelineOf s.ctx.lnum).isSome = true → s.ctx.status ≠ .absent →
            (∃ t, exec (.commandStart u.length) s = .next t ∧ t.ctx.scrlo = k.p[0] ∧ t.ctx.scrhi = k.p[1] ∧ (idle →
              t.ctx.cmds.map (·.outcome) = u.map (·.outcome) ++ some (0, 0) :: v.map (·.outcome))) ∧
            (idle → (∀ c ∈ s.others, c.ctxid ≠ s.ctx.ctxid) → lo ≤ s.ctx.scratchSize → s.ctx.scratchSize ≤ hi → s.ctx.scrhi.toNat ≤ hi →
              ∃ t, exec (.commandStart u.length) s = .next t ∧ OnlyContext s t ∧ t.ctx.cmds = ends (0, 0) ∧ t.ctx.blocks = s.ctx.blocks ∧
                (∀ off < 2 ^ 20 * hi, memGet t.ctx.scratch off = memGet s.ctx.scratch off) ∧ ∀ c ∈ t.ctx.scratch, c.1 < 2 ^ 20 * hi)) ∧
          (¬ (lo ≤ hi ∧ hi ≤ s.ctx.descHi ∧ lo ≤ s.ctx.descLo) → ∃ d, exec (.commandStart u.length) s = .next { s with ctx.cmds := ends (3, d) }))) ∧
      (∀ (e : Cmd) (p : Place), k.op = .zmap e → s.ctx.movable k = true → k.p[0].toNat % 4096 = 0 → k.p[1].toNat = 4096 → k.tile = 0 →
        k.out = [] → k.met6 = false → k.clamps = 0 → k.miss = [] →
        s.locate ({ s := s, c := k } : Job).who k.p[0].toNat .store = .ok (.mem p) → p.zmap = true → s.zflagErr.Pairwise (· < ·) →
        ∃ t, exec (.transferTile ⟨u.length, 0⟩) s = .next t ∧ tileOf p.key ∈ t.zflags ∧
          (∀ a, tileOf a = tileOf p.key → t.homeByte a = (0, false)) ∧ BytesBut (fun b => tileOf b = tileOf p.key ∨ s.BitmapByte b) s t ∧
          t.ctx.cmds.map (·.outcome) = u.map (·.outcome) ++ some (0, 0) :: v.map (·.outcome))) ∧
    (∀ (n l : Nat) (k : EngCmd), s.ctx.cmds[n]? = some k → k.wants l = true → k.lowest s.ctx l = true → s.ctx.serves n k = true → k.prog.length = 16 → k.closed = false →
      (inHatchOp k.op = true → (s.ctx.lane k.hatchIx l).length < 32 →
        (∀ ch j, ({ s := s, c := k } : Job).fillChunk l = (ch, j) → ∃ t, exec (.hatchFill n l) s = .next t ∧
          t.ctx.lane k.hatchIx l = j.s.ctx.lane k.hatchIx l ++ [ch] ∧ t.mem = j.s.mem ∧ t.pois = j.s.pois) ∧
        (k.outcome.isSome = true → ∃ t k', exec (.hatchFill n l) s = .next t ∧ OnlyContext s t ∧
          t.ctx.lane k.hatchIx l = s.ctx.lane k.hatchIx l ++ [{ data := 0, psn := BitVec.allOnes 64, res := 0, info := 0, bad := 0 }] ∧
          t.ctx.cmds[n]? = some k' ∧ k'.progress l = k.progress l + 1 ∧ k'.outcome = k.outcome)) ∧
      (drainOp k.op = true → ∀ ch rest, s.ctx.lane k.hatchIx l = ch :: rest → ∃ t k', exec (.hatchDrainTake n l) s = .next t ∧ OnlyContext s t ∧
        t.ctx.lane k.hatchIx l = rest ∧ (∀ h l', l' < 16 → (h, l') ≠ (k.hatchIx, l) → t.ctx.lane h l' = s.ctx.lane h l') ∧
        t.ctx.cmds[n]? = some k' ∧ k'.progress l = k.progress l + 1 ∧ t.ctx.regs = s.ctx.regs ∧
        (k.outcome = none → k'.held = k.held ++ [(l, k.progress l, ch)]))) ∧
    (∀ n : Fin 16, s.ctx.drainedAway = false → s.ctx.streams[n].bind = .bound →
      let q := s.ctx.streams[n]
      (q.write = false → q.buf.length < q.room → q.next < q.total → q.buf.all StreamElem.good = true →
        ∀ bs, s.engineRead (s.streamWho q) (q.addr q.next) q.width = .ok bs → anyPoison bs = false →
          exec (.streamFetch n) s = .next ((s.engineTouch (s.streamWho q) (q.addr q.next) q.width).setStream n
            { q with next := q.next + 1, buf := q.buf ++ [.value (BitVec.ofNat 64 (numOf bs))] })) ∧
      (q.write = true → q.dead = false → ∀ w r, q.buf = .value w :: r →
        (∀ u, s.engineWrite (s.streamWho q) (q.addr q.next) ((leBytes q.width w.toNat).map (fun b => (b, false))) = .ok u →
          exec (.streamStore n) s = .next (u.setStream n { q with next := q.next + 1, buf := r })) ∧
        (∀ x va, s.engineWrite (s.streamWho q) (q.addr q.next) ((leBytes q.width w.toNat).map (fun b => (b, false))) = .error (x, va) →
          exec (.streamStore n) s = .next (s.setStream n
            { q with dead := true, stuck := some (x.cause, q.addr q.next), next := q.next + 1, buf := r }))))

/-- R355: only a line reset creates or destroys tokens. -/
def Obligations.TokensConserved : Prop :=
  ∀ s : State, s.TokensOrdered → ∀ (a line n : Nat) (i : Instr),
    i ∈ [.gets a line, .getx a line, .tok n, .wb a line, .pact a line n, .pdeact n, .zclr a line, .transientRetry n, .persistentEscalation n,
      .backInvalidateAnswer line, .backInvalidateTimeout line] →
    ∃ t, exec i s = .next t ∧ t.TokensOrdered ∧ (∀ x, t.tokenSum x = s.tokenSum x) ∧
      (t.ctx :: t.others).map (fun c => { c with cmds := [] }) = (s.ctx :: s.others).map (fun c => { c with cmds := [] }) ∧
      ((i ≠ .gets a line ∨ (s.lineAt line).isSome = true ∨ s.writeBacks = []) → BytesBut s.BitmapByte s t ∧ t.zflags = s.zflags)

/-- R358 to R364: the token protocol’s messages. -/
def Obligations.CoherenceEventsAct : Prop :=
  ∀ s : State, s.TokensOrdered → ∀ (a line n : Nat) (l : Line),
    let asks (i : Instr) (wr : Bool) : Prop := s.lineAt line = some l → l.die < 6 → agentOk s.variant a = true → l.satisfied a wr = false →
      (∀ t ∈ s.treqs, t.agent = a → t.line ≠ line) →
      let rs := s.treqs ++ [{ agent := a, line := line, write := wr, sent := 1 }]
      (((s.table l.die).winner line).isSome = true → l.holders = [] → exec i s = .next { s with treqs := rs }) ∧
      ((s.table l.die).winner line = none → l.quiet = true → ∃ t, exec i s = .next t ∧ t = { s with treqs := rs, lines := t.lines, msgs := t.msgs } ∧
        ((t.msgs = s.msgs ∧ t.lines = s.lines) ∨
          (t.msgs = s.msgs ++ [{ line := line, dest := some a, tokens := 128, owner := true, data := true, dirty := false }] ∧
            ∃ l', t.lineAt line = some l' ∧ l'.homeTokens = 0 ∧ l'.away = true)))
    let newHolder (t : State) (x b n : Nat) : Prop := ∃ l', t.lineAt x = some l' ∧ (l'.holder b).tokens = n
    asks (.gets a line) false ∧ asks (.getx a line) true ∧
    (∀ m, s.pmsgs[n]? = some m → m.act = true →
      (m.table = none → s.lineAt m.line = some l → let d := Fin.ofNat 6 l.die
        let q := s.pseq[d]
        exec (.pact m.agent m.line n) s = .next
          { s with pseq := s.pseq.set d (q + 1), pmsgs := s.pmsgs.eraseIdx n ++ s.toTables m q,
                   claims := s.claims.map (fun c => if c.agent = m.agent then { c with seq := some q } else c) }) ∧
      (∀ d, m.table = some d → let d := Fin.ofNat 6 d
        let b := s.ptables[d]
        (b.early.contains (m.agent, m.seq) = true → exec (.pact m.agent m.line n) s = .next
          { s with pmsgs := s.pmsgs.eraseIdx n, ptables := s.ptables.set d { b with early := b.early.erase (m.agent, m.seq) } }) ∧
        (b.early.contains (m.agent, m.seq) = false → ∃ t, exec (.pact m.agent m.line n) s = .next t ∧ t.ptables = s.ptables.set d
          { b with active := { agent := m.agent, line := m.line, write := m.write, seq := m.seq } :: b.active.filter (fun r => r.agent != m.agent) }))) ∧
    (∀ m, s.pmsgs[n]? = some m → m.act = false →
      (∀ q, m.table = none → (s.claims.find? (fun c => c.agent == m.agent)).bind (fun c => c.seq) = some q → exec (.pdeact n) s = .next
        { s with claims := s.claims.filter (fun c => c.agent != m.agent), pmsgs := s.pmsgs.eraseIdx n ++ s.toTables m q }) ∧
      (∀ d, m.table = some d → let d := Fin.ofNat 6 d
        let b := s.ptables[d]
        let mine (r : PersistentReq) : Bool := r.agent == m.agent && r.seq == m.seq
        (b.active.any mine = true → ∃ t, exec (.pdeact n) s = .next t ∧
          t.ptables = s.ptables.set d { b with active := b.active.filter (fun r => !(mine r)) }) ∧
        (b.active.any mine = false → exec (.pdeact n) s = .next
          { s with pmsgs := s.pmsgs.eraseIdx n, ptables := s.ptables.set d { b with early := b.early ++ [(m.agent, m.seq)] } }))) ∧
    (∀ m, s.msgs[n]? = some m → (∀ d, (s.table d).winner m.line = none) → s.lineAt m.line = some l →
      ∃ t, exec (.tok n) s = .next t ∧ t.msgs = s.msgs.eraseIdx n ∧
        (∀ b, m.dest = some b → b ≠ homeAgent l.die → newHolder t m.line b ((l.holder b).tokens + m.tokens)) ∧
        (m.dest = none ∨ m.dest = some (homeAgent l.die) → ∃ l', t.lineAt m.line = some l' ∧ l'.homeTokens = l.homeTokens + m.tokens)) ∧
    ((cacheOfAgent a).bind (fun k => s.swLine k line) = none → s.lineAt line = some l → 0 < (l.holder a).tokens → s.keepsForClear l a = false →
      let h := l.holder a
      ∃ t, exec (.wb a line) s = .next t ∧ newHolder t line a 0 ∧
        t.msgs = s.msgs ++ [{ line := line, dest := none, tokens := h.tokens, owner := h.owner, data := h.owner || h.valid,
                              dirty := h.owner && h.dirty }]) ∧
    (∀ k x, cacheOfAgent a = some k → s.swLine k line = some x → ∃ t, exec (.wb a line) s = .next t ∧ t.swLine k line = none ∧
      t.writeBacks = s.writeBacks ++ (if x.dirty = 0 then [] else
        [{ line := line, key := x.key, data := x.data, poi := x.poi, mask := x.dirty, owner := none, src := some k, serves := x.serves,
           fenced := [] }])) ∧
    (∀ r, s.treqs[n]? = some r →
      (4 ≤ r.sent → exec (.transientRetry n) s = .next s) ∧
      (r.sent < 4 → s.lineAt r.line = some l → l.die < 6 → ((s.table l.die).winner r.line).isSome = true → l.holders = [] →
        exec (.transientRetry n) s = .next { s with treqs := s.treqs.set n { r with sent := r.sent + 1 } }) ∧
      (r.sent = 4 → (∀ c ∈ s.claims, c.agent ≠ r.agent) → (∀ m ∈ s.pmsgs, m.agent ≠ r.agent) →
        (∀ b ∈ s.ptables.toList, ∀ x ∈ b.active, x.agent ≠ r.agent) → exec (.persistentEscalation n) s = .next
          { s with claims := s.claims ++ [{ agent := r.agent, line := r.line, write := r.write, seq := none, done := false }],
                   pmsgs := s.pmsgs ++ [{ act := true, agent := r.agent, line := r.line, write := r.write, table := none, seq := 0 }],
                   treqs := s.treqs.filter (fun t => !(t.agent == r.agent && t.line == r.line)) })) ∧
    (∀ x u v, s.snoops = u ++ x :: v → (∀ y ∈ u, y.line ≠ line) → x.line = line → s.lineAt line = some l →
      s.keepsForClear l hostAgent = false → let h := l.holder hostAgent
      ∃ t, exec (.backInvalidateAnswer line) s = .next t ∧ t.snoops = u ++ v ∧ (h.tokens = 0 → t = { s with snoops := u ++ v }) ∧
        (0 < h.tokens → (x.all = true ∨ h.owner = false ∨ h.tokens = 1) → newHolder t line hostAgent 0 ∧
          t.msgs = s.msgs ++ [{ line := line, dest := some x.dest, tokens := h.tokens, owner := h.owner, data := h.owner || h.valid,
                                dirty := h.owner && h.dirty }]) ∧
        (x.all = false → h.owner = true → 1 < h.tokens → newHolder t line hostAgent (h.tokens - 1) ∧
          t.msgs = s.msgs ++ [{ line := line, dest := some x.dest, tokens := 1, owner := false, data := true, dirty := false }]))

/-- R367, R369, R188, R217, R363, R320, R403: events at the homes, and errors. That an error under a set zero-map flag is not seen follows from R190, by which the home does not read HBM4 there (log entry 65). -/
def Obligations.MemoryEventsAct : Prop :=
  ∀ (s : State) (a tile line n : Nat),
    (tile ∈ s.zflags → (∃ l ∈ s.lines, l.cls.coherent = true ∧ tileOf l.key = tile ∧ l.satisfied a true = true) → (a, tile) ∉ s.zclrs →
      exec (.zclr a tile) s = .next (State.clearAsked { s with zclrs := s.zclrs ++ [(a, tile)] } tile)) ∧
    (∀ b, s.zclrs[n]? = some (b, tile) → (∀ z ∈ s.zclrs.take n, z.2 ≠ tile) →
      ∃ t, exec (.zack n) s = .next t ∧ t.zclrs = s.zclrs.eraseIdx n ∧
        (tile ∉ s.zflags → t.zflags = s.zflags ∧ BytesBut s.BitmapByte s t) ∧
        (tile ∈ s.zflags → s.zflags.Pairwise (· < ·) →
          (∀ x, x ∈ t.zflags ↔ x ∈ s.zflags ∧ x ≠ tile) ∧ BytesBut s.BitmapByte s t)) ∧
    (∀ l, s.lineAt line = some l → s.TokensOrdered → s.msgs = [] → s.pmsgs = [] → s.zclrs = [] → (∀ wb ∈ s.writeBacks, wb.src = none) → (∀ d, (s.table d).winner line = none) →
      (∀ i < 128, tileOf (l.key + i) ∉ s.zflags) → ∃ t p, exec (.lineReset line) s = .next t ∧ s.place (128 * line) = some p ∧
        t.lineAt line = some (Line.atHome p) ∧ (Line.atHome p).homeTokens = 128 ∧ t.msgs = [] ∧ (∀ x, x ≠ line → t.findLine x = s.findLine x) ∧
        (∀ i < 128, t.homeByte (l.key + i) = ((s.homeByte (l.key + i)).1, true)) ∧ BytesBut (fun k => l.key ≤ k ∧ k < l.key + 128) s t) ∧
    (∀ wb, s.MemoryCanonical → s.writeBacks[n]? = some wb → (∀ x ∈ s.writeBacks.take n, x.before s.variant wb = false) → s.Unmapped ((List.range 128).map (wb.key + ·)) →
      (∀ i < 128, ¬ s.BitmapByte (wb.key + i)) →
      ∃ t, exec (.swWriteBackMerge n) s = .next t ∧ t.writeBacks = s.writeBacks.eraseIdx n ∧
        (∀ i < 128, t.homeByte (wb.key + i) = if wb.mask.getLsbD i then (wb.byte i, wb.poi.getLsbD i) else s.homeByte (wb.key + i)) ∧
        BytesBut (fun k => (wb.key ≤ k ∧ k < wb.key + 128) ∨ s.BitmapByte k) s t) ∧
    ((∃ x ∈ s.snoops, x.line = line) → s.mgmt.fatal = false → ∃ t, exec (.backInvalidateTimeout line) s = .next t ∧ t.mgmt.fatal = true ∧
      t.mgmt.errlog.getLast? = some (.fatal .backInvalidate)) ∧
    (∃ t, exec (.uncorrectableError (.sector a)) s = .next t ∧ BytesBut (fun k => k / 32 = a / 32) s t ∧ t.ctx = s.ctx ∧
      (tileOf a ∉ s.zflags → ∀ k, k / 32 = a / 32 → t.homeByte k = ((s.homeByte k).1, true)) ∧
      (tileOf a ∈ s.zflags → tileOf a ∉ s.zflagErr → ∀ k, k / 32 = a / 32 → t.homeByte k = (0, false))) ∧
    (s.ctx.live = true → ∃ t, exec (.uncorrectableError .sequencer) s = .next t ∧ t.ctx.status = .ending .aborted ∧ t.mem = s.mem ∧
      t.mgmt.errlog.getLast? = some .uncorrectable) ∧
    (s.mgmt.fatal = false → ∃ t, exec (.uncorrectableError .controller) s = .next t ∧ t.mgmt.fatal = true ∧ t.mem = s.mem ∧ t.ctx = s.ctx)

/-- R307, R308, R310 to R312, R178, R324, R336: the scheduler’s steps. Which instance it picks, and when, is not fixed (log entry 13). Which
kind of request it makes is the model’s choice (log entries 13, 34). -/
def Obligations.SchedulingActs : Prop :=
  ∀ s : State,
    (∀ (p : Pipeline) (g : Stage) (i : Inst) (lnum stage inst : Nat) (arrays : List Nat), s.pipelineOf lnum = some p → p.stages[stage]? = some g →
      p.insts.find? (fun x => x.stage == stage && x.slot == inst && x.state == .fresh) = some i → p.closing = false → arrays.length = g.ctxs →
      s.fits g arrays = true → s.topPriority i = true →
      ∃ t q, exec (.dispatch lnum stage inst arrays) s = .next t ∧ t.pipelineOf lnum = some q ∧ q.dispatched = true ∧
        (∀ j ∈ q.insts, j.stage = stage → j.slot = inst → j.state = .running ∧ j.prio = p.prio) ∧
        (g.scrLo = 0 → g.scrHi = 0 → q.closing = false ∧ t.mem = s.performBegun.mem) ∧
        (q.closing = false → ∀ r < g.ctxs, ∃ c ∈ t.ctx :: t.others, c.status = .running ∧ c.lnum = lnum ∧ c.stage = stage ∧ c.inst = inst ∧ c.rank = r ∧
          c.array = arrays[r]? ∧ c.pc = g.entry ∧ c.level = p.level ∧ c.reg 1 = BitVec.ofNat 64 r ∧ c.reg 2 = BitVec.ofNat 64 g.ctxs ∧
          c.asid = BitVec.ofNat 64 p.asid ∧ c.tvec = s.mgmt.tvecdef ∧ c.scratchSize ≤ g.scrLo ∧
          c.chainlat = chainlatOf (chainArrays g.chain r arrays))) ∧
    (∀ (lnum stage inst : Nat) (p : Pipeline), s.pipelineOf lnum = some p → ∃ t q, exec (.agingInterval lnum stage inst) s = .next t ∧
      t = { s with pipelines := t.pipelines } ∧ t.pipelineOf lnum = some q ∧ q.insts = p.insts.map (fun i =>
        if i.stage = stage ∧ i.slot = inst ∧ (i.state = .fresh ∨ i.state = .drained) then { i with prio := min 31 (i.prio + 1) } else i)) ∧
    (∀ (lnum : Nat) (p : Pipeline) (g : Stage), s.pipelineOf lnum = some p → p.closing = false → p.stages = [g] →
      ∃ t q, exec (.rebalanceInterval lnum) s = .next t ∧ t = { s with pipelines := t.pipelines } ∧ t.pipelineOf lnum = some q ∧
        (g.queue ≠ [] → p.room g.out0 = true → p.room g.out1 = true → (p.instsOf 0).length < g.maxInst →
          (q.instsOf 0).length = (p.instsOf 0).length + 1) ∧
        (g.queue = [] → q = p)) ∧
    ((s.pipelineOf s.ctx.lnum).isSome = true → s.ctx.status = .running →
      (s.wdogCycles s.ctx ≤ s.ctx.timer → ∃ t, exec .watchdogExpiry s = .next t ∧ t.ctx.status = .ending .watchdog ∧ t.mem = s.mem) ∧
      (s.ctx.timer < s.wdogCycles s.ctx → exec .watchdogExpiry s = .next s)) ∧
    (∀ (lnum : Nat) (p : Pipeline), s.pipelineOf lnum = some p → p.closing = true → p.results = [] → p.aborters = [] → s.writeBacks = [] → s.mgmt.fatal = false →
      (∀ c ∈ s.contexts, c.lnum = lnum → c.gone = true) →
      ∀ u, s.deviceWrite p.asid p.compl (cleanBytes (completionBytes p.phase p.status 0 p.nzcnt p.exitOr)) = .ok u →
        ∃ t, exec (.pipelineEnd lnum) s = .next t ∧ t.pipelineOf lnum = none ∧ t.mem = u.mem ∧ t.mgmt.msix = u.mgmt.msix ++ [2] ∧
          ∀ c ∈ t.contexts, c.lnum ≠ lnum) ∧
    (∀ (p : Pipeline) (die : Nat) (grow : Bool), let b := s.performBegun
      b.ctx.status ≠ .absent → b.ctx.array.isSome = true → b.ctx.die = die →
      b.pipelineOf b.ctx.lnum = some p → ∃ t, exec (.scratchSample die [(b.ctx.ctxid.toNat, grow)]) s = .next t ∧
        (grow = true → (b.ctx.scrhi.toNat ≤ b.ctx.scratchSize ∨ b.freeBlocks die = []) → t = b) ∧
        (grow = true → b.ctx.scratchSize < b.ctx.scrhi.toNat → b.freeBlocks die ≠ [] →
          (∀ off < 2 ^ 20 * b.ctx.scratchSize, memGet t.ctx.scratch off = memGet b.ctx.scratch off) ∧
          ((t.ctx.scratchSize = b.ctx.scratchSize + 1 ∧ ∃ x ∈ b.freeBlocks die, t.ctx.blocks = b.ctx.blocks ++ [x]) ∨
            ∃ q, t.pipelineOf b.ctx.lnum = some q ∧ q.closing = true)) ∧
        (grow = false → b.ctx.scratchSize ≤ b.ctx.scrlo.toNat → t = b) ∧
        (grow = false → b.ctx.scrlo.toNat < b.ctx.scratchSize → t.ctx.scratchSize = b.ctx.scratchSize - 1 ∧
          ∀ off < 2 ^ 20 * (b.ctx.scratchSize - 1), memGet t.ctx.scratch off = memGet b.ctx.scratch off)) ∧
    (s.ctx.status = .halted → ∃ t, exec (.managementControllerRestart s.ctx.ctxid.toNat) s = .next t ∧
      t.ctx = { s.ctx with status := .running, timer := 0 }) ∧
    (∀ (id : Nat) (c : Context), s.contextOf id = some c → c.status = .running → c.active = true → c.request = none →
      let asked (k : RequestKind) : Prop := exec (.preemptionRequest id) s = .next { s with
        ctx := if s.ctx.lnum = c.lnum ∧ s.ctx.stage = c.stage ∧ s.ctx.inst = c.inst ∧ s.ctx.rank / c.chainLen = c.rank / c.chainLen then
            (if k.strength ≤ requestStrength s.ctx.request then s.ctx else { s.ctx with request := some k }) else s.ctx,
        others := s.others.map (fun m => if m.lnum = c.lnum ∧ m.stage = c.stage ∧ m.inst = c.inst ∧ m.rank / c.chainLen = c.rank / c.chainLen then
            (if k.strength ≤ requestStrength m.request then m else { m with request := some k }) else m) }
      ((s.outranked c = true ∨ s.mayShed c = true) → asked .drain) ∧
      ((s.readyRival c).isSome = true → s.outranked c = false → s.mayShed c = false → asked .switch) ∧
      (s.readyRival c = none → s.outranked c = false → s.mayShed c = false → exec (.preemptionRequest id) s = .next s)) ∧
    (s.ctx.status = .running → s.ctx.awaitsLanding = true → s.ctx.half = none → s.ctx.pend = [] → s.ctx.faggs = [] → s.ctx.dripFlights = [] →
      (s.ctx.cqAllFilled = true → s.ctx.liveReports = [] → s.ctx.liveFaults = [] →
        exec .landing s = .next { s with ctx.status := .landed, ctx.yielded := false }) ∧ (s.ctx.cqAllFilled = false → exec .landing s = .next s))

/-- R325, R326, R331. That a landed chain with no rival goes on at once is the model’s choice (log entry 34), and so is the list of the commands
that a drain waits for (log entry 48). -/
def Obligations.SwitchDrainResumeAct : Prop :=
  ∀ s : State,
    ((s.ctx.status ≠ .landed ∨ s.ctx.request ≠ some .switch ∨ s.chainLanded s.ctx = false) → exec .contextSwitch s = .next s) ∧
    (s.ctx.status = .landed → s.ctx.request = some .switch → s.chainLanded s.ctx = true →
      let goesOn (x : Context) : Context := if s.ctx.sameChain x then
        { x with status := if x.status = .landed then .running else x.status, request := none, yielded := false } else x
      ∃ t, exec .contextSwitch s = .next t ∧ t.mem = s.mem ∧ t.pois = s.pois ∧ t.pipelines = s.pipelines ∧
        (t.ctx :: t.others).map (fun x => { x with active := false }) = (s.ctx :: s.others).map (fun x => { goesOn x with active := false }) ∧
        (∀ (m : Context) (i : Nat) (x y : Context), s.readyRival s.ctx = some m → (s.ctx :: s.others)[i]? = some x → (t.ctx :: t.others)[i]? = some y →
          (m.sameChain x = true → x.array.isSome = true → y.active = true) ∧ (s.ctx.sameChain x = true → y.active = false)) ∧
        (s.readyRival s.ctx = none → ∀ (i : Nat) (x y : Context), (s.ctx :: s.others)[i]? = some x → (t.ctx :: t.others)[i]? = some y →
          s.ctx.sameChain x = true → y.active = x.array.isSome)) ∧
    (let ms := s.chainOf s.ctx;
      ((s.ctx.status ≠ .landed ∨ s.ctx.request = some .switch ∨ s.chainLanded s.ctx = false ∨
        ms.any (fun m => m.inFlight.any (fun k => waitedOp k.op)) = true) → exec .drain s = .next s) ∧
      (∀ (p : Pipeline) (g : Stage), s.pipelineOf s.ctx.lnum = some p → s.stageOf s.ctx = some g → s.ctx.status = .landed →
        s.ctx.request ≠ some .switch → s.chainLanded s.ctx = true → ms.any (fun m => m.inFlight.any (fun k => waitedOp k.op)) = false →
        (s.contexts.map (·.ctxid)).Nodup →
        let sv := s.performBegun.saveMembers p g (parkArea ms) ((parkAsid ms).getD p.asid) ms
        (sv.2 = none → ∃ t q, exec .drain s = .next t ∧ t.mem = sv.1.mem ∧ t.pois = sv.1.pois ∧ t.pipelineOf s.ctx.lnum = some q ∧
          (∀ j ∈ q.insts, j.stage = s.ctx.stage → j.slot = s.ctx.inst → j.prio = p.prio) ∧
          (∀ m ∈ ms, ∃ x ∈ t.contexts, x.ctxid = m.ctxid ∧ x.array = none ∧ x.active = false ∧ x.request = none ∧ x.cells = [] ∧ x.lastArray = m.array ∧
            (m.status = .landed → parkArea ms = none → x.status = .ready ∧ x.saved = some (p.areaOf m.stage m.inst m.rank)) ∧
            (m.status = .landed → ∀ area, parkArea ms = some area → x.status = .parked ∧
              x.saved = some (area + m.rank % m.chainLen * s.areaLen m)))) ∧
        (∀ va, sv.2 = some va → exec .drain s = .next
          (if (parkArea ms).isSome ∧ s.slotsReached p ms = true then s.failPark s.ctx ms va else sv.1.deviceFault p.lnum va)))) ∧
    (∀ (p : Pipeline) (g : Stage) (i : Inst) (stage inst : Nat) (arrays : List Nat), s.pipelineOf s.ctx.lnum = some p → p.stages[stage]? = some g →
      p.insts.find? (fun x => x.stage == stage && x.slot == inst) = some i → let cs := s.drained s.ctx.lnum stage inst
      ((p.closing = true ∨ cs = [] ∨ arrays.length ≠ cs.length ∨ s.fits g arrays = false ∨ s.topPriority i = false) →
        exec (.resumption s.ctx.lnum stage inst arrays) s = .next s) ∧
      (∀ a im, arrays = [a] → cs = [s.ctx] → p.closing = false → s.fits g [a] = true → s.topPriority i = true → s.imageOf s.ctx = .ok im →
        im.seqStruck = false → s.ctx.status = .ready → s.ctx.rank % s.ctx.chainLen = 0 → s.ctx.blocks = [] →
        (∀ m ∈ s.others, s.ctx.sameChain m = false ∧ m.ctxid ≠ s.ctx.ctxid ∧ m.array ≠ some a) →
        (im.creg 0x358 0x006 s.ctx.scrlo).toNat ≤ (s.freeBlocks (dieOfArray a)).length →
        (∀ c ∈ s.ctx :: s.others, c.half = none ∧ ∀ k ∈ c.cmds, k.out = []) →
        (∃ w, (s.loadMember g s.ctx im a (chainArrays g.chain 0 [a])).engineWrite (deviceWho s.ctx.savedAsid) (s.ctx.saved.getD 0 + 7) [(2, false)] = .ok w) →
        ∃ t, exec (.resumption s.ctx.lnum stage inst [a]) s = .next t ∧ t.ctx.array = some a ∧ t.ctx.status = .running ∧ t.ctx.active = true ∧
          t.ctx.pc = im.num 0x1C0 8 % 2 ^ 56 ∧ t.ctx.loops = readLoops im ∧ t.ctx.saved = none ∧
          (∀ r : Fin 48, r ≠ 0 → t.ctx.regs[r] = im.word (0x40 + 8 * r.val)) ∧ t.ctx.cells = readCells im g.foot ∧
          t.ctx.scratchSize = (im.creg 0x358 0x006 s.ctx.scrlo).toNat))

/-- R395, R211, R398, R204, R300, R301. Host memory’s bytes and MODNUM at power-on are the model’s choices (log entries 10, 12);
so are when XLATCH completes (log entry 46) and when READY is set after a reset (log entry 66). -/
def Obligations.HostAndResetsAct : Prop :=
  ∀ s : State,
    let clears (t : State) : Prop := t.ctx.status = .absent ∧ t.others = [] ∧ t.pipelines = [] ∧ t.groups = [] ∧ t.lines = [] ∧ t.msgs = [] ∧
      (∀ d, (t.table d).active = [] ∧ (t.table d).early = []) ∧ t.claims = [] ∧ t.pmsgs = [] ∧ t.posted = [] ∧ t.zflags = [] ∧ t.tlb = [] ∧ t.mgmt.latched.rgn = Vector.replicate 64 0 ∧ t.mgmt.fatal = false ∧
      (∀ k < 2 ^ 40, t.homeByte k = (0, false)) ∧
      ∀ k, 2 ^ 40 ≤ k → memGet t.mem k = memGet s.mem k
    (∃ t, exec .powerOnReset s = .next t ∧ clears t ∧ t.power = true ∧ t.mgmt.ready = false ∧ t.mgmt.mcpart = 8 ∧ t.mgmt.pwrbud = 3400) ∧
    (∃ t, exec .conventionalReset s = .next t ∧ clears t ∧ t.mgmt.ready = false ∧ t.mgmt.modnum = s.mgmt.modnum ∧ t.mgmt.mcpart = s.mgmt.mcpart ∧
      t.mgmt.mcpartNow = s.mgmt.mcpart ∧ t.mgmt.pwrbud = s.mgmt.pwrbud ∧ exec .functionLevelReset s = .next t) ∧
    (∃ t, exec .powerOff s = .next t ∧ clears t ∧ t.power = false) ∧
    (s.mgmt.ready = true → ∀ v : Nat, (∃ t, exec (.mgmtRegisterWrite 0x1000 v) s = .next t ∧
        (v < 2 ^ 52 → v / 2 ^ 5 % 2 ^ 7 = 0 → 16 ≤ v % 2 ^ 5 → v % 2 ^ 5 ≤ 24 → t = { s with mgmt.regs.xhatb := BitVec.ofNat 64 v }) ∧
        ((v % 2 ^ 5 < 16 ∨ 24 < v % 2 ^ 5 ∨ 2 ^ 52 ≤ v) → t.mgmt.regs = s.mgmt.regs ∧ t.mgmt.errlog.getLast? = some (.badWrite 0x1000))) ∧
      (∀ i : Fin 64, exec (.mgmtRegisterWrite (0x2000 + 16 * i.val) v) s =
        .next { s with mgmt.regs.rgn := s.mgmt.regs.rgn.set i (BitVec.ofNat 128 v) }) ∧ exec (.mgmtRegisterWrite 0x3800 v) s = .next s) ∧
    (s.mgmt.ready = true → ∀ v : Word, (200 ≤ v.toNat → v.toNat ≤ 3400 → exec (.pwrbudWrite v) s = .next { s with mgmt.pwrbud := v }) ∧
      ((v.toNat < 200 ∨ 3400 < v.toNat) → ∃ t, exec (.pwrbudWrite v) s = .next t ∧ t.mgmt.pwrbud = s.mgmt.pwrbud ∧
        t.mgmt.errlog.getLast? = some (.badWrite 0x28))) ∧
    (s.inputs = [] → s.devFaults = [] → s.mgmt.fatal = false → s.mgmt.ready = false → s.power = true → ∃ t, step s = .next t ∧ t.mgmt = { s.mgmt with ready := true }) ∧
    (s.mgmt.ready = true → exec (.xlatchWrite 1) s = .next { s with mgmt.xlatch := 1 }) ∧
    (s.mgmt.xlatch ≠ 0 → ∀ off len v : Nat, let b := s.performBegun
      ∃ t, exec (.hostMemAccess .xlatchDone off len v) s = .next t ∧ t.mgmt.xlatch = 0 ∧ t.tlb = [] ∧ t.mgmt.latched.xhatb = b.mgmt.regs.xhatb ∧
      t.mgmt.latched.xastb = b.mgmt.regs.xastb ∧ t.mgmt.latched.xiptb = b.mgmt.regs.xiptb ∧ t.mgmt.latched.xdbmb = b.mgmt.regs.xdbmb ∧
      t.mgmt.regs = b.mgmt.regs ∧ t.mem = b.mem ∧ t.ctx = b.ctx ∧ t.others = b.others ∧
      t.mgmt.measured[3] = b.mgmt.measured[3] ++ [.config b.kycap b.mgmt.mcpart b.mgmt.regs.rgn]) ∧
    (∀ off len v : Nat, ∃ t, exec (.hostMemAccess .register off len v) s = .next t ∧ t = { s with hostData := t.hostData } ∧
      (off = 0 → t.hostData = s.hostData ++ [(2 ^ 52, s.kycap.toNat, 0)]) ∧ (off = 8 → t.hostData = s.hostData ++ [(2 ^ 52 + 8, s.mgmt.devstat, 0)]) ∧
      (8 < off → s.mgmt.ready = false → t.hostData = s.hostData ++ [(2 ^ 52 + off, 0, 0)]) ∧
      (s.mgmt.ready = true → (off = 0x20 → t.hostData = s.hostData ++ [(2 ^ 52 + 0x20, s.mgmt.xlatch.toNat, 0)]) ∧ (off = 0x18 → t.hostData = s.hostData ++ [(2 ^ 52 + 0x18, s.mgmt.mcpart.toNat, 0)]) ∧
        (∀ q : Fin 64, off = 0x3800 + 4 * q.val → t.hostData = s.hostData ++ [(2 ^ 52 + off, s.mgmt.queues[q].lnum.toNat, 0)]) ∧
        (off = 0x38 → t.hostData = s.hostData ++ [(2 ^ 52 + 0x38, 0, 0)]))) ∧
    (∀ (pa v n : Nat) (p : Place), pa + 1 ≤ 2 ^ 49 → s.place pa = some p → s.posted = [] →
      (s.MemoryCanonical → s.Unmapped [p.key] → ∃ t, exec (.hostMemAccess .write pa 1 v) s = .next t ∧
        t.homeByte p.key = (BitVec.ofNat 8 v, false) ∧
        ((∀ wb ∈ s.writeBacks, wb.key ≠ lineOf p.key) → BytesBut (fun k => k = p.key ∨ s.BitmapByte k) s t)) ∧
      (s.mgmt.dark = false → ¬ s.BitmapByte p.key → ∃ t, exec (.hostMemAccess .read pa 1 v) s = .next t ∧ BytesBut s.BitmapByte s t ∧
        t.hostData = s.hostData ++ [(pa, (s.homeByte p.key).1.toNat, (s.homeByte p.key).2.toNat)]) ∧
      exec (.hostMemAccess .post pa 1 v) s = .next { s with posted := [{ pa := pa, bytes := leBytes 1 v, performed := false }] } ∧
      exec (.hostMemAccess (.perform n) pa 1 v) s = .next s) ∧
    (∀ (q : Fin 64) (d : QueueDesc), let x := s.mgmt.queues[q]
      x.desc = some d →
      (∀ bs, s.physRead d.taila 4 = some bs → anyPoison bs = false → let tail := BitVec.ofNat 32 (numOf bs)
        (tail = x.seen → exec (.sqTailUpdate q) s = .next (s.physTouch d.taila 4)) ∧
        (tail ≠ x.seen → (tail - x.head).toNat ≤ 2 ^ d.logn → exec (.sqTailUpdate q) s =
          .next ((s.physTouch d.taila 4).setQueue q { x with tail := tail, seen := tail, waiting := false })) ∧
        (tail ≠ x.seen → 2 ^ d.logn < (tail - x.head).toNat → ∃ t, exec (.sqTailUpdate q) s = .next t ∧
          t.mgmt.queues[q] = { x with seen := tail } ∧ t.mgmt.errlog.getLast? = some (.tailOverrun q.val))) ∧
      (s.mgmt.fatal = false → s.mgmt.nextQueue = some q.val → s.phaseMatches x d = true → let r := s.physTouch (x.record d).1 1
        ∀ bs, r.physRead (x.record d).1 256 = some bs →
        (∀ n u, (r.physTouch (x.record d).1 256).tryLaunch bs = (.ok n, u) → ∃ t, exec (.submissionRecord q) s = .next t ∧ t.pipelines = u.pipelines ∧
          t.mgmt.queues[q].lnum = BitVec.ofNat 32 n ∧ t.mgmt.queues[q].head = u.mgmt.queues[q].head + 1) ∧
        (∀ u, (r.physTouch (x.record d).1 256).tryLaunch bs = (.error .bad, u) → ∃ t, exec (.submissionRecord q) s = .next t ∧
          t.pipelines = u.pipelines ∧ t.mgmt.queues[q].head = u.mgmt.queues[q].head + 1)) ∧
      (x.ready = true → s.phaseMatches x d = false → ∃ t, exec (.submissionNotReady q) s = .next t ∧
        t.mgmt.queues[q] = { x with waiting := true } ∧ t.mgmt.errlog.getLast? = some (.notReady q.val x.head.toNat)))

/-- R402, R397, R403, R401. The request codes are the family’s (log entry 8). -/
def Obligations.PowerLinksMeasurementAct : Prop :=
  ∀ s : State,
    let b := s.mgmt.pwrbud.toNat
    let answers (i : Instr) (code nonce : Nat) : Prop :=
      exec i s = .next { s with mgmt.doe := s.mgmt.doe ++ [{ request := code, nonce := nonce, log := s.mgmt.measured }] }
    (∀ q : List Nat, q.length = s.variant.computeDies → s.mgmt.compute = true → (∀ h ∈ s.mgmt.hot, h = false) →
      ∃ t, exec (.powerArbiterPeriod (q.map some)) s = .next t ∧ (q.sum ≤ b → t.mgmt.grants = q) ∧
        (b < q.sum → t.mgmt.grants.sum = b ∧ t.mgmt.grants.length = q.length ∧ ∃ lam, (q.map (min lam)).sum ≤ b ∧ b < (q.map (min (lam + 1))).sum ∧
          ∀ (i x g : Nat), q[i]? = some x → t.mgmt.grants[i]? = some g → min x lam ≤ g ∧ g ≤ min x (lam + 1))) ∧
    (∀ die temp : Nat, die < s.variant.computeDies →
      (105 ≤ temp → ∃ t, exec (.thermalThrottle die temp) s = .next t ∧ t.mgmt.throt = true ∧ t.mgmt.hot[die]? = some true ∧
        (115 ≤ temp → t.mgmt.compute = false ∧ t.mgmt.fatal = true) ∧ (temp < 115 → t.mgmt.compute = s.mgmt.compute ∧ t.mgmt.fatal = s.mgmt.fatal)) ∧
      (temp < 100 → (∀ i, i ≠ die → s.mgmt.hot.getD i false = false) →
        ∃ t, exec (.thermalThrottle die temp) s = .next t ∧ t.mgmt.throt = false ∧ t.mgmt.hot[die]? = some false) ∧
      (s.mgmt.fatal = false → ∃ t, exec (.thermalTrip die) s = .next t ∧ t.mgmt.compute = false ∧ t.mgmt.fatal = true ∧
        t.mgmt.errlog.getLast? = some (.fatal .thermalTrip))) ∧
    (∀ n : Fin 18, s.hasUnit (.link n.val) = true → ∃ t, exec (.linkReplayFailure (.kyorad n)) s = .next t ∧ t.mgmt.links[n].getLsbD 0 = false ∧
      t.mgmt.errlog.getLast? = some (.linkDown (some n))) ∧
    (∀ x y : Fin 6, s.linked x.val y.val = true → let r : State := { s with mgmt.dieLinks := (x.val, y.val) :: s.mgmt.dieLinks }
      ∃ t, exec (.linkReplayFailure (.die x y)) s = .next t ∧ t.mgmt.dieLinks = r.mgmt.dieLinks ∧ t.modulesLeft x.val y.val + 1 = s.modulesLeft x.val y.val ∧
        (r.connected = true → t.mgmt.fatal = s.mgmt.fatal) ∧ (r.connected = false → t.mgmt.fatal = true)) ∧
    (∀ k : FatalKind, (s.mgmt.fatal = false → ∃ t, exec (.fatalError k) s = .next t ∧ t.mgmt.fatal = true ∧ t.mgmt.errlog.getLast? = some (.fatal k) ∧
        t.mgmt.msix = s.mgmt.msix ++ [0] ∧ t.ctx = s.ctx ∧ t.mem = s.mem) ∧ (s.mgmt.fatal = true → exec (.fatalError k) s = .next s)) ∧
    (answers .getVersion 0x84 0 ∧ answers .getCapabilities 0xE1 0 ∧ answers .negotiateAlgorithms 0xE3 0 ∧ answers .getCertificate 0x82 0 ∧
        (∀ nonce, answers (.challenge nonce) 0x83 nonce) ∧ answers .getMeasurements 0xE0 0)

/-- R378, R372, R374, R379. -/
def Obligations.ReductionsAct : Prop :=
  ∀ (s : State) (n : Nat) (g : Group), s.groups[n]? = some g → (∀ c ∈ s.ctx :: s.others, c.drainedAway = false) →
    let ended (t : State) (d : GroupDecl) (x : GroupSlot) : Prop := ∀ c ∈ t.ctx :: t.others, c.ctxid.toNat = d.ctx →
      c.groups[Fin.ofNat 4 d.slot] = x ∧ ∀ k ∈ c.cmds, k.seq = d.cmd → k.outcome.isSome = true
    (∀ d ds, g.decls = d :: ds → g.formed = false →
      (g.conflict = false → g.decls.length = d.n → ∃ t, exec (.groupFormation n) s = .next t ∧ t.mem = s.mem ∧
        t.groups[n]? = some { g with formed := true } ∧ ∀ x ∈ g.decls, ended t x (.bound g.key)) ∧
      (g.conflict = true → ∃ t, exec (.groupFormation n) s = .next t ∧ t.mem = s.mem ∧ (∀ x ∈ t.groups, ¬ (x.asid = g.asid ∧ x.key = g.key)) ∧
        ∀ x ∈ g.decls, ended t x .free)) ∧
    (∀ d ds r lv node nodes k children, g.decls = d :: ds → g.run = some r → s.groupCmd g d = some k → r.levels[lv + 1]? = some nodes →
      nodes[node]? = some none → (((r.levels.getD lv []).drop (d.f * node)).take d.f).mapM id = some children →
      let present (l : List Stripe) (num off : Nat) : Prop := ∃ x ∈ l, x.num = num ∧ ∃ v ∈ x.vals, v.1 = off
      ∃ t g' r' st, exec (.stripeMerge n (lv + 1) node) s = .next t ∧ t.groups[n]? = some g' ∧ g'.run = some r' ∧
        ((r'.levels.getD (lv + 1) [])[node]?) = some (some st) ∧ t.mem = s.mem ∧ t.ctx = s.ctx ∧
        (∀ num off, present st num off ↔ ∃ c ∈ children, present c num off) ∧
        (∀ num off (x y : BitVec 32), d.fmt = 0x03 → children =
          [[{ num := num, dense := false, vals := [(off, x, false)] }], [{ num := num, dense := false, vals := [(off, y, false)] }]] →
          st.map (·.vals) = [[(off, BitVec.ofInt 32 (max (-(2 ^ 31)) (min (2 ^ 31 - 1) (x.toInt + y.toInt))), false)]])) ∧
    (∀ d k ops, g.formed = true → g.released = [] → s.operation g = some ((d, k) :: ops) →
      ((∀ x ∈ ops, x.2.signature = k.signature) → isBcst k.op = false → g.run = none → ∃ t g' r, exec (.collectiveOperation n) s = .next t ∧
        t.groups[n]? = some g' ∧ g'.done = g.done ∧ g'.run = some r ∧ (r.levels.getD 0 []).length = ops.length + 1 ∧
        (∀ x ∈ r.levels.getD 0 [], x.isSome = true) ∧ (s.posted = [] → BytesBut s.BitmapByte s t)) ∧
      ((∃ x ∈ ops, x.2.signature ≠ k.signature) → g.run.bind (·.ends) = none → ∃ t, exec (.collectiveOperation n) s = .next t ∧
        t.groups[n]? = some { g with done := g.done + 1, run := none } ∧ t.mem = s.mem) ∧
      ((g.run.bind (·.ends)).isSome = true → (∀ x ∈ (d, k) :: ops, x.2.out = []) → ∃ t, exec (.collectiveOperation n) s = .next t ∧
        t.groups[n]? = some { g with done := g.done + 1, run := none } ∧ t.mem = s.mem))

/-- R9, R10, R13, R28 to R30. Which agent moves next is the model’s choice (log entry 13). -/
def Obligations.StepRunsDecodedInstruction : Prop :=
  (∀ s : State, s.inputs = [] → s.power = true → s.mgmt.fatal = false → s.mgmt.ready = true → s.ctx.status = .running → s.ctx.active = true →
    s.ctx.array.isSome = true → s.onTurn.Undisturbed → let u := ({ s.onTurn with ctx.inWaitq := false } : State).fetchReady
    ∀ (h : Nat) (ws : List Nat) (b : Bundle), (u.src.cur = h :: ws ∨ (u.src.cur = [] ∧ u.src.pc % 4 = 0 ∧ u.src.pc < 2 ^ 56 ∧
    u.fetchWord u.src u.src.pc = .ok h ∧ u.fetchWords u.src (u.src.pc + 4) (bundleLen h / 4 - 1) = .ok ws)) →
    (u.src.rep = 0 → u.checkFetchAhead (h :: ws) = .go) → decodeBundle h ws = .ok b →
    let v := if u.src.rep = 0 then u.touchAhead (h :: ws) else u
    v.queueHeld b = false → v.checkBundle b = .go → v.bundleHeld b = false →
      let w := v.touchData b
      let a : State := { w with ahead := w.headers (h :: ws) }
      let rest (x : State) : State := (({ x.advance b (h :: ws) with ahead := [] } : State).afterBundle b).settleEnd
      step s = .next ((w.issue b (h :: ws)).share s.free).tick ∧
      (∀ (i : Instr) (x : State), b.ops = [i] → b.rep = 0 → a.src.rep = 0 → a.src.sticky.w0 = none → a.src.sticky.w1 = none →
        a.src.sticky.m = none → actsAfter i = false →
        ((i.slot = some .s ∨ i.slot = some .b ∨ i.slot = some .e) → exec i a = .next x →
          w.issue b (h :: ws) = rest (x.waveStart (a.src.waveWord b))) ∧
        ((i.slot = some .w0 ∨ i.slot = some .w1 ∨ i.slot = some .m) → exec i (a.waveStart (a.src.waveWord b)) = .next x →
          w.issue b (h :: ws) = rest x) ∧
        (i.slot = some .header → exec i a = .next x → w.issue b (h :: ws) = rest x))) ∧
  (∀ (s t : State) (e : Instr) (r : List Input), s.inputs = .event e :: r → s.power = true → e.slot = none →
    (s.mgmt.fatal = true → endedByFatal e = false) →
    exec e { s with inputs := r, src := s.ctx } = .next t → step s = .next t.tick) ∧
  (∀ s : State, s.inputs = [] → s.power = false → step s = .fault .noPower)

/-- R31 to R36, R39: words of the opcode maps. -/
def Obligations.WordsDecode : Prop :=
  decodeSlot .s 0xAC508143 = .ok (.ld (.s 5) (.s 2) 20 3) ∧ decodeSlot .s 0xCC110500 = .ok (.msel 1 (.s 4) (.s 5)) ∧
    decodeSlot .b 0x083FFFEE = .ok (.brT (-18)) ∧ decodeSlot .b 0x4000C00F = .ok (.loop 3 15) ∧ decodeSlot .b 0xA8000000 = .ok .rft ∧
    decodeSlot .b 0xB0000000 = .ok .ctxsw ∧ decodeSlot .b 0xB8000000 = .ok .halt ∧
    decodeSlot .w0 0x04432120 = .ok (.vadd { d := 2, a := 3, b := 4, typ := 9, var := 0 }) ∧
    decodeSlot .e 0x3008418000000000 = .ok (.tkjoin { kp := 1, kc0 := 2, kc1 := 3, kc2 := 0, te := false, p0 := .s 0, p1 := .s 0,
                                                         p2 := .s 0, p3 := .s 0, efn := 0 }) ∧
    decodeSlot .s 0 = .ok .nop ∧ decodeSlot .b 0 = .ok .nopB ∧ decodeSlot .w0 0 = .ok .vnop ∧ decodeSlot .w1 0 = .ok .wnop ∧
    decodeSlot .m 0 = .ok .mnop ∧ decodeSlot .s 0xFC000000 = .error .op ∧ decodeSlot .s 1 = .error .nop ∧ decodeSlot .e 0 = .error .op

/-- R398, R399, R395. That host memory reads zero, and MODNUM, are the model’s choices (log entries 10, 12). -/
def Obligations.ResetState : Prop :=
  let s := State.reset
  s.power = true ∧ s.ctx.status = .absent ∧ s.others = [] ∧ s.pipelines = [] ∧ s.groups = [] ∧ s.msgs = [] ∧ s.treqs = [] ∧
    (∀ d, (s.table d).active = [] ∧ (s.table d).early = []) ∧ s.claims = [] ∧ s.pmsgs = [] ∧ s.posted = [] ∧ s.lines = [] ∧
    s.tlb = [] ∧ s.swLines = [] ∧ s.zflags = [] ∧ (∀ p, s.lineRec p = Line.atHome p) ∧
    (∀ line, s.tokenSum line = if (s.place (128 * line)).any (fun p => p.cls.coherent) then 128 else 0) ∧
    (∀ k, s.homeByte k = (0, false)) ∧ s.mgmt.latched.regions = [] ∧ s.mgmt.devstat = 0 ∧ s.mgmt.mcpart = 8 ∧ s.mgmt.pwrbud = 3400 ∧
    s.mgmt.tvecdef = 0 ∧ s.MemoryCanonical ∧ s.TokensOrdered

/-- R28, R31 to R39: the encodings and their decoder agree. -/
def Obligations.DecodeOfEncode : Prop :=
  ∀ (k : Slot) (i : Instr), i.slot = some k → i.wellFormed = true → encode i < 2 ^ (8 * k.bytes) ∧ decodeSlot k (encode i) = .ok i

/-- The invariant of memory, whose bytes R3, R196 and R398 describe. -/
def Obligations.StepKeepsMemoryCanonical : Prop :=
  ∀ s t : State, s.MemoryCanonical → step s = .next t → t.MemoryCanonical
end

