-- ==== Sys2Proof/Laws/Memory.lean ====
section
/-! SUPPORT. The list of bytes: a read after a write, and the canonical form, which every operation on memory keeps. -/

namespace Sys2Proof.Machine

open Host (Cell)

/-! ### Reading and writing one byte -/

theorem memWfFrom_mono {lo hi : Nat} (h : lo ≤ hi) : ∀ {m : List Cell}, memWfFrom hi m = true → memWfFrom lo m = true
  | [], _ => rfl
  | (k, v) :: r, w => by
    simp only [memWfFrom, Bool.and_eq_true, decide_eq_true_eq] at w ⊢
    exact ⟨⟨by omega, w.1.2⟩, w.2⟩

theorem memGet_of_lt {a : Nat} : ∀ {lo : Nat} {m : List Cell}, memWfFrom lo m = true → a < lo → memGet m a = 0
  | _, [], _, _ => rfl
  | lo, (k, v) :: r, w, h => by
    simp only [memWfFrom, Bool.and_eq_true, decide_eq_true_eq] at w
    rw [memGet, if_neg (by omega)]
    exact memGet_of_lt w.2 (by omega)

theorem memGet_memSet_self (a : Nat) (v : Byte) : ∀ {lo : Nat} {m : List Cell}, memWfFrom lo m = true → memGet (memSet m a v) a = v
  | _, [], _ => by
    unfold memSet
    split <;> simp_all [memGet]
  | lo, (k, w) :: r, h => by
    simp only [memWfFrom, Bool.and_eq_true, decide_eq_true_eq] at h
    unfold memSet
    split
    · split
      · rename_i hk hv
        rw [memGet, if_neg (by omega), memGet_of_lt h.2 (by omega), hv]
      · simp [memGet]
    · split
      · split
        · rename_i hk hv
          rw [memGet_of_lt h.2 (by omega), hv]
        · simp [memGet]
      · rename_i h1 h2
        rw [memGet, if_neg (by omega), memGet_memSet_self a v h.2]

theorem memGet_memSet_ne {a b : Nat} (h : b ≠ a) (v : Byte) : ∀ m : List Cell, memGet (memSet m a v) b = memGet m b
  | [] => by
    unfold memSet
    split <;> simp [memGet, Ne.symm h]
  | (k, w) :: r => by
    unfold memSet
    split
    · split <;> simp [memGet, Ne.symm h]
    · split
      · rename_i e
        subst e
        split <;> simp [memGet, Ne.symm h]
      · simp only [memGet, memGet_memSet_ne h v r]

theorem memSet_wfFrom (a : Nat) (v : Byte) : ∀ {lo : Nat} {m : List Cell}, lo ≤ a → memWfFrom lo m = true → memWfFrom lo (memSet m a v) = true
  | lo, [], h, _ => by
    unfold memSet
    split <;> simp_all [memWfFrom]
  | lo, (k, w) :: r, h, hw => by
    have hw' := hw
    simp only [memWfFrom, Bool.and_eq_true, decide_eq_true_eq] at hw
    unfold memSet
    split
    · split
      · exact hw'
      · simp_all [memWfFrom]
    · split
      · split
        · exact memWfFrom_mono (by omega) hw.2
        · simp_all [memWfFrom]
      · simp only [memWfFrom, Bool.and_eq_true, decide_eq_true_eq]
        exact ⟨hw.1, memSet_wfFrom a v (by omega) hw.2⟩

/-- A write keeps the canonical form. -/
theorem memSet_wf {m : List Cell} (a : Nat) (v : Byte) (h : Memory.wf m = true) : Memory.wf (memSet m a v) = true :=
  memSet_wfFrom a v (Nat.zero_le a) h

/-- So does dropping bytes. -/
theorem filter_wfFrom (p : Cell → Bool) : ∀ {lo : Nat} {m : List Cell}, memWfFrom lo m = true → memWfFrom lo (m.filter p) = true
  | _, [], _ => rfl
  | lo, (k, w) :: r, h => by
    simp only [memWfFrom, Bool.and_eq_true, decide_eq_true_eq] at h
    rw [List.filter_cons]
    split
    · simp only [memWfFrom, Bool.and_eq_true, decide_eq_true_eq]
      exact ⟨h.1, filter_wfFrom p h.2⟩
    · exact filter_wfFrom p (memWfFrom_mono (by omega) h.2)

theorem filter_wf {m : List Cell} (p : Cell → Bool) (h : Memory.wf m = true) : Memory.wf (m.filter p) = true := filter_wfFrom p h

/-- In the canonical form, memories that read alike are one. -/
theorem mem_ext : ∀ {lo : Nat} {m n : List Cell}, memWfFrom lo m = true → memWfFrom lo n = true → (∀ a, memGet m a = memGet n a) → m = n
  | _, [], [], _, _, _ => rfl
  | lo, [], (k, v) :: r, _, hn, h => by
    simp only [memWfFrom, Bool.and_eq_true, decide_eq_true_eq, bne_iff_ne] at hn
    have := h k
    simp only [memGet, if_true] at this
    exact absurd this.symm hn.1.2
  | lo, (k, v) :: r, [], hm, _, h => by
    simp only [memWfFrom, Bool.and_eq_true, decide_eq_true_eq, bne_iff_ne] at hm
    have := h k
    simp only [memGet, if_true] at this
    exact absurd this hm.1.2
  | lo, (k, v) :: r, (l, w) :: q, hm, hn, h => by
    simp only [memWfFrom, Bool.and_eq_true, decide_eq_true_eq, bne_iff_ne] at hm hn
    have hk := h k
    have hl := h l
    simp only [memGet, if_true] at hk hl
    have e : k = l := by
      by_contra ne
      rcases Nat.lt_or_gt_of_ne ne with lt | lt
      · rw [if_neg (Ne.symm ne), memGet_of_lt hn.2 (by omega)] at hk
        exact hm.1.2 hk
      · rw [if_neg ne, memGet_of_lt hm.2 (by omega)] at hl
        exact hn.1.2 hl.symm
    subst e
    rw [if_pos rfl] at hk
    subst hk
    congr 1
    refine mem_ext hm.2 hn.2 (fun a => ?_)
    have ha := h a
    simp only [memGet] at ha
    by_cases hak : k = a
    · subst hak
      rw [memGet_of_lt hm.2 (by omega), memGet_of_lt hn.2 (by omega)]
    · rwa [if_neg hak, if_neg hak] at ha

/-! ### Lists of poisoned places -/

theorem mem_setAdd (a b : Nat) : ∀ l : List Nat, b ∈ setAdd l a ↔ b = a ∨ b ∈ l
  | [] => by simp [setAdd]
  | k :: r => by
    unfold setAdd
    split
    · simp
    · split
      · rename_i e
        subst e
        simp
      · simp only [List.mem_cons, mem_setAdd a b r]
        tauto

theorem mem_setDel_ne {a b : Nat} (h : b ≠ a) : ∀ l : List Nat, b ∈ setDel l a ↔ b ∈ l
  | [] => by simp [setDel]
  | k :: r => by
    unfold setDel
    split
    · rename_i e
      subst e
      simp [h]
    · simp only [List.mem_cons, mem_setDel_ne h r]

theorem mem_setPut_ne {a b : Nat} (h : b ≠ a) (l : List Nat) (p : Bool) : b ∈ setPut l a p ↔ b ∈ l := by
  unfold setPut
  split
  · simp [mem_setAdd, h]
  · exact mem_setDel_ne h l

/-! ### Lists that strictly rise -/

theorem setAdd_pairwise (a : Nat) : ∀ {l : List Nat}, l.Pairwise (· < ·) → (setAdd l a).Pairwise (· < ·)
  | [], _ => by simp [setAdd]
  | k :: r, h => by
    unfold setAdd
    split
    · refine List.Pairwise.cons (fun x hx => ?_) h
      rcases List.mem_cons.mp hx with rfl | hx
      · assumption
      · exact Nat.lt_trans ‹_› (List.rel_of_pairwise_cons h hx)
    · split
      · exact h
      · refine List.Pairwise.cons (fun x hx => ?_) (setAdd_pairwise a h.of_cons)
        rcases (mem_setAdd a x r).mp hx with rfl | hx
        · omega
        · exact List.rel_of_pairwise_cons h hx

theorem setDel_sublist (a : Nat) : ∀ l : List Nat, (setDel l a).Sublist l
  | [] => List.Sublist.slnil
  | k :: r => by
    unfold setDel
    split
    · exact List.sublist_cons_self k r
    · exact (setDel_sublist a r).cons_cons k

theorem setDel_pairwise (a : Nat) {l : List Nat} (h : l.Pairwise (· < ·)) : (setDel l a).Pairwise (· < ·) := h.sublist (setDel_sublist a l)

theorem setPut_pairwise (a : Nat) (p : Bool) {l : List Nat} (h : l.Pairwise (· < ·)) : (setPut l a p).Pairwise (· < ·) := by
  unfold setPut
  split
  · exact setAdd_pairwise a h
  · exact setDel_pairwise a h

/-! ### What one write does to the bytes that a home holds -/

@[simp] theorem State.zeroMapped_putByte (s : State) (k : Nat) (b : Byte) (p : Bool) (t : Nat) : (s.putByte k b p).zeroMapped t = s.zeroMapped t := rfl
@[simp] theorem State.flagStruck_putByte (s : State) (k : Nat) (b : Byte) (p : Bool) (t : Nat) : (s.putByte k b p).flagStruck t = s.flagStruck t := rfl

/-- A byte written where no zero-map flag stands, set or struck, reads as it was written. -/
theorem State.homeByte_putByte_self {s : State} (hw : Memory.wf s.mem = true) (k : Nat) (b : Byte) (p : Bool)
    (hz : tileOf k ∉ s.zflags) (he : tileOf k ∉ s.zflagErr) (hp : p = false → s.pois.Pairwise (· < ·)) :
    (s.putByte k b p).homeByte k = (b, p) := by
  have hmem : (setPut s.pois k p).contains k = p := by
    cases p with
    | true => simp [setPut, mem_setAdd]
    | false =>
      have : ∀ l : List Nat, l.Pairwise (· < ·) → k ∉ setDel l k := by
        intro l
        induction l with
        | nil => simp [setDel]
        | cons x r ih =>
          intro h
          unfold setDel
          split
          · rename_i e
            subst e
            exact fun hm => Nat.lt_irrefl _ (List.rel_of_pairwise_cons h hm)
          · simpa [List.mem_cons, *] using ih h.of_cons
      simpa [setPut] using this s.pois (hp rfl)
  unfold State.homeByte
  rw [if_neg (by simpa [State.putByte] using hz), State.flagStruck_putByte]
  have hs : s.zflagErr.contains (tileOf k) = false := by simpa using he
  rw [State.flagStruck, hs, Bool.false_and, Bool.false_or]
  exact Prod.ext (memGet_memSet_self k b hw) hmem

/-- Every other byte reads as it did. -/
theorem State.homeByte_putByte_ne {s : State} {k j : Nat} (h : j ≠ k) (b : Byte) (p : Bool) : (s.putByte k b p).homeByte j = s.homeByte j := by
  have : (setPut s.pois k p).contains j = s.pois.contains j := by simp [mem_setPut_ne h]
  simp only [State.homeByte, State.flagStruck_putByte]
  simp only [State.putByte, memGet_memSet_ne h, this]

/-- Recording a write in a dirty bitmap changes that bitmap's byte only. -/
theorem State.homeByte_setDirty_ne {s : State} {k j : Nat} (h : s.bitmapKey k ≠ some j) : (s.setDirty k).homeByte j = s.homeByte j := by
  unfold State.bitmapKey at h
  unfold State.setDirty
  split
  · rfl
  · rename_i hk
    rw [if_neg hk] at h
    dsimp only
    split
    · rfl
    · rename_i p hp
      exact State.homeByte_putByte_ne (fun e => h (by rw [hp, e]; rfl)) _ _

/-! ### Every operation keeps memory canonical

An operation that leaves both lists as they are keeps them canonical as they stand. -/

theorem canonical_foldl {α : Type} (f : State → α → State) (hf : ∀ s a, s.MemoryCanonical → (f s a).MemoryCanonical) :
    ∀ (l : List α) {s : State}, s.MemoryCanonical → (l.foldl f s).MemoryCanonical
  | [], _, h => h
  | a :: l, s, h => canonical_foldl f hf l (hf s a h)

theorem State.putByte_canonical {s : State} (k : Nat) (b : Byte) (p : Bool) (h : s.MemoryCanonical) : (s.putByte k b p).MemoryCanonical :=
  ⟨memSet_wf k b h.1, setPut_pairwise k p h.2⟩

theorem State.putBytes_canonical : ∀ {s : State} (k : Nat) (bs : List Byte), s.MemoryCanonical → (s.putBytes k bs).MemoryCanonical
  | _, _, [], h => h
  | _, k, b :: r, h => State.putBytes_canonical (k + 1) r (State.putByte_canonical k b false h)

theorem State.zeroKeys_canonical {s : State} (k n : Nat) (h : s.MemoryCanonical) : (s.zeroKeys k n).MemoryCanonical :=
  ⟨filter_wf _ h.1, h.2.sublist (List.filter_sublist)⟩

theorem State.setDirty_canonical {s : State} (k : Nat) (h : s.MemoryCanonical) : (s.setDirty k).MemoryCanonical := by
  unfold State.setDirty
  split
  · exact h
  · dsimp only
    split
    · exact h
    · exact State.putByte_canonical _ _ _ h

theorem State.zeroTile_canonical {s : State} (t : Nat) (h : s.MemoryCanonical) : (s.zeroTile t).MemoryCanonical := by
  have z := State.zeroKeys_canonical (4096 * t) 4096 h
  refine State.setDirty_canonical _ ⟨?_, ?_⟩
  · exact z.1
  · exact z.2

theorem State.dropFlag_canonical {s : State} (t : Nat) (h : s.MemoryCanonical) : (s.dropFlag t).MemoryCanonical := by
  unfold State.dropFlag
  split
  · exact State.zeroTile_canonical (s := { s with zflags := _ }) _ h
  · exact h

theorem State.clearFlag_canonical {s : State} (k : Nat) (h : s.MemoryCanonical) : (s.clearFlag k).MemoryCanonical :=
  State.dropFlag_canonical (tileOf k) h

theorem State.writeBlock_canonical {s : State} (n k : Nat) (h : s.MemoryCanonical) : (s.writeBlock n k).MemoryCanonical :=
  State.setDirty_canonical (s := { s with codes := _ }) k h

/-! ### The memory-side cache -/

theorem State.homeEvict_canonical {s : State} (l : Line) (h : s.MemoryCanonical) : (s.homeEvict l).MemoryCanonical := by
  unfold State.homeEvict
  split
  · exact h
  · split
    · exact h
    · split
      · exact State.writeBlock_canonical l.line l.key h
      · exact h

theorem State.packFit_canonical (need : Nat) : ∀ (fuel : Nat) {s : State} (ls : List Line), s.MemoryCanonical →
    (s.packFit need ls fuel).MemoryCanonical
  | 0, _, _, h => h
  | fuel + 1, s, ls, h => by
    unfold State.packFit
    split
    · exact h
    · split
      · exact h
      · exact State.packFit_canonical need fuel _ (State.homeEvict_canonical _ h)

theorem State.escalate_canonical {s : State} (a line : Nat) (w : Bool) (h : s.MemoryCanonical) : (s.escalate a line w).MemoryCanonical := by
  unfold State.escalate
  split <;> exact h

theorem State.makeRoom_canonical {s : State} (l : Line) (h : s.MemoryCanonical) : (s.makeRoom l).MemoryCanonical := by
  unfold State.makeRoom
  dsimp only
  split
  · split
    · exact h
    · exact State.packFit_canonical _ _ _ h
  · split
    · exact h
    · split
      · exact h
      · split
        · exact State.homeEvict_canonical _ h
        · split
          · exact h
          · exact State.escalate_canonical _ _ _ h

theorem State.setTagged_canonical {s : State} (l : Line) (h : s.MemoryCanonical) : (s.setTagged l).MemoryCanonical := by
  unfold State.setTagged
  split
  · exact State.makeRoom_canonical l h
  · exact h

theorem State.sendClean_canonical {s : State} (l : Line) (h : s.MemoryCanonical) : (s.sendClean l).1.MemoryCanonical := by
  unfold State.sendClean
  split
  · exact State.writeBlock_canonical _ _ h
  · exact h

/-! ### Tokens on their way -/

theorem State.fatalError_canonical {s : State} (k : FatalKind) (h : s.MemoryCanonical) : (s.fatalError k).MemoryCanonical := by
  unfold State.fatalError
  split
  · exact h
  · exact ⟨h.1, h.2⟩

theorem State.send_canonical {s : State} (m : TokMsg) (h : s.MemoryCanonical) : (s.send m).MemoryCanonical := by
  unfold State.send
  split <;> exact h

theorem State.release_canonical {s : State} (l : Line) (a : Nat) (d : Option Nat) (h : s.MemoryCanonical) : (s.release l a d).MemoryCanonical :=
  State.send_canonical (s := s.setLine _) _ h

theorem State.sendOne_canonical {s : State} (a : Nat) (l : Line) (h : s.MemoryCanonical) : (s.sendOne a l).MemoryCanonical :=
  State.send_canonical _ (State.setTagged_canonical _ h)

theorem State.askHost_canonical {s : State} (x : Snoop) (h : s.MemoryCanonical) : (s.askHost x).MemoryCanonical := by
  unfold State.askHost
  split <;> exact h

theorem State.sendAll_canonical {s : State} (l : Line) (a : Nat) (d : Option Nat) (h : s.MemoryCanonical) : (s.sendAll l a d).MemoryCanonical := by
  unfold State.sendAll
  split
  · exact h
  · split
    · exact State.askHost_canonical _ h
    · exact State.release_canonical _ _ _ h

theorem State.surrender_canonical {s : State} (line a : Nat) (d : Option Nat) (h : s.MemoryCanonical) :
    (s.surrender line a d).MemoryCanonical := by
  unfold State.surrender
  split
  · exact h
  · exact State.sendAll_canonical _ _ _ h

theorem State.sendHome_canonical {s : State} (line a : Nat) (h : s.MemoryCanonical) : (s.sendHome line a).MemoryCanonical := by
  unfold State.sendHome
  split
  · exact h
  · split
    · exact h
    · exact State.send_canonical _ (State.setTagged_canonical _ (State.sendClean_canonical _ h))

theorem State.yieldFrom_canonical {s : State} (line d : Nat) (h : s.MemoryCanonical) : (s.yieldFrom line d).MemoryCanonical := by
  unfold State.yieldFrom
  split
  · rename_i l w _ _
    have t := canonical_foldl (fun s a => s.surrender line a (some w.agent)) (fun _ _ ht => State.surrender_canonical _ _ _ ht)
      ((l.holders.map (·.agent)).filter (fun a => a != w.agent && tableDie s.variant a == d)) h
    dsimp only
    split
    · exact State.sendHome_canonical _ _ t
    · exact t
  · exact h

theorem State.yieldTokens_canonical {s : State} (line : Nat) (h : s.MemoryCanonical) : (s.yieldTokens line).MemoryCanonical :=
  canonical_foldl _ (fun _ _ ht => State.yieldFrom_canonical _ _ ht) _ h

theorem State.performClaims_canonical {s : State} (line : Nat) (h : s.MemoryCanonical) : (s.performClaims line).MemoryCanonical := by
  unfold State.performClaims
  split <;> exact h

theorem State.tokensMoved_canonical {s : State} (line : Nat) (h : s.MemoryCanonical) : (s.tokensMoved line).MemoryCanonical := by
  have t := State.performClaims_canonical line (State.yieldTokens_canonical line h)
  unfold State.tokensMoved
  dsimp only
  split <;> exact t

theorem State.activate_canonical {s : State} (m : PMsg) (h : s.MemoryCanonical) : (s.activate m).MemoryCanonical := by
  unfold State.activate
  split
  · split <;> exact h
  · dsimp only
    split
    · exact h
    · exact State.tokensMoved_canonical (s := { s with ptables := _ }) _ h

theorem State.deactivate_canonical {s : State} (m : PMsg) (h : s.MemoryCanonical) : (s.deactivate m).MemoryCanonical := by
  unfold State.deactivate
  split
  · split <;> exact h
  · dsimp only
    split
    · exact State.tokensMoved_canonical (s := { s with ptables := _ }) _ h
    · exact h

theorem State.persistentArrive_canonical {s : State} (n : Nat) (h : s.MemoryCanonical) : (s.persistentArrive n).MemoryCanonical := by
  unfold State.persistentArrive
  split
  · exact h
  · dsimp only
    split
    · exact State.activate_canonical (s := { s with pmsgs := _ }) _ h
    · exact State.deactivate_canonical (s := { s with pmsgs := _ }) _ h

theorem State.tokArrive_canonical {s : State} (n : Nat) (h : s.MemoryCanonical) : (s.tokArrive n).MemoryCanonical := by
  unfold State.tokArrive
  split
  · exact h
  · dsimp only
    split
    · exact h
    · exact State.tokensMoved_canonical _ (State.setTagged_canonical (s := { s with msgs := _ }) _ h)

theorem State.zack_canonical {s : State} (n : Nat) (h : s.MemoryCanonical) : (s.zack n).MemoryCanonical := by
  unfold State.zack
  split
  · exact h
  · dsimp only
    split
    · exact h
    · refine canonical_foldl _ (fun _ _ ht => State.tokensMoved_canonical _ ht) _ ?_
      exact State.dropFlag_canonical (s := { s with zclrs := _ }) _ h

theorem State.serveClears_canonical {s : State} (t : Nat) (h : s.MemoryCanonical) : (s.serveClears t).MemoryCanonical := by
  refine canonical_foldl _ (fun u _ hu => ?_) _ h
  split
  · exact hu
  · exact State.zack_canonical _ hu

theorem State.hostReply_canonical {s : State} (line : Nat) (h : s.MemoryCanonical) : (s.hostReply line).MemoryCanonical := by
  unfold State.hostReply
  split
  · exact State.fatalError_canonical _ h
  · unfold State.backInvalidateAnswer
    split
    · exact h
    · dsimp only
      split
      · exact h
      · split
        · exact h
        · split
          · exact State.sendOne_canonical (s := { s with snoops := _ }) _ _ h
          · exact State.release_canonical (s := { s with snoops := _ }) _ _ _ h

/-! ### The exchange inside an access -/

theorem State.lineEvent_canonical {s t : State} (line tile : Nat) (h : s.MemoryCanonical) (e : s.lineEvent line tile = some t) :
    t.MemoryCanonical := by
  unfold State.lineEvent at e
  split at e
  · cases e
    exact State.tokArrive_canonical _ h
  · split at e
    · cases e
      exact State.persistentArrive_canonical _ h
    · split at e
      · cases e
        exact State.zack_canonical _ h
      · split at e
        · cases e
          exact State.hostReply_canonical _ h
        · cases e

theorem State.runLine_canonical (line tile : Nat) (stop : State → Bool) : ∀ (fuel : Nat) {s : State}, s.MemoryCanonical →
    (s.runLine line tile stop fuel).MemoryCanonical
  | 0, _, h => h
  | fuel + 1, s, h => by
    unfold State.runLine
    split
    · exact h
    · split
      · exact h
      · exact State.runLine_canonical line tile stop fuel (State.lineEvent_canonical _ _ h ‹_›)

theorem State.finishClaim_canonical {s : State} (a : Nat) (h : s.MemoryCanonical) : (s.finishClaim a).MemoryCanonical := by
  unfold State.finishClaim
  split
  · exact h
  · exact State.runLine_canonical _ _ _ _ h

theorem State.exchange_canonical {s : State} (a : Nat) (l : Line) (w : Bool) (h : s.MemoryCanonical) : (s.exchange a l w).MemoryCanonical :=
  State.runLine_canonical _ _ _ _ (State.escalate_canonical _ _ _ (State.finishClaim_canonical _ h))

theorem State.answered_canonical {s : State} (a : Nat) (l : Line) (w : Bool) (h : s.MemoryCanonical) : (s.answered a l w).MemoryCanonical :=
  State.setTagged_canonical _ (State.sendClean_canonical l h)

theorem State.wrote_canonical {s : State} (line : Nat) (h : s.MemoryCanonical) : (s.wrote line).MemoryCanonical := by
  unfold State.wrote
  split
  · exact h
  · dsimp only
    split
    · exact State.tokensMoved_canonical (s := s.setLine _) _ h
    · exact h

theorem State.gatherFor_canonical {s : State} (a : Nat) (p : Place) (w : Bool) (h : s.MemoryCanonical) : (s.gatherFor a p w).MemoryCanonical := by
  have key : ∀ t : State, t.MemoryCanonical → (if (t.lineRec p).satisfied a w = true then t else
      if t.answersAtOnce a (t.lineRec p) w = true then t.answered a (t.lineRec p) w
      else t.exchange a (t.lineRec p) w).MemoryCanonical := fun t ht => by
    split
    · exact ht
    · split
      · exact State.answered_canonical _ _ _ ht
      · exact State.exchange_canonical _ _ _ ht
  unfold State.gatherFor
  split
  · exact h
  · refine key _ ?_
    split
    · exact State.serveClears_canonical _ h
    · exact h

theorem State.acquire_canonical {s : State} (a : Nat) (p : Place) (w : Bool) (h : s.MemoryCanonical) : (s.acquire a p w).MemoryCanonical := by
  unfold State.acquire
  dsimp only
  split
  · exact State.wrote_canonical _ (State.clearFlag_canonical _ (State.gatherFor_canonical a p w h))
  · exact State.gatherFor_canonical a p w h

theorem State.gatherHome_canonical {s : State} (p : Place) (h : s.MemoryCanonical) : (s.gatherHome p).MemoryCanonical := by
  unfold State.gatherHome
  dsimp only
  split
  · exact h
  · exact State.exchange_canonical _ _ _ h

theorem State.homeWrite_canonical {s : State} (p : Place) (h : s.MemoryCanonical) : (s.homeWrite p).MemoryCanonical := by
  unfold State.homeWrite
  split
  · exact h
  · split
    · exact h
    · have t := State.clearFlag_canonical p.key (State.gatherHome_canonical p (State.serveClears_canonical (tileOf p.key) h))
      dsimp only
      split
      · exact State.wrote_canonical _ (State.setTagged_canonical _ t)
      · exact State.setTagged_canonical _ t

theorem State.regrow_canonical {s : State} (p : Place) (h : s.MemoryCanonical) : (s.regrow p).MemoryCanonical := by
  unfold State.regrow
  split
  · exact State.makeRoom_canonical _ h
  · exact h

/-! ### Translation -/

theorem State.touchWalk_canonical {s : State} (md asid va : Nat) (h : s.MemoryCanonical) : (s.touchWalk md asid va).MemoryCanonical := by
  refine canonical_foldl _ (fun t pa ht => ?_) _ h
  split
  · exact ht
  · exact State.acquire_canonical _ _ _ ht

theorem State.tlbFill_canonical {s : State} (md asid va : Nat) (h : s.MemoryCanonical) : (s.tlbFill md asid va).MemoryCanonical := by
  unfold State.tlbFill
  have t := State.touchWalk_canonical md asid va h
  split
  · exact h
  · dsimp only
    split
    · exact t
    · split <;> exact t

theorem State.fillAt_canonical {s : State} (w : Who) (va : Nat) (h : s.MemoryCanonical) : (s.fillAt w va).MemoryCanonical := by
  unfold State.fillAt
  split
  · exact State.tlbFill_canonical _ _ _ h
  · split
    · exact h
    · dsimp only
      split
      · exact h
      · split
        · exact State.tlbFill_canonical _ _ _ h
        · exact h

theorem State.fillPages_canonical {s : State} (w : Who) (va n : Nat) (h : s.MemoryCanonical) : (s.fillPages w va n).MemoryCanonical :=
  State.fillAt_canonical _ _ (State.fillAt_canonical _ _ h)

/-! ### Write-backs and software-managed lines -/

theorem State.mergeBack_canonical {s : State} (wb : WriteBack) (h : s.MemoryCanonical) : (s.mergeBack wb).MemoryCanonical := by
  unfold State.mergeBack
  refine canonical_foldl _ (fun t i ht => ?_) _ (State.homeWrite_canonical _ h)
  split
  · exact State.putByte_canonical _ _ _ ht
  · exact ht

theorem State.mergeWhere_canonical {s : State} (p : WriteBack → Bool) (h : s.MemoryCanonical) : (s.mergeWhere p).MemoryCanonical :=
  canonical_foldl State.mergeBack (fun _ wb ht => State.mergeBack_canonical wb ht) (splitMerge s.variant p s.writeBacks).1 h

theorem State.hostStore_canonical {s : State} (o : Nat) (p : Place) (b : Byte) (m : Bool) (h : s.MemoryCanonical) :
    (s.hostStore o p b m).MemoryCanonical := by
  unfold State.hostStore
  dsimp only
  split
  · exact h
  · split <;> exact h

theorem State.fillSw_canonical {s : State} (k : CacheId) (p : Place) (h : s.MemoryCanonical) : (s.fillSw k p).MemoryCanonical := by
  unfold State.fillSw
  dsimp only
  split <;> exact State.mergeWhere_canonical _ h

theorem State.swReady_canonical {s : State} (c : Context) (p : Place) (w : Bool) (h : s.MemoryCanonical) : (s.swReady c p w).MemoryCanonical := by
  unfold State.swReady
  dsimp only
  split
  · exact State.fillSw_canonical _ _ h
  · split
    · exact State.fillSw_canonical _ _ h
    · exact h

theorem State.swPut_canonical {s : State} (k : CacheId) (p : Place) (b : Byte) (m : Bool) (h : s.MemoryCanonical) : (s.swPut k p b m).MemoryCanonical := by
  unfold State.swPut
  split <;> exact h

/-! ### Writes of the host -/

theorem State.hostPut_canonical {s : State} (p : Place) (b : Byte) (h : s.MemoryCanonical) : (s.hostPut p b).MemoryCanonical := by
  unfold State.hostPut
  split
  · exact State.putByte_canonical _ _ _ (State.mergeWhere_canonical _ h)
  · exact State.putByte_canonical _ _ _ (State.homeWrite_canonical _ h)
  all_goals exact State.putByte_canonical _ _ _ (State.acquire_canonical _ _ _ h)

theorem State.hostPuts_canonical : ∀ {s : State} (pa : Nat) (bs : List Byte), s.MemoryCanonical → (s.hostPuts pa bs).MemoryCanonical
  | _, _, [], h => h
  | s, pa, b :: r, h => by
    unfold State.hostPuts
    refine State.hostPuts_canonical (pa + 1) r ?_
    split
    · exact h
    · exact State.hostPut_canonical _ _ h

theorem State.performPosted_canonical {s : State} (n : Nat) (h : s.MemoryCanonical) : (s.performPosted n).MemoryCanonical := by
  unfold State.performPosted
  split
  · exact h
  · split
    · exact h
    · exact State.hostPuts_canonical _ _ h

theorem State.performUpTo_canonical {s : State} (n : Nat) (h : s.MemoryCanonical) : (s.performUpTo n).MemoryCanonical := by
  refine canonical_foldl _ (fun t e ht => ?_) (s.posted.take n) h
  split
  · exact ht
  · exact State.hostPuts_canonical _ _ ht

theorem State.synchronise_canonical {s : State} (ls : List Loc) (h : s.MemoryCanonical) : (s.synchronise ls).MemoryCanonical := by
  unfold State.synchronise
  split
  · exact h
  · dsimp only
    split
    · exact h
    · exact State.performUpTo_canonical _ h

/-! ### Accesses of sequencers, engines and the device -/

theorem State.backingReady_canonical {s : State} (p : Place) (d : Option Nat) (w : Bool) (h : s.MemoryCanonical) :
    (s.backingReady p d w).MemoryCanonical := by
  unfold State.backingReady
  split
  · split
    · exact State.acquire_canonical _ _ _ h
    · split
      · exact State.homeWrite_canonical _ h
      · exact h
  · split
    · exact State.homeWrite_canonical _ h
    · exact State.gatherHome_canonical _ h

theorem State.prepare_canonical {s : State} (c : Context) (w : Bool) (l : Loc) (h : s.MemoryCanonical) : (s.prepare c w l).MemoryCanonical := by
  unfold State.prepare
  split
  · exact h
  · exact h
  · exact State.backingReady_canonical _ _ _ h
  · split
    · exact State.swReady_canonical _ _ _ h
    · exact h
    all_goals exact State.acquire_canonical _ _ _ h

theorem State.prepareFrom_canonical (c : Context) (w : Bool) : ∀ {s : State} (last : Option Loc) (ls : List Loc), s.MemoryCanonical →
    (s.prepareFrom c w last ls).MemoryCanonical
  | _, _, [], h => h
  | s, last, l :: r, h => by
    unfold State.prepareFrom
    refine State.prepareFrom_canonical c w _ r ?_
    split
    · exact h
    · exact State.prepare_canonical c w l h

theorem State.prepareAll_canonical {s : State} (c : Context) (w : Bool) (ls : List Loc) (h : s.MemoryCanonical) :
    (s.prepareAll c w ls).MemoryCanonical := State.prepareFrom_canonical c w none ls h

theorem State.prepareAtomic_canonical {s : State} (c : Context) (ls : List Loc) (h : s.MemoryCanonical) :
    (s.prepareAtomic c ls).MemoryCanonical := by
  unfold State.prepareAtomic
  split
  · exact State.gatherFor_canonical _ _ _ h
  · split
    · exact State.gatherFor_canonical _ _ _ h
    · exact State.gatherHome_canonical _ h
  all_goals exact h

theorem State.storeByte_canonical {s : State} (c : Context) (b : Byte) (l : Loc) (h : s.MemoryCanonical) : (s.storeByte c b l).MemoryCanonical := by
  unfold State.storeByte
  split
  · exact h
  · exact State.regrow_canonical _ (State.putByte_canonical _ _ _ h)
  · exact h
  · split
    · exact State.swPut_canonical _ _ _ _ h
    · exact State.hostStore_canonical _ _ _ _ h
    all_goals exact State.putByte_canonical _ _ _ h

theorem State.storeBytes_canonical (c : Context) : ∀ {s : State} (ls : List Loc) (bs : List Byte), s.MemoryCanonical →
    (s.storeBytes c ls bs).MemoryCanonical
  | _, [], _, h => by simpa [State.storeBytes] using h
  | _, _ :: _, [], h => by simpa [State.storeBytes] using h
  | _, l :: ls, b :: bs, h => by
    rw [State.storeBytes]
    exact State.storeBytes_canonical c ls bs (State.storeByte_canonical c b l h)

theorem State.engineReady_canonical {s : State} (w : Who) (l : Loc) (h : s.MemoryCanonical) : (s.engineReady w l).MemoryCanonical := by
  unfold State.engineReady
  split
  · exact h
  · exact h
  · exact State.backingReady_canonical _ _ _ h
  · split
    · exact State.acquire_canonical _ _ _ h
    · exact State.gatherHome_canonical _ h

theorem State.engineTouch_canonical {s : State} (w : Who) (va n : Nat) (h : s.MemoryCanonical) : (s.engineTouch w va n).MemoryCanonical := by
  unfold State.engineTouch
  split
  · exact State.fillPages_canonical _ _ _ h
  · exact State.synchronise_canonical _ (State.fillPages_canonical _ _ _ (canonical_foldl _ (fun _ l ht => State.engineReady_canonical w l ht) _ h))

theorem State.enginePut_canonical {s : State} (w : Who) (b : Byte) (p : Bool) (l : Loc) (h : s.MemoryCanonical) :
    (s.enginePut w b p l).MemoryCanonical := by
  cases l with
  | scratch r o => exact h
  | lost n va => exact h
  | backing q d => exact State.regrow_canonical _ (State.putByte_canonical _ _ _ (State.backingReady_canonical _ _ _ h))
  | mem q =>
    unfold State.enginePut
    dsimp only
    split
    · exact State.hostStore_canonical _ _ _ _ h
    · exact State.regrow_canonical _ (State.putByte_canonical _ _ _ (State.homeWrite_canonical _ (State.mergeWhere_canonical _ h)))

theorem State.engineWrite_canonical {s t : State} (w : Who) (va : Nat) (bs : List (Byte × Bool)) (h : s.MemoryCanonical)
    (e : s.engineWrite w va bs = .ok t) : t.MemoryCanonical := by
  unfold State.engineWrite at e
  split at e
  · cases e
  · cases e
    exact State.fillPages_canonical _ _ _ (canonical_foldl _ (fun _ _ ht => State.enginePut_canonical _ _ _ _ ht) _ h)

/-! ### Zero-map tiles and images of contexts -/

theorem State.gatherTile_canonical {s : State} (p : Place) (h : s.MemoryCanonical) : (s.gatherTile p).MemoryCanonical :=
  canonical_foldl _ (fun _ _ ht => State.gatherHome_canonical _ ht) _ h

theorem State.setFlag_canonical {s : State} (p : Place) (h : s.MemoryCanonical) : (s.setFlag p).MemoryCanonical :=
  State.setDirty_canonical (s := { (s.gatherTile p).zeroKeys (4096 * tileOf p.key) 4096 with zflags := _, zflagErr := _ }) _
    (State.zeroKeys_canonical (s := s.gatherTile p) _ _ (State.gatherTile_canonical p h))

theorem State.wipeTile_canonical {s : State} (p : Place) (h : s.MemoryCanonical) : (s.wipeTile p).MemoryCanonical := by
  have r : (s.recallTile p).MemoryCanonical := canonical_foldl _ (fun _ _ ht => State.gatherHome_canonical _ ht) _ h
  exact State.zeroTile_canonical (s := { s.recallTile p with zflags := _, zflagErr := _ }) _ r

theorem State.wipe_canonical (w : Who) : ∀ (n : Nat) {s t : State} (va : Nat), s.MemoryCanonical → s.wipe w va n = .ok t → t.MemoryCanonical
  | 0, _, _, _, h, e => by cases e; exact h
  | n + 1, s, t, va, h, e => by
    unfold State.wipe at e
    split at e
    case h_5 => exact State.wipe_canonical w n _ (State.fillPages_canonical _ _ _ (State.wipeTile_canonical _ h)) e
    all_goals cases e

theorem State.writePieceBytes_canonical (w : Who) (base : Nat) : ∀ (l : List (Nat × Byte × Bool)) {s t : State}, s.MemoryCanonical →
    s.writePieceBytes w base l = .ok t → t.MemoryCanonical
  | [], _, _, h, e => by cases e; exact h
  | (o, b, m) :: r, s, t, h, e => by
    unfold State.writePieceBytes at e
    split at e
    · cases e
    · exact State.writePieceBytes_canonical w base r (State.engineWrite_canonical w _ _ h ‹_›) e

theorem State.writeImage_canonical {s t : State} (w : Who) (base len : Nat) (ps : List Piece) (h : s.MemoryCanonical)
    (e : s.writeImage w base len ps = .ok t) : t.MemoryCanonical := by
  unfold State.writeImage at e
  split at e
  · cases e
  · exact State.writePieceBytes_canonical w base _ (State.wipe_canonical w _ _ h ‹_›) e

end Sys2Proof.Machine
end

