-- ==== Sys2Proof/Laws/State.lean ====
section
/-! SUPPORT. What each small update of the state does to each field: one lemma a field, true by unfolding, so that no proof has to
open a record update. -/

namespace Sys2Proof.Machine

/-! ### `State.setCtx` -/

@[simp] theorem State.setCtx_power (s : State) (c : Context) : (s.setCtx c).power = s.power := rfl
@[simp] theorem State.setCtx_variant (s : State) (c : Context) : (s.setCtx c).variant = s.variant := rfl
@[simp] theorem State.setCtx_ctx (s : State) (c : Context) : (s.setCtx c).ctx = c := rfl
@[simp] theorem State.setCtx_src (s : State) (c : Context) : (s.setCtx c).src = s.src := rfl
@[simp] theorem State.setCtx_wave (s : State) (c : Context) : (s.setCtx c).wave = s.wave := rfl
@[simp] theorem State.setCtx_ahead (s : State) (c : Context) : (s.setCtx c).ahead = s.ahead := rfl
@[simp] theorem State.setCtx_others (s : State) (c : Context) : (s.setCtx c).others = s.others := rfl
@[simp] theorem State.setCtx_pipelines (s : State) (c : Context) : (s.setCtx c).pipelines = s.pipelines := rfl
@[simp] theorem State.setCtx_nextLnum (s : State) (c : Context) : (s.setCtx c).nextLnum = s.nextLnum := rfl
@[simp] theorem State.setCtx_groups (s : State) (c : Context) : (s.setCtx c).groups = s.groups := rfl
@[simp] theorem State.setCtx_mem (s : State) (c : Context) : (s.setCtx c).mem = s.mem := rfl
@[simp] theorem State.setCtx_pois (s : State) (c : Context) : (s.setCtx c).pois = s.pois := rfl
@[simp] theorem State.setCtx_zflags (s : State) (c : Context) : (s.setCtx c).zflags = s.zflags := rfl
@[simp] theorem State.setCtx_zflagErr (s : State) (c : Context) : (s.setCtx c).zflagErr = s.zflagErr := rfl
@[simp] theorem State.setCtx_swLines (s : State) (c : Context) : (s.setCtx c).swLines = s.swLines := rfl
@[simp] theorem State.setCtx_writeBacks (s : State) (c : Context) : (s.setCtx c).writeBacks = s.writeBacks := rfl
@[simp] theorem State.setCtx_lines (s : State) (c : Context) : (s.setCtx c).lines = s.lines := rfl
@[simp] theorem State.setCtx_msgs (s : State) (c : Context) : (s.setCtx c).msgs = s.msgs := rfl
@[simp] theorem State.setCtx_treqs (s : State) (c : Context) : (s.setCtx c).treqs = s.treqs := rfl
@[simp] theorem State.setCtx_claims (s : State) (c : Context) : (s.setCtx c).claims = s.claims := rfl
@[simp] theorem State.setCtx_pmsgs (s : State) (c : Context) : (s.setCtx c).pmsgs = s.pmsgs := rfl
@[simp] theorem State.setCtx_ptables (s : State) (c : Context) : (s.setCtx c).ptables = s.ptables := rfl
@[simp] theorem State.setCtx_pseq (s : State) (c : Context) : (s.setCtx c).pseq = s.pseq := rfl
@[simp] theorem State.setCtx_snoops (s : State) (c : Context) : (s.setCtx c).snoops = s.snoops := rfl
@[simp] theorem State.setCtx_zclrs (s : State) (c : Context) : (s.setCtx c).zclrs = s.zclrs := rfl
@[simp] theorem State.setCtx_codes (s : State) (c : Context) : (s.setCtx c).codes = s.codes := rfl
@[simp] theorem State.setCtx_posted (s : State) (c : Context) : (s.setCtx c).posted = s.posted := rfl
@[simp] theorem State.setCtx_fusedSets (s : State) (c : Context) : (s.setCtx c).fusedSets = s.fusedSets := rfl
@[simp] theorem State.setCtx_devFaults (s : State) (c : Context) : (s.setCtx c).devFaults = s.devFaults := rfl
@[simp] theorem State.setCtx_tlb (s : State) (c : Context) : (s.setCtx c).tlb = s.tlb := rfl
@[simp] theorem State.setCtx_recCache (s : State) (c : Context) : (s.setCtx c).recCache = s.recCache := rfl
@[simp] theorem State.setCtx_mgmt (s : State) (c : Context) : (s.setCtx c).mgmt = s.mgmt := rfl
@[simp] theorem State.setCtx_hostData (s : State) (c : Context) : (s.setCtx c).hostData = s.hostData := rfl
@[simp] theorem State.setCtx_inputs (s : State) (c : Context) : (s.setCtx c).inputs = s.inputs := rfl
@[simp] theorem State.setCtx_free (s : State) (c : Context) : (s.setCtx c).free = s.free := rfl

/-! ### `State.hold` -/

@[simp] theorem State.hold_power (s : State) : (s.hold).power = s.power := rfl
@[simp] theorem State.hold_variant (s : State) : (s.hold).variant = s.variant := rfl
@[simp] theorem State.hold_ctx (s : State) : (s.hold).ctx = { s.ctx with cycle := s.ctx.cycle + 1 } := rfl
@[simp] theorem State.hold_src (s : State) : (s.hold).src = s.src := rfl
@[simp] theorem State.hold_wave (s : State) : (s.hold).wave = s.wave := rfl
@[simp] theorem State.hold_ahead (s : State) : (s.hold).ahead = s.ahead := rfl
@[simp] theorem State.hold_others (s : State) : (s.hold).others = s.others := rfl
@[simp] theorem State.hold_pipelines (s : State) : (s.hold).pipelines = s.pipelines := rfl
@[simp] theorem State.hold_nextLnum (s : State) : (s.hold).nextLnum = s.nextLnum := rfl
@[simp] theorem State.hold_groups (s : State) : (s.hold).groups = s.groups := rfl
@[simp] theorem State.hold_mem (s : State) : (s.hold).mem = s.mem := rfl
@[simp] theorem State.hold_pois (s : State) : (s.hold).pois = s.pois := rfl
@[simp] theorem State.hold_zflags (s : State) : (s.hold).zflags = s.zflags := rfl
@[simp] theorem State.hold_zflagErr (s : State) : (s.hold).zflagErr = s.zflagErr := rfl
@[simp] theorem State.hold_swLines (s : State) : (s.hold).swLines = s.swLines := rfl
@[simp] theorem State.hold_writeBacks (s : State) : (s.hold).writeBacks = s.writeBacks := rfl
@[simp] theorem State.hold_lines (s : State) : (s.hold).lines = s.lines := rfl
@[simp] theorem State.hold_msgs (s : State) : (s.hold).msgs = s.msgs := rfl
@[simp] theorem State.hold_treqs (s : State) : (s.hold).treqs = s.treqs := rfl
@[simp] theorem State.hold_claims (s : State) : (s.hold).claims = s.claims := rfl
@[simp] theorem State.hold_pmsgs (s : State) : (s.hold).pmsgs = s.pmsgs := rfl
@[simp] theorem State.hold_ptables (s : State) : (s.hold).ptables = s.ptables := rfl
@[simp] theorem State.hold_pseq (s : State) : (s.hold).pseq = s.pseq := rfl
@[simp] theorem State.hold_snoops (s : State) : (s.hold).snoops = s.snoops := rfl
@[simp] theorem State.hold_zclrs (s : State) : (s.hold).zclrs = s.zclrs := rfl
@[simp] theorem State.hold_codes (s : State) : (s.hold).codes = s.codes := rfl
@[simp] theorem State.hold_posted (s : State) : (s.hold).posted = s.posted := rfl
@[simp] theorem State.hold_fusedSets (s : State) : (s.hold).fusedSets = s.fusedSets := rfl
@[simp] theorem State.hold_devFaults (s : State) : (s.hold).devFaults = s.devFaults := rfl
@[simp] theorem State.hold_tlb (s : State) : (s.hold).tlb = s.tlb := rfl
@[simp] theorem State.hold_recCache (s : State) : (s.hold).recCache = s.recCache := rfl
@[simp] theorem State.hold_mgmt (s : State) : (s.hold).mgmt = s.mgmt := rfl
@[simp] theorem State.hold_hostData (s : State) : (s.hold).hostData = s.hostData := rfl
@[simp] theorem State.hold_inputs (s : State) : (s.hold).inputs = s.inputs := rfl
@[simp] theorem State.hold_free (s : State) : (s.hold).free = s.free := rfl

/-! ### `State.tick` -/

/-- Where the device has met no fault in it, a step only draws its free values. -/
theorem State.tick_of_noFault (s : State) (h : s.devFaults = []) : s.tick = { s with free := s.free + 1 } := by
  simp [State.tick, h]

/-! ### `State.putByte` -/

@[simp] theorem State.putByte_power (s : State) (k : Nat) (b : Byte) (p : Bool) : (s.putByte k b p).power = s.power := rfl
@[simp] theorem State.putByte_variant (s : State) (k : Nat) (b : Byte) (p : Bool) : (s.putByte k b p).variant = s.variant := rfl
@[simp] theorem State.putByte_ctx (s : State) (k : Nat) (b : Byte) (p : Bool) : (s.putByte k b p).ctx = s.ctx := rfl
@[simp] theorem State.putByte_src (s : State) (k : Nat) (b : Byte) (p : Bool) : (s.putByte k b p).src = s.src := rfl
@[simp] theorem State.putByte_wave (s : State) (k : Nat) (b : Byte) (p : Bool) : (s.putByte k b p).wave = s.wave := rfl
@[simp] theorem State.putByte_ahead (s : State) (k : Nat) (b : Byte) (p : Bool) : (s.putByte k b p).ahead = s.ahead := rfl
@[simp] theorem State.putByte_others (s : State) (k : Nat) (b : Byte) (p : Bool) : (s.putByte k b p).others = s.others := rfl
@[simp] theorem State.putByte_pipelines (s : State) (k : Nat) (b : Byte) (p : Bool) : (s.putByte k b p).pipelines = s.pipelines := rfl
@[simp] theorem State.putByte_nextLnum (s : State) (k : Nat) (b : Byte) (p : Bool) : (s.putByte k b p).nextLnum = s.nextLnum := rfl
@[simp] theorem State.putByte_groups (s : State) (k : Nat) (b : Byte) (p : Bool) : (s.putByte k b p).groups = s.groups := rfl
@[simp] theorem State.putByte_mem (s : State) (k : Nat) (b : Byte) (p : Bool) : (s.putByte k b p).mem = memSet s.mem k b := rfl
@[simp] theorem State.putByte_pois (s : State) (k : Nat) (b : Byte) (p : Bool) : (s.putByte k b p).pois = setPut s.pois k p := rfl
@[simp] theorem State.putByte_zflags (s : State) (k : Nat) (b : Byte) (p : Bool) : (s.putByte k b p).zflags = s.zflags := rfl
@[simp] theorem State.putByte_zflagErr (s : State) (k : Nat) (b : Byte) (p : Bool) : (s.putByte k b p).zflagErr = s.zflagErr := rfl
@[simp] theorem State.putByte_swLines (s : State) (k : Nat) (b : Byte) (p : Bool) : (s.putByte k b p).swLines = s.swLines := rfl
@[simp] theorem State.putByte_writeBacks (s : State) (k : Nat) (b : Byte) (p : Bool) : (s.putByte k b p).writeBacks = s.writeBacks := rfl
@[simp] theorem State.putByte_lines (s : State) (k : Nat) (b : Byte) (p : Bool) : (s.putByte k b p).lines = s.lines := rfl
@[simp] theorem State.putByte_msgs (s : State) (k : Nat) (b : Byte) (p : Bool) : (s.putByte k b p).msgs = s.msgs := rfl
@[simp] theorem State.putByte_treqs (s : State) (k : Nat) (b : Byte) (p : Bool) : (s.putByte k b p).treqs = s.treqs := rfl
@[simp] theorem State.putByte_claims (s : State) (k : Nat) (b : Byte) (p : Bool) : (s.putByte k b p).claims = s.claims := rfl
@[simp] theorem State.putByte_pmsgs (s : State) (k : Nat) (b : Byte) (p : Bool) : (s.putByte k b p).pmsgs = s.pmsgs := rfl
@[simp] theorem State.putByte_ptables (s : State) (k : Nat) (b : Byte) (p : Bool) : (s.putByte k b p).ptables = s.ptables := rfl
@[simp] theorem State.putByte_pseq (s : State) (k : Nat) (b : Byte) (p : Bool) : (s.putByte k b p).pseq = s.pseq := rfl
@[simp] theorem State.putByte_snoops (s : State) (k : Nat) (b : Byte) (p : Bool) : (s.putByte k b p).snoops = s.snoops := rfl
@[simp] theorem State.putByte_zclrs (s : State) (k : Nat) (b : Byte) (p : Bool) : (s.putByte k b p).zclrs = s.zclrs := rfl
@[simp] theorem State.putByte_codes (s : State) (k : Nat) (b : Byte) (p : Bool) : (s.putByte k b p).codes = s.codes := rfl
@[simp] theorem State.putByte_posted (s : State) (k : Nat) (b : Byte) (p : Bool) : (s.putByte k b p).posted = s.posted := rfl
@[simp] theorem State.putByte_fusedSets (s : State) (k : Nat) (b : Byte) (p : Bool) : (s.putByte k b p).fusedSets = s.fusedSets := rfl
@[simp] theorem State.putByte_devFaults (s : State) (k : Nat) (b : Byte) (p : Bool) : (s.putByte k b p).devFaults = s.devFaults := rfl
@[simp] theorem State.putByte_tlb (s : State) (k : Nat) (b : Byte) (p : Bool) : (s.putByte k b p).tlb = s.tlb := rfl
@[simp] theorem State.putByte_recCache (s : State) (k : Nat) (b : Byte) (p : Bool) : (s.putByte k b p).recCache = s.recCache := rfl
@[simp] theorem State.putByte_mgmt (s : State) (k : Nat) (b : Byte) (p : Bool) : (s.putByte k b p).mgmt = s.mgmt := rfl
@[simp] theorem State.putByte_hostData (s : State) (k : Nat) (b : Byte) (p : Bool) : (s.putByte k b p).hostData = s.hostData := rfl
@[simp] theorem State.putByte_inputs (s : State) (k : Nat) (b : Byte) (p : Bool) : (s.putByte k b p).inputs = s.inputs := rfl
@[simp] theorem State.putByte_free (s : State) (k : Nat) (b : Byte) (p : Bool) : (s.putByte k b p).free = s.free := rfl

/-! ### `State.setLine` -/

@[simp] theorem State.setLine_power (s : State) (l : Line) : (s.setLine l).power = s.power := rfl
@[simp] theorem State.setLine_variant (s : State) (l : Line) : (s.setLine l).variant = s.variant := rfl
@[simp] theorem State.setLine_ctx (s : State) (l : Line) : (s.setLine l).ctx = s.ctx := rfl
@[simp] theorem State.setLine_src (s : State) (l : Line) : (s.setLine l).src = s.src := rfl
@[simp] theorem State.setLine_wave (s : State) (l : Line) : (s.setLine l).wave = s.wave := rfl
@[simp] theorem State.setLine_ahead (s : State) (l : Line) : (s.setLine l).ahead = s.ahead := rfl
@[simp] theorem State.setLine_others (s : State) (l : Line) : (s.setLine l).others = s.others := rfl
@[simp] theorem State.setLine_pipelines (s : State) (l : Line) : (s.setLine l).pipelines = s.pipelines := rfl
@[simp] theorem State.setLine_nextLnum (s : State) (l : Line) : (s.setLine l).nextLnum = s.nextLnum := rfl
@[simp] theorem State.setLine_groups (s : State) (l : Line) : (s.setLine l).groups = s.groups := rfl
@[simp] theorem State.setLine_mem (s : State) (l : Line) : (s.setLine l).mem = s.mem := rfl
@[simp] theorem State.setLine_pois (s : State) (l : Line) : (s.setLine l).pois = s.pois := rfl
@[simp] theorem State.setLine_zflags (s : State) (l : Line) : (s.setLine l).zflags = s.zflags := rfl
@[simp] theorem State.setLine_zflagErr (s : State) (l : Line) : (s.setLine l).zflagErr = s.zflagErr := rfl
@[simp] theorem State.setLine_swLines (s : State) (l : Line) : (s.setLine l).swLines = s.swLines := rfl
@[simp] theorem State.setLine_writeBacks (s : State) (l : Line) : (s.setLine l).writeBacks = s.writeBacks := rfl
@[simp] theorem State.setLine_lines (s : State) (l : Line) : (s.setLine l).lines = putLine l s.lines := rfl
@[simp] theorem State.setLine_msgs (s : State) (l : Line) : (s.setLine l).msgs = s.msgs := rfl
@[simp] theorem State.setLine_treqs (s : State) (l : Line) : (s.setLine l).treqs = s.treqs := rfl
@[simp] theorem State.setLine_claims (s : State) (l : Line) : (s.setLine l).claims = s.claims := rfl
@[simp] theorem State.setLine_pmsgs (s : State) (l : Line) : (s.setLine l).pmsgs = s.pmsgs := rfl
@[simp] theorem State.setLine_ptables (s : State) (l : Line) : (s.setLine l).ptables = s.ptables := rfl
@[simp] theorem State.setLine_pseq (s : State) (l : Line) : (s.setLine l).pseq = s.pseq := rfl
@[simp] theorem State.setLine_snoops (s : State) (l : Line) : (s.setLine l).snoops = s.snoops := rfl
@[simp] theorem State.setLine_zclrs (s : State) (l : Line) : (s.setLine l).zclrs = s.zclrs := rfl
@[simp] theorem State.setLine_codes (s : State) (l : Line) : (s.setLine l).codes = s.codes := rfl
@[simp] theorem State.setLine_posted (s : State) (l : Line) : (s.setLine l).posted = s.posted := rfl
@[simp] theorem State.setLine_fusedSets (s : State) (l : Line) : (s.setLine l).fusedSets = s.fusedSets := rfl
@[simp] theorem State.setLine_devFaults (s : State) (l : Line) : (s.setLine l).devFaults = s.devFaults := rfl
@[simp] theorem State.setLine_tlb (s : State) (l : Line) : (s.setLine l).tlb = s.tlb := rfl
@[simp] theorem State.setLine_recCache (s : State) (l : Line) : (s.setLine l).recCache = s.recCache := rfl
@[simp] theorem State.setLine_mgmt (s : State) (l : Line) : (s.setLine l).mgmt = s.mgmt := rfl
@[simp] theorem State.setLine_hostData (s : State) (l : Line) : (s.setLine l).hostData = s.hostData := rfl
@[simp] theorem State.setLine_inputs (s : State) (l : Line) : (s.setLine l).inputs = s.inputs := rfl
@[simp] theorem State.setLine_free (s : State) (l : Line) : (s.setLine l).free = s.free := rfl

/-! ### `State.zeroKeys` -/

@[simp] theorem State.zeroKeys_power (s : State) (k n : Nat) : (s.zeroKeys k n).power = s.power := rfl
@[simp] theorem State.zeroKeys_variant (s : State) (k n : Nat) : (s.zeroKeys k n).variant = s.variant := rfl
@[simp] theorem State.zeroKeys_ctx (s : State) (k n : Nat) : (s.zeroKeys k n).ctx = s.ctx := rfl
@[simp] theorem State.zeroKeys_src (s : State) (k n : Nat) : (s.zeroKeys k n).src = s.src := rfl
@[simp] theorem State.zeroKeys_wave (s : State) (k n : Nat) : (s.zeroKeys k n).wave = s.wave := rfl
@[simp] theorem State.zeroKeys_ahead (s : State) (k n : Nat) : (s.zeroKeys k n).ahead = s.ahead := rfl
@[simp] theorem State.zeroKeys_others (s : State) (k n : Nat) : (s.zeroKeys k n).others = s.others := rfl
@[simp] theorem State.zeroKeys_pipelines (s : State) (k n : Nat) : (s.zeroKeys k n).pipelines = s.pipelines := rfl
@[simp] theorem State.zeroKeys_nextLnum (s : State) (k n : Nat) : (s.zeroKeys k n).nextLnum = s.nextLnum := rfl
@[simp] theorem State.zeroKeys_groups (s : State) (k n : Nat) : (s.zeroKeys k n).groups = s.groups := rfl
@[simp] theorem State.zeroKeys_zflags (s : State) (k n : Nat) : (s.zeroKeys k n).zflags = s.zflags := rfl
@[simp] theorem State.zeroKeys_zflagErr (s : State) (k n : Nat) : (s.zeroKeys k n).zflagErr = s.zflagErr := rfl
@[simp] theorem State.zeroKeys_swLines (s : State) (k n : Nat) : (s.zeroKeys k n).swLines = s.swLines := rfl
@[simp] theorem State.zeroKeys_writeBacks (s : State) (k n : Nat) : (s.zeroKeys k n).writeBacks = s.writeBacks := rfl
@[simp] theorem State.zeroKeys_lines (s : State) (k n : Nat) : (s.zeroKeys k n).lines = s.lines := rfl
@[simp] theorem State.zeroKeys_msgs (s : State) (k n : Nat) : (s.zeroKeys k n).msgs = s.msgs := rfl
@[simp] theorem State.zeroKeys_treqs (s : State) (k n : Nat) : (s.zeroKeys k n).treqs = s.treqs := rfl
@[simp] theorem State.zeroKeys_claims (s : State) (k n : Nat) : (s.zeroKeys k n).claims = s.claims := rfl
@[simp] theorem State.zeroKeys_pmsgs (s : State) (k n : Nat) : (s.zeroKeys k n).pmsgs = s.pmsgs := rfl
@[simp] theorem State.zeroKeys_ptables (s : State) (k n : Nat) : (s.zeroKeys k n).ptables = s.ptables := rfl
@[simp] theorem State.zeroKeys_pseq (s : State) (k n : Nat) : (s.zeroKeys k n).pseq = s.pseq := rfl
@[simp] theorem State.zeroKeys_snoops (s : State) (k n : Nat) : (s.zeroKeys k n).snoops = s.snoops := rfl
@[simp] theorem State.zeroKeys_zclrs (s : State) (k n : Nat) : (s.zeroKeys k n).zclrs = s.zclrs := rfl
@[simp] theorem State.zeroKeys_codes (s : State) (k n : Nat) : (s.zeroKeys k n).codes = s.codes := rfl
@[simp] theorem State.zeroKeys_posted (s : State) (k n : Nat) : (s.zeroKeys k n).posted = s.posted := rfl
@[simp] theorem State.zeroKeys_fusedSets (s : State) (k n : Nat) : (s.zeroKeys k n).fusedSets = s.fusedSets := rfl
@[simp] theorem State.zeroKeys_devFaults (s : State) (k n : Nat) : (s.zeroKeys k n).devFaults = s.devFaults := rfl
@[simp] theorem State.zeroKeys_tlb (s : State) (k n : Nat) : (s.zeroKeys k n).tlb = s.tlb := rfl
@[simp] theorem State.zeroKeys_recCache (s : State) (k n : Nat) : (s.zeroKeys k n).recCache = s.recCache := rfl
@[simp] theorem State.zeroKeys_mgmt (s : State) (k n : Nat) : (s.zeroKeys k n).mgmt = s.mgmt := rfl
@[simp] theorem State.zeroKeys_hostData (s : State) (k n : Nat) : (s.zeroKeys k n).hostData = s.hostData := rfl
@[simp] theorem State.zeroKeys_inputs (s : State) (k n : Nat) : (s.zeroKeys k n).inputs = s.inputs := rfl
@[simp] theorem State.zeroKeys_free (s : State) (k n : Nat) : (s.zeroKeys k n).free = s.free := rfl

/-! ### `State.mapPipe` -/

@[simp] theorem State.mapPipe_power (s : State) (n : Nat) (f : Pipeline → Pipeline) : (s.mapPipe n f).power = s.power := rfl
@[simp] theorem State.mapPipe_variant (s : State) (n : Nat) (f : Pipeline → Pipeline) : (s.mapPipe n f).variant = s.variant := rfl
@[simp] theorem State.mapPipe_ctx (s : State) (n : Nat) (f : Pipeline → Pipeline) : (s.mapPipe n f).ctx = s.ctx := rfl
@[simp] theorem State.mapPipe_src (s : State) (n : Nat) (f : Pipeline → Pipeline) : (s.mapPipe n f).src = s.src := rfl
@[simp] theorem State.mapPipe_wave (s : State) (n : Nat) (f : Pipeline → Pipeline) : (s.mapPipe n f).wave = s.wave := rfl
@[simp] theorem State.mapPipe_ahead (s : State) (n : Nat) (f : Pipeline → Pipeline) : (s.mapPipe n f).ahead = s.ahead := rfl
@[simp] theorem State.mapPipe_others (s : State) (n : Nat) (f : Pipeline → Pipeline) : (s.mapPipe n f).others = s.others := rfl
@[simp] theorem State.mapPipe_pipelines (s : State) (n : Nat) (f : Pipeline → Pipeline) : (s.mapPipe n f).pipelines = s.pipelines.map (fun p => if p.lnum = n then f p else p) := rfl
@[simp] theorem State.mapPipe_nextLnum (s : State) (n : Nat) (f : Pipeline → Pipeline) : (s.mapPipe n f).nextLnum = s.nextLnum := rfl
@[simp] theorem State.mapPipe_groups (s : State) (n : Nat) (f : Pipeline → Pipeline) : (s.mapPipe n f).groups = s.groups := rfl
@[simp] theorem State.mapPipe_mem (s : State) (n : Nat) (f : Pipeline → Pipeline) : (s.mapPipe n f).mem = s.mem := rfl
@[simp] theorem State.mapPipe_pois (s : State) (n : Nat) (f : Pipeline → Pipeline) : (s.mapPipe n f).pois = s.pois := rfl
@[simp] theorem State.mapPipe_zflags (s : State) (n : Nat) (f : Pipeline → Pipeline) : (s.mapPipe n f).zflags = s.zflags := rfl
@[simp] theorem State.mapPipe_zflagErr (s : State) (n : Nat) (f : Pipeline → Pipeline) : (s.mapPipe n f).zflagErr = s.zflagErr := rfl
@[simp] theorem State.mapPipe_swLines (s : State) (n : Nat) (f : Pipeline → Pipeline) : (s.mapPipe n f).swLines = s.swLines := rfl
@[simp] theorem State.mapPipe_writeBacks (s : State) (n : Nat) (f : Pipeline → Pipeline) : (s.mapPipe n f).writeBacks = s.writeBacks := rfl
@[simp] theorem State.mapPipe_lines (s : State) (n : Nat) (f : Pipeline → Pipeline) : (s.mapPipe n f).lines = s.lines := rfl
@[simp] theorem State.mapPipe_msgs (s : State) (n : Nat) (f : Pipeline → Pipeline) : (s.mapPipe n f).msgs = s.msgs := rfl
@[simp] theorem State.mapPipe_treqs (s : State) (n : Nat) (f : Pipeline → Pipeline) : (s.mapPipe n f).treqs = s.treqs := rfl
@[simp] theorem State.mapPipe_claims (s : State) (n : Nat) (f : Pipeline → Pipeline) : (s.mapPipe n f).claims = s.claims := rfl
@[simp] theorem State.mapPipe_pmsgs (s : State) (n : Nat) (f : Pipeline → Pipeline) : (s.mapPipe n f).pmsgs = s.pmsgs := rfl
@[simp] theorem State.mapPipe_ptables (s : State) (n : Nat) (f : Pipeline → Pipeline) : (s.mapPipe n f).ptables = s.ptables := rfl
@[simp] theorem State.mapPipe_pseq (s : State) (n : Nat) (f : Pipeline → Pipeline) : (s.mapPipe n f).pseq = s.pseq := rfl
@[simp] theorem State.mapPipe_snoops (s : State) (n : Nat) (f : Pipeline → Pipeline) : (s.mapPipe n f).snoops = s.snoops := rfl
@[simp] theorem State.mapPipe_zclrs (s : State) (n : Nat) (f : Pipeline → Pipeline) : (s.mapPipe n f).zclrs = s.zclrs := rfl
@[simp] theorem State.mapPipe_codes (s : State) (n : Nat) (f : Pipeline → Pipeline) : (s.mapPipe n f).codes = s.codes := rfl
@[simp] theorem State.mapPipe_posted (s : State) (n : Nat) (f : Pipeline → Pipeline) : (s.mapPipe n f).posted = s.posted := rfl
@[simp] theorem State.mapPipe_fusedSets (s : State) (n : Nat) (f : Pipeline → Pipeline) : (s.mapPipe n f).fusedSets = s.fusedSets := rfl
@[simp] theorem State.mapPipe_devFaults (s : State) (n : Nat) (f : Pipeline → Pipeline) : (s.mapPipe n f).devFaults = s.devFaults := rfl
@[simp] theorem State.mapPipe_tlb (s : State) (n : Nat) (f : Pipeline → Pipeline) : (s.mapPipe n f).tlb = s.tlb := rfl
@[simp] theorem State.mapPipe_recCache (s : State) (n : Nat) (f : Pipeline → Pipeline) : (s.mapPipe n f).recCache = s.recCache := rfl
@[simp] theorem State.mapPipe_mgmt (s : State) (n : Nat) (f : Pipeline → Pipeline) : (s.mapPipe n f).mgmt = s.mgmt := rfl
@[simp] theorem State.mapPipe_hostData (s : State) (n : Nat) (f : Pipeline → Pipeline) : (s.mapPipe n f).hostData = s.hostData := rfl
@[simp] theorem State.mapPipe_inputs (s : State) (n : Nat) (f : Pipeline → Pipeline) : (s.mapPipe n f).inputs = s.inputs := rfl
@[simp] theorem State.mapPipe_free (s : State) (n : Nat) (f : Pipeline → Pipeline) : (s.mapPipe n f).free = s.free := rfl

/-! ### `mapCtxs` -/

@[simp] theorem mapCtxs_power (s : State) (f : Context → Context) : (mapCtxs s f).power = s.power := rfl
@[simp] theorem mapCtxs_variant (s : State) (f : Context → Context) : (mapCtxs s f).variant = s.variant := rfl
@[simp] theorem mapCtxs_ctx (s : State) (f : Context → Context) : (mapCtxs s f).ctx = f s.ctx := rfl
@[simp] theorem mapCtxs_src (s : State) (f : Context → Context) : (mapCtxs s f).src = s.src := rfl
@[simp] theorem mapCtxs_wave (s : State) (f : Context → Context) : (mapCtxs s f).wave = s.wave := rfl
@[simp] theorem mapCtxs_ahead (s : State) (f : Context → Context) : (mapCtxs s f).ahead = s.ahead := rfl
@[simp] theorem mapCtxs_others (s : State) (f : Context → Context) : (mapCtxs s f).others = s.others.map f := rfl
@[simp] theorem mapCtxs_pipelines (s : State) (f : Context → Context) : (mapCtxs s f).pipelines = s.pipelines := rfl
@[simp] theorem mapCtxs_nextLnum (s : State) (f : Context → Context) : (mapCtxs s f).nextLnum = s.nextLnum := rfl
@[simp] theorem mapCtxs_groups (s : State) (f : Context → Context) : (mapCtxs s f).groups = s.groups := rfl
@[simp] theorem mapCtxs_mem (s : State) (f : Context → Context) : (mapCtxs s f).mem = s.mem := rfl
@[simp] theorem mapCtxs_pois (s : State) (f : Context → Context) : (mapCtxs s f).pois = s.pois := rfl
@[simp] theorem mapCtxs_zflags (s : State) (f : Context → Context) : (mapCtxs s f).zflags = s.zflags := rfl
@[simp] theorem mapCtxs_zflagErr (s : State) (f : Context → Context) : (mapCtxs s f).zflagErr = s.zflagErr := rfl
@[simp] theorem mapCtxs_swLines (s : State) (f : Context → Context) : (mapCtxs s f).swLines = s.swLines := rfl
@[simp] theorem mapCtxs_writeBacks (s : State) (f : Context → Context) : (mapCtxs s f).writeBacks = s.writeBacks := rfl
@[simp] theorem mapCtxs_lines (s : State) (f : Context → Context) : (mapCtxs s f).lines = s.lines := rfl
@[simp] theorem mapCtxs_msgs (s : State) (f : Context → Context) : (mapCtxs s f).msgs = s.msgs := rfl
@[simp] theorem mapCtxs_treqs (s : State) (f : Context → Context) : (mapCtxs s f).treqs = s.treqs := rfl
@[simp] theorem mapCtxs_claims (s : State) (f : Context → Context) : (mapCtxs s f).claims = s.claims := rfl
@[simp] theorem mapCtxs_pmsgs (s : State) (f : Context → Context) : (mapCtxs s f).pmsgs = s.pmsgs := rfl
@[simp] theorem mapCtxs_ptables (s : State) (f : Context → Context) : (mapCtxs s f).ptables = s.ptables := rfl
@[simp] theorem mapCtxs_pseq (s : State) (f : Context → Context) : (mapCtxs s f).pseq = s.pseq := rfl
@[simp] theorem mapCtxs_snoops (s : State) (f : Context → Context) : (mapCtxs s f).snoops = s.snoops := rfl
@[simp] theorem mapCtxs_zclrs (s : State) (f : Context → Context) : (mapCtxs s f).zclrs = s.zclrs := rfl
@[simp] theorem mapCtxs_codes (s : State) (f : Context → Context) : (mapCtxs s f).codes = s.codes := rfl
@[simp] theorem mapCtxs_posted (s : State) (f : Context → Context) : (mapCtxs s f).posted = s.posted := rfl
@[simp] theorem mapCtxs_fusedSets (s : State) (f : Context → Context) : (mapCtxs s f).fusedSets = s.fusedSets := rfl
@[simp] theorem mapCtxs_devFaults (s : State) (f : Context → Context) : (mapCtxs s f).devFaults = s.devFaults := rfl
@[simp] theorem mapCtxs_tlb (s : State) (f : Context → Context) : (mapCtxs s f).tlb = s.tlb := rfl
@[simp] theorem mapCtxs_recCache (s : State) (f : Context → Context) : (mapCtxs s f).recCache = s.recCache := rfl
@[simp] theorem mapCtxs_mgmt (s : State) (f : Context → Context) : (mapCtxs s f).mgmt = s.mgmt := rfl
@[simp] theorem mapCtxs_hostData (s : State) (f : Context → Context) : (mapCtxs s f).hostData = s.hostData := rfl
@[simp] theorem mapCtxs_inputs (s : State) (f : Context → Context) : (mapCtxs s f).inputs = s.inputs := rfl
@[simp] theorem mapCtxs_free (s : State) (f : Context → Context) : (mapCtxs s f).free = s.free := rfl

/-! ### `State.setQueue` -/

@[simp] theorem State.setQueue_power (s : State) (q : Fin 64) (x : SubQueue) : (s.setQueue q x).power = s.power := rfl
@[simp] theorem State.setQueue_variant (s : State) (q : Fin 64) (x : SubQueue) : (s.setQueue q x).variant = s.variant := rfl
@[simp] theorem State.setQueue_ctx (s : State) (q : Fin 64) (x : SubQueue) : (s.setQueue q x).ctx = s.ctx := rfl
@[simp] theorem State.setQueue_src (s : State) (q : Fin 64) (x : SubQueue) : (s.setQueue q x).src = s.src := rfl
@[simp] theorem State.setQueue_wave (s : State) (q : Fin 64) (x : SubQueue) : (s.setQueue q x).wave = s.wave := rfl
@[simp] theorem State.setQueue_ahead (s : State) (q : Fin 64) (x : SubQueue) : (s.setQueue q x).ahead = s.ahead := rfl
@[simp] theorem State.setQueue_others (s : State) (q : Fin 64) (x : SubQueue) : (s.setQueue q x).others = s.others := rfl
@[simp] theorem State.setQueue_pipelines (s : State) (q : Fin 64) (x : SubQueue) : (s.setQueue q x).pipelines = s.pipelines := rfl
@[simp] theorem State.setQueue_nextLnum (s : State) (q : Fin 64) (x : SubQueue) : (s.setQueue q x).nextLnum = s.nextLnum := rfl
@[simp] theorem State.setQueue_groups (s : State) (q : Fin 64) (x : SubQueue) : (s.setQueue q x).groups = s.groups := rfl
@[simp] theorem State.setQueue_mem (s : State) (q : Fin 64) (x : SubQueue) : (s.setQueue q x).mem = s.mem := rfl
@[simp] theorem State.setQueue_pois (s : State) (q : Fin 64) (x : SubQueue) : (s.setQueue q x).pois = s.pois := rfl
@[simp] theorem State.setQueue_zflags (s : State) (q : Fin 64) (x : SubQueue) : (s.setQueue q x).zflags = s.zflags := rfl
@[simp] theorem State.setQueue_zflagErr (s : State) (q : Fin 64) (x : SubQueue) : (s.setQueue q x).zflagErr = s.zflagErr := rfl
@[simp] theorem State.setQueue_swLines (s : State) (q : Fin 64) (x : SubQueue) : (s.setQueue q x).swLines = s.swLines := rfl
@[simp] theorem State.setQueue_writeBacks (s : State) (q : Fin 64) (x : SubQueue) : (s.setQueue q x).writeBacks = s.writeBacks := rfl
@[simp] theorem State.setQueue_lines (s : State) (q : Fin 64) (x : SubQueue) : (s.setQueue q x).lines = s.lines := rfl
@[simp] theorem State.setQueue_msgs (s : State) (q : Fin 64) (x : SubQueue) : (s.setQueue q x).msgs = s.msgs := rfl
@[simp] theorem State.setQueue_treqs (s : State) (q : Fin 64) (x : SubQueue) : (s.setQueue q x).treqs = s.treqs := rfl
@[simp] theorem State.setQueue_claims (s : State) (q : Fin 64) (x : SubQueue) : (s.setQueue q x).claims = s.claims := rfl
@[simp] theorem State.setQueue_pmsgs (s : State) (q : Fin 64) (x : SubQueue) : (s.setQueue q x).pmsgs = s.pmsgs := rfl
@[simp] theorem State.setQueue_ptables (s : State) (q : Fin 64) (x : SubQueue) : (s.setQueue q x).ptables = s.ptables := rfl
@[simp] theorem State.setQueue_pseq (s : State) (q : Fin 64) (x : SubQueue) : (s.setQueue q x).pseq = s.pseq := rfl
@[simp] theorem State.setQueue_snoops (s : State) (q : Fin 64) (x : SubQueue) : (s.setQueue q x).snoops = s.snoops := rfl
@[simp] theorem State.setQueue_zclrs (s : State) (q : Fin 64) (x : SubQueue) : (s.setQueue q x).zclrs = s.zclrs := rfl
@[simp] theorem State.setQueue_codes (s : State) (q : Fin 64) (x : SubQueue) : (s.setQueue q x).codes = s.codes := rfl
@[simp] theorem State.setQueue_posted (s : State) (q : Fin 64) (x : SubQueue) : (s.setQueue q x).posted = s.posted := rfl
@[simp] theorem State.setQueue_fusedSets (s : State) (q : Fin 64) (x : SubQueue) : (s.setQueue q x).fusedSets = s.fusedSets := rfl
@[simp] theorem State.setQueue_devFaults (s : State) (q : Fin 64) (x : SubQueue) : (s.setQueue q x).devFaults = s.devFaults := rfl
@[simp] theorem State.setQueue_tlb (s : State) (q : Fin 64) (x : SubQueue) : (s.setQueue q x).tlb = s.tlb := rfl
@[simp] theorem State.setQueue_recCache (s : State) (q : Fin 64) (x : SubQueue) : (s.setQueue q x).recCache = s.recCache := rfl
@[simp] theorem State.setQueue_mgmt (s : State) (q : Fin 64) (x : SubQueue) : (s.setQueue q x).mgmt = { s.mgmt with queues := s.mgmt.queues.set q x } := rfl
@[simp] theorem State.setQueue_hostData (s : State) (q : Fin 64) (x : SubQueue) : (s.setQueue q x).hostData = s.hostData := rfl
@[simp] theorem State.setQueue_inputs (s : State) (q : Fin 64) (x : SubQueue) : (s.setQueue q x).inputs = s.inputs := rfl
@[simp] theorem State.setQueue_free (s : State) (q : Fin 64) (x : SubQueue) : (s.setQueue q x).free = s.free := rfl

/-! ### `State.setStream` -/

@[simp] theorem State.setStream_power (s : State) (n : Fin 16) (q : Stream) : (s.setStream n q).power = s.power := rfl
@[simp] theorem State.setStream_variant (s : State) (n : Fin 16) (q : Stream) : (s.setStream n q).variant = s.variant := rfl
@[simp] theorem State.setStream_ctx (s : State) (n : Fin 16) (q : Stream) : (s.setStream n q).ctx = { s.ctx with streams := s.ctx.streams.set n q } := rfl
@[simp] theorem State.setStream_src (s : State) (n : Fin 16) (q : Stream) : (s.setStream n q).src = s.src := rfl
@[simp] theorem State.setStream_wave (s : State) (n : Fin 16) (q : Stream) : (s.setStream n q).wave = s.wave := rfl
@[simp] theorem State.setStream_ahead (s : State) (n : Fin 16) (q : Stream) : (s.setStream n q).ahead = s.ahead := rfl
@[simp] theorem State.setStream_others (s : State) (n : Fin 16) (q : Stream) : (s.setStream n q).others = s.others := rfl
@[simp] theorem State.setStream_pipelines (s : State) (n : Fin 16) (q : Stream) : (s.setStream n q).pipelines = s.pipelines := rfl
@[simp] theorem State.setStream_nextLnum (s : State) (n : Fin 16) (q : Stream) : (s.setStream n q).nextLnum = s.nextLnum := rfl
@[simp] theorem State.setStream_groups (s : State) (n : Fin 16) (q : Stream) : (s.setStream n q).groups = s.groups := rfl
@[simp] theorem State.setStream_mem (s : State) (n : Fin 16) (q : Stream) : (s.setStream n q).mem = s.mem := rfl
@[simp] theorem State.setStream_pois (s : State) (n : Fin 16) (q : Stream) : (s.setStream n q).pois = s.pois := rfl
@[simp] theorem State.setStream_zflags (s : State) (n : Fin 16) (q : Stream) : (s.setStream n q).zflags = s.zflags := rfl
@[simp] theorem State.setStream_zflagErr (s : State) (n : Fin 16) (q : Stream) : (s.setStream n q).zflagErr = s.zflagErr := rfl
@[simp] theorem State.setStream_swLines (s : State) (n : Fin 16) (q : Stream) : (s.setStream n q).swLines = s.swLines := rfl
@[simp] theorem State.setStream_writeBacks (s : State) (n : Fin 16) (q : Stream) : (s.setStream n q).writeBacks = s.writeBacks := rfl
@[simp] theorem State.setStream_lines (s : State) (n : Fin 16) (q : Stream) : (s.setStream n q).lines = s.lines := rfl
@[simp] theorem State.setStream_msgs (s : State) (n : Fin 16) (q : Stream) : (s.setStream n q).msgs = s.msgs := rfl
@[simp] theorem State.setStream_treqs (s : State) (n : Fin 16) (q : Stream) : (s.setStream n q).treqs = s.treqs := rfl
@[simp] theorem State.setStream_claims (s : State) (n : Fin 16) (q : Stream) : (s.setStream n q).claims = s.claims := rfl
@[simp] theorem State.setStream_pmsgs (s : State) (n : Fin 16) (q : Stream) : (s.setStream n q).pmsgs = s.pmsgs := rfl
@[simp] theorem State.setStream_ptables (s : State) (n : Fin 16) (q : Stream) : (s.setStream n q).ptables = s.ptables := rfl
@[simp] theorem State.setStream_pseq (s : State) (n : Fin 16) (q : Stream) : (s.setStream n q).pseq = s.pseq := rfl
@[simp] theorem State.setStream_snoops (s : State) (n : Fin 16) (q : Stream) : (s.setStream n q).snoops = s.snoops := rfl
@[simp] theorem State.setStream_zclrs (s : State) (n : Fin 16) (q : Stream) : (s.setStream n q).zclrs = s.zclrs := rfl
@[simp] theorem State.setStream_codes (s : State) (n : Fin 16) (q : Stream) : (s.setStream n q).codes = s.codes := rfl
@[simp] theorem State.setStream_posted (s : State) (n : Fin 16) (q : Stream) : (s.setStream n q).posted = s.posted := rfl
@[simp] theorem State.setStream_fusedSets (s : State) (n : Fin 16) (q : Stream) : (s.setStream n q).fusedSets = s.fusedSets := rfl
@[simp] theorem State.setStream_devFaults (s : State) (n : Fin 16) (q : Stream) : (s.setStream n q).devFaults = s.devFaults := rfl
@[simp] theorem State.setStream_tlb (s : State) (n : Fin 16) (q : Stream) : (s.setStream n q).tlb = s.tlb := rfl
@[simp] theorem State.setStream_recCache (s : State) (n : Fin 16) (q : Stream) : (s.setStream n q).recCache = s.recCache := rfl
@[simp] theorem State.setStream_mgmt (s : State) (n : Fin 16) (q : Stream) : (s.setStream n q).mgmt = s.mgmt := rfl
@[simp] theorem State.setStream_hostData (s : State) (n : Fin 16) (q : Stream) : (s.setStream n q).hostData = s.hostData := rfl
@[simp] theorem State.setStream_inputs (s : State) (n : Fin 16) (q : Stream) : (s.setStream n q).inputs = s.inputs := rfl
@[simp] theorem State.setStream_free (s : State) (n : Fin 16) (q : Stream) : (s.setStream n q).free = s.free := rfl

/-! ### `State.branchTo` -/

@[simp] theorem State.branchTo_power (s : State) (w : Word) : (s.branchTo w).power = s.power := rfl
@[simp] theorem State.branchTo_variant (s : State) (w : Word) : (s.branchTo w).variant = s.variant := rfl
@[simp] theorem State.branchTo_ctx (s : State) (w : Word) : (s.branchTo w).ctx = { s.ctx with dsc := 2, target := w, late := false } := rfl
@[simp] theorem State.branchTo_src (s : State) (w : Word) : (s.branchTo w).src = s.src := rfl
@[simp] theorem State.branchTo_wave (s : State) (w : Word) : (s.branchTo w).wave = s.wave := rfl
@[simp] theorem State.branchTo_ahead (s : State) (w : Word) : (s.branchTo w).ahead = s.ahead := rfl
@[simp] theorem State.branchTo_others (s : State) (w : Word) : (s.branchTo w).others = s.others := rfl
@[simp] theorem State.branchTo_pipelines (s : State) (w : Word) : (s.branchTo w).pipelines = s.pipelines := rfl
@[simp] theorem State.branchTo_nextLnum (s : State) (w : Word) : (s.branchTo w).nextLnum = s.nextLnum := rfl
@[simp] theorem State.branchTo_groups (s : State) (w : Word) : (s.branchTo w).groups = s.groups := rfl
@[simp] theorem State.branchTo_mem (s : State) (w : Word) : (s.branchTo w).mem = s.mem := rfl
@[simp] theorem State.branchTo_pois (s : State) (w : Word) : (s.branchTo w).pois = s.pois := rfl
@[simp] theorem State.branchTo_zflags (s : State) (w : Word) : (s.branchTo w).zflags = s.zflags := rfl
@[simp] theorem State.branchTo_zflagErr (s : State) (w : Word) : (s.branchTo w).zflagErr = s.zflagErr := rfl
@[simp] theorem State.branchTo_swLines (s : State) (w : Word) : (s.branchTo w).swLines = s.swLines := rfl
@[simp] theorem State.branchTo_writeBacks (s : State) (w : Word) : (s.branchTo w).writeBacks = s.writeBacks := rfl
@[simp] theorem State.branchTo_lines (s : State) (w : Word) : (s.branchTo w).lines = s.lines := rfl
@[simp] theorem State.branchTo_msgs (s : State) (w : Word) : (s.branchTo w).msgs = s.msgs := rfl
@[simp] theorem State.branchTo_treqs (s : State) (w : Word) : (s.branchTo w).treqs = s.treqs := rfl
@[simp] theorem State.branchTo_claims (s : State) (w : Word) : (s.branchTo w).claims = s.claims := rfl
@[simp] theorem State.branchTo_pmsgs (s : State) (w : Word) : (s.branchTo w).pmsgs = s.pmsgs := rfl
@[simp] theorem State.branchTo_ptables (s : State) (w : Word) : (s.branchTo w).ptables = s.ptables := rfl
@[simp] theorem State.branchTo_pseq (s : State) (w : Word) : (s.branchTo w).pseq = s.pseq := rfl
@[simp] theorem State.branchTo_snoops (s : State) (w : Word) : (s.branchTo w).snoops = s.snoops := rfl
@[simp] theorem State.branchTo_zclrs (s : State) (w : Word) : (s.branchTo w).zclrs = s.zclrs := rfl
@[simp] theorem State.branchTo_codes (s : State) (w : Word) : (s.branchTo w).codes = s.codes := rfl
@[simp] theorem State.branchTo_posted (s : State) (w : Word) : (s.branchTo w).posted = s.posted := rfl
@[simp] theorem State.branchTo_fusedSets (s : State) (w : Word) : (s.branchTo w).fusedSets = s.fusedSets := rfl
@[simp] theorem State.branchTo_devFaults (s : State) (w : Word) : (s.branchTo w).devFaults = s.devFaults := rfl
@[simp] theorem State.branchTo_tlb (s : State) (w : Word) : (s.branchTo w).tlb = s.tlb := rfl
@[simp] theorem State.branchTo_recCache (s : State) (w : Word) : (s.branchTo w).recCache = s.recCache := rfl
@[simp] theorem State.branchTo_mgmt (s : State) (w : Word) : (s.branchTo w).mgmt = s.mgmt := rfl
@[simp] theorem State.branchTo_hostData (s : State) (w : Word) : (s.branchTo w).hostData = s.hostData := rfl
@[simp] theorem State.branchTo_inputs (s : State) (w : Word) : (s.branchTo w).inputs = s.inputs := rfl
@[simp] theorem State.branchTo_free (s : State) (w : Word) : (s.branchTo w).free = s.free := rfl

/-! ### `Context.cqPop` -/

@[simp] theorem Context.cqPop_status (c : Context) (n : Nat) : (c.cqPop n).status = c.status := rfl
@[simp] theorem Context.cqPop_lnum (c : Context) (n : Nat) : (c.cqPop n).lnum = c.lnum := rfl
@[simp] theorem Context.cqPop_stage (c : Context) (n : Nat) : (c.cqPop n).stage = c.stage := rfl
@[simp] theorem Context.cqPop_inst (c : Context) (n : Nat) : (c.cqPop n).inst = c.inst := rfl
@[simp] theorem Context.cqPop_rank (c : Context) (n : Nat) : (c.cqPop n).rank = c.rank := rfl
@[simp] theorem Context.cqPop_brigade (c : Context) (n : Nat) : (c.cqPop n).brigade = c.brigade := rfl
@[simp] theorem Context.cqPop_chainLen (c : Context) (n : Nat) : (c.cqPop n).chainLen = c.chainLen := rfl
@[simp] theorem Context.cqPop_foot (c : Context) (n : Nat) : (c.cqPop n).foot = c.foot := rfl
@[simp] theorem Context.cqPop_array (c : Context) (n : Nat) : (c.cqPop n).array = c.array := rfl
@[simp] theorem Context.cqPop_active (c : Context) (n : Nat) : (c.cqPop n).active = c.active := rfl
@[simp] theorem Context.cqPop_lastArray (c : Context) (n : Nat) : (c.cqPop n).lastArray = c.lastArray := rfl
@[simp] theorem Context.cqPop_request (c : Context) (n : Nat) : (c.cqPop n).request = c.request := rfl
@[simp] theorem Context.cqPop_saved (c : Context) (n : Nat) : (c.cqPop n).saved = c.saved := rfl
@[simp] theorem Context.cqPop_savedAsid (c : Context) (n : Nat) : (c.cqPop n).savedAsid = c.savedAsid := rfl
@[simp] theorem Context.cqPop_fused (c : Context) (n : Nat) : (c.cqPop n).fused = c.fused := rfl
@[simp] theorem Context.cqPop_regs (c : Context) (n : Nat) : (c.cqPop n).regs = c.regs := rfl
@[simp] theorem Context.cqPop_pc (c : Context) (n : Nat) : (c.cqPop n).pc = c.pc := rfl
@[simp] theorem Context.cqPop_level (c : Context) (n : Nat) : (c.cqPop n).level = c.level := rfl
@[simp] theorem Context.cqPop_loops (c : Context) (n : Nat) : (c.cqPop n).loops = c.loops := rfl
@[simp] theorem Context.cqPop_cq (c : Context) (n : Nat) : (c.cqPop n).cq = c.cq.drop n := rfl
@[simp] theorem Context.cqPop_z (c : Context) (n : Nat) : (c.cqPop n).z = c.z := rfl
@[simp] theorem Context.cqPop_sticky (c : Context) (n : Nat) : (c.cqPop n).sticky = c.sticky := rfl
@[simp] theorem Context.cqPop_suspended (c : Context) (n : Nat) : (c.cqPop n).suspended = c.suspended := rfl
@[simp] theorem Context.cqPop_streams (c : Context) (n : Nat) : (c.cqPop n).streams = c.streams := rfl
@[simp] theorem Context.cqPop_tickets (c : Context) (n : Nat) : (c.cqPop n).tickets = c.tickets := rfl
@[simp] theorem Context.cqPop_rep (c : Context) (n : Nat) : (c.cqPop n).rep = c.rep := rfl
@[simp] theorem Context.cqPop_cur (c : Context) (n : Nat) : (c.cqPop n).cur = c.cur := rfl
@[simp] theorem Context.cqPop_dsc (c : Context) (n : Nat) : (c.cqPop n).dsc = c.dsc := rfl
@[simp] theorem Context.cqPop_target (c : Context) (n : Nat) : (c.cqPop n).target = c.target := rfl
@[simp] theorem Context.cqPop_late (c : Context) (n : Nat) : (c.cqPop n).late = c.late := rfl
@[simp] theorem Context.cqPop_cellRegs (c : Context) (n : Nat) : (c.cqPop n).cellRegs = c.cellRegs := rfl
@[simp] theorem Context.cqPop_issues (c : Context) (n : Nat) : (c.cqPop n).issues = c.issues := rfl
@[simp] theorem Context.cqPop_cycle (c : Context) (n : Nat) : (c.cqPop n).cycle = c.cycle := rfl
@[simp] theorem Context.cqPop_timer (c : Context) (n : Nat) : (c.cqPop n).timer = c.timer := rfl
@[simp] theorem Context.cqPop_tag (c : Context) (n : Nat) : (c.cqPop n).tag = c.tag := rfl
@[simp] theorem Context.cqPop_cmdSeq (c : Context) (n : Nat) : (c.cqPop n).cmdSeq = c.cmdSeq := rfl
@[simp] theorem Context.cqPop_freeW0 (c : Context) (n : Nat) : (c.cqPop n).freeW0 = c.freeW0 := rfl
@[simp] theorem Context.cqPop_freeW1 (c : Context) (n : Nat) : (c.cqPop n).freeW1 = c.freeW1 := rfl
@[simp] theorem Context.cqPop_freeM (c : Context) (n : Nat) : (c.cqPop n).freeM = c.freeM := rfl
@[simp] theorem Context.cqPop_stepping (c : Context) (n : Nat) : (c.cqPop n).stepping = c.stepping := rfl
@[simp] theorem Context.cqPop_trapDue (c : Context) (n : Nat) : (c.cqPop n).trapDue = c.trapDue := rfl
@[simp] theorem Context.cqPop_goto (c : Context) (n : Nat) : (c.cqPop n).goto = c.goto := rfl
@[simp] theorem Context.cqPop_yielded (c : Context) (n : Nat) : (c.cqPop n).yielded = c.yielded := rfl
@[simp] theorem Context.cqPop_landPoint (c : Context) (n : Nat) : (c.cqPop n).landPoint = c.landPoint := rfl
@[simp] theorem Context.cqPop_inWaitq (c : Context) (n : Nat) : (c.cqPop n).inWaitq = c.inWaitq := rfl
@[simp] theorem Context.cqPop_polls (c : Context) (n : Nat) : (c.cqPop n).polls = c.polls := rfl
@[simp] theorem Context.cqPop_half (c : Context) (n : Nat) : (c.cqPop n).half = c.half := rfl
@[simp] theorem Context.cqPop_doomed (c : Context) (n : Nat) : (c.cqPop n).doomed = c.doomed := rfl
@[simp] theorem Context.cqPop_pend (c : Context) (n : Nat) : (c.cqPop n).pend = c.pend := rfl
@[simp] theorem Context.cqPop_faggs (c : Context) (n : Nat) : (c.cqPop n).faggs = c.faggs := rfl
@[simp] theorem Context.cqPop_dripFlights (c : Context) (n : Nat) : (c.cqPop n).dripFlights = c.dripFlights := rfl
@[simp] theorem Context.cqPop_faults (c : Context) (n : Nat) : (c.cqPop n).faults = c.faults := rfl
@[simp] theorem Context.cqPop_reports (c : Context) (n : Nat) : (c.cqPop n).reports = c.reports := rfl
@[simp] theorem Context.cqPop_qops (c : Context) (n : Nat) : (c.cqPop n).qops = c.qops := rfl
@[simp] theorem Context.cqPop_drip (c : Context) (n : Nat) : (c.cqPop n).drip = c.drip := rfl
@[simp] theorem Context.cqPop_dripHalf (c : Context) (n : Nat) : (c.cqPop n).dripHalf = c.dripHalf := rfl
@[simp] theorem Context.cqPop_mshp (c : Context) (n : Nat) : (c.cqPop n).mshp = c.mshp := rfl
@[simp] theorem Context.cqPop_fnver (c : Context) (n : Nat) : (c.cqPop n).fnver = c.fnver := rfl
@[simp] theorem Context.cqPop_dtmask (c : Context) (n : Nat) : (c.cqPop n).dtmask = c.dtmask := rfl
@[simp] theorem Context.cqPop_dtlost (c : Context) (n : Nat) : (c.cqPop n).dtlost = c.dtlost := rfl
@[simp] theorem Context.cqPop_sgeoa (c : Context) (n : Nat) : (c.cqPop n).sgeoa = c.sgeoa := rfl
@[simp] theorem Context.cqPop_sgeob (c : Context) (n : Nat) : (c.cqPop n).sgeob = c.sgeob := rfl
@[simp] theorem Context.cqPop_scrlo (c : Context) (n : Nat) : (c.cqPop n).scrlo = c.scrlo := rfl
@[simp] theorem Context.cqPop_scrhi (c : Context) (n : Nat) : (c.cqPop n).scrhi = c.scrhi := rfl
@[simp] theorem Context.cqPop_asid (c : Context) (n : Nat) : (c.cqPop n).asid = c.asid := rfl
@[simp] theorem Context.cqPop_ttbase (c : Context) (n : Nat) : (c.cqPop n).ttbase = c.ttbase := rfl
@[simp] theorem Context.cqPop_ctxid (c : Context) (n : Nat) : (c.cqPop n).ctxid = c.ctxid := rfl
@[simp] theorem Context.cqPop_chainlat (c : Context) (n : Nat) : (c.cqPop n).chainlat = c.chainlat := rfl
@[simp] theorem Context.cqPop_tvec (c : Context) (n : Nat) : (c.cqPop n).tvec = c.tvec := rfl
@[simp] theorem Context.cqPop_tcause (c : Context) (n : Nat) : (c.cqPop n).tcause = c.tcause := rfl
@[simp] theorem Context.cqPop_tepc (c : Context) (n : Nat) : (c.cqPop n).tepc = c.tepc := rfl
@[simp] theorem Context.cqPop_tdsc (c : Context) (n : Nat) : (c.cqPop n).tdsc = c.tdsc := rfl
@[simp] theorem Context.cqPop_tbtgt (c : Context) (n : Nat) : (c.cqPop n).tbtgt = c.tbtgt := rfl
@[simp] theorem Context.cqPop_trep (c : Context) (n : Nat) : (c.cqPop n).trep = c.trep := rfl
@[simp] theorem Context.cqPop_tinfo (c : Context) (n : Nat) : (c.cqPop n).tinfo = c.tinfo := rfl
@[simp] theorem Context.cqPop_cells (c : Context) (n : Nat) : (c.cqPop n).cells = c.cells := rfl
@[simp] theorem Context.cqPop_cellErrs (c : Context) (n : Nat) : (c.cqPop n).cellErrs = c.cellErrs := rfl
@[simp] theorem Context.cqPop_hatches (c : Context) (n : Nat) : (c.cqPop n).hatches = c.hatches := rfl
@[simp] theorem Context.cqPop_cmds (c : Context) (n : Nat) : (c.cqPop n).cmds = c.cmds := rfl
@[simp] theorem Context.cqPop_groups (c : Context) (n : Nat) : (c.cqPop n).groups = c.groups := rfl
@[simp] theorem Context.cqPop_groupOps (c : Context) (n : Nat) : (c.cqPop n).groupOps = c.groupOps := rfl
@[simp] theorem Context.cqPop_bars (c : Context) (n : Nat) : (c.cqPop n).bars = c.bars := rfl
@[simp] theorem Context.cqPop_scratch (c : Context) (n : Nat) : (c.cqPop n).scratch = c.scratch := rfl
@[simp] theorem Context.cqPop_scratchPoi (c : Context) (n : Nat) : (c.cqPop n).scratchPoi = c.scratchPoi := rfl
@[simp] theorem Context.cqPop_blocks (c : Context) (n : Nat) : (c.cqPop n).blocks = c.blocks := rfl
@[simp] theorem Context.cqPop_descLo (c : Context) (n : Nat) : (c.cqPop n).descLo = c.descLo := rfl
@[simp] theorem Context.cqPop_descHi (c : Context) (n : Nat) : (c.cqPop n).descHi = c.descHi := rfl
@[simp] theorem Context.cqPop_exitVal (c : Context) (n : Nat) : (c.cqPop n).exitVal = c.exitVal := rfl

/-! ### `Context.cqReserve` -/

@[simp] theorem Context.cqReserve_status (c : Context) (v : Option Bool) : (c.cqReserve v).status = c.status := rfl
@[simp] theorem Context.cqReserve_lnum (c : Context) (v : Option Bool) : (c.cqReserve v).lnum = c.lnum := rfl
@[simp] theorem Context.cqReserve_stage (c : Context) (v : Option Bool) : (c.cqReserve v).stage = c.stage := rfl
@[simp] theorem Context.cqReserve_inst (c : Context) (v : Option Bool) : (c.cqReserve v).inst = c.inst := rfl
@[simp] theorem Context.cqReserve_rank (c : Context) (v : Option Bool) : (c.cqReserve v).rank = c.rank := rfl
@[simp] theorem Context.cqReserve_brigade (c : Context) (v : Option Bool) : (c.cqReserve v).brigade = c.brigade := rfl
@[simp] theorem Context.cqReserve_chainLen (c : Context) (v : Option Bool) : (c.cqReserve v).chainLen = c.chainLen := rfl
@[simp] theorem Context.cqReserve_foot (c : Context) (v : Option Bool) : (c.cqReserve v).foot = c.foot := rfl
@[simp] theorem Context.cqReserve_array (c : Context) (v : Option Bool) : (c.cqReserve v).array = c.array := rfl
@[simp] theorem Context.cqReserve_active (c : Context) (v : Option Bool) : (c.cqReserve v).active = c.active := rfl
@[simp] theorem Context.cqReserve_lastArray (c : Context) (v : Option Bool) : (c.cqReserve v).lastArray = c.lastArray := rfl
@[simp] theorem Context.cqReserve_request (c : Context) (v : Option Bool) : (c.cqReserve v).request = c.request := rfl
@[simp] theorem Context.cqReserve_saved (c : Context) (v : Option Bool) : (c.cqReserve v).saved = c.saved := rfl
@[simp] theorem Context.cqReserve_savedAsid (c : Context) (v : Option Bool) : (c.cqReserve v).savedAsid = c.savedAsid := rfl
@[simp] theorem Context.cqReserve_fused (c : Context) (v : Option Bool) : (c.cqReserve v).fused = c.fused := rfl
@[simp] theorem Context.cqReserve_regs (c : Context) (v : Option Bool) : (c.cqReserve v).regs = c.regs := rfl
@[simp] theorem Context.cqReserve_pc (c : Context) (v : Option Bool) : (c.cqReserve v).pc = c.pc := rfl
@[simp] theorem Context.cqReserve_level (c : Context) (v : Option Bool) : (c.cqReserve v).level = c.level := rfl
@[simp] theorem Context.cqReserve_loops (c : Context) (v : Option Bool) : (c.cqReserve v).loops = c.loops := rfl
@[simp] theorem Context.cqReserve_cq (c : Context) (v : Option Bool) : (c.cqReserve v).cq = c.cq ++ [{ tag := c.tag, val := v, poi := false }] := rfl
@[simp] theorem Context.cqReserve_z (c : Context) (v : Option Bool) : (c.cqReserve v).z = c.z := rfl
@[simp] theorem Context.cqReserve_sticky (c : Context) (v : Option Bool) : (c.cqReserve v).sticky = c.sticky := rfl
@[simp] theorem Context.cqReserve_suspended (c : Context) (v : Option Bool) : (c.cqReserve v).suspended = c.suspended := rfl
@[simp] theorem Context.cqReserve_streams (c : Context) (v : Option Bool) : (c.cqReserve v).streams = c.streams := rfl
@[simp] theorem Context.cqReserve_tickets (c : Context) (v : Option Bool) : (c.cqReserve v).tickets = c.tickets := rfl
@[simp] theorem Context.cqReserve_rep (c : Context) (v : Option Bool) : (c.cqReserve v).rep = c.rep := rfl
@[simp] theorem Context.cqReserve_cur (c : Context) (v : Option Bool) : (c.cqReserve v).cur = c.cur := rfl
@[simp] theorem Context.cqReserve_dsc (c : Context) (v : Option Bool) : (c.cqReserve v).dsc = c.dsc := rfl
@[simp] theorem Context.cqReserve_target (c : Context) (v : Option Bool) : (c.cqReserve v).target = c.target := rfl
@[simp] theorem Context.cqReserve_late (c : Context) (v : Option Bool) : (c.cqReserve v).late = c.late := rfl
@[simp] theorem Context.cqReserve_cellRegs (c : Context) (v : Option Bool) : (c.cqReserve v).cellRegs = c.cellRegs := rfl
@[simp] theorem Context.cqReserve_issues (c : Context) (v : Option Bool) : (c.cqReserve v).issues = c.issues := rfl
@[simp] theorem Context.cqReserve_cycle (c : Context) (v : Option Bool) : (c.cqReserve v).cycle = c.cycle := rfl
@[simp] theorem Context.cqReserve_timer (c : Context) (v : Option Bool) : (c.cqReserve v).timer = c.timer := rfl
@[simp] theorem Context.cqReserve_tag (c : Context) (v : Option Bool) : (c.cqReserve v).tag = c.tag + 1 := rfl
@[simp] theorem Context.cqReserve_cmdSeq (c : Context) (v : Option Bool) : (c.cqReserve v).cmdSeq = c.cmdSeq := rfl
@[simp] theorem Context.cqReserve_freeW0 (c : Context) (v : Option Bool) : (c.cqReserve v).freeW0 = c.freeW0 := rfl
@[simp] theorem Context.cqReserve_freeW1 (c : Context) (v : Option Bool) : (c.cqReserve v).freeW1 = c.freeW1 := rfl
@[simp] theorem Context.cqReserve_freeM (c : Context) (v : Option Bool) : (c.cqReserve v).freeM = c.freeM := rfl
@[simp] theorem Context.cqReserve_stepping (c : Context) (v : Option Bool) : (c.cqReserve v).stepping = c.stepping := rfl
@[simp] theorem Context.cqReserve_trapDue (c : Context) (v : Option Bool) : (c.cqReserve v).trapDue = c.trapDue := rfl
@[simp] theorem Context.cqReserve_goto (c : Context) (v : Option Bool) : (c.cqReserve v).goto = c.goto := rfl
@[simp] theorem Context.cqReserve_yielded (c : Context) (v : Option Bool) : (c.cqReserve v).yielded = c.yielded := rfl
@[simp] theorem Context.cqReserve_landPoint (c : Context) (v : Option Bool) : (c.cqReserve v).landPoint = c.landPoint := rfl
@[simp] theorem Context.cqReserve_inWaitq (c : Context) (v : Option Bool) : (c.cqReserve v).inWaitq = c.inWaitq := rfl
@[simp] theorem Context.cqReserve_polls (c : Context) (v : Option Bool) : (c.cqReserve v).polls = c.polls := rfl
@[simp] theorem Context.cqReserve_half (c : Context) (v : Option Bool) : (c.cqReserve v).half = c.half := rfl
@[simp] theorem Context.cqReserve_doomed (c : Context) (v : Option Bool) : (c.cqReserve v).doomed = c.doomed := rfl
@[simp] theorem Context.cqReserve_pend (c : Context) (v : Option Bool) : (c.cqReserve v).pend = c.pend := rfl
@[simp] theorem Context.cqReserve_faggs (c : Context) (v : Option Bool) : (c.cqReserve v).faggs = c.faggs := rfl
@[simp] theorem Context.cqReserve_dripFlights (c : Context) (v : Option Bool) : (c.cqReserve v).dripFlights = c.dripFlights := rfl
@[simp] theorem Context.cqReserve_faults (c : Context) (v : Option Bool) : (c.cqReserve v).faults = c.faults := rfl
@[simp] theorem Context.cqReserve_reports (c : Context) (v : Option Bool) : (c.cqReserve v).reports = c.reports := rfl
@[simp] theorem Context.cqReserve_qops (c : Context) (v : Option Bool) : (c.cqReserve v).qops = c.qops := rfl
@[simp] theorem Context.cqReserve_drip (c : Context) (v : Option Bool) : (c.cqReserve v).drip = c.drip := rfl
@[simp] theorem Context.cqReserve_dripHalf (c : Context) (v : Option Bool) : (c.cqReserve v).dripHalf = c.dripHalf := rfl
@[simp] theorem Context.cqReserve_mshp (c : Context) (v : Option Bool) : (c.cqReserve v).mshp = c.mshp := rfl
@[simp] theorem Context.cqReserve_fnver (c : Context) (v : Option Bool) : (c.cqReserve v).fnver = c.fnver := rfl
@[simp] theorem Context.cqReserve_dtmask (c : Context) (v : Option Bool) : (c.cqReserve v).dtmask = c.dtmask := rfl
@[simp] theorem Context.cqReserve_dtlost (c : Context) (v : Option Bool) : (c.cqReserve v).dtlost = c.dtlost := rfl
@[simp] theorem Context.cqReserve_sgeoa (c : Context) (v : Option Bool) : (c.cqReserve v).sgeoa = c.sgeoa := rfl
@[simp] theorem Context.cqReserve_sgeob (c : Context) (v : Option Bool) : (c.cqReserve v).sgeob = c.sgeob := rfl
@[simp] theorem Context.cqReserve_scrlo (c : Context) (v : Option Bool) : (c.cqReserve v).scrlo = c.scrlo := rfl
@[simp] theorem Context.cqReserve_scrhi (c : Context) (v : Option Bool) : (c.cqReserve v).scrhi = c.scrhi := rfl
@[simp] theorem Context.cqReserve_asid (c : Context) (v : Option Bool) : (c.cqReserve v).asid = c.asid := rfl
@[simp] theorem Context.cqReserve_ttbase (c : Context) (v : Option Bool) : (c.cqReserve v).ttbase = c.ttbase := rfl
@[simp] theorem Context.cqReserve_ctxid (c : Context) (v : Option Bool) : (c.cqReserve v).ctxid = c.ctxid := rfl
@[simp] theorem Context.cqReserve_chainlat (c : Context) (v : Option Bool) : (c.cqReserve v).chainlat = c.chainlat := rfl
@[simp] theorem Context.cqReserve_tvec (c : Context) (v : Option Bool) : (c.cqReserve v).tvec = c.tvec := rfl
@[simp] theorem Context.cqReserve_tcause (c : Context) (v : Option Bool) : (c.cqReserve v).tcause = c.tcause := rfl
@[simp] theorem Context.cqReserve_tepc (c : Context) (v : Option Bool) : (c.cqReserve v).tepc = c.tepc := rfl
@[simp] theorem Context.cqReserve_tdsc (c : Context) (v : Option Bool) : (c.cqReserve v).tdsc = c.tdsc := rfl
@[simp] theorem Context.cqReserve_tbtgt (c : Context) (v : Option Bool) : (c.cqReserve v).tbtgt = c.tbtgt := rfl
@[simp] theorem Context.cqReserve_trep (c : Context) (v : Option Bool) : (c.cqReserve v).trep = c.trep := rfl
@[simp] theorem Context.cqReserve_tinfo (c : Context) (v : Option Bool) : (c.cqReserve v).tinfo = c.tinfo := rfl
@[simp] theorem Context.cqReserve_cells (c : Context) (v : Option Bool) : (c.cqReserve v).cells = c.cells := rfl
@[simp] theorem Context.cqReserve_cellErrs (c : Context) (v : Option Bool) : (c.cqReserve v).cellErrs = c.cellErrs := rfl
@[simp] theorem Context.cqReserve_hatches (c : Context) (v : Option Bool) : (c.cqReserve v).hatches = c.hatches := rfl
@[simp] theorem Context.cqReserve_cmds (c : Context) (v : Option Bool) : (c.cqReserve v).cmds = c.cmds := rfl
@[simp] theorem Context.cqReserve_groups (c : Context) (v : Option Bool) : (c.cqReserve v).groups = c.groups := rfl
@[simp] theorem Context.cqReserve_groupOps (c : Context) (v : Option Bool) : (c.cqReserve v).groupOps = c.groupOps := rfl
@[simp] theorem Context.cqReserve_bars (c : Context) (v : Option Bool) : (c.cqReserve v).bars = c.bars := rfl
@[simp] theorem Context.cqReserve_scratch (c : Context) (v : Option Bool) : (c.cqReserve v).scratch = c.scratch := rfl
@[simp] theorem Context.cqReserve_scratchPoi (c : Context) (v : Option Bool) : (c.cqReserve v).scratchPoi = c.scratchPoi := rfl
@[simp] theorem Context.cqReserve_blocks (c : Context) (v : Option Bool) : (c.cqReserve v).blocks = c.blocks := rfl
@[simp] theorem Context.cqReserve_descLo (c : Context) (v : Option Bool) : (c.cqReserve v).descLo = c.descLo := rfl
@[simp] theorem Context.cqReserve_descHi (c : Context) (v : Option Bool) : (c.cqReserve v).descHi = c.descHi := rfl
@[simp] theorem Context.cqReserve_exitVal (c : Context) (v : Option Bool) : (c.cqReserve v).exitVal = c.exitVal := rfl

/-! ### `Context.popStream` -/

@[simp] theorem Context.popStream_status (c : Context) (n : Fin 16) : (c.popStream n).status = c.status := rfl
@[simp] theorem Context.popStream_lnum (c : Context) (n : Fin 16) : (c.popStream n).lnum = c.lnum := rfl
@[simp] theorem Context.popStream_stage (c : Context) (n : Fin 16) : (c.popStream n).stage = c.stage := rfl
@[simp] theorem Context.popStream_inst (c : Context) (n : Fin 16) : (c.popStream n).inst = c.inst := rfl
@[simp] theorem Context.popStream_rank (c : Context) (n : Fin 16) : (c.popStream n).rank = c.rank := rfl
@[simp] theorem Context.popStream_brigade (c : Context) (n : Fin 16) : (c.popStream n).brigade = c.brigade := rfl
@[simp] theorem Context.popStream_chainLen (c : Context) (n : Fin 16) : (c.popStream n).chainLen = c.chainLen := rfl
@[simp] theorem Context.popStream_foot (c : Context) (n : Fin 16) : (c.popStream n).foot = c.foot := rfl
@[simp] theorem Context.popStream_array (c : Context) (n : Fin 16) : (c.popStream n).array = c.array := rfl
@[simp] theorem Context.popStream_active (c : Context) (n : Fin 16) : (c.popStream n).active = c.active := rfl
@[simp] theorem Context.popStream_lastArray (c : Context) (n : Fin 16) : (c.popStream n).lastArray = c.lastArray := rfl
@[simp] theorem Context.popStream_request (c : Context) (n : Fin 16) : (c.popStream n).request = c.request := rfl
@[simp] theorem Context.popStream_saved (c : Context) (n : Fin 16) : (c.popStream n).saved = c.saved := rfl
@[simp] theorem Context.popStream_savedAsid (c : Context) (n : Fin 16) : (c.popStream n).savedAsid = c.savedAsid := rfl
@[simp] theorem Context.popStream_fused (c : Context) (n : Fin 16) : (c.popStream n).fused = c.fused := rfl
@[simp] theorem Context.popStream_regs (c : Context) (n : Fin 16) : (c.popStream n).regs = c.regs := rfl
@[simp] theorem Context.popStream_pc (c : Context) (n : Fin 16) : (c.popStream n).pc = c.pc := rfl
@[simp] theorem Context.popStream_level (c : Context) (n : Fin 16) : (c.popStream n).level = c.level := rfl
@[simp] theorem Context.popStream_loops (c : Context) (n : Fin 16) : (c.popStream n).loops = c.loops := rfl
@[simp] theorem Context.popStream_cq (c : Context) (n : Fin 16) : (c.popStream n).cq = c.cq := rfl
@[simp] theorem Context.popStream_z (c : Context) (n : Fin 16) : (c.popStream n).z = c.z := rfl
@[simp] theorem Context.popStream_sticky (c : Context) (n : Fin 16) : (c.popStream n).sticky = c.sticky := rfl
@[simp] theorem Context.popStream_suspended (c : Context) (n : Fin 16) : (c.popStream n).suspended = c.suspended := rfl
@[simp] theorem Context.popStream_tickets (c : Context) (n : Fin 16) : (c.popStream n).tickets = c.tickets := rfl
@[simp] theorem Context.popStream_rep (c : Context) (n : Fin 16) : (c.popStream n).rep = c.rep := rfl
@[simp] theorem Context.popStream_cur (c : Context) (n : Fin 16) : (c.popStream n).cur = c.cur := rfl
@[simp] theorem Context.popStream_dsc (c : Context) (n : Fin 16) : (c.popStream n).dsc = c.dsc := rfl
@[simp] theorem Context.popStream_target (c : Context) (n : Fin 16) : (c.popStream n).target = c.target := rfl
@[simp] theorem Context.popStream_late (c : Context) (n : Fin 16) : (c.popStream n).late = c.late := rfl
@[simp] theorem Context.popStream_cellRegs (c : Context) (n : Fin 16) : (c.popStream n).cellRegs = c.cellRegs := rfl
@[simp] theorem Context.popStream_issues (c : Context) (n : Fin 16) : (c.popStream n).issues = c.issues := rfl
@[simp] theorem Context.popStream_cycle (c : Context) (n : Fin 16) : (c.popStream n).cycle = c.cycle := rfl
@[simp] theorem Context.popStream_timer (c : Context) (n : Fin 16) : (c.popStream n).timer = c.timer := rfl
@[simp] theorem Context.popStream_tag (c : Context) (n : Fin 16) : (c.popStream n).tag = c.tag := rfl
@[simp] theorem Context.popStream_cmdSeq (c : Context) (n : Fin 16) : (c.popStream n).cmdSeq = c.cmdSeq := rfl
@[simp] theorem Context.popStream_freeW0 (c : Context) (n : Fin 16) : (c.popStream n).freeW0 = c.freeW0 := rfl
@[simp] theorem Context.popStream_freeW1 (c : Context) (n : Fin 16) : (c.popStream n).freeW1 = c.freeW1 := rfl
@[simp] theorem Context.popStream_freeM (c : Context) (n : Fin 16) : (c.popStream n).freeM = c.freeM := rfl
@[simp] theorem Context.popStream_stepping (c : Context) (n : Fin 16) : (c.popStream n).stepping = c.stepping := rfl
@[simp] theorem Context.popStream_trapDue (c : Context) (n : Fin 16) : (c.popStream n).trapDue = c.trapDue := rfl
@[simp] theorem Context.popStream_goto (c : Context) (n : Fin 16) : (c.popStream n).goto = c.goto := rfl
@[simp] theorem Context.popStream_yielded (c : Context) (n : Fin 16) : (c.popStream n).yielded = c.yielded := rfl
@[simp] theorem Context.popStream_landPoint (c : Context) (n : Fin 16) : (c.popStream n).landPoint = c.landPoint := rfl
@[simp] theorem Context.popStream_inWaitq (c : Context) (n : Fin 16) : (c.popStream n).inWaitq = c.inWaitq := rfl
@[simp] theorem Context.popStream_polls (c : Context) (n : Fin 16) : (c.popStream n).polls = c.polls := rfl
@[simp] theorem Context.popStream_half (c : Context) (n : Fin 16) : (c.popStream n).half = c.half := rfl
@[simp] theorem Context.popStream_doomed (c : Context) (n : Fin 16) : (c.popStream n).doomed = c.doomed := rfl
@[simp] theorem Context.popStream_pend (c : Context) (n : Fin 16) : (c.popStream n).pend = c.pend := rfl
@[simp] theorem Context.popStream_faggs (c : Context) (n : Fin 16) : (c.popStream n).faggs = c.faggs := rfl
@[simp] theorem Context.popStream_dripFlights (c : Context) (n : Fin 16) : (c.popStream n).dripFlights = c.dripFlights := rfl
@[simp] theorem Context.popStream_faults (c : Context) (n : Fin 16) : (c.popStream n).faults = c.faults := rfl
@[simp] theorem Context.popStream_reports (c : Context) (n : Fin 16) : (c.popStream n).reports = c.reports := rfl
@[simp] theorem Context.popStream_qops (c : Context) (n : Fin 16) : (c.popStream n).qops = c.qops := rfl
@[simp] theorem Context.popStream_drip (c : Context) (n : Fin 16) : (c.popStream n).drip = c.drip := rfl
@[simp] theorem Context.popStream_dripHalf (c : Context) (n : Fin 16) : (c.popStream n).dripHalf = c.dripHalf := rfl
@[simp] theorem Context.popStream_mshp (c : Context) (n : Fin 16) : (c.popStream n).mshp = c.mshp := rfl
@[simp] theorem Context.popStream_fnver (c : Context) (n : Fin 16) : (c.popStream n).fnver = c.fnver := rfl
@[simp] theorem Context.popStream_dtmask (c : Context) (n : Fin 16) : (c.popStream n).dtmask = c.dtmask := rfl
@[simp] theorem Context.popStream_dtlost (c : Context) (n : Fin 16) : (c.popStream n).dtlost = c.dtlost := rfl
@[simp] theorem Context.popStream_sgeoa (c : Context) (n : Fin 16) : (c.popStream n).sgeoa = c.sgeoa := rfl
@[simp] theorem Context.popStream_sgeob (c : Context) (n : Fin 16) : (c.popStream n).sgeob = c.sgeob := rfl
@[simp] theorem Context.popStream_scrlo (c : Context) (n : Fin 16) : (c.popStream n).scrlo = c.scrlo := rfl
@[simp] theorem Context.popStream_scrhi (c : Context) (n : Fin 16) : (c.popStream n).scrhi = c.scrhi := rfl
@[simp] theorem Context.popStream_asid (c : Context) (n : Fin 16) : (c.popStream n).asid = c.asid := rfl
@[simp] theorem Context.popStream_ttbase (c : Context) (n : Fin 16) : (c.popStream n).ttbase = c.ttbase := rfl
@[simp] theorem Context.popStream_ctxid (c : Context) (n : Fin 16) : (c.popStream n).ctxid = c.ctxid := rfl
@[simp] theorem Context.popStream_chainlat (c : Context) (n : Fin 16) : (c.popStream n).chainlat = c.chainlat := rfl
@[simp] theorem Context.popStream_tvec (c : Context) (n : Fin 16) : (c.popStream n).tvec = c.tvec := rfl
@[simp] theorem Context.popStream_tcause (c : Context) (n : Fin 16) : (c.popStream n).tcause = c.tcause := rfl
@[simp] theorem Context.popStream_tepc (c : Context) (n : Fin 16) : (c.popStream n).tepc = c.tepc := rfl
@[simp] theorem Context.popStream_tdsc (c : Context) (n : Fin 16) : (c.popStream n).tdsc = c.tdsc := rfl
@[simp] theorem Context.popStream_tbtgt (c : Context) (n : Fin 16) : (c.popStream n).tbtgt = c.tbtgt := rfl
@[simp] theorem Context.popStream_trep (c : Context) (n : Fin 16) : (c.popStream n).trep = c.trep := rfl
@[simp] theorem Context.popStream_tinfo (c : Context) (n : Fin 16) : (c.popStream n).tinfo = c.tinfo := rfl
@[simp] theorem Context.popStream_cells (c : Context) (n : Fin 16) : (c.popStream n).cells = c.cells := rfl
@[simp] theorem Context.popStream_cellErrs (c : Context) (n : Fin 16) : (c.popStream n).cellErrs = c.cellErrs := rfl
@[simp] theorem Context.popStream_hatches (c : Context) (n : Fin 16) : (c.popStream n).hatches = c.hatches := rfl
@[simp] theorem Context.popStream_cmds (c : Context) (n : Fin 16) : (c.popStream n).cmds = c.cmds := rfl
@[simp] theorem Context.popStream_groups (c : Context) (n : Fin 16) : (c.popStream n).groups = c.groups := rfl
@[simp] theorem Context.popStream_groupOps (c : Context) (n : Fin 16) : (c.popStream n).groupOps = c.groupOps := rfl
@[simp] theorem Context.popStream_bars (c : Context) (n : Fin 16) : (c.popStream n).bars = c.bars := rfl
@[simp] theorem Context.popStream_scratch (c : Context) (n : Fin 16) : (c.popStream n).scratch = c.scratch := rfl
@[simp] theorem Context.popStream_scratchPoi (c : Context) (n : Fin 16) : (c.popStream n).scratchPoi = c.scratchPoi := rfl
@[simp] theorem Context.popStream_blocks (c : Context) (n : Fin 16) : (c.popStream n).blocks = c.blocks := rfl
@[simp] theorem Context.popStream_descLo (c : Context) (n : Fin 16) : (c.popStream n).descLo = c.descLo := rfl
@[simp] theorem Context.popStream_descHi (c : Context) (n : Fin 16) : (c.popStream n).descHi = c.descHi := rfl
@[simp] theorem Context.popStream_exitVal (c : Context) (n : Fin 16) : (c.popStream n).exitVal = c.exitVal := rfl

/-! ### `Context.pushStream` -/

@[simp] theorem Context.pushStream_status (c : Context) (n : Fin 16) (e : StreamElem) : (c.pushStream n e).status = c.status := rfl
@[simp] theorem Context.pushStream_lnum (c : Context) (n : Fin 16) (e : StreamElem) : (c.pushStream n e).lnum = c.lnum := rfl
@[simp] theorem Context.pushStream_stage (c : Context) (n : Fin 16) (e : StreamElem) : (c.pushStream n e).stage = c.stage := rfl
@[simp] theorem Context.pushStream_inst (c : Context) (n : Fin 16) (e : StreamElem) : (c.pushStream n e).inst = c.inst := rfl
@[simp] theorem Context.pushStream_rank (c : Context) (n : Fin 16) (e : StreamElem) : (c.pushStream n e).rank = c.rank := rfl
@[simp] theorem Context.pushStream_brigade (c : Context) (n : Fin 16) (e : StreamElem) : (c.pushStream n e).brigade = c.brigade := rfl
@[simp] theorem Context.pushStream_chainLen (c : Context) (n : Fin 16) (e : StreamElem) : (c.pushStream n e).chainLen = c.chainLen := rfl
@[simp] theorem Context.pushStream_foot (c : Context) (n : Fin 16) (e : StreamElem) : (c.pushStream n e).foot = c.foot := rfl
@[simp] theorem Context.pushStream_array (c : Context) (n : Fin 16) (e : StreamElem) : (c.pushStream n e).array = c.array := rfl
@[simp] theorem Context.pushStream_active (c : Context) (n : Fin 16) (e : StreamElem) : (c.pushStream n e).active = c.active := rfl
@[simp] theorem Context.pushStream_lastArray (c : Context) (n : Fin 16) (e : StreamElem) : (c.pushStream n e).lastArray = c.lastArray := rfl
@[simp] theorem Context.pushStream_request (c : Context) (n : Fin 16) (e : StreamElem) : (c.pushStream n e).request = c.request := rfl
@[simp] theorem Context.pushStream_saved (c : Context) (n : Fin 16) (e : StreamElem) : (c.pushStream n e).saved = c.saved := rfl
@[simp] theorem Context.pushStream_savedAsid (c : Context) (n : Fin 16) (e : StreamElem) : (c.pushStream n e).savedAsid = c.savedAsid := rfl
@[simp] theorem Context.pushStream_fused (c : Context) (n : Fin 16) (e : StreamElem) : (c.pushStream n e).fused = c.fused := rfl
@[simp] theorem Context.pushStream_regs (c : Context) (n : Fin 16) (e : StreamElem) : (c.pushStream n e).regs = c.regs := rfl
@[simp] theorem Context.pushStream_pc (c : Context) (n : Fin 16) (e : StreamElem) : (c.pushStream n e).pc = c.pc := rfl
@[simp] theorem Context.pushStream_level (c : Context) (n : Fin 16) (e : StreamElem) : (c.pushStream n e).level = c.level := rfl
@[simp] theorem Context.pushStream_loops (c : Context) (n : Fin 16) (e : StreamElem) : (c.pushStream n e).loops = c.loops := rfl
@[simp] theorem Context.pushStream_cq (c : Context) (n : Fin 16) (e : StreamElem) : (c.pushStream n e).cq = c.cq := rfl
@[simp] theorem Context.pushStream_z (c : Context) (n : Fin 16) (e : StreamElem) : (c.pushStream n e).z = c.z := rfl
@[simp] theorem Context.pushStream_sticky (c : Context) (n : Fin 16) (e : StreamElem) : (c.pushStream n e).sticky = c.sticky := rfl
@[simp] theorem Context.pushStream_suspended (c : Context) (n : Fin 16) (e : StreamElem) : (c.pushStream n e).suspended = c.suspended := rfl
@[simp] theorem Context.pushStream_tickets (c : Context) (n : Fin 16) (e : StreamElem) : (c.pushStream n e).tickets = c.tickets := rfl
@[simp] theorem Context.pushStream_rep (c : Context) (n : Fin 16) (e : StreamElem) : (c.pushStream n e).rep = c.rep := rfl
@[simp] theorem Context.pushStream_cur (c : Context) (n : Fin 16) (e : StreamElem) : (c.pushStream n e).cur = c.cur := rfl
@[simp] theorem Context.pushStream_dsc (c : Context) (n : Fin 16) (e : StreamElem) : (c.pushStream n e).dsc = c.dsc := rfl
@[simp] theorem Context.pushStream_target (c : Context) (n : Fin 16) (e : StreamElem) : (c.pushStream n e).target = c.target := rfl
@[simp] theorem Context.pushStream_late (c : Context) (n : Fin 16) (e : StreamElem) : (c.pushStream n e).late = c.late := rfl
@[simp] theorem Context.pushStream_cellRegs (c : Context) (n : Fin 16) (e : StreamElem) : (c.pushStream n e).cellRegs = c.cellRegs := rfl
@[simp] theorem Context.pushStream_issues (c : Context) (n : Fin 16) (e : StreamElem) : (c.pushStream n e).issues = c.issues := rfl
@[simp] theorem Context.pushStream_cycle (c : Context) (n : Fin 16) (e : StreamElem) : (c.pushStream n e).cycle = c.cycle := rfl
@[simp] theorem Context.pushStream_timer (c : Context) (n : Fin 16) (e : StreamElem) : (c.pushStream n e).timer = c.timer := rfl
@[simp] theorem Context.pushStream_tag (c : Context) (n : Fin 16) (e : StreamElem) : (c.pushStream n e).tag = c.tag := rfl
@[simp] theorem Context.pushStream_cmdSeq (c : Context) (n : Fin 16) (e : StreamElem) : (c.pushStream n e).cmdSeq = c.cmdSeq := rfl
@[simp] theorem Context.pushStream_freeW0 (c : Context) (n : Fin 16) (e : StreamElem) : (c.pushStream n e).freeW0 = c.freeW0 := rfl
@[simp] theorem Context.pushStream_freeW1 (c : Context) (n : Fin 16) (e : StreamElem) : (c.pushStream n e).freeW1 = c.freeW1 := rfl
@[simp] theorem Context.pushStream_freeM (c : Context) (n : Fin 16) (e : StreamElem) : (c.pushStream n e).freeM = c.freeM := rfl
@[simp] theorem Context.pushStream_stepping (c : Context) (n : Fin 16) (e : StreamElem) : (c.pushStream n e).stepping = c.stepping := rfl
@[simp] theorem Context.pushStream_trapDue (c : Context) (n : Fin 16) (e : StreamElem) : (c.pushStream n e).trapDue = c.trapDue := rfl
@[simp] theorem Context.pushStream_goto (c : Context) (n : Fin 16) (e : StreamElem) : (c.pushStream n e).goto = c.goto := rfl
@[simp] theorem Context.pushStream_yielded (c : Context) (n : Fin 16) (e : StreamElem) : (c.pushStream n e).yielded = c.yielded := rfl
@[simp] theorem Context.pushStream_landPoint (c : Context) (n : Fin 16) (e : StreamElem) : (c.pushStream n e).landPoint = c.landPoint := rfl
@[simp] theorem Context.pushStream_inWaitq (c : Context) (n : Fin 16) (e : StreamElem) : (c.pushStream n e).inWaitq = c.inWaitq := rfl
@[simp] theorem Context.pushStream_polls (c : Context) (n : Fin 16) (e : StreamElem) : (c.pushStream n e).polls = c.polls := rfl
@[simp] theorem Context.pushStream_half (c : Context) (n : Fin 16) (e : StreamElem) : (c.pushStream n e).half = c.half := rfl
@[simp] theorem Context.pushStream_doomed (c : Context) (n : Fin 16) (e : StreamElem) : (c.pushStream n e).doomed = c.doomed := rfl
@[simp] theorem Context.pushStream_pend (c : Context) (n : Fin 16) (e : StreamElem) : (c.pushStream n e).pend = c.pend := rfl
@[simp] theorem Context.pushStream_faggs (c : Context) (n : Fin 16) (e : StreamElem) : (c.pushStream n e).faggs = c.faggs := rfl
@[simp] theorem Context.pushStream_dripFlights (c : Context) (n : Fin 16) (e : StreamElem) : (c.pushStream n e).dripFlights = c.dripFlights := rfl
@[simp] theorem Context.pushStream_faults (c : Context) (n : Fin 16) (e : StreamElem) : (c.pushStream n e).faults = c.faults := rfl
@[simp] theorem Context.pushStream_reports (c : Context) (n : Fin 16) (e : StreamElem) : (c.pushStream n e).reports = c.reports := rfl
@[simp] theorem Context.pushStream_qops (c : Context) (n : Fin 16) (e : StreamElem) : (c.pushStream n e).qops = c.qops := rfl
@[simp] theorem Context.pushStream_drip (c : Context) (n : Fin 16) (e : StreamElem) : (c.pushStream n e).drip = c.drip := rfl
@[simp] theorem Context.pushStream_dripHalf (c : Context) (n : Fin 16) (e : StreamElem) : (c.pushStream n e).dripHalf = c.dripHalf := rfl
@[simp] theorem Context.pushStream_mshp (c : Context) (n : Fin 16) (e : StreamElem) : (c.pushStream n e).mshp = c.mshp := rfl
@[simp] theorem Context.pushStream_fnver (c : Context) (n : Fin 16) (e : StreamElem) : (c.pushStream n e).fnver = c.fnver := rfl
@[simp] theorem Context.pushStream_dtmask (c : Context) (n : Fin 16) (e : StreamElem) : (c.pushStream n e).dtmask = c.dtmask := rfl
@[simp] theorem Context.pushStream_dtlost (c : Context) (n : Fin 16) (e : StreamElem) : (c.pushStream n e).dtlost = c.dtlost := rfl
@[simp] theorem Context.pushStream_sgeoa (c : Context) (n : Fin 16) (e : StreamElem) : (c.pushStream n e).sgeoa = c.sgeoa := rfl
@[simp] theorem Context.pushStream_sgeob (c : Context) (n : Fin 16) (e : StreamElem) : (c.pushStream n e).sgeob = c.sgeob := rfl
@[simp] theorem Context.pushStream_scrlo (c : Context) (n : Fin 16) (e : StreamElem) : (c.pushStream n e).scrlo = c.scrlo := rfl
@[simp] theorem Context.pushStream_scrhi (c : Context) (n : Fin 16) (e : StreamElem) : (c.pushStream n e).scrhi = c.scrhi := rfl
@[simp] theorem Context.pushStream_asid (c : Context) (n : Fin 16) (e : StreamElem) : (c.pushStream n e).asid = c.asid := rfl
@[simp] theorem Context.pushStream_ttbase (c : Context) (n : Fin 16) (e : StreamElem) : (c.pushStream n e).ttbase = c.ttbase := rfl
@[simp] theorem Context.pushStream_ctxid (c : Context) (n : Fin 16) (e : StreamElem) : (c.pushStream n e).ctxid = c.ctxid := rfl
@[simp] theorem Context.pushStream_chainlat (c : Context) (n : Fin 16) (e : StreamElem) : (c.pushStream n e).chainlat = c.chainlat := rfl
@[simp] theorem Context.pushStream_tvec (c : Context) (n : Fin 16) (e : StreamElem) : (c.pushStream n e).tvec = c.tvec := rfl
@[simp] theorem Context.pushStream_tcause (c : Context) (n : Fin 16) (e : StreamElem) : (c.pushStream n e).tcause = c.tcause := rfl
@[simp] theorem Context.pushStream_tepc (c : Context) (n : Fin 16) (e : StreamElem) : (c.pushStream n e).tepc = c.tepc := rfl
@[simp] theorem Context.pushStream_tdsc (c : Context) (n : Fin 16) (e : StreamElem) : (c.pushStream n e).tdsc = c.tdsc := rfl
@[simp] theorem Context.pushStream_tbtgt (c : Context) (n : Fin 16) (e : StreamElem) : (c.pushStream n e).tbtgt = c.tbtgt := rfl
@[simp] theorem Context.pushStream_trep (c : Context) (n : Fin 16) (e : StreamElem) : (c.pushStream n e).trep = c.trep := rfl
@[simp] theorem Context.pushStream_tinfo (c : Context) (n : Fin 16) (e : StreamElem) : (c.pushStream n e).tinfo = c.tinfo := rfl
@[simp] theorem Context.pushStream_cells (c : Context) (n : Fin 16) (e : StreamElem) : (c.pushStream n e).cells = c.cells := rfl
@[simp] theorem Context.pushStream_cellErrs (c : Context) (n : Fin 16) (e : StreamElem) : (c.pushStream n e).cellErrs = c.cellErrs := rfl
@[simp] theorem Context.pushStream_hatches (c : Context) (n : Fin 16) (e : StreamElem) : (c.pushStream n e).hatches = c.hatches := rfl
@[simp] theorem Context.pushStream_cmds (c : Context) (n : Fin 16) (e : StreamElem) : (c.pushStream n e).cmds = c.cmds := rfl
@[simp] theorem Context.pushStream_groups (c : Context) (n : Fin 16) (e : StreamElem) : (c.pushStream n e).groups = c.groups := rfl
@[simp] theorem Context.pushStream_groupOps (c : Context) (n : Fin 16) (e : StreamElem) : (c.pushStream n e).groupOps = c.groupOps := rfl
@[simp] theorem Context.pushStream_bars (c : Context) (n : Fin 16) (e : StreamElem) : (c.pushStream n e).bars = c.bars := rfl
@[simp] theorem Context.pushStream_scratch (c : Context) (n : Fin 16) (e : StreamElem) : (c.pushStream n e).scratch = c.scratch := rfl
@[simp] theorem Context.pushStream_scratchPoi (c : Context) (n : Fin 16) (e : StreamElem) : (c.pushStream n e).scratchPoi = c.scratchPoi := rfl
@[simp] theorem Context.pushStream_blocks (c : Context) (n : Fin 16) (e : StreamElem) : (c.pushStream n e).blocks = c.blocks := rfl
@[simp] theorem Context.pushStream_descLo (c : Context) (n : Fin 16) (e : StreamElem) : (c.pushStream n e).descLo = c.descLo := rfl
@[simp] theorem Context.pushStream_descHi (c : Context) (n : Fin 16) (e : StreamElem) : (c.pushStream n e).descHi = c.descHi := rfl
@[simp] theorem Context.pushStream_exitVal (c : Context) (n : Fin 16) (e : StreamElem) : (c.pushStream n e).exitVal = c.exitVal := rfl

/-! ### `Context.owe` -/

@[simp] theorem Context.owe_status (c : Context) (p : Pending) : (c.owe p).status = c.status := rfl
@[simp] theorem Context.owe_lnum (c : Context) (p : Pending) : (c.owe p).lnum = c.lnum := rfl
@[simp] theorem Context.owe_stage (c : Context) (p : Pending) : (c.owe p).stage = c.stage := rfl
@[simp] theorem Context.owe_inst (c : Context) (p : Pending) : (c.owe p).inst = c.inst := rfl
@[simp] theorem Context.owe_rank (c : Context) (p : Pending) : (c.owe p).rank = c.rank := rfl
@[simp] theorem Context.owe_brigade (c : Context) (p : Pending) : (c.owe p).brigade = c.brigade := rfl
@[simp] theorem Context.owe_chainLen (c : Context) (p : Pending) : (c.owe p).chainLen = c.chainLen := rfl
@[simp] theorem Context.owe_foot (c : Context) (p : Pending) : (c.owe p).foot = c.foot := rfl
@[simp] theorem Context.owe_array (c : Context) (p : Pending) : (c.owe p).array = c.array := rfl
@[simp] theorem Context.owe_active (c : Context) (p : Pending) : (c.owe p).active = c.active := rfl
@[simp] theorem Context.owe_lastArray (c : Context) (p : Pending) : (c.owe p).lastArray = c.lastArray := rfl
@[simp] theorem Context.owe_request (c : Context) (p : Pending) : (c.owe p).request = c.request := rfl
@[simp] theorem Context.owe_saved (c : Context) (p : Pending) : (c.owe p).saved = c.saved := rfl
@[simp] theorem Context.owe_savedAsid (c : Context) (p : Pending) : (c.owe p).savedAsid = c.savedAsid := rfl
@[simp] theorem Context.owe_fused (c : Context) (p : Pending) : (c.owe p).fused = c.fused := rfl
@[simp] theorem Context.owe_regs (c : Context) (p : Pending) : (c.owe p).regs = c.regs := rfl
@[simp] theorem Context.owe_pc (c : Context) (p : Pending) : (c.owe p).pc = c.pc := rfl
@[simp] theorem Context.owe_level (c : Context) (p : Pending) : (c.owe p).level = c.level := rfl
@[simp] theorem Context.owe_loops (c : Context) (p : Pending) : (c.owe p).loops = c.loops := rfl
@[simp] theorem Context.owe_cq (c : Context) (p : Pending) : (c.owe p).cq = c.cq := rfl
@[simp] theorem Context.owe_z (c : Context) (p : Pending) : (c.owe p).z = c.z := rfl
@[simp] theorem Context.owe_sticky (c : Context) (p : Pending) : (c.owe p).sticky = c.sticky := rfl
@[simp] theorem Context.owe_suspended (c : Context) (p : Pending) : (c.owe p).suspended = c.suspended := rfl
@[simp] theorem Context.owe_streams (c : Context) (p : Pending) : (c.owe p).streams = c.streams := rfl
@[simp] theorem Context.owe_tickets (c : Context) (p : Pending) : (c.owe p).tickets = c.tickets := rfl
@[simp] theorem Context.owe_rep (c : Context) (p : Pending) : (c.owe p).rep = c.rep := rfl
@[simp] theorem Context.owe_cur (c : Context) (p : Pending) : (c.owe p).cur = c.cur := rfl
@[simp] theorem Context.owe_dsc (c : Context) (p : Pending) : (c.owe p).dsc = c.dsc := rfl
@[simp] theorem Context.owe_target (c : Context) (p : Pending) : (c.owe p).target = c.target := rfl
@[simp] theorem Context.owe_late (c : Context) (p : Pending) : (c.owe p).late = c.late := rfl
@[simp] theorem Context.owe_cellRegs (c : Context) (p : Pending) : (c.owe p).cellRegs = c.cellRegs := rfl
@[simp] theorem Context.owe_issues (c : Context) (p : Pending) : (c.owe p).issues = c.issues := rfl
@[simp] theorem Context.owe_cycle (c : Context) (p : Pending) : (c.owe p).cycle = c.cycle := rfl
@[simp] theorem Context.owe_timer (c : Context) (p : Pending) : (c.owe p).timer = c.timer := rfl
@[simp] theorem Context.owe_tag (c : Context) (p : Pending) : (c.owe p).tag = c.tag := rfl
@[simp] theorem Context.owe_cmdSeq (c : Context) (p : Pending) : (c.owe p).cmdSeq = c.cmdSeq := rfl
@[simp] theorem Context.owe_freeW0 (c : Context) (p : Pending) : (c.owe p).freeW0 = c.freeW0 := rfl
@[simp] theorem Context.owe_freeW1 (c : Context) (p : Pending) : (c.owe p).freeW1 = c.freeW1 := rfl
@[simp] theorem Context.owe_freeM (c : Context) (p : Pending) : (c.owe p).freeM = c.freeM := rfl
@[simp] theorem Context.owe_stepping (c : Context) (p : Pending) : (c.owe p).stepping = c.stepping := rfl
@[simp] theorem Context.owe_trapDue (c : Context) (p : Pending) : (c.owe p).trapDue = c.trapDue := rfl
@[simp] theorem Context.owe_goto (c : Context) (p : Pending) : (c.owe p).goto = c.goto := rfl
@[simp] theorem Context.owe_yielded (c : Context) (p : Pending) : (c.owe p).yielded = c.yielded := rfl
@[simp] theorem Context.owe_landPoint (c : Context) (p : Pending) : (c.owe p).landPoint = c.landPoint := rfl
@[simp] theorem Context.owe_inWaitq (c : Context) (p : Pending) : (c.owe p).inWaitq = c.inWaitq := rfl
@[simp] theorem Context.owe_polls (c : Context) (p : Pending) : (c.owe p).polls = c.polls := rfl
@[simp] theorem Context.owe_half (c : Context) (p : Pending) : (c.owe p).half = c.half := rfl
@[simp] theorem Context.owe_doomed (c : Context) (p : Pending) : (c.owe p).doomed = c.doomed := rfl
@[simp] theorem Context.owe_pend (c : Context) (p : Pending) : (c.owe p).pend = c.pend ++ [p] := rfl
@[simp] theorem Context.owe_faggs (c : Context) (p : Pending) : (c.owe p).faggs = c.faggs := rfl
@[simp] theorem Context.owe_dripFlights (c : Context) (p : Pending) : (c.owe p).dripFlights = c.dripFlights := rfl
@[simp] theorem Context.owe_faults (c : Context) (p : Pending) : (c.owe p).faults = c.faults := rfl
@[simp] theorem Context.owe_reports (c : Context) (p : Pending) : (c.owe p).reports = c.reports := rfl
@[simp] theorem Context.owe_qops (c : Context) (p : Pending) : (c.owe p).qops = c.qops := rfl
@[simp] theorem Context.owe_drip (c : Context) (p : Pending) : (c.owe p).drip = c.drip := rfl
@[simp] theorem Context.owe_dripHalf (c : Context) (p : Pending) : (c.owe p).dripHalf = c.dripHalf := rfl
@[simp] theorem Context.owe_mshp (c : Context) (p : Pending) : (c.owe p).mshp = c.mshp := rfl
@[simp] theorem Context.owe_fnver (c : Context) (p : Pending) : (c.owe p).fnver = c.fnver := rfl
@[simp] theorem Context.owe_dtmask (c : Context) (p : Pending) : (c.owe p).dtmask = c.dtmask := rfl
@[simp] theorem Context.owe_dtlost (c : Context) (p : Pending) : (c.owe p).dtlost = c.dtlost := rfl
@[simp] theorem Context.owe_sgeoa (c : Context) (p : Pending) : (c.owe p).sgeoa = c.sgeoa := rfl
@[simp] theorem Context.owe_sgeob (c : Context) (p : Pending) : (c.owe p).sgeob = c.sgeob := rfl
@[simp] theorem Context.owe_scrlo (c : Context) (p : Pending) : (c.owe p).scrlo = c.scrlo := rfl
@[simp] theorem Context.owe_scrhi (c : Context) (p : Pending) : (c.owe p).scrhi = c.scrhi := rfl
@[simp] theorem Context.owe_asid (c : Context) (p : Pending) : (c.owe p).asid = c.asid := rfl
@[simp] theorem Context.owe_ttbase (c : Context) (p : Pending) : (c.owe p).ttbase = c.ttbase := rfl
@[simp] theorem Context.owe_ctxid (c : Context) (p : Pending) : (c.owe p).ctxid = c.ctxid := rfl
@[simp] theorem Context.owe_chainlat (c : Context) (p : Pending) : (c.owe p).chainlat = c.chainlat := rfl
@[simp] theorem Context.owe_tvec (c : Context) (p : Pending) : (c.owe p).tvec = c.tvec := rfl
@[simp] theorem Context.owe_tcause (c : Context) (p : Pending) : (c.owe p).tcause = c.tcause := rfl
@[simp] theorem Context.owe_tepc (c : Context) (p : Pending) : (c.owe p).tepc = c.tepc := rfl
@[simp] theorem Context.owe_tdsc (c : Context) (p : Pending) : (c.owe p).tdsc = c.tdsc := rfl
@[simp] theorem Context.owe_tbtgt (c : Context) (p : Pending) : (c.owe p).tbtgt = c.tbtgt := rfl
@[simp] theorem Context.owe_trep (c : Context) (p : Pending) : (c.owe p).trep = c.trep := rfl
@[simp] theorem Context.owe_tinfo (c : Context) (p : Pending) : (c.owe p).tinfo = c.tinfo := rfl
@[simp] theorem Context.owe_cells (c : Context) (p : Pending) : (c.owe p).cells = c.cells := rfl
@[simp] theorem Context.owe_cellErrs (c : Context) (p : Pending) : (c.owe p).cellErrs = c.cellErrs := rfl
@[simp] theorem Context.owe_hatches (c : Context) (p : Pending) : (c.owe p).hatches = c.hatches := rfl
@[simp] theorem Context.owe_cmds (c : Context) (p : Pending) : (c.owe p).cmds = c.cmds := rfl
@[simp] theorem Context.owe_groups (c : Context) (p : Pending) : (c.owe p).groups = c.groups := rfl
@[simp] theorem Context.owe_groupOps (c : Context) (p : Pending) : (c.owe p).groupOps = c.groupOps := rfl
@[simp] theorem Context.owe_bars (c : Context) (p : Pending) : (c.owe p).bars = c.bars := rfl
@[simp] theorem Context.owe_scratch (c : Context) (p : Pending) : (c.owe p).scratch = c.scratch := rfl
@[simp] theorem Context.owe_scratchPoi (c : Context) (p : Pending) : (c.owe p).scratchPoi = c.scratchPoi := rfl
@[simp] theorem Context.owe_blocks (c : Context) (p : Pending) : (c.owe p).blocks = c.blocks := rfl
@[simp] theorem Context.owe_descLo (c : Context) (p : Pending) : (c.owe p).descLo = c.descLo := rfl
@[simp] theorem Context.owe_descHi (c : Context) (p : Pending) : (c.owe p).descHi = c.descHi := rfl
@[simp] theorem Context.owe_exitVal (c : Context) (p : Pending) : (c.owe p).exitVal = c.exitVal := rfl

/-! ### `Context.setReg` and `Context.dripRead` -/

@[simp] theorem Context.setReg_status (c : Context) (n : Fin 48) (w : Word) : (c.setReg n w).status = c.status := by
  unfold Context.setReg; split <;> rfl
@[simp] theorem Context.setReg_lnum (c : Context) (n : Fin 48) (w : Word) : (c.setReg n w).lnum = c.lnum := by
  unfold Context.setReg; split <;> rfl
@[simp] theorem Context.setReg_stage (c : Context) (n : Fin 48) (w : Word) : (c.setReg n w).stage = c.stage := by
  unfold Context.setReg; split <;> rfl
@[simp] theorem Context.setReg_inst (c : Context) (n : Fin 48) (w : Word) : (c.setReg n w).inst = c.inst := by
  unfold Context.setReg; split <;> rfl
@[simp] theorem Context.setReg_rank (c : Context) (n : Fin 48) (w : Word) : (c.setReg n w).rank = c.rank := by
  unfold Context.setReg; split <;> rfl
@[simp] theorem Context.setReg_brigade (c : Context) (n : Fin 48) (w : Word) : (c.setReg n w).brigade = c.brigade := by
  unfold Context.setReg; split <;> rfl
@[simp] theorem Context.setReg_chainLen (c : Context) (n : Fin 48) (w : Word) : (c.setReg n w).chainLen = c.chainLen := by
  unfold Context.setReg; split <;> rfl
@[simp] theorem Context.setReg_foot (c : Context) (n : Fin 48) (w : Word) : (c.setReg n w).foot = c.foot := by
  unfold Context.setReg; split <;> rfl
@[simp] theorem Context.setReg_array (c : Context) (n : Fin 48) (w : Word) : (c.setReg n w).array = c.array := by
  unfold Context.setReg; split <;> rfl
@[simp] theorem Context.setReg_active (c : Context) (n : Fin 48) (w : Word) : (c.setReg n w).active = c.active := by
  unfold Context.setReg; split <;> rfl
@[simp] theorem Context.setReg_lastArray (c : Context) (n : Fin 48) (w : Word) : (c.setReg n w).lastArray = c.lastArray := by
  unfold Context.setReg; split <;> rfl
@[simp] theorem Context.setReg_request (c : Context) (n : Fin 48) (w : Word) : (c.setReg n w).request = c.request := by
  unfold Context.setReg; split <;> rfl
@[simp] theorem Context.setReg_saved (c : Context) (n : Fin 48) (w : Word) : (c.setReg n w).saved = c.saved := by
  unfold Context.setReg; split <;> rfl
@[simp] theorem Context.setReg_savedAsid (c : Context) (n : Fin 48) (w : Word) : (c.setReg n w).savedAsid = c.savedAsid := by
  unfold Context.setReg; split <;> rfl
@[simp] theorem Context.setReg_fused (c : Context) (n : Fin 48) (w : Word) : (c.setReg n w).fused = c.fused := by
  unfold Context.setReg; split <;> rfl
@[simp] theorem Context.setReg_pc (c : Context) (n : Fin 48) (w : Word) : (c.setReg n w).pc = c.pc := by
  unfold Context.setReg; split <;> rfl
@[simp] theorem Context.setReg_level (c : Context) (n : Fin 48) (w : Word) : (c.setReg n w).level = c.level := by
  unfold Context.setReg; split <;> rfl
@[simp] theorem Context.setReg_loops (c : Context) (n : Fin 48) (w : Word) : (c.setReg n w).loops = c.loops := by
  unfold Context.setReg; split <;> rfl
@[simp] theorem Context.setReg_cq (c : Context) (n : Fin 48) (w : Word) : (c.setReg n w).cq = c.cq := by
  unfold Context.setReg; split <;> rfl
@[simp] theorem Context.setReg_z (c : Context) (n : Fin 48) (w : Word) : (c.setReg n w).z = c.z := by
  unfold Context.setReg; split <;> rfl
@[simp] theorem Context.setReg_sticky (c : Context) (n : Fin 48) (w : Word) : (c.setReg n w).sticky = c.sticky := by
  unfold Context.setReg; split <;> rfl
@[simp] theorem Context.setReg_suspended (c : Context) (n : Fin 48) (w : Word) : (c.setReg n w).suspended = c.suspended := by
  unfold Context.setReg; split <;> rfl
@[simp] theorem Context.setReg_streams (c : Context) (n : Fin 48) (w : Word) : (c.setReg n w).streams = c.streams := by
  unfold Context.setReg; split <;> rfl
@[simp] theorem Context.setReg_tickets (c : Context) (n : Fin 48) (w : Word) : (c.setReg n w).tickets = c.tickets := by
  unfold Context.setReg; split <;> rfl
@[simp] theorem Context.setReg_rep (c : Context) (n : Fin 48) (w : Word) : (c.setReg n w).rep = c.rep := by
  unfold Context.setReg; split <;> rfl
@[simp] theorem Context.setReg_cur (c : Context) (n : Fin 48) (w : Word) : (c.setReg n w).cur = c.cur := by
  unfold Context.setReg; split <;> rfl
@[simp] theorem Context.setReg_dsc (c : Context) (n : Fin 48) (w : Word) : (c.setReg n w).dsc = c.dsc := by
  unfold Context.setReg; split <;> rfl
@[simp] theorem Context.setReg_target (c : Context) (n : Fin 48) (w : Word) : (c.setReg n w).target = c.target := by
  unfold Context.setReg; split <;> rfl
@[simp] theorem Context.setReg_late (c : Context) (n : Fin 48) (w : Word) : (c.setReg n w).late = c.late := by
  unfold Context.setReg; split <;> rfl
@[simp] theorem Context.setReg_cellRegs (c : Context) (n : Fin 48) (w : Word) : (c.setReg n w).cellRegs = c.cellRegs := by
  unfold Context.setReg; split <;> rfl
@[simp] theorem Context.setReg_issues (c : Context) (n : Fin 48) (w : Word) : (c.setReg n w).issues = c.issues := by
  unfold Context.setReg; split <;> rfl
@[simp] theorem Context.setReg_cycle (c : Context) (n : Fin 48) (w : Word) : (c.setReg n w).cycle = c.cycle := by
  unfold Context.setReg; split <;> rfl
@[simp] theorem Context.setReg_timer (c : Context) (n : Fin 48) (w : Word) : (c.setReg n w).timer = c.timer := by
  unfold Context.setReg; split <;> rfl
@[simp] theorem Context.setReg_tag (c : Context) (n : Fin 48) (w : Word) : (c.setReg n w).tag = c.tag := by
  unfold Context.setReg; split <;> rfl
@[simp] theorem Context.setReg_cmdSeq (c : Context) (n : Fin 48) (w : Word) : (c.setReg n w).cmdSeq = c.cmdSeq := by
  unfold Context.setReg; split <;> rfl
@[simp] theorem Context.setReg_freeW0 (c : Context) (n : Fin 48) (w : Word) : (c.setReg n w).freeW0 = c.freeW0 := by
  unfold Context.setReg; split <;> rfl
@[simp] theorem Context.setReg_freeW1 (c : Context) (n : Fin 48) (w : Word) : (c.setReg n w).freeW1 = c.freeW1 := by
  unfold Context.setReg; split <;> rfl
@[simp] theorem Context.setReg_freeM (c : Context) (n : Fin 48) (w : Word) : (c.setReg n w).freeM = c.freeM := by
  unfold Context.setReg; split <;> rfl
@[simp] theorem Context.setReg_stepping (c : Context) (n : Fin 48) (w : Word) : (c.setReg n w).stepping = c.stepping := by
  unfold Context.setReg; split <;> rfl
@[simp] theorem Context.setReg_trapDue (c : Context) (n : Fin 48) (w : Word) : (c.setReg n w).trapDue = c.trapDue := by
  unfold Context.setReg; split <;> rfl
@[simp] theorem Context.setReg_goto (c : Context) (n : Fin 48) (w : Word) : (c.setReg n w).goto = c.goto := by
  unfold Context.setReg; split <;> rfl
@[simp] theorem Context.setReg_yielded (c : Context) (n : Fin 48) (w : Word) : (c.setReg n w).yielded = c.yielded := by
  unfold Context.setReg; split <;> rfl
@[simp] theorem Context.setReg_landPoint (c : Context) (n : Fin 48) (w : Word) : (c.setReg n w).landPoint = c.landPoint := by
  unfold Context.setReg; split <;> rfl
@[simp] theorem Context.setReg_inWaitq (c : Context) (n : Fin 48) (w : Word) : (c.setReg n w).inWaitq = c.inWaitq := by
  unfold Context.setReg; split <;> rfl
@[simp] theorem Context.setReg_polls (c : Context) (n : Fin 48) (w : Word) : (c.setReg n w).polls = c.polls := by
  unfold Context.setReg; split <;> rfl
@[simp] theorem Context.setReg_half (c : Context) (n : Fin 48) (w : Word) : (c.setReg n w).half = c.half := by
  unfold Context.setReg; split <;> rfl
@[simp] theorem Context.setReg_doomed (c : Context) (n : Fin 48) (w : Word) : (c.setReg n w).doomed = c.doomed := by
  unfold Context.setReg; split <;> rfl
@[simp] theorem Context.setReg_pend (c : Context) (n : Fin 48) (w : Word) : (c.setReg n w).pend = c.pend := by
  unfold Context.setReg; split <;> rfl
@[simp] theorem Context.setReg_faggs (c : Context) (n : Fin 48) (w : Word) : (c.setReg n w).faggs = c.faggs := by
  unfold Context.setReg; split <;> rfl
@[simp] theorem Context.setReg_dripFlights (c : Context) (n : Fin 48) (w : Word) : (c.setReg n w).dripFlights = c.dripFlights := by
  unfold Context.setReg; split <;> rfl
@[simp] theorem Context.setReg_faults (c : Context) (n : Fin 48) (w : Word) : (c.setReg n w).faults = c.faults := by
  unfold Context.setReg; split <;> rfl
@[simp] theorem Context.setReg_reports (c : Context) (n : Fin 48) (w : Word) : (c.setReg n w).reports = c.reports := by
  unfold Context.setReg; split <;> rfl
@[simp] theorem Context.setReg_qops (c : Context) (n : Fin 48) (w : Word) : (c.setReg n w).qops = c.qops := by
  unfold Context.setReg; split <;> rfl
@[simp] theorem Context.setReg_drip (c : Context) (n : Fin 48) (w : Word) : (c.setReg n w).drip = c.drip := by
  unfold Context.setReg; split <;> rfl
@[simp] theorem Context.setReg_dripHalf (c : Context) (n : Fin 48) (w : Word) : (c.setReg n w).dripHalf = c.dripHalf := by
  unfold Context.setReg; split <;> rfl
@[simp] theorem Context.setReg_mshp (c : Context) (n : Fin 48) (w : Word) : (c.setReg n w).mshp = c.mshp := by
  unfold Context.setReg; split <;> rfl
@[simp] theorem Context.setReg_fnver (c : Context) (n : Fin 48) (w : Word) : (c.setReg n w).fnver = c.fnver := by
  unfold Context.setReg; split <;> rfl
@[simp] theorem Context.setReg_dtmask (c : Context) (n : Fin 48) (w : Word) : (c.setReg n w).dtmask = c.dtmask := by
  unfold Context.setReg; split <;> rfl
@[simp] theorem Context.setReg_dtlost (c : Context) (n : Fin 48) (w : Word) : (c.setReg n w).dtlost = c.dtlost := by
  unfold Context.setReg; split <;> rfl
@[simp] theorem Context.setReg_sgeoa (c : Context) (n : Fin 48) (w : Word) : (c.setReg n w).sgeoa = c.sgeoa := by
  unfold Context.setReg; split <;> rfl
@[simp] theorem Context.setReg_sgeob (c : Context) (n : Fin 48) (w : Word) : (c.setReg n w).sgeob = c.sgeob := by
  unfold Context.setReg; split <;> rfl
@[simp] theorem Context.setReg_scrlo (c : Context) (n : Fin 48) (w : Word) : (c.setReg n w).scrlo = c.scrlo := by
  unfold Context.setReg; split <;> rfl
@[simp] theorem Context.setReg_scrhi (c : Context) (n : Fin 48) (w : Word) : (c.setReg n w).scrhi = c.scrhi := by
  unfold Context.setReg; split <;> rfl
@[simp] theorem Context.setReg_asid (c : Context) (n : Fin 48) (w : Word) : (c.setReg n w).asid = c.asid := by
  unfold Context.setReg; split <;> rfl
@[simp] theorem Context.setReg_ttbase (c : Context) (n : Fin 48) (w : Word) : (c.setReg n w).ttbase = c.ttbase := by
  unfold Context.setReg; split <;> rfl
@[simp] theorem Context.setReg_ctxid (c : Context) (n : Fin 48) (w : Word) : (c.setReg n w).ctxid = c.ctxid := by
  unfold Context.setReg; split <;> rfl
@[simp] theorem Context.setReg_chainlat (c : Context) (n : Fin 48) (w : Word) : (c.setReg n w).chainlat = c.chainlat := by
  unfold Context.setReg; split <;> rfl
@[simp] theorem Context.setReg_tvec (c : Context) (n : Fin 48) (w : Word) : (c.setReg n w).tvec = c.tvec := by
  unfold Context.setReg; split <;> rfl
@[simp] theorem Context.setReg_tcause (c : Context) (n : Fin 48) (w : Word) : (c.setReg n w).tcause = c.tcause := by
  unfold Context.setReg; split <;> rfl
@[simp] theorem Context.setReg_tepc (c : Context) (n : Fin 48) (w : Word) : (c.setReg n w).tepc = c.tepc := by
  unfold Context.setReg; split <;> rfl
@[simp] theorem Context.setReg_tdsc (c : Context) (n : Fin 48) (w : Word) : (c.setReg n w).tdsc = c.tdsc := by
  unfold Context.setReg; split <;> rfl
@[simp] theorem Context.setReg_tbtgt (c : Context) (n : Fin 48) (w : Word) : (c.setReg n w).tbtgt = c.tbtgt := by
  unfold Context.setReg; split <;> rfl
@[simp] theorem Context.setReg_trep (c : Context) (n : Fin 48) (w : Word) : (c.setReg n w).trep = c.trep := by
  unfold Context.setReg; split <;> rfl
@[simp] theorem Context.setReg_tinfo (c : Context) (n : Fin 48) (w : Word) : (c.setReg n w).tinfo = c.tinfo := by
  unfold Context.setReg; split <;> rfl
@[simp] theorem Context.setReg_cells (c : Context) (n : Fin 48) (w : Word) : (c.setReg n w).cells = c.cells := by
  unfold Context.setReg; split <;> rfl
@[simp] theorem Context.setReg_cellErrs (c : Context) (n : Fin 48) (w : Word) : (c.setReg n w).cellErrs = c.cellErrs := by
  unfold Context.setReg; split <;> rfl
@[simp] theorem Context.setReg_hatches (c : Context) (n : Fin 48) (w : Word) : (c.setReg n w).hatches = c.hatches := by
  unfold Context.setReg; split <;> rfl
@[simp] theorem Context.setReg_cmds (c : Context) (n : Fin 48) (w : Word) : (c.setReg n w).cmds = c.cmds := by
  unfold Context.setReg; split <;> rfl
@[simp] theorem Context.setReg_groups (c : Context) (n : Fin 48) (w : Word) : (c.setReg n w).groups = c.groups := by
  unfold Context.setReg; split <;> rfl
@[simp] theorem Context.setReg_groupOps (c : Context) (n : Fin 48) (w : Word) : (c.setReg n w).groupOps = c.groupOps := by
  unfold Context.setReg; split <;> rfl
@[simp] theorem Context.setReg_bars (c : Context) (n : Fin 48) (w : Word) : (c.setReg n w).bars = c.bars := by
  unfold Context.setReg; split <;> rfl
@[simp] theorem Context.setReg_scratch (c : Context) (n : Fin 48) (w : Word) : (c.setReg n w).scratch = c.scratch := by
  unfold Context.setReg; split <;> rfl
@[simp] theorem Context.setReg_scratchPoi (c : Context) (n : Fin 48) (w : Word) : (c.setReg n w).scratchPoi = c.scratchPoi := by
  unfold Context.setReg; split <;> rfl
@[simp] theorem Context.setReg_blocks (c : Context) (n : Fin 48) (w : Word) : (c.setReg n w).blocks = c.blocks := by
  unfold Context.setReg; split <;> rfl
@[simp] theorem Context.setReg_descLo (c : Context) (n : Fin 48) (w : Word) : (c.setReg n w).descLo = c.descLo := by
  unfold Context.setReg; split <;> rfl
@[simp] theorem Context.setReg_descHi (c : Context) (n : Fin 48) (w : Word) : (c.setReg n w).descHi = c.descHi := by
  unfold Context.setReg; split <;> rfl
@[simp] theorem Context.setReg_exitVal (c : Context) (n : Fin 48) (w : Word) : (c.setReg n w).exitVal = c.exitVal := by
  unfold Context.setReg; split <;> rfl
@[simp] theorem Context.dripRead_status (c : Context) : (c.dripRead.2).status = c.status := by
  unfold Context.dripRead; split <;> rfl
@[simp] theorem Context.dripRead_lnum (c : Context) : (c.dripRead.2).lnum = c.lnum := by
  unfold Context.dripRead; split <;> rfl
@[simp] theorem Context.dripRead_stage (c : Context) : (c.dripRead.2).stage = c.stage := by
  unfold Context.dripRead; split <;> rfl
@[simp] theorem Context.dripRead_inst (c : Context) : (c.dripRead.2).inst = c.inst := by
  unfold Context.dripRead; split <;> rfl
@[simp] theorem Context.dripRead_rank (c : Context) : (c.dripRead.2).rank = c.rank := by
  unfold Context.dripRead; split <;> rfl
@[simp] theorem Context.dripRead_brigade (c : Context) : (c.dripRead.2).brigade = c.brigade := by
  unfold Context.dripRead; split <;> rfl
@[simp] theorem Context.dripRead_chainLen (c : Context) : (c.dripRead.2).chainLen = c.chainLen := by
  unfold Context.dripRead; split <;> rfl
@[simp] theorem Context.dripRead_foot (c : Context) : (c.dripRead.2).foot = c.foot := by
  unfold Context.dripRead; split <;> rfl
@[simp] theorem Context.dripRead_array (c : Context) : (c.dripRead.2).array = c.array := by
  unfold Context.dripRead; split <;> rfl
@[simp] theorem Context.dripRead_active (c : Context) : (c.dripRead.2).active = c.active := by
  unfold Context.dripRead; split <;> rfl
@[simp] theorem Context.dripRead_lastArray (c : Context) : (c.dripRead.2).lastArray = c.lastArray := by
  unfold Context.dripRead; split <;> rfl
@[simp] theorem Context.dripRead_request (c : Context) : (c.dripRead.2).request = c.request := by
  unfold Context.dripRead; split <;> rfl
@[simp] theorem Context.dripRead_saved (c : Context) : (c.dripRead.2).saved = c.saved := by
  unfold Context.dripRead; split <;> rfl
@[simp] theorem Context.dripRead_savedAsid (c : Context) : (c.dripRead.2).savedAsid = c.savedAsid := by
  unfold Context.dripRead; split <;> rfl
@[simp] theorem Context.dripRead_fused (c : Context) : (c.dripRead.2).fused = c.fused := by
  unfold Context.dripRead; split <;> rfl
@[simp] theorem Context.dripRead_regs (c : Context) : (c.dripRead.2).regs = c.regs := by
  unfold Context.dripRead; split <;> rfl
@[simp] theorem Context.dripRead_pc (c : Context) : (c.dripRead.2).pc = c.pc := by
  unfold Context.dripRead; split <;> rfl
@[simp] theorem Context.dripRead_level (c : Context) : (c.dripRead.2).level = c.level := by
  unfold Context.dripRead; split <;> rfl
@[simp] theorem Context.dripRead_loops (c : Context) : (c.dripRead.2).loops = c.loops := by
  unfold Context.dripRead; split <;> rfl
@[simp] theorem Context.dripRead_cq (c : Context) : (c.dripRead.2).cq = c.cq := by
  unfold Context.dripRead; split <;> rfl
@[simp] theorem Context.dripRead_z (c : Context) : (c.dripRead.2).z = c.z := by
  unfold Context.dripRead; split <;> rfl
@[simp] theorem Context.dripRead_sticky (c : Context) : (c.dripRead.2).sticky = c.sticky := by
  unfold Context.dripRead; split <;> rfl
@[simp] theorem Context.dripRead_suspended (c : Context) : (c.dripRead.2).suspended = c.suspended := by
  unfold Context.dripRead; split <;> rfl
@[simp] theorem Context.dripRead_streams (c : Context) : (c.dripRead.2).streams = c.streams := by
  unfold Context.dripRead; split <;> rfl
@[simp] theorem Context.dripRead_tickets (c : Context) : (c.dripRead.2).tickets = c.tickets := by
  unfold Context.dripRead; split <;> rfl
@[simp] theorem Context.dripRead_rep (c : Context) : (c.dripRead.2).rep = c.rep := by
  unfold Context.dripRead; split <;> rfl
@[simp] theorem Context.dripRead_cur (c : Context) : (c.dripRead.2).cur = c.cur := by
  unfold Context.dripRead; split <;> rfl
@[simp] theorem Context.dripRead_dsc (c : Context) : (c.dripRead.2).dsc = c.dsc := by
  unfold Context.dripRead; split <;> rfl
@[simp] theorem Context.dripRead_target (c : Context) : (c.dripRead.2).target = c.target := by
  unfold Context.dripRead; split <;> rfl
@[simp] theorem Context.dripRead_late (c : Context) : (c.dripRead.2).late = c.late := by
  unfold Context.dripRead; split <;> rfl
@[simp] theorem Context.dripRead_cellRegs (c : Context) : (c.dripRead.2).cellRegs = c.cellRegs := by
  unfold Context.dripRead; split <;> rfl
@[simp] theorem Context.dripRead_issues (c : Context) : (c.dripRead.2).issues = c.issues := by
  unfold Context.dripRead; split <;> rfl
@[simp] theorem Context.dripRead_cycle (c : Context) : (c.dripRead.2).cycle = c.cycle := by
  unfold Context.dripRead; split <;> rfl
@[simp] theorem Context.dripRead_timer (c : Context) : (c.dripRead.2).timer = c.timer := by
  unfold Context.dripRead; split <;> rfl
@[simp] theorem Context.dripRead_tag (c : Context) : (c.dripRead.2).tag = c.tag := by
  unfold Context.dripRead; split <;> rfl
@[simp] theorem Context.dripRead_cmdSeq (c : Context) : (c.dripRead.2).cmdSeq = c.cmdSeq := by
  unfold Context.dripRead; split <;> rfl
@[simp] theorem Context.dripRead_freeW0 (c : Context) : (c.dripRead.2).freeW0 = c.freeW0 := by
  unfold Context.dripRead; split <;> rfl
@[simp] theorem Context.dripRead_freeW1 (c : Context) : (c.dripRead.2).freeW1 = c.freeW1 := by
  unfold Context.dripRead; split <;> rfl
@[simp] theorem Context.dripRead_freeM (c : Context) : (c.dripRead.2).freeM = c.freeM := by
  unfold Context.dripRead; split <;> rfl
@[simp] theorem Context.dripRead_stepping (c : Context) : (c.dripRead.2).stepping = c.stepping := by
  unfold Context.dripRead; split <;> rfl
@[simp] theorem Context.dripRead_trapDue (c : Context) : (c.dripRead.2).trapDue = c.trapDue := by
  unfold Context.dripRead; split <;> rfl
@[simp] theorem Context.dripRead_goto (c : Context) : (c.dripRead.2).goto = c.goto := by
  unfold Context.dripRead; split <;> rfl
@[simp] theorem Context.dripRead_yielded (c : Context) : (c.dripRead.2).yielded = c.yielded := by
  unfold Context.dripRead; split <;> rfl
@[simp] theorem Context.dripRead_landPoint (c : Context) : (c.dripRead.2).landPoint = c.landPoint := by
  unfold Context.dripRead; split <;> rfl
@[simp] theorem Context.dripRead_inWaitq (c : Context) : (c.dripRead.2).inWaitq = c.inWaitq := by
  unfold Context.dripRead; split <;> rfl
@[simp] theorem Context.dripRead_polls (c : Context) : (c.dripRead.2).polls = c.polls := by
  unfold Context.dripRead; split <;> rfl
@[simp] theorem Context.dripRead_half (c : Context) : (c.dripRead.2).half = c.half := by
  unfold Context.dripRead; split <;> rfl
@[simp] theorem Context.dripRead_doomed (c : Context) : (c.dripRead.2).doomed = c.doomed := by
  unfold Context.dripRead; split <;> rfl
@[simp] theorem Context.dripRead_pend (c : Context) : (c.dripRead.2).pend = c.pend := by
  unfold Context.dripRead; split <;> rfl
@[simp] theorem Context.dripRead_faggs (c : Context) : (c.dripRead.2).faggs = c.faggs := by
  unfold Context.dripRead; split <;> rfl
@[simp] theorem Context.dripRead_dripFlights (c : Context) : (c.dripRead.2).dripFlights = c.dripFlights := by
  unfold Context.dripRead; split <;> rfl
@[simp] theorem Context.dripRead_faults (c : Context) : (c.dripRead.2).faults = c.faults := by
  unfold Context.dripRead; split <;> rfl
@[simp] theorem Context.dripRead_reports (c : Context) : (c.dripRead.2).reports = c.reports := by
  unfold Context.dripRead; split <;> rfl
@[simp] theorem Context.dripRead_qops (c : Context) : (c.dripRead.2).qops = c.qops := by
  unfold Context.dripRead; split <;> rfl
@[simp] theorem Context.dripRead_mshp (c : Context) : (c.dripRead.2).mshp = c.mshp := by
  unfold Context.dripRead; split <;> rfl
@[simp] theorem Context.dripRead_fnver (c : Context) : (c.dripRead.2).fnver = c.fnver := by
  unfold Context.dripRead; split <;> rfl
@[simp] theorem Context.dripRead_dtmask (c : Context) : (c.dripRead.2).dtmask = c.dtmask := by
  unfold Context.dripRead; split <;> rfl
@[simp] theorem Context.dripRead_dtlost (c : Context) : (c.dripRead.2).dtlost = c.dtlost := by
  unfold Context.dripRead; split <;> rfl
@[simp] theorem Context.dripRead_sgeoa (c : Context) : (c.dripRead.2).sgeoa = c.sgeoa := by
  unfold Context.dripRead; split <;> rfl
@[simp] theorem Context.dripRead_sgeob (c : Context) : (c.dripRead.2).sgeob = c.sgeob := by
  unfold Context.dripRead; split <;> rfl
@[simp] theorem Context.dripRead_scrlo (c : Context) : (c.dripRead.2).scrlo = c.scrlo := by
  unfold Context.dripRead; split <;> rfl
@[simp] theorem Context.dripRead_scrhi (c : Context) : (c.dripRead.2).scrhi = c.scrhi := by
  unfold Context.dripRead; split <;> rfl
@[simp] theorem Context.dripRead_asid (c : Context) : (c.dripRead.2).asid = c.asid := by
  unfold Context.dripRead; split <;> rfl
@[simp] theorem Context.dripRead_ttbase (c : Context) : (c.dripRead.2).ttbase = c.ttbase := by
  unfold Context.dripRead; split <;> rfl
@[simp] theorem Context.dripRead_ctxid (c : Context) : (c.dripRead.2).ctxid = c.ctxid := by
  unfold Context.dripRead; split <;> rfl
@[simp] theorem Context.dripRead_chainlat (c : Context) : (c.dripRead.2).chainlat = c.chainlat := by
  unfold Context.dripRead; split <;> rfl
@[simp] theorem Context.dripRead_tvec (c : Context) : (c.dripRead.2).tvec = c.tvec := by
  unfold Context.dripRead; split <;> rfl
@[simp] theorem Context.dripRead_tcause (c : Context) : (c.dripRead.2).tcause = c.tcause := by
  unfold Context.dripRead; split <;> rfl
@[simp] theorem Context.dripRead_tepc (c : Context) : (c.dripRead.2).tepc = c.tepc := by
  unfold Context.dripRead; split <;> rfl
@[simp] theorem Context.dripRead_tdsc (c : Context) : (c.dripRead.2).tdsc = c.tdsc := by
  unfold Context.dripRead; split <;> rfl
@[simp] theorem Context.dripRead_tbtgt (c : Context) : (c.dripRead.2).tbtgt = c.tbtgt := by
  unfold Context.dripRead; split <;> rfl
@[simp] theorem Context.dripRead_trep (c : Context) : (c.dripRead.2).trep = c.trep := by
  unfold Context.dripRead; split <;> rfl
@[simp] theorem Context.dripRead_tinfo (c : Context) : (c.dripRead.2).tinfo = c.tinfo := by
  unfold Context.dripRead; split <;> rfl
@[simp] theorem Context.dripRead_cells (c : Context) : (c.dripRead.2).cells = c.cells := by
  unfold Context.dripRead; split <;> rfl
@[simp] theorem Context.dripRead_cellErrs (c : Context) : (c.dripRead.2).cellErrs = c.cellErrs := by
  unfold Context.dripRead; split <;> rfl
@[simp] theorem Context.dripRead_hatches (c : Context) : (c.dripRead.2).hatches = c.hatches := by
  unfold Context.dripRead; split <;> rfl
@[simp] theorem Context.dripRead_cmds (c : Context) : (c.dripRead.2).cmds = c.cmds := by
  unfold Context.dripRead; split <;> rfl
@[simp] theorem Context.dripRead_groups (c : Context) : (c.dripRead.2).groups = c.groups := by
  unfold Context.dripRead; split <;> rfl
@[simp] theorem Context.dripRead_groupOps (c : Context) : (c.dripRead.2).groupOps = c.groupOps := by
  unfold Context.dripRead; split <;> rfl
@[simp] theorem Context.dripRead_bars (c : Context) : (c.dripRead.2).bars = c.bars := by
  unfold Context.dripRead; split <;> rfl
@[simp] theorem Context.dripRead_scratch (c : Context) : (c.dripRead.2).scratch = c.scratch := by
  unfold Context.dripRead; split <;> rfl
@[simp] theorem Context.dripRead_scratchPoi (c : Context) : (c.dripRead.2).scratchPoi = c.scratchPoi := by
  unfold Context.dripRead; split <;> rfl
@[simp] theorem Context.dripRead_blocks (c : Context) : (c.dripRead.2).blocks = c.blocks := by
  unfold Context.dripRead; split <;> rfl
@[simp] theorem Context.dripRead_descLo (c : Context) : (c.dripRead.2).descLo = c.descLo := by
  unfold Context.dripRead; split <;> rfl
@[simp] theorem Context.dripRead_descHi (c : Context) : (c.dripRead.2).descHi = c.descHi := by
  unfold Context.dripRead; split <;> rfl
@[simp] theorem Context.dripRead_exitVal (c : Context) : (c.dripRead.2).exitVal = c.exitVal := by
  unfold Context.dripRead; split <;> rfl

end Sys2Proof.Machine
end

