-- ==== Sys2Proof/Laws/Operands.lean ====
section
/-! SUPPORT. Operands: what the checks of a list of operand fields see is what the fields deliver when they are taken, in order;
and a destination takes a result without touching anything else. -/

namespace Sys2Proof.Machine

/-! ### Checks -/

@[simp] theorem Verdict.andThen_go (v w : Verdict) : v.andThen w = .go ↔ v = .go ∧ w = .go := by
  cases v <;> simp [Verdict.andThen]

@[simp] theorem Verdict.all_nil : Verdict.all [] = .go := rfl

@[simp] theorem Verdict.all_cons_go (v : Verdict) (l : List Verdict) : Verdict.all (v :: l) = .go ↔ v = .go ∧ Verdict.all l = .go := by
  simp [Verdict.all]

@[simp] theorem trapIf_go (b : Prop) [Decidable b] (c : Nat) (i : Word) : trapIf b c i = .go ↔ ¬ b := by
  unfold trapIf
  split <;> simp [*]

@[simp] theorem holdIf_go (b : Prop) [Decidable b] : holdIf b = .go ↔ ¬ b := by
  unfold holdIf
  split <;> simp [*]

/-- A gated meaning whose check passes has its effect. -/
theorem gated_go {v : Verdict} (h : v = .go) (act : State → State) (s : State) : gated v act s = .next (act s) := by
  subst h
  rfl

theorem gated_trap {v : Verdict} {c : Nat} {i : Word} (h : v = .trap c i) (act : State → State) (s : State) :
    gated v act s = .next (s.takeTrap c i) := by
  subst h
  rfl

theorem gated_hold {v : Verdict} (h : v = .hold) (act : State → State) (s : State) : gated v act s = .next s.hold := by
  subst h
  rfl

/-- A gated meaning always answers a next state. -/
theorem gated_next (v : Verdict) (act : State → State) (s : State) : ∃ t, gated v act s = .next t := by
  cases v <;> exact ⟨_, rfl⟩

theorem elemAt_ne_go (q b : Nat) (e : Option StreamElem) : elemAt q b e ≠ .error .go := by
  unfold elemAt
  split <;> simp

theorem Context.peekStream_ne_go (c : Context) (n k : Nat) : c.peekStream n k ≠ .error .go := by
  unfold Context.peekStream
  dsimp only
  split
  · simp [streamTrap]
  split
  · simp
  split
  · simp [streamTrap]
  split
  · simp [streamTrap]
  split
  · rename_i h
    intro e
    cases e
    exact elemAt_ne_go _ _ _ h
  split
  · split
    · rename_i h
      intro e
      cases e
      exact elemAt_ne_go _ _ _ h
    · split <;> simp [streamTrap]
  · simp

theorem State.peek_ne_go (s : State) (cl : Claims) (o : Opnd) : s.peek cl o ≠ .error .go := by
  cases o with
  | s n => simp [State.peek]
  | q n =>
    unfold State.peek
    dsimp only
    split
    · simp
    · exact Context.peekStream_ne_go _ _ _

theorem State.peekAll_ne_go (s : State) : ∀ (cl : Claims) (l : List Opnd), s.peekAll cl l ≠ .error .go
  | _, [] => by simp [State.peekAll]
  | cl, o :: r => by
    unfold State.peekAll
    split
    · rename_i h
      intro e
      cases e
      exact State.peek_ne_go s cl o h
    · split
      · rename_i h
        intro e
        cases e
        exact State.peekAll_ne_go s _ r h
      · simp

theorem State.checkOpnds_go {s : State} {cl : Claims} {a d : List Opnd} :
    s.checkOpnds cl a d = .go ↔ (∃ ws, s.peekAll cl a = .ok ws) ∧ s.checkDests cl d = .go := by
  unfold State.checkOpnds
  split
  · rename_i v h
    constructor
    · intro e
      subst e
      exact absurd h (State.peekAll_ne_go s cl a)
    · rintro ⟨⟨ws, e⟩, _⟩
      rw [h] at e
      cases e
  · rename_i ws h
    simp [h]

/-! ### Taking what was seen -/

/-- `s` is `s0` after reads of the claims `cl`: what is seen from `s` with no claim is what is seen from `s0` after them. -/
def ReadsAs (s0 : State) (cl : Claims) (s : State) : Prop :=
  s.src = s0.src ∧ s.free = s0.free ∧ s.ctx.pc = s0.ctx.pc ∧
    (∀ n k, n ≠ 15 → s.ctx.peekStream n k = s0.ctx.peekStream n (cl.reads.count n + k)) ∧
    (∀ k, (s.ctx.dripSkip k).dripRead.1 = (s0.ctx.dripSkip (cl.reads.count 15 + k)).dripRead.1)

theorem Context.dripSkip_add (c : Context) : ∀ j k, (c.dripSkip j).dripSkip k = c.dripSkip (j + k)
  | 0, k => by simp [Context.dripSkip]
  | j + 1, k => by
    rw [Nat.add_right_comm]
    exact Context.dripSkip_add c.dripRead.2 j k

@[simp] theorem Context.dripSkip_streams (c : Context) : ∀ k, (c.dripSkip k).streams = c.streams
  | 0 => rfl
  | k + 1 => by simp [Context.dripSkip, Context.dripSkip_streams]

/-- A read that can be made is the first of those that follow it. -/
theorem Context.peekStream_pop {c : Context} {n : Fin 16} (k : Nat) :
    (c.popStream n).peekStream n.val k = c.peekStream n.val (k + 1) := by
  unfold Context.peekStream
  have e : (c.popStream n).streams.toList.getD n.val Stream.free =
      { c.streams[n] with taken := c.streams[n].taken + 1, buf := c.streams[n].buf.drop 1 } := by
    simp [Context.popStream, List.getD]
  have e2 : c.streams.toList.getD n.val Stream.free = c.streams[n] := by simp [List.getD]
  rw [e, e2]
  have d : ({ c.streams[n] with taken := c.streams[n].taken + 1, buf := c.streams[n].buf.drop 1 } : Stream).deliver = c.streams[n].deliver := rfl
  simp only [d, List.getElem?_drop, Context.popStream_pc]
  rw [show 1 + k = k + 1 by omega, show 1 + (k + 1) = k + 1 + 1 by omega,
    show c.streams[n].taken + 1 + k = c.streams[n].taken + (k + 1) by omega]

theorem Context.peekStream_pop_ne {c : Context} {n : Fin 16} {m : Nat} (h : m ≠ n.val) (k : Nat) :
    (c.popStream n).peekStream m k = c.peekStream m k := by
  have e : (c.popStream n).streams.toList.getD m Stream.free = c.streams.toList.getD m Stream.free := by
    simp only [Context.popStream, List.getD]
    congr 1
    rw [Vector.toList_set]
    exact List.getElem?_set_ne (by omega)
  unfold Context.peekStream
  rw [e]
  rfl

theorem ReadsAs.refl (s : State) : ReadsAs s Claims.none s := by
  refine ⟨rfl, rfl, rfl, fun n k _ => ?_, fun k => ?_⟩ <;> simp [Claims.none]

theorem ReadsAs.peek {s0 s : State} {cl : Claims} (h : ReadsAs s0 cl s) (o : Opnd) : s.peek Claims.none o = s0.peek cl o := by
  obtain ⟨h1, h2, h3, h4, h5⟩ := h
  cases o with
  | s n => simp [State.peek, State.readReg, h1, h2]
  | q n =>
    unfold State.peek
    dsimp only
    split
    · rename_i e
      have := h5 0
      simpa [Claims.none] using this
    · rename_i e
      simpa [Claims.none] using h4 n.val 0 e

/-- An operand that can be read delivers what was seen, and leaves the machine as its claim says. -/
theorem ReadsAs.take {s0 s : State} {cl : Claims} {o : Opnd} {w : Word} (h : ReadsAs s0 cl s) (e : s0.peek cl o = .ok w) :
    (s.take o).1 = w ∧ ReadsAs s0 (cl.read o) (s.take o).2 := by
  have hp := h.peek o
  rw [e] at hp
  obtain ⟨h1, h2, h3, h4, h5⟩ := h
  cases o with
  | s n =>
    simp only [State.peek, Except.ok.injEq] at hp
    exact ⟨hp, h1, h2, h3, h4, h5⟩
  | q n =>
    unfold State.peek at hp
    unfold State.take
    dsimp only at hp ⊢
    split at hp
    · rename_i hn
      rw [if_pos hn]
      simp only [Claims.none, List.count_nil, Context.dripSkip, Except.ok.injEq] at hp
      refine ⟨hp, h1, h2, by simpa using h3, fun m k hm => ?_, fun k => ?_⟩
      · have := h4 m k hm
        simp only [Claims.read, State.setCtx_ctx]
        rw [List.count_cons_of_ne (by omega)]
        rw [← this]
        unfold Context.peekStream
        simp
      · have := h5 (k + 1)
        simp only [Claims.read, State.setCtx_ctx, hn, List.count_cons_self]
        rw [show cl.reads.count 15 + 1 + k = cl.reads.count 15 + (k + 1) by omega, ← this]
        rfl
    · rename_i hn
      simp only [Claims.none, List.count_nil] at hp
      rw [if_neg hn, hp]
      refine ⟨rfl, h1, h2, by simpa using h3, fun m k hm => ?_, fun k => ?_⟩
      · simp only [Claims.read, State.setCtx_ctx]
        by_cases hmn : m = n.val
        · subst hmn
          rw [Context.peekStream_pop, List.count_cons_self, h4 _ _ hn]
          congr 1
          omega
        · rw [Context.peekStream_pop_ne hmn, List.count_cons_of_ne (Ne.symm hmn), h4 _ _ hm]
      · simp only [Claims.read, State.setCtx_ctx]
        rw [List.count_cons_of_ne hn, ← h5 k]
        have key : ∀ (j : Nat) (c : Context), ((c.popStream n).dripSkip j).dripRead.1 = (c.dripSkip j).dripRead.1 := by
          intro j
          induction j with
          | zero =>
            intro c
            unfold Context.dripSkip Context.dripRead Context.popStream
            dsimp only
            split <;> rfl
          | succ j ih =>
            intro c
            have : (c.popStream n).dripRead.2 = c.dripRead.2.popStream n := by
              unfold Context.dripRead Context.popStream
              dsimp only
              split <;> rfl
            simp only [Context.dripSkip, this]
            exact ih _
        exact key k s.ctx

theorem ReadsAs.takeAll {s0 : State} : ∀ {os : List Opnd} {s : State} {cl : Claims} {ws : List Word}, ReadsAs s0 cl s →
    s0.peekAll cl os = .ok ws → (s.takeAll os).1 = ws ∧ ReadsAs s0 (os.foldl Claims.read cl) (s.takeAll os).2
  | [], s, cl, ws, h, e => by
    simp only [State.peekAll, Except.ok.injEq] at e
    exact ⟨e, h⟩
  | o :: r, s, cl, ws, h, e => by
    unfold State.peekAll at e
    split at e
    · cases e
    · rename_i w hw
      split at e
      · cases e
      · rename_i vs hvs
        cases e
        have t := h.take hw
        have q := ReadsAs.takeAll t.2 hvs
        simp only [State.takeAll, List.foldl_cons, t.1, q.1]
        exact ⟨trivial, q.2⟩

/-- Operands that can be read deliver what was seen. -/
theorem State.takeAll_peekAll {s : State} {os : List Opnd} {ws : List Word} (h : s.peekAll Claims.none os = .ok ws) :
    (s.takeAll os).1 = ws := (ReadsAs.takeAll (ReadsAs.refl s) h).1

/-! ### What taking and writing operands leave alone -/

/-- Two states that differ in the streams and the drip tray of the context on turn, at most. -/
def SameButStreams (s t : State) : Prop :=
  t = { s with ctx.streams := t.ctx.streams, ctx.drip := t.ctx.drip, ctx.dripHalf := t.ctx.dripHalf }

theorem SameButStreams.refl (s : State) : SameButStreams s s := rfl

theorem SameButStreams.trans {s t u : State} (h : SameButStreams s t) (k : SameButStreams t u) : SameButStreams s u := by
  unfold SameButStreams at *
  rw [k, h]

theorem State.take_same (s : State) (o : Opnd) : SameButStreams s (s.take o).2 := by
  cases o with
  | s n => rfl
  | q n =>
    unfold State.take
    dsimp only
    split
    · unfold SameButStreams State.setCtx Context.dripRead
      dsimp only
      split <;> rfl
    · split
      · rfl
      · rfl

theorem State.takeAll_same : ∀ (os : List Opnd) (s : State), SameButStreams s (s.takeAll os).2
  | [], _ => rfl
  | o :: r, s => (State.take_same s o).trans (State.takeAll_same r _)

end Sys2Proof.Machine
end

