-- ==== Sys2Proof/Laws/PerInstr.lean ====
section
/-! SUPPORT. Laws stated of each instruction. Family `Field`: the word of an instruction fits in its slot, so its fields keep to
their bits (R27, R31 to R38). -/

namespace Sys2Proof.Laws.Field

def Statement (i : Instr) : Prop := ∀ k, i.slot = some k → encode i < 2 ^ (8 * k.bytes)

theorem code_lt (o : Opnd) : o.code < 64 := by
  cases o <;> simp only [Opnd.code] <;> omega

theorem encR_lt {op d a b fn : Nat} (h : op < 64) (hd : d < 64) (ha : a < 64) (hb : b < 64) (hf : fn < 256) :
    encR op d a b fn < 2 ^ 32 := by
  unfold encR
  omega

theorem encI_lt {op d a imm : Nat} (h : op < 64) (hd : d < 64) (ha : a < 64) (hi : imm < 2 ^ 14) : encI op d a imm < 2 ^ 32 := by
  unfold encI
  omega

theorem encB_lt {op rest : Nat} (h : op < 32) (hr : rest < 2 ^ 27) : encB op rest < 2 ^ 32 := by
  unfold encB
  omega

theorem encE_lt {op : Nat} (h : op < 128) (e : Cmd) : encE op e < 2 ^ 64 := by
  unfold encE
  have := code_lt e.p0
  have := code_lt e.p1
  have := code_lt e.p2
  have := code_lt e.p3
  have : e.te.toNat < 2 := by cases e.te <;> decide
  omega

theorem encW0_lt {op : Nat} (h : op < 64) (w : W0) : encW0 op w < 2 ^ 32 := by
  unfold encW0
  omega

theorem encStore_lt {op : Nat} (h : op < 32) (w : W1Store) : encStore op w < 2 ^ 32 := by
  unfold encStore
  omega

theorem encMove_lt {op : Nat} (h : op < 32) (w : W1Move) : encMove op w < 2 ^ 32 := by
  unfold encMove
  omega

theorem encM_lt {op : Nat} (h : op < 32) (m : MOp) : encM op m < 2 ^ 64 := by
  unfold encM
  omega

theorem bool_lt (b : Bool) : b.toNat < 2 := by cases b <;> decide

theorem event {i : Instr} (h : i.slot = none) : Statement i := by
  intro k e
  rw [h] at e
  cases e

theorem nop : Statement (.nop) := by
  intro k h
  cases h
  exact show 0 < 2 ^ 32 by omega
theorem add (d : Opnd) (a : Opnd) (b : Opnd) (sat : Bool) : Statement (.add d a b sat) := by
  intro k h
  cases h
  exact encR_lt (by decide) (code_lt _) (code_lt _) (code_lt _) (by have := bool_lt sat; omega)
theorem sub (d : Opnd) (a : Opnd) (b : Opnd) (sat : Bool) : Statement (.sub d a b sat) := by
  intro k h
  cases h
  exact encR_lt (by decide) (code_lt _) (code_lt _) (code_lt _) (by have := bool_lt sat; omega)
theorem mul (d : Opnd) (a : Opnd) (b : Opnd) (sat : Bool) : Statement (.mul d a b sat) := by
  intro k h
  cases h
  exact encR_lt (by decide) (code_lt _) (code_lt _) (code_lt _) (by have := bool_lt sat; omega)
theorem mulh (d : Opnd) (a : Opnd) (b : Opnd) : Statement (.mulh d a b) := by
  intro k h
  cases h
  exact encR_lt (by decide) (code_lt _) (code_lt _) (code_lt _) (by decide)
theorem mulhn (d : Opnd) (a : Opnd) (b : Opnd) : Statement (.mulhn d a b) := by
  intro k h
  cases h
  exact encR_lt (by decide) (code_lt _) (code_lt _) (code_lt _) (by decide)
theorem div (d : Opnd) (a : Opnd) (b : Opnd) : Statement (.div d a b) := by
  intro k h
  cases h
  exact encR_lt (by decide) (code_lt _) (code_lt _) (code_lt _) (by decide)
theorem divn (d : Opnd) (a : Opnd) (b : Opnd) : Statement (.divn d a b) := by
  intro k h
  cases h
  exact encR_lt (by decide) (code_lt _) (code_lt _) (code_lt _) (by decide)
theorem rem (d : Opnd) (a : Opnd) (b : Opnd) : Statement (.rem d a b) := by
  intro k h
  cases h
  exact encR_lt (by decide) (code_lt _) (code_lt _) (code_lt _) (by decide)
theorem remn (d : Opnd) (a : Opnd) (b : Opnd) : Statement (.remn d a b) := by
  intro k h
  cases h
  exact encR_lt (by decide) (code_lt _) (code_lt _) (code_lt _) (by decide)
theorem and (d : Opnd) (a : Opnd) (b : Opnd) : Statement (.and d a b) := by
  intro k h
  cases h
  exact encR_lt (by decide) (code_lt _) (code_lt _) (code_lt _) (by decide)
theorem or (d : Opnd) (a : Opnd) (b : Opnd) : Statement (.or d a b) := by
  intro k h
  cases h
  exact encR_lt (by decide) (code_lt _) (code_lt _) (code_lt _) (by decide)
theorem xor (d : Opnd) (a : Opnd) (b : Opnd) : Statement (.xor d a b) := by
  intro k h
  cases h
  exact encR_lt (by decide) (code_lt _) (code_lt _) (code_lt _) (by decide)
theorem andn (d : Opnd) (a : Opnd) (b : Opnd) : Statement (.andn d a b) := by
  intro k h
  cases h
  exact encR_lt (by decide) (code_lt _) (code_lt _) (code_lt _) (by decide)
theorem shl (d : Opnd) (a : Opnd) (b : Opnd) : Statement (.shl d a b) := by
  intro k h
  cases h
  exact encR_lt (by decide) (code_lt _) (code_lt _) (code_lt _) (by decide)
theorem shr (d : Opnd) (a : Opnd) (b : Opnd) : Statement (.shr d a b) := by
  intro k h
  cases h
  exact encR_lt (by decide) (code_lt _) (code_lt _) (code_lt _) (by decide)
theorem sra (d : Opnd) (a : Opnd) (b : Opnd) : Statement (.sra d a b) := by
  intro k h
  cases h
  exact encR_lt (by decide) (code_lt _) (code_lt _) (code_lt _) (by decide)
theorem rot (d : Opnd) (a : Opnd) (b : Opnd) : Statement (.rot d a b) := by
  intro k h
  cases h
  exact encR_lt (by decide) (code_lt _) (code_lt _) (code_lt _) (by decide)
theorem min (d : Opnd) (a : Opnd) (b : Opnd) : Statement (.min d a b) := by
  intro k h
  cases h
  exact encR_lt (by decide) (code_lt _) (code_lt _) (code_lt _) (by decide)
theorem max (d : Opnd) (a : Opnd) (b : Opnd) : Statement (.max d a b) := by
  intro k h
  cases h
  exact encR_lt (by decide) (code_lt _) (code_lt _) (code_lt _) (by decide)
theorem minn (d : Opnd) (a : Opnd) (b : Opnd) : Statement (.minn d a b) := by
  intro k h
  cases h
  exact encR_lt (by decide) (code_lt _) (code_lt _) (code_lt _) (by decide)
theorem maxn (d : Opnd) (a : Opnd) (b : Opnd) : Statement (.maxn d a b) := by
  intro k h
  cases h
  exact encR_lt (by decide) (code_lt _) (code_lt _) (code_lt _) (by decide)
theorem clz (d : Opnd) (a : Opnd) : Statement (.clz d a) := by
  intro k h
  cases h
  exact encR_lt (by decide) (code_lt _) (code_lt _) (by decide) (by decide)
theorem ctz (d : Opnd) (a : Opnd) : Statement (.ctz d a) := by
  intro k h
  cases h
  exact encR_lt (by decide) (code_lt _) (code_lt _) (by decide) (by decide)
theorem popc (d : Opnd) (a : Opnd) : Statement (.popc d a) := by
  intro k h
  cases h
  exact encR_lt (by decide) (code_lt _) (code_lt _) (by decide) (by decide)
theorem bext (d : Opnd) (a : Opnd) (pos : BitVec 6) (wm1 : BitVec 6) : Statement (.bext d a pos wm1) := by
  intro k h
  cases h
  exact encR_lt (by decide) (code_lt _) (code_lt _) (by omega) (by omega)
theorem bins (d : Opnd) (a : Opnd) (pos : BitVec 6) (wm1 : BitVec 6) : Statement (.bins d a pos wm1) := by
  intro k h
  cases h
  exact encR_lt (by decide) (code_lt _) (code_lt _) (by omega) (by omega)
theorem sext (d : Opnd) (a : Opnd) (w : BitVec 2) : Statement (.sext d a w) := by
  intro k h
  cases h
  exact encR_lt (by decide) (code_lt _) (code_lt _) (by decide) (by omega)
theorem zext (d : Opnd) (a : Opnd) (w : BitVec 2) : Statement (.zext d a w) := by
  intro k h
  cases h
  exact encR_lt (by decide) (code_lt _) (code_lt _) (by decide) (by omega)
theorem addi (d : Opnd) (a : Opnd) (imm : BitVec 14) : Statement (.addi d a imm) := by
  intro k h
  cases h
  exact encI_lt (by decide) (code_lt _) (code_lt _) (by omega)
theorem andi (d : Opnd) (a : Opnd) (imm : BitVec 14) : Statement (.andi d a imm) := by
  intro k h
  cases h
  exact encI_lt (by decide) (code_lt _) (code_lt _) (by omega)
theorem ori (d : Opnd) (a : Opnd) (imm : BitVec 14) : Statement (.ori d a imm) := by
  intro k h
  cases h
  exact encI_lt (by decide) (code_lt _) (code_lt _) (by omega)
theorem xori (d : Opnd) (a : Opnd) (imm : BitVec 14) : Statement (.xori d a imm) := by
  intro k h
  cases h
  exact encI_lt (by decide) (code_lt _) (code_lt _) (by omega)
theorem shli (d : Opnd) (a : Opnd) (sh : BitVec 6) : Statement (.shli d a sh) := by
  intro k h
  cases h
  exact encI_lt (by decide) (code_lt _) (code_lt _) (by omega)
theorem shri (d : Opnd) (a : Opnd) (sh : BitVec 6) : Statement (.shri d a sh) := by
  intro k h
  cases h
  exact encI_lt (by decide) (code_lt _) (code_lt _) (by omega)
theorem srai (d : Opnd) (a : Opnd) (sh : BitVec 6) : Statement (.srai d a sh) := by
  intro k h
  cases h
  exact encI_lt (by decide) (code_lt _) (code_lt _) (by omega)
theorem movi (d : Opnd) (imm : BitVec 20) : Statement (.movi d imm) := by
  intro k h
  cases h
  exact show 0x24 * 2 ^ 26 + d.code * 2 ^ 20 + imm.toNat < 2 ^ 32 by have := code_lt d; omega
theorem movk (d : Opnd) (hw : BitVec 2) (imm : BitVec 16) : Statement (.movk d hw imm) := by
  intro k h
  cases h
  exact show 0x25 * 2 ^ 26 + d.code * 2 ^ 20 + hw.toNat * 2 ^ 18 + imm.toNat < 2 ^ 32 by have := code_lt d; omega
theorem lea (d : Opnd) (a : Opnd) (b : Opnd) (sh : BitVec 3) : Statement (.lea d a b sh) := by
  intro k h
  cases h
  exact encR_lt (by decide) (code_lt _) (code_lt _) (code_lt _) (by omega)
theorem cmp (a : Opnd) (b : Opnd) (cc : BitVec 4) : Statement (.cmp a b cc) := by
  intro k h
  cases h
  exact encR_lt (by decide) (by decide) (code_lt _) (code_lt _) (by omega)
theorem cmpi (cc : BitVec 4) (a : Opnd) (imm : BitVec 14) : Statement (.cmpi cc a imm) := by
  intro k h
  cases h
  exact encI_lt (by decide) (by omega) (code_lt _) (by omega)
theorem setc (d : Opnd) : Statement (.setc d) := by
  intro k h
  cases h
  exact encR_lt (by decide) (code_lt _) (by decide) (by decide) (by decide)
theorem sel (d : Opnd) (a : Opnd) (b : Opnd) : Statement (.sel d a b) := by
  intro k h
  cases h
  exact encR_lt (by decide) (code_lt _) (code_lt _) (code_lt _) (by decide)
theorem ld (d : Opnd) (a : Opnd) (off : BitVec 10) (lat : BitVec 4) : Statement (.ld d a off lat) := by
  intro k h
  cases h
  exact encI_lt (by decide) (code_lt _) (code_lt _) (by omega)
theorem st (d : Opnd) (a : Opnd) (off : BitVec 10) : Statement (.st d a off) := by
  intro k h
  cases h
  exact encI_lt (by decide) (code_lt _) (code_lt _) (by omega)
theorem amo (d : Opnd) (a : Opnd) (b : Opnd) (opc : BitVec 3) (sz : Bool) (lat : BitVec 4) : Statement (.amo d a b opc sz lat) := by
  intro k h
  cases h
  exact encR_lt (by decide) (code_lt _) (code_lt _) (code_lt _) (by have := bool_lt sz; omega)
theorem cas (d : Opnd) (a : Opnd) (b : Opnd) (sz : Bool) (lat : BitVec 4) : Statement (.cas d a b sz lat) := by
  intro k h
  cases h
  exact encR_lt (by decide) (code_lt _) (code_lt _) (code_lt _) (by have := bool_lt sz; omega)
theorem amof (d : Opnd) (a : Opnd) (b : Opnd) (lat : BitVec 4) : Statement (.amof d a b lat) := by
  intro k h
  cases h
  exact encR_lt (by decide) (code_lt _) (code_lt _) (code_lt _) (by omega)
theorem mfc (d : Opnd) (creg : BitVec 14) : Statement (.mfc d creg) := by
  intro k h
  cases h
  exact encI_lt (by decide) (code_lt _) (by decide) (by omega)
theorem mtc (a : Opnd) (creg : BitVec 14) : Statement (.mtc a creg) := by
  intro k h
  cases h
  exact encI_lt (by decide) (by decide) (code_lt _) (by omega)
theorem mtsh (t : BitVec 3) (a : Opnd) : Statement (.mtsh t a) := by
  intro k h
  cases h
  exact encR_lt (by decide) (by omega) (code_lt _) (by decide) (by decide)
theorem msel (z : BitVec 2) (a : Opnd) (b : Opnd) : Statement (.msel z a b) := by
  intro k h
  cases h
  exact encR_lt (by decide) (by omega) (code_lt _) (code_lt _) (by decide)
theorem qmov (d : Opnd) (a : Opnd) : Statement (.qmov d a) := by
  intro k h
  cases h
  exact encR_lt (by decide) (code_lt _) (code_lt _) (by decide) (by decide)
theorem tktest (k : BitVec 6) : Statement (.tktest k) := by
  intro k h
  cases h
  exact encR_lt (by decide) (by decide) (by omega) (by decide) (by decide)
theorem cqpush (a : Opnd) : Statement (.cqpush a) := by
  intro k h
  cases h
  exact encR_lt (by decide) (by decide) (code_lt _) (by decide) (by decide)
theorem fence (scope : BitVec 2) : Statement (.fence scope) := by
  intro k h
  cases h
  exact encR_lt (by decide) (by decide) (by decide) (by decide) (by omega)
theorem cwb (a : Opnd) (b : Opnd) : Statement (.cwb a b) := by
  intro k h
  cases h
  exact encR_lt (by decide) (by decide) (code_lt _) (code_lt _) (by decide)
theorem cinv (a : Opnd) (b : Opnd) : Statement (.cinv a b) := by
  intro k h
  cases h
  exact encR_lt (by decide) (by decide) (code_lt _) (code_lt _) (by decide)
theorem cflush (a : Opnd) (b : Opnd) : Statement (.cflush a b) := by
  intro k h
  cases h
  exact encR_lt (by decide) (by decide) (code_lt _) (code_lt _) (by decide)
theorem mfcs (d : Opnd) (creg : BitVec 14) : Statement (.mfcs d creg) := by
  intro k h
  cases h
  exact encI_lt (by decide) (code_lt _) (by decide) (by omega)
theorem mtcs (a : Opnd) (creg : BitVec 14) : Statement (.mtcs a creg) := by
  intro k h
  cases h
  exact encI_lt (by decide) (by decide) (code_lt _) (by omega)
theorem tlbi (a : Opnd) (b : Opnd) (ext : BitVec 2) : Statement (.tlbi a b ext) := by
  intro k h
  cases h
  exact encR_lt (by decide) (by decide) (code_lt _) (code_lt _) (by omega)
theorem bkpt (imm : BitVec 14) : Statement (.bkpt imm) := by
  intro k h
  cases h
  exact encI_lt (by decide) (by decide) (by decide) (by omega)
theorem nopB : Statement (.nopB) := by
  intro k h
  cases h
  exact show 0 < 2 ^ 32 by omega
theorem brT (off : BitVec 22) : Statement (.brT off) := by
  intro k h
  cases h
  exact encB_lt (by decide) (by omega)
theorem brF (off : BitVec 22) : Statement (.brF off) := by
  intro k h
  cases h
  exact encB_lt (by decide) (by omega)
theorem j (off : BitVec 22) : Statement (.j off) := by
  intro k h
  cases h
  exact encB_lt (by decide) (by omega)
theorem jr (a : Opnd) : Statement (.jr a) := by
  intro k h
  cases h
  exact encB_lt (by decide) (by have := code_lt a; omega)
theorem call (off : BitVec 22) : Statement (.call off) := by
  intro k h
  cases h
  exact encB_lt (by decide) (by omega)
theorem callr (a : Opnd) : Statement (.callr a) := by
  intro k h
  cases h
  exact encB_lt (by decide) (by have := code_lt a; omega)
theorem ret : Statement (.ret) := by
  intro k h
  cases h
  exact encB_lt (by decide) (by decide)
theorem loop (cnt : BitVec 13) (last : BitVec 14) : Statement (.loop cnt last) := by
  intro k h
  cases h
  exact encB_lt (by decide) (by omega)
theorem loopv (a : Opnd) (last : BitVec 14) : Statement (.loopv a last) := by
  intro k h
  cases h
  exact encB_lt (by decide) (by have := code_lt a; omega)
theorem loops (a : Opnd) (last : BitVec 14) : Statement (.loops a last) := by
  intro k h
  cases h
  exact encB_lt (by decide) (by have := code_lt a; omega)
theorem leave : Statement (.leave) := by
  intro k h
  cases h
  exact encB_lt (by decide) (by decide)
theorem cqdrop (nm1 : BitVec 4) : Statement (.cqdrop nm1) := by
  intro k h
  cases h
  exact encB_lt (by decide) (by omega)
theorem tkwait (k : BitVec 6) : Statement (.tkwait k) := by
  intro k h
  cases h
  exact encB_lt (by decide) (by omega)
theorem waitq : Statement (.waitq) := by
  intro k h
  cases h
  exact encB_lt (by decide) (by decide)
theorem yield : Statement (.yield) := by
  intro k h
  cases h
  exact encB_lt (by decide) (by decide)
theorem bara (slot : BitVec 3) : Statement (.bara slot) := by
  intro k h
  cases h
  exact encB_lt (by decide) (by omega)
theorem barw (slot : BitVec 3) : Statement (.barw slot) := by
  intro k h
  cases h
  exact encB_lt (by decide) (by omega)
theorem trap (code : BitVec 16) : Statement (.trap code) := by
  intro k h
  cases h
  exact encB_lt (by decide) (by omega)
theorem sys (code : BitVec 16) : Statement (.sys code) := by
  intro k h
  cases h
  exact encB_lt (by decide) (by omega)
theorem exit (a : Opnd) : Statement (.exit a) := by
  intro k h
  cases h
  exact encB_lt (by decide) (by have := code_lt a; omega)
theorem rft : Statement (.rft) := by
  intro k h
  cases h
  exact encB_lt (by decide) (by decide)
theorem ctxsw : Statement (.ctxsw) := by
  intro k h
  cases h
  exact encB_lt (by decide) (by decide)
theorem halt : Statement (.halt) := by
  intro k h
  cases h
  exact encB_lt (by decide) (by decide)
theorem stick (sel : BitVec 2) (rep : BitVec 8) : Statement (.stick sel rep) := by
  intro k h
  cases h
  exact show 0xA * 2 ^ 28 + sel.toNat * 2 ^ 14 + rep.toNat * 2 ^ 6 < 2 ^ 32 by omega
theorem vnop : Statement (.vnop) := by
  intro k h
  cases h
  exact show 0 < 2 ^ 32 by omega
theorem vadd (w : W0) : Statement (.vadd w) := by
  intro k h
  cases h
  exact encW0_lt (by decide) w
theorem vsub (w : W0) : Statement (.vsub w) := by
  intro k h
  cases h
  exact encW0_lt (by decide) w
theorem vmul (w : W0) : Statement (.vmul w) := by
  intro k h
  cases h
  exact encW0_lt (by decide) w
theorem vfma (w : W0) : Statement (.vfma w) := by
  intro k h
  cases h
  exact encW0_lt (by decide) w
theorem vfms (w : W0) : Statement (.vfms w) := by
  intro k h
  cases h
  exact encW0_lt (by decide) w
theorem vmin (w : W0) : Statement (.vmin w) := by
  intro k h
  cases h
  exact encW0_lt (by decide) w
theorem vmax (w : W0) : Statement (.vmax w) := by
  intro k h
  cases h
  exact encW0_lt (by decide) w
theorem vabs (w : W0) : Statement (.vabs w) := by
  intro k h
  cases h
  exact encW0_lt (by decide) w
theorem vneg (w : W0) : Statement (.vneg w) := by
  intro k h
  cases h
  exact encW0_lt (by decide) w
theorem vand (w : W0) : Statement (.vand w) := by
  intro k h
  cases h
  exact encW0_lt (by decide) w
theorem vor (w : W0) : Statement (.vor w) := by
  intro k h
  cases h
  exact encW0_lt (by decide) w
theorem vxor (w : W0) : Statement (.vxor w) := by
  intro k h
  cases h
  exact encW0_lt (by decide) w
theorem vshl (w : W0) : Statement (.vshl w) := by
  intro k h
  cases h
  exact encW0_lt (by decide) w
theorem vshr (w : W0) : Statement (.vshr w) := by
  intro k h
  cases h
  exact encW0_lt (by decide) w
theorem vsra (w : W0) : Statement (.vsra w) := by
  intro k h
  cases h
  exact encW0_lt (by decide) w
theorem vcmp (w : W0) : Statement (.vcmp w) := by
  intro k h
  cases h
  exact encW0_lt (by decide) w
theorem vsel (w : W0) : Statement (.vsel w) := by
  intro k h
  cases h
  exact encW0_lt (by decide) w
theorem vcvt (w : W0) : Statement (.vcvt w) := by
  intro k h
  cases h
  exact encW0_lt (by decide) w
theorem vwmul (w : W0) : Statement (.vwmul w) := by
  intro k h
  cases h
  exact encW0_lt (by decide) w
theorem vwfma (w : W0) : Statement (.vwfma w) := by
  intro k h
  cases h
  exact encW0_lt (by decide) w
theorem vdot (w : W0) : Statement (.vdot w) := by
  intro k h
  cases h
  exact encW0_lt (by decide) w
theorem vscale (w : W0) : Statement (.vscale w) := by
  intro k h
  cases h
  exact encW0_lt (by decide) w
theorem vclass (w : W0) : Statement (.vclass w) := by
  intro k h
  cases h
  exact encW0_lt (by decide) w
theorem vexp2 (w : W0) : Statement (.vexp2 w) := by
  intro k h
  cases h
  exact encW0_lt (by decide) w
theorem vlog2 (w : W0) : Statement (.vlog2 w) := by
  intro k h
  cases h
  exact encW0_lt (by decide) w
theorem vrcp (w : W0) : Statement (.vrcp w) := by
  intro k h
  cases h
  exact encW0_lt (by decide) w
theorem vrsq (w : W0) : Statement (.vrsq w) := by
  intro k h
  cases h
  exact encW0_lt (by decide) w
theorem vsqrt (w : W0) : Statement (.vsqrt w) := by
  intro k h
  cases h
  exact encW0_lt (by decide) w
theorem vsinp (w : W0) : Statement (.vsinp w) := by
  intro k h
  cases h
  exact encW0_lt (by decide) w
theorem vcosp (w : W0) : Statement (.vcosp w) := by
  intro k h
  cases h
  exact encW0_lt (by decide) w
theorem vtanh (w : W0) : Statement (.vtanh w) := by
  intro k h
  cases h
  exact encW0_lt (by decide) w
theorem vrsum (w : W0) : Statement (.vrsum w) := by
  intro k h
  cases h
  exact encW0_lt (by decide) w
theorem vrmax (w : W0) : Statement (.vrmax w) := by
  intro k h
  cases h
  exact encW0_lt (by decide) w
theorem vrmin (w : W0) : Statement (.vrmin w) := by
  intro k h
  cases h
  exact encW0_lt (by decide) w
theorem vperm (w : W0) : Statement (.vperm w) := by
  intro k h
  cases h
  exact encW0_lt (by decide) w
theorem vbcst (w : W0) : Statement (.vbcst w) := by
  intro k h
  cases h
  exact encW0_lt (by decide) w
theorem vmovi (w : W0) : Statement (.vmovi w) := by
  intro k h
  cases h
  exact encW0_lt (by decide) w
theorem vmov (w : W0) : Statement (.vmov w) := by
  intro k h
  cases h
  exact encW0_lt (by decide) w
theorem vmask (w : W0) : Statement (.vmask w) := by
  intro k h
  cases h
  exact encW0_lt (by decide) w
theorem vflag (w : W0) : Statement (.vflag w) := by
  intro k h
  cases h
  exact encW0_lt (by decide) w
theorem viota (w : W0) : Statement (.viota w) := by
  intro k h
  cases h
  exact encW0_lt (by decide) w
theorem wnop : Statement (.wnop) := by
  intro k h
  cases h
  exact show 0 < 2 ^ 32 by omega
theorem xset (w : W1Move) : Statement (.xset w) := by
  intro k h
  cases h
  exact encMove_lt (by decide) w
theorem xget (w : W1Move) : Statement (.xget w) := by
  intro k h
  cases h
  exact encMove_lt (by decide) w
theorem xshf (w : W1Move) : Statement (.xshf w) := by
  intro k h
  cases h
  exact encMove_lt (by decide) w
theorem cld (w : W1Store) : Statement (.cld w) := by
  intro k h
  cases h
  exact encStore_lt (by decide) w
theorem cst (w : W1Store) : Statement (.cst w) := by
  intro k h
  cases h
  exact encStore_lt (by decide) w
theorem cldm (w : W1Store) : Statement (.cldm w) := by
  intro k h
  cases h
  exact encStore_lt (by decide) w
theorem cstm (w : W1Store) : Statement (.cstm w) := by
  intro k h
  cases h
  exact encStore_lt (by decide) w
theorem fagg (w : W1Move) : Statement (.fagg w) := by
  intro k h
  cases h
  exact encMove_lt (by decide) w
theorem fset (w : W1Move) : Statement (.fset w) := by
  intro k h
  cases h
  exact encMove_lt (by decide) w
theorem xside (w : W1Move) : Statement (.xside w) := by
  intro k h
  cases h
  exact encMove_lt (by decide) w
theorem mvm (w : W1Move) : Statement (.mvm w) := by
  intro k h
  cases h
  exact encMove_lt (by decide) w
theorem mnop : Statement (.mnop) := by
  intro k h
  cases h
  exact show 0 < 2 ^ 64 by omega
theorem mma (m : MOp) : Statement (.mma m) := by
  intro k h
  cases h
  exact encM_lt (by decide) m
theorem mmas (m : MOp) : Statement (.mmas m) := by
  intro k h
  cases h
  exact encM_lt (by decide) m
theorem mmaq (m : MOp) : Statement (.mmaq m) := by
  intro k h
  cases h
  exact encM_lt (by decide) m
theorem mmab (m : MOp) : Statement (.mmab m) := by
  intro k h
  cases h
  exact encM_lt (by decide) m
theorem mzero (m : MOp) : Statement (.mzero m) := by
  intro k h
  cases h
  exact encM_lt (by decide) m
theorem mcvt (m : MOp) : Statement (.mcvt m) := by
  intro k h
  cases h
  exact encM_lt (by decide) m
theorem mtrn (m : MOp) : Statement (.mtrn m) := by
  intro k h
  cases h
  exact encM_lt (by decide) m
theorem madd (m : MOp) : Statement (.madd m) := by
  intro k h
  cases h
  exact encM_lt (by decide) m
theorem mstat (m : MOp) : Statement (.mstat m) := by
  intro k h
  cases h
  exact encM_lt (by decide) m
theorem sbind (e : Cmd) : Statement (.sbind e) := by
  intro k h
  cases h
  exact encE_lt (by decide) e
theorem sfree (e : Cmd) : Statement (.sfree e) := by
  intro k h
  cases h
  exact encE_lt (by decide) e
theorem hload (e : Cmd) : Statement (.hload e) := by
  intro k h
  cases h
  exact encE_lt (by decide) e
theorem hgath (e : Cmd) : Statement (.hgath e) := by
  intro k h
  cases h
  exact encE_lt (by decide) e
theorem hldz (e : Cmd) : Statement (.hldz e) := by
  intro k h
  cases h
  exact encE_lt (by decide) e
theorem hstore (e : Cmd) : Statement (.hstore e) := by
  intro k h
  cases h
  exact encE_lt (by decide) e
theorem hscat (e : Cmd) : Statement (.hscat e) := by
  intro k h
  cases h
  exact encE_lt (by decide) e
theorem hstz (e : Cmd) : Statement (.hstz e) := by
  intro k h
  cases h
  exact encE_lt (by decide) e
theorem hstzTensor (e : Cmd) : Statement (.hstzTensor e) := by
  intro k h
  cases h
  exact encE_lt (by decide) e
theorem hmcast (e : Cmd) : Statement (.hmcast e) := by
  intro k h
  cases h
  exact encE_lt (by decide) e
theorem copy (e : Cmd) : Statement (.copy e) := by
  intro k h
  cases h
  exact encE_lt (by decide) e
theorem cfill (e : Cmd) : Statement (.cfill e) := by
  intro k h
  cases h
  exact encE_lt (by decide) e
theorem csqz (e : Cmd) : Statement (.csqz e) := by
  intro k h
  cases h
  exact encE_lt (by decide) e
theorem cxpd (e : Cmd) : Statement (.cxpd e) := by
  intro k h
  cases h
  exact encE_lt (by decide) e
theorem zmap (e : Cmd) : Statement (.zmap e) := by
  intro k h
  cases h
  exact encE_lt (by decide) e
theorem tkjoin (e : Cmd) : Statement (.tkjoin e) := by
  intro k h
  cases h
  exact encE_lt (by decide) e
theorem enq (e : Cmd) : Statement (.enq e) := by
  intro k h
  cases h
  exact encE_lt (by decide) e
theorem deq (e : Cmd) : Statement (.deq e) := by
  intro k h
  cases h
  exact encE_lt (by decide) e
theorem qinfo (e : Cmd) : Statement (.qinfo e) := by
  intro k h
  cases h
  exact encE_lt (by decide) e
theorem rfence (e : Cmd) : Statement (.rfence e) := by
  intro k h
  cases h
  exact encE_lt (by decide) e
theorem pgreq (e : Cmd) : Statement (.pgreq e) := by
  intro k h
  cases h
  exact encE_lt (by decide) e
theorem scrlim (e : Cmd) : Statement (.scrlim e) := by
  intro k h
  cases h
  exact encE_lt (by decide) e
theorem reds (e : Cmd) : Statement (.reds e) := by
  intro k h
  cases h
  exact encE_lt (by decide) e
theorem redd (e : Cmd) : Statement (.redd e) := by
  intro k h
  cases h
  exact encE_lt (by decide) e
theorem bcst (e : Cmd) : Statement (.bcst e) := by
  intro k h
  cases h
  exact encE_lt (by decide) e
theorem rgrp (e : Cmd) : Statement (.rgrp e) := by
  intro k h
  cases h
  exact encE_lt (by decide) e
theorem launch (e : Cmd) : Statement (.launch e) := by
  intro k h
  cases h
  exact encE_lt (by decide) e
theorem cancel (e : Cmd) : Statement (.cancel e) := by
  intro k h
  cases h
  exact encE_lt (by decide) e
theorem abort (e : Cmd) : Statement (.abort e) := by
  intro k h
  cases h
  exact encE_lt (by decide) e
theorem ctxsave (e : Cmd) : Statement (.ctxsave e) := by
  intro k h
  cases h
  exact encE_lt (by decide) e
theorem ctxload (e : Cmd) : Statement (.ctxload e) := by
  intro k h
  cases h
  exact encE_lt (by decide) e
theorem flushall (e : Cmd) : Statement (.flushall e) := by
  intro k h
  cases h
  exact encE_lt (by decide) e
theorem resultLand (n : Nat) : Statement (.resultLand n) := event rfl
theorem faggResult (n : Nat) : Statement (.faggResult n) := event rfl
theorem dripTrayAppend (n : Nat) : Statement (.dripTrayAppend n) := event rfl
theorem trapEntry : Statement (.trapEntry) := event rfl
theorem commandStart (n : Nat) : Statement (.commandStart n) := event rfl
theorem transferTile (m : TileMove) : Statement (.transferTile m) := event rfl
theorem hatchFill (n : Nat) (lane : Nat) : Statement (.hatchFill n lane) := event rfl
theorem hatchDrainTake (n : Nat) (lane : Nat) : Statement (.hatchDrainTake n lane) := event rfl
theorem ticketComplete (n : Nat) : Statement (.ticketComplete n) := event rfl
theorem streamFetch (q : Fin 16) : Statement (.streamFetch q) := event rfl
theorem streamStore (q : Fin 16) : Statement (.streamStore q) := event rfl
theorem queueDecision (n : Nat) : Statement (.queueDecision n) := event rfl
theorem spillMove (lnum : Nat) (stage : Nat) (toRing : Bool) : Statement (.spillMove lnum stage toRing) := event rfl
theorem swWriteBackMerge (n : Nat) : Statement (.swWriteBackMerge n) := event rfl
theorem gets (agent : Nat) (line : Nat) : Statement (.gets agent line) := event rfl
theorem getx (agent : Nat) (line : Nat) : Statement (.getx agent line) := event rfl
theorem tok (n : Nat) : Statement (.tok n) := event rfl
theorem wb (agent : Nat) (line : Nat) : Statement (.wb agent line) := event rfl
theorem pact (agent line n : Nat) : Statement (.pact agent line n) := event rfl
theorem pdeact (n : Nat) : Statement (.pdeact n) := event rfl
theorem zclr (agent : Nat) (tile : Nat) : Statement (.zclr agent tile) := event rfl
theorem zack (n : Nat) : Statement (.zack n) := event rfl
theorem transientRetry (n : Nat) : Statement (.transientRetry n) := event rfl
theorem persistentEscalation (n : Nat) : Statement (.persistentEscalation n) := event rfl
theorem backInvalidateTimeout (line : Nat) : Statement (.backInvalidateTimeout line) := event rfl
theorem lineReset (line : Nat) : Statement (.lineReset line) := event rfl
theorem uncorrectableError (unit : ErrUnit) : Statement (.uncorrectableError unit) := event rfl
theorem scratchSample (die : Nat) (moves : List (Nat × Bool)) : Statement (.scratchSample die moves) := event rfl
theorem groupFormation (g : Nat) : Statement (.groupFormation g) := event rfl
theorem collectiveOperation (g : Nat) : Statement (.collectiveOperation g) := event rfl
theorem stripeMerge (g : Nat) (level : Nat) (node : Nat) : Statement (.stripeMerge g level node) := event rfl
theorem preemptionRequest (id : Nat) : Statement (.preemptionRequest id) := event rfl
theorem landing : Statement (.landing) := event rfl
theorem contextSwitch : Statement (.contextSwitch) := event rfl
theorem drain : Statement (.drain) := event rfl
theorem resumption (lnum : Nat) (stage : Nat) (inst : Nat) (arrays : List Nat) : Statement (.resumption lnum stage inst arrays) := event rfl
theorem dispatch (lnum : Nat) (stage : Nat) (inst : Nat) (arrays : List Nat) : Statement (.dispatch lnum stage inst arrays) := event rfl
theorem agingInterval (lnum : Nat) (stage : Nat) (inst : Nat) : Statement (.agingInterval lnum stage inst) := event rfl
theorem rebalanceInterval (lnum : Nat) : Statement (.rebalanceInterval lnum) := event rfl
theorem watchdogExpiry : Statement (.watchdogExpiry) := event rfl
theorem pipelineEnd (lnum : Nat) : Statement (.pipelineEnd lnum) := event rfl
theorem sqTailUpdate (q : Fin 64) : Statement (.sqTailUpdate q) := event rfl
theorem submissionRecord (q : Fin 64) : Statement (.submissionRecord q) := event rfl
theorem submissionNotReady (q : Fin 64) : Statement (.submissionNotReady q) := event rfl
theorem hostMemAccess (op : HostOp) (pa : Nat) (len : Nat) (value : Nat) : Statement (.hostMemAccess op pa len value) := event rfl
theorem backInvalidateAnswer (line : Nat) : Statement (.backInvalidateAnswer line) := event rfl
theorem powerOnReset : Statement (.powerOnReset) := event rfl
theorem conventionalReset : Statement (.conventionalReset) := event rfl
theorem functionLevelReset : Statement (.functionLevelReset) := event rfl
theorem linkReplayFailure (link : LinkId) : Statement (.linkReplayFailure link) := event rfl
theorem fatalError (kind : FatalKind) : Statement (.fatalError kind) := event rfl
theorem powerArbiterPeriod (requests : List (Option Nat)) : Statement (.powerArbiterPeriod requests) := event rfl
theorem thermalThrottle (die : Nat) (temp : Nat) : Statement (.thermalThrottle die temp) := event rfl
theorem thermalTrip (die : Nat) : Statement (.thermalTrip die) := event rfl
theorem xlatchWrite (value : Word) : Statement (.xlatchWrite value) := event rfl
theorem pwrbudWrite (value : Word) : Statement (.pwrbudWrite value) := event rfl
theorem mgmtRegisterWrite (off : Nat) (value : Nat) : Statement (.mgmtRegisterWrite off value) := event rfl
theorem getVersion : Statement (.getVersion) := event rfl
theorem getCapabilities : Statement (.getCapabilities) := event rfl
theorem negotiateAlgorithms : Statement (.negotiateAlgorithms) := event rfl
theorem getCertificate : Statement (.getCertificate) := event rfl
theorem challenge (nonce : Nat) : Statement (.challenge nonce) := event rfl
theorem getMeasurements : Statement (.getMeasurements) := event rfl
theorem managementControllerRestart (id : Nat) : Statement (.managementControllerRestart id) := event rfl
theorem powerOff : Statement (.powerOff) := event rfl

end Sys2Proof.Laws.Field
end

