-- ==== Sys2Proof/Laws/Wave.lean ====
section
/-! SUPPORT. What a wave operation can change (R91, R92): the cells that its selector enables, in the registers that its writes
name, and the drains. -/

namespace Sys2Proof.Machine

theorem CellState.get_set (c : CellState) (r r' : CellReg) (v p : Nat) (h : r' ≠ r) : (c.set r v p).get r' = c.get r' := by
  cases r <;> cases r' <;> simp_all [CellState.set, CellState.get, Vector.getElem_set, Fin.ext_iff] <;> grind

theorem CellState.set_store (c : CellState) (r : CellReg) (v p : Nat) : (c.set r v p).store = c.store := by
  cases r <;> rfl

theorem CellState.write_store (c : CellState) (w : CellWrite) : (c.write w).store = c.store := CellState.set_store ..

theorem CellState.get_write (c : CellState) (w : CellWrite) (r : CellReg) (h : r ≠ w.reg) : (c.write w).get r = c.get r :=
  CellState.get_set _ _ _ _ _ h

theorem Context.cell_setCell (c : Context) (i j : Nat) (f : CellState → CellState) :
    (c.setCell i f).cell j = if i = j ∧ j < c.cells.length then f (c.cell j) else c.cell j := by
  simp only [Context.cell, Context.setCell, List.getD_eq_getElem?_getD, List.getElem?_modify]
  by_cases h : j < c.cells.length
  · by_cases e : i = j <;> simp [h, e]
  · simp [h]

/-! ### One step of a wave operation -/

/-- What a wave operation may change, register by register: `rs` in the cells for which `on` holds. -/
structure WaveStep (rs : List CellReg) (on : Nat → Prop) (s t : State) : Prop where
  only : OnlyWave s t
  drains : OnlyDrains s t
  length : t.ctx.cells.length = s.ctx.cells.length
  off : ∀ i, ¬ on i → t.ctx.cell i = s.ctx.cell i
  regs : ∀ i r, r ∉ rs → (t.ctx.cell i).get r = (s.ctx.cell i).get r
  pend : t.ctx.pend = s.ctx.pend
  flights : t.ctx.dripFlights = s.ctx.dripFlights
  sticky : t.ctx.sticky = s.ctx.sticky

theorem OnlyWave.refl (s : State) : OnlyWave s s := rfl

theorem OnlyWave.trans {s t u : State} (h : OnlyWave s t) (k : OnlyWave t u) : OnlyWave s u := by
  exact (show u = _ from k).trans (congrArg (fun x : State => { x with
    ctx.cells := u.ctx.cells, ctx.cellErrs := u.ctx.cellErrs, ctx.hatches := u.ctx.hatches, ctx.faults := u.ctx.faults,
    ctx.pend := u.ctx.pend, ctx.dripFlights := u.ctx.dripFlights, ctx.sticky := u.ctx.sticky, others := u.others }) h)

theorem OnlyDrains.trans {s t u : State} (h : OnlyDrains s t) (k : OnlyDrains t u) : OnlyDrains s u :=
  ⟨fun x hx => (k.1 x hx).trans (h.1 x hx), k.2.trans h.2⟩

theorem WaveStep.refl (rs : List CellReg) (on : Nat → Prop) (s : State) : WaveStep rs on s s :=
  ⟨rfl, ⟨fun _ _ => rfl, rfl⟩, rfl, fun _ _ => rfl, fun _ _ _ => rfl, rfl, rfl, rfl⟩

theorem WaveStep.trans {rs : List CellReg} {on : Nat → Prop} {s t u : State} (h : WaveStep rs on s t) (k : WaveStep rs on t u) :
    WaveStep rs on s u :=
  ⟨h.only.trans k.only, h.drains.trans k.drains, k.length.trans h.length, fun i n => (k.off i n).trans (h.off i n),
   fun i r n => (k.regs i r n).trans (h.regs i r n), k.pend.trans h.pend, k.flights.trans h.flights, k.sticky.trans h.sticky⟩

theorem WaveStep.enabled {rs : List CellReg} {on : Nat → Prop} {s t : State} (h : WaveStep rs on s t) (i : Nat) :
    t.enabled i = s.enabled i := by
  rw [h.only]; rfl

theorem foldl_waveStep {α : Type} {rs : List CellReg} {on : Nat → Prop} (f : State → α → State) (l : List α) :
    ∀ s : State, (∀ a ∈ l, ∀ s, WaveStep rs on s (f s a)) → WaveStep rs on s (l.foldl f s) := by
  induction l with
  | nil => intro s _; exact WaveStep.refl ..
  | cons a l ih =>
    intro s h
    exact (h a (List.mem_cons_self ..) s).trans (ih _ (fun b hb => h b (List.mem_cons_of_mem _ hb)))

theorem inMember_step (rs : List CellReg) (on : Nat → Prop) (s : State) (j : Nat) (h : Fin 12) (hh : 8 ≤ h.val) (lane : Fin 16) (x : Chunk) :
    WaveStep rs on s (s.inMember j (fun c => pushLane c h lane x)) := by
  unfold State.inMember
  split
  · refine ⟨rfl, ⟨fun k hk => ?_, rfl⟩, rfl, fun _ _ => rfl, fun _ _ _ => rfl, rfl, rfl, rfl⟩
    have : h.val ≠ k.val := by omega
    simp [pushLane, this]
  · refine ⟨rfl, ⟨fun _ _ => rfl, ?_⟩, rfl, fun _ _ => rfl, fun _ _ _ => rfl, rfl, rfl, rfl⟩
    simp only [List.map_map]
    refine List.map_congr_left (fun c _ => ?_)
    simp only [Function.comp_apply]
    split <;> rfl

theorem drainOut_step (rs : List CellReg) (on : Nat → Prop) (s : State) (i : Nat) (r : CellReg) : WaveStep rs on s (s.drainOut i r) := by
  cases r with
  | xh =>
    simp only [State.drainOut]
    split
    · exact inMember_step _ _ _ _ _ (by simp only [eastDrain]; split <;> decide) _ _
    · exact WaveStep.refl ..
  | xv =>
    simp only [State.drainOut]
    split
    · exact inMember_step _ _ _ _ _ (by simp only [southDrain]; split <;> decide) _ _
    · exact WaveStep.refl ..
  | _ => exact WaveStep.refl ..

theorem applyCell_step {rs : List CellReg} {on : Nat → Prop} (s : State) (w : CellWrite) (hr : w.reg ∈ rs) (hc : on w.cell) :
    WaveStep rs on s (s.applyCell w) := by
  refine WaveStep.trans ?_ (drainOut_step rs on _ w.cell w.reg)
  refine ⟨rfl, ⟨fun _ _ => rfl, rfl⟩, ?_, fun i hi => ?_, fun i r h => ?_, rfl, rfl, rfl⟩
  · simp [Context.applyWrite, Context.setCell]
  · have : w.cell ≠ i := fun e => hi (e ▸ hc)
    show (s.ctx.setCell w.cell _).cell i = _
    rw [Context.cell_setCell, if_neg (fun h => this h.1)]
  · show ((s.ctx.setCell w.cell _).cell i).get r = _
    rw [Context.cell_setCell]
    split
    · next e =>
      exact CellState.get_write _ _ _ (fun e => h (e ▸ hr))
    · rfl

theorem meetErrs_step (rs : List CellReg) (on : Nat → Prop) (s : State) (o : CellOut) (i : Nat) : WaveStep rs on s (s.meetErrs o i) :=
  ⟨rfl, ⟨fun _ _ => rfl, rfl⟩, rfl, fun _ _ => rfl, fun _ _ _ => rfl, rfl, rfl, rfl⟩

theorem spoil_step {rs : List CellReg} {on : Nat → Prop} (s : State) (i : Nat) (l : List CellReg) (h : ∀ r ∈ l, r ∈ rs) (hi : on i) :
    WaveStep rs on s (s.spoil i l) :=
  foldl_waveStep _ _ _ (fun r hr s => applyCell_step s _ (h r hr) hi)

theorem putWrites_step {rs : List CellReg} {on : Nat → Prop} (s : State) (l : List CellWrite) (h : ∀ w ∈ l, w.reg ∈ rs ∧ on w.cell) :
    WaveStep rs on s (s.putWrites l) :=
  foldl_waveStep _ _ _ (fun w hw s => applyCell_step s w (h w hw).1 (h w hw).2)

theorem storeWrite_get (n : Nat) : ∀ (c : CellState) (u val poi : Nat) (r : CellReg), (c.storeWrite u val poi n).get r = c.get r := by
  induction n with
  | zero => intro c u val poi r; rfl
  | succ n ih =>
    intro c u val poi r
    rw [CellState.storeWrite, ih]
    cases r <;> rfl

theorem putStored_step {rs : List CellReg} {on : Nat → Prop} (s : State) (i : Nat) (o : Option (Nat × Bits × Nat)) (hi : on i) :
    WaveStep rs on s (s.putStored i o) := by
  cases o with
  | none => exact WaveStep.refl ..
  | some x =>
    obtain ⟨u, b, n⟩ := x
    refine ⟨rfl, ⟨fun _ _ => rfl, rfl⟩, ?_, fun j hj => ?_, fun j r _ => ?_, rfl, rfl, rfl⟩
    · simp [State.putStored, Context.setCell]
    · have : i ≠ j := fun e => hj (e ▸ hi)
      show (s.ctx.setCell i _).cell j = _
      rw [Context.cell_setCell, if_neg (fun h => this h.1)]
    · show ((s.ctx.setCell i _).cell j).get r = _
      rw [Context.cell_setCell]
      split
      · exact storeWrite_get ..
      · rfl

theorem raiseAll_step (rs : List CellReg) (on : Nat → Prop) (s : State) (slot i : Nat) (ks : List Nat) :
    WaveStep rs on s (s.raiseAll slot i ks) := by
  suffices h : ∃ fs, ks.foldl (fun c k => c.raise slot k i) s.ctx = { s.ctx with faults := fs } by
    obtain ⟨fs, h⟩ := h
    unfold State.raiseAll
    rw [h]
    exact ⟨rfl, ⟨fun _ _ => rfl, rfl⟩, rfl, fun _ _ => rfl, fun _ _ _ => rfl, rfl, rfl, rfl⟩
  generalize s.ctx = c
  induction ks generalizing c with
  | nil => exact ⟨c.faults, rfl⟩
  | cons k ks ih =>
    obtain ⟨fs, h⟩ := ih (c.raise slot k i)
    exact ⟨fs, h⟩

/-- An operation whose writes stay in their own cell and in registers of `rs`. -/
def CellOp.Within (rs : List CellReg) (op : CellOp) : Prop := ∀ s i, ∀ w ∈ (op s i).writes, w.cell = i ∧ w.reg ∈ rs

theorem runCell_step {rs q : List CellReg} (slot : Nat) (late : Bool) (op : CellOp) (h : op.Within rs) (a : WaveAcc) (i : Nat)
    (hq : ∀ r ∈ a.s.wave.conflict, r ∈ q) (hr : late = false → ∀ r ∈ rs, r ∈ q) :
    WaveStep q (fun j => a.s.enabled j = true) a.s (runCell slot late op a i).s := by
  unfold runCell
  split
  swap
  · exact WaveStep.refl ..
  next e =>
  refine (meetErrs_step ..).trans (WaveStep.trans (spoil_step _ _ _ (fun r h => hq r (List.mem_filter.mp h).1) e) (WaveStep.trans
    (putWrites_step _ _ (fun w hw => ?_)) (WaveStep.trans (putStored_step _ _ _ e) (raiseAll_step ..))))
  split at hw
  · simp at hw
  · next hl =>
    obtain ⟨h1, h2⟩ := h a.s i w (List.mem_filter.mp hw).1
    exact ⟨hr (by simpa using hl) _ h2, by rw [h1]; exact e⟩

/-! ### A whole operation -/

/-- The cells' part of an operation, cell after cell. -/
structure WaveRun (rs q : List CellReg) (late : Bool) (s : State) (a : WaveAcc) : Prop where
  step : WaveStep q (fun j => s.enabled j = true) s a.s
  owed : ∀ w ∈ a.late, w.reg ∈ rs ∧ s.enabled w.cell = true
  early : late = false → a.late = []

theorem WaveRun.runCell {rs q : List CellReg} {late : Bool} {s : State} {a : WaveAcc} (slot : Nat) (op : CellOp) (h : op.Within rs)
    (hq : ∀ r ∈ s.wave.conflict, r ∈ q) (hr : late = false → ∀ r ∈ rs, r ∈ q) (k : WaveRun rs q late s a) (i : Nat) :
    WaveRun rs q late s (Machine.runCell slot late op a i) := by
  have hw : a.s.wave = s.wave := by rw [k.step.only]
  have he : ∀ j, a.s.enabled j = s.enabled j := fun j => k.step.enabled j
  refine ⟨?_, ?_, ?_⟩
  · have := runCell_step (q := q) slot late op h a i (by rw [hw]; exact hq) hr
    simp only [he] at this
    exact k.step.trans this
  · intro w m
    unfold Machine.runCell at m
    split at m
    · next e =>
      cases late
      · exact k.owed w (by simpa using m)
      · rcases List.mem_append.mp (show w ∈ a.late ++ _ from m) with m | m
        · exact k.owed w m
        · obtain ⟨h1, h2⟩ := h a.s i w (List.mem_filter.mp m).1
          exact ⟨h2, by rw [h1, ← he]; exact e⟩
    · exact k.owed w m
  · intro hl
    unfold Machine.runCell
    split
    · simp [hl, k.early hl]
    · exact k.early hl

theorem foldl_runCell {rs q : List CellReg} {late : Bool} {s : State} (slot : Nat) (op : CellOp) (h : op.Within rs)
    (hq : ∀ r ∈ s.wave.conflict, r ∈ q) (hr : late = false → ∀ r ∈ rs, r ∈ q) (l : List Nat) :
    ∀ a : WaveAcc, WaveRun rs q late s a → WaveRun rs q late s (l.foldl (Machine.runCell slot late op) a) := by
  induction l with
  | nil => exact fun a k => k
  | cons i l ih => exact fun a k => ih _ (k.runCell slot op h hq hr i)

/-- What an operation without LAT changes. -/
theorem runWave_now {rs : List CellReg} (s : State) (slot : Nat) (accum : Bool) (op : CellOp) (h : op.Within rs) :
    let t := s.runWave slot none accum op
    OnlyWave s t ∧ OnlyDrains s t ∧ CellsBut (rs ++ s.wave.conflict) s t ∧ t.ctx.pend = s.ctx.pend ∧ t.ctx.sticky = s.ctx.sticky := by
  have k := foldl_runCell (late := false) (s := s) (q := rs ++ s.wave.conflict) slot op h
    (fun _ => List.mem_append_right _) (fun _ _ => List.mem_append_left _)
    (List.range s.cellCount) { s := s, late := [], evs := [] } ⟨WaveStep.refl .., by simp, fun _ => rfl⟩
  unfold State.runWave
  simp only [Option.isSome_none]
  revert k
  generalize List.foldl _ _ (List.range s.cellCount) = a
  intro k
  generalize dripRecords .. = recs
  refine ⟨?_, ?_, ⟨?_, fun i => ⟨fun e => ?_, fun r hr => ?_⟩⟩, ?_, ?_⟩
  · refine k.step.only.trans ?_
    cases recs <;> rfl
  · refine k.step.drains.trans ?_
    cases recs <;> exact ⟨fun _ _ => rfl, rfl⟩
  · cases recs <;> exact k.step.length
  · cases recs <;> exact k.step.off i (by simp [e])
  · cases recs <;> exact k.step.regs i r hr
  · cases recs <;> exact k.step.pend
  · cases recs <;> exact k.step.sticky

/-- What an operation with a LAT changes: it owes one result. -/
theorem runWave_late {rs : List CellReg} (s : State) (slot n : Nat) (accum : Bool) (op : CellOp) (h : op.Within rs) :
    let t := s.runWave slot (some n) accum op
    OnlyWave s t ∧ OnlyDrains s t ∧ CellsBut s.wave.conflict s t ∧ t.ctx.sticky = s.ctx.sticky ∧
      ∃ ws : List CellWrite, (∀ w ∈ ws, w.reg ∈ rs ∧ s.enabled w.cell = true) ∧
        t.ctx.pend = s.ctx.pend ++ [{ dest := .cells, value := 0, writes := ws, acc := accum, bound := s.ctx.issues + max n 1,
                                      made := s.ctx.issues, addr := s.ctx.pc, poison := none }] := by
  have k := foldl_runCell (late := true) (s := s) (q := s.wave.conflict) slot op h (by simp) (by simp)
    (List.range s.cellCount) { s := s, late := [], evs := [] } ⟨WaveStep.refl .., by simp, fun h => by simp at h⟩
  unfold State.runWave
  simp only [Option.isSome_some]
  revert k
  generalize List.foldl _ _ (List.range s.cellCount) = a
  intro k
  generalize dripRecords .. = recs
  have hi : a.s.ctx.issues = s.ctx.issues := by rw [k.step.only]
  have hp : a.s.ctx.pc = s.ctx.pc := by rw [k.step.only]
  refine ⟨?_, ?_, ⟨?_, fun i => ⟨fun e => ?_, fun r hr => ?_⟩⟩, ?_, a.late, k.owed, ?_⟩
  · refine k.step.only.trans ?_
    cases recs <;> rfl
  · refine k.step.drains.trans ?_
    cases recs <;> exact ⟨fun _ _ => rfl, rfl⟩
  · cases recs <;> exact k.step.length
  · cases recs <;> exact k.step.off i (by simp [e])
  · cases recs <;> exact k.step.regs i r hr
  · cases recs <;> exact k.step.sticky
  · rw [← hi, ← hp, ← k.step.pend]
    cases recs <;> rfl

end Sys2Proof.Machine
end

