-- ==== Sys2Proof/Tests/Slice0.lean ====
section
/-! SUPPORT. Tests. Expected words and values come from the spec's field tables, its worked encodings and its worked examples; the
witnesses at the end are states that meet the hypotheses of the obligations. -/

open Sys2Proof Sys2Proof.Machine

namespace Sys2Proof.Tests

set_option Elab.async false

/-! ### Well-formedness -/

/-- A command with no tickets and every operand s0. -/
def cmd (efn : BitVec 8) : Cmd :=
  { kp := 0, kc0 := 0, kc1 := 0, kc2 := 0, te := false, p0 := .s 0, p1 := .s 0, p2 := .s 0, p3 := .s 0, efn := efn }

/-- R31, R32, R54, R56, R226: the reserved values of the S slot. -/
theorem test_illFormed_scalar :
    [Instr.bext (.s 1) (.s 2) 10 54, .bins (.s 1) (.s 2) 63 1, .bins (.q 1) (.s 2) 0 0, .sext (.s 1) (.s 2) 3, .zext (.s 1) (.s 2) 3,
      .movk (.q 0) 0 0, .lea (.s 1) (.s 2) (.s 3) 7, .cmp (.s 1) (.s 2) 10, .cmpi 15 (.s 1) 0, .ld (.s 1) (.s 2) 0x010 0,
      .st (.s 1) (.s 2) 0, .cas (.q 1) (.s 2) (.s 3) false 0, .mfc (.s 1) 0x008, .mtc (.s 1) 0x01E, .mfcs (.s 1) 0x107,
      .mtcs (.s 1) 0x034, .fence 3, .tlbi (.s 1) (.s 2) 3, .tlbi (.s 1) (.s 2) 1, .tlbi (.s 0) (.s 2) 2].all (fun i => !i.wellFormed) = true := by
  decide

/-- R34: the reserved values of the B slot; R37: LAT of CST and CSTM. -/
theorem test_illFormed_branch :
    [Instr.loop 3 0, .loopv (.s 1) 0, .loops (.q 1) 0, .loops (.s 1) 4, .loops (.q 15) 4, .tkwait 0,
      .cst { d := 0, off := 0, step := 0, lat := 1 }, .cstm { d := 0, off := 0, step := 0, lat := 1 }].all (fun i => !i.wellFormed) = true := by
  decide

/-- R35: ticket fields. -/
theorem test_illFormed_tickets :
    [Instr.tkjoin { cmd 0 with kc0 := 1 }, .tkjoin { cmd 0 with kp := 1, kc0 := 2, kc1 := 2 }, .tkjoin { cmd 0 with kp := 1, kc0 := 2, kc2 := 2 },
      .tkjoin { cmd 0 with kp := 1, kc1 := 2, kc2 := 2 }, .copy { cmd 0 with te := true }, .rfence { cmd 0 with kp := 1, te := true },
      .enq { cmd 0 with kp := 1 }, .deq { cmd 0 with kc0 := 1 }, .qinfo { cmd 0 with kc2 := 1 }].all (fun i => !i.wellFormed) = true := by
  decide

/-- R35, R265 to R283, R333, R377: function bits, and operands that a command does not read. -/
theorem test_illFormed_engine :
    [Instr.sbind (cmd 16), .sbind { cmd 0 with p1 := .s 1 }, .sfree (cmd 16), .sfree { cmd 0 with p0 := .s 1 }, .hload (cmd 0x08), .hload (cmd 0x30),
      .hload (cmd 0x40), .hgath { cmd 0x10 with p3 := .q 15 }, .hgath { cmd 0x10 with p3 := .s 1 }, .hgath { cmd 0x00 with p3 := .q 1 }, .hldz (cmd 0x10),
      .hldz { cmd 0 with p3 := .s 1 }, .hstore (cmd 0x07), .hstore (cmd 0x0C), .hstore (cmd 0x48), .hscat { cmd 0x08 with p3 := .q 1 }, .hscat { cmd 0x18 with p3 := .q 15 },
      .hstz (cmd 0x18), .hstz (cmd 0x88), .hstzTensor (cmd 0x08), .hstzTensor (cmd 0x78), .hmcast { cmd 0x08 with p1 := .s 1 }, .hmcast (cmd 0x00),
      .copy (cmd 1), .cfill (cmd 1), .csqz (cmd 1), .cxpd (cmd 1), .zmap { cmd 0 with p2 := .s 1 }, .zmap (cmd 1), .tkjoin (cmd 0), .enq (cmd 16),
      .enq { cmd 7 with p0 := .s 41 }, .deq (cmd 8), .deq { cmd 1 with p0 := .s 47 }, .qinfo (cmd 3), .rfence (cmd 1), .pgreq (cmd 8), .scrlim (cmd 1),
      .reds (cmd 16), .redd (cmd 16), .bcst (cmd 4), .rgrp (cmd 4), .launch (cmd 1), .cancel { cmd 0 with p1 := .s 1 }, .abort (cmd 1),
      .ctxsave (cmd 1), .ctxload { cmd 0 with p2 := .s 1 }, .flushall (cmd 1)].all (fun i => !i.wellFormed) = true := by
  decide

/-- Values at the edge of their range are admitted. -/
theorem test_wellFormed_edges :
    [Instr.bext (.s 1) (.s 2) 10 53, .sext (.s 1) (.s 2) 2, .lea (.s 1) (.s 2) (.s 3) 6, .cmp (.s 1) (.s 2) 9, .ld (.q 1) (.s 2) 0x008 0,
      .mfc (.s 1) 0x106, .loops (.q 14) 1, .tlbi (.s 0) (.s 0) 2, .enq { cmd 7 with p0 := .s 40 }, .deq { cmd 7 with p0 := .s 40 },
      .hload (cmd 0x27), .hstore (cmd 0x2B), .hmcast (cmd 0xC8), .reds (cmd 15)].all Instr.wellFormed = true := by
  decide

/-! ### Decoding -/

/-- R31 to R33, R39: words written out field by field. -/
theorem test_decode_scalar_1 :
    decodeSlot .s 0b000000_00000000000000000000000000 = .ok (.nop) ∧
    decodeSlot .s 0b000001_000101_110010_000111_1_0000000 = .ok (.add (.s 5) (.q 2) (.s 7) true) ∧
    decodeSlot .s 0b000010_000101_110010_000111_1_0000000 = .ok (.sub (.s 5) (.q 2) (.s 7) true) ∧
    decodeSlot .s 0b000011_000101_110010_000111_1_0000000 = .ok (.mul (.s 5) (.q 2) (.s 7) true) ∧
    decodeSlot .s 0b000100_000101_110010_000111_00000000 = .ok (.mulh (.s 5) (.q 2) (.s 7)) ∧
    decodeSlot .s 0b000101_000101_110010_000111_00000000 = .ok (.mulhn (.s 5) (.q 2) (.s 7)) ∧
    decodeSlot .s 0b000110_000101_110010_000111_00000000 = .ok (.div (.s 5) (.q 2) (.s 7)) ∧
    decodeSlot .s 0b000111_000101_110010_000111_00000000 = .ok (.divn (.s 5) (.q 2) (.s 7)) ∧
    decodeSlot .s 0b001000_000101_110010_000111_00000000 = .ok (.rem (.s 5) (.q 2) (.s 7)) ∧
    decodeSlot .s 0b001001_000101_110010_000111_00000000 = .ok (.remn (.s 5) (.q 2) (.s 7)) ∧
    decodeSlot .s 0b001010_000101_110010_000111_00000000 = .ok (.and (.s 5) (.q 2) (.s 7)) ∧
    decodeSlot .s 0b001011_000101_110010_000111_00000000 = .ok (.or (.s 5) (.q 2) (.s 7)) ∧
    decodeSlot .s 0b001100_000101_110010_000111_00000000 = .ok (.xor (.s 5) (.q 2) (.s 7)) ∧
    decodeSlot .s 0b001101_000101_110010_000111_00000000 = .ok (.andn (.s 5) (.q 2) (.s 7)) ∧
    decodeSlot .s 0b001110_000101_110010_000111_00000000 = .ok (.shl (.s 5) (.q 2) (.s 7)) ∧
    decodeSlot .s 0b001111_000101_110010_000111_00000000 = .ok (.shr (.s 5) (.q 2) (.s 7)) ∧
    decodeSlot .s 0b010000_000101_110010_000111_00000000 = .ok (.sra (.s 5) (.q 2) (.s 7)) ∧
    decodeSlot .s 0b010001_000101_110010_000111_00000000 = .ok (.rot (.s 5) (.q 2) (.s 7)) ∧
    decodeSlot .s 0b010010_000101_110010_000111_00000000 = .ok (.min (.s 5) (.q 2) (.s 7)) ∧
    decodeSlot .s 0b010011_000101_110010_000111_00000000 = .ok (.max (.s 5) (.q 2) (.s 7)) ∧
    decodeSlot .s 0b010100_000101_110010_000111_00000000 = .ok (.minn (.s 5) (.q 2) (.s 7)) ∧
    decodeSlot .s 0b010101_000101_110010_000111_00000000 = .ok (.maxn (.s 5) (.q 2) (.s 7)) := by decide

/-- R31 to R33, R39: words written out field by field. -/
theorem test_decode_scalar_2 :
    decodeSlot .s 0b101010_000101_110010_000111_00000000 = .ok (.sel (.s 5) (.q 2) (.s 7)) ∧
    decodeSlot .s 0b010110_000101_110010_000000_00000000 = .ok (.clz (.s 5) (.q 2)) ∧
    decodeSlot .s 0b010111_000101_110010_000000_00000000 = .ok (.ctz (.s 5) (.q 2)) ∧
    decodeSlot .s 0b011000_000101_110010_000000_00000000 = .ok (.popc (.s 5) (.q 2)) ∧
    decodeSlot .s 0b110100_000101_110010_000000_00000000 = .ok (.qmov (.s 5) (.q 2)) ∧
    decodeSlot .s 0b011001_000101_110010_001001_110110_00 = .ok (.bext (.s 5) (.q 2) 9 54) ∧
    decodeSlot .s 0b011010_000101_110010_001001_110110_00 = .ok (.bins (.s 5) (.q 2) 9 54) ∧
    decodeSlot .s 0b011011_000101_110010_000000_000000_10 = .ok (.sext (.s 5) (.q 2) 2) ∧
    decodeSlot .s 0b011100_000101_110010_000000_000000_01 = .ok (.zext (.s 5) (.q 2) 1) ∧
    decodeSlot .s 0b011101_000101_110010_10000000000011 = .ok (.addi (.s 5) (.q 2) 0x2003) ∧
    decodeSlot .s 0b011110_000101_110010_10000000000011 = .ok (.andi (.s 5) (.q 2) 0x2003) ∧
    decodeSlot .s 0b011111_000101_110010_10000000000011 = .ok (.ori (.s 5) (.q 2) 0x2003) ∧
    decodeSlot .s 0b100000_000101_110010_10000000000011 = .ok (.xori (.s 5) (.q 2) 0x2003) ∧
    decodeSlot .s 0b100001_000101_110010_00000000_111110 = .ok (.shli (.s 5) (.q 2) 62) ∧
    decodeSlot .s 0b100010_000101_110010_00000000_111110 = .ok (.shri (.s 5) (.q 2) 62) ∧
    decodeSlot .s 0b100011_000101_110010_00000000_111110 = .ok (.srai (.s 5) (.q 2) 62) ∧
    decodeSlot .s 0b100100_000101_10000000000000000001 = .ok (.movi (.s 5) 0x80001) ∧
    decodeSlot .s 0b100101_000101_10_00_1000000000000001 = .ok (.movk (.s 5) 2 0x8001) ∧
    decodeSlot .s 0b100110_000101_110010_000111_00000_110 = .ok (.lea (.s 5) (.q 2) (.s 7) 6) ∧
    decodeSlot .s 0b100111_000000_110010_000111_0000_1001 = .ok (.cmp (.q 2) (.s 7) 9) ∧
    decodeSlot .s 0b101000_00_0110_110010_11111111111111 = .ok (.cmpi 6 (.q 2) 0x3FFF) ∧
    decodeSlot .s 0b101001_000101_000000_000000_00000000 = .ok (.setc (.s 5)) := by decide

/-- R31 to R33, R39: words written out field by field. -/
theorem test_decode_scalar_3 :
    decodeSlot .s 0b101011_000101_110010_0000010100_0011 = .ok (.ld (.s 5) (.q 2) 0x14 3) ∧
    decodeSlot .s 0b101100_000101_110010_1111111000_0000 = .ok (.st (.s 5) (.q 2) 0x3F8) ∧
    decodeSlot .s 0b101101_000101_110010_000111_101_1_0110 = .ok (.amo (.s 5) (.q 2) (.s 7) 5 true 6) ∧
    decodeSlot .s 0b101110_000101_110010_000111_000_1_0110 = .ok (.cas (.s 5) (.q 2) (.s 7) true 6) ∧
    decodeSlot .s 0b101111_000101_110010_000111_000_0_0110 = .ok (.amof (.s 5) (.q 2) (.s 7) 6) ∧
    decodeSlot .s 0b110000_000101_000000_00000100000010 = .ok (.mfc (.s 5) 0x102) ∧
    decodeSlot .s 0b110001_000000_110010_00000001010001 = .ok (.mtc (.q 2) 0x51) ∧
    decodeSlot .s 0b110010_000_011_110010_000000_00000000 = .ok (.mtsh 3 (.q 2)) ∧
    decodeSlot .s 0b110011_0000_01_110010_000111_00000000 = .ok (.msel 1 (.q 2) (.s 7)) ∧
    decodeSlot .s 0b110101_000000_100001_000000_00000000 = .ok (.tktest 33) ∧
    decodeSlot .s 0b110110_000000_110010_000000_00000000 = .ok (.cqpush (.q 2)) ∧
    decodeSlot .s 0b110111_000000_000000_000000_000000_10 = .ok (.fence 2) ∧
    decodeSlot .s 0b111000_000000_110010_000111_00000000 = .ok (.cwb (.q 2) (.s 7)) ∧
    decodeSlot .s 0b111001_000000_110010_000111_00000000 = .ok (.cinv (.q 2) (.s 7)) ∧
    decodeSlot .s 0b111010_000000_110010_000111_00000000 = .ok (.cflush (.q 2) (.s 7)) ∧
    decodeSlot .s 0b111011_000101_000000_00000100000110 = .ok (.mfcs (.s 5) 0x106) ∧
    decodeSlot .s 0b111100_000000_110010_00000100000000 = .ok (.mtcs (.q 2) 0x100) ∧
    decodeSlot .s 0b111101_000000_000000_000111_000000_01 = .ok (.tlbi (.s 0) (.s 7) 1) ∧
    decodeSlot .s 0b111110_000000000000_01000000000101 = .ok (.bkpt 0x1005) := by decide

/-- R34, R39: words written out field by field. -/
theorem test_decode_branch_1 :
    decodeSlot .b 0b00000_000000000000000000000000000 = .ok (.nopB) ∧
    decodeSlot .b 0b00111_000000000000000000000000000 = .ok (.ret) ∧
    decodeSlot .b 0b01011_000000000000000000000000000 = .ok (.leave) ∧
    decodeSlot .b 0b01110_000000000000000000000000000 = .ok (.waitq) ∧
    decodeSlot .b 0b01111_000000000000000000000000000 = .ok (.yield) ∧
    decodeSlot .b 0b10101_000000000000000000000000000 = .ok (.rft) ∧
    decodeSlot .b 0b10110_000000000000000000000000000 = .ok (.ctxsw) ∧
    decodeSlot .b 0b10111_000000000000000000000000000 = .ok (.halt) ∧
    decodeSlot .b 0b00001_00000_1111111111111111101110 = .ok (.brT (-18)) ∧
    decodeSlot .b 0b00010_00000_1111111111111111101110 = .ok (.brF (-18)) ∧
    decodeSlot .b 0b00011_00000_1111111111111111101110 = .ok (.j (-18)) ∧
    decodeSlot .b 0b00101_00000_1111111111111111101110 = .ok (.call (-18)) := by decide

/-- R34, R39: words written out field by field. -/
theorem test_decode_branch_2 :
    decodeSlot .b 0b00100_00000_110010_0000000000000000 = .ok (.jr (.q 2)) ∧
    decodeSlot .b 0b00110_00000_110010_0000000000000000 = .ok (.callr (.q 2)) ∧
    decodeSlot .b 0b10100_00000_110010_0000000000000000 = .ok (.exit (.q 2)) ∧
    decodeSlot .b 0b01000_0000000000011_00000000001111 = .ok (.loop 3 15) ∧
    decodeSlot .b 0b01001_00000_110010_00_00000000001111 = .ok (.loopv (.q 2) 15) ∧
    decodeSlot .b 0b01010_00000_110010_00_00000000001111 = .ok (.loops (.q 2) 15) ∧
    decodeSlot .b 0b01100_00000000000000000000000_1001 = .ok (.cqdrop 9) ∧
    decodeSlot .b 0b01101_000000000000000000000_100001 = .ok (.tkwait 33) ∧
    decodeSlot .b 0b10000_000000000000000000000000_101 = .ok (.bara 5) ∧
    decodeSlot .b 0b10001_000000000000000000000000_101 = .ok (.barw 5) ∧
    decodeSlot .b 0b10010_00000000000_1000000000000001 = .ok (.trap 0x8001) ∧
    decodeSlot .b 0b10011_00000000000_1000000000000001 = .ok (.sys 0x8001) := by decide

/-- R35, R39, R264 to R284, R333 to R338, R377: words written out field by field. -/
theorem test_decode_engine_1 :
    decodeSlot .e 0b0000001_000001_000010_000011_000100_1_000101_000000_000000_000000_00000011 = .ok (.sbind { kp := 1, kc0 := 2, kc1 := 3, kc2 := 4, te := true, p0 := .s 5, p1 := .s 0, p2 := .s 0, p3 := .s 0, efn := 0x03 }) ∧
    decodeSlot .e 0b0000010_000001_000010_000011_000100_1_000000_000000_000000_000000_00000011 = .ok (.sfree { kp := 1, kc0 := 2, kc1 := 3, kc2 := 4, te := true, p0 := .s 0, p1 := .s 0, p2 := .s 0, p3 := .s 0, efn := 0x03 }) ∧
    decodeSlot .e 0b0001000_000001_000010_000011_000100_1_000101_110010_000111_110011_00100101 = .ok (.hload { kp := 1, kc0 := 2, kc1 := 3, kc2 := 4, te := true, p0 := .s 5, p1 := .q 2, p2 := .s 7, p3 := .q 3, efn := 0x25 }) ∧
    decodeSlot .e 0b0001001_000001_000010_000011_000100_1_000101_110010_000111_110011_00100101 = .ok (.hgath { kp := 1, kc0 := 2, kc1 := 3, kc2 := 4, te := true, p0 := .s 5, p1 := .q 2, p2 := .s 7, p3 := .q 3, efn := 0x25 }) ∧
    decodeSlot .e 0b0001010_000001_000010_000011_000100_1_000101_110010_000111_000000_00000101 = .ok (.hldz { kp := 1, kc0 := 2, kc1 := 3, kc2 := 4, te := true, p0 := .s 5, p1 := .q 2, p2 := .s 7, p3 := .s 0, efn := 0x05 }) ∧
    decodeSlot .e 0b0001011_000001_000010_000011_000100_1_000101_110010_000111_110011_00011001 = .ok (.hstore { kp := 1, kc0 := 2, kc1 := 3, kc2 := 4, te := true, p0 := .s 5, p1 := .q 2, p2 := .s 7, p3 := .q 3, efn := 0x19 }) ∧
    decodeSlot .e 0b0001100_000001_000010_000011_000100_1_000101_110010_000111_110011_00011001 = .ok (.hscat { kp := 1, kc0 := 2, kc1 := 3, kc2 := 4, te := true, p0 := .s 5, p1 := .q 2, p2 := .s 7, p3 := .q 3, efn := 0x19 }) ∧
    decodeSlot .e 0b0001101_000001_000010_000011_000100_1_000101_110010_000111_000000_00001001 = .ok (.hstz { kp := 1, kc0 := 2, kc1 := 3, kc2 := 4, te := true, p0 := .s 5, p1 := .q 2, p2 := .s 7, p3 := .s 0, efn := 0x09 }) := by decide

/-- R35, R39, R264 to R284, R333 to R338, R377: words written out field by field. -/
theorem test_decode_engine_2 :
    decodeSlot .e 0b0001101_000001_000010_000011_000100_1_000101_110010_000111_110011_01011001 = .ok (.hstzTensor { kp := 1, kc0 := 2, kc1 := 3, kc2 := 4, te := true, p0 := .s 5, p1 := .q 2, p2 := .s 7, p3 := .q 3, efn := 0x59 }) ∧
    decodeSlot .e 0b0001110_000001_000010_000011_000100_1_000101_000000_000111_000000_10001010 = .ok (.hmcast { kp := 1, kc0 := 2, kc1 := 3, kc2 := 4, te := true, p0 := .s 5, p1 := .s 0, p2 := .s 7, p3 := .s 0, efn := 0x8A }) ∧
    decodeSlot .e 0b0010000_000001_000010_000011_000100_1_000101_110010_000111_000000_00000000 = .ok (.copy { kp := 1, kc0 := 2, kc1 := 3, kc2 := 4, te := true, p0 := .s 5, p1 := .q 2, p2 := .s 7, p3 := .s 0, efn := 0x00 }) ∧
    decodeSlot .e 0b0010001_000001_000010_000011_000100_1_000101_110010_000111_000000_00000000 = .ok (.cfill { kp := 1, kc0 := 2, kc1 := 3, kc2 := 4, te := true, p0 := .s 5, p1 := .q 2, p2 := .s 7, p3 := .s 0, efn := 0x00 }) ∧
    decodeSlot .e 0b0010010_000001_000010_000011_000100_1_000101_110010_000111_110011_00000000 = .ok (.csqz { kp := 1, kc0 := 2, kc1 := 3, kc2 := 4, te := true, p0 := .s 5, p1 := .q 2, p2 := .s 7, p3 := .q 3, efn := 0x00 }) ∧
    decodeSlot .e 0b0010011_000001_000010_000011_000100_1_000101_110010_000111_110011_00000000 = .ok (.cxpd { kp := 1, kc0 := 2, kc1 := 3, kc2 := 4, te := true, p0 := .s 5, p1 := .q 2, p2 := .s 7, p3 := .q 3, efn := 0x00 }) ∧
    decodeSlot .e 0b0010100_000001_000010_000011_000100_1_000101_110010_000000_000000_00000000 = .ok (.zmap { kp := 1, kc0 := 2, kc1 := 3, kc2 := 4, te := true, p0 := .s 5, p1 := .q 2, p2 := .s 0, p3 := .s 0, efn := 0x00 }) ∧
    decodeSlot .e 0b0011000_000001_000010_000011_000100_1_000000_000000_000000_000000_00000000 = .ok (.tkjoin { kp := 1, kc0 := 2, kc1 := 3, kc2 := 4, te := true, p0 := .s 0, p1 := .s 0, p2 := .s 0, p3 := .s 0, efn := 0x00 }) := by decide

/-- R35, R39, R264 to R284, R333 to R338, R377: words written out field by field. -/
theorem test_decode_engine_3 :
    decodeSlot .e 0b0100000_000000_000000_000000_000000_0_000101_000000_000000_000000_00001010 = .ok (.enq { kp := 0, kc0 := 0, kc1 := 0, kc2 := 0, te := false, p0 := .s 5, p1 := .s 0, p2 := .s 0, p3 := .s 0, efn := 0x0A }) ∧
    decodeSlot .e 0b0100001_000000_000000_000000_000000_0_000101_000000_000000_000000_00000010 = .ok (.deq { kp := 0, kc0 := 0, kc1 := 0, kc2 := 0, te := false, p0 := .s 5, p1 := .s 0, p2 := .s 0, p3 := .s 0, efn := 0x02 }) ∧
    decodeSlot .e 0b0100010_000000_000000_000000_000000_0_000101_000000_000000_000000_00000010 = .ok (.qinfo { kp := 0, kc0 := 0, kc1 := 0, kc2 := 0, te := false, p0 := .s 5, p1 := .s 0, p2 := .s 0, p3 := .s 0, efn := 0x02 }) ∧
    decodeSlot .e 0b0101000_000001_000010_000011_000100_0_000000_000000_000000_000000_00000000 = .ok (.rfence { kp := 1, kc0 := 2, kc1 := 3, kc2 := 4, te := false, p0 := .s 0, p1 := .s 0, p2 := .s 0, p3 := .s 0, efn := 0x00 }) ∧
    decodeSlot .e 0b0101001_000001_000010_000011_000100_1_000101_000000_000000_000000_00000101 = .ok (.pgreq { kp := 1, kc0 := 2, kc1 := 3, kc2 := 4, te := true, p0 := .s 5, p1 := .s 0, p2 := .s 0, p3 := .s 0, efn := 0x05 }) ∧
    decodeSlot .e 0b0101010_000001_000010_000011_000100_1_000101_110010_000000_000000_00000000 = .ok (.scrlim { kp := 1, kc0 := 2, kc1 := 3, kc2 := 4, te := true, p0 := .s 5, p1 := .q 2, p2 := .s 0, p3 := .s 0, efn := 0x00 }) ∧
    decodeSlot .e 0b0110000_000001_000010_000011_000100_1_000101_110010_000111_110011_00001101 = .ok (.reds { kp := 1, kc0 := 2, kc1 := 3, kc2 := 4, te := true, p0 := .s 5, p1 := .q 2, p2 := .s 7, p3 := .q 3, efn := 0x0D }) ∧
    decodeSlot .e 0b0110001_000001_000010_000011_000100_1_000101_110010_000111_110011_00001101 = .ok (.redd { kp := 1, kc0 := 2, kc1 := 3, kc2 := 4, te := true, p0 := .s 5, p1 := .q 2, p2 := .s 7, p3 := .q 3, efn := 0x0D }) := by decide

/-- R35, R39, R264 to R284, R333 to R338, R377: words written out field by field. -/
theorem test_decode_engine_4 :
    decodeSlot .e 0b0110010_000001_000010_000011_000100_1_000101_110010_000111_110011_00000010 = .ok (.bcst { kp := 1, kc0 := 2, kc1 := 3, kc2 := 4, te := true, p0 := .s 5, p1 := .q 2, p2 := .s 7, p3 := .q 3, efn := 0x02 }) ∧
    decodeSlot .e 0b0110011_000001_000010_000011_000100_1_000101_000000_000000_000000_00000010 = .ok (.rgrp { kp := 1, kc0 := 2, kc1 := 3, kc2 := 4, te := true, p0 := .s 5, p1 := .s 0, p2 := .s 0, p3 := .s 0, efn := 0x02 }) ∧
    decodeSlot .e 0b0111000_000001_000010_000011_000100_1_000101_000000_000000_000000_00000000 = .ok (.launch { kp := 1, kc0 := 2, kc1 := 3, kc2 := 4, te := true, p0 := .s 5, p1 := .s 0, p2 := .s 0, p3 := .s 0, efn := 0x00 }) ∧
    decodeSlot .e 0b0111001_000001_000010_000011_000100_1_000101_000000_000000_000000_00000000 = .ok (.cancel { kp := 1, kc0 := 2, kc1 := 3, kc2 := 4, te := true, p0 := .s 5, p1 := .s 0, p2 := .s 0, p3 := .s 0, efn := 0x00 }) ∧
    decodeSlot .e 0b0111010_000001_000010_000011_000100_1_000101_000000_000000_000000_00000000 = .ok (.abort { kp := 1, kc0 := 2, kc1 := 3, kc2 := 4, te := true, p0 := .s 5, p1 := .s 0, p2 := .s 0, p3 := .s 0, efn := 0x00 }) ∧
    decodeSlot .e 0b0111011_000001_000010_000011_000100_1_000101_110010_000000_000000_00000000 = .ok (.ctxsave { kp := 1, kc0 := 2, kc1 := 3, kc2 := 4, te := true, p0 := .s 5, p1 := .q 2, p2 := .s 0, p3 := .s 0, efn := 0x00 }) ∧
    decodeSlot .e 0b0111100_000001_000010_000011_000100_1_000101_110010_000000_000000_00000000 = .ok (.ctxload { kp := 1, kc0 := 2, kc1 := 3, kc2 := 4, te := true, p0 := .s 5, p1 := .q 2, p2 := .s 0, p3 := .s 0, efn := 0x00 }) ∧
    decodeSlot .e 0b0111101_000001_000010_000011_000100_1_000000_000000_000000_000000_00000000 = .ok (.flushall { kp := 1, kc0 := 2, kc1 := 3, kc2 := 4, te := true, p0 := .s 0, p1 := .s 0, p2 := .s 0, p3 := .s 0, efn := 0x00 }) := by decide

/-- R36, R39: words written out field by field. -/
theorem test_decode_vector_1 :
    decodeSlot .w0 0b000000_00000000000000000000000000 = .ok (.vnop) ∧
    decodeSlot .w0 0b000001_00010_10011_00100_001001_10110 = .ok (.vadd { d := 2, a := 19, b := 4, typ := 9, var := 22 }) ∧
    decodeSlot .w0 0b000010_00010_10011_00100_001001_10110 = .ok (.vsub { d := 2, a := 19, b := 4, typ := 9, var := 22 }) ∧
    decodeSlot .w0 0b000011_00010_10011_00100_001001_10110 = .ok (.vmul { d := 2, a := 19, b := 4, typ := 9, var := 22 }) ∧
    decodeSlot .w0 0b000100_00010_10011_00100_001001_10110 = .ok (.vfma { d := 2, a := 19, b := 4, typ := 9, var := 22 }) ∧
    decodeSlot .w0 0b000101_00010_10011_00100_001001_10110 = .ok (.vfms { d := 2, a := 19, b := 4, typ := 9, var := 22 }) ∧
    decodeSlot .w0 0b000110_00010_10011_00100_001001_10110 = .ok (.vmin { d := 2, a := 19, b := 4, typ := 9, var := 22 }) ∧
    decodeSlot .w0 0b000111_00010_10011_00100_001001_10110 = .ok (.vmax { d := 2, a := 19, b := 4, typ := 9, var := 22 }) ∧
    decodeSlot .w0 0b001000_00010_10011_00100_001001_10110 = .ok (.vabs { d := 2, a := 19, b := 4, typ := 9, var := 22 }) ∧
    decodeSlot .w0 0b001001_00010_10011_00100_001001_10110 = .ok (.vneg { d := 2, a := 19, b := 4, typ := 9, var := 22 }) ∧
    decodeSlot .w0 0b001010_00010_10011_00100_001001_10110 = .ok (.vand { d := 2, a := 19, b := 4, typ := 9, var := 22 }) ∧
    decodeSlot .w0 0b001011_00010_10011_00100_001001_10110 = .ok (.vor { d := 2, a := 19, b := 4, typ := 9, var := 22 }) ∧
    decodeSlot .w0 0b001100_00010_10011_00100_001001_10110 = .ok (.vxor { d := 2, a := 19, b := 4, typ := 9, var := 22 }) ∧
    decodeSlot .w0 0b001101_00010_10011_00100_001001_10110 = .ok (.vshl { d := 2, a := 19, b := 4, typ := 9, var := 22 }) := by decide

/-- R36, R39: words written out field by field. -/
theorem test_decode_vector_2 :
    decodeSlot .w0 0b001110_00010_10011_00100_001001_10110 = .ok (.vshr { d := 2, a := 19, b := 4, typ := 9, var := 22 }) ∧
    decodeSlot .w0 0b001111_00010_10011_00100_001001_10110 = .ok (.vsra { d := 2, a := 19, b := 4, typ := 9, var := 22 }) ∧
    decodeSlot .w0 0b010000_00010_10011_00100_001001_10110 = .ok (.vcmp { d := 2, a := 19, b := 4, typ := 9, var := 22 }) ∧
    decodeSlot .w0 0b010001_00010_10011_00100_001001_10110 = .ok (.vsel { d := 2, a := 19, b := 4, typ := 9, var := 22 }) ∧
    decodeSlot .w0 0b010010_00010_10011_00100_001001_10110 = .ok (.vcvt { d := 2, a := 19, b := 4, typ := 9, var := 22 }) ∧
    decodeSlot .w0 0b010011_00010_10011_00100_001001_10110 = .ok (.vwmul { d := 2, a := 19, b := 4, typ := 9, var := 22 }) ∧
    decodeSlot .w0 0b010100_00010_10011_00100_001001_10110 = .ok (.vwfma { d := 2, a := 19, b := 4, typ := 9, var := 22 }) ∧
    decodeSlot .w0 0b010101_00010_10011_00100_001001_10110 = .ok (.vdot { d := 2, a := 19, b := 4, typ := 9, var := 22 }) ∧
    decodeSlot .w0 0b010110_00010_10011_00100_001001_10110 = .ok (.vscale { d := 2, a := 19, b := 4, typ := 9, var := 22 }) ∧
    decodeSlot .w0 0b010111_00010_10011_00100_001001_10110 = .ok (.vclass { d := 2, a := 19, b := 4, typ := 9, var := 22 }) ∧
    decodeSlot .w0 0b011000_00010_10011_00100_001001_10110 = .ok (.vexp2 { d := 2, a := 19, b := 4, typ := 9, var := 22 }) ∧
    decodeSlot .w0 0b011001_00010_10011_00100_001001_10110 = .ok (.vlog2 { d := 2, a := 19, b := 4, typ := 9, var := 22 }) ∧
    decodeSlot .w0 0b011010_00010_10011_00100_001001_10110 = .ok (.vrcp { d := 2, a := 19, b := 4, typ := 9, var := 22 }) ∧
    decodeSlot .w0 0b011011_00010_10011_00100_001001_10110 = .ok (.vrsq { d := 2, a := 19, b := 4, typ := 9, var := 22 }) := by decide

/-- R36, R39: words written out field by field. -/
theorem test_decode_vector_3 :
    decodeSlot .w0 0b011100_00010_10011_00100_001001_10110 = .ok (.vsqrt { d := 2, a := 19, b := 4, typ := 9, var := 22 }) ∧
    decodeSlot .w0 0b011101_00010_10011_00100_001001_10110 = .ok (.vsinp { d := 2, a := 19, b := 4, typ := 9, var := 22 }) ∧
    decodeSlot .w0 0b011110_00010_10011_00100_001001_10110 = .ok (.vcosp { d := 2, a := 19, b := 4, typ := 9, var := 22 }) ∧
    decodeSlot .w0 0b011111_00010_10011_00100_001001_10110 = .ok (.vtanh { d := 2, a := 19, b := 4, typ := 9, var := 22 }) ∧
    decodeSlot .w0 0b100000_00010_10011_00100_001001_10110 = .ok (.vrsum { d := 2, a := 19, b := 4, typ := 9, var := 22 }) ∧
    decodeSlot .w0 0b100001_00010_10011_00100_001001_10110 = .ok (.vrmax { d := 2, a := 19, b := 4, typ := 9, var := 22 }) ∧
    decodeSlot .w0 0b100010_00010_10011_00100_001001_10110 = .ok (.vrmin { d := 2, a := 19, b := 4, typ := 9, var := 22 }) ∧
    decodeSlot .w0 0b100011_00010_10011_00100_001001_10110 = .ok (.vperm { d := 2, a := 19, b := 4, typ := 9, var := 22 }) ∧
    decodeSlot .w0 0b100100_00010_10011_00100_001001_10110 = .ok (.vbcst { d := 2, a := 19, b := 4, typ := 9, var := 22 }) ∧
    decodeSlot .w0 0b100101_00010_10011_00100_001001_10110 = .ok (.vmovi { d := 2, a := 19, b := 4, typ := 9, var := 22 }) ∧
    decodeSlot .w0 0b100110_00010_10011_00100_001001_10110 = .ok (.vmov { d := 2, a := 19, b := 4, typ := 9, var := 22 }) ∧
    decodeSlot .w0 0b100111_00010_10011_00100_001001_10110 = .ok (.vmask { d := 2, a := 19, b := 4, typ := 9, var := 22 }) ∧
    decodeSlot .w0 0b101000_00010_10011_00100_001001_10110 = .ok (.vflag { d := 2, a := 19, b := 4, typ := 9, var := 22 }) ∧
    decodeSlot .w0 0b101001_00010_10011_00100_001001_10110 = .ok (.viota { d := 2, a := 19, b := 4, typ := 9, var := 22 }) := by decide

/-- R37, R39: words written out field by field. -/
theorem test_decode_move_1 :
    decodeSlot .w1 0b00000_000000000000000000000000000 = .ok (.wnop) ∧
    decodeSlot .w1 0b00001_00010_10011_10000000000000101 = .ok (.xset { d := 2, a := 19, ctl := 0x10005 }) ∧
    decodeSlot .w1 0b00010_00010_10011_10000000000000101 = .ok (.xget { d := 2, a := 19, ctl := 0x10005 }) ∧
    decodeSlot .w1 0b00011_00010_10011_10000000000000101 = .ok (.xshf { d := 2, a := 19, ctl := 0x10005 }) ∧
    decodeSlot .w1 0b00100_00010_10000000001_1111110_0110 = .ok (.cld { d := 2, off := 0x401, step := 0x7E, lat := 6 }) ∧
    decodeSlot .w1 0b00101_00010_10000000001_1111110_0000 = .ok (.cst { d := 2, off := 0x401, step := 0x7E, lat := 0 }) ∧
    decodeSlot .w1 0b00110_00010_10000000001_1111110_0110 = .ok (.cldm { d := 2, off := 0x401, step := 0x7E, lat := 6 }) ∧
    decodeSlot .w1 0b00111_00010_10000000001_1111110_0000 = .ok (.cstm { d := 2, off := 0x401, step := 0x7E, lat := 0 }) ∧
    decodeSlot .w1 0b01000_00010_10011_10000000000000101 = .ok (.fagg { d := 2, a := 19, ctl := 0x10005 }) ∧
    decodeSlot .w1 0b01001_00010_10011_10000000000000101 = .ok (.fset { d := 2, a := 19, ctl := 0x10005 }) ∧
    decodeSlot .w1 0b01010_00010_10011_10000000000000101 = .ok (.xside { d := 2, a := 19, ctl := 0x10005 }) ∧
    decodeSlot .w1 0b01011_00010_10011_10000000000000101 = .ok (.mvm { d := 2, a := 19, ctl := 0x10005 }) := by decide

/-- R38, R39: words written out field by field. -/
theorem test_decode_matrix_1 :
    decodeSlot .m 0b00000_00000000000000000000000000000000000000000000000000000000000 = .ok (.mnop) ∧
    decodeSlot .m 0b00001_110_1000_1001_000101_001001_10_00011_100_100000_10000001_00011111_1010 = .ok (.mma { acc := 6, asrc := 8, bsrc := 9, afmt := 5, bfmt := 9, nmm := 2, nm1 := 3, kblk := 4, lat := 32, arow := 0x81, brow := 0x1F, step := 10 }) ∧
    decodeSlot .m 0b00010_110_1000_1001_000101_001001_10_00011_100_100000_10000001_00011111_1010 = .ok (.mmas { acc := 6, asrc := 8, bsrc := 9, afmt := 5, bfmt := 9, nmm := 2, nm1 := 3, kblk := 4, lat := 32, arow := 0x81, brow := 0x1F, step := 10 }) ∧
    decodeSlot .m 0b00011_110_1000_1001_000101_001001_10_00011_100_100000_10000001_00011111_1010 = .ok (.mmaq { acc := 6, asrc := 8, bsrc := 9, afmt := 5, bfmt := 9, nmm := 2, nm1 := 3, kblk := 4, lat := 32, arow := 0x81, brow := 0x1F, step := 10 }) ∧
    decodeSlot .m 0b00100_110_1000_1001_000101_001001_10_00011_100_100000_10000001_00011111_1010 = .ok (.mmab { acc := 6, asrc := 8, bsrc := 9, afmt := 5, bfmt := 9, nmm := 2, nm1 := 3, kblk := 4, lat := 32, arow := 0x81, brow := 0x1F, step := 10 }) ∧
    decodeSlot .m 0b00101_110_1000_1001_000101_001001_10_00011_100_100000_10000001_00011111_1010 = .ok (.mzero { acc := 6, asrc := 8, bsrc := 9, afmt := 5, bfmt := 9, nmm := 2, nm1 := 3, kblk := 4, lat := 32, arow := 0x81, brow := 0x1F, step := 10 }) ∧
    decodeSlot .m 0b00110_110_1000_1001_000101_001001_10_00011_100_100000_10000001_00011111_1010 = .ok (.mcvt { acc := 6, asrc := 8, bsrc := 9, afmt := 5, bfmt := 9, nmm := 2, nm1 := 3, kblk := 4, lat := 32, arow := 0x81, brow := 0x1F, step := 10 }) ∧
    decodeSlot .m 0b00111_110_1000_1001_000101_001001_10_00011_100_100000_10000001_00011111_1010 = .ok (.mtrn { acc := 6, asrc := 8, bsrc := 9, afmt := 5, bfmt := 9, nmm := 2, nm1 := 3, kblk := 4, lat := 32, arow := 0x81, brow := 0x1F, step := 10 }) ∧
    decodeSlot .m 0b01000_110_1000_1001_000101_001001_10_00011_100_100000_10000001_00011111_1010 = .ok (.madd { acc := 6, asrc := 8, bsrc := 9, afmt := 5, bfmt := 9, nmm := 2, nm1 := 3, kblk := 4, lat := 32, arow := 0x81, brow := 0x1F, step := 10 }) ∧
    decodeSlot .m 0b01001_110_1000_1001_000101_001001_10_00011_100_100000_10000001_00011111_1010 = .ok (.mstat { acc := 6, asrc := 8, bsrc := 9, afmt := 5, bfmt := 9, nmm := 2, nm1 := 3, kblk := 4, lat := 32, arow := 0x81, brow := 0x1F, step := 10 }) := by decide

/-- R44: a header-only bundle. -/
theorem test_decode_header : decodeSlot .header 0b1010_000000000000_10_00000011_000000 = .ok (.stick 2 3) := by decide

/-- The encodings worked out in the chapters on the wavefront, Winograd, cell, fault, die and reduction programs. -/
theorem test_worked_words :
    decodeSlot .w0 0x40242902 = .ok (.vcmp { d := 1, a := 4, b := 5, typ := 8, var := 2 }) ∧
    decodeSlot .w0 0xA0010101 = .ok (.vflag { d := 0, a := 1, b := 0, typ := 8, var := 1 }) ∧
    decodeSlot .w1 0x4000001E = .ok (.fagg { d := 0, a := 0, ctl := 0x1E }) ∧
    decodeSlot .w0 0x8C208100 = .ok (.vperm { d := 1, a := 0, b := 16, typ := 8, var := 0 }) ∧
    decodeSlot .w0 0x10229100 = .ok (.vfma { d := 1, a := 2, b := 18, typ := 8, var := 0 }) ∧
    decodeSlot .w1 0x0806000A = .ok (.xset { d := 0, a := 3, ctl := 10 }) ∧
    decodeSlot .w1 0x10400000 = .ok (.xget { d := 1, a := 0, ctl := 0 }) ∧
    decodeSlot .w1 0x18000001 = .ok (.xshf { d := 0, a := 0, ctl := 1 }) ∧
    decodeSlot .m 0x2081208000600000 = .ok (.mmab { acc := 0, asrc := 8, bsrc := 1, afmt := 8, bfmt := 8, nmm := 0, nm1 := 0, kblk := 0, lat := 6,
                                                    arow := 0, brow := 0, step := 0 }) ∧
    decodeSlot .m 0x4980000020200000 = .ok (.mstat { acc := 1, asrc := 8, bsrc := 0, afmt := 0, bfmt := 0, nmm := 0, nm1 := 1, kblk := 0, lat := 2,
                                                     arow := 0, brow := 0, step := 0 }) ∧
    decodeSlot .b 0x083FFFF6 = .ok (.brT (-10)) ∧ decodeSlot .b 0x80000000 = .ok (.bara 0) ∧ decodeSlot .b 0x88000000 = .ok (.barw 0) ∧
    decodeSlot .s 0xE0051600 = .ok (.cwb (.s 20) (.s 22)) ∧ decodeSlot .s 0xE4051600 = .ok (.cinv (.s 20) (.s 22)) ∧
    decodeSlot .s 0xB1C6C040 = .ok (.st (.s 28) (.s 27) 4) ∧ decodeSlot .s 0xAC56C043 = .ok (.ld (.s 5) (.s 27) 4 3) ∧
    decodeSlot .e 0x1A3000016195_8008 = .ok (.hstz { cmd 8 with kp := 6, te := true, p0 := .s 24, p1 := .s 25, p2 := .s 22 }) ∧
    decodeSlot .e 0x6608000058000000 = .ok (.rgrp { cmd 0 with kp := 1, p0 := .s 22 }) ∧
    decodeSlot .e 0x6018000161C79D00 = .ok (.reds { cmd 0 with kp := 3, te := true, p0 := .s 24, p1 := .s 28, p2 := .s 30, p3 := .s 29 }) ∧
    decodeSlot .e 0x622000007E282109 = .ok (.redd { cmd 9 with kp := 4, p0 := .s 31, p1 := .s 34, p2 := .s 32, p3 := .s 33 }) := by
  decide

/-- The bundle worked out in the chapter on encoding: ADDI s3, s3, 64 | CLD v2, 0x0100, step=64, lat=4 rep 2 sel=z1. -/
theorem test_worked_bundle :
    decodeBundle 0xA0004091 [0x7430C040, 0x20802014] =
      .ok { sel := 1, rep := 2, len := 12, ops := [.addi (.s 3) (.s 3) 64, .cld { d := 2, off := 4, step := 1, lat := 4 }] } ∧
    decodeBundle 0xA00003F4 [0x28B30D00, 0x10100000, 0x18000001, 0x20200000, 0x49800000] =
      .ok { sel := 0, rep := 15, len := 24,
            ops := [.hload { cmd 0 with kp := 2, p0 := .s 10, p1 := .s 11, p2 := .s 12, p3 := .s 13 }, .xshf { d := 0, a := 0, ctl := 1 },
                    .mstat { acc := 1, asrc := 8, bsrc := 0, afmt := 0, bfmt := 0, nmm := 0, nm1 := 1, kblk := 0, lat := 2, arow := 0, brow := 0, step := 0 }] } := by
  decide

/-- R29: one bundle for each row, with its slot. The first three end the check of a marker, of a repeat with a B slot, and of two writers
of s5. -/
theorem test_badBundles :
    decodeBundle 0xB0000001 [0] = .error ⟨1, .header⟩ ∧ decodeBundle 0xA0010001 [0] = .error ⟨1, .header⟩ ∧
    decodeBundle 0xA0000042 [0] = .error ⟨2, .b⟩ ∧
    decodeBundle 0xA0000005 [0b011101_000101_000000_00000000000001, 0b000101_000000_000000_000000_00000000, 0b0100001_000000_000000_000000_000000_0] =
      .error ⟨3, .e⟩ ∧
    decodeBundle 0xA0000003 [0xFC000000, 0xC0000000] = .error ⟨4, .s⟩ ∧
    decodeBundle 0xA0000003 [0b011011_000001_000010_000000_000000_11, 0] = .error ⟨5, .s⟩ ∧
    decodeBundle 0xA0000003 [0, 1] = .error ⟨6, .b⟩ ∧ bundleLen 0xA000003F = 36 ∧ bundleLen 0xA0000000 = 4 := by
  decide

/-- The host's numbering: a 32-bit and a 64-bit row, and the header-only bundle. -/
theorem test_tableWords :
    decodeTableWord 32 0xAC508143 = some (.ld (.s 5) (.s 2) 20 3) ∧ decodeTableWord 64 0x3008418000000000 = some (.tkjoin { cmd 0 with kp := 1, kc0 := 2, kc1 := 3 }) ∧
    decodeTableWord 64 0x1A300001_61958008 = some (.hstz { cmd 8 with kp := 6, te := true, p0 := .s 24, p1 := .s 25, p2 := .s 22 }) := by
  decide

/-! ### Values -/

/-- The machine with a bundle of nothing launched on array 0: page 0 of its address space lies in memory from key 0x30000, and it runs as
supervisor. -/
def base : State := State.reset.launchBytes []

/-- The machine with another context on turn. -/
def turn (f : Context → Context) : State :=
  let c := f base.ctx
  { base with ctx := c, src := c }

/-- The state that an outcome goes on to. -/
def after (i : Instr) (s : State) : State := stateOf s (exec i s)

/-- Registers s1 to s5: the least and the greatest signed number, −1, a pattern, and 68. -/
def nums : State := turn fun c => { c with regs := ((((c.regs.set 1 (2 ^ 63)).set 2 (2 ^ 63 - 1)).set 3 (-1)).set 4 0x0123456789ABCDEF).set 5 68 }

/-- What an S-slot instruction leaves in s9. -/
def s9 (i : Instr) : Word := (after i nums).ctx.reg 9

/-- R51, R52, worked by hand: wraps, clamps, and the corners of division. -/
theorem test_arithmetic :
    s9 (.add (.s 9) (.s 2) (.s 2) false) = 0xFFFFFFFFFFFFFFFE ∧ s9 (.add (.s 9) (.s 2) (.s 2) true) = 0x7FFFFFFFFFFFFFFF ∧
    s9 (.sub (.s 9) (.s 1) (.s 2) false) = 1 ∧ s9 (.sub (.s 9) (.s 1) (.s 2) true) = 0x8000000000000000 ∧
    s9 (.mul (.s 9) (.s 1) (.s 3) false) = 0x8000000000000000 ∧ s9 (.mul (.s 9) (.s 1) (.s 3) true) = 0x7FFFFFFFFFFFFFFF ∧
    s9 (.mulh (.s 9) (.s 3) (.s 3)) = 0 ∧ s9 (.mulhn (.s 9) (.s 3) (.s 3)) = 0xFFFFFFFFFFFFFFFE ∧
    s9 (.div (.s 9) (.s 1) (.s 3)) = 0x8000000000000000 ∧ s9 (.div (.s 9) (.s 4) (.s 0)) = 0xFFFFFFFFFFFFFFFF ∧
    s9 (.divn (.s 9) (.s 1) (.s 3)) = 0 ∧ s9 (.rem (.s 9) (.s 1) (.s 3)) = 0 ∧ s9 (.rem (.s 9) (.s 4) (.s 0)) = 0x0123456789ABCDEF ∧
    s9 (.remn (.s 9) (.s 1) (.s 3)) = 0x8000000000000000 := by
  decide +kernel

/-- R51, R53 to R57, worked by hand: amounts modulo 64, comparisons of both kinds, fields and immediates. -/
theorem test_bits :
    s9 (.andn (.s 9) (.s 3) (.s 4)) = 0xFEDCBA9876543210 ∧ s9 (.shl (.s 9) (.s 4) (.s 5)) = 0x123456789ABCDEF0 ∧
    s9 (.shr (.s 9) (.s 4) (.s 5)) = 0x00123456789ABCDE ∧ s9 (.sra (.s 9) (.s 1) (.s 5)) = 0xF800000000000000 ∧
    s9 (.min (.s 9) (.s 1) (.s 4)) = 0x8000000000000000 ∧ s9 (.minn (.s 9) (.s 1) (.s 4)) = 0x0123456789ABCDEF ∧
    s9 (.max (.s 9) (.s 3) (.s 5)) = 68 ∧ s9 (.maxn (.s 9) (.s 3) (.s 5)) = 0xFFFFFFFFFFFFFFFF ∧
    s9 (.clz (.s 9) (.s 4)) = 7 ∧ s9 (.clz (.s 9) (.s 0)) = 64 ∧ s9 (.ctz (.s 9) (.s 5)) = 2 ∧ s9 (.popc (.s 9) (.s 4)) = 32 ∧
    s9 (.bext (.s 9) (.s 4) 4 7) = 0xDE ∧ s9 (.bins (.s 9) (.s 4) 60 3) = 0xF000000000000000 ∧
    s9 (.sext (.s 9) (.s 4) 0) = 0xFFFFFFFFFFFFFFEF ∧ s9 (.zext (.s 9) (.s 4) 1) = 0xCDEF ∧ s9 (.addi (.s 9) (.s 5) 0x3FFF) = 67 ∧
    s9 (.ori (.s 9) (.s 0) 0x3FFF) = 0x3FFF ∧ s9 (.srai (.s 9) (.s 1) 63) = 0xFFFFFFFFFFFFFFFF ∧ s9 (.movi (.s 9) 0x80000) = 0xFFFFFFFFFFF80000 ∧
    s9 (.movk (.s 9) 3 0x8001) = 0x8001000000000000 ∧ s9 (.lea (.s 9) (.s 5) (.s 3) 6) = 4 ∧
    (after (.add (.s 0) (.s 5) (.s 5) false) nums).ctx.reg 0 = 0 := by
  decide +kernel

/-- R60: a store and the load of one of its bytes, sign and place of the offset. -/
theorem test_store_then_load :
    let s := turn fun c => { c with regs := (c.regs.set 1 0x2000).set 2 0x8877665544332211 }
    let t := after (.st (.s 2) (.s 1) 0x3F8) s
    (t.homeByte 0x31FF8).1 = 0x11 ∧ (t.homeByte 0x31FFF).1 = 0x88 ∧ (t.homeByte 0x32000).1 = 0 ∧
      ((after (.ld (.s 3) (.s 1) 0x3FF 0) t).ctx.pend.map (fun p => (p.value, p.bound))) = [(0x88, 1)] := by
  decide +kernel

/-- R313, R317: the trap registers of the worked deferred fault (two faults of the W1 slot, kind 1, at address 0x2000). -/
theorem test_worked_fault :
    let f : DeferredFault := { issue := 0, held := false, due := false, kind := 1, slot := 1, row := 0, col := 0, addr := 0x2000 }
    let c : Context := { Context.blank with pc := 0x2008, rep := 33, faults := [f, f] }
    let d := c.enterTrap 0x0D f.info
    d.tcause = 0x5C0D ∧ d.tinfo = 0x800 ∧ d.tepc = 0x2008 ∧ d.trep = 33 ∧ d.tdsc = 0 ∧ d.pc = 0xD00 := by
  decide +kernel

/-- A machine of one cell whose vector registers v1, v2 and v3 hold the given bits. -/
def oneCell (a b d : BitVec 4096) : State :=
  turn fun c => { c with cells := [{ CellState.zero with v := ((CellState.zero.v.set 1 { bits := a, poi := 0 }).set 2 { bits := b, poi := 0 }).set 3 { bits := d, poi := 0 } }] }

/-- The low 64 bits of vector register `n` once the results that wait under a bound have landed. -/
def low (i : Instr) (s : State) (n : Fin 32) : Nat := (((after i s).ctx.landAll.cell 0).v[n]).bits.toNat % 2 ^ 64

/-- R111, R136: i8 sums of −1 + −128, −128 + −127 and 1 + 1, clamped; R143: 1.0 × 2^3, and the class of −0. -/
theorem test_vector_values :
    low (.vadd { d := 3, a := 1, b := 2, typ := 1, var := 16 }) (oneCell 0x0180FF 0x018180 0) 3 = 0x028080 ∧
    low (.vscale { d := 3, a := 1, b := 2, typ := 8, var := 0 }) (oneCell 0x3C00 3 0) 3 = 0x4800 ∧
    low (.vclass { d := 3, a := 1, b := 0, typ := 10, var := 0 }) (oneCell 0x80000000 0 0) 3 = 0x500000004 := by
  decide +kernel

/-- R123, R142: 2 × 1 + 2 × −1 leaves an f32 accumulator of −0 as it is. -/
theorem test_exact_zero_keeps_accumulator : low (.vdot { d := 3, a := 1, b := 2, typ := 8, var := 0 }) (oneCell 0x40004000 0xBC003C00 0x80000000) 3 = 0x80000000 := by
  decide +kernel

/-- R140, R141: 1.0 and −2.0 in f16 widen to f32 in v8 and v9. -/
theorem test_convert_widens :
    let i : Instr := .vcvt { d := 8, a := 1, b := 8, typ := 10, var := 0 }
    low i (oneCell 0xC0003C00 0 0) 8 = 0x3F800000 ∧ low i (oneCell 0xC0003C00 0 0) 9 = 0xC0000000 := by
  decide +kernel

/-- R145: 1 + 2 + 3 − 1, and the greatest and least of four, as i8. -/
theorem test_reduce_groups :
    low (.vrsum { d := 3, a := 1, b := 0, typ := 1, var := 1 }) (oneCell 0xFF030201 0 0) 3 = 5 ∧
    low (.vrmax { d := 3, a := 1, b := 0, typ := 5, var := 1 }) (oneCell 0xFF030201 0 0) 3 = 0xFF ∧
    low (.vrmin { d := 3, a := 1, b := 0, typ := 1, var := 1 }) (oneCell 0xFF030201 0 0) 3 = 0xFF := by
  decide +kernel

/-- R144: the reciprocal of 2, the square root of 4, and 2 to the power 3, in f32. -/
theorem test_special_values :
    (low (.vrcp { d := 3, a := 1, b := 0, typ := 10, var := 6 }) (oneCell 0x40000000 0 0) 3) % 2 ^ 32 = 0x3F000000 ∧
    (low (.vsqrt { d := 3, a := 1, b := 0, typ := 10, var := 6 }) (oneCell 0x40800000 0 0) 3) % 2 ^ 32 = 0x40000000 ∧
    (low (.vexp2 { d := 3, a := 1, b := 0, typ := 10, var := 6 }) (oneCell 0x40400000 0 0) 3) % 2 ^ 32 = 0x41000000 := by
  decide +kernel

/-- R372 to R375: node A of the worked merge. Index 5 of ranks 0 and 1 is 2^24 and 1.0, whose sum rounds to 2^24; index 7 is −0 from rank 1
alone; and index 5 = 2^24 with 1.0 rounds so again at the root. -/
theorem test_worked_merge : (addF32 0x4B800000 0x3F800000).1 = 0x4B800000 ∧ (addF32 0x40400000 0xC0400000).1 = 0 ∧ (addF32 0x3F800000 0x34000000).1 = 0x3F800001 := by
  decide +kernel

/-- R9, log entry 23: a launched machine runs the instruction that its entry address holds, in one step. -/
theorem test_step_runs_launched : (stateOf State.reset (step (State.reset.withFetchWord 32 0x74200041))).ctx.reg 2 = 0x41 := by
  decide +kernel

/-- R221: the worked example of the tiled layout, whose element (70, 35) lies at BASE + 0x318C. -/
theorem test_worked_tile :
    let r : BitVec 1024 := BitVec.ofNat 1024 (8 * 2 ^ 15 + 2 * 2 ^ 21 + 2 ^ 24 + 6 * 2 ^ 32 + 5 * 2 ^ 36 + 0x8000 * 2 ^ 128 + 100 * 2 ^ 192 + 40 * 2 ^ 224 + 2 ^ 256 + 2 ^ 288 + 2 ^ 320)
    recMalformed r = false ∧ (Shape.ofBits r).bitAddr ⟨70, 35, 0, 0, 0⟩ = (0x8000 + 0x318C, 0) ∧ (Shape.ofBits r).inside ⟨70, 40, 0, 0, 0⟩ = false := by
  decide +kernel

/-! ### Witnesses

For every obligation with hypotheses, a state and operands that meet them together; where its clauses stand over one input, one for
each, at a boundary. -/

/-- An answer that has a value with a property. -/
theorem exists_ok {ε α : Type} {e : Except ε α} {p : α → Bool}
    (h : (match e with
      | .ok a => p a
      | .error _ => false) = true) : ∃ a, e = .ok a ∧ p a = true := by
  cases e with
  | ok a => exact ⟨a, rfl, h⟩
  | error _ => simp at h

/-- An answer that is there and has a property. -/
theorem some_ok {α : Type} {e : Option α} {p : α → Bool}
    (h : (match e with
      | some a => p a
      | none => false) = true) : ∃ a, e = some a ∧ p a = true := by
  cases e with
  | some a => exact ⟨a, rfl, h⟩
  | none => simp at h

/-- A stream bound for reading that has its `ws` at hand, and one bound for writing `n` elements. -/
def readable (ws : List Word) : Stream :=
  { Stream.free with bind := .bound, size := 2, cnt := #v[BitVec.ofNat 32 ws.length, 1, 1, 1], next := ws.length, buf := ws.map .value }
def writable (n : Nat) : Stream := { Stream.free with bind := .bound, write := true, size := 3, cnt := #v[BitVec.ofNat 32 n, 1, 1, 1] }

/-- s1 to s5 as above; q2 delivers 7, then 0; q3 takes one element. -/
def ops : State := turn fun c => { nums.ctx with streams := (c.streams.set 2 (readable [7, 0])).set 3 (writable 1) }

theorem witness_TwoSourceResults :
    ops.Delivers [.s 1, .q 2] [2 ^ 63, 7] ∧ ops.Delivers [.q 2, .q 2] [7, 0] ∧ ops.Delivers [.s 5, .s 0] [68, 0] ∧ ops.Accepts (.s 9) ∧
      ops.Accepts (.s 0) ∧ ops.Accepts (.q 3) := by
  unfold State.Delivers State.Accepts
  decide +kernel

theorem witness_LeaAddsShifted : ops.Delivers [.s 2, .q 2] [2 ^ 63 - 1, 7] ∧ ops.Accepts (.q 3) := by
  unfold State.Delivers State.Accepts
  decide +kernel

theorem witness_OneSourceResults :
    ops.Delivers [.s 1] [2 ^ 63] ∧ ops.Delivers [.s 0] [0] ∧ ops.Accepts (.s 9) ∧ (10 : BitVec 6).toNat + (53 : BitVec 6).toNat ≤ 63 := by
  unfold State.Delivers State.Accepts
  decide +kernel

theorem witness_ImmediateResults : ops.Delivers [.q 2] [7] ∧ ops.Accepts (.q 3) := by
  unfold State.Delivers State.Accepts
  decide +kernel

theorem witness_FieldReplacingResults :
    ops.Delivers [.s 4, .q 2] [ops.readReg 4, 7] ∧ ops.Delivers [.s 0, .s 1] [ops.readReg 0, 2 ^ 63] ∧ (63 : BitVec 6).toNat + (0 : BitVec 6).toNat ≤ 63 ∧
      ops.Accepts (.q 3) := by
  unfold State.Delivers State.Accepts
  decide +kernel

theorem witness_OperandsLeaveRestAlone : ops.Delivers [.q 2] [7] ∧ (2 : Fin 16) ≠ 15 ∧ ops.Delivers [.s 1, .q 2, .q 2] [2 ^ 63, 7, 0] := by
  unfold State.Delivers
  decide +kernel

theorem witness_AluFrame : ops.checkOpnds Claims.none [.s 4, .q 2] [.q 3] = .go ∧ ∃ t, exec (.add (.q 3) (.s 4) (.q 2) false) ops = .next t :=
  ⟨by decide +kernel, _, rfl⟩

theorem witness_CompareFillsQueue : ops.Delivers [.s 3, .q 2] [-1, 7] ∧ ops.Delivers [.s 0] [0] ∧ ops.Delivers [.q 2] [7] := by
  unfold State.Delivers
  decide +kernel

/-- An entry of the condition queue. -/
def entry (tag : Nat) (v : Option Bool) : CqEntry := { tag := tag, val := v, poi := false }

/-- k1 complete with status 0, k2 pending under TE, k3 complete with status 1 under TE, k4 with status 5. -/
def tickets : State := turn fun c => { c with tickets :=
  (((c.tickets.set 2 { Ticket.free with pending := true, te := true }).set 3 { Ticket.free with status := 1, te := true }).set 4
    { Ticket.free with status := 5, te := true }) }

/-- A command that produces ticket `kp`. -/
def command (i : Instr) (e : Cmd) : EngCmd :=
  { op := i, e := e, seq := 0, p := Vector.replicate 4 0, idx := [], asid := 0, level := .supervisor, ttbase := 0, deps := [], started := true,
    closed := false, outcome := none, sink := false, recs := [], scales := [], block := 0, bytes := [], tile := 0, serial := false, prog := List.replicate 16 0,
    checked := [], miss := [], met6 := false, poisoned := 0, units := [], clamps := 0, zeroed := [], held := [],
    out := [], later := 0, opNo := 0 }

theorem witness_TicketTestFillsQueue :
    (tickets.ctx.ticket 1).pending = false ∧ (tickets.ctx.ticket 1).status = 0 ∧ (tickets.ctx.ticket 3).pending = false ∧ (tickets.ctx.ticket 3).status ≠ 0 ∧
      (tickets.ctx.ticket 2).pending = true ∧ entry 0 none ∈ [entry 0 none] ∧ (command .nop { cmd 0 with kp := 2 }).e.kp = 2 := by
  decide +kernel

/-- A queue of a true and a false entry, and the operands above. -/
def queued (es : List CqEntry) : State := turn fun _ => { ops.ctx with cq := es, tag := es.length }

theorem witness_ConsumersPopHead :
    let s := queued [entry 0 (some true), entry 1 (some false)]
    s.ctx.cq = entry 0 (some true) :: [entry 1 (some false)] ∧ s.Accepts (.q 3) ∧ s.Delivers [.s 1, .q 2] [2 ^ 63, 7] ∧ s.src.dsc = 0 ∧
      (1 : BitVec 4).toNat + 1 ≤ s.ctx.cq.length ∧ (∀ e ∈ s.ctx.cq.take 2, e.val.isSome = true) ∧ s.ctx.cq.length < (2 : BitVec 4).toNat + 1 ∧
      (queued []).ctx.cq = [] := by
  unfold State.Delivers State.Accepts
  decide +kernel

/-- s1 holds the address of 8 bytes that end at a page's end, s2 a value, s3 an address of scratch, s4 one whose bytes leave the address
space, s5 one of 8 bytes that cross a line; the partition holds 1 MiB. -/
def pointed (c : Context) : Context :=
  { c with regs := ((((c.regs.set 1 0x2FF8).set 2 0x1122334455667788).set 3 (BitVec.ofNat 64 bwin)).set 4 (2 ^ 56 - 4)).set 5 0x2FFC,
           scrhi := 2, blocks := [0] }
def mapped : State := turn pointed

/-- As `mapped`, with page 0 at a given physical page, and in a region of die 1 with the given bits of its entry. -/
def paged (ppn : Nat) (s : State) : State :=
  s.putBytes (iptOff + 16 * (codeOff / 65536)) (leBytes 16 (ppn * 2 ^ 88 + 7 * 2 ^ 45 + 0xF * 2 ^ 7 + 2 ^ 6 + 1))
def regioned (bits : Nat) : State :=
  paged 0 { mapped with mgmt.latched.rgn := mapped.mgmt.latched.rgn.set 0 (BitVec.ofNat 128 (bits + 2 ^ 117 + 2 ^ 103)) }

/-- No bitmap is placed where no region is and every bitmap register is 0. -/
theorem noBitmap {s : State} (hr : s.mgmt.latched.regions = []) (hx : s.mgmt.latched.xdbmb = Vector.replicate 6 0) (k : Nat) : ¬ s.BitmapByte k := by
  rintro ⟨key, h⟩
  unfold State.bitmapKey at h
  split at h
  · exact Option.some_ne_none _ h.symm
  · have hz : ∀ i, (s.mgmt.latched.xdbmb.toList.getD i (0 : Word)).toNat = 0 := fun i => by
      rw [hx]
      rcases i with _ | _ | _ | _ | _ | _ | i <;> rfl
    have hp : ∀ o, o < 2 ^ 48 → s.place o = none := fun o ho => by
      have f : fld o 48 3 = 0 := by unfold fld; omega
      simp only [State.place, placeByte, if_neg (show ¬ 2 ^ 52 ≤ o by omega), if_neg (show ¬ 2 ^ 51 ≤ o by omega), f, XlatRegs.regionOf, hr,
        List.find?_nil, ne_eq, not_true_eq_false, if_false, if_neg (show ¬ (0 : Nat) = 1 by decide)]
    rw [hz, hp _ (by omega)] at h
    exact Option.some_ne_none _ h.symm

theorem noBitmap_mapped : ∀ k, ¬ mapped.BitmapByte k := noBitmap (by decide +kernel) (by decide +kernel)

theorem witness_LoadOwesItsBytes :
    mapped.src = mapped.ctx ∧ mapped.Delivers [.s 1] [0x2FF8] ∧ mapped.Delivers [.s 5] [0x2FFC] ∧ mapped.Accepts (.s 5) ∧ mapped.ctx.pend.length < 64 ∧
      mapped.posted = [] ∧ (effAddr 0x2FF8 8).toNat % 128 + offSize 8 = 128 ∧ 128 < (effAddr 0x2FFC 8).toNat % 128 + offSize 8 ∧
      (∃ ls, mapped.locateN (mapped.src.who mapped.variant) (effAddr 0x2FF8 8).toNat .load (offSize 8) = .ok ls ∧ ls.all Loc.plainMem = true) ∧
      (∃ ls, mapped.locateN (mapped.src.who mapped.variant) (effAddr 0x2FFC 8).toNat .load (offSize 8) = .ok ls ∧ ls.all Loc.plainMem = true) ∧
      ∀ k, ¬ mapped.BitmapByte k := by
  unfold State.Delivers State.Accepts
  refine ⟨rfl, ?_, ?_, ?_, ?_, ?_, ?_, ?_, exists_ok ?_, exists_ok ?_, noBitmap_mapped⟩ <;> decide +kernel

/-- A result for a register, one for a stream, and one that consumed poison. -/
def owed (d : Dest) (poison : Option Nat) : Pending := { dest := d, value := 5, writes := [], acc := false, bound := 3, made := 1, addr := 0x1000, poison := poison }
def owing : State := turn fun c => { c with
  pend := [owed (.reg 4) none, owed (.stream 3 9) none, owed (.reg 5) (some 0)], streams := c.streams.set 3 { writable 2 with buf := [.owed 8, .owed 9] } }

/-- The upper part of a load into s4, whose lower byte is there, still to come. -/
def halfLoad : Half :=
  { locs := [.mem { pa := 2 ^ 51 + 0x33000, key := 0x33000, cls := .pinned, zmap := false, cmpr := false }], bytes := [], low := 1, lowPoi := false,
    dest := .reg 4, made := 1, arrive := [3] }

theorem witness_LoadOwesItsBytes_half :
    let r := turn fun c => { pointed c with half := some halfLoad, pend := [owed (.reg 4) none, owed (.reg 5) none] }
    (r.ctx.half = some halfLoad ∧ halfLoad.bytes = [] ∧ halfLoad.locs.all Loc.plainMem = true ∧ r.posted = [] ∧
      (r.ctx.pend[0]?.any (fun o => o.made == halfLoad.made && o.dest == halfLoad.dest)) = true ∧
      (r.ctx.pend[1]?.any (fun o => o.made == halfLoad.made && o.dest == halfLoad.dest)) = false) ∧ ∀ k, ¬ r.BitmapByte k :=
  ⟨by decide +kernel, noBitmap (by decide +kernel) (by decide +kernel)⟩

theorem witness_ResultLandsAtDestination :
    owing.ctx.pend = [] ++ owed (.reg 4) none :: [owed (.stream 3 9) none, owed (.reg 5) (some 0)] ∧ owing.ctx.pend = [owed (.reg 4) none] ++
      owed (.stream 3 9) none :: [owed (.reg 5) (some 0)] ∧ (owing.ctx.streams[3]).buf = [.owed 8] ++ .owed 9 :: [] ∧ StreamElem.owed 9 ∉ [StreamElem.owed 8] ∧
      owing.ctx.pend = [owed (.reg 4) none, owed (.stream 3 9) none] ++ owed (.reg 5) (some 0) :: [] ∧
      (∀ o ∈ [owed (.reg 4) none, owed (.stream 3 9) none], o.dest ≠ .reg 5) := by
  decide +kernel

/-- Whether the places of a store's bytes are all of one kind, each once, and in no flagged tile. -/
def storable (s : State) (kind : Loc → Bool) (ls : List Loc) : Bool :=
  ls.all kind && decide ((∀ k ∈ memKeys ls, tileOf k ∉ s.zflags ∧ tileOf k ∉ s.zflagErr) ∧ (memKeys ls).Nodup ∧ ls.Nodup)

theorem witness_StoreWritesItsBytes_memory :
    (mapped.MemoryCanonical ∧ mapped.Delivers [.s 2, .s 1] [0x1122334455667788, 0x2FF8] ∧ mapped.Delivers [.s 2, .s 5] [0x1122334455667788, 0x2FFC] ∧
      mapped.src = mapped.ctx ∧ (effAddr 0x2FF8 8).toNat % 128 + offSize 8 = 128 ∧ 128 < (effAddr 0x2FFC 8).toNat % 128 + offSize 8) ∧
    (∃ ls, mapped.locateN (mapped.src.who mapped.variant) (effAddr 0x2FF8 8).toNat .store (offSize 8) = .ok ls ∧ storable mapped Loc.plainMem ls = true) ∧
    (∃ ls, mapped.locateN (mapped.src.who mapped.variant) (effAddr 0x2FFC 8).toNat .store (offSize 8) = .ok ls ∧
      storable mapped Loc.plainMem (ls.take 4) = true) ∧
    mapped.Delivers [.s 2, .s 4] [0x1122334455667788, 2 ^ 56 - 4] ∧
    mapped.locateN (mapped.src.who mapped.variant) (effAddr (2 ^ 56 - 4) 8).toNat .store (offSize 8) = .error (.fault, 2 ^ 56 - 4) := by
  unfold State.Delivers State.MemoryCanonical
  exact ⟨by decide +kernel, exists_ok (by decide +kernel), exists_ok (by decide +kernel), by decide +kernel, by decide +kernel⟩

theorem witness_StoreWritesItsBytes_others :
    (mapped.Delivers [.s 2, .s 3] [0x1122334455667788, BitVec.ofNat 64 bwin] ∧
      (∀ c ∈ mapped.ctx :: mapped.others, Memory.wf c.scratch = true ∧ c.scratchPoi.Pairwise (· < ·)) ∧
      ∃ ls, mapped.locateN (mapped.src.who mapped.variant) (effAddr (BitVec.ofNat 64 bwin) 1).toNat .store (offSize 1) = .ok ls ∧
        storable mapped Loc.inScratch ls = true) ∧
    (let h := paged (2 ^ 32) mapped
     h.MemoryCanonical ∧ h.Delivers [.s 2, .s 1] [0x1122334455667788, 0x2FF8] ∧ h.src = h.ctx ∧
      ∃ ls, h.locateN (h.src.who h.variant) (effAddr 0x2FF8 8).toNat .store (offSize 8) = .ok ls ∧ storable h Loc.hostMem ls = true) ∧
    (let r := regioned (2 ^ 114)
     r.writeBacks = [] ∧ r.MemoryCanonical ∧ r.Delivers [.s 2, .s 1] [0x1122334455667788, 0x2FF8] ∧ r.src = r.ctx ∧
      ∃ ls, r.locateN (r.src.who r.variant) (effAddr 0x2FF8 8).toNat .store (offSize 8) = .ok ls ∧ ls.all Loc.software = true) := by
  unfold State.Delivers State.MemoryCanonical
  exact ⟨⟨by decide +kernel, by decide +kernel, exists_ok (by decide +kernel)⟩,
    ⟨by decide +kernel, by decide +kernel, by decide +kernel, exists_ok (by decide +kernel)⟩,
    ⟨by decide +kernel, by decide +kernel, by decide +kernel, by decide +kernel, exists_ok (by decide +kernel)⟩⟩

theorem witness_StoreWritesItsBytes_half :
    let h : Half := { locs := [.mem { pa := 2 ^ 51 + 0x33000, key := 0x33000, cls := .pinned, zmap := false, cmpr := false }], bytes := [5], low := 0,
                      lowPoi := false, dest := .none, made := 0, arrive := [] }
    let s := turn fun c => { pointed c with half := some h }
    s.MemoryCanonical ∧ s.src = s.ctx ∧ s.Delivers [.s 2, .s 1] [0x1122334455667788, 0x2FF8] ∧ s.ctx.half = some h ∧ h.bytes ≠ [] ∧
      storable s Loc.plainMem h.locs = true := by
  unfold State.Delivers State.MemoryCanonical
  decide +kernel

theorem witness_AtomicsReadComputeWrite :
    mapped.src = mapped.ctx ∧ mapped.ctx.pend.length < 64 ∧ mapped.MemoryCanonical ∧ mapped.Delivers [.s 1, .s 2] [0x2FF8, 0x1122334455667788] ∧ mapped.Accepts (.s 5) ∧
    mapped.Delivers [.s 0, .s 1, .s 2] [0, 0x2FF8, 0x1122334455667788] ∧ mapped.Delivers [.s 4, .s 2] [2 ^ 56 - 4, 0x1122334455667788] ∧
    mapped.posted = [] ∧ (∀ k, ¬ mapped.BitmapByte k) ∧
    (∃ ls, mapped.locateN (mapped.src.who mapped.variant) 0x2FF8 .atomic 8 = .ok ls ∧
      (storable mapped Loc.plainMem ls && !anyPoison (ls.map (mapped.loadByte mapped.src))) = true) ∧
    0x2FF8 / 128 = (0x2FF8 + 8 - 1) / 128 ∧
    (turn fun c => { c with regs := (c.regs.set 1 (2 ^ 56)).set 2 0x2FFC }).Delivers [.s 1, .s 0] [2 ^ 56, 0] ∧
    (turn fun c => { c with regs := (c.regs.set 1 (2 ^ 56)).set 2 0x2FFC }).Delivers [.s 2, .s 0] [0x2FFC, 0] ∧ 0x2FFC / 128 ≠ (0x2FFC + 8 - 1) / 128 ∧
    (turn fun c => { c with regs := (c.regs.set 1 (2 ^ 56)).set 2 0x2FFE }).Delivers [.s 2, .s 0] [0x2FFE, 0] ∧ 0x2FFE / 128 ≠ (0x2FFE + 4 - 1) / 128 ∧
    (turn fun c => { c with regs := (c.regs.set 1 (2 ^ 56)).set 2 0x2FFE }).Delivers [.s 0, .s 2, .s 0] [0, 0x2FFE, 0] ∧
    (turn fun c => { c with regs := (c.regs.set 1 (2 ^ 56)).set 2 0x2FFE }).Delivers [.s 0, .s 1, .s 0] [0, 2 ^ 56, 0] := by
  unfold State.Delivers State.MemoryCanonical State.Accepts
  and_intros <;> first | decide +kernel | exact exists_ok (by decide +kernel) | exact noBitmap_mapped

/-- A context at a level, with two loops open. -/
def levelled (l : Level) : State := turn fun c => { c with level := l, loops := [{ first := 0x1010, last := 0x1020, idx := 1, remain := 2 }, { first := 0x1008, last := 0x1040, idx := 0, remain := 7 }] }

theorem witness_ControlRegistersRead :
    (levelled .user).Accepts (.s 9) ∧ (0x054 : BitVec 14).toNat < 0x100 ∧ 0x100 ≤ (0x106 : BitVec 14).toNat ∧ (levelled .user).src.level = .user ∧
      (levelled .supervisor).src.level ≠ .user ∧ (levelled .supervisor).ctx.loops.reverse[1]? = some { first := 0x1010, last := 0x1020, idx := 1, remain := 2 } := by
  unfold State.Accepts
  decide +kernel

theorem witness_ControlRegistersWrite :
    let s := turn fun c => { c with regs := (c.regs.set 1 0x1F0F0A).set 2 0x60F }
    let u := turn fun c => { c with level := .user, regs := (c.regs.set 1 0x1F0F0A).set 2 0x60F }
    s.src = s.ctx ∧ s.Delivers [.s 1] [0x1F0F0A] ∧ cregWritable s.src.level 0x040 = true ∧ cregValueOk 0x040 0x1F0F0A = true ∧ s.src.level ≠ .user ∧
      cregWritable s.src.level 0x002 = false ∧ s.Delivers [.s 2] [0x60F] ∧ cregValueOk 0x040 0x60F = false ∧ shapeValid 0x1F0F0A = true ∧
      s.Delivers [.s 1, .s 2] [0x1F0F0A, 0x60F] ∧ u.src.level = .user ∧ u.Delivers [.s 1] [0x1F0F0A] ∧ cregWritable u.src.level 0x006 = false ∧ 0x100 ≤ (0x101 : BitVec 14).toNat := by
  unfold State.Delivers
  decide +kernel

/-- A write-back of byte 0 of a line that the context on turn has sent from the L1 of array 0. -/
def sentBack (key : Nat) : WriteBack :=
  { line := 0x60, key := key, data := 5, poi := 0, mask := 1, owner := some base.ctx.ctxid.toNat, src := some (.l1 0), serves := [0], fenced := [] }

theorem witness_FencesAndCacheOps :
    let s := turn fun c => { c with regs := (c.regs.set 1 0x2FF8).set 2 (2 ^ 56 - 0x2FF8) }
    let w : State := { s with writeBacks := [sentBack 0x3000] }
    let d : SwLine := { cache := .l1 0, line := 0x5F, key := 2 ^ 37 + 0x2F80, data := 7, poi := 0, dirty := 1, stale := false, serves := [0] }
    let r : State := { regioned (2 ^ 114) with swLines := [d] }
    (s.src = s.ctx ∧ (2 : BitVec 2) ≠ 0 ∧ s.zflags = [] ∧ s.zflagErr = [] ∧ s.writeBacks = []) ∧
    (w.src = w.ctx ∧ w.sentFor w.ctx (sentBack 0x3000) = true ∧ (sentBack 0x3000).src.isSome = true ∧ (sentBack 0x3000).key % 128 = 0 ∧
      (sentBack 0x3000).mask.getLsbD 0 = true) ∧
    (s.Delivers [.s 1, .s 0] [0x2FF8, 0] ∧ (0x2FF8 : Word).toNat + (0 : Word).toNat ≤ 2 ^ 56 ∧
      s.Delivers [.s 1, .s 2] [0x2FF8, 2 ^ 56 - 0x2FF8] ∧ (0x2FF8 : Word).toNat + (2 ^ 56 - 0x2FF8 : Word).toNat ≤ 2 ^ 56 ∧
      s.Delivers [.s 2, .s 2] [2 ^ 56 - 0x2FF8, 2 ^ 56 - 0x2FF8] ∧ 2 ^ 56 < (2 ^ 56 - 0x2FF8 : Word).toNat + (2 ^ 56 - 0x2FF8 : Word).toNat) ∧
    (r.src = r.ctx ∧ r.Delivers [.s 1, .s 1] [0x2FF8, 0x2FF8] ∧ (CacheId.l1 0, 0x5F) ∈ (r.reading [.s 1, .s 1]).coveredLines r.src 0x2FF8 8 ∧
      r.swLine (.l1 0) 0x5F = some d ∧ d.dirty ≠ 0) := by
  unfold State.Delivers
  decide +kernel

theorem witness_TlbiRemovesTranslations :
    let s := turn fun c => { c with regs := (c.regs.set 1 (BitVec.ofNat 64 (bwin - 1))).set 2 0x7FF }
    s.src = s.ctx ∧ s.src.level ≠ .user ∧ s.Delivers [.s 1, .s 2] [BitVec.ofNat 64 (bwin - 1), 0x7FF] ∧ s.Delivers [.s 2] [0x7FF] ∧
      (0x7FF : Word).toNat < 2 ^ 11 ∧ (BitVec.ofNat 64 (bwin - 1) : Word).toNat < bwin ∧ (levelled .user).src.level = .user ∧
      (∀ c ∈ s.ctx :: s.others, c.half = none ∧ ∀ k ∈ c.cmds, k.out = []) := by
  unfold State.Delivers
  decide +kernel

/-- A context with a result to land and a condition-queue entry that its ticket still owes. -/
def waiting (v : Option Bool) : Context := { owing.ctx with cq := [entry 0 v], pc := 2 ^ 56 - 4, dsc := 2, rep := 255, target := 0x2000 }

theorem witness_TrapEntrySavesAndVectors :
    let c := waiting (some true)
    0xFF < 256 ∧ c.pc < 2 ^ 56 ∧ c.pc % 4 = 0 ∧ c.dsc < 3 ∧ c.rep < 256 ∧ c.target.toNat < 2 ^ 56 ∧ c.inh = false ∧ c.quiesce.cqAllFilled = true ∧
      (waiting none).inh = false ∧ (waiting none).quiesce.cqAllFilled = false ∧ ({ c with tcause := 2 ^ 10 } : Context).inh = true := by
  decide +kernel

theorem witness_SoftwareTrapsEnter :
    let s := base
    let d := turn fun c => { c with dsc := 1 }
    s.src = s.ctx ∧ s.ctx.inh = false ∧ s.ctx.pc < 2 ^ 56 ∧ s.ctx.pc % 4 = 0 ∧ s.ctx.pend = [] ∧ s.ctx.faggs = [] ∧ s.ctx.dripFlights = [] ∧
      s.ctx.cqAllFilled = true ∧ s.ctx.dsc = 0 ∧ d.ctx.inh = false ∧ d.ctx.cqAllFilled = true ∧ 0 < d.ctx.dsc := by
  decide +kernel

/-- Four no-ops at the entry address. -/
def coded (f : Context → Context) : State :=
  let s := State.reset.launchBytes (loneBundle .s 0 ++ loneBundle .s 0 ++ loneBundle .s 0 ++ loneBundle .s 0)
  let c := f { s.ctx with regs := (s.ctx.regs.set 1 0x1018).set 2 (2 ^ 32 - 1), streams := s.ctx.streams.set 2 (readable [3, 5]) }
  { s with ctx := c, src := c }

theorem witness_BranchesSetTargetAndDelay :
    let s := coded (fun c => { c with cq := [entry 0 (some false)] })
    let l := coded (fun c => { c with loops := [{ first := 0x1000, last := 0x1018, idx := 0, remain := 1 }] })
    s.src = s.ctx ∧ s.ctx.dsc = 0 ∧ s.bundlesOn s.src s.src.pc 3 = .ok 0x1018 ∧ s.ctx.loops = [] ∧ s.ctx.cq = entry 0 (some false) :: [] ∧
      s.Delivers [.s 1] [0x1018] ∧ l.bundlesOn l.src l.src.pc 3 = .ok 0x1018 ∧ (∀ n < 3, l.bundlesOn l.src l.src.pc n ≠ .ok 0x1018) := by
  unfold State.Delivers
  decide +kernel

theorem witness_BranchInDelaySlotTraps :
    0 < (coded fun c => { c with dsc := 1 }).src.dsc ∧ (coded fun c => { c with dsc := 1 }).src.level ≠ .user ∧
      0 < (coded fun c => { c with dsc := 2, level := .firmware }).src.dsc ∧ (coded fun c => { c with dsc := 2, level := .firmware }).src.level = .firmware ∧
      (let s := coded fun c => { c with dsc := 1, streams := c.streams.set 2 { readable [3, 5] with delta := true } }
       s.bundlesOn s.src s.src.pc 3 = .ok 0x1018 ∧ (4 : BitVec 13) ≠ 0 ∧ s.cascade (s.src.pc + 4 * (4 : BitVec 14).toNat) s.src.loops = .ok (0x1018, []) ∧
         s.Delivers [.q 2] [2] ∧ (2 : Word) ≠ 0 ∧ (s.ctx.streams[2]).bind = .bound ∧ (s.ctx.streams[2]).delta = true ∧ s.src.loops = []) ∧
      (let s := coded fun c => { c with dsc := 1, loops := [{ first := 0x1000, last := 0x1010, idx := 0, remain := 3 }] }
       0 < s.src.dsc ∧ s.src.loops = { first := 0x1000, last := 0x1010, idx := 0, remain := 3 } :: [] ∧ s.cascade 0x1010 [] = .ok (0x1018, [])) := by
  unfold State.Delivers
  decide +kernel

/-- Bodies that end at 0x1010, with six loops open, with one that ends there, and with one that ends before. -/
def looping (es : List Nat) : State := coded fun c => { c with loops := es.map (fun e => { first := 0x1000, last := e, idx := 0, remain := 3 }) }

theorem witness_LoopsPushAndSkip :
    (coded id).src = (coded id).ctx ∧ (coded id).ctx.dsc = 0 ∧ (coded id).nextBundle (coded id).src (coded id).src.pc = .ok 0x1008 ∧
    (coded id).ctx.loops.length < 6 ∧ (coded id).ctx.loops = [] ∧ (coded id).Delivers [.s 2] [2 ^ 32 - 1] ∧ 0 < (2 ^ 32 - 1 : Word).toNat ∧ (2 ^ 32 - 1 : Word).toNat < 2 ^ 32 ∧
    (coded fun c => { c with streams := c.streams.set 2 { readable [3, 5] with delta := true } }).Delivers [.q 2] [2] ∧
    (coded fun c => { c with streams := c.streams.set 2 { readable [3, 3] with delta := true } }).Delivers [.q 2] [0] ∧
    (coded fun c => { c with streams := c.streams.set 2 { readable [3, 2 ^ 32 + 3] with delta := true } }).Delivers [.q 2] [2 ^ 32] ∧
    (looping [0x1010]).ctx.loops.length < 6 ∧ (looping [0x1010]).nextBundle (looping [0x1010]).src (looping [0x1010]).src.pc = .ok 0x1008 ∧
    (coded id).cascade (0x1000 + 4 * (4 : BitVec 14).toNat) [] = .ok (0x1018, []) ∧ (coded id).Delivers [.s 0] [0] ∧
    (looping [0x1010, 0x1018]).cascade 0x1010 (looping [0x1018]).ctx.loops = .ok (0x1018, (looping [0x1018]).ctx.loops) ∧
    (looping [0x1018, 0x1018, 0x1018, 0x1018, 0x1018, 0x1018]).ctx.loops.length = 6 ∧ (coded fun c => { c with regs := c.regs.set 2 (2 ^ 32) }).Delivers [.s 2] [2 ^ 32] ∧
    ¬ (∀ o r, (looping [0x1008]).ctx.loops = o :: r → 0x1010 ≤ o.last) := by
  unfold State.Delivers
  and_intros <;> first | decide +kernel | exact fun h => absurd (h _ _ rfl) (by decide)

theorem witness_LoopEndAction :
    let done : LoopEntry := { first := 0x1000, last := 0x1000, idx := 3, remain := 0 }
    let more : LoopEntry := { first := 0xF00, last := 0x1000, idx := 0, remain := 1 }
    let c := (coded fun c => { c with loops := [done, more] }).ctx
    c.goto = none ∧ c.loops = [done] ++ [more] ∧ (∀ e ∈ [done], e.last = c.pc ∧ e.remain = 0) ∧ (∀ e ∈ ([] : List LoopEntry), e.last = c.pc ∧ e.remain = 0) ∧ c.dsc ≠ 1 ∧ more.last = c.pc ∧ 0 < more.remain ∧
      (coded fun c => { c with loops := [done] }).ctx.loops = [done] ++ [] ∧ ({ c with dsc := 1 } : Context).dsc = 1 ∧ ({ c with dsc := 2 } : Context).dsc = 2 := by
  decide +kernel

/-- A brigade of two: the context on turn, and a mate whose counters for slot 3 are given. -/
def mated (mine his : BitVec 32) : State :=
  let s := turn fun c => { tickets.ctx with brigade := 2, bars := c.bars.set 3 mine }
  { s with others := [{ s.ctx with rank := 1, bars := s.ctx.bars.set 3 his }] }

theorem witness_WaitsHoldAndRelease :
    let s := mated 0 0
    let mates (s : State) := s.others.filter (fun m => m.sameBrigade (s.ctx.who s.variant) && !m.arrivedForAll)
    s.src = s.ctx ∧ s.ctx.dsc = 0 ∧ (s.ctx.ticket 2).pending = true ∧ (s.ctx.ticket 1).pending = false ∧ (s.ctx.ticket 1).te = false ∧ (s.ctx.ticket 4).status = 5 ∧
      (s.ctx.ticket 3).pending = false ∧ (s.ctx.ticket 3).te = true ∧ (s.ctx.ticket 3).status ≠ 0 ∧ (s.ctx.ticket 3).status ≠ 5 ∧ s.ctx.half = none ∧
      ({ s with ctx := { s.ctx with half := some halfLoad } } : State).ctx.half = some halfLoad ∧ s.inputCount s.ctx = 0 ∧ s.ctx.yielded = false ∧ (mates s).length = 1 ∧
      (∀ m ∈ mates (mated 254 0), ((254 : BitVec 32) + 1 - m.bars[3]).toInt ≤ 255) ∧ (∀ m ∈ mates (mated 0xFFFFFFFF 0xFFFFFFFF), ((0xFFFFFFFF : BitVec 32) + 1 - m.bars[3]).toInt ≤ 255) ∧
      (∃ m ∈ mates (mated 255 0), 255 < ((255 : BitVec 32) + 1 - m.bars[3]).toInt) ∧ (∀ m ∈ mates (mated 1 1), ((1 : BitVec 32) - m.bars[3]).toInt ≤ 0) ∧
      (∃ m ∈ mates (mated 0 0xFFFFFFFF), 0 < ((0 : BitVec 32) - m.bars[3]).toInt) ∧
      0 < (({ s with pipelines := [{ launchPipe s.ctx.lnum with stages := [{ launchStage with queue := [{ bits := 0, poi := 0, ring := none }] }] }] } : State).inputCount s.ctx) := by
  decide +kernel

theorem witness_ExitEndsContext : ops.src = ops.ctx ∧ ops.ctx.dsc = 0 ∧ ops.Delivers [.q 2] [7] := by
  unfold State.Delivers
  decide +kernel

theorem witness_ReturnFromTrapRestores :
    let s (l : Level) (pl : Nat) := turn fun c => { c with level := l, tcause := BitVec.ofNat 64 (0x4D + 256 * pl + 2 ^ 10), suspended := some Sticky.none }
    (s .supervisor 0).src = (s .supervisor 0).ctx ∧ (s .supervisor 0).ctx.dsc = 0 ∧ (s .supervisor 0).ctx.level ≠ .user ∧ (s .supervisor 0).ctx.tcause.toNat / 256 % 4 = 0 ∧
      (s .supervisor 0).ctx.suspended = some Sticky.none ∧ (s .supervisor 2).ctx.tcause.toNat / 256 % 4 = 2 ∧ (s .firmware 3).ctx.tcause.toNat / 256 % 4 = 3 ∧
      (s .supervisor 3).ctx.tcause.toNat / 256 % 4 = 3 ∧ (s .supervisor 3).ctx.level = .supervisor ∧ (s .firmware 3).ctx.level = .firmware := by
  decide +kernel

theorem witness_SwitchAndHaltStopIssuing :
    let s := mated 0 0
    s.src = s.ctx ∧ s.ctx.dsc = 0 ∧ s.ctx.level ≠ .user ∧ requestStrength s.ctx.request < 2 ∧ 2 ≤ requestStrength (some .drain) ∧ s.ctx.pend = [] ∧ s.ctx.faggs = [] ∧ s.ctx.dripFlights = [] ∧ s.ctx.cqAllFilled = true ∧
      s.ctx.liveReports = [] ∧ s.ctx.liveFaults = [] ∧ s.ctx.trapDue = none ∧ (∃ m ∈ s.others, m.lnum = s.ctx.lnum ∧ m.stage = s.ctx.stage ∧ m.inst = s.ctx.inst ∧ m.chainLen = s.ctx.chainLen ∧
        m.rank / m.chainLen = 1) ∧ (levelled .firmware).ctx.level = .firmware ∧ (levelled .user).ctx.level = .user := by
  decide +kernel

/-- 256 cells like the one above, all enabled, and the least set of one cell. -/
def array (a b d : BitVec 4096) (f : Context → Context) : State :=
  let s := oneCell a b d
  let c := f { s.ctx with cells := List.replicate 256 (s.ctx.cell 0) }
  { s with ctx := c, src := c }

def add12 : Instr := .vadd { d := 3, a := 1, b := 2, typ := 1, var := 0 }

theorem witness_StickIssuesStickySlots :
    let s := turn fun c => { c with sticky := { c.sticky with w0 := some add12 } }
    let h := turn fun c => { c with sticky := { c.sticky with w0 := some add12 }, freeW0 := c.cycle + 1 }
    let w (s : State) : WaveWord := { sel := 3, w0 := s.ctx.sticky.w0, w1 := s.ctx.sticky.w1, w1n := s.ctx.sticky.w1n + 1, m := s.ctx.sticky.m, mn := s.ctx.sticky.mn + 1 }
    s.src = s.ctx ∧ (∀ i ∈ (w s).ops, i.slot = some .w0 ∨ i.slot = some .w1 ∨ i.slot = some .m) ∧ (w s).ops = [add12] ∧ s.waveHeld (w s) = false ∧
      h.waveHeld (w h) = true ∧ base.ctx.sticky.w0 = none ∧ base.ctx.sticky.w1 = none ∧ base.ctx.sticky.m = none := by
  decide +kernel

/-- Two results for tile register m1 of cell 0, of which the younger waits for the older when both accumulate. -/
def tileResult (acc : Bool) : Pending :=
  { owed .cells none with writes := [{ cell := 0, reg := .m 1, lo := 0, len := 32, val := 7, poi := 0 }, { cell := 0, reg := .v 31, lo := 4064, len := 32, val := 2 ^ 4064, poi := 0 }], acc := acc }

theorem witness_CellResultsLand :
    let s (acc : Bool) : State := turn fun c => { c with cells := [CellState.zero], pend := [tileResult acc, tileResult acc] }
    (s false).ctx.pend = [tileResult false] ++ tileResult false :: [] ∧ (tileResult false).dest = .cells ∧ (tileResult false).poison = none ∧
      (tileResult false).writes.Pairwise (fun v w => v.cell ≠ w.cell ∨ v.reg ≠ w.reg) ∧ (∀ o ∈ [tileResult false], o.chained (tileResult false) = false) ∧
      (∀ w ∈ (tileResult false).writes, w.cell < (s false).ctx.cells.length) ∧ (∃ o ∈ [tileResult true], o.chained (tileResult true) = true) := by
  decide +kernel

theorem witness_IntegerVectorResults :
    let s := array 0x80FF 0x0180 0 id
    s.src = s.ctx ∧ s.ctx.pend = [] ∧ s.wave.conflict = [] ∧ 255 < s.ctx.cells.length ∧ s.enabled 255 = true ∧ (7 : BitVec 6).toNat < 8 ∧
      32 = 4 * 2 ^ ((7 : BitVec 6).toNat % 4) ∧ 127 < 4096 / 32 ∧ 4 = 4 * 2 ^ ((0 : BitVec 6).toNat % 4) ∧ 1023 < 4096 / 4 ∧ s.unmarked 255 1 ∧ s.unmarked 255 2 ∧ s.unmarked 255 3 := by
  unfold State.unmarked
  decide +kernel

theorem witness_MaskAndCopyResults :
    let s := array 0x80FF 0x0180 0 id
    s.src = s.ctx ∧ s.ctx.pend = [] ∧ s.wave.conflict = [] ∧ 0 < s.ctx.cells.length ∧ s.enabled 0 = true ∧ s.unmarked 0 1 ∧ s.unmarked 0 7 ∧ s.unmarked 0 31 ∧
      (∀ g : Fin 8, ((s.ctx.cell 0).g[g]).poi = 0) ∧ (7 : BitVec 5).toNat < 8 ∧ (5 : BitVec 5).toNat < 6 ∧ (3 : BitVec 5).toNat < 4 ∧
      (5 : BitVec 5).toNat % 4 * 32 + (31 : BitVec 5).toNat < 4096 / 4 ∧ 256 * 3 ≤ 1023 ∧ 1023 < 256 * 3 + 256 ∧ 1023 < 4096 / 4 := by
  unfold State.unmarked
  decide +kernel

theorem witness_MoveResults :
    let s := array 0 0 0 fun c => { c with foot := 1 }
    s.src = s.ctx ∧ s.ctx.pend = [] ∧ s.wave.conflict = [] ∧ 255 < s.ctx.cells.length ∧ s.enabled 255 = true ∧ s.enabled 240 = true ∧ s.ctx.cells.length = 256 ∧ s.ctx.chainLen = 1 ∧
      (14 : BitVec 17).toNat < 16 ∧ (14 : BitVec 17).toNat % 2 = 0 ∧ (56 : BitVec 17).toNat < 64 ∧ (56 : BitVec 17).toNat % 8 = 0 ∧ (7 : BitVec 17).toNat < 8 ∧
      (2 : BitVec 17).toNat < 3 ∧ (s.ctx.cell 255).fPoi = false ∧ s.wave.w1n = 0 ∧ (120 : BitVec 11).toNat + 8 ≤ 128 * s.ctx.foot ∧
      (s.ctx.cell 255).store.Pairwise (fun x y => x.1 < y.1) := by
  decide +kernel

theorem witness_FaggAggregatesFlags :
    let s := array 0 0 0 fun c => { c with cq := [entry 3 (some true)], tag := 4 }
    s.src = s.ctx ∧ s.ctx.pend = [] ∧ (∀ i < s.ctx.cells.length, (s.ctx.cell i).fPoi = false) ∧ s.ctx.chainLen = 1 ∧ s.ctx.cells.length = 256 ∧
      (∀ e ∈ s.ctx.cq, e.tag ≠ s.ctx.tag) ∧ (0x1E : BitVec 17).toNat / 8 % 2 = 1 ∧ (0x1E : BitVec 17).toNat % 4 = 2 ∧ (0x1E : BitVec 17).toNat < 64 ∧
      (0x3D : BitVec 17).toNat / 8 % 2 = 1 ∧ (0x3D : BitVec 17).toNat % 4 = 1 ∧ (0x3D : BitVec 17).toNat < 64 := by
  decide +kernel

theorem witness_PoisonedLanesPropagate :
    let s := turn fun c => { c with cells := [{ CellState.zero with v := (CellState.zero.v.set 1 { bits := 0, poi := 2 ^ 511 }).set 3 { bits := 0, poi := 2 ^ 510 } }] }
    let w : W0 := { d := 3, a := 1, b := 2, typ := 0x0A, var := 0 }
    s.src = s.ctx ∧ s.ctx.pend = [] ∧ s.wave.conflict = [] ∧ 0 < s.ctx.cells.length ∧ s.enabled 0 = true ∧ (w.fmt.any (fun f => f.width == 32)) = true ∧ w.var = 0 ∧
      127 < 4096 / 32 ∧ s.ctx.pc < 2 ^ 56 ∧ ((s.ctx.cell 0).v[w.a.toNat]).poi.getLsbD 511 = true ∧ 32 * 127 < 8 * (511 + 1) ∧ 8 * 511 < 32 * (127 + 1) ∧
      ((s.ctx.cell 0).v[w.d.toNat]).poi.getLsbD 510 = true ∧ (({ w with typ := 0 } : W0).fmt.any (fun f => f.width == 4)) = true ∧ 1023 < 4096 / 4 ∧
      4 * 1023 < 8 * (511 + 1) ∧ 8 * 511 < 4 * (1023 + 1) ∧ s.ctx.dtmask.getLsbD 4 = true := by
  decide +kernel

/-- One cell whose m1 holds two elements. -/
def tiled : State := turn fun c => { c with cells := [{ CellState.zero with m := CellState.zero.m.set 1 { bits := 0x0102, poi := 0 } }] }

theorem witness_IntegerProductResults :
    let m : MOp := { acc := 0, asrc := 1, bsrc := 7, afmt := 1, bfmt := 5, nmm := 0, nm1 := 0, kblk := 0, lat := 63, arow := 31, brow := 0, step := 15 }
    tiled.src = tiled.ctx ∧ tiled.ctx.pend = [] ∧ tiled.wave.conflict = [] ∧ 0 < tiled.ctx.cells.length ∧ tiled.enabled 0 = true ∧ tiled.wave.mn = 0 ∧ m.asrc.toNat < 8 ∧ m.bsrc.toNat < 8 ∧
      m.arow.toNat ≤ 31 ∧ m.brow.toNat ≤ 31 ∧ m.asrc.toNat ≠ m.acc.toNat ∧ m.bsrc.toNat ≠ m.acc.toNat ∧ (∀ n, ((tiled.ctx.cell 0).m[Fin.ofNat 8 n]).poi = 0) := by
  have h : ∀ k : Fin 8, ((tiled.ctx.cell 0).m[k]).poi = 0 := by decide +kernel
  refine ⟨rfl, rfl, rfl, ?_, ?_, rfl, ?_, ?_, ?_, ?_, ?_, ?_, fun n => h (Fin.ofNat 8 n)⟩ <;> decide +kernel

/-- A launched context with operands for commands; its tensor table lies at 0x4000. -/
def engines (f : Context → Context) : State :=
  turn fun c => f { c with ttbase := 0x4000, regs := ((((c.regs.set 1 0).set 2 0).set 3 (15 * 2 ^ 32 + 1)).set 4 (2 ^ 63)).set 5 (2 ^ 40 + 1) }

/-- As given, with one record in the table: an i8 tensor of 64 elements at 0x8000. -/
def tabled (s : State) : State :=
  s.putBytes 0x34000 (leBytes 128 (2 ^ 15 + 2 ^ 21 + 0x8000 * 2 ^ 128 + 64 * 2 ^ 192 + 2 ^ 224 + 2 ^ 256 + 2 ^ 288 + 2 ^ 320))

/-- Operands s1 to s4, or s1, s2, a zero span and s1. -/
def hatched : Cmd := { cmd 8 with kp := 63, p0 := .s 1, p1 := .s 2, p2 := .s 3, p3 := .s 1 }

/-- Commands in flight that are only numbered. -/
def flying (n : Nat) (i : Instr) (started : Bool) : List EngCmd := (List.range n).map (fun k => { command i (cmd 0) with seq := k, started := started })

theorem witness_CommandsIssue :
    let s := engines id
    s.src = s.ctx ∧ s.Delivers [.s 1, .s 2, .s 3, .s 1] [0, 0, 15 * 2 ^ 32 + 1, 0] ∧ s.Delivers [.s 1, .zero, .s 3] [0, 0, 15 * 2 ^ 32 + 1] ∧ s.Delivers [] [] ∧
      s.Free hatched ∧ s.Performed ∧ s.ctx.level ≠ .user ∧ (engines fun c => { c with cmds := flying 63 .nop true }).Free hatched := by
  unfold State.Delivers State.Free State.Performed
  decide +kernel

theorem witness_CommandValuesChecked :
    let s := tabled (engines id)
    let who := { s.ctx.who s.variant with asid := s.ctx.asid.toNat, level := s.ctx.level }
    (s.src = s.ctx ∧ s.Free hatched ∧
      s.Delivers [.s 1, .s 2, .s 3, .s 1] [0, 0, 15 * 2 ^ 32 + 1, 0] ∧ (15 * 2 ^ 32 + 1 : Word).toNat / 2 ^ 40 = 0 ∧
      (15 * 2 ^ 32 + 1 : Word).toNat / 2 ^ 32 % 16 + (15 * 2 ^ 32 + 1 : Word).toNat / 2 ^ 36 % 16 = 15 ∧ (15 * 2 ^ 32 + 1 : Word).toNat % 2 ^ 32 ≠ 0 ∧
      s.Delivers [.s 1, .s 2, .s 3, .s 4] [0, 0, 15 * 2 ^ 32 + 1, 2 ^ 63] ∧ 2 ^ 63 ≤ (2 ^ 63 : Word).toNat ∧
      s.Delivers [.s 1, .s 2, .s 5, .s 1] [0, 0, 2 ^ 40 + 1, 0] ∧ (2 ^ 40 + 1 : Word).toNat / 2 ^ 40 ≠ 0 ∧
      s.Delivers [.s 1, .zero, .s 3] [0, 0, 15 * 2 ^ 32 + 1] ∧ s.Delivers [.s 1, .s 2, .s 3] [0, 0, 15 * 2 ^ 32 + 1] ∧
      s.Delivers [.s 1, .s 4, .s 3] [0, 2 ^ 63, 15 * 2 ^ 32 + 1] ∧ s.Delivers [.s 1, .s 5] [0, 2 ^ 40 + 1] ∧ s.Delivers [.s 1, .s 4] [0, 2 ^ 63] ∧
      2 ^ 56 < (0 : Word).toNat + (2 ^ 63 : Word).toNat ∧ s.hasUnit .compressor = true ∧ ({ s with variant := .ky9440 } : State).hasUnit .compressor = false) ∧
    (let noFormat (x : Nat) : Bool := decide (0x0A < x ∧ (x < 0x20 ∨ 0x40 ≤ x ∨ x % 8 = 7))
     let spanBytes (v : Word) : Nat := (v.toNat / 2 ^ 36 % 16 + 1) * (v.toNat % 2 ^ 32) * 64
     let r := engines fun c => { c with regs := (c.regs.set 6 (2 ^ 32 + 0x0B)).set 7 513 }
     (2 ^ 40 + 1 : Word).toNat / 2 ^ 6 % 2 ^ 26 = 0 ∧ 64 ≤ (2 ^ 40 + 1 : Word).toNat ∧ r.Delivers [.s 1, .s 6, .s 3] [0, 2 ^ 32 + 0x0B, 15 * 2 ^ 32 + 1] ∧
       (2 ^ 32 + 0x0B : Word).toNat / 2 ^ 6 % 2 ^ 26 = 0 ∧ noFormat ((2 ^ 32 + 0x0B : Word).toNat % 64) = true ∧ spanBytes (15 * 2 ^ 32 + 1) ≤ 32768 ∧
       r.Delivers [.s 1, .s 1, .s 7] [0, 0, 513] ∧ 32768 < spanBytes 513 ∧ noFormat 0 = false ∧ noFormat 0x0B = true ∧ noFormat 0x3F = true ∧
       s.Delivers [.s 1, .s 5, .s 1, .s 1] [0, 2 ^ 40 + 1, 0, 0] ∧ 0 < (2 ^ 40 + 1 : Word).toNat / 2 ^ 32 ∧ (2 ^ 40 + 1 : Word).toNat / 2 ^ 32 < 0x7F800000 ∧
       (0 : Word).toNat < 2 ^ 38 ∧ s.Delivers [.s 1, .s 5, .s 1, .s 4] [0, 2 ^ 40 + 1, 0, 2 ^ 63] ∧ 2 ^ 38 ≤ (2 ^ 63 : Word).toNat) ∧
    ((s.beforeCmd.reading [.s 1, .s 2, .s 3, .s 1]).checkHandle s.ctx.die who s.ctx.ttbase.toNat 0 1).1.toOption.isSome = false ∧
    ((s.beforeCmd.reading [.s 1, .s 2, .s 3, .s 1]).checkHandle s.ctx.die who s.ctx.ttbase.toNat 0 ((0 : Word).toNat % 2 ^ 32)).1.toOption.isSome = true := by
  unfold State.Delivers State.Free
  refine ⟨?_, ?_, ?_, ?_⟩ <;> decide +kernel

theorem witness_CommandsHoldAtIssue :
    let s := engines fun c => { c with tickets := c.tickets.set 63 { Ticket.free with pending := true } }
    s.src = s.ctx ∧ s.Delivers [.s 1, .s 2, .s 3, .s 1] [0, 0, 15 * 2 ^ 32 + 1, 0] ∧ (63 : BitVec 6) ≠ 0 ∧ (s.ctx.ticket 63).pending = true ∧
      64 ≤ (engines fun c => { c with cmds := flying 64 .nop true }).ctx.inFlight.length + (engines fun c => { c with cmds := flying 64 .nop true }).ctx.qops.length ∧
      (engines fun c => { c with cmds := flying 1 (.rfence (cmd 0)) false }).ctx.cmds.any (fun k => isRfence k.op && !k.started && !k.closed) = true ∧
      s.ctx.level ≠ .user ∧ (levelled .user).ctx.level = .user := by
  unfold State.Delivers
  decide +kernel

theorem witness_IndexedCommandsIssue :
    let s (size : BitVec 2) := tabled <| engines fun c => { c with streams := c.streams.set 14 { readable (List.replicate 17 3) with size := size } }
    let e : Cmd := { hatched with p3 := .q 14 }
    let who := { (s 2).ctx.who (s 2).variant with asid := (s 2).ctx.asid.toNat, level := (s 2).ctx.level }
    ((s 2).src = (s 2).ctx ∧ (14 : Fin 16) ≠ 15 ∧ e.p3 = .q 14 ∧ (∀ o ∈ [e.p0, e.p1, e.p2], o ≠ .q 14) ∧ (s 2).Delivers [e.p0, e.p1, e.p2] [0, 0, 15 * 2 ^ 32 + 1] ∧
      (s 2).Delivers (List.replicate (16 * ((15 * 2 ^ 32 + 1 : Word).toNat / 2 ^ 36 % 16 + 1)) (.q 14)) (List.replicate 16 3) ∧ (s 2).Free e ∧
      (15 * 2 ^ 32 + 1 : Word).toNat / 2 ^ 40 = 0 ∧ (15 * 2 ^ 32 + 1 : Word).toNat / 2 ^ 32 % 16 + (15 * 2 ^ 32 + 1 : Word).toNat / 2 ^ 36 % 16 ≤ 15 ∧
      (15 * 2 ^ 32 + 1 : Word).toNat % 2 ^ 32 ≠ 0 ∧ ((s 2).ctx.streams[14]).size = 2 ∧ ((s 3).ctx.streams[14]).size ≠ 2 ∧
      (s 3).Delivers [e.p0, e.p1, e.p2] [0, 0, 15 * 2 ^ 32 + 1] ∧ (s 3).Delivers (List.replicate 16 (.q 14)) (List.replicate 16 3) ∧ (s 3).Free e) ∧
    ((((s 2).beforeCmd.reading [e.p0, e.p1, e.p2]).takeN e.p3 16).2.checkHandle (s 2).ctx.die who (s 2).ctx.ttbase.toNat 0 ((0 : Word).toNat % 2 ^ 32)).1.toOption.isSome = true := by
  unfold State.Delivers State.Free
  decide +kernel

theorem witness_StreamsBindAndFree :
    let s (f : Stream) := engines fun c => { c with streams := c.streams.set 3 f, regs := (c.regs.set 1 0x8040).set 2 0x8041 }
    let w := { writable 2 with buf := [.value 5] }
    (s Stream.free).src = (s Stream.free).ctx ∧ (s Stream.free).Free (cmd 3) ∧ (s Stream.free).Free (cmd 15) ∧ (s Stream.free).Performed ∧
      ((s Stream.free).ctx.streams[3]).write = false ∧ ((s Stream.free).ctx.streams[3]).stuck = none ∧ (3 : Fin 16) = Fin.ofNat 16 ((cmd 3).efn.toNat % 16) ∧
      (15 : Fin 16) = Fin.ofNat 16 ((cmd 15).efn.toNat % 16) ∧ (s Stream.free).Delivers [.s 1] [0x8040] ∧ (s Stream.free).Delivers [.s 2] [0x8041] ∧ (0x8040 : Word).toNat % 64 = 0 ∧
      (0x8041 : Word).toNat % 64 ≠ 0 ∧ ((s w).ctx.streams[3]).write = true ∧ ((s w).ctx.streams[3]).bind = .bound ∧ ((s w).ctx.streams[3]).stuck = none ∧
      ((s w).ctx.streams[3]).buf ≠ [] ∧ (s w).Delivers [.s 1] [0x8040] ∧ ((s { w with dead := true, stuck := some (9, 0x10) }).ctx.streams[3]).stuck = some (9, 0x10) ∧
      (s { w with stuck := some (9, 0x10) }).ctx.inh = false ∧ (s { w with stuck := some (9, 0x10) }).ctx.quiesce.cqAllFilled = true := by
  unfold State.Delivers State.Free State.Performed
  decide +kernel

/-- Stage 0 with a given queue, outputs to itself and to the result queue, and room for two entries in the ring. -/
def stage0 (q : List QEntry) : Stage := { launchStage with queue := q, out0 := 0, out1 := 0xE, quota := 2, maxInst := 2 }

/-- The launched pipeline with that stage and given results. -/
def piped (q results : List QEntry) (f : Context → Context) : State :=
  let c := f base.ctx
  { base with ctx := c, src := c, pipelines := base.pipelines.map (fun p =>
      { p with stages := [stage0 q], results := results, spill := 0x8000, compl := 0x9000 }) }

def opOf (kind : QueueOpKind) (which : Nat) (dest : Opnd) (count : Nat) : QueueOp :=
  { kind := kind, which := which, tag := 0, entry := 7, poi := 0, dest := dest, count := count, made := 0, addr := 0x1000 }

theorem witness_QueueOperationsAsk :
    let s := piped [] [] id
    s.src = s.ctx ∧ s.stageOf s.ctx = some (stage0 []) ∧ (40 : Fin 48).val + 8 ≤ 48 ∧
      s.Delivers (regRun (.s 40) 8) [0, 0, 0, 0, 0, 0, 0, 0] ∧ (0xE : Nat) ≠ 0xF ∧ base.stageOf base.ctx = some launchStage ∧ launchStage.out0 = 0xF ∧
      (2 : BitVec 8).toNat % 4 ≠ 0 ∧ s.Free (cmd 7) ∧
      (piped [] [] fun c => { c with half := some halfLoad }).Free (cmd 7) ∧
      (let f := (piped [] [] fun c => { c with cmds := flying 63 .nop true, qops := [opOf .deq 0 (.s 1) 1] }).ctx
       64 ≤ f.inFlight.length + f.qops.length) := by
  unfold State.Delivers State.Free
  decide +kernel

/-- One drip record, arriving alone, beside one like it, and at a full tray. -/
def record (a : BitVec 56) : DripRec := { count := 1, event := 5, col := 3, row := 2, slot := 0, addr := a }
def dripping (tray : List DripRec) : State := turn fun c => { c with dripFlights := [{ due := 0, recs := [record 0x1000] }], drip := tray }
def item (r : Option Nat) : QEntry := { bits := 9, poi := 0, ring := r }

theorem witness_ArrivalsAndDecisionsComplete :
    let asked (q results : List QEntry) (op : QueueOp) := piped q results fun c => { c with cq := [entry 0 none], tag := 1, qops := [op] }
    ((dripping []).ctx.dripFlights = { due := 0, recs := [record 0x1000] } :: [] ∧ 0 ≤ (dripping []).ctx.cycle ∧ (dripping []).ctx.dripHalf ≠ .record ∧
      (∀ x ∈ (dripping [record 0x1008]).ctx.drip, x.same (record 0x1000) = false) ∧ (dripping [record 0x1008]).ctx.drip.length < 256 ∧
      (dripping [record 0x1008, record 0x1000]).ctx.drip = [record 0x1008] ++ record 0x1000 :: [] ∧ (record 0x1000).same (record 0x1000) = true ∧ (record 0x1000).count ≠ 0xFFFFFFFF ∧
      256 ≤ (dripping (List.replicate 256 (record 0x1008))).ctx.drip.length ∧ (dripping []).ctx.dtlost.toNat < 0xFFFFFFFF) ∧
    ((turn fun c => { c with trapDue := some (8, 5) }).ctx.trapDue = some (8, 5) ∧ (turn fun c => { c with trapDue := some (8, 5) }).ctx.inh = false ∧
      (turn fun c => { c with trapDue := some (8, 5) }).ctx.quiesce.cqAllFilled = true ∧ (turn fun c => { c with trapDue := some (8, 5), cq := [entry 0 none] }).ctx.quiesce.cqAllFilled = false) ∧
    (let k := { command (.hstore (cmd 8)) { cmd 8 with kp := 1 } with outcome := some (1, 3), p := (Vector.replicate 4 0).set 2 1 }
     (engines fun c => { c with cmds := [k] }).ctx.cmds[0]? = some k ∧ k.outcome = some (1, 3) ∧ k.closed = false ∧ k.out = [] ∧ k.e.kp ≠ 0 ∧ hatchOp k.op = true ∧ k.served = false) ∧
    (let k := { command (.copy (cmd 0)) { cmd 0 with kp := 1 } with outcome := some (1, 3) }
     (engines fun c => { c with cmds := [k] }).ctx.cmds[0]? = some k ∧ k.outcome = some (1, 3) ∧ k.closed = false ∧ k.out = [] ∧ k.e.kp ≠ 0 ∧ hatchOp k.op = false ∧
       (engines fun c => { c with cmds := [k] }).ctx.drainedAway = false) ∧
    (let op := opOf .enq 2 .zero 0
     let s (n : Nat) := asked [] (List.replicate n (item none)) op
     (s 63).ctx.qops[0]? = some op ∧ (s 63).ctx.qops.take 0 = [] ∧ (s 63).stageOf (s 63).ctx ≠ none ∧ (s 63).stageOf (s 63).ctx = some (stage0 []) ∧
       opStage (s 63).ctx (stage0 []) op = none ∧ ((s 63).pipelineOf (s 63).ctx.lnum).map (fun p => p.results.length) = some 63 ∧
       ((s 64).pipelineOf (s 64).ctx.lnum).map (fun p => p.results.length) = some 64) ∧
    (let op := opOf .enq 1 .zero 0
     let g (n : Nat) := stage0 (List.replicate n (item none))
     let s (n : Nat) := asked (List.replicate n (item none)) [] op
     (s 63).stageOf (s 63).ctx = some (g 63) ∧ opStage (s 63).ctx (g 63) op = some 0 ∧ ((s 63).pipelineOf (s 63).ctx.lnum).map (fun p => p.stages[0]?) = some (some (g 63)) ∧
       (g 63).queue.length < 64 + (g 63).quota ∧ onChip (g 63).queue < 64 ∧ (s 66).stageOf (s 66).ctx = some (g 66) ∧ 64 + (g 66).quota ≤ (g 66).queue.length) ∧
    (let op := opOf .deq 0 (.s 40) 8
     let s (q : List QEntry) := asked q [] op
     (s [item none]).ctx.qops[0]? = some op ∧ (s [item none]).stageOf (s [item none]).ctx = some (stage0 [item none]) ∧ (item none).ring = none ∧
       (item none).poi.toNat % 2 ^ (8 * 8) = 0 ∧ (40 : Fin 48).val + 8 ≤ 48 ∧ (s []).stageOf (s []).ctx = some (stage0 []) ∧ (stage0 []).queue = []) ∧
    ((asked [item none] [] (opOf .qinfo 0 (.s 1) 1)).stageOf (asked [item none] [] (opOf .qinfo 0 (.s 1) 1)).ctx = some (stage0 [item none])) ∧
    (let s := piped [item none, item (some 0)] [] id
     let g := stage0 [item none, item (some 0)]
     (s.pipelineOf 1).map (fun p => (p.lnum, p.stages[0]?, p.asid, p.ringBase 0)) = some (1, some g, 0, 0x8000) ∧ g.queue = [] ++ item none :: [item (some 0)] ∧
       (∀ x ∈ [item (some 0)], x.ring.isSome = true) ∧ freeSlot g.queue g.quota = some 1 ∧ g.queue = [item none] ++ item (some 0) :: [] ∧ (∀ x ∈ [item none], x.ring = none) ∧
       onChip g.queue < 64 ∧ (s.deviceWrite 0 (0x8000 + 64 * 1) (entryBytes (item none))).toOption.isSome = true ∧ (s.deviceRead 0 0x8000 64).toOption.isSome = true) := by
  refine ⟨?_, ?_, ?_, ?_, ?_, ?_, ?_, ?_, ?_⟩ <;> decide +kernel

/-- A command that consumed tickets of the given statuses, or waits for one. -/
def joining (l : List (Option (BitVec 4 × BitVec 32))) : EngCmd :=
  { command (.tkjoin (cmd 0)) (cmd 0) with started := false, deps := l.map (fun k => { seq := 90, kept := k }) }
def withCmd (k : EngCmd) (f : Context → Context) : State := turn fun c => f { c with cmds := [k] }

theorem witness_CommandsWork_starts :
    (let k := joining [none]
     (withCmd k id).ctx.cmds = [] ++ k :: [] ∧ (∀ x ∈ ([] ++ [] : List EngCmd), x.seq ≠ k.seq) ∧ (withCmd k id).ctx.startable k = false) ∧
    (let k := joining [some (0, 0), some (8, 3)]
     (withCmd k id).ctx.cmds = [] ++ k :: [] ∧ (withCmd k id).ctx.startable k = true ∧ k.op = .tkjoin (cmd 0) ∧ k.consumed = [(0, 0), (8, 3)] ∧ [(0 : BitVec 4), 8].all joinRank.contains = true ∧
       (joining []).consumed = [] ∧ (withCmd (joining []) id).ctx.startable (joining []) = true) ∧
    (let k := { command (.rfence (cmd 0)) (cmd 0) with started := false }
     (withCmd k id).ctx.startable k = true ∧ k.op = .rfence (cmd 0)) ∧
    (let k (p : Vector Word 4) := { command (.scrlim (cmd 0)) (cmd 0) with started := false, p := p }
     let f (c : Context) := { c with descLo := 2, descHi := 64, blocks := [0, 1], scrhi := 64 }
     let s (p : Vector Word 4) := withCmd (k p) f
     (s #v[2, 64, 0, 0]).ctx.startable (k #v[2, 64, 0, 0]) = true ∧ (2 : Word).toNat ≤ (64 : Word).toNat ∧
       (64 : Word).toNat ≤ (s #v[2, 64, 0, 0]).ctx.descHi ∧ (2 : Word).toNat ≤ (s #v[2, 64, 0, 0]).ctx.descLo ∧
       ((s #v[2, 64, 0, 0]).pipelineOf (s #v[2, 64, 0, 0]).ctx.lnum).isSome = true ∧ (s #v[2, 64, 0, 0]).ctx.status ≠ .absent ∧
       (s #v[2, 64, 0, 0]).others = [] ∧ (s #v[2, 64, 0, 0]).ctx.scratchSize = 2 ∧ (s #v[2, 64, 0, 0]).ctx.scrhi.toNat ≤ 64 ∧
       (∀ c ∈ (s #v[2, 64, 0, 0]).ctx :: (s #v[2, 64, 0, 0]).others, c.half = none ∧ ∀ x ∈ c.cmds, x.out = []) ∧
       ¬ ((3 : Word).toNat ≤ (64 : Word).toNat ∧ (64 : Word).toNat ≤ (s #v[3, 64, 0, 0]).ctx.descHi ∧ (3 : Word).toNat ≤ (s #v[3, 64, 0, 0]).ctx.descLo)) := by
  refine ⟨?_, ?_, ?_, ?_⟩ <;> decide +kernel

theorem witness_CommandsWork_zmap :
    let k := { command (.zmap (cmd 0)) (cmd 0) with p := #v[0x2000, 4096, 0, 0] }
    let b := regioned (2 ^ 116)
    let s := { b with ctx := { b.ctx with cmds := [k] }, src := { b.src with cmds := [k] } }
    s.ctx.movable k = true ∧ k.p[0].toNat % 4096 = 0 ∧ k.p[1].toNat = 4096 ∧ k.tile = 0 ∧ k.out = [] ∧ k.met6 = false ∧ k.clamps = 0 ∧ k.miss = [] ∧
      s.locate ({ s := s, c := k } : Job).who k.p[0].toNat .store =
        .ok (.mem { pa := 0x2000, key := 2 ^ 37 + 0x2000, cls := .plain, zmap := true, cmpr := false }) ∧ s.zflagErr.Pairwise (· < ·) := by
  decide +kernel

theorem witness_CommandsWork_hatches :
    (let k := { command (.hload (cmd 7)) (cmd 7) with p := #v[0, 0, 15 * 2 ^ 32 + 1, 0] }
     let s := withCmd k id
     s.ctx.cmds[0]? = some k ∧ k.wants 15 = true ∧ k.lowest s.ctx 15 = true ∧ s.ctx.serves 0 k = true ∧ k.prog.length = 16 ∧ k.closed = false ∧ inHatchOp k.op = true ∧
       (s.ctx.lane k.hatchIx 15).length < 32 ∧
       (let e := { k with outcome := some (1, 0) }
        (withCmd e id).ctx.serves 0 e = true ∧ e.lowest (withCmd e id).ctx 15 = true ∧ e.outcome.isSome = true)) ∧
    (let k := { command (.hstore (cmd 11)) (cmd 11) with p := #v[0, 0, 15 * 2 ^ 32 + 1, 0] }
     let s := withCmd k fun c => c.setLane 11 15 [Chunk.zero]
     s.ctx.cmds[0]? = some k ∧ k.wants 15 = true ∧ k.lowest s.ctx 15 = true ∧ s.ctx.serves 0 k = true ∧ k.prog.length = 16 ∧ k.closed = false ∧ drainOp k.op = true ∧
       k.outcome = none ∧ s.ctx.lane k.hatchIx 15 = Chunk.zero :: []) := by
  refine ⟨?_, ?_⟩ <;> decide +kernel

theorem witness_CommandsWork_streams :
    let q (w : Bool) (b : Nat) : Stream := { Stream.free with bind := .bound, write := w, size := 3, cnt := #v[2, 1, 1, 1], base := BitVec.ofNat 64 b, level := .supervisor,
                                                              buf := if w then [.value 5] else [] }
    let s (w : Bool) (b : Nat) := turn fun c => { c with streams := c.streams.set 14 (q w b) }
    (s false 0x2000).ctx.drainedAway = false ∧ ((s false 0x2000).ctx.streams[14]).bind = .bound ∧ (q false 0x2000).buf.length < (q false 0x2000).room ∧
      (q false 0x2000).next < (q false 0x2000).total ∧ (q false 0x2000).buf.all StreamElem.good = true ∧ (q true 0x2000).dead = false ∧
      ((s false 0x2000).engineRead ((s false 0x2000).streamWho (q false 0x2000)) ((q false 0x2000).addr 0) 8).toOption = some (List.replicate 8 (0, false)) ∧
      ((s true 0x2000).engineWrite ((s true 0x2000).streamWho (q true 0x2000)) ((q true 0x2000).addr 0) ((leBytes 8 5).map (fun b => (b, false)))).toOption.isSome = true ∧
      ((s true 0x10000).engineWrite ((s true 0x10000).streamWho (q true 0x10000)) ((q true 0x10000).addr 0) ((leBytes 8 5).map (fun b => (b, false)))).toOption = none := by
  decide +kernel

/-- Lines of die 0, by their die-pinned addresses. -/
def pinnedLine (n : Nat) : Nat := 2 ^ 44 + n

/-- A line of which array 3 owns 127 tokens and its home has one, and a message that carries one token of another line. -/
def tokened (f : State → State) : State :=
  f { base with lines := [{ line := pinnedLine 2, key := 0x100, cls := .pinned, holders := [{ agent := 3, tokens := 127, owner := true, valid := true, dirty := true }],
                            tag := some { tokens := 1, owner := false, dirty := false, sectors := 15, used := 0 }, away := true, hints := [0] },
                          { line := pinnedLine 4, key := 0x200, cls := .pinned, holders := [],
                            tag := some { tokens := 127, owner := true, dirty := false, sectors := 15, used := 0 }, away := true, hints := [] }],
                msgs := [{ line := pinnedLine 4, dest := some 4, tokens := 1, owner := false, data := true, dirty := false }] }

theorem witness_TokensConserved :
    (tokened id).TokensOrdered ∧ (tokened id).tokenSum (pinnedLine 2) = 128 ∧ (tokened id).tokenSum (pinnedLine 4) = 128 ∧
      Instr.wb 3 (pinnedLine 2) ∈ [.gets 3 (pinnedLine 2), .getx 3 (pinnedLine 2), .tok 0, .wb 3 (pinnedLine 2), .pact 3 (pinnedLine 2) 0, .pdeact 0, .zclr 3 (pinnedLine 2),
        .transientRetry 0, .persistentEscalation 0, .backInvalidateAnswer (pinnedLine 2), .backInvalidateTimeout (pinnedLine 2)] := by
  unfold State.TokensOrdered
  decide +kernel

/-- The entry by which agent 5 holds the persistent request for a quiet line, in the table of die 0. -/
def entryOf (agent : Nat) : PersistentReq := { agent := agent, line := pinnedLine 6, write := true, seq := 9 }
def contended (f : State → State) : State := tokened fun s => f { s with ptables := s.ptables.set 0 { active := [entryOf 5], early := [(7, 8)] } }

theorem witness_CoherenceEventsAct_asks :
    let s := tokened id
    let w := contended id
    (∃ l, s.lineAt (pinnedLine 6) = some l ∧
      (decide (l.die < 6) && !l.satisfied 282 false && l.quiet && (w.lineAt (pinnedLine 6) == some l) && decide (l.holders = [])) = true) ∧
    s.TokensOrdered ∧ w.TokensOrdered ∧ agentOk s.variant 282 = true ∧ (∀ t ∈ s.treqs, t.agent = 282 → t.line ≠ pinnedLine 6) ∧
      (s.table 0).winner (pinnedLine 6) = none ∧ ((w.table 0).winner (pinnedLine 6)).isSome = true := by
  unfold State.TokensOrdered
  refine ⟨some_ok (by decide +kernel), ?_⟩
  decide +kernel

theorem witness_CoherenceEventsAct_requests :
    let pact (table : Option Nat) (a : Nat) : PMsg := { act := true, agent := a, line := pinnedLine 6, write := true, table := table, seq := 8 }
    let s (m : PMsg) := contended fun s => { s with pmsgs := [m] }
    let off (table : Option Nat) (q : BitVec 16) : PMsg := { act := false, agent := 5, line := pinnedLine 6, write := true, table := table, seq := q }
    let claim : Claim := { agent := 5, line := pinnedLine 6, write := true, seq := some 9, done := true }
    let k (m : PMsg) := contended fun s => { s with pmsgs := [m], claims := [claim] }
    ((s (pact none 3)).TokensOrdered ∧ (s (pact none 3)).pmsgs[0]? = some (pact none 3) ∧ ((s (pact none 3)).lineAt (pinnedLine 6)).isSome = true) ∧
    ((s (pact (some 0) 7)).pmsgs[0]? = some (pact (some 0) 7) ∧ (s (pact (some 0) 7)).ptables[0].early.contains (7, 8) = true) ∧
    ((s (pact (some 0) 3)).TokensOrdered ∧ (s (pact (some 0) 3)).ptables[0].early.contains (3, 8) = false) ∧
    ((k (off none 9)).TokensOrdered ∧ (k (off none 9)).pmsgs[0]? = some (off none 9) ∧ ((k (off none 9)).claims.find? (fun c => c.agent == 5)).bind (fun c => c.seq) = some 9) ∧
    ((s (off (some 0) 9)).TokensOrdered ∧ (s (off (some 0) 9)).ptables[0].active.any (fun r => r.agent == 5 && r.seq == 9) = true ∧
      (s (off (some 0) 9)).ptables[0].active.any (fun r => r.agent == 5 && r.seq == 10) = false) := by
  unfold State.TokensOrdered
  refine ⟨?_, ?_, ?_, ?_, ?_⟩ <;> decide +kernel

theorem witness_CoherenceEventsAct_tokens :
    let s := tokened id
    let m (a : Option Nat) : TokMsg := { line := pinnedLine 4, dest := a, tokens := 1, owner := false, data := true, dirty := false }
    let d : SwLine := { cache := .l1 3, line := 0x5F, key := 2 ^ 37 + 0x2F80, data := 7, poi := 0, dirty := 1, stale := false, serves := [3] }
    let c := tokened fun s => { s with swLines := [d] }
    (s.msgs[0]? = some (m (some 4)) ∧ (m (some 4)).dest = some 4 ∧ 4 ≠ homeAgent 0 ∧ (∀ k : Fin 6, (s.table k).winner (pinnedLine 4) = none) ∧ (s.lineAt (pinnedLine 4)).isSome = true ∧
      (tokened fun s => { s with msgs := [m none] }).TokensOrdered ∧ (tokened fun s => { s with msgs := [m (some (homeAgent 0))] }).TokensOrdered) ∧
    ((cacheOfAgent 3).bind (fun k => s.swLine k (pinnedLine 2)) = none ∧
      ∃ l, s.lineAt (pinnedLine 2) = some l ∧ (decide (0 < (l.holder 3).tokens) && !s.keepsForClear l 3) = true) ∧
    (c.TokensOrdered ∧ cacheOfAgent 3 = some (.l1 3) ∧ c.swLine (.l1 3) 0x5F = some d ∧ d.dirty ≠ 0) := by
  unfold State.TokensOrdered
  exact ⟨by decide +kernel, ⟨by decide +kernel, some_ok (by decide +kernel)⟩, by decide +kernel⟩

theorem witness_CoherenceEventsAct_retries :
    let req (n : Nat) : TransientReq := { agent := 6, line := pinnedLine 6, write := true, sent := n }
    let s (n : Nat) := contended fun s => { s with treqs := [req n] }
    let h := tokened fun s => { s with snoops := [{ line := pinnedLine 4, dest := 3, all := true }, { line := pinnedLine 2, dest := 3, all := false }] }
    let v := tokened fun s => { s with lines := s.lines.map (fun l => { l with holders := l.holders.map (fun x => { x with agent := hostAgent }) }) }
    ((s 3).TokensOrdered ∧ (s 3).treqs[0]? = some (req 3) ∧ (s 4).treqs[0]? = some (req 4)) ∧
    (∃ l, (s 3).lineAt (pinnedLine 6) = some l ∧ (decide (l.die < 6) && (((s 3).table l.die).winner (pinnedLine 6)).isSome && decide (l.holders = [])) = true) ∧
    ((s 4).claims = [] ∧ (s 4).pmsgs = [] ∧ (∀ b ∈ (s 4).ptables.toList, ∀ x ∈ b.active, x.agent ≠ 6)) ∧
    (h.TokensOrdered ∧ h.snoops = [{ line := pinnedLine 4, dest := 3, all := true }] ++ { line := pinnedLine 2, dest := 3, all := false } :: [] ∧
      (∀ x ∈ [({ line := pinnedLine 4, dest := 3, all := true } : Snoop)], x.line ≠ pinnedLine 2)) ∧
    (∃ l, h.lineAt (pinnedLine 2) = some l ∧ (!h.keepsForClear l hostAgent && decide ((l.holder hostAgent).tokens = 0)) = true) ∧
    (v.TokensOrdered ∧ ∃ l, v.lineAt (pinnedLine 2) = some l ∧
      (!v.keepsForClear l hostAgent && (l.holder hostAgent).owner && decide (1 < (l.holder hostAgent).tokens)) = true) := by
  unfold State.TokensOrdered
  exact ⟨by decide +kernel, some_ok (by decide +kernel), by decide +kernel, by decide +kernel, some_ok (by decide +kernel),
    by decide +kernel, some_ok (by decide +kernel)⟩

theorem witness_MemoryEventsAct_homes :
    let line : Line := { line := 0x40, key := 2 ^ 37 + 0x2000, cls := .plain, holders := [{ agent := 3, tokens := 128, owner := true, valid := true, dirty := true }], tag := none, away := true, hints := [0] }
    let s : State := { regioned (2 ^ 116) with zflags := [2 ^ 25 + 2], lines := [line] }
    let z : State := { s with zclrs := [(3, 2 ^ 25 + 2), (3, 7)] }
    let t := tokened fun s => { s with msgs := [] }
    (2 ^ 25 + 2 ∈ s.zflags ∧ (∃ l ∈ s.lines, l.cls.coherent = true ∧ tileOf l.key = 2 ^ 25 + 2 ∧ l.satisfied 3 true = true) ∧ (3, 2 ^ 25 + 2) ∉ s.zclrs) ∧
    (z.zclrs[0]? = some (3, 2 ^ 25 + 2) ∧ (∀ x ∈ z.zclrs.take 0, x.2 ≠ 2 ^ 25 + 2) ∧ z.zflags.Pairwise (· < ·) ∧ z.zclrs[1]? = some (3, 7) ∧
      (∀ x ∈ z.zclrs.take 1, x.2 ≠ 7) ∧ 7 ∉ z.zflags) ∧
    ((t.lineAt (pinnedLine 2)).isSome = true ∧ t.TokensOrdered ∧ t.msgs = [] ∧ t.pmsgs = [] ∧ (∀ d : Fin 6, (t.table d).winner (pinnedLine 2) = none) ∧ t.zflags = [] ∧ t.zclrs = [] ∧ t.writeBacks = []) := by
  unfold State.TokensOrdered
  decide +kernel

theorem witness_MemoryEventsAct_others :
    let w : State := { base with writeBacks := [sentBack 0x3000], snoops := [{ line := pinnedLine 2, dest := 3, all := true }] }
    (w.writeBacks[0]? = some (sentBack 0x3000) ∧ w.MemoryCanonical ∧ (∀ x ∈ w.writeBacks.take 0, x.before w.variant (sentBack 0x3000) = false) ∧ w.zflags = [] ∧ w.zflagErr = [] ∧
      (∃ x ∈ w.snoops, x.line = pinnedLine 2) ∧ w.mgmt.fatal = false ∧ w.ctx.live = true ∧ tileOf 0x3000 ∉ w.zflags ∧ tileOf 0x3000 ∈ ({ w with zflags := [3] } : State).zflags) ∧
    ∀ k, ¬ w.BitmapByte k := by
  unfold State.MemoryCanonical
  exact ⟨by decide +kernel, noBitmap (by decide +kernel) (by decide +kernel)⟩

/-- The launched pipeline, and a second of two-member instances, of which instance 0 has never run. -/
def pairStage : Stage := { launchStage with ctxs := 2, maxInst := 2, queue := [item none] }
def freshInst : Inst := { stage := 0, slot := 0, state := .fresh, prio := 5, since := 0 }
def second : Pipeline := { launchPipe 2 with prio := 5, stages := [pairStage], insts := [freshInst] }
def scheduled (f : Context → Context) : State :=
  let c := f base.ctx
  { base with ctx := c, src := c, pipelines := base.pipelines ++ [second] }

theorem witness_SchedulingActs_dispatch :
    let s := scheduled id
    (s.pipelineOf 2 = some second ∧ second.stages[0]? = some pairStage ∧
      second.insts.find? (fun x => x.stage == 0 && x.slot == 0 && x.state == .fresh) = some freshInst ∧ second.closing = false ∧
      [0, 71].length = 2 ∧ s.fits pairStage [0, 71] = true ∧ s.topPriority freshInst = true ∧ pairStage.scrLo = 0 ∧ pairStage.scrHi = 0) ∧
    (second.stages = [pairStage] ∧ pairStage.queue ≠ [] ∧ second.room 0xF = true ∧ (second.instsOf 0).length < 2 ∧ (launchPipe 1).stages = [launchStage] ∧
      launchStage.queue = [] ∧ (launchPipe 1).closing = false) := by
  refine ⟨?_, ?_⟩ <;> decide +kernel

theorem witness_SchedulingActs_ends :
    let s := scheduled id
    let closed : State := { base with pipelines := [{ launchPipe 1 with closing := true, compl := 0x9000 }], ctx := { base.ctx with status := .ended .idle } }
    ((s.pipelineOf s.ctx.lnum).isSome = true ∧ s.ctx.status = .running ∧ s.ctx.timer < s.wdogCycles s.ctx ∧
      (scheduled fun c => { c with timer := 1100000 }).wdogCycles s.ctx ≤ (scheduled fun c => { c with timer := 1100000 }).ctx.timer) ∧
    (closed.pipelineOf 1 = some { launchPipe 1 with closing := true, compl := 0x9000 } ∧ (∀ c ∈ closed.contexts, c.lnum = 1 → c.gone = true) ∧ closed.writeBacks = [] ∧ closed.mgmt.fatal = false ∧
      (closed.deviceWrite 0 0x9000 (cleanBytes (completionBytes 0 0 0 0 0))).toOption.isSome = true) := by
  refine ⟨?_, ?_⟩ <;> decide +kernel

theorem witness_SchedulingActs_others :
    let s (lo hi : Word) (blocks : List Nat) := (scheduled fun c => { c with scrlo := lo, scrhi := hi, blocks := blocks }).performBegun
    ((s 0 2 [0]).ctx.status ≠ .absent ∧ (s 0 2 [0]).ctx.array.isSome = true ∧ (s 0 2 [0]).ctx.die = 0 ∧ ((s 0 2 [0]).pipelineOf (s 0 2 [0]).ctx.lnum).isSome = true ∧
      (s 0 2 [0]).ctx.scratchSize < 2 ∧ (s 0 2 [0]).freeBlocks 0 ≠ [] ∧ (s 0 1 [0]).ctx.scrhi.toNat ≤ (s 0 1 [0]).ctx.scratchSize ∧
      (s 0 64 (List.range 64)).freeBlocks 0 = [] ∧ (s 0 1 [0]).ctx.scrlo.toNat < (s 0 1 [0]).ctx.scratchSize ∧ (s 1 1 [0]).ctx.scratchSize ≤ (s 1 1 [0]).ctx.scrlo.toNat) ∧
    ((scheduled fun c => { c with status := .halted }).ctx.status = .halted) ∧
    (let l := scheduled fun c => { c with request := some .drain, landPoint := true }
     l.ctx.status = .running ∧ l.ctx.awaitsLanding = true ∧ l.ctx.half = none ∧ l.ctx.pend = [] ∧ l.ctx.faggs = [] ∧ l.ctx.dripFlights = [] ∧ l.ctx.cqAllFilled = true ∧
       l.ctx.liveReports = [] ∧ l.ctx.liveFaults = [] ∧ (scheduled fun c => { c with cq := [entry 0 none] }).ctx.cqAllFilled = false) := by
  refine ⟨?_, ?_, ?_⟩ <;> decide +kernel

theorem witness_SchedulingActs_requests :
    let s := scheduled id
    let low : State := { base with pipelines := base.pipelines ++ [{ second with insts := [{ freshInst with state := .ended }] }] }
    let r : State := { low with others := [{ s.ctx with lnum := 2, ctxid := 2 ^ 33, active := false }] }
    (s.contextOf s.ctx.ctxid.toNat = some s.ctx ∧ s.ctx.status = .running ∧ s.ctx.active = true ∧ s.ctx.request = none ∧ s.outranked s.ctx = true) ∧
    (r.contextOf r.ctx.ctxid.toNat = some r.ctx ∧ (r.readyRival r.ctx).isSome = true ∧ r.outranked r.ctx = false ∧ r.mayShed r.ctx = false) ∧
    (low.readyRival low.ctx = none ∧ low.outranked low.ctx = false ∧ low.mayShed low.ctx = false) := by
  refine ⟨?_, ?_, ?_⟩ <;> decide +kernel

/-- What the tables of `big` hold for virtual page 0, which is one page of 512 MiB: die 0 from byte 2^29. -/
def bigEntry : PageEntry := { size := 2, vpn := 0, ppn := 2 ^ 35 + 2 ^ 13, x := true, w := true, r := true, u := true, res := true, malformed := false }
def bigTlb : TlbEntry := { md := 0, asid := 0, size := 2, vpn := 0, ppn := 2 ^ 35 + 2 ^ 13, readOk := true, writeOk := true, execOk := true, userOk := true }

/-- The launched machine under that table, which the device's TLB keeps. -/
def big : State :=
  { ((base.putBytes astOff [0x84]).putBytes (hatOff + 64) (leBytes 4 codeAnchor)).putBytes (iptOff + 16 * (codeOff / 65536))
      (leBytes 16 ((2 ^ 35 + 2 ^ 13) * 2 ^ 88 + 0xF * 2 ^ 7 + 2 ^ 6 + 2 * 4 + 1)) with tlb := [bigTlb] }

/-- A state under that table whose page is empty. -/
structure Empty (s : State) : Prop where
  variant : s.variant = .ky9480
  mask : s.sizeMask 0 = 4
  walk : s.walk 0 0 = some bigEntry
  tlb : s.tlb = [bigTlb]
  regions : s.mgmt.latched.regions = []
  xdbmb : s.mgmt.latched.xdbmb = Vector.replicate 6 0
  mem : ∀ c ∈ s.mem, c.1 < 2 ^ 29
  rest : s.pois = [] ∧ s.zflags = [] ∧ s.zflagErr = [] ∧ s.lines = [] ∧ s.msgs = []
  codes : s.codes = []
  cmds : s.ctx.cmds = [] ∧ s.others = []

theorem walkChain_page {s : State} {va : Nat} (h : va < 2 ^ 29) : ∀ (fuel slot : Nat), walkChain s 0 va 2 slot fuel = walkChain s 0 0 2 slot fuel
  | 0, _ => rfl
  | n + 1, slot => by
    have hv : va / 2 ^ pageShift 2 = 0 := Nat.div_eq_of_lt h
    simp only [walkChain, hv, Nat.zero_div, walkChain_page h n]

theorem walkSizes_skip (s : State) (asid va mask limit z : Nat) (r : List Nat) (h : fld mask z 1 = 0) : walkSizes s asid va mask limit (z :: r) = walkSizes s asid va mask limit r :=
  (if_pos h : (if fld mask z 1 = 0 then _ else _) = _)

theorem walkSizes_zero {s : State} {va : Nat} (n z : Nat) (r : List Nat) (hz : fld 4 z 1 ≠ 0) (hv : va / 2 ^ pageShift z = 0) (hr : walkSizes s 0 va 4 n r = walkSizes s 0 0 4 n r)
    (hc : ∀ fuel slot, walkChain s 0 va z slot fuel = walkChain s 0 0 z slot fuel) : walkSizes s 0 va 4 n (z :: r) = walkSizes s 0 0 4 n (z :: r) := by
  simp only [walkSizes, if_neg hz, hv, Nat.zero_div, hr, hc]

theorem walkSizes_page {s : State} {va : Nat} (n : Nat) (h : va < 2 ^ 29) : walkSizes s 0 va 4 n [3, 2, 1, 0] = walkSizes s 0 0 4 n [3, 2, 1, 0] := by
  have e (v z : Nat) (r : List Nat) (h : fld 4 z 1 = 0) := walkSizes_skip s 0 v 4 n z r h
  rw [e _ 3 _ (by decide), e _ 3 _ (by decide)]
  refine walkSizes_zero n 2 _ (by decide) (Nat.div_eq_of_lt h) ?_ (walkChain_page h)
  rw [e _ 1 _ (by decide), e _ 1 _ (by decide), e _ 0 _ (by decide), e _ 0 _ (by decide)]
  rfl

theorem Empty.walk_page {s : State} (e : Empty s) {va : Nat} (h : va < 2 ^ 29) : s.walk 0 va = some bigEntry := by
  have hw := e.walk
  unfold State.walk at hw ⊢
  rw [e.mask] at hw ⊢
  rw [walkSizes_page 64 h]
  exact hw

theorem bigTlb_covers {va : Nat} (h : va < 2 ^ 29) : bigTlb.covers 0 0 va = true := by
  have : va / 2 ^ pageShift bigTlb.size = 0 := Nat.div_eq_of_lt h
  simp only [TlbEntry.covers, this]
  rfl

/-- The place of a byte of the page. -/
def bigPlace (va : Nat) : Place := { pa := 2 ^ 51 + 2 ^ 29 + va, key := 2 ^ 29 + va, cls := .pinned, zmap := false, cmpr := false }

theorem Empty.locate {s : State} (e : Empty s) {va : Nat} (h : va < 2 ^ 29) (a : Access) : s.locate (deviceWho 0) va a = .ok (.mem (bigPlace va)) := by
  have h1 : ¬ 2 ^ 56 ≤ va := by omega
  have h2 : ¬ bwin ≤ va := by unfold bwin; omega
  have hp : bigEntry.permits .supervisor a = true := by unfold PageEntry.permits bigEntry; simp
  have ht : s.translate 0 0 .supervisor va a = .ok (2 ^ 51 + 2 ^ 29 + va) := by
    have : (2 ^ 35 + 2 ^ 13) * 65536 + va % 2 ^ 29 = 2 ^ 51 + 2 ^ 29 + va := by omega
    have he : s.entryFor 0 0 va = some bigEntry := by
      simp only [State.entryFor, e.tlb, List.find?_cons, bigTlb_covers h, e.walk_page h, show bigTlb.page = bigEntry from rfl, if_true]
    simp only [State.translate, he, hp]
    exact congrArg Except.ok this
  have hpl : s.place (2 ^ 51 + 2 ^ 29 + va) = some (bigPlace va) := by
    have f1 : fld (2 ^ 51 + 2 ^ 29 + va) 48 3 = 0 := by unfold fld; omega
    have f2 : fld (2 ^ 51 + 2 ^ 29 + va) 37 11 = 0 := by unfold fld; omega
    have f3 : fld (2 ^ 51 + 2 ^ 29 + va) 0 37 = 2 ^ 29 + va := by unfold fld; omega
    have c1 : ¬ 2 ^ 52 ≤ 2 ^ 51 + 2 ^ 29 + va := by omega
    have c2 : 2 ^ 51 ≤ 2 ^ 51 + 2 ^ 29 + va := by omega
    simp only [State.place, placeByte, if_neg c1, if_pos c2, f1, f2, f3, XlatRegs.placesByte, e.regions, e.variant]
    simp [Variant.memDies, bigPlace]
  simp only [State.locate, if_neg h1, if_neg h2, deviceWho, State.locateMem, ht, hpl]

theorem Empty.fillPages {s : State} (e : Empty s) {va : Nat} (h : va < 2 ^ 29) : s.fillPages (deviceWho 0) va 1 = s := by
  have h2 : ¬ bwin ≤ va := by unfold bwin; omega
  have : s.tlbFill 0 0 va = s := by
    simp only [State.tlbFill, e.tlb, List.any_cons, bigTlb_covers h, Bool.true_or, if_true]
  simp only [State.fillPages, State.fillAt, deviceWho, Nat.sub_self, Nat.add_zero, if_pos (Nat.lt_of_not_le h2), this]

theorem Empty.recallTile {s : State} (e : Empty s) (p : Place) : s.recallTile p = s := by
  obtain ⟨-, -, -, h4, h5⟩ := e.rest
  simp [State.recallTile, h4, h5]

theorem Empty.clearAsked {s : State} (e : Empty s) (t : Nat) : s.clearAsked t = s := by
  obtain ⟨h1, h2⟩ := e.cmds
  have hc : { s.ctx with cmds := s.ctx.cmds.map (EngCmd.clearAsked t) } = s.ctx := by rw [h1, List.map_nil, ← h1]
  unfold State.clearAsked mapCtxs
  simp only [hc]
  rw [h2, List.map_nil, ← h2]

/-- No entry enables compression. -/
theorem Empty.plain {s : State} (e : Empty s) (k : Nat) : (s.placeOfKey k).any (·.cmpr) = false := by
  unfold State.placeOfKey
  simp [e.regions]

theorem Empty.wipeTile {s : State} (e : Empty s) {p : Place} (h : 2 ^ 29 ≤ p.key) (h' : p.key < 2 ^ 30) : s.wipeTile p = s := by
  obtain ⟨h1, h2, h3, h4, h5⟩ := e.rest
  have hz : s.zeroKeys (4096 * tileOf p.key) 4096 = s := by
    have hf : s.mem.filter (fun c => !(decide (4096 * tileOf p.key ≤ c.1) && decide (c.1 < 4096 * tileOf p.key + 4096))) = s.mem := by
      refine List.filter_eq_self.2 fun c hc => ?_
      have := e.mem c hc
      have : ¬ 4096 * tileOf p.key ≤ c.1 := by unfold tileOf; omega
      simp [this]
    unfold State.zeroKeys
    rw [hf, h1, List.filter_nil, ← h1]
  have hk : ¬ 2 ^ 40 ≤ 4096 * tileOf p.key := by unfold tileOf; omega
  have hs : s.setDirty (4096 * tileOf p.key) = s := by
    have hb := noBitmap e.regions e.xdbmb
    unfold State.BitmapByte State.bitmapKey at hb
    unfold State.setDirty
    simp only [if_neg hk]
    split
    · rfl
    · next q hq => exact absurd ⟨4096 * tileOf p.key, by rw [if_neg hk, hq]; rfl⟩ (hb q.key)
  have hp : (s.placeOfKey (4096 * tileOf p.key)).any (·.cmpr) = false := e.plain _
  have hc : ∀ l : List Nat, l.foldl (fun cs i => putCode (32 * tileOf p.key + i) 3 cs) [] = [] := fun l => by
    induction l with
    | nil => rfl
    | cons _ _ ih => exact ih
  have ht : s.zeroTile (tileOf p.key) = s := by
    unfold State.zeroTile
    simp only [hz, hp, Bool.false_eq_true, if_false, e.codes, hc]
    rw [← e.codes]
    exact hs
  unfold State.wipeTile
  simp only [e.recallTile, h2, h3, setDel]
  refine Eq.trans (congrArg (fun t : State => (t.zeroTile _).clearAsked _) (?_ : _ = s)) ?_
  · cases s
    simp_all
  · rw [ht, e.clearAsked]

theorem Empty.wipe {s : State} (e : Empty s) : ∀ (n va : Nat), va + 4096 * n ≤ 2 ^ 29 → s.wipe (deviceWho 0) va n = .ok s
  | 0, _, _ => rfl
  | n + 1, va, h => by
    have h' : va < 2 ^ 29 := by omega
    simp only [State.wipe, e.locate h', e.wipeTile (p := bigPlace va) (Nat.le_add_right _ _) (by show 2 ^ 29 + va < 2 ^ 30; omega), e.fillPages h']
    exact e.wipe n (va + 4096) (by omega)

theorem Empty.touchImage {s : State} (e : Empty s) : ∀ (n va : Nat), va + 4096 * n ≤ 2 ^ 29 → s.touchImage (deviceWho 0) va n = s
  | 0, _, _ => rfl
  | n + 1, va, h => by
    have h' : va < 2 ^ 29 := by omega
    simp only [State.touchImage, e.locate h', e.recallTile, e.fillPages h']
    exact e.touchImage n (va + 4096) (by omega)

theorem Empty.readTiles {s : State} (e : Empty s) (base len : Nat) :
    ∀ (n va : Nat), va + 4096 * n ≤ 2 ^ 29 → s.readTiles (deviceWho 0) base len va n = .ok { bytes := [], pois := [] }
  | 0, _, _ => rfl
  | n + 1, va, h => by
    obtain ⟨h1, h2, h3, -, -⟩ := e.rest
    have h' : va < 2 ^ 29 := by omega
    have hf (q : Nat → Bool) : s.mem.filter (fun c => tileOf c.1 == tileOf (2 ^ 29 + va) && q (c.1 % 4096)) = [] := by
      refine List.filter_eq_nil_iff.2 fun c hc => ?_
      have := e.mem c hc
      have : tileOf c.1 ≠ tileOf (2 ^ 29 + va) := by simp only [tileOf]; omega
      rw [beq_eq_false_iff_ne.2 this]
      exact Bool.false_ne_true
    have hx := hf (fun o => decide (base ≤ va + o) && decide (va + o < base + len))
    simp only [State.readTiles, e.locate h', e.readTiles base len n (va + 4096) (by omega), bigPlace, State.flagStruck, h1, h2, h3, List.contains_nil, Bool.false_and, hx,
      Bool.false_eq_true, if_false, List.filter_nil, List.map_nil, List.append_nil]

theorem empty_of {s : State} (h : (decide (s.variant = .ky9480 ∧ s.sizeMask 0 = 4 ∧ s.walk 0 0 = some bigEntry ∧ s.tlb = [bigTlb] ∧ s.mgmt.latched.regions = [] ∧
    s.mgmt.latched.xdbmb = Vector.replicate 6 0 ∧ (∀ c ∈ s.mem, c.1 < 2 ^ 29) ∧ (s.pois = [] ∧ s.zflags = [] ∧ s.zflagErr = [] ∧ s.lines = [] ∧ s.msgs = []) ∧
    s.codes = [] ∧ s.ctx.cmds = [] ∧ s.others = [])) = true) : Empty s := by
  obtain ⟨h1, h2, h3, h4, h5, h6, h7, h8, h9, h10⟩ := of_decide_eq_true h
  exact ⟨h1, h2, h3, h4, h5, h6, h7, h8, h9, h10⟩

/-- A landed context that waits for its drain, with little to save; and the same context drained, its area at 16 MiB. -/
def savePipe (i : InstState) : Pipeline :=
  { launchPipe 1 with saveBase := 0x1000000, insts := [{ stage := 0, slot := 0, state := i, prio := 0, since := 0 }] }
def drainable : State :=
  let c := { big.ctx with status := .landed, request := some .drain, cells := [], z := Vector.replicate 4 { rows := 0, cols := 0 }, mshp := Vector.replicate 8 0,
                          regs := Vector.replicate 48 0, fnver := 0 }
  { big with ctx := c, src := c, pipelines := [savePipe .running] }
def drained : State :=
  let c := { drainable.ctx with status := .ready, request := none, saved := some 0x1000000, array := none, active := false }
  { drainable with ctx := c, src := c, pipelines := [savePipe .drained] }

theorem image_of {s : State} {w : Who} {area len : Nat} (ps : List Piece) (h : s.wipe w area (len / 4096) = .ok s) :
    s.writeImage w area len ps = s.writePieceBytes w area (ps.flatMap Piece.bytes) := by
  unfold State.writeImage
  rw [h]

theorem save_of {s : State} {w : Who} {area : Nat} {g : Stage} {c : Context} {cells : List CellState} {p : State → Bool}
    (h : s.wipe w area ((backingBase g.foot + 2 ^ 20 * c.scratchSize) / 4096) = .ok s)
    (h' : (match s.writePieceBytes w area ((contextPieces g c cells).flatMap Piece.bytes) with
      | .error _ => false
      | .ok t =>
        match t.engineWrite w (area + 7) [(1, false)] with
        | .error _ => false
        | .ok v => p v) = true) : ∃ v, s.saveContext w area w area g c cells = .ok v ∧ p v = true := by
  have e := image_of (contextPieces g c cells) h
  unfold State.saveContext
  simp only [and_self, if_true]
  rw [e]
  generalize s.writePieceBytes w area ((contextPieces g c cells).flatMap Piece.bytes) = x at h' ⊢
  cases x with
  | error e => exact absurd h' Bool.false_ne_true
  | ok t =>
    unfold setAreaState
    revert h'
    simp only
    generalize t.engineWrite w (area + 7) [(1, false)] = y
    cases y with
    | error e => exact fun h' => absurd h' Bool.false_ne_true
    | ok v => exact fun h' => ⟨v, rfl, h'⟩

theorem drainable_empty : Empty drainable := empty_of (by decide +kernel)
theorem drained_empty : Empty drained := empty_of (by decide +kernel)

theorem saves : ∃ v, drainable.saveContext (deviceWho 0) 0x1000000 (deviceWho 0) 0x1000000 launchStage drainable.ctx (drainable.cellsOf drainable.ctx) = .ok v ∧
    (fun _ => true) v = true := by
  refine save_of ?_ (by decide +kernel)
  have ha : (backingBase launchStage.foot + 2 ^ 20 * drainable.ctx.scratchSize) / 4096 = 3424 := by decide +kernel
  rw [ha]
  exact drainable_empty.wipe 3424 0x1000000 (by decide)

/-- A chain of one context that has nothing to settle is saved whole. -/
theorem saveMembers_of {s : State} {p : Pipeline} {g : Stage} {c : Context} (hs : s.settleMember c.ctxid.toNat = s)
    (hc : s.contexts.find? (fun m => m.ctxid.toNat == c.ctxid.toNat) = some c)
    (hv : ∃ v, s.saveContext (deviceWho p.asid) (p.areaOf c.stage c.inst c.rank) (deviceWho p.asid) (p.areaOf c.stage c.inst c.rank) g c (s.cellsOf c) = .ok v ∧
      (fun _ => true) v = true) : (s.saveMembers p g none p.asid [c]).2 = none := by
  obtain ⟨v, hv, -⟩ := hv
  have ha : s.areaFor p none c = p.areaOf c.stage c.inst c.rank := rfl
  rw [State.saveMembers, hs, State.saveMember]
  simp only [hc, ha, hv, Option.isSome_none, Bool.false_eq_true, if_false, State.saveMembers]

theorem reads : drained.imageOf drained.ctx = .ok { bytes := [], pois := [] } := by
  unfold State.imageOf State.readImage
  rw [show drained.ctx.savedAsid = 0 from rfl, show drained.areaLen drained.ctx = 0xD60000 by decide +kernel, show drained.ctx.saved.getD 0 = 0x1000000 by rfl]
  exact drained_empty.readTiles 0x1000000 0xD60000 3424 0x1000000 (by decide)

theorem touches (len : Nat) (h : len ≤ 0x1000000) : drained.touchArea (deviceWho 0) 0x1000000 len = drained := by
  unfold State.touchArea
  exact drained_empty.touchImage _ _ (by omega)

/-- The clauses of SwitchDrainResumeAct, each with a state that meets its premises. -/
theorem witness_SwitchDrainResumeAct_switch :
    let m : Context := { base.ctx with lnum := 2, ctxid := 2 ^ 33, active := false }
    let c : Context := { base.ctx with status := .landed, request := some .switch }
    let s (l : List Context) : State := { base with ctx := c, src := c, others := l }
    ((s [m]).ctx.status = .landed ∧ (s [m]).ctx.request = some .switch ∧ (s [m]).chainLanded (s [m]).ctx = true ∧ (s [m]).readyRival (s [m]).ctx = some m ∧
      m.sameChain m = true ∧ m.array.isSome = true) ∧
    ((s []).chainLanded (s []).ctx = true ∧ (s []).readyRival (s []).ctx = none ∧ (s []).ctx.sameChain (s []).ctx = true) ∧ base.ctx.status ≠ .landed := by
  refine ⟨?_, ?_, ?_⟩ <;> decide +kernel

theorem witness_SwitchDrainResumeAct_drain :
    (drainable.pipelineOf drainable.ctx.lnum = some (savePipe .running) ∧ drainable.stageOf drainable.ctx = some launchStage ∧
      drainable.ctx.status = .landed ∧ drainable.ctx.request = some .drain ∧ drainable.chainLanded drainable.ctx = true ∧
      drainable.chainOf drainable.ctx = [drainable.ctx] ∧ drainable.ctx.inFlight = [] ∧ (drainable.contexts.map (·.ctxid)).Nodup ∧ parkArea [drainable.ctx] = none) ∧
    (drainable.performBegun.saveMembers (savePipe .running) launchStage none ((parkAsid [drainable.ctx]).getD (savePipe .running).asid) [drainable.ctx]).2 = none := by
  refine ⟨by decide +kernel, ?_⟩
  rw [show drainable.performBegun = drainable from rfl]
  refine saveMembers_of (by decide +kernel) (by decide +kernel) ?_
  exact saves

/-- As `drainable`, its area at an address that nothing maps, for a drain or for CTXSAVE. -/
def lostArea (k : RequestKind) : State :=
  let c := { drainable.ctx with request := some k }
  { drainable with ctx := c, src := c, pipelines := [{ savePipe .running with saveBase := 2 ^ 55 }] }

theorem witness_SwitchDrainResumeAct_fails :
    (let s := lostArea .drain
     (s.performBegun.saveMembers { savePipe .running with saveBase := 2 ^ 55 } launchStage (parkArea [s.ctx]) ((parkAsid [s.ctx]).getD 0) [s.ctx]).2 = some (2 ^ 55)) ∧
    (let s := lostArea (.park (2 ^ 54) 0 0 0)
     (parkArea [s.ctx]).isSome = true ∧
       (s.performBegun.saveMembers { savePipe .running with saveBase := 2 ^ 55 } launchStage (parkArea [s.ctx]) ((parkAsid [s.ctx]).getD 0) [s.ctx]).2 = some (2 ^ 54)) := by
  refine ⟨?_, ?_⟩ <;> decide +kernel

theorem witness_SwitchDrainResumeAct_resume :
    (drained.pipelineOf drained.ctx.lnum = some (savePipe .drained) ∧ (savePipe .drained).stages[0]? = some launchStage ∧
      (savePipe .drained).insts.find? (fun x => x.stage == 0 && x.slot == 0) = some { stage := 0, slot := 0, state := .drained, prio := 0, since := 0 } ∧
      drained.drained drained.ctx.lnum 0 0 = [drained.ctx] ∧ (savePipe .drained).closing = false ∧ drained.fits launchStage [71] = true ∧
      drained.topPriority { stage := 0, slot := 0, state := .drained, prio := 0, since := 0 } = true ∧ drained.ctx.status = .ready ∧
      drained.ctx.rank % drained.ctx.chainLen = 0 ∧ drained.ctx.blocks = [] ∧ drained.others = [] ∧ (drained.freeBlocks (dieOfArray 71)).length = 64) ∧
    (∀ c ∈ drained.ctx :: drained.others, c.half = none ∧ ∀ k ∈ c.cmds, k.out = []) ∧ drained.imageOf drained.ctx = .ok { bytes := [], pois := [] } ∧ ({ bytes := [], pois := [] } : Image).seqStruck = false ∧
    (({ bytes := [], pois := [] } : Image).creg 0x358 0x006 drained.ctx.scrlo).toNat ≤ 64 ∧
    ∃ w, (drained.loadMember launchStage drained.ctx { bytes := [], pois := [] } 71 (chainArrays launchStage.chain 0 [71])).engineWrite
      (deviceWho drained.ctx.savedAsid) (drained.ctx.saved.getD 0 + 7) [(2, false)] = .ok w ∧ (fun _ => true) w = true := by
  refine ⟨by decide +kernel, by decide +kernel, reads, rfl, by decide +kernel, ?_⟩
  unfold State.loadMember
  rw [show drained.ctx.saved.getD 0 = 0x1000000 from rfl, show drained.ctx.savedAsid = 0 from rfl, touches _ (by decide +kernel)]
  exact exists_ok (by decide +kernel)

/-- The launched machine with a submission queue: tail at byte 0x100 of host memory, head at 0x200, one slot of two records at 0x10000. -/
def subq (tail head : BitVec 32) (bytes : List (Nat × List Byte)) (s : State) : State :=
  let s := bytes.foldl (fun s x => s.putBytes (2 ^ 40 + x.1) x.2) s
  { s with mgmt.queues := s.mgmt.queues.set 5
             { sqd := BitVec.ofNat 256 (2 ^ 196 + 2 ^ 192 + (2 ^ 48 + 0x200) * 2 ^ 128 + (2 ^ 48 + 0x100) * 2 ^ 64 + 2 ^ 48 + 0x10000), head := head, tail := tail,
               seen := 0, waiting := false, lnum := 0 } }
def queueDesc : QueueDesc := { logn := 1, heada := 2 ^ 48 + 0x200, taila := 2 ^ 48 + 0x100, base := 2 ^ 48 + 0x10000 }

/-- A record of one stage (R109, R302 to R308): PHASE 1, its areas in the page of `big`. -/
def launchRecord : Nat :=
  1 + 2 ^ 8 + 2 ^ 19 + 0x1000000 * 2 ^ 128 + 0xD60000 * 2 ^ 192 + 0x100000 * 2 ^ 320 +
    2 ^ 512 * (0x1000 + 2 ^ 72 + 0xF * 2 ^ 80 + 0xF * 2 ^ 84 + 2 ^ 112 + 2 ^ 128)

theorem witness_HostAndResetsAct_values :
    base.MemoryCanonical ∧ ((16 : Nat) < 2 ^ 52 ∧ 16 / 2 ^ 5 % 2 ^ 7 = 0 ∧ 16 ≤ 16 % 2 ^ 5 ∧ 16 % 2 ^ 5 ≤ 24) ∧ ((2 ^ 52 - 2 ^ 12 + 24 : Nat) < 2 ^ 52 ∧
      (2 ^ 52 - 2 ^ 12 + 24) / 2 ^ 5 % 2 ^ 7 = 0 ∧ (2 ^ 52 - 2 ^ 12 + 24) % 2 ^ 5 ≤ 24) ∧ (15 % 2 ^ 5 < 16 ∧ 24 < 25 % 2 ^ 5 ∧ 2 ^ 52 ≤ 2 ^ 52 + 16) ∧
    (200 ≤ (200 : Word).toNat ∧ (3400 : Word).toNat ≤ 3400 ∧ (199 : Word).toNat < 200 ∧ 3400 < (3401 : Word).toNat) ∧
    ((2 ^ 49 - 1) + 1 ≤ 2 ^ 49 ∧ base.place (2 ^ 49 - 1) = some { pa := 2 ^ 49 - 1, key := 2 ^ 40 + 2 ^ 48 - 1, cls := .host, zmap := false, cmpr := false } ∧
      base.place (2 ^ 48) = some { pa := 2 ^ 48, key := 2 ^ 40, cls := .host, zmap := false, cmpr := false } ∧ base.Unmapped [2 ^ 40 + 2 ^ 48 - 1] ∧ base.Unmapped [2 ^ 40] ∧
      base.mgmt.dark = false ∧ base.mgmt.ready = true ∧ ({ base with mgmt.ready := false } : State).mgmt.ready = false ∧ base.posted = [] ∧ base.writeBacks = [] ∧
      base.inputs = [] ∧ base.devFaults = [] ∧ base.mgmt.fatal = false ∧ base.power = true ∧ ({ base with mgmt.xlatch := 1 } : State).mgmt.xlatch ≠ 0) ∧ ∀ k, ¬ base.BitmapByte k := by
  unfold State.MemoryCanonical State.Unmapped
  refine ⟨?_, ?_, ?_, ?_, ?_, ?_, noBitmap (by decide +kernel) (by decide +kernel)⟩ <;> decide +kernel

theorem witness_HostAndResetsAct_tail :
    let s (n : Nat) : State := subq 0 (2 ^ 32 - 1) [(0x100, leBytes 4 n)] base
    (s 1).mgmt.queues[5].desc = some queueDesc ∧
      (∃ bs, (s 0).physRead queueDesc.taila 4 = some bs ∧ (!anyPoison bs && (BitVec.ofNat 32 (numOf bs) == (s 0).mgmt.queues[5].seen)) = true) ∧
      (∃ bs, (s 1).physRead queueDesc.taila 4 = some bs ∧ (!anyPoison bs && (BitVec.ofNat 32 (numOf bs) != (s 1).mgmt.queues[5].seen) && ((BitVec.ofNat 32 (numOf bs) - (s 1).mgmt.queues[5].head).toNat == 2 ^ queueDesc.logn)) = true) ∧
      (∃ bs, (s 2).physRead queueDesc.taila 4 = some bs ∧ (!anyPoison bs && (BitVec.ofNat 32 (numOf bs) != (s 2).mgmt.queues[5].seen) && decide (2 ^ queueDesc.logn < (BitVec.ofNat 32 (numOf bs) - (s 2).mgmt.queues[5].head).toNat)) = true) := by
  refine ⟨?_, ?_, ?_, ?_⟩
  · decide +kernel
  · exact some_ok (by decide +kernel)
  · exact some_ok (by decide +kernel)
  · exact some_ok (by decide +kernel)

theorem witness_HostAndResetsAct_record :
    let s := subq 1 0 [(0x10000, leBytes 256 launchRecord)] big
    s.mgmt.queues[5].desc = some queueDesc ∧ s.mgmt.fatal = false ∧ s.mgmt.nextQueue = some 5 ∧ s.phaseMatches s.mgmt.queues[5] queueDesc = true ∧
      let r := s.physTouch (s.mgmt.queues[5].record queueDesc).1 1
      ∃ bs, r.physRead (s.mgmt.queues[5].record queueDesc).1 256 = some bs ∧
        ((r.physTouch (s.mgmt.queues[5].record queueDesc).1 256).tryLaunch bs).1.toOption.isSome = true := by
  refine ⟨?_, ?_, ?_, ?_, ?_⟩
  · decide +kernel
  · decide +kernel
  · decide +kernel
  · decide +kernel
  · exact some_ok (by decide +kernel)

theorem witness_HostAndResetsAct_badRecord :
    let s := subq 3 2 [(0x10000, [2])] base
    s.mgmt.queues[5].desc = some queueDesc ∧ s.mgmt.fatal = false ∧ s.mgmt.nextQueue = some 5 ∧ s.phaseMatches s.mgmt.queues[5] queueDesc = true ∧
      let r := s.physTouch (s.mgmt.queues[5].record queueDesc).1 1
      ∃ bs, r.physRead (s.mgmt.queues[5].record queueDesc).1 256 = some bs ∧
        decide (((r.physTouch (s.mgmt.queues[5].record queueDesc).1 256).tryLaunch bs).1 = .error .bad) = true := by
  refine ⟨?_, ?_, ?_, ?_, ?_⟩
  · decide +kernel
  · decide +kernel
  · decide +kernel
  · decide +kernel
  · exact some_ok (by decide +kernel)

theorem witness_HostAndResetsAct_notReady :
    let s := subq 3 2 [(0x10000, [1])] base
    s.mgmt.queues[5].desc = some queueDesc ∧ s.mgmt.queues[5].ready = true ∧ s.phaseMatches s.mgmt.queues[5] queueDesc = false := by
  decide +kernel

theorem witness_PowerLinksMeasurementAct :
    let cut (l : List (Nat × Nat)) : State := { base with mgmt.dieLinks := l }
    ((List.replicate base.variant.computeDies 40).sum ≤ base.mgmt.pwrbud.toNat ∧ base.mgmt.pwrbud.toNat < (List.replicate base.variant.computeDies 3000).sum ∧
      base.mgmt.compute = true ∧ base.mgmt.fatal = false ∧ 3 < base.variant.computeDies ∧ base.mgmt.hot = [] ∧
      base.hasUnit (.link (17 : Fin 18).val) = true) ∧
    ((cut []).linked 0 1 = true ∧ (cut [(0, 1)]).connected = true ∧ (cut [(0, 3), (0, 1), (0, 1)]).linked 0 3 = true ∧
      (cut [(0, 3), (0, 3), (0, 1), (0, 1)]).connected = false) ∧
    ({ base with mgmt.fatal := true } : State).mgmt.fatal = true := by
  refine ⟨?_, ?_, rfl⟩ <;> decide +kernel

/-- Two contributors of one group, two slots of one context, and their commands of its first operation. -/
def declOf (slot rank : Nat) : GroupDecl := { ctx := 0, slot := slot, cmd := slot, rank := rank, n := 2, f := 2, fmt := 3, t := 0, rmap := [] }
def groupOf (r : Nat) : Group := { key := 9, asid := 0, decls := [declOf 0 0, declOf 1 r], formed := false, done := 0, run := none, released := [] }
def reducing (slot : BitVec 8) (n : Word) : EngCmd := { command (.redd (cmd slot)) (cmd slot) with seq := slot.toNat, p := #v[0, n, 0, 0] }
def reducers (g : Group) (ks : List EngCmd) : State :=
  { (turn fun c => { c with ctxid := 0, cmds := ks }) with groups := [g] }

theorem witness_ReductionsAct :
    let stripe (x : BitVec 32) : List Stripe := [{ num := 7, dense := false, vals := [(5, x, false)] }]
    let run : GroupRun := { levels := [[some (stripe (2 ^ 31 - 1)), some (stripe 1)], [none]], clamps := 0, fates := [], miss := [], ends := none, taint := none }
    let g := { groupOf 1 with formed := true }
    let s := reducers g [reducing 0 8, reducing 1 8]
    let u := reducers g [reducing 0 8, reducing 1 9]
    ((reducers (groupOf 1) []).groups[0]? = some (groupOf 1) ∧ (∀ c ∈ s.ctx :: s.others, c.drainedAway = false) ∧ (groupOf 1).conflict = false ∧
      (groupOf 1).decls = declOf 0 0 :: [declOf 1 1] ∧ (groupOf 1).decls.length = (declOf 0 0).n ∧ (groupOf 0).conflict = true) ∧
    (({ g with run := some run } : Group).run = some run ∧ s.groupCmd { g with run := some run } (declOf 0 0) = some (reducing 0 8) ∧ run.levels[0 + 1]? = some [none] ∧
      ([none] : List (Option (List Stripe)))[0]? = some none ∧
      (((run.levels.getD 0 []).drop (2 * 0)).take 2).mapM id = some [stripe (2 ^ 31 - 1), stripe 1]) ∧
    (g.formed = true ∧ g.released = [] ∧ g.run = none ∧ s.operation g = some ((declOf 0 0, reducing 0 8) :: [(declOf 1 1, reducing 1 8)]) ∧
      (∀ x ∈ [(declOf 1 1, reducing 1 8)], x.2.signature = (reducing 0 8).signature) ∧ isBcst (reducing 0 8).op = false) ∧
    (u.operation g = some ((declOf 0 0, reducing 0 8) :: [(declOf 1 1, reducing 1 9)]) ∧
      (∃ x ∈ [(declOf 1 1, reducing 1 9)], x.2.signature ≠ (reducing 0 8).signature)) ∧
    (({ g with run := some { run with ends := some [(0, 0, 0), (1, 0, 0)] } } : Group).run.bind (·.ends)).isSome = true ∧
    (s.operation { g with run := some { run with ends := some [(0, 0, 0), (1, 0, 0)] } } = some ((declOf 0 0, reducing 0 8) :: [(declOf 1 1, reducing 1 8)]) ∧
      (∀ x ∈ [(declOf 0 0, reducing 0 8), (declOf 1 1, reducing 1 8)], x.2.out = [])) := by
  refine ⟨?_, ?_, ?_, ?_, ?_, ?_⟩ <;> decide +kernel

/-- The premises of StepRunsDecodedInstruction for a bundle, and for the one instruction that it holds. -/
def runsAlone (v : State) (b : Bundle) (ws : List Nat) : Bool :=
  let w := v.touchData b
  let a : State := { w with ahead := w.headers ws }
  !v.queueHeld b && v.checkBundle b == .go && !v.bundleHeld b && b.rep == 0 && (match b.ops with
    | [i] => !actsAfter i && (match exec i (if i.slot = some .w0 then a.waveStart (a.src.waveWord b) else a) with
      | .next _ => true
      | _ => false)
    | _ => false)

/-- A launched machine that finds a bundle of a header and the given words at its entry address. -/
def runs (bs : List Byte) (h : Nat) (ws : List Nat) : Prop :=
  let s := State.reset.launchBytes bs
  let u := ({ s.onTurn with ctx.inWaitq := false } : State).fetchReady
  (s.inputs = [] ∧ s.power = true ∧ s.mgmt.fatal = false ∧ s.mgmt.ready = true ∧ s.ctx.status = .running ∧ s.ctx.active = true ∧ s.ctx.array.isSome = true) ∧ s.onTurn.Undisturbed ∧
    (u.src.cur = [] ∧ u.src.pc % 4 = 0 ∧ u.src.pc < 2 ^ 56 ∧ u.fetchWord u.src u.src.pc = .ok h ∧
      u.fetchWords u.src (u.src.pc + 4) (bundleLen h / 4 - 1) = .ok ws ∧ u.checkFetchAhead (h :: ws) = .go ∧ u.src.rep = 0 ∧ u.src.sticky.w0 = none ∧
      u.src.sticky.w1 = none ∧ u.src.sticky.m = none) ∧
    ∃ b, decodeBundle h ws = .ok b ∧ runsAlone (u.touchAhead (h :: ws)) b (h :: ws) = true

theorem witness_StepRunsDecodedInstruction_S : runs (loneBundle .s 0x74200041) 0xA0000001 [0x74200041] := by
  unfold runs State.Undisturbed
  exact ⟨by decide +kernel, by decide +kernel, by decide +kernel, exists_ok (by decide +kernel)⟩

theorem witness_StepRunsDecodedInstruction_W0 : runs (loneBundle .w0 0x04432120) 0xA0000008 [0x04432120] := by
  unfold runs State.Undisturbed
  exact ⟨by decide +kernel, by decide +kernel, by decide +kernel, exists_ok (by decide +kernel)⟩

theorem witness_StepRunsDecodedInstruction_header : runs (loneBundle .header 0xA0000000) 0xA0000000 [] := by
  unfold runs State.Undisturbed
  exact ⟨by decide +kernel, by decide +kernel, by decide +kernel, exists_ok (by decide +kernel)⟩

theorem witness_StepRunsDecodedInstruction_event :
    let s : State := { base with inputs := [.event .powerOff] }
    s.inputs = .event .powerOff :: [] ∧ s.power = true ∧ Instr.powerOff.slot = none ∧ endedByFatal .powerOff = false ∧
      ∃ t, exec .powerOff { s with inputs := [], src := s.ctx } = .next t :=
  ⟨rfl, by decide +kernel, rfl, rfl, _, rfl⟩

theorem witness_StepRunsDecodedInstruction_noPower : ({ State.reset with power := false } : State).inputs = [] ∧ ({ State.reset with power := false } : State).power = false :=
  ⟨rfl, rfl⟩

theorem witness_DecodeOfEncode : Instr.slot (.movi (.s 9) 0x80000) = some .s ∧ (Instr.movi (.s 9) 0x80000).wellFormed = true := by decide

theorem witness_StepKeepsMemoryCanonical :
    let s := State.reset.withFetchWord 32 0x74200041
    s.MemoryCanonical ∧ (match step s with
      | .next _ => true
      | _ => false) = true := by
  unfold State.MemoryCanonical
  refine ⟨?_, ?_⟩ <;> decide +kernel

theorem witness_WaveOperationsKeepToTheirDestination :
    (match Instr.vadd { d := 3, a := 1, b := 2, typ := 1, var := 0 } with
      | .vadd _ => True
      | _ => False) ∧ Instr.slot (.vadd { d := 3, a := 1, b := 2, typ := 1, var := 0 }) = some .w0 := ⟨trivial, rfl⟩

theorem witness_LateWaveOperationsOweTheirResult :
    (match Instr.cld { d := 2, off := 4, step := 1, lat := 4 } with
      | .cld w => 4 = w.lat.toNat ∧ false = false
      | _ => False) ∧ Instr.slot (.cld { d := 2, off := 4, step := 1, lat := 4 }) = some .w1 := ⟨⟨rfl, rfl⟩, rfl⟩

end Sys2Proof.Tests
end

section
/-! # Memory stays canonical

The step lemma of the invariant `State.MemoryCanonical`: whatever the next step is, it keeps the list of bytes and the list of poisoned
bytes in their canonical form (R3, R196, R398). `Laws/Memory.lean` has the operations on memory itself; what follows goes up from them
through operands, accesses, engine commands, the scheduler, the host and the wave slots to `exec`, to the sequencer's turn and to
`step`. Most of these operations write no memory of their own, so that their lemmas only name the operations that they call. -/

namespace Sys2Proof.Machine

/-! ### Outcomes, case distinctions and updates of contexts -/

/-- Every next state that an outcome answers has its memory in canonical form. -/
def AnswersCanonical (r : Host.Outcome State Fault Refusal) : Prop := ∀ t, r = .next t → t.MemoryCanonical

theorem AnswersCanonical.next {s : State} (h : s.MemoryCanonical) : AnswersCanonical (.next s) := by
  rintro _ ⟨⟩
  exact h

theorem stateOf_canonical {s : State} {r : Host.Outcome State Fault Refusal} (h : s.MemoryCanonical) (hr : AnswersCanonical r) :
    (stateOf s r).MemoryCanonical := by
  cases r with
  | next t => exact hr t rfl
  | fault => exact h
  | refused => exact h

/-- A check that stops an operation touches no memory, so that only the effect matters. -/
theorem gated_canonical {v : Verdict} {act : State → State} {s : State} (h : s.MemoryCanonical) (ha : (act s).MemoryCanonical) :
    AnswersCanonical (gated v act s) := by
  cases v with
  | go => exact .next ha
  | hold => exact .next (s := s.hold) h
  | trap cause info => exact .next (s := s.takeTrap cause info) h

theorem canonical_ite {p : Prop} [Decidable p] {s t : State} (hs : s.MemoryCanonical) (ht : t.MemoryCanonical) :
    (if p then s else t).MemoryCanonical := by
  split
  · exact hs
  · exact ht

theorem canonical_ite_snd {α : Type} {p : Prop} [Decidable p] {x y : α × State} (hx : x.2.MemoryCanonical) (hy : y.2.MemoryCanonical) :
    (if p then x else y).2.MemoryCanonical := by
  split
  · exact hx
  · exact hy

theorem State.setCtx_canonical {s : State} (c : Context) (h : s.MemoryCanonical) : (s.setCtx c).MemoryCanonical := h

theorem mapCtxs_canonical {s : State} (f : Context → Context) (h : s.MemoryCanonical) : (mapCtxs s f).MemoryCanonical := h

theorem State.mapCtx_canonical {s : State} (id : Nat) (f : Context → Context) (h : s.MemoryCanonical) : (s.mapCtx id f).MemoryCanonical := h

theorem State.mapPipe_canonical {s : State} (lnum : Nat) (f : Pipeline → Pipeline) (h : s.MemoryCanonical) :
    (s.mapPipe lnum f).MemoryCanonical := h

theorem State.log_canonical {s : State} (e : LogEntry) (h : s.MemoryCanonical) : (s.log e).MemoryCanonical := h

/-! ### Operands -/

theorem State.take_canonical {s : State} (o : Opnd) (h : s.MemoryCanonical) : (s.take o).2.MemoryCanonical := by
  unfold State.take
  split
  · exact h
  · split
    · exact h
    · split <;> exact h

theorem State.takeN_canonical (o : Opnd) : ∀ (n : Nat) {s : State}, s.MemoryCanonical → (s.takeN o n).2.MemoryCanonical
  | 0, _, h => h
  | n + 1, _, h => State.takeN_canonical o n (State.take_canonical o h)

theorem State.takeAll_canonical : ∀ (l : List Opnd) {s : State}, s.MemoryCanonical → (s.takeAll l).2.MemoryCanonical
  | [], _, h => h
  | o :: r, _, h => State.takeAll_canonical r (State.take_canonical o h)

theorem State.put_canonical {s : State} (d : Opnd) (w : Word) (h : s.MemoryCanonical) : (s.put d w).MemoryCanonical := by
  cases d <;> exact h

/-! ### Accesses of a sequencer -/

theorem State.loadLocs_canonical {s : State} (c : Context) (ls : List Loc) (h : s.MemoryCanonical) : (s.loadLocs c ls).2.MemoryCanonical :=
  State.synchronise_canonical ls (State.prepareAll_canonical c false ls h)

theorem State.storeLocs_canonical {s : State} (c : Context) (ls : List Loc) (bs : List Byte) (h : s.MemoryCanonical) :
    (s.storeLocs c ls bs).MemoryCanonical :=
  State.storeBytes_canonical c ls bs (State.prepareAll_canonical c true ls h)

theorem State.loadNum_canonical {s : State} (c : Context) (va n : Nat) (h : s.MemoryCanonical) : (s.loadNum c va n).2.2.MemoryCanonical := by
  unfold State.loadNum
  split
  · exact h
  · exact State.loadLocs_canonical c _ (State.fillPages_canonical _ va n h)

theorem State.storeNum_canonical {s : State} (c : Context) (va n v : Nat) (h : s.MemoryCanonical) : (s.storeNum c va n v).MemoryCanonical := by
  unfold State.storeNum
  split
  · exact h
  · rename_i ls _
    have t := State.storeLocs_canonical c (ls.take (lowPart va n)) ((leBytes n v).take (lowPart va n)) (State.fillPages_canonical (c.who s.variant) va n h)
    exact canonical_ite t (State.setCtx_canonical _ t)

theorem State.settleHalf_canonical {s : State} (h : s.MemoryCanonical) : s.settleHalf.MemoryCanonical := by
  unfold State.settleHalf
  split
  · exact h
  · exact State.setCtx_canonical _ (canonical_ite (State.setCtx_canonical _ (State.loadLocs_canonical _ _ (State.setCtx_canonical _ h)))
      (State.storeLocs_canonical _ _ _ (State.setCtx_canonical _ h)))

theorem State.oweLoad_canonical {s : State} (d : Opnd) (lat source v : Nat) (poison : Bool) (h : s.MemoryCanonical) :
    (s.oweLoad d lat source v poison).MemoryCanonical := h

theorem State.atomic_canonical {s : State} (c : Context) (ea n : Nat) (f : Nat → Nat) (h : s.MemoryCanonical) :
    (s.atomic c ea n f).2.2.MemoryCanonical := by
  unfold State.atomic
  split
  · exact h
  · rename_i ls _
    dsimp only
    split
    · have t := State.fillPages_canonical (c.who s.variant) ea n (State.mergeWhere_canonical (s.sentFor c) h)
      split
      · exact t
      · exact canonical_foldl _ (fun _ _ ht => State.enginePut_canonical _ _ _ _ ht) _ t
    · have t := State.loadLocs_canonical c ls (State.prepareAtomic_canonical c ls (State.fillPages_canonical (c.who s.variant) ea n h))
      split
      · exact t
      · exact State.storeLocs_canonical _ _ _ t

/-! ### Cache operations -/

theorem State.putSw_canonical {s : State} (l : SwLine) (h : s.MemoryCanonical) : (s.putSw l).MemoryCanonical := h

theorem State.sendDirty_canonical {s : State} (o : Option Nat) (l : SwLine) (h : s.MemoryCanonical) : (s.sendDirty o l).MemoryCanonical :=
  canonical_ite h h

theorem State.sendBack_canonical {s : State} (o : Option Nat) (k : CacheId × Nat) (h : s.MemoryCanonical) : (s.sendBack o k).MemoryCanonical := by
  unfold State.sendBack
  split
  · exact h
  · exact canonical_ite h (State.putSw_canonical _ (State.sendDirty_canonical _ _ h))

theorem State.markStale_canonical {s : State} (k : CacheId × Nat) (h : s.MemoryCanonical) : (s.markStale k).MemoryCanonical := by
  unfold State.markStale
  split <;> exact h

theorem State.cwb_canonical {s : State} (a b : Nat) (h : s.MemoryCanonical) : (s.cwb a b).MemoryCanonical :=
  canonical_ite h (canonical_foldl _ (fun _ k ht => State.sendBack_canonical _ k ht) _ h)

theorem State.cinv_canonical {s : State} (a b : Nat) (h : s.MemoryCanonical) : (s.cinv a b).MemoryCanonical :=
  canonical_ite h (canonical_foldl _ (fun _ k ht => State.markStale_canonical k ht) _ h)

theorem State.cflush_canonical {s : State} (a b : Nat) (h : s.MemoryCanonical) : (s.cflush a b).MemoryCanonical :=
  canonical_ite h (canonical_foldl _ (fun _ k ht => State.markStale_canonical k ht) _
    (canonical_foldl _ (fun _ k ht => State.sendBack_canonical _ k ht) _ h))

/-! ### Fetching, branches and loops -/

theorem State.touchCode_canonical {s : State} (c : Context) (va n : Nat) (h : s.MemoryCanonical) : (s.touchCode c va n).MemoryCanonical := by
  unfold State.touchCode
  split
  · exact h
  · exact State.fillPages_canonical _ _ _ (State.prepareAll_canonical c false _ h)

theorem State.fetchReady_canonical {s : State} (h : s.MemoryCanonical) : s.fetchReady.MemoryCanonical := by
  have t := State.touchCode_canonical s.ctx s.ctx.pc 4 h
  refine canonical_ite h ?_
  split
  · exact t
  · exact canonical_ite t (State.touchCode_canonical _ _ _ t)

theorem State.fallThrough_canonical {s : State} (h : s.MemoryCanonical) : s.fallThrough.MemoryCanonical := by
  unfold State.fallThrough
  split <;> exact h

theorem State.loopStart_canonical {s : State} (n : Nat) (last : BitVec 14) (h : s.MemoryCanonical) : (s.loopStart n last).MemoryCanonical := by
  refine canonical_ite ?_ h
  split <;> exact h

/-! ### The forms of the S-slot and B-slot operations -/

theorem op2_canonical {s : State} (d a b : Opnd) (f : Word → Word → Word) (h : s.MemoryCanonical) : AnswersCanonical (op2 d a b f s) :=
  gated_canonical h (State.put_canonical _ _ (State.take_canonical b (State.take_canonical a h)))

theorem op1_canonical {s : State} (d a : Opnd) (f : Word → Word) (h : s.MemoryCanonical) : AnswersCanonical (op1 d a f s) :=
  gated_canonical h (State.put_canonical _ _ (State.take_canonical a h))

theorem op0_canonical {s : State} (d : Opnd) (w : Word) (h : s.MemoryCanonical) : AnswersCanonical (op0 d w s) :=
  gated_canonical h (State.put_canonical d w h)

theorem opMod_canonical {s : State} (d : Opnd) (srcs : List Opnd) (f : Word → List Word → Word) (h : s.MemoryCanonical) :
    AnswersCanonical (opMod d srcs f s) := by
  have t := State.take_canonical d h
  refine gated_canonical h ?_
  cases srcs with
  | nil => exact State.put_canonical _ _ t
  | cons a r => exact State.put_canonical _ _ (State.take_canonical a t)

theorem rangeOp_canonical {s : State} (a b : Opnd) {f : State → Nat → Nat → State}
    (hf : ∀ {t : State} (x y : Nat), t.MemoryCanonical → (f t x y).MemoryCanonical) (h : s.MemoryCanonical) : AnswersCanonical (rangeOp a b f s) :=
  gated_canonical h (hf _ _ (State.take_canonical b (State.take_canonical a h)))

theorem branchIf_canonical {s : State} (want : Bool) (off : BitVec 22) (h : s.MemoryCanonical) : AnswersCanonical (branchIf want off s) :=
  gated_canonical h (canonical_ite h (State.fallThrough_canonical h))

/-! ### S-slot and B-slot operations of a form of their own -/

theorem execTktest_canonical {s : State} (k : BitVec 6) (h : s.MemoryCanonical) : AnswersCanonical (execTktest k s) := by
  refine gated_canonical h ?_
  dsimp only
  split <;> exact h

theorem execLd_canonical {s : State} (d a : Opnd) (off : BitVec 10) (lat : BitVec 4) (h : s.MemoryCanonical) :
    AnswersCanonical (execLd d a off lat s) := by
  have t := fun va n => State.loadNum_canonical (s.take a).2.src va n (State.take_canonical a h)
  exact gated_canonical h (canonical_ite (State.oweLoad_canonical _ _ _ _ _ (t _ _))
    (State.setCtx_canonical _ (State.oweLoad_canonical _ _ _ _ _ (t _ _))))

theorem execAmo_canonical {s : State} (d a b : Opnd) (opc : BitVec 3) (sz : Bool) (lat : BitVec 4) (h : s.MemoryCanonical) :
    AnswersCanonical (execAmo d a b opc sz lat s) := by
  have hb := State.take_canonical b (State.take_canonical a h)
  refine gated_canonical h ?_
  dsimp only
  generalize s.take a = p at hb ⊢
  obtain ⟨x, u⟩ := p
  generalize u.take b = q at hb ⊢
  exact State.oweLoad_canonical _ _ _ _ _ (State.atomic_canonical _ _ _ _ hb)

theorem execCas_canonical {s : State} (d a b : Opnd) (sz : Bool) (lat : BitVec 4) (h : s.MemoryCanonical) :
    AnswersCanonical (execCas d a b sz lat s) := by
  have hb := State.take_canonical b (State.take_canonical a (State.take_canonical d h))
  refine gated_canonical h ?_
  dsimp only
  generalize s.take d = o at hb ⊢
  obtain ⟨e, u⟩ := o
  generalize u.take a = p at hb ⊢
  obtain ⟨x, v⟩ := p
  generalize v.take b = q at hb ⊢
  exact State.oweLoad_canonical _ _ _ _ _ (State.atomic_canonical _ _ _ _ hb)

theorem execAmof_canonical {s : State} (d a b : Opnd) (lat : BitVec 4) (h : s.MemoryCanonical) : AnswersCanonical (execAmof d a b lat s) := by
  have hb := State.take_canonical b (State.take_canonical a h)
  refine gated_canonical h ?_
  dsimp only
  generalize s.take a = p at hb ⊢
  obtain ⟨x, u⟩ := p
  generalize u.take b = q at hb ⊢
  exact State.oweLoad_canonical _ _ _ _ _ (State.atomic_canonical _ _ _ _ hb)

theorem execFence_canonical {s : State} (scope : BitVec 2) (h : s.MemoryCanonical) : AnswersCanonical (execFence scope s) :=
  gated_canonical h (canonical_ite h (canonical_ite (State.mergeWhere_canonical _ h) (State.mergeWhere_canonical _ h)))

theorem execLeave_canonical {s : State} (h : s.MemoryCanonical) : AnswersCanonical (execLeave s) := by
  refine gated_canonical h ?_
  dsimp only
  split
  · exact h
  · split <;> exact h

theorem execYield_canonical {s : State} (h : s.MemoryCanonical) : AnswersCanonical (execYield s) := by
  unfold execYield
  split <;> exact .next h

theorem execBara_canonical {s : State} (slot : BitVec 3) (h : s.MemoryCanonical) : AnswersCanonical (execBara slot s) := by
  refine gated_canonical h ?_
  dsimp only
  split <;> exact h


/-! ### Records and handles -/

theorem State.readRecord_canonical {s : State} (atIssue : Bool) (die : Nat) (w : Who) (va : Nat) (h : s.MemoryCanonical) :
    (s.readRecord atIssue die w va).2.MemoryCanonical := by
  have t := State.engineTouch_canonical w va 128 h
  unfold State.readRecord
  dsimp only
  split
  · split
    · exact h
    · exact t
  · split <;> exact h
  · exact t
  · exact h

theorem canonical_of_readRecord {s t : State} {atIssue : Bool} {die va : Nat} {w : Who} {r : Except Failure (BitVec 1024)} (h : s.MemoryCanonical)
    (e : s.readRecord atIssue die w va = (r, t)) : t.MemoryCanonical := by
  have u := State.readRecord_canonical atIssue die w va h
  rwa [e] at u

theorem State.checkHandle_canonical {s : State} (die : Nat) (w : Who) (ttbase pos handle : Nat) (h : s.MemoryCanonical) :
    (s.checkHandle die w ttbase pos handle).2.MemoryCanonical := by
  unfold State.checkHandle
  split
  · exact canonical_of_readRecord h ‹_›
  · have t := canonical_of_readRecord h ‹_›
    dsimp only
    split
    · exact t
    · split
      · split
        · exact canonical_of_readRecord t ‹_›
        · split <;> exact canonical_of_readRecord t ‹_›
      · exact t

theorem State.takeHandles_canonical : ∀ (l : List (Nat × Nat)) {s : State} (k : EngCmd), s.MemoryCanonical → (s.takeHandles k l).2.MemoryCanonical
  | [], _, _, h => h
  | (pos, handle) :: r, s, k, h => by
    have t := State.checkHandle_canonical s.ctx.die { s.ctx.who s.variant with asid := k.asid, level := k.level } k.ttbase pos handle h
    unfold State.takeHandles
    dsimp only
    split
    · rename_i e
      simpa [e] using t
    · rename_i e
      exact State.takeHandles_canonical r _ (by simpa [e] using t)

/-! ### A command issues -/

theorem State.beforeCmd_canonical {s : State} (h : s.MemoryCanonical) : s.beforeCmd.MemoryCanonical :=
  State.mergeWhere_canonical _ (State.settleHalf_canonical h)

theorem State.launchCmd_canonical {s : State} (k : EngCmd) (h : s.MemoryCanonical) : (s.launchCmd k).MemoryCanonical := h

/-- A judgement of a command's values at issue that keeps memory canonical. -/
def JudgeCanonical (judge : State → EngCmd → EngCmd × State) : Prop :=
  ∀ (s : State) (k : EngCmd), s.MemoryCanonical → (judge s k).2.MemoryCanonical

theorem judgeNone_canonical : JudgeCanonical judgeNone := fun _ _ h => h

theorem judgeBy_canonical (f : EngCmd → Except Failure Unit) : JudgeCanonical (judgeBy f) := fun _ _ h => h

theorem judgeHandles_canonical (f : State → EngCmd → Except Failure Unit) (hs : EngCmd → List (Nat × Nat)) (g : EngCmd → Except Failure Unit) :
    JudgeCanonical (judgeHandles f hs g) := by
  intro s k h
  have t := State.takeHandles_canonical (hs k) k h
  unfold judgeHandles
  split
  · exact h
  · dsimp only
    split <;> exact t

theorem judgeUnit_canonical (f : EngCmd → Except Failure Unit) : JudgeCanonical (judgeUnit f) := by
  intro s k h
  unfold judgeUnit
  split <;> exact h

theorem judgeCollective_canonical (f : EngCmd → Except Failure Unit) : JudgeCanonical (judgeCollective f) := by
  intro s k h
  unfold judgeCollective
  split
  · exact h
  · split <;> exact h

theorem issueCmd_canonical {s : State} (i : Instr) (e : Cmd) (srcs : List Opnd) {judge : State → EngCmd → EngCmd × State}
    (hj : JudgeCanonical judge) (h : s.MemoryCanonical) : AnswersCanonical (issueCmd i e srcs judge s) :=
  gated_canonical h (State.launchCmd_canonical _ (hj _ _ (State.takeAll_canonical srcs (State.beforeCmd_canonical h))))

theorem issueIndexed_canonical {s : State} (i : Instr) (e : Cmd) (h : s.MemoryCanonical) : AnswersCanonical (issueIndexed i e s) := by
  have ha := State.takeAll_canonical [e.p0, e.p1, e.p2] (State.beforeCmd_canonical h)
  refine gated_canonical h ?_
  dsimp only
  generalize s.beforeCmd.takeAll [e.p0, e.p1, e.p2] = p at ha ⊢
  obtain ⟨ws, u⟩ := p
  have hn := State.takeN_canonical e.p3 (indexCount (ws.getD 2 0)) ha
  generalize u.takeN e.p3 (indexCount (ws.getD 2 0)) = q at hn ⊢
  exact State.launchCmd_canonical _ (judgeHandles_canonical _ _ _ _ _ hn)

theorem issuePriv_canonical {s : State} (i : Instr) (e : Cmd) (srcs : List Opnd) (h : s.MemoryCanonical) : AnswersCanonical (issuePriv i e srcs s) :=
  gated_canonical h (State.launchCmd_canonical _ (State.takeAll_canonical srcs (State.beforeCmd_canonical h)))

theorem execEnq_canonical {s : State} (e : Cmd) (h : s.MemoryCanonical) : AnswersCanonical (execEnq e s) :=
  gated_canonical h (State.setCtx_canonical _ (State.takeAll_canonical _ (State.settleHalf_canonical h)))

/-! ### Streams -/

theorem State.setStream_canonical {s : State} (n : Fin 16) (q : Stream) (h : s.MemoryCanonical) : (s.setStream n q).MemoryCanonical := h

theorem State.streamFetch_canonical {s : State} (n : Fin 16) (h : s.MemoryCanonical) : (s.streamFetch n).MemoryCanonical :=
  canonical_ite h (State.setStream_canonical _ _ (State.engineTouch_canonical _ _ _ h))

theorem State.streamStore_canonical {s : State} (n : Fin 16) (h : s.MemoryCanonical) : (s.streamStore n).MemoryCanonical := by
  refine canonical_ite h ?_
  split
  · split
    · exact h
    · split
      · exact h
      · exact State.setStream_canonical _ _ (State.engineWrite_canonical _ _ _ h ‹_›)
  all_goals exact h

theorem State.storeAhead_canonical (n : Fin 16) : ∀ (k : Nat) {s : State}, s.MemoryCanonical → (s.storeAhead n k).MemoryCanonical
  | 0, _, h => h
  | k + 1, _, h => State.storeAhead_canonical n k (State.streamStore_canonical n h)

theorem State.unbind_canonical {s : State} (n : Fin 16) (h : s.MemoryCanonical) : (s.unbind n).MemoryCanonical :=
  State.setStream_canonical _ _ (State.storeAhead_canonical n _ h)

theorem execSbind_canonical {s : State} (e : Cmd) (h : s.MemoryCanonical) : AnswersCanonical (execSbind e s) := by
  have t := State.take_canonical e.p0 (State.beforeCmd_canonical h)
  exact gated_canonical h (canonical_ite t (canonical_ite (State.launchCmd_canonical _ (State.unbind_canonical _ t))
    (State.launchCmd_canonical _ (State.setStream_canonical _ _ (State.unbind_canonical _ t)))))

theorem execSfree_canonical {s : State} (e : Cmd) (h : s.MemoryCanonical) : AnswersCanonical (execSfree e s) := by
  have t := State.beforeCmd_canonical h
  exact gated_canonical h (canonical_ite t (State.launchCmd_canonical _ (State.unbind_canonical _ t)))

/-! ### A command reads bytes and elements -/

theorem Job.readByte_canonical {j : Job} {va : Nat} {x : EByte × Job} (h : j.s.MemoryCanonical) (e : j.readByte va = .ok x) :
    x.2.s.MemoryCanonical := by
  unfold Job.readByte at e
  split at e
  · cases e
  · cases e
    exact h
  · cases e
    exact State.synchronise_canonical _ (State.fillPages_canonical _ _ _ (State.engineReady_canonical _ _ h))

theorem Job.readRun_canonical : ∀ (n : Nat) {j : Job} {va : Nat} {x : List EByte × Job}, j.s.MemoryCanonical → j.readRun va n = .ok x →
    x.2.s.MemoryCanonical
  | 0, _, _, _, h, e => by
    cases e
    exact h
  | n + 1, j, va, x, h, e => by
    unfold Job.readRun at e
    split at e
    · cases e
    · split at e
      · cases e
      · cases e
        have t := Job.readRun_canonical n (Job.readByte_canonical h ‹_›) ‹_›
        exact t

theorem Job.readBytes_canonical {j : Job} {va n : Nat} {x : List EByte × Job} (h : j.s.MemoryCanonical) (e : j.readBytes va n = .ok x) :
    x.2.s.MemoryCanonical := by
  unfold Job.readBytes at e
  split at e
  · exact Job.readRun_canonical n h e
  · cases e

theorem Job.readAt_canonical {j : Job} {va sh w : Nat} {x : Elem × Job} (h : j.s.MemoryCanonical) (e : j.readAt va sh w = .ok x) :
    x.2.s.MemoryCanonical := by
  unfold Job.readAt at e
  split at e
  · cases e
  · cases e
    exact Job.readBytes_canonical h ‹_›

theorem Job.metaFault_canonical {j : Job} (va : Nat) (bs : List EByte) (h : j.s.MemoryCanonical) : (j.metaFault va bs).s.MemoryCanonical := by
  unfold Job.metaFault
  split <;> exact h

theorem Job.expand_canonical {va w : Nat} {flag : Bool} : ∀ (l : List Bool) {j : Job} {k : Nat} {x : List Elem × Job}, j.s.MemoryCanonical →
    j.expand va w k flag l = .ok x → x.2.s.MemoryCanonical
  | [], _, _, _, h, e => by
    cases e
    exact h
  | false :: r, j, k, x, h, e => by
    unfold Job.expand at e
    split at e
    · cases e
    · cases e
      have t := Job.expand_canonical r h ‹_›
      exact t
  | true :: r, j, k, x, h, e => by
    unfold Job.expand at e
    split at e
    · cases e
    · split at e
      · cases e
      · cases e
        have t := Job.expand_canonical r (Job.readAt_canonical h ‹_›) ‹_›
        exact t

theorem Job.readTile3_canonical {j : Job} {g : Shape} {n : Nat} {x : List Elem × Job} (h : j.s.MemoryCanonical) (e : j.readTile3 g n = .ok x) :
    x.2.s.MemoryCanonical := by
  unfold Job.readTile3 at e
  dsimp only at e
  split at e
  · cases e
  · have t := Job.readBytes_canonical h ‹_›
    split at e
    · cases e
      exact t
    · split at e
      · cases e
        exact Job.metaFault_canonical _ _ t
      · exact Job.expand_canonical _ t e

theorem Job.readIndex_canonical {j : Job} {g : Shape} {n q : Nat} {x : List EByte × Job} (h : j.s.MemoryCanonical) (e : j.readIndex g n q = .ok x) :
    x.2.s.MemoryCanonical := Job.readBytes_canonical h e

theorem Job.readSlot_canonical {j : Job} {g : Shape} {n k : Nat} {x : Elem × Job} (h : j.s.MemoryCanonical) (e : j.readSlot g n k = .ok x) :
    x.2.s.MemoryCanonical := Job.readAt_canonical h e

theorem Job.readElem2_canonical {j : Job} {g : Shape} {n p : Nat} {x : Elem × Job} (h : j.s.MemoryCanonical) (e : j.readElem2 g n p = .ok x) :
    x.2.s.MemoryCanonical := by
  unfold Job.readElem2 at e
  dsimp only at e
  split at e
  · cases e
  · have t := Job.readIndex_canonical h ‹_›
    split at e
    · cases e
      exact t
    · split at e
      · cases e
        exact Job.metaFault_canonical _ _ t
      · split at e
        · cases e
          exact t
        · exact Job.readSlot_canonical t e

theorem Job.readList2_canonical {g : Shape} {n : Nat} : ∀ (l : List Nat) {j : Job} {x : List Elem × Job}, j.s.MemoryCanonical →
    j.readList2 g n l = .ok x → x.2.s.MemoryCanonical
  | [], _, _, h, e => by
    cases e
    exact h
  | p :: r, j, x, h, e => by
    unfold Job.readList2 at e
    split at e
    · cases e
    · split at e
      · cases e
      · cases e
        have t := Job.readList2_canonical r (Job.readElem2_canonical h ‹_›) ‹_›
        exact t

theorem Job.readTile_canonical {j : Job} {g : Shape} {n : Nat} {x : List Elem × Job} (h : j.s.MemoryCanonical) (e : j.readTile g n = .ok x) :
    x.2.s.MemoryCanonical := by
  unfold Job.readTile at e
  split at e
  · exact Job.readTile3_canonical h e
  · exact Job.readList2_canonical _ h e

theorem Job.readElems_canonical {g : Shape} : ∀ (l : List Coord) {j : Job} {ts : Tiles} {x : List Elem × Job}, j.s.MemoryCanonical →
    j.readElems g ts l = .ok x → x.2.s.MemoryCanonical
  | [], _, _, _, h, e => by
    cases e
    exact h
  | c :: r, j, ts, x, h, e => by
    have one : ∀ {y : Elem × Job}, (if g.layout = 2 then j.readElem2 g (g.tileNo c) (g.tilePos c)
        else j.readAt (g.bitAddr c).1 (g.bitAddr c).2 g.width) = .ok y → y.2.s.MemoryCanonical := by
      intro y he
      split at he
      · exact Job.readElem2_canonical h he
      · exact Job.readAt_canonical h he
    have skip : ∀ {ts : Tiles} {y : List Elem × Job}, j.readElems g ts r = .ok y → y.2.s.MemoryCanonical := Job.readElems_canonical r h
    unfold Job.readElems at e
    split at e
    · split at e
      · cases e
      · cases e
        have t := skip ‹_›
        exact t
    · split at e
      · split at e
        · split at e
          · cases e
          · cases e
            have t := skip ‹_›
            exact t
        · split at e
          · cases e
          · split at e
            · cases e
            · cases e
              have t := Job.readElems_canonical r (Job.readTile3_canonical h ‹_›) ‹_›
              exact t
      · split at e
        · cases e
        · split at e
          · cases e
          · cases e
            have t := Job.readElems_canonical r (one ‹_›) ‹_›
            exact t

/-! ### A command writes bytes and elements -/

theorem Job.emit_canonical {j : Job} (l : Loc) (b : Byte) (poi : Bool) (h : j.s.MemoryCanonical) : (j.emit l b poi).s.MemoryCanonical := by
  unfold Job.emit
  split
  · exact h
  · exact State.enginePut_canonical _ _ _ _ h

theorem Job.writeByte_canonical {j k : Job} {va : Nat} {b : Byte} {poi : Bool} (h : j.s.MemoryCanonical) (e : j.writeByte va b poi = .ok k) :
    k.s.MemoryCanonical := by
  unfold Job.writeByte at e
  split at e
  · cases e
  · cases e
    exact h
  · cases e
    exact Job.emit_canonical _ _ _ (State.fillPages_canonical _ _ _ h)

theorem Job.writeRun_canonical : ∀ (l : List (Byte × Bool)) {j k : Job} {va : Nat}, j.s.MemoryCanonical → j.writeRun va l = .ok k →
    k.s.MemoryCanonical
  | [], _, _, _, h, e => by
    cases e
    exact h
  | (b, p) :: r, j, k, va, h, e => by
    unfold Job.writeRun at e
    split at e
    · cases e
    · exact Job.writeRun_canonical r (Job.writeByte_canonical h ‹_›) e

theorem Job.writeBytes_canonical {j k : Job} {va : Nat} {l : List (Byte × Bool)} (h : j.s.MemoryCanonical) (e : j.writeBytes va l = .ok k) :
    k.s.MemoryCanonical := by
  unfold Job.writeBytes at e
  split at e
  · exact Job.writeRun_canonical l h e
  · cases e

theorem Job.storePath_canonical {j : Job} (h : j.s.MemoryCanonical) : j.storePath.s.MemoryCanonical := by
  unfold Job.storePath
  split
  · exact h
  · refine List.foldlRecOn (motive := fun j : Job => j.s.MemoryCanonical) _ _ h (fun j hj t _ => ?_)
    split
    · split
      · exact hj
      · exact canonical_ite (State.setFlag_canonical _ hj) (State.gatherTile_canonical _ hj)
    · exact hj

theorem Job.flushOut_canonical {j : Job} (h : j.s.MemoryCanonical) : j.flushOut.s.MemoryCanonical :=
  Job.storePath_canonical (List.foldlRecOn (motive := fun j : Job => j.s.MemoryCanonical) _ _ h (fun _ hj _ _ => Job.emit_canonical _ _ _ hj))

theorem Job.writeAt_canonical {j k : Job} {va sh w : Nat} {x : Elem} (h : j.s.MemoryCanonical) (e : j.writeAt va sh w x = .ok k) :
    k.s.MemoryCanonical := by
  unfold Job.writeAt at e
  split at e
  · exact Job.writeBytes_canonical h e
  · split at e
    · cases e
    · cases e
      exact h
    · exact Job.writeByte_canonical h e

theorem Job.writeTile3_canonical {j k : Job} {g : Shape} {n : Nat} {l : List Elem} (h : j.s.MemoryCanonical) (e : j.writeTile3 g n l = .ok k) :
    k.s.MemoryCanonical := by
  unfold Job.writeTile3 at e
  split at e
  · cases e
  · exact Job.writeBytes_canonical (Job.writeBytes_canonical h ‹_›) e

theorem Job.writeTile2_canonical {j k : Job} {g : Shape} {n : Nat} {l : List Elem} (h : j.s.MemoryCanonical) (e : j.writeTile2 g n l = .ok k) :
    k.s.MemoryCanonical := by
  unfold Job.writeTile2 at e
  dsimp only at e
  split at e
  · cases e
  · exact Job.writeBytes_canonical (Job.writeBytes_canonical h ‹_›) e

theorem Job.writeElems_canonical {g : Shape} : ∀ (l : List (Coord × Elem)) {j k : Job}, j.s.MemoryCanonical → j.writeElems g l = .ok k →
    k.s.MemoryCanonical
  | [], _, _, h, e => by
    cases e
    exact h
  | (c, x) :: r, j, k, h, e => by
    unfold Job.writeElems at e
    split at e
    · exact Job.writeElems_canonical r h e
    · split at e
      · cases e
      · exact Job.writeElems_canonical r (Job.writeAt_canonical h ‹_›) e

theorem Job.writePacked_canonical {j k : Job} {g : Shape} {n : Nat} {l : List (Coord × Elem)} (h : j.s.MemoryCanonical)
    (e : j.writePacked g n l = .ok k) : k.s.MemoryCanonical := by
  unfold Job.writePacked at e
  dsimp only at e
  split at e
  · cases e
  · rename_i es i ho
    have t : i.s.MemoryCanonical := by
      split at ho
      · cases ho
        exact h
      · exact Job.readTile_canonical h ho
    split at e
    · exact Job.writeTile3_canonical t e
    · exact Job.writeTile2_canonical t e

theorem Job.writeAny_canonical {j k : Job} {g : Shape} {l : List (Coord × Elem)} (h : j.s.MemoryCanonical) (e : j.writeAny g l = .ok k) :
    k.s.MemoryCanonical := by
  unfold Job.writeAny at e
  split at e
  · exact Job.writeElems_canonical l h e
  · refine List.foldlRecOn (motive := fun r : Except Nat Job => ∀ k, r = .ok k → k.s.MemoryCanonical) _ _ ?_ (fun r hr n _ k ek => ?_) k e
    · rintro _ ⟨⟩
      exact h
    · split at ek
      · cases ek
      · exact Job.writePacked_canonical (hr _ rfl) ek

theorem Job.settle_canonical {j : Job} {r : Except Failure Job} (h : j.s.MemoryCanonical) (hr : ∀ k, r = .ok k → k.s.MemoryCanonical) :
    (j.settle r).s.MemoryCanonical := by
  unfold Job.settle
  split
  · exact Job.storePath_canonical (hr _ rfl)
  · exact h

theorem eq_ok_of_liftVa {α : Type} {r : Except Nat α} {x : α} (e : liftVa r = .ok x) : r = .ok x := by
  cases r with
  | ok y => exact congrArg Except.ok (Except.ok.inj e)
  | error a => cases e

/-- Bytes that a command writes, whatever becomes of it. -/
theorem Job.settle_writeBytes_canonical {j : Job} (va : Nat) (l : List (Byte × Bool)) (h : j.s.MemoryCanonical) :
    (j.settle (liftVa (j.writeBytes va l))).s.MemoryCanonical :=
  Job.settle_canonical h (fun _ e => Job.writeBytes_canonical h (eq_ok_of_liftVa e))

/-! ### Transfer commands -/

theorem Job.commit_canonical {j : Job} (h : j.s.MemoryCanonical) : j.commit.MemoryCanonical := h

theorem Job.ite_canonical {p : Prop} [Decidable p] {i j : Job} (hi : i.s.MemoryCanonical) (hj : j.s.MemoryCanonical) :
    (if p then i else j).s.MemoryCanonical := by
  split
  · exact hi
  · exact hj

theorem Job.blockRead_canonical {j : Job} (pos : Nat) (h : j.s.MemoryCanonical) : (j.blockRead pos).s.MemoryCanonical :=
  State.engineTouch_canonical _ _ _ h

theorem Job.unlessFault_canonical {j : Job} (f : Option Nat) (h : j.s.MemoryCanonical) : (j.unlessFault f).s.MemoryCanonical := by
  cases f <;> exact h

theorem Job.checkGen_canonical {j k : Job} {t handle n : Nat} (h : j.s.MemoryCanonical) (e : j.checkGen t handle n = .ok k) :
    k.s.MemoryCanonical := by
  unfold Job.checkGen at e
  split at e
  · cases e
    exact h
  · dsimp only at e
    split at e
    · cases e
    · rename_i s hs
      have hs : s.MemoryCanonical := by
        split at hs
        · cases hs
        · split at hs
          · cases hs
            exact canonical_of_readRecord h ‹_›
          · cases hs
      split at e
      · cases e
      · rename_i u hu
        cases e
        split at hu
        · split at hu
          · cases hu
          · split at hu
            · cases hu
              exact canonical_of_readRecord hs ‹_›
            · cases hu
        · cases hu
          exact hs

theorem Job.checkGens_canonical {t handle : Nat} : ∀ (l : List Nat) {j k : Job}, j.s.MemoryCanonical → j.checkGens t handle l = .ok k →
    k.s.MemoryCanonical
  | [], _, _, h, e => by
    cases e
    exact h
  | n :: r, j, k, h, e => by
    unfold Job.checkGens at e
    split at e
    · cases e
    · exact Job.checkGens_canonical r (Job.checkGen_canonical h ‹_›) e

theorem Job.scales_canonical {j : Job} {g : Shape} {lane : Nat → Coord} {x : Nat × Nat × Job} (h : j.s.MemoryCanonical)
    (e : j.scales g lane = .ok x) : x.2.2.s.MemoryCanonical := by
  unfold Job.scales at e
  split at e
  · cases e
    exact h
  · split at e
    · cases e
      exact h
    · dsimp only at e
      split at e
      · cases e
      · cases e
        exact Job.readElems_canonical _ h ‹_›

theorem Job.groupWindow_canonical {j : Job} {g : Shape} {c : Coord} {k0 kw : Nat} {x : LaneSlots × Job} (h : j.s.MemoryCanonical)
    (e : j.groupWindow g c k0 kw = .ok x) : x.2.s.MemoryCanonical := by
  unfold Job.groupWindow at e
  dsimp only at e
  split at e
  · cases e
  · have t := Job.readIndex_canonical h ‹_›
    split at e
    · cases e
      exact t
    · split at e
      · cases e
        exact Job.metaFault_canonical _ _ t
      · refine List.foldlRecOn (motive := fun r : Except Nat (LaneSlots × Job) => ∀ x, r = .ok x → x.2.s.MemoryCanonical) _ _ ?_
          (fun r hr y _ x ex => ?_) x e
        · rintro _ ⟨⟩
          exact t
        · split at ex
          · cases ex
          · split at ex
            · cases ex
            · cases ex
              exact Job.readSlot_canonical (hr _ rfl) ‹_›
          all_goals
            cases ex
            exact hr _ rfl

theorem Job.laneWindow_canonical {g : Shape} {k0 kw : Nat} : ∀ (l : List Coord) {j : Job} {x : LaneSlots × Job}, j.s.MemoryCanonical →
    j.laneWindow g k0 kw l = .ok x → x.2.s.MemoryCanonical
  | [], _, _, h, e => by
    cases e
    exact h
  | c :: r, j, x, h, e => by
    have one : ∀ {y : LaneSlots × Job}, j.groupWindow g c k0 kw = .ok y → y.2.s.MemoryCanonical := Job.groupWindow_canonical h
    unfold Job.laneWindow at e
    split at e
    · cases e
    · cases e
      have t := one ‹_›
      exact t
    · cases e
      have t := one ‹_›
      exact t
    · have t := one ‹_›
      split at e
      · cases e
      all_goals
        cases e
        have u := Job.laneWindow_canonical r t ‹_›
        exact u

theorem Job.slotLanes_canonical {g : Shape} {k0 kw n : Nat} : ∀ (l : List Coord) {j : Job} {x : List Elem × List Nat × Job}, j.s.MemoryCanonical →
    j.slotLanes g k0 kw n l = .ok x → x.2.2.s.MemoryCanonical
  | [], _, _, h, e => by
    cases e
    exact h
  | c :: r, j, x, h, e => by
    unfold Job.slotLanes at e
    split at e
    · cases e
    · split at e
      · cases e
      · cases e
        have t := Job.slotLanes_canonical r (Job.laneWindow_canonical _ h ‹_›) ‹_›
        exact t

theorem Job.slotChunk_canonical {j : Job} {g : Shape} {l n : Nat} {x : Chunk × Job} (h : j.s.MemoryCanonical) (e : j.slotChunk g l n = .ok x) :
    x.2.s.MemoryCanonical := by
  unfold Job.slotChunk at e
  dsimp only at e
  split at e
  · cases e
  · split at e
    · cases e
    · cases e
      exact Job.scales_canonical (Job.slotLanes_canonical _ h ‹_›) ‹_›

theorem Job.loadChunk_canonical {j : Job} {l n : Nat} {x : Chunk × Job} (h : j.s.MemoryCanonical) (e : j.loadChunk l n = .ok x) :
    x.2.s.MemoryCanonical := by
  unfold Job.loadChunk at e
  dsimp only at e
  split at e
  · cases e
  · have t := Job.checkGens_canonical _ h ‹_›
    split at e
    · exact Job.slotChunk_canonical t (eq_ok_of_liftVa e)
    · split at e
      · cases e
      · split at e
        · cases e
        · cases e
          exact Job.scales_canonical (Job.readElems_canonical _ t ‹_›) ‹_›

theorem Job.recordChunk_canonical {j : Job} {l n : Nat} {x : Chunk × Job} (h : j.s.MemoryCanonical) (e : j.recordChunk l n = .ok x) :
    x.2.s.MemoryCanonical := by
  unfold Job.recordChunk at e
  dsimp only at e
  split at e
  · cases e
    exact h
  · split at e
    · cases e
    · cases e
      exact Job.expand_canonical _ h ‹_›

theorem Job.fillChunk_canonical {j : Job} (l : Nat) (h : j.s.MemoryCanonical) : (j.fillChunk l).2.s.MemoryCanonical := by
  unfold Job.fillChunk
  split
  · exact h
  · split
    · exact h
    · rename_i e
      split at e
      · have t := Job.recordChunk_canonical h e
        exact t
      · have t := Job.loadChunk_canonical h e
        exact t

theorem State.returnCmd_canonical {s : State} (n : Nat) (k : EngCmd) (h : s.MemoryCanonical) : (s.returnCmd n k).MemoryCanonical :=
  canonical_ite h h

theorem State.hatchFill_canonical {s : State} (n l : Nat) (h : s.MemoryCanonical) : (s.hatchFill n l).MemoryCanonical := by
  unfold State.hatchFill
  split
  · exact h
  · rename_i k _
    have t := Job.fillChunk_canonical (j := { s := s, c := k }) l h
    exact canonical_ite h (State.returnCmd_canonical _ _ (State.setCtx_canonical _ t))

theorem State.hatchDrainTake_canonical {s : State} (n l : Nat) (h : s.MemoryCanonical) : (s.hatchDrainTake n l).MemoryCanonical := by
  unfold State.hatchDrainTake
  split
  · exact h
  · refine canonical_ite h ?_
    split
    · exact h
    · exact State.returnCmd_canonical _ _ (State.setCtx_canonical _ h)

theorem Job.storeRun_canonical {j k : Job} {d handle : Nat} {cs : List (Nat × Chunk)} (h : j.s.MemoryCanonical)
    (e : j.storeRun d handle cs = .ok k) : k.s.MemoryCanonical := by
  unfold Job.storeRun at e
  dsimp only at e
  split at e
  · cases e
  · split at e
    · cases e
    · cases e
      exact Job.writeAny_canonical (Job.checkGens_canonical _ h ‹_›) ‹_›

theorem Job.storeRuns_canonical {cs : List (Nat × Chunk)} : ∀ (l : List Nat) {j k : Job}, j.s.MemoryCanonical → j.storeRuns cs l = .ok k →
    k.s.MemoryCanonical
  | [], _, _, h, e => by
    cases e
    exact h
  | d :: r, j, k, h, e => by
    unfold Job.storeRuns at e
    split at e
    · cases e
    · exact Job.storeRuns_canonical r (Job.storeRun_canonical h ‹_›) e

theorem Job.drainTile_canonical {j : Job} (h : j.s.MemoryCanonical) : j.drainTile.s.MemoryCanonical := by
  unfold Job.drainTile
  split
  · exact h
  · split
    · exact h
    · have t : ∀ cs l, (j.settle (j.storeRuns cs l)).s.MemoryCanonical := fun _ _ => Job.settle_canonical h (fun _ e => Job.storeRuns_canonical _ h e)
      dsimp only
      split <;> exact t _ _

theorem Job.recordTile_canonical {j : Job} (h : j.s.MemoryCanonical) : j.recordTile.s.MemoryCanonical := by
  unfold Job.recordTile
  dsimp only
  split
  · exact h
  · split
    · exact h
    · exact Job.settle_writeBytes_canonical _ _ h

theorem Job.startHldz_canonical {j : Job} (h : j.s.MemoryCanonical) : j.startHldz.s.MemoryCanonical := by
  unfold Job.startHldz
  dsimp only
  split
  · exact h
  · have t := Job.readBytes_canonical h ‹_›
    split
    · exact t
    · split
      · exact Job.metaFault_canonical _ _ t
      · exact t

theorem Job.startStore_canonical {j : Job} (h : j.s.MemoryCanonical) : j.startStore.s.MemoryCanonical := Job.unlessFault_canonical _ h

theorem Job.startHmcast_canonical {j : Job} (h : j.s.MemoryCanonical) : j.startHmcast.s.MemoryCanonical := by
  unfold Job.startHmcast
  split
  · exact h
  · have t := Job.blockRead_canonical 0 h
    refine Job.ite_canonical t ?_
    dsimp only
    generalize hf : List.foldl _ _ _ = x
    have hx : x.2.MemoryCanonical := by
      rw [← hf]
      refine List.foldlRecOn (motive := fun x : EngCmd × State => x.2.MemoryCanonical) _ _ t (fun x hx d _ => ?_)
      have u := State.takeHandles_canonical [(d.2, d.1)] x.1 hx
      split
      · exact hx
      · split <;> exact u
    split
    · exact hx
    · split <;> exact hx

theorem Job.startCopy_canonical {j : Job} (h : j.s.MemoryCanonical) : j.startCopy.s.MemoryCanonical := by
  unfold Job.startCopy
  split
  · exact h
  · have t := Job.blockRead_canonical 2 h
    dsimp only
    split
    · exact t
    · split
      · exact t
      · exact Job.unlessFault_canonical _ t

theorem Job.copyRun_canonical {j k : Job} (h : j.s.MemoryCanonical) (e : j.copyRun = .ok k) : k.s.MemoryCanonical := by
  unfold Job.copyRun at e
  dsimp only at e
  split at e
  · split at e
    · cases e
    · exact Job.writeAny_canonical (Job.checkGen_canonical h ‹_›) (eq_ok_of_liftVa e)
  · split at e
    · cases e
    · have t := Job.checkGen_canonical h ‹_›
      split at e
      · cases e
      · split at e
        · cases e
        · exact Job.writeAny_canonical (Job.readElems_canonical _ (Job.checkGen_canonical t ‹_›) ‹_›) (eq_ok_of_liftVa e)

theorem Job.copyTile_canonical {j : Job} (h : j.s.MemoryCanonical) : j.copyTile.s.MemoryCanonical := by
  have t : ∀ i : Job, i.s.MemoryCanonical → (i.settle i.copyRun).s.MemoryCanonical := fun i hi =>
    Job.settle_canonical hi (fun _ e => Job.copyRun_canonical hi e)
  unfold Job.copyTile
  split
  · exact h
  · dsimp only
    split <;> exact t _ h

theorem Job.startZmap_canonical {j : Job} (h : j.s.MemoryCanonical) : j.startZmap.s.MemoryCanonical := Job.unlessFault_canonical _ h

theorem Job.zmapTile_canonical {j : Job} (h : j.s.MemoryCanonical) : j.zmapTile.s.MemoryCanonical := by
  have w := fun va l => Job.settle_writeBytes_canonical (j := j) va l h
  have mark := fun p => State.setFlag_canonical (s := j.s) p h
  unfold Job.zmapTile
  refine Job.ite_canonical h (Job.ite_canonical ?_ ?_)
  all_goals
    split
    · exact Job.ite_canonical (mark _) (w _ _)
    · exact Job.ite_canonical (mark _) (w _ _)
    all_goals exact w _ _

/-! ### The compressor -/

theorem Job.csqz_canonical {j : Job} (h : j.s.MemoryCanonical) : j.csqz.s.MemoryCanonical := by
  unfold Job.csqz
  dsimp only
  split
  · exact h
  · split
    · exact h
    · have t := Job.readBytes_canonical h ‹_›
      split
      · exact t
      · exact Job.settle_writeBytes_canonical _ _ t

theorem InStream.take_canonical {i : InStream} {n : Nat} {x : Option (List EByte) × InStream} (h : i.j.s.MemoryCanonical) (e : i.take n = .ok x) :
    x.2.j.s.MemoryCanonical := by
  unfold InStream.take at e
  dsimp only at e
  split at e
  · cases e
  · cases e
    exact Job.readBytes_canonical h ‹_›

theorem InStream.block_canonical {i : InStream} {f : FFmt} {eps : Nat × Int} {c : Nat} {x : Option (List Elem) × InStream}
    (h : i.j.s.MemoryCanonical) (e : i.block f eps c = .ok x) : x.2.j.s.MemoryCanonical := by
  unfold InStream.block at e
  split at e
  · cases e
  · cases e
    exact InStream.take_canonical h ‹_›
  · have t := InStream.take_canonical h ‹_›
    dsimp only at e
    split at e
    · cases e
      exact t
    · split at e
      · cases e
      · cases e
        exact InStream.take_canonical t ‹_›
      · have u := InStream.take_canonical t ‹_›
        split at e
        · cases e
          exact u
        · split at e
          · cases e
          · cases e
            exact InStream.take_canonical u ‹_›
          · have v := InStream.take_canonical u ‹_›
            split at e
            · cases e
              exact v
            · split at e
              · cases e
              · cases e
                exact InStream.take_canonical v ‹_›
              · cases e
                exact InStream.take_canonical v ‹_›

theorem InStream.blocks_canonical {f : FFmt} {eps : Nat × Int} : ∀ (fuel : Nat) {n : Nat} {i : InStream} {x : List Elem × Bool × InStream},
    i.j.s.MemoryCanonical → i.blocks f eps fuel n = .ok x → x.2.2.j.s.MemoryCanonical
  | 0, _, _, _, h, e => by
    cases e
    exact h
  | fuel + 1, n, i, x, h, e => by
    unfold InStream.blocks at e
    split at e
    · cases e
      exact h
    · split at e
      · cases e
      · cases e
        exact InStream.block_canonical h ‹_›
      · split at e
        · cases e
        · cases e
          have t := InStream.blocks_canonical fuel (InStream.block_canonical h ‹_›) ‹_›
          exact t

theorem Job.expanded_canonical {j : Job} (f : FFmt) (l : List Elem) (bad : Bool) (units : List Nat) (h : j.s.MemoryCanonical) :
    (j.expanded f l bad units).s.MemoryCanonical := by
  unfold Job.expanded
  split
  · exact h
  · have t := Job.storePath_canonical (Job.writeBytes_canonical h ‹_›)
    dsimp only
    split <;> exact t

theorem Job.cxpd_canonical {j : Job} (h : j.s.MemoryCanonical) : j.cxpd.s.MemoryCanonical := by
  unfold Job.cxpd
  split
  · exact h
  · have t := InStream.take_canonical (i := { j := j, pos := 0, units := [] }) h ‹_›
    exact t
  · have t := InStream.take_canonical (i := { j := j, pos := 0, units := [] }) h ‹_›
    dsimp only
    split
    · exact t
    · split
      · exact t
      · split
        · exact t
        · split
          · exact t
          · exact Job.expanded_canonical _ _ _ _ (InStream.blocks_canonical _ t ‹_›)

/-! ### Commands that stop -/

theorem State.fillOn_canonical (n : Nat) : ∀ (fuel : Nat) {s : State}, s.MemoryCanonical → (s.fillOn n fuel).MemoryCanonical
  | 0, _, h => h
  | fuel + 1, s, h => by
    unfold State.fillOn
    split
    · exact h
    · refine canonical_ite h ?_
      split
      · exact h
      · exact State.fillOn_canonical n fuel (State.hatchFill_canonical _ _ h)

theorem State.takeOn_canonical (n : Nat) : ∀ (fuel : Nat) {s : State}, s.MemoryCanonical → (s.takeOn n fuel).MemoryCanonical
  | 0, _, h => h
  | fuel + 1, s, h => by
    unfold State.takeOn
    split
    · exact h
    · rename_i k _
      refine canonical_ite h (canonical_ite ?_ ?_)
      · exact State.takeOn_canonical n fuel (Job.commit_canonical (Job.drainTile_canonical (j := { s := s, c := k }) h))
      · split
        · exact h
        · exact State.takeOn_canonical n fuel (State.hatchDrainTake_canonical _ _ h)

theorem State.stopCmd_canonical {s : State} (n : Nat) (h : s.MemoryCanonical) : (s.stopCmd n).MemoryCanonical := by
  unfold State.stopCmd
  split
  · exact h
  · refine canonical_ite h ?_
    extract_lets t
    have ht : t.MemoryCanonical := by
      refine canonical_ite (State.fillOn_canonical _ _ h) ?_
      split
      · exact h
      · exact State.takeOn_canonical _ _ h
    split
    · exact ht
    · refine canonical_ite ht ?_
      split <;> exact ht

/-! ### The device's accesses and the ends of contexts -/

theorem State.deviceWrite_canonical {s t : State} {asid va : Nat} {bs : List (Byte × Bool)} (h : s.MemoryCanonical)
    (e : s.deviceWrite asid va bs = .ok t) : t.MemoryCanonical := by
  unfold State.deviceWrite at e
  split at e
  · cases e
  · cases e
    exact State.engineWrite_canonical _ _ _ h ‹_›

theorem State.deviceTouch_canonical {s : State} (asid va n : Nat) (h : s.MemoryCanonical) : (s.deviceTouch asid va n).MemoryCanonical :=
  State.engineTouch_canonical _ _ _ h

theorem State.endCmd_canonical {s : State} (id seq : Nat) (f : Failure) (h : s.MemoryCanonical) : (s.endCmd id seq f).MemoryCanonical := h

theorem endCmds_canonical {s : State} (f : Failure) (l : List (Nat × Nat)) (h : s.MemoryCanonical) :
    (l.foldl (fun s a => s.endCmd a.1 a.2 f) s).MemoryCanonical :=
  canonical_foldl (fun (s : State) (a : Nat × Nat) => s.endCmd a.1 a.2 f) (fun _ a ht => State.endCmd_canonical a.1 a.2 f ht) l h

theorem State.spreadEnds_canonical {s : State} (h : s.MemoryCanonical) : s.spreadEnds.MemoryCanonical := canonical_ite h h

theorem State.deviceFault_canonical {s : State} (lnum va : Nat) (h : s.MemoryCanonical) : (s.deviceFault lnum va).MemoryCanonical := h

theorem State.takeDevFaults_canonical {s : State} (h : s.MemoryCanonical) : s.takeDevFaults.MemoryCanonical := by
  unfold State.takeDevFaults
  exact canonical_foldl _ (fun _ _ ht => canonical_ite (State.deviceFault_canonical _ _ ht) ht) _ h

/-! ### Pipelines: completion, end and launch -/

theorem State.writeResults_canonical {asid compl : Nat} : ∀ (l : List QEntry) {s : State} (j : Nat), s.MemoryCanonical →
    (s.writeResults asid compl j l).1.MemoryCanonical
  | [], _, _, h => h
  | q :: r, s, j, h => by
    unfold State.writeResults
    split
    · exact State.writeResults_canonical r (j + 1) (State.log_canonical _ h)
    · exact State.writeResults_canonical r (j + 1) (State.deviceWrite_canonical h ‹_›)

theorem State.complete_canonical {s : State} (asid compl : Nat) (phase : BitVec 8) (status : Nat) (results : List QEntry) (nz : Nat) (exitOr : BitVec 32)
    (h : s.MemoryCanonical) : (s.complete asid compl phase status results nz exitOr).MemoryCanonical := by
  have t := State.writeResults_canonical (asid := asid) (compl := compl) results 0 h
  refine canonical_ite h ?_
  dsimp only
  split
  · exact t
  · have u := State.deviceWrite_canonical t ‹_›
    exact u

theorem State.dropContexts_canonical {s : State} (lnum : Nat) (h : s.MemoryCanonical) : (s.dropContexts lnum).MemoryCanonical := by
  refine canonical_ite ?_ h
  split <;> exact h

theorem State.endPipe_canonical {s : State} (p : Pipeline) (status : Nat) (h : s.MemoryCanonical) : (s.endPipe p status).MemoryCanonical :=
  State.dropContexts_canonical _ (endCmds_canonical (0, 0) p.aborters
    (State.complete_canonical p.asid p.compl p.phase status p.results p.nzcnt p.exitOr (State.mergeWhere_canonical (fun _ => true) h)))

theorem State.pipelineEnd_canonical {s : State} (lnum : Nat) (h : s.MemoryCanonical) : (s.pipelineEnd lnum).MemoryCanonical := by
  unfold State.pipelineEnd
  split
  · exact h
  · exact canonical_ite (State.endPipe_canonical _ _ h) (canonical_ite h h)

theorem State.initialEntries_canonical {p : Pipeline} {init : Nat} : ∀ (n : Nat) {k : Nat} {s : State} {x : State × List QEntry}, s.MemoryCanonical →
    s.initialEntries p init k n = .ok x → x.1.MemoryCanonical
  | 0, _, _, _, h, e => by
    cases e
    exact h
  | n + 1, k, s, x, h, e => by
    unfold State.initialEntries at e
    dsimp only at e
    split at e
    · cases e
    · have t := State.deviceTouch_canonical p.asid (init + 64 * k) 64 h
      split at e
      · cases e
      · rename_i u hu
        have hu : u.MemoryCanonical := by
          split at hu
          · cases hu
            exact t
          · exact State.deviceWrite_canonical t hu
        split at e
        · cases e
        · cases e
          have v := State.initialEntries_canonical n hu ‹_›
          exact v

theorem State.accept_canonical {s : State} (r : Nat) (h : s.MemoryCanonical) : (s.accept r).1.MemoryCanonical := by
  unfold State.accept
  dsimp only
  split
  · exact h
  · have t := State.initialEntries_canonical _ h ‹_›
    exact t

theorem State.refuse_canonical {s : State} (bs : List (Byte × Bool)) (h : s.MemoryCanonical) : (s.refuse bs).MemoryCanonical :=
  canonical_ite h (State.complete_canonical _ _ _ _ _ _ _ h)

theorem State.tryLaunch_canonical {s : State} (bs : List (Byte × Bool)) (h : s.MemoryCanonical) : (s.tryLaunch bs).2.MemoryCanonical := by
  unfold State.tryLaunch
  refine canonical_ite_snd h ?_
  split
  · exact h
  · exact canonical_ite_snd (State.refuse_canonical bs h) (canonical_ite_snd h (State.accept_canonical _ h))

theorem canonical_of_tryLaunch {s : State} {bs : List (Byte × Bool)} {x : Except LaunchFail Nat × State} (h : s.MemoryCanonical)
    (e : s.tryLaunch bs = x) : x.2.MemoryCanonical := by
  rw [← e]
  exact State.tryLaunch_canonical bs h

theorem Job.startLaunch_canonical {j : Job} (h : j.s.MemoryCanonical) : j.startLaunch.s.MemoryCanonical := by
  unfold Job.startLaunch
  dsimp only
  split
  · exact h
  · have t := State.engineTouch_canonical j.who (j.c.pNat 0) 256 h
    refine Job.ite_canonical t (Job.ite_canonical (State.refuse_canonical _ t) ?_)
    split
    all_goals
      have u := canonical_of_tryLaunch t ‹_›
      exact u

theorem Job.startCancel_canonical {j : Job} (h : j.s.MemoryCanonical) : j.startCancel.s.MemoryCanonical := by
  unfold Job.startCancel
  split
  · exact h
  · exact Job.ite_canonical h (State.endPipe_canonical _ _ h)

theorem Job.startAbort_canonical {j : Job} (h : j.s.MemoryCanonical) : j.startAbort.s.MemoryCanonical := by
  unfold Job.startAbort
  split
  · exact h
  · exact Job.ite_canonical h h

/-! ### Queues -/

theorem State.enqueue_canonical {s : State} {p : Pipeline} {i : Nat} {g : Stage} {q : QEntry} {x : State × Bool} (h : s.MemoryCanonical)
    (e : s.enqueue p i g q = .ok x) : x.1.MemoryCanonical := by
  unfold State.enqueue at e
  split at e
  · cases e
    exact h
  · split at e
    · cases e
      exact h
    · split at e
      · cases e
        exact h
      · split at e
        · cases e
        · cases e
          have t := State.deviceWrite_canonical h ‹_›
          exact t

theorem State.dequeue_canonical {s : State} (p : Pipeline) (g : Stage) (n : Nat) (op : QueueOp) (h : s.MemoryCanonical) :
    (s.dequeue p g n op).MemoryCanonical := by
  unfold State.dequeue
  dsimp only
  split
  · exact h
  · split
    · exact h
    · split <;> exact h

theorem State.queueDecision_canonical {s : State} (n : Nat) (h : s.MemoryCanonical) : (s.queueDecision n).MemoryCanonical := by
  unfold State.queueDecision
  dsimp only
  split
  · refine canonical_ite h ?_
    split
    · exact State.dequeue_canonical _ _ _ _ h
    · split
      · exact canonical_ite h h
      · split
        · exact h
        · have t := State.enqueue_canonical h ‹_›
          exact t
    · exact h
  · exact h

theorem State.spillOut_canonical {s : State} (p : Pipeline) (i : Nat) (g : Stage) (h : s.MemoryCanonical) : (s.spillOut p i g).MemoryCanonical := by
  unfold State.spillOut
  split
  · dsimp only
    split
    · exact h
    · split
      · exact h
      · have t := State.deviceWrite_canonical h ‹_›
        exact t
  · exact h

theorem State.spillIn_canonical {s : State} (p : Pipeline) (i : Nat) (g : Stage) (h : s.MemoryCanonical) : (s.spillIn p i g).MemoryCanonical := by
  refine canonical_ite h ?_
  split
  · exact h
  · split
    · exact h
    · split <;> exact h

theorem State.spillMove_canonical {s : State} (lnum i : Nat) (toRing : Bool) (h : s.MemoryCanonical) : (s.spillMove lnum i toRing).MemoryCanonical := by
  unfold State.spillMove
  split
  · exact h
  · split
    · exact h
    · exact canonical_ite (State.spillOut_canonical _ _ _ h) (State.spillIn_canonical _ _ _ h)

/-! ### Save areas -/

theorem State.recallTile_canonical {s : State} (p : Place) (h : s.MemoryCanonical) : (s.recallTile p).MemoryCanonical :=
  canonical_foldl _ (fun _ _ ht => State.gatherHome_canonical _ ht) _ h

theorem State.touchImage_canonical (w : Who) : ∀ (n : Nat) {s : State} (va : Nat), s.MemoryCanonical → (s.touchImage w va n).MemoryCanonical
  | 0, _, _, h => h
  | n + 1, s, va, h => by
    unfold State.touchImage
    split
    · exact State.touchImage_canonical w n _ (State.fillPages_canonical _ _ _ (State.recallTile_canonical _ h))
    · exact h

theorem State.touchArea_canonical {s : State} (w : Who) (base len : Nat) (h : s.MemoryCanonical) : (s.touchArea w base len).MemoryCanonical :=
  State.touchImage_canonical w _ _ h

theorem setAreaState_canonical {w : Who} {area : Nat} {r : Except Nat State} {t : State} (hr : ∀ s, r = .ok s → s.MemoryCanonical)
    (e : setAreaState w area r = .ok t) : t.MemoryCanonical := by
  unfold setAreaState at e
  split at e
  · cases e
  · split at e
    · cases e
    · cases e
      exact State.engineWrite_canonical _ _ _ (hr _ rfl) ‹_›

theorem State.saveContext_canonical {s t : State} {w own : Who} {area slot : Nat} {g : Stage} {c : Context} {cells : List CellState}
    (h : s.MemoryCanonical) (e : s.saveContext w area own slot g c cells = .ok t) : t.MemoryCanonical := by
  unfold State.saveContext at e
  dsimp only at e
  split at e
  · exact setAreaState_canonical (fun _ ek => State.writeImage_canonical _ _ _ _ h ek) e
  · split at e
    · cases e
    · exact setAreaState_canonical (fun _ ek => State.writeImage_canonical _ _ _ _ (State.touchArea_canonical _ _ _ h) ek) e

theorem State.endAway_canonical {s : State} (id seq area : Nat) (h : s.MemoryCanonical) : (s.endAway id seq area).MemoryCanonical := by
  unfold State.endAway
  split
  · exact h
  · split
    · exact h
    · dsimp only
      split
      · exact h
      · refine canonical_ite h ?_
        split
        · exact h
        · exact State.engineWrite_canonical _ _ _ (mapCtxs_canonical _ h) ‹_›

theorem State.endCollective_canonical {s : State} (id seq : Nat) (f : Failure) (h : s.MemoryCanonical) : (s.endCollective id seq f).MemoryCanonical := by
  unfold State.endCollective
  dsimp only
  split
  · exact h
  · exact State.endAway_canonical _ _ _ (State.endCmd_canonical id seq f h)

/-! ### Groups and collective operations -/

theorem State.turnTo_canonical {s : State} (id : Nat) (h : s.MemoryCanonical) : (s.turnTo id).MemoryCanonical := by
  refine canonical_ite h ?_
  split
  · exact h
  · split <;> exact h

/-- What a context does out of its turn keeps memory canonical where the act itself does. -/
theorem State.forContext_canonical {α : Type} {s : State} (id : Nat) {f : State → α × State}
    (hf : ∀ t : State, t.MemoryCanonical → (f t).2.MemoryCanonical) (h : s.MemoryCanonical) : (s.forContext id f).2.MemoryCanonical :=
  State.turnTo_canonical _ (hf _ (State.turnTo_canonical id h))

theorem State.flushCmd_canonical {s : State} (n : Nat) (h : s.MemoryCanonical) : (s.flushCmd n).MemoryCanonical := by
  unfold State.flushCmd
  split
  · exact h
  · rename_i k _
    exact canonical_ite h (Job.commit_canonical (Job.flushOut_canonical (j := { s := s, c := { k with later := 0 } }) h))

theorem State.finishBegun_canonical {s : State} (h : s.MemoryCanonical) : s.finishBegun.MemoryCanonical :=
  canonical_foldl _ (fun _ n ht => State.flushCmd_canonical n ht) _ (State.settleHalf_canonical h)

theorem State.performBegun_canonical {s : State} (h : s.MemoryCanonical) : s.performBegun.MemoryCanonical :=
  canonical_foldl _ (fun _ id ht => State.forContext_canonical id (fun _ hu => State.finishBegun_canonical hu) ht) _ h

theorem State.mapGroup_canonical {s : State} (asid key : Nat) (f : Group → Group) (h : s.MemoryCanonical) : (s.mapGroup asid key f).MemoryCanonical := h

theorem State.dropGroup_canonical {s : State} (asid key : Nat) (h : s.MemoryCanonical) : (s.dropGroup asid key).MemoryCanonical := h

theorem State.setSlot_canonical {s : State} (id slot : Nat) (b : GroupSlot) (h : s.MemoryCanonical) : (s.setSlot id slot b).MemoryCanonical := h

theorem State.releaseBound_canonical {s : State} (id slot : Nat) (h : s.MemoryCanonical) : (s.releaseBound id slot).MemoryCanonical := by
  unfold State.releaseBound
  split
  · exact h
  · exact canonical_ite h h

theorem State.withdraw_canonical {s : State} (id slot : Nat) (h : s.MemoryCanonical) : (s.withdraw id slot).MemoryCanonical := by
  unfold State.withdraw
  split
  · exact h
  · refine canonical_ite (State.dropGroup_canonical _ _ ?_) ?_
    all_goals
      split
      · exact h
      · exact State.endCollective_canonical _ _ _ (State.setSlot_canonical _ _ _ (State.mapGroup_canonical _ _ _ h))

/-- The declarations of a group end, each with the slot's new state. -/
theorem endDecls_canonical (f : Failure) (b : GroupSlot) (l : List GroupDecl) {s : State} (h : s.MemoryCanonical) :
    (l.foldl (fun s x => (s.endCollective x.ctx x.cmd f).setSlot x.ctx x.slot b) s).MemoryCanonical :=
  canonical_foldl _ (fun _ x ht => State.setSlot_canonical _ _ _ (State.endCollective_canonical x.ctx x.cmd f ht)) l h

theorem State.endUnrouted_canonical {s : State} (h : s.MemoryCanonical) : s.endUnrouted.MemoryCanonical :=
  canonical_ite h (canonical_foldl _ (fun _ g ht => State.dropGroup_canonical _ _ (endDecls_canonical _ _ g.decls ht)) _ h)

theorem State.groupFormation_canonical {s : State} (n : Nat) (h : s.MemoryCanonical) : (s.groupFormation n).MemoryCanonical := by
  unfold State.groupFormation
  split
  · exact h
  · split
    · exact h
    · exact canonical_ite h (canonical_ite (State.dropGroup_canonical _ _ (endDecls_canonical _ _ _ h))
        (canonical_ite (State.mapGroup_canonical _ _ _ (endDecls_canonical _ _ _ h)) h))

theorem State.stripeMerge_canonical {s : State} (n level node : Nat) (h : s.MemoryCanonical) : (s.stripeMerge n level node).MemoryCanonical := by
  unfold State.stripeMerge
  split
  · exact h
  · split
    · split
      · exact h
      · exact h
      · exact h
      · split <;> exact h
    · exact h

theorem Job.readPairs_canonical {fmt : Nat} : ∀ (n : Nat) {j : Job} (va i : Nat) (prev : Option Nat), j.s.MemoryCanonical →
    (j.readPairs fmt va i prev n).2.MemoryCanonical
  | 0, _, _, _, _, h => h
  | n + 1, j, va, i, prev, h => by
    unfold Job.readPairs
    split
    · exact h
    · have t := Job.readBytes_canonical h ‹_›
      dsimp only
      split
      · exact t
      · split
        · exact t
        · split
          · split
            · exact t
            · exact Job.readPairs_canonical n _ _ _ t
          · split
            · exact t
            · exact Job.readPairs_canonical n _ _ _ t

theorem Job.readVector_canonical {fmt : Nat} : ∀ (n : Nat) {j : Job} (va i : Nat), j.s.MemoryCanonical → (j.readVector fmt va i n).2.MemoryCanonical
  | 0, _, _, _, h => h
  | n + 1, j, va, i, h => by
    unfold Job.readVector
    split
    · exact h
    · exact Job.readVector_canonical n _ _ (Job.readBytes_canonical h ‹_›)

theorem State.endOperation_canonical {s : State} (g : Group) (ops : List (GroupDecl × EngCmd)) (f : GroupDecl → Failure) (h : s.MemoryCanonical) :
    (s.endOperation g ops f).MemoryCanonical :=
  State.mapGroup_canonical _ _ _ (canonical_foldl _ (fun _ x ht => State.endCollective_canonical x.1.ctx x.2.seq (f x.1) ht) ops h)

theorem State.readFeed_canonical {s : State} (d : GroupDecl) (k : EngCmd) (h : s.MemoryCanonical) : (s.readFeed d k).2.MemoryCanonical := by
  refine State.forContext_canonical d.ctx (fun t ht => ?_) h
  dsimp only
  split
  · exact Job.readPairs_canonical _ _ _ _ ht
  · exact Job.readVector_canonical _ _ _ ht

theorem State.startReduction_canonical {s : State} (g : Group) (ops : List (GroupDecl × EngCmd)) (h : s.MemoryCanonical) :
    (s.startReduction g ops).MemoryCanonical :=
  State.mapGroup_canonical _ _ _ (List.foldlRecOn (motive := fun a : List (Nat × Feed × List Stripe) × State => a.2.MemoryCanonical) ops _ h
    (fun _ ha x _ => State.readFeed_canonical x.1 x.2 ha))

theorem State.writeOutput_canonical {s : State} (d : GroupDecl) (k : EngCmd) (bs : Marked) (h : s.MemoryCanonical) :
    (s.writeOutput d k bs).2.MemoryCanonical := by
  refine State.forContext_canonical d.ctx (fun t ht => ?_) h
  split
  · exact ht
  · have u := Job.writeBytes_canonical (j := { s := t, c := { k with later := 2 ^ bs.length - 1 } }) ht ‹_›
    exact u

theorem State.settleOperation_canonical {s : State} (g : Group) (r : GroupRun) (ops : List (GroupDecl × EngCmd)) (f : GroupDecl → Failure)
    (h : s.MemoryCanonical) : (s.settleOperation g r ops f).MemoryCanonical := h

theorem State.deliver_canonical {s : State} (g : Group) (r : GroupRun) (ops : List (GroupDecl × EngCmd)) (root : List Stripe) (h : s.MemoryCanonical) :
    (s.deliver g r ops root).MemoryCanonical := by
  unfold State.deliver
  split
  · exact h
  · dsimp only
    generalize hf : List.foldl _ ([], s) _ = x
    have hx : x.2.MemoryCanonical := by
      rw [← hf]
      refine List.foldlRecOn (motive := fun a : List (Nat × List Failure × List Nat) × State => a.2.MemoryCanonical) _ _ h (fun a ha x _ => ?_)
      exact canonical_ite_snd ha (canonical_ite_snd ha (State.writeOutput_canonical _ _ _ ha))
    exact State.settleOperation_canonical _ _ _ _ hx

theorem State.broadcast_canonical {s : State} (g : Group) (ops : List (GroupDecl × EngCmd)) (h : s.MemoryCanonical) :
    (s.broadcast g ops).MemoryCanonical := by
  unfold State.broadcast
  split
  · exact h
  · split
    · exact State.endOperation_canonical _ _ _ h
    · generalize hx : State.forContext _ _ _ = x
      have t : x.2.MemoryCanonical := by
        rw [← hx]
        refine State.forContext_canonical _ (fun t ht => ?_) h
        dsimp only
        split
        · exact ht
        · exact Job.readBytes_canonical (j := { s := t, c := _ }) ht ‹_›
      obtain ⟨r, u⟩ := x
      dsimp only
      split
      · exact State.endOperation_canonical _ _ _ t
      · split
        · exact State.endOperation_canonical _ _ _ t
        · exact State.settleOperation_canonical _ _ _ _ (List.foldlRecOn
            (motive := fun a : List (Nat × List Failure × List Nat) × State => a.2.MemoryCanonical) _ _ t
            (fun _ ha _ _ => State.writeOutput_canonical _ _ _ ha))

theorem State.collectiveOperation_canonical {s : State} (n : Nat) (h : s.MemoryCanonical) : (s.collectiveOperation n).MemoryCanonical := by
  unfold State.collectiveOperation
  split
  · exact h
  · refine canonical_ite h (canonical_ite ?_ ?_)
    · exact canonical_foldl _ (fun _ d ht => canonical_foldl _ (fun _ k hu => State.endCollective_canonical d.ctx k.seq _ hu) _ ht) _ h
    · split
      · exact h
      · split
        · exact h
        · refine canonical_ite (canonical_ite (State.endOperation_canonical _ _ _ h) h)
            (canonical_ite (State.endOperation_canonical _ _ _ h) (canonical_ite (State.broadcast_canonical _ _ h) ?_))
          split
          · exact State.startReduction_canonical _ _ h
          · split
            · exact State.deliver_canonical _ _ _ _ h
            · exact h

theorem Job.touchMap_canonical {j : Job} (b : Nat) (h : j.s.MemoryCanonical) : (j.touchMap b).s.MemoryCanonical :=
  Job.ite_canonical h (State.engineTouch_canonical _ _ _ h)

theorem Job.declare_canonical {j : Job} (h : j.s.MemoryCanonical) : j.declare.s.MemoryCanonical := by
  unfold Job.declare
  split
  · exact h
  · refine Job.ite_canonical h ?_
    split
    · exact h
    · have t := fun b => Job.touchMap_canonical b h
      refine Job.ite_canonical (t _) (Job.ite_canonical (t _) ?_)
      split
      · exact Job.ite_canonical (t _) (t _)
      · exact Job.ite_canonical (t _) (t _)

theorem Job.release_canonical {j : Job} (h : j.s.MemoryCanonical) : j.release.s.MemoryCanonical := by
  unfold Job.release
  dsimp only
  split
  · exact h
  · exact State.withdraw_canonical _ _ h
  · exact Job.ite_canonical h (State.releaseBound_canonical _ _ h)

theorem Job.startRgrp_canonical {j : Job} (h : j.s.MemoryCanonical) : j.startRgrp.s.MemoryCanonical :=
  Job.ite_canonical (Job.release_canonical h) (Job.declare_canonical h)

/-! ### Scratch memory -/

theorem sendBacks_canonical {s : State} (o : Option Nat) (l : List (CacheId × Nat)) (h : s.MemoryCanonical) :
    (l.foldl (fun s k => s.sendBack o k) s).MemoryCanonical :=
  canonical_foldl _ (fun _ k ht => State.sendBack_canonical o k ht) l h

theorem State.evictBlock_canonical {s : State} (die b : Nat) (h : s.MemoryCanonical) : (s.evictBlock die b).MemoryCanonical := by
  unfold State.evictBlock
  refine canonical_foldl _ (fun _ n ht => State.surrender_canonical n _ none ht) _ ?_
  exact sendBacks_canonical none _ h

theorem State.evictBlocks_canonical {s : State} (die : Nat) (bs : List Nat) (h : s.MemoryCanonical) : (s.evictBlocks die bs).MemoryCanonical :=
  canonical_foldl _ (fun _ b ht => State.evictBlock_canonical die b ht) bs h

theorem State.orFault_canonical {s : State} {lnum : Nat} {r : Except Nat State} (h : s.MemoryCanonical) (hr : ∀ t, r = .ok t → t.MemoryCanonical) :
    (s.orFault lnum r).MemoryCanonical := by
  cases r with
  | ok t => exact hr t rfl
  | error a => exact State.deviceFault_canonical lnum a h

theorem State.shrinkTo_canonical {s : State} (p : Pipeline) (c : Context) (n : Nat) (h : s.MemoryCanonical) : (s.shrinkTo p c n).MemoryCanonical :=
  canonical_ite h (State.mapCtx_canonical _ _ (State.orFault_canonical h (fun _ e => State.writeImage_canonical _ _ _ _ h e)))

theorem State.makeBlocks_canonical (die id n : Nat) : ∀ (fuel : Nat) {s : State}, s.MemoryCanonical → (s.makeBlocks die id n fuel).MemoryCanonical
  | 0, _, h => h
  | fuel + 1, s, h => by
    unfold State.makeBlocks
    refine canonical_ite h ?_
    split
    · exact h
    · split
      · exact h
      · exact State.makeBlocks_canonical die id n fuel (State.shrinkTo_canonical _ _ _ h)

theorem State.claimBlocks_canonical {s : State} (die id n : Nat) (h : s.MemoryCanonical) : (s.claimBlocks die id n).1.MemoryCanonical :=
  State.evictBlocks_canonical _ _ (canonical_ite h (State.makeBlocks_canonical die id n 64 h))

theorem State.growTo_canonical {s : State} (p : Pipeline) (id n : Nat) (h : s.MemoryCanonical) : (s.growTo p id n).MemoryCanonical := by
  unfold State.growTo
  split
  · exact h
  · rename_i c _
    have t := State.claimBlocks_canonical c.die id (n - c.scratchSize) h
    refine canonical_ite h ?_
    dsimp only
    split
    · exact t
    · exact State.mapCtx_canonical _ _ (State.touchArea_canonical _ _ _ t)

theorem State.zeroBacking_canonical {s : State} (p : Pipeline) (c : Context) (lo hi : Nat) (h : s.MemoryCanonical) :
    (s.zeroBacking p c lo hi).MemoryCanonical :=
  canonical_ite h (State.orFault_canonical h (fun _ e => State.wipe_canonical _ _ _ h e))

theorem State.setLimits_canonical {s : State} (p : Pipeline) (c : Context) (lo hi : Nat) (h : s.MemoryCanonical) :
    (s.setLimits p c lo hi).MemoryCanonical :=
  State.mapCtx_canonical _ _ (State.growTo_canonical _ _ _ (State.zeroBacking_canonical _ _ _ _
    (State.mapCtx_canonical _ _ (State.performBegun_canonical h))))

theorem State.moveBlock_canonical {s : State} (die id : Nat) (grow : Bool) (h : s.MemoryCanonical) : (s.moveBlock die id grow).MemoryCanonical := by
  unfold State.moveBlock
  split
  · exact h
  · split
    · exact h
    · exact canonical_ite h (canonical_ite (canonical_ite (State.growTo_canonical _ _ _ h) h) (canonical_ite (State.shrinkTo_canonical _ _ _ h) h))

theorem State.moveBlocks_canonical {s : State} (die : Nat) (moves : List (Nat × Bool)) (h : s.MemoryCanonical) :
    (s.moveBlocks die moves).MemoryCanonical :=
  canonical_foldl _ (fun _ m ht => State.moveBlock_canonical die m.1 m.2 ht) moves (State.performBegun_canonical h)

/-! ### Fused sets of arrays -/

theorem State.fuseLine_canonical {s : State} (f : FusedSet) (n : Nat) (h : s.MemoryCanonical) : (s.fuseLine f n).MemoryCanonical := by
  unfold State.fuseLine
  dsimp only
  split <;> exact h

theorem State.fuseSet_canonical {s : State} (f : FusedSet) (h : s.MemoryCanonical) : (s.fuseSet f).MemoryCanonical := by
  unfold State.fuseSet
  refine canonical_foldl _ (fun _ l ht => canonical_foldl _ (fun _ a hu => State.surrender_canonical l.line a none hu) _ ht) _ ?_
  exact canonical_foldl _ (fun _ n ht => State.fuseLine_canonical f n ht) _ h

theorem State.fuse_canonical {s : State} (lnum stage inst : Nat) (h : s.MemoryCanonical) : (s.fuse lnum stage inst).MemoryCanonical := by
  unfold State.fuse
  exact canonical_foldl _ (fun _ f ht => State.fuseSet_canonical f ht) _ h

theorem State.dissolve_canonical {s : State} (h : s.MemoryCanonical) : s.dissolve.MemoryCanonical := h

/-! ### The scheduler -/

theorem State.activateChain_canonical {s : State} (c : Context) (h : s.MemoryCanonical) : (s.activateChain c).MemoryCanonical := h

theorem State.activateOn_canonical {s : State} (a : Nat) (h : s.MemoryCanonical) : (s.activateOn a).MemoryCanonical := by
  unfold State.activateOn
  split <;> exact h

theorem State.activateAll_canonical {s : State} (l : List Nat) (h : s.MemoryCanonical) : (s.activateAll l).MemoryCanonical :=
  canonical_foldl _ (fun _ a ht => canonical_ite ht (State.activateOn_canonical a ht)) l h

theorem State.addContexts_canonical {s : State} (cs : List Context) (h : s.MemoryCanonical) : (s.addContexts cs).MemoryCanonical := by
  unfold State.addContexts
  split <;> exact h

theorem State.takeBlocks_canonical {s : State} (id n : Nat) (h : s.MemoryCanonical) : (s.takeBlocks id n).MemoryCanonical := by
  unfold State.takeBlocks
  split
  · exact h
  · exact State.mapCtx_canonical _ _ (State.claimBlocks_canonical _ id n h)

theorem State.startScratch_canonical {s : State} (p : Pipeline) (c : Context) (h : s.MemoryCanonical) : (s.startScratch p c).MemoryCanonical :=
  State.zeroBacking_canonical _ _ _ _ (State.takeBlocks_canonical _ _ h)

theorem fuseIf_canonical {s : State} {b : Bool} (lnum stage inst : Nat) (h : s.MemoryCanonical) :
    (if b then s.fuse lnum stage inst else s).MemoryCanonical := canonical_ite (State.fuse_canonical _ _ _ h) h

theorem State.dispatch_canonical {s : State} (lnum stage inst : Nat) (arrays : List Nat) (h : s.MemoryCanonical) :
    (s.dispatch lnum stage inst arrays).MemoryCanonical := by
  unfold State.dispatch
  split
  · exact h
  · split
    · refine canonical_ite h (State.activateAll_canonical _ (fuseIf_canonical _ _ _ ?_))
      refine canonical_foldl _ (fun _ c ht => State.startScratch_canonical _ c ht) _ (State.addContexts_canonical _ ?_)
      exact State.mapPipe_canonical _ _ (State.performBegun_canonical h)
    · exact h

theorem State.agingInterval_canonical {s : State} (lnum stage inst : Nat) (h : s.MemoryCanonical) : (s.agingInterval lnum stage inst).MemoryCanonical := h

theorem State.rebalanceInterval_canonical {s : State} (lnum : Nat) (h : s.MemoryCanonical) : (s.rebalanceInterval lnum).MemoryCanonical := h

theorem State.preemptionRequest_canonical {s : State} (id : Nat) (h : s.MemoryCanonical) : (s.preemptionRequest id).MemoryCanonical := by
  unfold State.preemptionRequest
  split
  · exact h
  · exact canonical_ite h (canonical_ite h (canonical_ite h h))

theorem State.landing_canonical {s : State} (h : s.MemoryCanonical) : s.landing.MemoryCanonical :=
  canonical_ite (State.setCtx_canonical _ (State.settleHalf_canonical h)) h

theorem State.unland_canonical {s : State} (c : Context) (active : Bool) (h : s.MemoryCanonical) : (s.unland c active).MemoryCanonical := h

theorem State.contextSwitch_canonical {s : State} (h : s.MemoryCanonical) : s.contextSwitch.MemoryCanonical := by
  refine canonical_ite h ?_
  split
  · exact h
  · exact State.activateAll_canonical _ (State.activateChain_canonical _ (State.unland_canonical _ _ h))

theorem State.flushPath_canonical {s : State} (c : Context) (h : s.MemoryCanonical) : (s.flushPath c).MemoryCanonical :=
  State.mergeWhere_canonical _ (sendBacks_canonical _ _ h)

theorem State.stalePath_canonical {s : State} (c : Context) (h : s.MemoryCanonical) : (s.stalePath c).MemoryCanonical := h

theorem State.settleContext_canonical {s : State} (h : s.MemoryCanonical) : s.settleContext.MemoryCanonical := by
  unfold State.settleContext
  refine State.flushPath_canonical _ (State.setCtx_canonical _ ?_)
  refine canonical_foldl _ (fun _ n ht => State.stopCmd_canonical n (State.flushCmd_canonical n ht)) _ ?_
  exact canonical_foldl _ (fun _ _ ht => State.storeAhead_canonical _ _ ht) _ (State.settleHalf_canonical h)

theorem State.settleMember_canonical {s : State} (id : Nat) (h : s.MemoryCanonical) : (s.settleMember id).MemoryCanonical :=
  State.forContext_canonical id (fun _ ht => State.settleContext_canonical ht) h

theorem State.saveMember_canonical {s : State} (p : Pipeline) (g : Stage) (park : Option Nat) (asid id : Nat) (h : s.MemoryCanonical) :
    (s.saveMember p g park asid id).1.MemoryCanonical := by
  unfold State.saveMember
  split
  · exact h
  · split
    · exact h
    · exact State.mapCtx_canonical _ _ (State.saveContext_canonical h ‹_›)

theorem State.saveMembers_canonical (p : Pipeline) (g : Stage) (park : Option Nat) (asid : Nat) : ∀ (l : List Context) {s : State}, s.MemoryCanonical →
    (s.saveMembers p g park asid l).1.MemoryCanonical
  | [], _, h => h
  | m :: r, s, h => by
    have t := State.saveMember_canonical p g park asid m.ctxid.toNat (State.settleMember_canonical m.ctxid.toNat h)
    unfold State.saveMembers
    dsimp only
    split
    · exact t
    · exact State.saveMembers_canonical p g park asid r t

theorem State.failPark_canonical {s : State} (c : Context) (ms : List Context) (va : Nat) (h : s.MemoryCanonical) : (s.failPark c ms va).MemoryCanonical :=
  State.unland_canonical _ _ (endCmds_canonical _ _ h)

theorem State.drain_canonical {s : State} (h : s.MemoryCanonical) : s.drain.MemoryCanonical := by
  refine canonical_ite h ?_
  split
  · rename_i p g _ _
    have t := State.saveMembers_canonical p g (parkArea (s.chainOf s.ctx)) ((parkAsid (s.chainOf s.ctx)).getD p.asid) (s.chainOf s.ctx)
      (State.performBegun_canonical h)
    dsimp only
    split
    · rename_i e
      rw [e] at t
      exact canonical_ite (State.failPark_canonical _ _ _ h) t
    · rename_i e
      rw [e] at t
      exact State.activateAll_canonical _ (State.dissolve_canonical (endCmds_canonical _ _ t))
  · exact h

theorem State.placeMember_canonical {s : State} (c c' : Context) (struck : Bool) (cells : List CellState) (h : s.MemoryCanonical) :
    (s.placeMember c c' struck cells).MemoryCanonical :=
  State.takeBlocks_canonical _ _ (mapCtxs_canonical _ (State.mapCtx_canonical _ _ h))

theorem State.loadMember_canonical {s : State} (g : Stage) (c : Context) (im : Image) (a : Nat) (arrays : List Nat) (h : s.MemoryCanonical) :
    (s.loadMember g c im a arrays).MemoryCanonical :=
  State.placeMember_canonical _ _ _ _ (State.touchArea_canonical _ _ _ h)

theorem State.resumeMember_canonical {s : State} (p : Pipeline) (g : Stage) (c : Context) (im : Image) (a : Nat) (arrays : List Nat)
    (h : s.MemoryCanonical) : (s.resumeMember p g c im a arrays).MemoryCanonical := by
  have t := State.loadMember_canonical g c im a arrays h
  refine State.orFault_canonical t (fun u e => ?_)
  split at e
  · cases e
  · cases e
    exact State.engineWrite_canonical _ _ _ t ‹_›

theorem State.resumption_canonical {s : State} (lnum stage inst : Nat) (arrays : List Nat) (h : s.MemoryCanonical) :
    (s.resumption lnum stage inst arrays).MemoryCanonical := by
  unfold State.resumption
  dsimp only
  split
  · exact h
  · split
    · refine canonical_ite h ?_
      split
      · exact State.deviceFault_canonical _ _ (State.performBegun_canonical h)
      · refine State.activateAll_canonical _ (State.spreadEnds_canonical (State.mapPipe_canonical _ _ ?_))
        refine canonical_foldl _ (fun _ c ht => State.stalePath_canonical c ht) _ (fuseIf_canonical _ _ _ ?_)
        exact canonical_foldl _ (fun _ _ ht => State.resumeMember_canonical _ _ _ _ _ _ ht) _ (State.performBegun_canonical h)
    · exact h

theorem State.watchdogExpiry_canonical {s : State} (h : s.MemoryCanonical) : s.watchdogExpiry.MemoryCanonical :=
  canonical_ite (State.spreadEnds_canonical (State.setCtx_canonical _ h)) h

theorem State.freeStreams_canonical {s : State} (h : s.MemoryCanonical) : s.freeStreams.MemoryCanonical :=
  canonical_foldl _ (fun _ q ht => State.unbind_canonical (Fin.ofNat 16 q) ht) _ h

theorem State.releaseSlots_canonical {s : State} (h : s.MemoryCanonical) : s.releaseSlots.MemoryCanonical := by
  refine canonical_foldl _ (fun t i ht => ?_) _ h
  split
  · exact ht
  · exact State.releaseBound_canonical _ _ ht

theorem State.freeChain_canonical {s : State} (c : Context) (h : s.MemoryCanonical) : (s.freeChain c).MemoryCanonical :=
  canonical_ite (State.activateAll_canonical _ (State.dissolve_canonical (mapCtxs_canonical _ h))) h

theorem State.freeInstance_canonical {s : State} (c : Context) (h : s.MemoryCanonical) : (s.freeInstance c).MemoryCanonical := canonical_ite h h

theorem State.finishEnding_canonical {s : State} (h : s.MemoryCanonical) : s.finishEnding.MemoryCanonical := by
  unfold State.finishEnding
  split
  · refine canonical_ite h (State.freeInstance_canonical _ (State.freeChain_canonical _ (State.spreadEnds_canonical ?_)))
    exact State.mapPipe_canonical _ _ (State.setCtx_canonical _ (State.releaseSlots_canonical (State.freeStreams_canonical h)))
  all_goals exact h

/-! ### System operations and the host's memory -/

theorem State.latchAll_canonical {s : State} (h : s.MemoryCanonical) : s.latchAll.MemoryCanonical := h

theorem execTlbi_canonical {s : State} (a b : Opnd) (ext : BitVec 2) (h : s.MemoryCanonical) : AnswersCanonical (execTlbi a b ext s) := by
  have ta := State.take_canonical b (State.take_canonical a h)
  have tb := State.take_canonical b h
  refine gated_canonical h (canonical_ite (canonical_ite ta ?_) (canonical_ite ?_ ?_))
  · have t := State.performBegun_canonical ta
    exact t
  · have t := State.performBegun_canonical tb
    exact t
  · exact State.latchAll_canonical (State.performBegun_canonical h)

theorem State.physTouch_canonical {s : State} (pa n : Nat) (h : s.MemoryCanonical) : (s.physTouch pa n).MemoryCanonical :=
  State.synchronise_canonical _ (canonical_foldl _ (fun _ p ht => State.gatherHome_canonical p ht) _ h)

theorem State.physPut_canonical {s : State} (p : Place) (b : Byte) (poison : Bool) (h : s.MemoryCanonical) : (s.physPut p b poison).MemoryCanonical :=
  State.enginePut_canonical _ _ _ _ h

theorem State.physWrite_canonical {s t : State} {pa : Nat} {bs : List (Byte × Bool)} (h : s.MemoryCanonical) (e : s.physWrite pa bs = some t) :
    t.MemoryCanonical := by
  obtain ⟨ps, -, rfl⟩ := Option.map_eq_some_iff.mp e
  exact canonical_foldl _ (fun _ x ht => State.physPut_canonical x.1 x.2.1 x.2.2 ht) _ h

theorem State.hostWrite_canonical {s t : State} {pa : Nat} {bs : List (Byte × Bool)} (h : s.MemoryCanonical) (e : s.hostWrite pa bs = some t) :
    t.MemoryCanonical := by
  unfold State.hostWrite at e
  split at e
  · cases e
  · split at e
    · exact State.physWrite_canonical h e
    · cases e

theorem State.flushLine_canonical {s : State} (l : Line) (h : s.MemoryCanonical) : (s.flushLine l).MemoryCanonical := by
  refine canonical_ite ?_ h
  exact State.writeBlock_canonical l.line l.key h

theorem State.flushMsg_canonical {s : State} (m : TokMsg) (h : s.MemoryCanonical) : (s.flushMsg m).MemoryCanonical := by
  refine canonical_ite ?_ h
  cases s.lineAt m.line with
  | none => exact h
  | some l => exact State.writeBlock_canonical l.line l.key h

theorem State.flushAll_canonical {s : State} (h : s.MemoryCanonical) : s.flushAll.MemoryCanonical := by
  unfold State.flushAll
  refine canonical_foldl _ (fun _ l ht => State.flushLine_canonical l ht) _ ?_
  exact canonical_foldl State.flushMsg (fun _ m ht => State.flushMsg_canonical m ht) _ (State.mergeWhere_canonical _ (sendBacks_canonical _ _ h))

theorem State.copyArea_canonical {s t : State} {from_ src to_ dst len : Nat} (h : s.MemoryCanonical) (e : s.copyArea from_ src to_ dst len = .ok t) :
    t.MemoryCanonical := by
  unfold State.copyArea at e
  split at e
  · cases e
  · exact State.writeImage_canonical _ _ _ _ (State.touchArea_canonical _ _ _ h) e

theorem State.copyAreas_canonical {asid : Nat} : ∀ (l : List (Context × Nat × Nat)) {s t : State}, s.MemoryCanonical → s.copyAreas asid l = .ok t →
    t.MemoryCanonical
  | [], _, _, h, e => by
    cases e
    exact h
  | (m, dst, len) :: r, s, t, h, e => by
    unfold State.copyAreas at e
    split at e
    · cases e
    · exact State.copyAreas_canonical r (State.copyArea_canonical h ‹_›) e

theorem State.putImages_canonical {p : Pipeline} : ∀ (l : List (Image × Nat × Nat)) {s t : State}, s.MemoryCanonical → s.putImages p l = .ok t →
    t.MemoryCanonical
  | [], _, _, h, e => by
    cases e
    exact h
  | (im, dst, len) :: r, s, t, h, e => by
    unfold State.putImages at e
    split at e
    · cases e
    · exact State.putImages_canonical r (State.writeImage_canonical _ _ _ _ h ‹_›) e

/-! ### System commands -/

theorem Job.startSbind_canonical {j : Job} (h : j.s.MemoryCanonical) : j.startSbind.s.MemoryCanonical := by
  have put : ∀ (b : Bool) (n : Fin 16) (q : Stream), (if b then j.s.setStream n q else j.s).MemoryCanonical := fun _ n q =>
    canonical_ite (State.setStream_canonical n q h) h
  unfold Job.startSbind
  dsimp only
  split
  · exact put _ _ _
  · exact Job.ite_canonical (put _ _ _) (put _ _ _)

theorem Job.startPgreq_canonical {j : Job} (h : j.s.MemoryCanonical) : j.startPgreq.s.MemoryCanonical := by
  unfold Job.startPgreq
  refine Job.ite_canonical h (Job.ite_canonical h (Job.ite_canonical h ?_))
  dsimp only
  split
  · exact h
  · have t := State.hostWrite_canonical h ‹_›
    split
    · exact t
    · have u := State.hostWrite_canonical t ‹_›
      exact u

theorem Job.startScrlim_canonical {j : Job} (h : j.s.MemoryCanonical) : j.startScrlim.s.MemoryCanonical := by
  refine Job.ite_canonical ?_ h
  split
  · exact h
  · exact State.setLimits_canonical _ _ _ _ h

theorem Job.copyParked_canonical {j : Job} (c : Context) (ms : List Context) (area z : Nat) (h : j.s.MemoryCanonical) :
    (j.copyParked c ms area z).s.MemoryCanonical := by
  unfold Job.copyParked
  split
  · exact h
  · have t := State.copyAreas_canonical _ (State.performBegun_canonical h) ‹_›
    exact Job.ite_canonical t t

theorem Job.startCtxsave_canonical {j : Job} (h : j.s.MemoryCanonical) : j.startCtxsave.s.MemoryCanonical := by
  refine Job.ite_canonical h ?_
  split
  · exact h
  · refine Job.ite_canonical h ?_
    dsimp only
    split
    · exact h
    · exact Job.ite_canonical (Job.copyParked_canonical _ _ _ _ h) h

theorem Job.awaitPark_canonical {j : Job} (h : j.s.MemoryCanonical) : j.awaitPark.s.MemoryCanonical := by
  unfold Job.awaitPark
  split
  · exact h
  · exact Job.ite_canonical (Job.copyParked_canonical _ _ _ _ h) (Job.ite_canonical h h)

theorem Job.startCtxload_canonical {j : Job} (h : j.s.MemoryCanonical) : j.startCtxload.s.MemoryCanonical := by
  unfold Job.startCtxload
  extract_lets area
  split
  · exact h
  · extract_lets ms z u
    have hu : u.MemoryCanonical := canonical_foldl _ (fun _ _ ht => State.touchArea_canonical _ _ _ ht) _ (State.performBegun_canonical h)
    refine Job.ite_canonical h ?_
    split
    · refine Job.ite_canonical ?_ h
      dsimp only
      split
      · exact hu
      · have t := State.putImages_canonical _ hu ‹_›
        exact t
    · exact h
    · exact h

/-! ### Coherence events -/

theorem State.persistentEvent_canonical {s : State} (act : Bool) (n : Nat) (h : s.MemoryCanonical) : (s.persistentEvent act n).MemoryCanonical :=
  canonical_ite (State.persistentArrive_canonical n h) h

theorem State.answerRead_canonical {s : State} (agent : Nat) (l : Line) (h : s.MemoryCanonical) : (s.answerRead agent l).MemoryCanonical := by
  refine canonical_ite (canonical_ite h (canonical_ite (State.sendHome_canonical _ _ h) (State.sendOne_canonical _ _ h))) ?_
  split
  · exact h
  · exact canonical_ite h (canonical_ite (State.sendAll_canonical _ _ _ h) (canonical_ite (State.askHost_canonical _ h) (State.sendOne_canonical _ _ h)))

theorem State.answerWrite_canonical {s : State} (agent : Nat) (l : Line) (h : s.MemoryCanonical) : (s.answerWrite agent l).MemoryCanonical := by
  have t := fun as : List Nat => canonical_foldl _ (fun _ a ht => State.surrender_canonical l.line a (some agent) ht) as h
  exact canonical_ite (State.sendHome_canonical _ _ (t _)) (t _)

theorem State.answer_canonical {s : State} (r : TransientReq) (h : s.MemoryCanonical) : (s.answer r).MemoryCanonical := by
  unfold State.answer
  split
  · exact h
  · exact canonical_ite (State.answerWrite_canonical _ _ h) (State.answerRead_canonical _ _ h)

theorem State.requestSw_canonical {s : State} (agent line : Nat) (h : s.MemoryCanonical) : (s.requestSw agent line).MemoryCanonical := by
  unfold State.requestSw
  split
  · exact canonical_ite (State.fillSw_canonical _ _ h) h
  · exact canonical_ite (State.fillSw_canonical _ _ h) h
  · exact h

theorem State.request_canonical {s : State} (agent line : Nat) (write : Bool) (h : s.MemoryCanonical) : (s.request agent line write).MemoryCanonical := by
  unfold State.request
  dsimp only
  split
  · exact canonical_ite h (State.requestSw_canonical _ _ h)
  · exact canonical_ite h (State.answer_canonical (s := { s with treqs := _ }) _ h)

theorem State.transientRetry_canonical {s : State} (n : Nat) (h : s.MemoryCanonical) : (s.transientRetry n).MemoryCanonical := by
  unfold State.transientRetry
  split
  · exact h
  · exact canonical_ite h (State.answer_canonical (s := { s with treqs := _ }) _ h)

theorem State.persistentEscalation_canonical {s : State} (n : Nat) (h : s.MemoryCanonical) : (s.persistentEscalation n).MemoryCanonical := by
  unfold State.persistentEscalation
  split
  · exact h
  · exact canonical_ite (State.escalate_canonical _ _ _ h) h

theorem State.wbSend_canonical {s : State} (agent line : Nat) (h : s.MemoryCanonical) : (s.wbSend agent line).MemoryCanonical := by
  unfold State.wbSend
  split
  · exact State.sendDirty_canonical none _ h
  · split
    · exact h
    · exact canonical_ite (State.homeEvict_canonical _ h) (State.sendAll_canonical _ _ _ h)

theorem State.zclr_canonical {s : State} (agent tile : Nat) (h : s.MemoryCanonical) : (s.zclr agent tile).MemoryCanonical := canonical_ite h h

theorem State.backInvalidateAnswer_canonical {s : State} (line : Nat) (h : s.MemoryCanonical) : (s.backInvalidateAnswer line).MemoryCanonical := by
  unfold State.backInvalidateAnswer
  split
  · exact h
  · dsimp only
    split
    · exact h
    · exact canonical_ite h (canonical_ite (State.sendOne_canonical (s := { s with snoops := _ }) _ _ h)
        (State.release_canonical (s := { s with snoops := _ }) _ _ _ h))

theorem State.poisonBytes_canonical : ∀ (n : Nat) {s : State} (key : Nat), s.MemoryCanonical → (s.poisonBytes key n).MemoryCanonical
  | 0, _, _, h => h
  | n + 1, _, key, h => State.poisonBytes_canonical n (key + 1) ⟨h.1, setAdd_pairwise key h.2⟩

theorem State.drainFabric_canonical : ∀ (fuel : Nat) {s : State}, s.MemoryCanonical → (s.drainFabric fuel).MemoryCanonical
  | 0, _, h => h
  | fuel + 1, s, h => by
    unfold State.drainFabric
    split
    · exact h
    · exact State.drainFabric_canonical fuel (State.zack_canonical 0 h)
    · exact State.drainFabric_canonical fuel (State.persistentArrive_canonical 0 h)
    · exact State.drainFabric_canonical fuel (State.tokArrive_canonical 0 h)

theorem State.lineReset_canonical {s : State} (line : Nat) (h : s.MemoryCanonical) : (s.lineReset line).MemoryCanonical := by
  have t := State.mergeWhere_canonical (fun wb => wb.src.isSome) (State.drainFabric_canonical trafficBound h)
  unfold State.lineReset
  split
  · exact h
  · dsimp only
    split
    · exact t
    · refine State.tokensMoved_canonical _ (State.poisonBytes_canonical _ _ ?_)
      have u := fun ms ss tile => State.dropFlag_canonical
        (s := { (s.drainFabric trafficBound).mergeWhere (fun wb => wb.src.isSome) with msgs := ms, snoops := ss }) tile t
      exact u _ _ _

theorem State.writeBackMerge_canonical {s : State} (n : Nat) (h : s.MemoryCanonical) : (s.writeBackMerge n).MemoryCanonical := by
  unfold State.writeBackMerge
  split
  · exact h
  · rename_i wb _
    have t := canonical_foldl State.mergeBack (fun _ x ht => State.mergeBack_canonical x ht)
      (splitMerge s.variant (fun x => x.before s.variant wb) (s.writeBacks.take n)).1 h
    exact State.mergeBack_canonical (s := { List.foldl State.mergeBack s _ with writeBacks := _ }) wb t

/-! ### Management registers and submission queues -/

theorem State.regWrite_canonical {s : State} {off : Nat} {ok : Bool} {f : State → State} (h : s.MemoryCanonical) (hf : (f s).MemoryCanonical) :
    (s.regWrite off ok f).MemoryCanonical := canonical_ite hf h

theorem State.xlatchWrite_canonical {s : State} (v : Word) (h : s.MemoryCanonical) : (s.xlatchWrite v).MemoryCanonical := canonical_ite h h

theorem State.xlatchDone_canonical {s : State} (h : s.MemoryCanonical) : s.xlatchDone.MemoryCanonical := by
  have t := State.latchAll_canonical (State.performBegun_canonical h)
  exact canonical_ite h t

theorem State.pwrbudWrite_canonical {s : State} (v : Word) (h : s.MemoryCanonical) : (s.pwrbudWrite v).MemoryCanonical :=
  State.regWrite_canonical h h

theorem State.mgmtWrite_canonical {s : State} (off v : Nat) (h : s.MemoryCanonical) : (s.mgmtWrite off v).MemoryCanonical := by
  unfold State.mgmtWrite
  dsimp only
  repeat' refine canonical_ite ?_ ?_
  all_goals exact h

theorem State.setQueue_canonical {s : State} (q : Fin 64) (x : SubQueue) (h : s.MemoryCanonical) : (s.setQueue q x).MemoryCanonical := h

theorem State.sqTailUpdate_canonical {s : State} (q : Fin 64) (h : s.MemoryCanonical) : (s.sqTailUpdate q).MemoryCanonical := by
  unfold State.sqTailUpdate
  dsimp only
  split
  · exact h
  · split
    · exact h
    · have t := fun pa => State.physTouch_canonical pa 4 h
      exact canonical_ite (State.log_canonical _ (t _)) (canonical_ite (t _)
        (canonical_ite (State.log_canonical _ (State.setQueue_canonical _ _ (t _))) (State.setQueue_canonical _ _ (t _))))

theorem State.advanceHead_canonical {s : State} (q : Fin 64) (d : QueueDesc) (h : s.MemoryCanonical) : (s.advanceHead q d).MemoryCanonical := by
  unfold State.advanceHead
  dsimp only
  split
  · exact h
  · exact State.physWrite_canonical (s := { s.setQueue q _ with mgmt.turn := _ }) h ‹_›

theorem State.measureRuntime_canonical {s : State} (r : List Byte) (h : s.MemoryCanonical) : (s.measureRuntime r).MemoryCanonical := canonical_ite h h

theorem State.submissionRecord_canonical {s : State} (q : Fin 64) (h : s.MemoryCanonical) : (s.submissionRecord q).MemoryCanonical := by
  unfold State.submissionRecord
  dsimp only
  split
  · exact h
  · refine canonical_ite h ?_
    have t := fun pa => State.physTouch_canonical pa 1 h
    split
    · exact State.advanceHead_canonical _ _ (State.log_canonical _ (t _))
    · have u := fun pa => State.physTouch_canonical pa 256 (t pa)
      split
      all_goals have v := canonical_of_tryLaunch (u _) ‹_›
      · exact State.advanceHead_canonical _ _ (State.setQueue_canonical _ _ (State.measureRuntime_canonical _ v))
      · exact State.advanceHead_canonical _ _ v
      · exact State.advanceHead_canonical _ _ (State.log_canonical _ v)
      · exact v

theorem State.submissionNotReady_canonical {s : State} (q : Fin 64) (h : s.MemoryCanonical) : (s.submissionNotReady q).MemoryCanonical := by
  unfold State.submissionNotReady
  dsimp only
  split
  · exact h
  · exact canonical_ite h h

/-! ### The host's accesses, resets and faults of units -/

theorem State.hostReadAt_canonical : ∀ (n : Nat) {s : State} (pa : Nat), s.MemoryCanonical → (s.hostReadAt pa n).2.MemoryCanonical
  | 0, _, _, h => h
  | n + 1, s, pa, h => by
    unfold State.hostReadAt
    split
    · exact State.hostReadAt_canonical n _ h
    · exact State.hostReadAt_canonical n _ (canonical_ite h (State.acquire_canonical _ _ _ h))

theorem State.linkTrain_canonical {s : State} (n : Fin 18) (peer : BitVec 16) (h : s.MemoryCanonical) : (s.linkTrain n peer).MemoryCanonical :=
  canonical_ite h (canonical_ite h h)

theorem State.hostMemAccess_canonical {s : State} (op : HostOp) (pa len value : Nat) (h : s.MemoryCanonical) :
    (s.hostMemAccess op pa len value).MemoryCanonical := by
  have t := State.performUpTo_canonical s.posted.length h
  unfold State.hostMemAccess
  split
  · exact h
  · have u := State.hostReadAt_canonical len pa t
    exact canonical_ite h u
  · exact canonical_ite h (State.hostPuts_canonical _ _ t)
  · exact canonical_ite h h
  · split
    · exact h
    · exact canonical_ite h (State.performPosted_canonical _ h)
  · exact State.xlatchDone_canonical h
  · exact State.linkTrain_canonical _ _ h

/-- A reset drops the bytes of the dies and keeps those of host memory (R398). -/
theorem State.resetKeeping_canonical {s : State} (modnum mcpart pwrbud : Word) (h : s.MemoryCanonical) :
    (s.resetKeeping modnum mcpart pwrbud).MemoryCanonical := ⟨filter_wf _ h.1, h.2.sublist List.filter_sublist⟩

theorem State.warmReset_canonical {s : State} (h : s.MemoryCanonical) : s.warmReset.MemoryCanonical := State.resetKeeping_canonical _ _ _ h

theorem State.linkFailure_canonical {s : State} (l : LinkId) (h : s.MemoryCanonical) : (s.linkFailure l).MemoryCanonical := by
  cases l with
  | die a b => exact canonical_ite h (canonical_ite h (State.fatalError_canonical _ h))
  | kyorad n =>
    refine canonical_ite ?_ h
    exact State.endUnrouted_canonical (s := { s with mgmt.links := _ }) h

theorem State.powerPeriod_canonical {s : State} (requests : List (Option Nat)) (h : s.MemoryCanonical) : (s.powerPeriod requests).MemoryCanonical := h

theorem State.thermalTrip_canonical {s : State} (h : s.MemoryCanonical) : s.thermalTrip.MemoryCanonical :=
  State.fatalError_canonical (s := { s with mgmt.compute := _, mgmt.grants := _ }) _ h

theorem State.thermal_canonical {s : State} (die temp : Nat) (h : s.MemoryCanonical) : (s.thermal die temp).MemoryCanonical := by
  refine canonical_ite h (canonical_ite ?_ h)
  exact State.thermalTrip_canonical (s := { s with mgmt.hot := _, mgmt.throt := _ }) h

theorem State.spdm_canonical {s : State} (request nonce : Nat) (h : s.MemoryCanonical) : (s.spdm request nonce).MemoryCanonical := h

theorem State.strike_canonical {s : State} (cell : Nat) (reg : Option CellReg) (word : Nat) (h : s.MemoryCanonical) :
    (s.strike cell reg word).MemoryCanonical := h

theorem State.strikeMessage_canonical {s : State} (n : Nat) (h : s.MemoryCanonical) : (s.strikeMessage n).MemoryCanonical := by
  unfold State.strikeMessage
  split
  · exact h
  · refine canonical_ite ?_ h
    split
    · exact h
    · exact State.poisonBytes_canonical _ _ h

theorem State.uncorrectable_canonical {s : State} (u : ErrUnit) (h : s.MemoryCanonical) : (s.uncorrectable u).MemoryCanonical := by
  cases u with
  | sector key => exact State.poisonBytes_canonical _ _ h
  | sizeCode key => exact State.poisonBytes_canonical _ _ h
  | cached n i =>
    unfold State.uncorrectable
    dsimp only
    split <;> exact h
  | writeBack n =>
    unfold State.uncorrectable
    dsimp only
    split <;> exact h
  | sequencer => exact State.log_canonical _ (State.spreadEnds_canonical (State.setCtx_canonical _ h))
  | tokens line => exact State.lineReset_canonical line h
  | controller => exact State.fatalError_canonical _ h
  | message n => exact State.strikeMessage_canonical n h
  | unit u => exact canonical_ite h h
  | vec | tile | store | mask | flag | chunk | metadata => exact State.strike_canonical _ _ _ h
  | scratch off => exact State.setCtx_canonical _ h
  | zflag tile => exact ⟨h.1, h.2⟩

theorem State.restart_canonical {s : State} (id : Nat) (h : s.MemoryCanonical) : (s.restart id).MemoryCanonical := h

/-! ### Commands at work -/

theorem Job.start_canonical {j : Job} (h : j.s.MemoryCanonical) : j.start.s.MemoryCanonical := by
  unfold Job.start
  split
  · exact Job.startHldz_canonical h
  · exact Job.startHmcast_canonical h
  · exact Job.startStore_canonical h
  · exact Job.startStore_canonical h
  · exact Job.startStore_canonical h
  · exact Job.startZmap_canonical h
  · exact Job.startCopy_canonical h
  · exact Job.startCopy_canonical h
  · exact h
  · exact Job.startSbind_canonical h
  · exact h
  · exact h
  · exact Job.startPgreq_canonical h
  · exact Job.startScrlim_canonical h
  · exact Job.startRgrp_canonical h
  · exact Job.startLaunch_canonical h
  · exact Job.startCancel_canonical h
  · exact Job.startAbort_canonical h
  · exact Job.startCtxsave_canonical h
  · exact Job.startCtxload_canonical h
  · exact State.flushAll_canonical h
  · exact h

theorem State.commandStart_canonical {s : State} (n : Nat) (h : s.MemoryCanonical) : (s.commandStart n).MemoryCanonical := by
  unfold State.commandStart
  split
  · exact h
  · rename_i k _
    exact canonical_ite (Job.commit_canonical (Job.start_canonical (j := { s := s, c := k }) h)) h

theorem State.ticketDone_canonical {s : State} (n : Nat) (h : s.MemoryCanonical) : (s.ticketDone n).MemoryCanonical := by
  refine canonical_ite ?_ h
  split
  · exact h
  · exact State.endAway_canonical _ _ _ h

theorem Job.transfer_canonical {j : Job} (h : j.s.MemoryCanonical) : j.transfer.s.MemoryCanonical := by
  unfold Job.transfer
  split
  · exact Job.drainTile_canonical h
  · exact Job.drainTile_canonical h
  · exact Job.drainTile_canonical h
  · exact Job.drainTile_canonical h
  · exact Job.recordTile_canonical h
  · exact Job.copyTile_canonical h
  · exact Job.copyTile_canonical h
  · exact Job.zmapTile_canonical h
  · exact Job.csqz_canonical h
  · exact Job.cxpd_canonical h
  · exact Job.awaitPark_canonical h
  · exact h

theorem Job.punctual_canonical {j : Job} (h : j.s.MemoryCanonical) : j.punctual.s.MemoryCanonical := h

theorem State.transferTile_canonical {s : State} (n later : Nat) (h : s.MemoryCanonical) : (s.transferTile n later).MemoryCanonical := by
  unfold State.transferTile
  split
  · exact h
  · rename_i k _
    refine canonical_ite (Job.commit_canonical (Job.punctual_canonical ?_)) (canonical_ite (Job.commit_canonical (Job.punctual_canonical ?_)) h)
    · exact Job.flushOut_canonical (j := { s := s, c := { k with later := later } }) h
    · exact Job.transfer_canonical (j := { s := s, c := { k with later := later } }) h

/-! ### The wave slots -/

theorem State.inMember_canonical {s : State} (j : Nat) (f : Context → Context) (h : s.MemoryCanonical) : (s.inMember j f).MemoryCanonical :=
  canonical_ite h h

theorem State.drainOut_canonical {s : State} (i : Nat) (r : CellReg) (h : s.MemoryCanonical) : (s.drainOut i r).MemoryCanonical := by
  cases r with
  | xh => exact canonical_ite (State.inMember_canonical _ _ h) h
  | xv => exact canonical_ite (State.inMember_canonical _ _ h) h
  | v | m | g | f => exact h

theorem State.applyCell_canonical {s : State} (w : CellWrite) (h : s.MemoryCanonical) : (s.applyCell w).MemoryCanonical :=
  State.drainOut_canonical (s := { s with ctx := _ }) _ _ h

theorem State.meetErrs_canonical {s : State} (o : CellOut) (i : Nat) (h : s.MemoryCanonical) : (s.meetErrs o i).MemoryCanonical := h

theorem State.spoil_canonical {s : State} (i : Nat) (rs : List CellReg) (h : s.MemoryCanonical) : (s.spoil i rs).MemoryCanonical :=
  canonical_foldl _ (fun _ _ ht => State.applyCell_canonical _ ht) rs h

theorem State.putWrites_canonical {s : State} (ws : List CellWrite) (h : s.MemoryCanonical) : (s.putWrites ws).MemoryCanonical :=
  canonical_foldl State.applyCell (fun _ w ht => State.applyCell_canonical w ht) ws h

theorem State.putStored_canonical {s : State} (i : Nat) (o : Option (Nat × Bits × Nat)) (h : s.MemoryCanonical) : (s.putStored i o).MemoryCanonical := by
  cases o <;> exact h

theorem State.raiseAll_canonical {s : State} (slot i : Nat) (kinds : List Nat) (h : s.MemoryCanonical) : (s.raiseAll slot i kinds).MemoryCanonical := h

theorem runCell_canonical {a : WaveAcc} (slot : Nat) (late : Bool) (op : CellOp) (i : Nat) (h : a.s.MemoryCanonical) :
    (runCell slot late op a i).s.MemoryCanonical := by
  unfold runCell
  split
  · exact State.raiseAll_canonical _ _ _ (State.putStored_canonical _ _ (State.putWrites_canonical _
      (State.spoil_canonical _ _ (State.meetErrs_canonical _ _ h))))
  · exact h

theorem State.runWave_canonical {s : State} (slot : Nat) (late : Option Nat) (accum : Bool) (op : CellOp) (h : s.MemoryCanonical) :
    (s.runWave slot late accum op).MemoryCanonical := by
  have t := List.foldlRecOn (motive := fun a : WaveAcc => a.s.MemoryCanonical) (List.range s.cellCount) (runCell slot late.isSome op)
    (b := { s := s, late := [], evs := [] }) h (fun _ ha i _ => runCell_canonical slot _ op i ha)
  exact t

theorem State.stickW0_canonical {s : State} (i : Option Instr) (h : s.MemoryCanonical) : (s.stickW0 i).MemoryCanonical := h
theorem State.stickW1_canonical {s : State} (i : Option Instr) (h : s.MemoryCanonical) : (s.stickW1 i).MemoryCanonical := h
theorem State.stickM_canonical {s : State} (i : Option Instr) (h : s.MemoryCanonical) : (s.stickM i).MemoryCanonical := h

theorem runW0_canonical {s : State} (i : Instr) (late : Option Nat) (op : CellOp) (h : s.MemoryCanonical) : AnswersCanonical (runW0 i late op s) :=
  .next (State.stickW0_canonical _ (State.runWave_canonical _ _ _ _ h))

theorem runW1_canonical {s : State} (i : Instr) (late : Option Nat) (op : CellOp) (h : s.MemoryCanonical) : AnswersCanonical (runW1 i late op s) :=
  .next (State.stickW1_canonical _ (State.runWave_canonical _ _ _ _ h))

theorem runM_canonical {s : State} (i : Instr) (m : MOp) (accum : Bool) (op : CellOp) (h : s.MemoryCanonical) : AnswersCanonical (runM i m accum op s) :=
  .next (State.stickM_canonical _ (State.runWave_canonical _ _ _ _ h))

theorem State.fagg_canonical {s : State} (w : W1Move) (h : s.MemoryCanonical) : (s.fagg w).MemoryCanonical :=
  canonical_ite h (canonical_ite h (canonical_ite h h))

theorem State.waveStart_canonical {s : State} (w : WaveWord) (h : s.MemoryCanonical) : (s.waveStart w).MemoryCanonical := by
  unfold State.waveStart
  extract_lets js west north c t u
  have hu : u.MemoryCanonical := canonical_ite (canonical_foldl _ (fun _ j ht => State.inMember_canonical j _ ht) js (show t.MemoryCanonical from h)) h
  exact canonical_ite (State.inMember_canonical _ _ hu) hu

theorem waveExec_canonical {s : State} (i : Instr) (h : s.MemoryCanonical) : AnswersCanonical (waveExec i s) := by
  cases i with
  | vnop | wnop | mnop => exact .next h
  | vadd | vsub | vmul | vfma | vfms | vmin | vmax | vabs | vneg | vand | vor | vxor | vshl | vshr | vsra | vcmp | vsel | vcvt | vwmul | vwfma
  | vdot | vscale | vclass | vexp2 | vlog2 | vrcp | vrsq | vsqrt | vsinp | vcosp | vtanh | vrsum | vrmax | vrmin | vperm | vbcst | vmovi | vmov
  | vmask | vflag | viota => exact runW0_canonical _ _ _ h
  | xset | xget | xshf | cld | cst | cldm | cstm | fset | xside | mvm => exact runW1_canonical _ _ _ h
  | fagg w => exact runW1_canonical _ _ _ (State.fagg_canonical w h)
  | mma | mmas | mmaq | mmab | mzero | mcvt | mtrn | madd | mstat => exact runM_canonical _ _ _ _ h
  | _ => exact .next h

theorem execStick_canonical {s : State} (sel : BitVec 2) (rep : BitVec 8) (h : s.MemoryCanonical) : AnswersCanonical (execStick sel rep s) :=
  gated_canonical h (canonical_foldl _ (fun _ _ ht => stateOf_canonical ht (waveExec_canonical _ ht)) _ (State.waveStart_canonical _ h))

/-! ### Every instruction and every event -/

theorem exec_canonical {s : State} (i : Instr) (h : s.MemoryCanonical) : AnswersCanonical (exec i s) := by
  unfold exec
  cases i with
  | add | sub | mul | mulh | mulhn | div | divn | rem | remn | and | or | xor | andn | shl | shr | sra | rot | min | max | minn | maxn | lea =>
    exact op2_canonical _ _ _ _ h
  | clz | ctz | popc | bext | sext | zext | addi | andi | ori | xori | shli | shri | srai | qmov => exact op1_canonical _ _ _ h
  | movi => exact op0_canonical _ _ h
  | bins | movk => exact opMod_canonical _ _ _ h
  | cmp a b => exact gated_canonical h (State.setCtx_canonical _ (State.take_canonical b (State.take_canonical a h)))
  | msel _ a b => exact gated_canonical h (State.setCtx_canonical _ (State.take_canonical b (State.take_canonical a h)))
  | cmpi _ a | cqpush a | mtc a | mtcs a | mtsh _ a | jr a | callr a | exit a =>
    exact gated_canonical h (State.setCtx_canonical _ (State.take_canonical a h))
  | setc | mfc | mfcs => exact gated_canonical h (State.put_canonical _ _ h)
  | sel _ a b => exact gated_canonical h (State.put_canonical _ _ (State.take_canonical b (State.take_canonical a (State.setCtx_canonical _ h))))
  | nop | nopB | j | call | ret | cqdrop | waitq | barw | trap | sys | rft | ctxsw | halt | deq | qinfo => exact gated_canonical h h
  | tkwait => exact gated_canonical h (canonical_ite h h)
  | ld => exact execLd_canonical _ _ _ _ h
  | st d a => exact gated_canonical h (State.storeNum_canonical _ _ _ _ (State.take_canonical a (State.take_canonical d h)))
  | amo => exact execAmo_canonical _ _ _ _ _ _ h
  | cas => exact execCas_canonical _ _ _ _ _ h
  | amof => exact execAmof_canonical _ _ _ _ h
  | tktest => exact execTktest_canonical _ h
  | fence => exact execFence_canonical _ h
  | cwb => exact rangeOp_canonical _ _ (fun _ _ => State.cwb_canonical _ _) h
  | cinv => exact rangeOp_canonical _ _ (fun _ _ => State.cinv_canonical _ _) h
  | cflush => exact rangeOp_canonical _ _ (fun _ _ => State.cflush_canonical _ _) h
  | tlbi => exact execTlbi_canonical _ _ _ h
  | bkpt => exact .next (State.setCtx_canonical _ h)
  | brT | brF => exact branchIf_canonical _ _ h
  | loop => exact gated_canonical h (State.loopStart_canonical _ _ h)
  | loopv a | loops a => exact gated_canonical h (State.loopStart_canonical _ _ (State.take_canonical a h))
  | leave => exact execLeave_canonical h
  | yield => exact execYield_canonical h
  | bara => exact execBara_canonical _ h
  | stick => exact execStick_canonical _ _ h
  | vnop | wnop | mnop => exact .next h
  | vadd | vsub | vmul | vfma | vfms | vmin | vmax | vabs | vneg | vand | vor | vxor | vshl | vshr | vsra | vcmp | vsel | vcvt | vwmul | vwfma
  | vdot | vscale | vclass | vexp2 | vlog2 | vrcp | vrsq | vsqrt | vsinp | vcosp | vtanh | vrsum | vrmax | vrmin | vperm | vbcst | vmovi | vmov
  | vmask | vflag | viota => exact runW0_canonical _ _ _ h
  | xset | xget | xshf | cld | cst | cldm | cstm | fset | xside | mvm => exact runW1_canonical _ _ _ h
  | fagg w => exact runW1_canonical _ _ _ (State.fagg_canonical w h)
  | mma | mmas | mmaq | mmab | mzero | mcvt | mtrn | madd | mstat => exact runM_canonical _ _ _ _ h
  | sbind => exact execSbind_canonical _ h
  | sfree => exact execSfree_canonical _ h
  | hload | hstore | hstzTensor | copy | cfill => exact issueCmd_canonical _ _ _ (judgeHandles_canonical _ _ _) h
  | hgath | hscat => exact issueIndexed_canonical _ _ h
  | hldz | hstz | hmcast | zmap => exact issueCmd_canonical _ _ _ (judgeBy_canonical _) h
  | csqz | cxpd => exact issueCmd_canonical _ _ _ (judgeUnit_canonical _) h
  | reds | redd | bcst => exact issueCmd_canonical _ _ _ (judgeCollective_canonical _) h
  | tkjoin | rfence | pgreq | scrlim | rgrp | launch | cancel | abort => exact issueCmd_canonical _ _ _ judgeNone_canonical h
  | ctxsave | ctxload | flushall => exact issuePriv_canonical _ _ _ h
  | enq => exact execEnq_canonical _ h
  | resultLand | faggResult | dripTrayAppend | trapEntry => exact .next (State.setCtx_canonical _ h)
  | commandStart => exact .next (State.commandStart_canonical _ h)
  | transferTile => exact .next (State.transferTile_canonical _ _ h)
  | hatchFill => exact .next (State.hatchFill_canonical _ _ h)
  | hatchDrainTake => exact .next (State.hatchDrainTake_canonical _ _ h)
  | ticketComplete => exact .next (State.ticketDone_canonical _ h)
  | streamFetch => exact .next (State.streamFetch_canonical _ h)
  | streamStore => exact .next (State.streamStore_canonical _ h)
  | queueDecision => exact .next (State.queueDecision_canonical _ h)
  | spillMove => exact .next (State.spillMove_canonical _ _ _ h)
  | swWriteBackMerge => exact .next (State.writeBackMerge_canonical _ h)
  | gets | getx => exact .next (State.request_canonical _ _ _ h)
  | tok => exact .next (State.tokArrive_canonical _ h)
  | wb => exact .next (State.wbSend_canonical _ _ h)
  | pact => exact .next (canonical_ite (State.persistentEvent_canonical _ _ h) h)
  | pdeact => exact .next (State.persistentEvent_canonical _ _ h)
  | zclr => exact .next (State.zclr_canonical _ _ h)
  | zack => exact .next (State.zack_canonical _ h)
  | transientRetry => exact .next (State.transientRetry_canonical _ h)
  | persistentEscalation => exact .next (State.persistentEscalation_canonical _ h)
  | backInvalidateTimeout => exact .next (canonical_ite (State.fatalError_canonical _ h) h)
  | backInvalidateAnswer => exact .next (State.backInvalidateAnswer_canonical _ h)
  | lineReset => exact .next (State.lineReset_canonical _ h)
  | uncorrectableError => exact .next (State.uncorrectable_canonical _ h)
  | scratchSample => exact .next (canonical_ite (State.moveBlocks_canonical _ _ h) h)
  | groupFormation => exact .next (State.groupFormation_canonical _ h)
  | collectiveOperation => exact .next (State.collectiveOperation_canonical _ h)
  | stripeMerge => exact .next (State.stripeMerge_canonical _ _ _ h)
  | preemptionRequest => exact .next (State.preemptionRequest_canonical _ h)
  | landing => exact .next (State.landing_canonical h)
  | contextSwitch => exact .next (State.contextSwitch_canonical h)
  | drain => exact .next (State.drain_canonical h)
  | resumption => exact .next (State.resumption_canonical _ _ _ _ h)
  | dispatch => exact .next (State.dispatch_canonical _ _ _ _ h)
  | agingInterval => exact .next (State.agingInterval_canonical _ _ _ h)
  | rebalanceInterval => exact .next (State.rebalanceInterval_canonical _ h)
  | watchdogExpiry => exact .next (State.watchdogExpiry_canonical h)
  | pipelineEnd => exact .next (State.pipelineEnd_canonical _ h)
  | sqTailUpdate => exact .next (State.sqTailUpdate_canonical _ h)
  | submissionRecord => exact .next (State.submissionRecord_canonical _ h)
  | submissionNotReady => exact .next (State.submissionNotReady_canonical _ h)
  | hostMemAccess => exact .next (State.hostMemAccess_canonical _ _ _ _ h)
  | powerOnReset => exact .next (State.resetKeeping_canonical _ _ _ h)
  | conventionalReset | functionLevelReset => exact .next (State.warmReset_canonical h)
  | powerOff =>
    have t := State.resetKeeping_canonical 0 8 3400 h
    exact .next (s := { s.resetKeeping 0 8 3400 with power := false }) t
  | linkReplayFailure => exact .next (State.linkFailure_canonical _ h)
  | fatalError => exact .next (State.fatalError_canonical _ h)
  | powerArbiterPeriod => exact .next (State.powerPeriod_canonical _ h)
  | thermalThrottle => exact .next (State.thermal_canonical _ _ h)
  | thermalTrip => exact .next (canonical_ite h (State.thermalTrip_canonical h))
  | xlatchWrite => exact .next (canonical_ite (State.xlatchWrite_canonical _ h) h)
  | pwrbudWrite => exact .next (canonical_ite (State.pwrbudWrite_canonical _ h) h)
  | mgmtRegisterWrite => exact .next (State.mgmtWrite_canonical _ _ h)
  | getVersion | getCapabilities | negotiateAlgorithms | getCertificate | challenge | getMeasurements => exact .next (State.spdm_canonical _ _ h)
  | managementControllerRestart => exact .next (State.restart_canonical _ h)

/-! ### The sequencer -/

theorem State.run_canonical {s : State} (i : Instr) (h : s.MemoryCanonical) : (s.run i).MemoryCanonical := stateOf_canonical h (exec_canonical i h)

theorem runAll_canonical {s : State} (l : List Instr) (h : s.MemoryCanonical) : (l.foldl State.run s).MemoryCanonical :=
  canonical_foldl State.run (fun _ i ht => State.run_canonical i ht) l h

theorem State.takeTrap_canonical {s : State} (cause : Nat) (info : Word) (h : s.MemoryCanonical) : (s.takeTrap cause info).MemoryCanonical := h

theorem State.hold_canonical {s : State} (h : s.MemoryCanonical) : s.hold.MemoryCanonical := h

theorem State.background_canonical {s : State} (h : s.MemoryCanonical) : s.background.MemoryCanonical := by
  unfold State.background
  split
  · exact h
  · exact State.run_canonical (s := { s with ctx.polls := _, src := _ }) _ h

theorem State.rotate_canonical {s : State} (h : s.MemoryCanonical) : s.rotate.MemoryCanonical := by
  unfold State.rotate
  split <;> exact h

theorem State.turnOf_canonical {s : State} (n : Nat) (h : s.MemoryCanonical) : (s.turnOf n).MemoryCanonical := by
  unfold State.turnOf
  split <;> exact h

theorem State.wait_canonical {s : State} (h : s.MemoryCanonical) : s.wait.MemoryCanonical := State.rotate_canonical (State.background_canonical h)

theorem State.touchAhead_canonical {s : State} (ws : List Nat) (h : s.MemoryCanonical) : (s.touchAhead ws).MemoryCanonical :=
  canonical_foldl _ (fun _ a ht => State.touchCode_canonical _ a 4 ht) _ h

theorem State.holdIssue_canonical {s : State} (b : Bundle) (h : s.MemoryCanonical) : (s.holdIssue b).MemoryCanonical := by
  refine State.wait_canonical ?_
  exact State.setCtx_canonical _ h

theorem State.keepCellRegs_canonical {s : State} (b : Bundle) (h : s.MemoryCanonical) : (s.keepCellRegs b).MemoryCanonical := canonical_ite h h

theorem State.act_canonical {s : State} (b : Bundle) (h : s.MemoryCanonical) : (s.act b).MemoryCanonical := by
  have t := State.keepCellRegs_canonical b h
  unfold State.act
  extract_lets c u v
  have hv : v.MemoryCanonical := canonical_ite (runAll_canonical _ t) t
  split
  · exact State.run_canonical _ hv
  · exact runAll_canonical _ (State.waveStart_canonical _ hv)

theorem State.advance_canonical {s : State} (b : Bundle) (ws : List Nat) (h : s.MemoryCanonical) : (s.advance b ws).MemoryCanonical :=
  canonical_ite h h

theorem State.actAfter_canonical {s : State} (traps : Bool) (i : Instr) (h : s.MemoryCanonical) : (s.actAfter traps i).MemoryCanonical := by
  unfold State.actAfter
  split
  · exact State.run_canonical _ h
  · exact State.run_canonical _ h
  · exact canonical_ite h (State.run_canonical _ h)
  · exact h

theorem State.afterBundle_canonical {s : State} (b : Bundle) (h : s.MemoryCanonical) : (s.afterBundle b).MemoryCanonical := by
  unfold State.afterBundle
  extract_lets bOps trapping stepped t
  have ht : t.MemoryCanonical := canonical_foldl _ (fun _ i hu => State.actAfter_canonical _ i hu) bOps h
  refine canonical_ite ht ?_
  clear_value t trapping
  cases trapping with
  | nil => exact canonical_ite (State.takeTrap_canonical _ _ ht) ht
  | cons i r => exact State.run_canonical i ht

theorem State.settleEnd_canonical {s : State} (h : s.MemoryCanonical) : s.settleEnd.MemoryCanonical := by
  unfold State.settleEnd
  split
  · exact State.spreadEnds_canonical (State.setCtx_canonical _ h)
  · exact h

theorem State.touchData_canonical {s : State} (b : Bundle) (h : s.MemoryCanonical) : (s.touchData b).MemoryCanonical :=
  canonical_ite (canonical_foldl _ (fun _ _ ht => canonical_ite (State.fillPages_canonical _ _ _ ht) ht) _ h) h

theorem State.issue_canonical {s : State} (b : Bundle) (ws : List Nat) (h : s.MemoryCanonical) : (s.issue b ws).MemoryCanonical := by
  have a := State.advance_canonical b ws (State.act_canonical (s := { s with ahead := s.headers ws }) b h)
  unfold State.issue
  extract_lets t
  have ht : t.MemoryCanonical := a
  exact State.settleEnd_canonical (canonical_ite ht (State.afterBundle_canonical b ht))

theorem State.stopped_canonical {s : State} (b : Bundle) (v : Verdict) (h : s.MemoryCanonical) : (s.stopped b v).MemoryCanonical := by
  cases v with
  | go => exact h
  | hold => exact State.holdIssue_canonical b h
  | trap cause info => exact State.settleEnd_canonical (State.takeTrap_canonical _ _ h)

theorem State.tryIssue_canonical {s : State} (b : Bundle) (ws : List Nat) (h : s.MemoryCanonical) : (s.tryIssue b ws).MemoryCanonical := by
  have t := State.touchData_canonical b h
  refine canonical_ite (State.holdIssue_canonical b h) ?_
  split
  · exact canonical_ite (State.holdIssue_canonical b h) (State.issue_canonical b ws t)
  · exact State.holdIssue_canonical b h
  · exact State.stopped_canonical b _ (canonical_ite t h)

theorem State.issueBundle_canonical {s : State} (h : s.MemoryCanonical) : s.issueBundle.MemoryCanonical := by
  have f := State.fetchReady_canonical h
  unfold State.issueBundle
  dsimp only
  split
  · exact State.stopped_canonical _ _ f
  · have t := fun ws => canonical_ite (p := s.fetchReady.src.rep = 0) (State.touchAhead_canonical ws f) f
    split
    · exact State.stopped_canonical _ _ (t _)
    · split
      · exact State.stopped_canonical _ _ (t _)
      · exact State.tryIssue_canonical _ _ (t _)

theorem State.waitCycle_canonical {s : State} (h : s.MemoryCanonical) : s.waitCycle.MemoryCanonical := by
  refine State.wait_canonical ?_
  exact State.setCtx_canonical _ h

theorem State.runTurn_canonical {s : State} (h : s.MemoryCanonical) : s.runTurn.MemoryCanonical := by
  unfold State.runTurn
  extract_lets u c t
  have ht : t.MemoryCanonical := State.settleHalf_canonical h
  refine canonical_ite (State.spreadEnds_canonical (State.setCtx_canonical _ ht)) (canonical_ite (State.run_canonical _ ht) (canonical_ite
    (canonical_ite (State.run_canonical _ ht) (State.waitCycle_canonical ht)) ?_))
  split
  · exact State.settleEnd_canonical (State.takeTrap_canonical _ _ (State.setCtx_canonical _ ht))
  · have r := State.run_canonical .landing ht
    refine canonical_ite (canonical_ite (State.wait_canonical (State.hold_canonical r)) r) ?_
    exact State.issueBundle_canonical (s := { t with ctx.inWaitq := false }) ht

theorem State.landedTurn_canonical {s : State} (h : s.MemoryCanonical) : s.landedTurn.MemoryCanonical :=
  canonical_ite (canonical_ite (State.rotate_canonical (State.run_canonical _ h)) (State.wait_canonical h))
    (State.wait_canonical (State.run_canonical _ h))

theorem State.endTurn_canonical {s : State} (h : s.MemoryCanonical) : s.endTurn.MemoryCanonical := by
  have t := State.settleHalf_canonical h
  have w := State.wait_canonical t
  exact canonical_ite w (canonical_ite w (canonical_ite (canonical_ite w (State.wait_canonical (State.setCtx_canonical _ t)))
    (State.wait_canonical (State.finishEnding_canonical t))))

theorem State.share_canonical {s : State} (n : Nat) (h : s.MemoryCanonical) : (s.share n).MemoryCanonical := canonical_ite (State.wait_canonical h) h

theorem State.turn_canonical {s : State} (h : s.MemoryCanonical) : s.turn.MemoryCanonical := by
  unfold State.turn
  extract_lets t
  have ht : t.MemoryCanonical := h
  refine canonical_ite (State.rotate_canonical ht) (canonical_ite ht ?_)
  split
  · exact canonical_ite (State.share_canonical _ (State.runTurn_canonical ht)) (canonical_ite (State.run_canonical _ ht) (State.wait_canonical ht))
  · exact State.landedTurn_canonical ht
  · exact State.endTurn_canonical ht
  · exact State.wait_canonical ht

/-! ### The step -/

theorem State.tick_canonical {s : State} (h : s.MemoryCanonical) : s.tick.MemoryCanonical := by
  have t : (if s.devFaults = [] then s else s.takeDevFaults).MemoryCanonical := canonical_ite h (State.takeDevFaults_canonical h)
  exact t

theorem ticked_canonical {r : Host.Outcome State Fault Refusal} (h : AnswersCanonical r) : AnswersCanonical (ticked r) := by
  cases r with
  | next s => exact .next (State.tick_canonical (h s rfl))
  | fault | refused => rintro _ ⟨⟩

theorem State.take1_canonical {s : State} (i : Input) (h : s.MemoryCanonical) : AnswersCanonical (s.take1 i) := by
  cases i with
  | turn n => exact .next (State.turnOf_canonical n h)
  | event e =>
    unfold State.take1
    dsimp only
    split
    · exact .next h
    · exact exec_canonical (s := { s with src := s.ctx }) e h

theorem step_canonical {s : State} (h : s.MemoryCanonical) : AnswersCanonical (step s) := by
  unfold step
  split
  · split
    · exact ticked_canonical (State.take1_canonical (s := { s with inputs := _ }) _ h)
    · rintro _ ⟨⟩
  · split
    · exact .next (State.tick_canonical (State.turn_canonical h))
    · rintro _ ⟨⟩

/-- Settles O60: whatever the step is made of, an instruction or an event through `exec`, a turn of the sequencer, or the faults of the device
that the tick takes, each of its operations keeps memory canonical. -/
theorem stepKeepsMemoryCanonical : Obligations.StepKeepsMemoryCanonical := by
  unfold Obligations.StepKeepsMemoryCanonical
  intro s t h e
  exact step_canonical h t e

end Sys2Proof.Machine
end

section
/-! # Operands and results

What one read of an operand field and one write of a destination field do to the registers, the streams and the drip tray of the
context on turn (R6 to R8, R49, R50). -/

namespace Sys2Proof.Machine

/-! ### Registers -/

@[simp] theorem Context.setReg_zero (c : Context) (w : Word) : c.setReg 0 w = c := rfl

theorem Context.reg_setReg_self (c : Context) {n : Fin 48} (h : n ≠ 0) (w : Word) : (c.setReg n w).reg n = w := by
  have h0 : n.val ≠ 0 := fun e => h (Fin.ext e)
  simp [Context.reg, Context.setReg, h0]

theorem Context.reg_setReg_ne (c : Context) {n m : Fin 48} (h : m ≠ n) (w : Word) : (c.setReg n w).reg m = c.reg m := by
  have hv : n.val ≠ m.val := fun e => h (Fin.ext e.symm)
  unfold Context.setReg
  split
  · rfl
  · simp [Context.reg, Vector.getElem_set_ne _ _ hv]

/-! ### Streams -/

theorem Context.pushStream_self (c : Context) (q : Fin 16) (e : StreamElem) :
    (c.pushStream q e).streams[q] = { c.streams[q] with taken := c.streams[q].taken + 1, buf := c.streams[q].buf ++ [e] } := by
  simp [Context.pushStream]

theorem Context.pushStream_ne (c : Context) {q r : Fin 16} (h : r ≠ q) (e : StreamElem) : (c.pushStream q e).streams[r] = c.streams[r] := by
  have hv : q.val ≠ r.val := fun e => h (Fin.ext e.symm)
  simp [Context.pushStream, Vector.getElem_set_ne _ _ hv]

theorem Context.popStream_self (c : Context) (q : Fin 16) :
    (c.popStream q).streams[q] = { c.streams[q] with taken := c.streams[q].taken + 1, buf := c.streams[q].buf.tail } := by
  simp [Context.popStream]

theorem Context.popStream_ne (c : Context) {q r : Fin 16} (h : r ≠ q) : (c.popStream q).streams[r] = c.streams[r] := by
  have hv : q.val ≠ r.val := fun e => h (Fin.ext e.symm)
  simp [Context.popStream, Vector.getElem_set_ne _ _ hv]

/-! ### One result -/

theorem Context.setReg_eq (c : Context) (n : Fin 48) (w : Word) : c.setReg n w = { c with regs := (c.setReg n w).regs } := by
  by_cases h : n.val = 0 <;> simp [Context.setReg, h]

theorem OnlyOperands.of_eq {s t : State} {r : Vector Word 48} {q : Vector Stream 16} {d : List DripRec} {h : DripHalf}
    (e : t = { s with ctx.regs := r, ctx.streams := q, ctx.drip := d, ctx.dripHalf := h }) : OnlyOperands s t := by
  subst e
  rfl

theorem State.put_onlyOperands (s : State) (d : Opnd) (w : Word) : OnlyOperands s (s.put d w) := by
  cases d with
  | s n => exact .of_eq <| congrArg s.setCtx (s.ctx.setReg_eq n w)
  | q n => rfl

theorem State.put_regsBut (s : State) (d : Opnd) (w : Word) : RegsBut [d] s (s.put d w) := by
  intro m hm
  cases d with
  | s n => exact Context.reg_setReg_ne _ (fun e => hm (by simp [e])) w
  | q n => rfl

theorem State.put_streamsBut (s : State) (d : Opnd) (w : Word) : StreamsBut [d] s (s.put d w) := by
  cases d with
  | s n => simp [StreamsBut, State.put]
  | q n => exact ⟨fun q hq => Context.pushStream_ne _ (fun e => hq (by simp [e])) _, fun _ => ⟨rfl, rfl⟩⟩

/-- Settles O6: a register or a stream takes the value, and `State.put` writes nothing else. -/
theorem resultReachesDestination : Obligations.ResultReachesDestination := by
  unfold Obligations.ResultReachesDestination
  intro s w
  refine ⟨rfl, fun n hn => Context.reg_setReg_self _ hn w, fun q => ?_, fun d => ⟨?_, ?_, ?_⟩⟩
  · rw [show (s.put (.q q) w).ctx = s.ctx.pushStream q (.value w) from rfl, Context.pushStream_self]
    exact ⟨rfl, rfl⟩
  · exact State.put_onlyOperands s d w
  · exact State.put_regsBut s d w
  · exact State.put_streamsBut s d w

/-! ### Reads -/

theorem SameButStreams.onlyOperands {s t : State} (h : SameButStreams s t) : OnlyOperands s t := by
  unfold SameButStreams at h
  rw [h]
  rfl

theorem SameButStreams.regs {s t : State} (h : SameButStreams s t) : t.ctx.regs = s.ctx.regs := by
  rw [h]

theorem StreamsBut.mono {os ps : List Opnd} {s t : State} (h : StreamsBut os s t) (k : ∀ o ∈ os, o ∈ ps) : StreamsBut ps s t :=
  ⟨fun q hq => h.1 q (fun m => hq (k _ m)), fun hq => h.2 (fun m => hq (k _ m))⟩

theorem StreamsBut.trans {os : List Opnd} {s t u : State} (h : StreamsBut os s t) (k : StreamsBut os t u) : StreamsBut os s u := by
  refine ⟨fun q hq => (k.1 q hq).trans (h.1 q hq), fun hq => ?_⟩
  obtain ⟨h1, h2⟩ := h.2 hq
  obtain ⟨k1, k2⟩ := k.2 hq
  exact ⟨k1.trans h1, k2.trans h2⟩

theorem State.take_streamsBut (s : State) (o : Opnd) : StreamsBut [o] s (s.take o).2 := by
  cases o with
  | s n => exact ⟨fun _ _ => rfl, fun _ => ⟨rfl, rfl⟩⟩
  | q n =>
    simp only [State.take]
    split
    · next h15 =>
      have hn : n = 15 := Fin.ext h15
      exact ⟨fun q _ => by simp, fun h => absurd (by simp [hn]) h⟩
    · split
      · exact ⟨fun q hq => Context.popStream_ne _ (fun e => hq (by simp [e])), fun _ => ⟨rfl, rfl⟩⟩
      · exact ⟨fun _ _ => rfl, fun _ => ⟨rfl, rfl⟩⟩

theorem State.takeAll_streamsBut : ∀ (os : List Opnd) (s : State), StreamsBut os s (s.takeAll os).2
  | [], _ => ⟨fun _ _ => rfl, fun _ => ⟨rfl, rfl⟩⟩
  | o :: os, s =>
    ((State.take_streamsBut s o).mono (by simp)).trans ((State.takeAll_streamsBut os (s.take o).2).mono (fun _ h => List.mem_cons_of_mem _ h))

/-- A stream other than q15 whose next element can be read loses that element. -/
theorem State.take_stream {s : State} {q : Fin 16} {w : Word} (hq : q ≠ 15) (h : s.peek Claims.none (.q q) = .ok w) :
    s.take (.q q) = (w, s.setCtx (s.ctx.popStream q)) := by
  have h15 : q.val ≠ 15 := fun e => hq (Fin.ext e)
  rw [State.peek, if_neg h15] at h
  simp only [Claims.none, List.count_nil] at h
  simp [State.take, h15, h]

theorem State.Delivers.peek {s : State} {o : Opnd} {w : Word} (h : s.Delivers [o] [w]) : s.peek Claims.none o = .ok w := by
  simp only [State.Delivers, State.peekAll] at h
  cases hp : s.peek Claims.none o <;> simp_all

theorem State.reading_single (s : State) (o : Opnd) : s.reading [o] = (s.take o).2 := rfl

/-- Settles O7: each read is one `State.take`, which changes the streams and the drip tray alone. -/
theorem operandsLeaveRestAlone : Obligations.OperandsLeaveRestAlone := by
  unfold Obligations.OperandsLeaveRestAlone
  intro s os
  have same := State.takeAll_same os s
  refine ⟨same.onlyOperands, fun n _ => ?_, State.takeAll_streamsBut os s, fun ws h => State.takeAll_peekAll h, fun q w hq h => ?_⟩
  · simp only [Context.reg, State.reading, same.regs]
  · rw [State.reading_single, State.take_stream hq h.peek, State.setCtx_ctx, Context.popStream_self]
    exact ⟨rfl, rfl⟩

end Sys2Proof.Machine
end

section
/-! # Where a completed bundle leads

The end action of a loop body, from the innermost entry out, and the move of the pc at the end of a bundle (R17, R21, R75, R78). -/

namespace Sys2Proof.Machine

/-- Entries that end at `a` with no iteration remaining are popped, whatever stands under them. -/
theorem loopEnd_exhausted {a : Nat} (rest : List LoopEntry) : ∀ {ended : List LoopEntry}, (∀ e ∈ ended, e.last = a ∧ e.remain = 0) →
    loopEnd a (ended ++ rest) = loopEnd a rest
  | [], _ => rfl
  | e :: ended, h => by
    obtain ⟨⟨hlast, hremain⟩, hrest⟩ := List.forall_mem_cons.mp h
    rw [List.cons_append, loopEnd, if_pos hlast, if_neg (by omega)]
    exact loopEnd_exhausted rest hrest

theorem loopEnd_elsewhere {a : Nat} {l : List LoopEntry} (h : ∀ e r, l = e :: r → e.last ≠ a) : loopEnd a l = (none, l) := by
  cases l with
  | nil => rfl
  | cons e r => rw [loopEnd, if_neg (h e r rfl)]

theorem loopEnd_again {a : Nat} {e : LoopEntry} (r : List LoopEntry) (hlast : e.last = a) (hremain : 0 < e.remain) :
    loopEnd a (e :: r) = (some e.first, { e with idx := e.idx + 1, remain := e.remain - 1 } :: r) := by
  rw [loopEnd, if_pos hlast, if_pos hremain]

section
variable {c src : Context} (hgoto : c.goto = none) (len : Nat)
include hgoto

/-- After the second delay bundle the pending target follows (R21, R75). -/
theorem Context.complete_afterDelays (hd : src.dsc = 1) :
    c.complete src len = { c with pc := if src.late then src.pc + len else src.target.toNat, dsc := 0, target := 0, late := false } := by
  rw [Context.complete, hgoto]
  exact if_pos hd

/-- Otherwise the end action of the loop stack decides (R17, R78). -/
theorem Context.complete_loopEnd (hd : src.dsc ≠ 1) :
    c.complete src len = { c with dsc := if src.dsc = 0 then c.dsc else src.dsc - 1, pc := (loopEnd src.pc c.loops).1.getD (src.pc + len),
                                  loops := (loopEnd src.pc c.loops).2 } := by
  by_cases h0 : src.dsc = 0
  · simp only [Context.complete, hgoto, if_neg hd, if_pos h0]
    rcases loopEnd src.pc c.loops with ⟨_ | _, _⟩ <;> rfl
  · simp only [Context.complete, hgoto, if_neg hd, if_neg h0]
    rcases loopEnd src.pc c.loops with ⟨_ | _, _⟩ <;> rfl

end

/-- Settles O25: entries of the loop stack that are exhausted are popped together, and the case distinction is that of `Context.complete`. -/
theorem loopEndAction : Obligations.LoopEndAction := by
  unfold Obligations.LoopEndAction
  intro c src len ended rest hgoto hloops hended
  have hend : loopEnd src.pc c.loops = loopEnd src.pc rest := by rw [hloops, loopEnd_exhausted rest hended]
  refine ⟨fun hd hrest => ?_, fun hd e r hrest hlast hremain => ?_, fun hd => ?_, fun hd => ?_⟩
  · rw [Context.complete_loopEnd hgoto len hd, hend, loopEnd_elsewhere hrest]
    exact ⟨rfl, rfl⟩
  · rw [Context.complete_loopEnd hgoto len hd, hend, hrest, loopEnd_again r hlast hremain]
    exact ⟨rfl, rfl⟩
  · rw [Context.complete_afterDelays hgoto len hd]
    exact ⟨rfl, rfl, rfl, rfl⟩
  · rw [Context.complete_loopEnd hgoto len (by omega)]
    simp [hd]

end Sys2Proof.Machine
end

section
/-! # Arrivals

What lands at a context after the issue that caused it: results under bounds, flag aggregates and event records (R18, R98, R129, R160,
R322), one at a time and all together (R25, R313). -/

namespace Sys2Proof.Machine

/-! ### The frame of every arrival -/

/-- `d` differs from `c` in what results, flag aggregates and event records write, and in the lists of those under way, at most. -/
def OnlyArrivals (c d : Context) : Prop :=
  d = { c with regs := d.regs, streams := d.streams, reports := d.reports, cells := d.cells, cellErrs := d.cellErrs, cq := d.cq, z := d.z,
               cellRegs := d.cellRegs, drip := d.drip, dtlost := d.dtlost, pend := d.pend, faggs := d.faggs, dripFlights := d.dripFlights }

theorem OnlyArrivals.refl (c : Context) : OnlyArrivals c c := rfl

theorem OnlyArrivals.trans {c d e : Context} (h : OnlyArrivals c d) (k : OnlyArrivals d e) : OnlyArrivals c e := by
  unfold OnlyArrivals at *
  rw [k, h]

theorem OnlyArrivals.foldl {α : Type} {f : Context → α → Context} (h : ∀ c a, OnlyArrivals c (f c a)) (l : List α) :
    ∀ c, OnlyArrivals c (l.foldl f c) := by
  induction l with
  | nil => exact OnlyArrivals.refl
  | cons a l ih => exact fun c => (h c a).trans (ih _)

/-- A field that each step of a fold keeps, the whole fold keeps. -/
theorem foldl_keeps {α β : Type} {f : Context → α → Context} (field : Context → β) (h : ∀ c a, field (f c a) = field c) (l : List α) :
    ∀ c, field (l.foldl f c) = field c := by
  induction l with
  | nil => exact fun _ => rfl
  | cons a l ih => exact fun c => (ih _).trans (h c a)

/-! ### Results -/

/-- A result that consumed poison makes its report, and drops the stream element that it owes (R322). -/
theorem Context.landOne_poisoned {c : Context} {p : Pending} {source : Nat} (h : p.poison = some source) :
    ∃ q, c.landOne p = { c.report p.made source p.addr with streams := q } := by
  unfold Context.landOne
  rw [h]
  cases p.dest <;> exact ⟨_, rfl⟩

theorem Context.landOne_reg {c : Context} {p : Pending} {n : Fin 48} (h : p.poison = none) (hd : p.dest = .reg n) :
    c.landOne p = c.setReg n p.value := by
  simp only [Context.landOne, h, hd]

theorem Context.landOne_stream {c : Context} {p : Pending} {q : Fin 16} {tag : Nat} (h : p.poison = none) (hd : p.dest = .stream q tag) :
    c.landOne p = c.fillStream q tag p.value := by
  simp only [Context.landOne, h, hd]

theorem Context.landOne_cells {c : Context} {p : Pending} (h : p.poison = none) (hd : p.dest = .cells) :
    c.landOne p = p.writes.foldl Context.applyWrite c := by
  simp only [Context.landOne, h, hd]

theorem Context.landOne_none {c : Context} {p : Pending} (h : p.poison = none) (hd : p.dest = .none) : c.landOne p = c := by
  simp only [Context.landOne, h, hd]

/-- `d` differs from `c` in the scalar registers, the streams, the reports and the cells, at most. -/
def OnlyResults (c d : Context) : Prop :=
  d = { c with regs := d.regs, streams := d.streams, reports := d.reports, cells := d.cells, cellErrs := d.cellErrs }

theorem OnlyResults.arrivals {c d : Context} (h : OnlyResults c d) : OnlyArrivals c d := by
  unfold OnlyResults at h
  rw [h]
  rfl

theorem OnlyResults.trans {c d e : Context} (h : OnlyResults c d) (k : OnlyResults d e) : OnlyResults c e := by
  unfold OnlyResults at *
  rw [k, h]

theorem applyWrites_onlyResults (ws : List CellWrite) : ∀ c : Context, OnlyResults c (ws.foldl Context.applyWrite c) := by
  induction ws with
  | nil => exact fun _ => rfl
  | cons w ws ih => exact fun c => OnlyResults.trans (d := c.applyWrite w) rfl (ih _)

theorem Context.setReg_onlyResults (c : Context) (n : Fin 48) (w : Word) : OnlyResults c (c.setReg n w) := by
  unfold Context.setReg
  split <;> rfl

theorem Context.landOne_onlyResults (c : Context) (p : Pending) : OnlyResults c (c.landOne p) := by
  cases h : p.poison with
  | some source =>
    obtain ⟨q, e⟩ := Context.landOne_poisoned (c := c) h
    rw [e]
    rfl
  | none =>
    cases hd : p.dest with
    | reg n => rw [Context.landOne_reg h hd]; exact Context.setReg_onlyResults ..
    | stream q tag => rw [Context.landOne_stream h hd]; rfl
    | cells => rw [Context.landOne_cells h hd]; exact applyWrites_onlyResults ..
    | none => rw [Context.landOne_none h hd]; rfl

theorem Context.landAll_arrivals (c : Context) : OnlyArrivals c c.landAll :=
  OnlyArrivals.trans (d := { c with pend := [] }) rfl (OnlyArrivals.foldl (fun c p => (c.landOne_onlyResults p).arrivals) _ _)

theorem Context.landAll_pend (c : Context) : c.landAll.pend = [] :=
  foldl_keeps Context.pend (fun c p => by rw [Context.landOne_onlyResults c p]) _ _

theorem exec_resultLand (n : Nat) (s : State) : exec (.resultLand n) s = .next (s.setCtx (s.ctx.resultLand n)) := rfl

/-- The result that stands after `l` in the list of those outstanding lands, unless an accumulation of `l` must come first (R160). -/
theorem Context.resultLand_eq {c : Context} {p : Pending} {l r : List Pending} (h : c.pend = l ++ p :: r)
    (hl : ∀ o ∈ l, o.chained p = false) : c.resultLand l.length = ({ c with pend := l ++ r } : Context).landOne p := by
  have hany : l.any (fun q => q.chained p) = false := by simpa using hl
  have herase : (l ++ p :: r).eraseIdx l.length = l ++ r := by simp [List.eraseIdx_append]
  simp [Context.resultLand, h, hany, herase]

theorem Context.resultLand_chained {c : Context} {p : Pending} {l r : List Pending} (h : c.pend = l ++ p :: r)
    (hl : ∃ o ∈ l, o.chained p = true) : c.resultLand l.length = c := by
  have hany : l.any (fun q => q.chained p) = true := by simpa using hl
  simp [Context.resultLand, h, hany]

theorem Pending.chained_of_not_acc {p : Pending} (h : p.acc = false) (o : Pending) : o.chained p = false := by
  simp [Pending.chained, h]

/-! ### Flag aggregates and event records -/

/-- A flag aggregate writes a queue entry, a selector or a report. -/
theorem Context.arriveFagg_eq (c : Context) (f : FaggFlight) :
    c.arriveFagg f = { c with cq := (c.arriveFagg f).cq, reports := (c.arriveFagg f).reports, z := (c.arriveFagg f).z,
                              cellRegs := (c.arriveFagg f).cellRegs } := by
  unfold Context.arriveFagg
  split
  · dsimp only
    split <;> rfl
  · split <;> rfl
  · split <;> rfl

theorem Context.arriveFagg_arrivals (c : Context) (f : FaggFlight) : OnlyArrivals c (c.arriveFagg f) := by
  rw [Context.arriveFagg_eq]
  rfl

theorem Context.arriveAllFaggs_arrivals (c : Context) : OnlyArrivals c c.arriveAllFaggs :=
  OnlyArrivals.trans (d := { c with faggs := [] }) rfl (OnlyArrivals.foldl Context.arriveFagg_arrivals _ _)

/-- The events of a record's arrival touch the tray and the count of lost records alone. -/
theorem Context.dripAppend_eq (c : Context) (r : DripRec) :
    c.dripAppend r = { c with drip := (c.dripAppend r).drip, dtlost := (c.dripAppend r).dtlost } := by
  unfold Context.dripAppend
  dsimp only
  split
  · rfl
  · split <;> rfl

theorem Context.dripLand_arrivals (c : Context) (f : DripFlight) : OnlyArrivals c (c.dripLand f) :=
  OnlyArrivals.foldl (fun c r => by rw [Context.dripAppend_eq]; rfl) _ _

theorem Context.dripLandAll_arrivals (c : Context) : OnlyArrivals c c.dripLandAll :=
  OnlyArrivals.trans (d := { c with dripFlights := [] }) rfl (OnlyArrivals.foldl Context.dripLand_arrivals _ _)

/-! ### Everything under way lands -/

theorem Context.quiesce_arrivals (c : Context) : OnlyArrivals c c.quiesce :=
  (c.landAll_arrivals.trans (Context.arriveAllFaggs_arrivals _)).trans (Context.dripLandAll_arrivals _)

@[simp] theorem Context.quiesce_pend (c : Context) : c.quiesce.pend = [] := by
  have h2 : c.landAll.arriveAllFaggs.pend = c.landAll.pend := foldl_keeps Context.pend (fun c f => by rw [Context.arriveFagg_eq]) _ _
  have h3 : c.quiesce.pend = c.landAll.arriveAllFaggs.pend :=
    foldl_keeps Context.pend (fun c f => foldl_keeps Context.pend (fun c r => by rw [Context.dripAppend_eq]) _ _) _ _
  rw [h3, h2, Context.landAll_pend]

@[simp] theorem Context.quiesce_faggs (c : Context) : c.quiesce.faggs = [] := by
  have h2 : c.landAll.arriveAllFaggs.faggs = [] := foldl_keeps Context.faggs (fun c f => by rw [Context.arriveFagg_eq]) _ _
  have h3 : c.quiesce.faggs = c.landAll.arriveAllFaggs.faggs :=
    foldl_keeps Context.faggs (fun c f => foldl_keeps Context.faggs (fun c r => by rw [Context.dripAppend_eq]) _ _) _ _
  rw [h3, h2]

@[simp] theorem Context.quiesce_dripFlights (c : Context) : c.quiesce.dripFlights = [] :=
  foldl_keeps Context.dripFlights (fun c f => foldl_keeps Context.dripFlights (fun c r => by rw [Context.dripAppend_eq]) _ _) _ _

/-! ### A result lands before its bound -/

theorem fillOwed_eq {tag : Nat} {w : Word} : ∀ {u : List StreamElem} {v : List StreamElem}, .owed tag ∉ u →
    fillOwed tag w (u ++ .owed tag :: v) = u ++ .value w :: v
  | [], _, _ => by simp [fillOwed]
  | e :: u, v, h => by
    obtain ⟨he, hu⟩ := not_or.mp (mt List.mem_cons.mpr h)
    have ih := fillOwed_eq (w := w) (v := v) hu
    cases e with
    | owed t =>
      have ht : t ≠ tag := fun e => he (by rw [e])
      simp [fillOwed, ht, ih]
    | value | poisoned | fault => simp [fillOwed, ih]

theorem Context.fillStream_self (c : Context) (q : Fin 16) (tag : Nat) (w : Word) :
    (c.fillStream q tag w).streams[q].buf = fillOwed tag w c.streams[q].buf := by
  simp [Context.fillStream]

theorem Context.reg_setReg (c : Context) (n : Fin 48) (w : Word) : (c.setReg n w).reg n = if n = 0 then 0 else w := by
  split
  · next h => rw [h]; rfl
  · next h => exact Context.reg_setReg_self c h w

/-- A result that writes no cell leaves the cells alone. -/
theorem Context.landOne_cells_eq (c : Context) {p : Pending} (h : p.writes = []) : (c.landOne p).cells = c.cells := by
  cases hp : p.poison with
  | some source =>
    obtain ⟨q, e⟩ := Context.landOne_poisoned (c := c) hp
    rw [e]
    rfl
  | none =>
    cases hd : p.dest with
    | reg n => simp [Context.landOne_reg hp hd]
    | stream q tag => rw [Context.landOne_stream hp hd]; rfl
    | cells => rw [Context.landOne_cells hp hd, h]; rfl
    | none => rw [Context.landOne_none hp hd]

/-- A result that is owed to a stream, or that consumed poison, leaves the scalar registers alone. -/
theorem Context.landOne_regs {c : Context} {p : Pending} (h : p.poison ≠ none ∨ ∃ q tag, p.dest = .stream q tag) : (c.landOne p).regs = c.regs := by
  cases hp : p.poison with
  | some source =>
    obtain ⟨q, e⟩ := Context.landOne_poisoned (c := c) hp
    rw [e]
    rfl
  | none =>
    obtain ⟨q, tag, hd⟩ := h.resolve_left (fun n => n hp)
    rw [Context.landOne_stream hp hd]
    rfl

theorem Context.landOne_reports {c : Context} {p : Pending} {source : Nat} (h : p.poison = some source) :
    (c.landOne p).reports = c.reports ++ [{ issue := p.made, info := poisonInfo source p.addr, held := false }] := by
  obtain ⟨q, e⟩ := Context.landOne_poisoned (c := c) h
  rw [e]
  rfl

/-- Settles O13: `Context.landOne` by the kind of destination, poisoned or not. -/
theorem resultLandsAtDestination : Obligations.ResultLandsAtDestination := by
  unfold Obligations.ResultLandsAtDestination
  intro s p l r hp hw hacc
  let c : Context := { s.ctx with pend := l ++ r }
  have hland : s.ctx.resultLand l.length = c.landOne p := Context.resultLand_eq hp (fun o _ => Pending.chained_of_not_acc hacc o)
  have frame := c.landOne_onlyResults p
  have hpend : (c.landOne p).pend = l ++ r := by rw [frame]
  refine ⟨s.setCtx (c.landOne p), by rw [exec_resultLand, hland], rfl, ?_, ?_, c.landOne_cells_eq hw, fun n hd _ => ⟨hpend, fun h => ?_⟩,
    fun q tag hd => ⟨hpend, Context.landOne_regs (.inr ⟨q, tag, hd⟩), fun h u v hbuf hu => ?_⟩,
    fun source h _ => ⟨Context.landOne_regs (.inl (by simp [h])), Context.landOne_reports h⟩⟩
  · rw [State.setCtx_ctx, frame]
  · rw [State.setCtx_ctx, frame]
    rfl
  · rw [Context.landOne_reg h hd]
    exact ⟨Context.reg_setReg .., fun m hm => Context.reg_setReg_ne c (fun e => hm (by simp [e])) _, by simp [c]⟩
  · rw [Context.landOne_stream h hd, State.setCtx_ctx, Context.fillStream_self, hbuf, fillOwed_eq hu]

end Sys2Proof.Machine
end

section
/-! # Results in the cells

A cell result that lands replaces the registers that its writes name, each on its own, and no other register of any cell (R18, R160). -/

namespace Sys2Proof.Machine

/-- What a register reads after it is written depends on what is written alone. -/
theorem CellState.get_set_self (c d : CellState) (r : CellReg) (v p : Nat) : (c.set r v p).get r = (d.set r v p).get r := by
  cases r with
  | v n | m n | g n => simp only [CellState.set, CellState.get, Fin.getElem_fin, Vector.getElem_set_self]
  | f | xh | xv => rfl

@[simp] theorem Context.applyWrite_length (c : Context) (w : CellWrite) : (c.applyWrite w).cells.length = c.cells.length := by
  simp [Context.applyWrite, Context.setCell]

theorem Context.cell_applyWrite (c : Context) (w : CellWrite) (i : Nat) :
    (c.applyWrite w).cell i = if w.cell = i ∧ i < c.cells.length then (c.cell i).write w else c.cell i :=
  c.cell_setCell w.cell i _

theorem Context.get_applyWrite_ne (c : Context) {w : CellWrite} {i : Nat} {r : CellReg} (h : w.cell ≠ i ∨ w.reg ≠ r) :
    ((c.applyWrite w).cell i).get r = (c.cell i).get r := by
  rw [Context.cell_applyWrite]
  split
  · next e => exact CellState.get_write _ _ _ (fun k => h.elim (fun n => n e.1) (fun n => n k.symm))
  · rfl

theorem Context.get_applyWrites_ne {i : Nat} {r : CellReg} : ∀ (ws : List CellWrite) (c : Context), (∀ w ∈ ws, w.cell ≠ i ∨ w.reg ≠ r) →
    ((ws.foldl Context.applyWrite c).cell i).get r = (c.cell i).get r
  | [], _, _ => rfl
  | w :: ws, c, h => by
    obtain ⟨hw, hws⟩ := List.forall_mem_cons.mp h
    rw [List.foldl_cons, Context.get_applyWrites_ne ws _ hws, Context.get_applyWrite_ne c hw]

/-- Writes that name different registers each put their own contents on what the register held before all of them. -/
theorem Context.get_applyWrites {w : CellWrite} {ws : List CellWrite} (hp : ws.Pairwise (fun v w => v.cell ≠ w.cell ∨ v.reg ≠ w.reg))
    (hw : w ∈ ws) : ∀ c : Context, w.cell < c.cells.length → ((ws.foldl Context.applyWrite c).cell w.cell).get w.reg =
      ((c.cell w.cell).set w.reg (w.onto ((c.cell w.cell).get w.reg)).val (w.onto ((c.cell w.cell).get w.reg)).poi).get w.reg := by
  induction ws with
  | nil => exact absurd hw List.not_mem_nil
  | cons v ws ih =>
    obtain ⟨hv, hws⟩ := List.pairwise_cons.mp hp
    intro c hlt
    rw [List.foldl_cons]
    rcases List.mem_cons.mp hw with rfl | hw
    · rw [Context.get_applyWrites_ne ws _ (fun u hu => (hv u hu).imp Ne.symm Ne.symm), Context.cell_applyWrite, if_pos ⟨rfl, hlt⟩]
      simp only [CellState.write]
    · rw [ih hws hw _ (by simpa using hlt), Context.get_applyWrite_ne c (hv w hw)]
      exact CellState.get_set_self ..

/-- Settles O33: the landing is a fold of `Context.applyWrite` over writes to different registers. -/
theorem cellResultsLand : Obligations.CellResultsLand := by
  unfold Obligations.CellResultsLand
  intro s p l r hp hd hpoison hdistinct
  refine ⟨fun hl => ?_, fun hl => ?_⟩
  · let c : Context := { s.ctx with pend := l ++ r }
    have hland : s.ctx.resultLand l.length = p.writes.foldl Context.applyWrite c :=
      (Context.resultLand_eq hp hl).trans (Context.landOne_cells hpoison hd)
    have frame := applyWrites_onlyResults p.writes c
    have hregs : (p.writes.foldl Context.applyWrite c).regs = s.ctx.regs := foldl_keeps (f := Context.applyWrite) Context.regs (fun _ _ => rfl) _ c
    refine ⟨s.setCtx (p.writes.foldl Context.applyWrite c), by rw [exec_resultLand, hland], rfl, ?_, hregs, fun w hw hlt => ?_, fun i reg h => ?_⟩
    · rw [State.setCtx_ctx, frame]
    · exact Context.get_applyWrites hdistinct hw c hlt
    · exact Context.get_applyWrites_ne p.writes c h
  · rw [exec_resultLand, Context.resultLand_chained hp hl]
    rfl

end Sys2Proof.Machine
end

section
/-! # Trap entry

What the trap registers record and where the handler starts (R25, R313, R314), for a trap that is taken at once and for one that has
waited for the condition queue. -/

namespace Sys2Proof.Machine

/-! ### TCAUSE -/

theorem Level.code_lt (l : Level) : l.code < 4 := by cases l <;> decide

/-- The kind, the slot and MULTI of a deferred fault are six bits that stand above bit 10 of TCAUSE (R317). -/
theorem faultBits_eq (l : List DeferredFault) : ∃ k < 2 ^ 6, faultBits l = 2 ^ 11 * k := by
  match l with
  | [] => exact ⟨0, by decide, rfl⟩
  | [f] => exact ⟨8 * f.kind.toNat + 2 * f.slot.toNat, by omega, by simp [faultBits]; omega⟩
  | f :: _ :: _ => exact ⟨8 * f.kind.toNat + 2 * f.slot.toNat + 1, by omega, by simp [faultBits]; omega⟩

/-- The fault bits that a trap puts in TCAUSE: none but for a deferred array fault (R317). -/
theorem Context.causeBits_eq (c : Context) (cause : Nat) :
    ∃ k < 2 ^ 6, (if cause = 0x0D then faultBits c.liveFaults else 0) = 2 ^ 11 * k ∧ (cause ≠ 0x0D → k = 0) := by
  split
  · next h => exact (faultBits_eq _).imp fun k ⟨hk, e⟩ => ⟨hk, e, fun n => absurd h n⟩
  · exact ⟨0, by decide, rfl, fun _ => rfl⟩

/-- TCAUSE at trap entry: cause, level, INH, and fault bits above them (R313, R317). -/
def causeWord (cause : Nat) (l : Level) (bits : Nat) : Word := BitVec.ofNat 64 (cause % 256 + l.code * 2 ^ 8 + 2 ^ 10 + bits)

section
variable (cause : Nat) (l : Level) {k : Nat} (hk : k < 2 ^ 6)
include hk

theorem causeWord_toNat : (causeWord cause l (2 ^ 11 * k)).toNat = cause % 256 + l.code * 2 ^ 8 + 2 ^ 10 + 2 ^ 11 * k := by
  have hl := l.code_lt
  rw [causeWord, BitVec.toNat_ofNat]
  omega

theorem causeWord_cause : (causeWord cause l (2 ^ 11 * k)).toNat % 256 = cause % 256 := by
  rw [causeWord_toNat cause l hk]
  omega

theorem causeWord_level : (causeWord cause l (2 ^ 11 * k)).toNat / 256 % 4 = l.code := by
  have hl := l.code_lt
  rw [causeWord_toNat cause l hk]
  omega

theorem causeWord_inh : (causeWord cause l (2 ^ 11 * k)).getLsbD 10 = true := by
  have hl := l.code_lt
  rw [← BitVec.testBit_toNat, causeWord_toNat cause l hk, Nat.testBit_eq_decide_div_mod_eq]
  simp only [decide_eq_true_eq]
  omega

end

/-! ### What quiescing keeps -/

@[simp] theorem Context.quiesce_pc (c : Context) : c.quiesce.pc = c.pc := by rw [c.quiesce_arrivals]
@[simp] theorem Context.quiesce_level (c : Context) : c.quiesce.level = c.level := by rw [c.quiesce_arrivals]
@[simp] theorem Context.quiesce_dsc (c : Context) : c.quiesce.dsc = c.dsc := by rw [c.quiesce_arrivals]
@[simp] theorem Context.quiesce_target (c : Context) : c.quiesce.target = c.target := by rw [c.quiesce_arrivals]
@[simp] theorem Context.quiesce_rep (c : Context) : c.quiesce.rep = c.rep := by rw [c.quiesce_arrivals]
@[simp] theorem Context.quiesce_tvec (c : Context) : c.quiesce.tvec = c.tvec := by rw [c.quiesce_arrivals]
@[simp] theorem Context.quiesce_sticky (c : Context) : c.quiesce.sticky = c.sticky := by rw [c.quiesce_arrivals]
@[simp] theorem Context.quiesce_loops (c : Context) : c.quiesce.loops = c.loops := by rw [c.quiesce_arrivals]
@[simp] theorem Context.quiesce_mshp (c : Context) : c.quiesce.mshp = c.mshp := by rw [c.quiesce_arrivals]
@[simp] theorem Context.quiesce_asid (c : Context) : c.quiesce.asid = c.asid := by rw [c.quiesce_arrivals]
@[simp] theorem Context.quiesce_tickets (c : Context) : c.quiesce.tickets = c.tickets := by rw [c.quiesce_arrivals]
@[simp] theorem Context.quiesce_cmds (c : Context) : c.quiesce.cmds = c.cmds := by rw [c.quiesce_arrivals]
@[simp] theorem Context.quiesce_trapDue (c : Context) : c.quiesce.trapDue = c.trapDue := by rw [c.quiesce_arrivals]
@[simp] theorem Context.quiesce_inh (c : Context) : c.quiesce.inh = c.inh := by rw [c.quiesce_arrivals]; rfl

/-! ### Entering -/

/-- Trap entry outside a handler. -/
theorem Context.enterTrap_eq {c : Context} (h : c.inh = false) (cause : Nat) (info : Word) :
    c.enterTrap cause info =
      { c with
        tcause := causeWord cause c.level (if cause = 0x0D then faultBits c.liveFaults else 0)
        tepc := BitVec.ofNat 64 (c.pc % 2 ^ 56 / 4 * 4)
        tdsc := BitVec.ofNat 64 c.dsc
        tbtgt := BitVec.ofNat 64 (if c.dsc = 0 then 0 else c.target.toNat % 2 ^ 56)
        late := false, cellRegs := none, inWaitq := false
        trep := BitVec.ofNat 64 c.rep
        tinfo := info
        level := .supervisor
        pc := c.tvec.toNat + 256 * (cause % 256)
        dsc := 0, target := 0, rep := 0
        suspended := some c.sticky, sticky := Sticky.none
        stepping := false, trapDue := none, yielded := false, landPoint := false, cur := [], streams := (c.unstick cause info).map Stream.forget
        faults := if cause = 0x0D then c.faults.filter (·.held) else c.faults.map (fun f => { f with held := true })
        reports := c.reports.map (fun r => { r with held := true }) } := by
  unfold Context.enterTrap
  rw [h]
  rfl

theorem Context.takeTrap_entered {c : Context} (h : c.inh = false) (hq : c.quiesce.cqAllFilled = true) (cause : Nat) (info : Word) :
    c.takeTrap cause info = c.quiesce.enterTrap cause info := by
  simp [Context.takeTrap, h, hq]

theorem Context.takeTrap_waits {c : Context} (h : c.inh = false) (hq : c.quiesce.cqAllFilled = false) (cause : Nat) (info : Word) :
    c.takeTrap cause info = { c.quiesce with trapDue := some (cause, info) } := by
  simp [Context.takeTrap, h, hq]

/-- A double fault ends the context (R314). -/
theorem Context.takeTrap_inh {c : Context} (h : c.inh = true) (cause : Nat) (info : Word) : c.takeTrap cause info = c.stopFor .aborted := by
  simp [Context.takeTrap, h]

/-- Settles O20: everything under way lands without a trace in what the trap registers record, and `Context.enterTrap` records it. -/
theorem trapEntrySavesAndVectors : Obligations.TrapEntrySavesAndVectors := by
  unfold Obligations.TrapEntrySavesAndVectors
  intro c cause info hcause hpc halign hdsc hrep htarget
  refine ⟨fun hinh hq => ?_, fun hinh hq => ?_, fun hinh => ?_⟩
  · rw [c.takeTrap_entered hinh hq, Context.enterTrap_eq (c.quiesce_inh.trans hinh)]
    obtain ⟨k, hk, hbits⟩ := c.quiesce.causeBits_eq cause
    rw [hbits.1]
    have htepc : c.pc % 2 ^ 56 / 4 * 4 = c.pc := by omega
    have htbtgt : BitVec.ofNat 64 (if c.dsc = 0 then 0 else c.target.toNat % 2 ^ 56) = if c.dsc = 0 then 0 else c.target := by
      split
      · rfl
      · rw [Nat.mod_eq_of_lt htarget, BitVec.ofNat_toNat, BitVec.setWidth_eq]
    have hl := c.level.code_lt
    refine ⟨?_, ?_, ?_, ?_, rfl, ?_, ?_, ?_, ?_, rfl, ?_, rfl, rfl, rfl, ?_⟩
    all_goals simp only [Context.quiesce_pc, Context.quiesce_dsc, Context.quiesce_target, Context.quiesce_rep, Context.quiesce_tvec, Context.quiesce_level]
    · rw [htepc]
    · exact htbtgt
    · rw [causeWord_cause _ _ hk, Nat.mod_eq_of_lt hcause]
    · exact causeWord_level _ _ hk
    · exact causeWord_inh _ _ hk
    · intro hne
      rw [causeWord_toNat _ _ hk, hbits.2 hne]
      omega
    · rw [Nat.mod_eq_of_lt hcause]
    · simp
  · rw [c.takeTrap_waits hinh hq]
    exact ⟨rfl, c.quiesce_pc, c.quiesce_level⟩
  · rw [c.takeTrap_inh hinh]
    exact ⟨rfl, rfl, rfl⟩

end Sys2Proof.Machine
end

section
/-! # Event records, tickets, queues and the spill engine

What each event does when it comes to a context or to a hardware queue (R25, R129, R237, R262, R263, R283). -/

namespace Sys2Proof.Machine

/-! ### The drip tray (R129, R130) -/

theorem dripMerge_none {r : DripRec} : ∀ {l : List DripRec}, (∀ x ∈ l, x.same r = false) → dripMerge r l = none
  | [], _ => rfl
  | x :: l, h => by
    obtain ⟨hx, hl⟩ := List.forall_mem_cons.mp h
    simp [dripMerge, hx, dripMerge_none hl]

theorem dripMerge_some {r x : DripRec} (v : List DripRec) (hx : x.same r = true) : ∀ {u : List DripRec}, (∀ y ∈ u, y.same r = false) →
    dripMerge r (u ++ x :: v) = some (u ++ { x with count := if x.count = 0xFFFFFFFF then x.count else x.count + 1 } :: v)
  | [], _ => by simp [dripMerge, hx]
  | y :: u, h => by
    obtain ⟨hy, hu⟩ := List.forall_mem_cons.mp h
    simp [dripMerge, hy, dripMerge_some v hx hu]

section
variable {c : Context} (hh : c.dripHalf ≠ .record) {r : DripRec}
include hh

theorem Context.dripAppend_merged {l : List DripRec} (h : dripMerge r c.drip = some l) : c.dripAppend r = { c with drip := l } := by
  simp [Context.dripAppend, hh, h]

theorem Context.dripAppend_new (h : dripMerge r c.drip = none) (hroom : c.drip.length < 256) : c.dripAppend r = { c with drip := c.drip ++ [r] } := by
  simp [Context.dripAppend, hh, h, Nat.not_le.mpr hroom]

theorem Context.dripAppend_lost (h : dripMerge r c.drip = none) (hfull : 256 ≤ c.drip.length) (hlost : c.dtlost.toNat < 0xFFFFFFFF) :
    c.dripAppend r = { c with dtlost := c.dtlost + 1 } := by
  have hne : c.dtlost.toNat % 2 ^ 32 ≠ 0xFFFFFFFF := by omega
  simp only [Context.dripAppend, hh, if_false, List.drop_zero, h, if_pos hfull, if_neg hne]

end

theorem exec_dripTrayAppend (n : Nat) (s : State) : exec (.dripTrayAppend n) s = .next (s.setCtx (s.ctx.dripTrayAppend n)) := rfl

/-- The record of the oldest wave word, when it is due, is appended. -/
theorem Context.dripTrayAppend_due {c : Context} {f : DripFlight} {rest : List DripFlight} {r : DripRec} (hf : c.dripFlights = f :: rest)
    (hdue : f.due ≤ c.cycle) (hr : f.recs = [r]) : c.dripTrayAppend 0 = ({ c with dripFlights := rest } : Context).dripAppend r := by
  simp [Context.dripTrayAppend, hf, hdue, Context.dripLand, hr]

/-! ### A trap that has fallen due (R25) -/

theorem exec_trapEntry (s : State) : exec .trapEntry s = .next (s.setCtx s.ctx.trapEntry) := rfl

theorem Context.trapEntry_eq {c : Context} {cause : Nat} {info : Word} (h : c.trapDue = some (cause, info)) :
    c.trapEntry = if c.quiesce.cqAllFilled then c.quiesce.enterTrap cause info else c.quiesce := by
  simp only [Context.trapEntry, h]

/-! ### Tickets (R237, R238, R250) -/

theorem exec_ticketComplete {s : State} (n : Nat) (h : s.ctx.drainedAway = false) :
    exec (.ticketComplete n) s = .next (s.setCtx (s.ctx.ticketComplete n)) := by
  show Host.Outcome.next (s.ticketDone n) = _
  simp [State.ticketDone, h]

/-- The completion of a ticket touches the commands, the tickets and the condition queue alone. -/
theorem Context.completeTicket_eq (c : Context) {k : EngCmd} (r : BitVec 4 × BitVec 32) (h : k.e.kp ≠ 0) :
    c.completeTicket k r =
      { c with
        cmds := c.cmds.map (fun x => { x with deps := x.deps.map (TicketDep.reach k.seq r) })
        tickets := c.tickets.set k.e.kp.toFin { c.tickets[k.e.kp.toFin] with pending := false, status := r.1, detail := r.2, away := false }
        cq := (c.cqFill (tktestTag k.e.kp.toNat) (r.1 == 0) false).cq } := by
  rw [Context.completeTicket]
  exact if_neg h

/-- The commands that stay when command `n` ends: a hatch command that still owes elements is closed, any other is gone. -/
def Context.cmdsAfter (c : Context) (n : Nat) (k : EngCmd) : List EngCmd :=
  if hatchOp k.op && !k.served then replaceNth c.cmds n { k with closed := true } else c.cmds.eraseIdx n

theorem Context.ticketComplete_eq {c : Context} {n : Nat} {k : EngCmd} {r : BitVec 4 × BitVec 32} (hk : c.cmds[n]? = some k) (hr : k.outcome = some r)
    (hclosed : k.closed = false) (hout : k.out = []) :
    c.ticketComplete n = ({ c with cmds := c.cmdsAfter n k } : Context).completeTicket k r := by
  simp only [Context.ticketComplete, hk, hr, hclosed, hout, Context.cmdsAfter]
  cases hatchOp k.op && !k.served <;> rfl

theorem replaceNth_seq {l : List EngCmd} {n : Nat} {k x : EngCmd} (h : l[n]? = some k) (hx : x.seq = k.seq) :
    (replaceNth l n x).map (·.seq) = l.map (·.seq) := by
  obtain ⟨hn, hk⟩ := List.getElem?_eq_some_iff.mp h
  conv_rhs => rw [← List.take_append_drop n l, List.drop_eq_getElem_cons hn, hk]
  simp [replaceNth, hx]

theorem TicketDep.reach_kept {seq : Nat} {r : BitVec 4 × BitVec 32} {d : TicketDep} (h : (d.reach seq r).seq = seq) :
    (d.reach seq r).kept.isSome = true := by
  unfold TicketDep.reach at *
  split at h <;> simp_all [Option.isSome_iff_ne_none]

/-! ### The words of a queue's answer (R262, R282) -/

section
variable (d : Fin 48) (tag : Nat)

theorem Context.giveWords_onlyRegs : ∀ (ws : List Word) (i : Nat) (c : Context),
    c.giveWords (.s d) tag i ws = { c with regs := (c.giveWords (.s d) tag i ws).regs }
  | [], _, _ => rfl
  | w :: ws, i, c => by
    rw [Context.giveWords, Context.giveWords_onlyRegs ws, Context.setReg_eq]

theorem Context.giveWords_reg_ne {m : Fin 48} : ∀ (ws : List Word) (i : Nat) (c : Context), (∀ k < ws.length, m ≠ Fin.ofNat 48 (d.val + (i + k))) →
    (c.giveWords (.s d) tag i ws).reg m = c.reg m
  | [], _, _, _ => rfl
  | w :: ws, i, c, h => by
    rw [Context.giveWords, Context.giveWords_reg_ne ws (i + 1) _ (fun k hk => by simpa [Nat.add_right_comm, Nat.add_assoc] using h (k + 1) (by simpa using hk)),
      Context.reg_setReg_ne c (by simpa using h 0 (by simp))]

/-- A run that does not wrap past s47 leaves word `k` in the `k`-th register of the run. -/
theorem Context.giveWords_reg {m : Fin 48} (h0 : m ≠ 0) (ws : List Word) : ∀ (i k : Nat) (c : Context) (w : Word), ws[k]? = some w →
    d.val + (i + ws.length) ≤ 48 → m.val = d.val + (i + k) → (c.giveWords (.s d) tag i ws).reg m = w := by
  induction ws with
  | nil => intro i k c w h; simp at h
  | cons v ws ih =>
    intro i k c w h hle hm
    rw [List.length_cons] at hle
    rw [Context.giveWords]
    cases k with
    | zero =>
      obtain rfl : v = w := by simpa using h
      have hself : Fin.ofNat 48 (d.val + i) = m := Fin.ext (by simp only [Fin.ofNat]; omega)
      rw [Context.giveWords_reg_ne, hself, Context.reg_setReg_self c h0]
      intro j hj e
      have hval := congrArg Fin.val e
      simp only [Fin.ofNat] at hval
      omega
    | succ k => exact ih (i + 1) k _ w (by simpa using h) (by omega) (by omega)

end

@[simp] theorem entryWords_length (e : QEntry) (n : Nat) : (entryWords e n).length = n := by simp [entryWords]

theorem mem_regRun (d : Fin 48) {n k : Nat} (h : k < n) : .s (Fin.ofNat 48 (d.val + k)) ∈ regRun (.s d) n :=
  List.mem_map_of_mem (List.mem_range.mpr h)

/-! ### The decision of a queue (R262, R263) -/

theorem exec_queueDecision (n : Nat) (s : State) : exec (.queueDecision n) s = .next (s.queueDecision n) := rfl

theorem Context.answer_cq (c : Context) (n : Nat) (op : QueueOp) (b : Bool) : (c.answer n op b).cq = (c.cqFill op.tag b false).cq := rfl

/-- A machine in which an answer has changed the pipelines to `ps`, and in the context registers that `rs` names at most. -/
theorem decided_of_answer {s : State} {n : Nat} {op : QueueOp} {b : Bool} (ps : List Pipeline) {rs : List Opnd} {d : Context}
    (hd : d = { s.ctx.answer n op b with regs := d.regs }) (hr : ∀ m : Fin 48, .s m ∉ rs → d.reg m = s.ctx.reg m) :
    let t : State := { s with pipelines := ps, ctx := d }
    t = { s with ctx := t.ctx, pipelines := ps } ∧ t.ctx.qops = s.ctx.qops.eraseIdx n ∧ t.ctx.cq = (s.ctx.cqFill op.tag b false).cq ∧ RegsBut rs s t :=
  ⟨rfl, by rw [show ({ s with pipelines := ps, ctx := d } : State).ctx = d from rfl, hd]; rfl,
    by rw [show ({ s with pipelines := ps, ctx := d } : State).ctx = d from rfl, hd]; rfl, hr⟩

theorem Context.answer_regs (c : Context) (n : Nat) (op : QueueOp) (b : Bool) (m : Fin 48) : (c.answer n op b).reg m = c.reg m := rfl

section
variable {s : State} {p : Pipeline} {g : Stage} {n : Nat} {op : QueueOp} (hp : s.pipelineOf s.ctx.lnum = some p) (hg : s.stageOf s.ctx = some g)
  (hop : s.ctx.qops[n]? = some op) (hfirst : ∀ o ∈ s.ctx.qops.take n, opStage s.ctx g o ≠ opStage s.ctx g op)
include hp hg hop hfirst

/-- What the queue does with the context's first operation on it, by the kind of operation. -/
theorem State.queueDecision_deq (hk : op.kind = .deq) : s.queueDecision n = s.dequeue p g n op := by
  have hany : (s.ctx.qops.take n).any (fun o => opStage s.ctx g o == opStage s.ctx g op) = false := by simpa using hfirst
  simp [State.queueDecision, hp, hg, hop, hany, hk]

theorem State.queueDecision_result (hk : op.kind = .enq) (ht : opStage s.ctx g op = none) :
    s.queueDecision n =
      if 64 ≤ p.results.length then s.setCtx (s.ctx.answer n op false)
      else (s.mapPipe p.lnum (fun p => { p with results := p.results ++ [{ bits := op.entry, poi := op.poi, ring := none }] })).setCtx
        (s.ctx.answer n op true) := by
  have hany : (s.ctx.qops.take n).any (fun o => opStage s.ctx g o == opStage s.ctx g op) = false := by simpa using hfirst
  rw [ht] at hany
  simp only [State.queueDecision, hp, hg, hop, hk, ht, hany]
  rfl

theorem State.queueDecision_enq (hk : op.kind = .enq) {i : Nat} (ht : opStage s.ctx g op = some i) {t : State} {b : Bool}
    (he : s.enqueue p i (p.stages.getD i g) { bits := op.entry, poi := op.poi, ring := none } = .ok (t, b)) :
    s.queueDecision n = t.setCtx (s.ctx.answer n op b) := by
  have hany : (s.ctx.qops.take n).any (fun o => opStage s.ctx g o == opStage s.ctx g op) = false := by simpa using hfirst
  rw [ht] at hany
  simp only [State.queueDecision, hp, hg, hop, hk, ht, hany, he]
  rfl

theorem State.queueDecision_qinfo (hk : op.kind = .qinfo) (hw : op.which = 0) :
    s.queueDecision n = s.setCtx ((s.ctx.answer n op (decide (0 < g.queue.length))).giveWords op.dest (op.tag + 1) 0
      [queueWord g.queue.length (onChip g.queue)]) := by
  have ht : opStage s.ctx g op = some s.ctx.stage := by simp [opStage, hw]
  have hany : (s.ctx.qops.take n).any (fun o => opStage s.ctx g o == opStage s.ctx g op) = false := by simpa using hfirst
  have hgetD : p.stages.getD s.ctx.stage g = g := by
    have : p.stages[s.ctx.stage]? = some g := by simpa [State.stageOf, hp] using hg
    simp [List.getD, this]
  rw [ht] at hany
  simp only [State.queueDecision, hp, hg, hop, hk, ht, hany, hw, hgetD]
  rfl

end

theorem State.dequeue_empty {s : State} {p : Pipeline} {g : Stage} {n : Nat} {op : QueueOp} {d : Fin 48} (hg : g.queue = []) (hd : op.dest = .s d) :
    s.dequeue p g n op = s.setCtx (s.ctx.answer n op false) := by
  have hdrop : ∀ (c : Context) (tag k : Nat), c.dropWords (.s d) tag k = c := by
    intro c tag k
    cases k <;> rfl
  simp [State.dequeue, hg, hd, hdrop]

theorem State.dequeue_onChip {s : State} {p : Pipeline} {g : Stage} {n : Nat} {op : QueueOp} {e : QEntry} {r : List QEntry} (hg : g.queue = e :: r)
    (he : e.ring = none) (hpoi : e.poi.toNat % 2 ^ (8 * op.count) = 0) :
    s.dequeue p g n op = (s.mapPipe p.lnum (fun q => q.mapStage s.ctx.stage (fun x => { x with queue := r }))).setCtx
      ((s.ctx.answer n op true).giveWords op.dest (op.tag + 1) 0 (entryWords e op.count)) := by
  simp only [State.dequeue, hg, State.entryAt, he, hpoi]
  rfl

theorem State.enqueue_full {s : State} {p : Pipeline} {i : Nat} {g : Stage} (e : QEntry) (h : 64 + g.quota ≤ g.queue.length) :
    s.enqueue p i g e = .ok (s, false) := if_pos h

theorem State.enqueue_onChip {s : State} {p : Pipeline} {i : Nat} {g : Stage} (e : QEntry) (h : g.queue.length < 64 + g.quota)
    (hchip : onChip g.queue < 64) :
    s.enqueue p i g e = .ok (s.mapPipe p.lnum (fun q => q.mapStage i (fun x => { x with queue := x.queue ++ [e] })), true) := by
  rw [State.enqueue, if_neg (by omega), if_pos hchip]

/-! ### The spill engine (R262) -/

theorem exec_spillMove (lnum i : Nat) (toRing : Bool) (s : State) : exec (.spillMove lnum i toRing) s = .next (s.spillMove lnum i toRing) := rfl

theorem State.spillMove_eq {s : State} {p : Pipeline} {i : Nat} {g : Stage} (hp : s.pipelineOf p.lnum = some p) (hi : p.stages[i]? = some g)
    (toRing : Bool) : s.spillMove p.lnum i toRing = if toRing then s.spillOut p i g else s.spillIn p i g := by
  simp only [State.spillMove, hp, hi]

/-- The first of a list that satisfies `f` stands after those that do not. -/
theorem findIdx?_append_cons {α : Type} {f : α → Bool} {u : List α} {x : α} (v : List α) (hu : ∀ y ∈ u, f y = false) (hx : f x = true) :
    (u ++ x :: v).findIdx? f = some u.length := by
  induction u with
  | nil => simp [List.findIdx?_cons, hx]
  | cons y u ih =>
    obtain ⟨hy, hu⟩ := List.forall_mem_cons.mp hu
    simp [List.findIdx?_cons, hy, ih hu]

section
variable {s : State} {p : Pipeline} {i : Nat} {g : Stage} {u v : List QEntry} {e : QEntry} (hq : g.queue = u ++ e :: v)
include hq

theorem State.spillOut_eq {r : State} {k : Nat} (he : e.ring = none) (hv : ∀ x ∈ v, x.ring.isSome = true) (hk : freeSlot g.queue g.quota = some k)
    (hw : s.deviceWrite p.asid (p.ringBase i + 64 * k) (entryBytes e) = .ok r) :
    s.spillOut p i g = r.mapPipe p.lnum (fun q => q.mapStage i (fun y => { y with queue := y.queue.set u.length { bits := 0, poi := 0, ring := some k } })) := by
  have hfind : g.queue.reverse.findIdx? (fun e => e.ring.isNone) = some v.length := by
    have hrev : g.queue.reverse = v.reverse ++ e :: u.reverse := by simp [hq]
    rw [hrev, findIdx?_append_cons _ (by simpa using hv) (by simp [he]), List.length_reverse]
  have hat : g.queue.length - 1 - v.length = u.length := by simp [hq]
  have hget : g.queue[u.length]? = some e := by simp [hq]
  simp [State.spillOut, hk, hfind, hat, hget, hw]

theorem State.spillIn_eq {k : Nat} {bs : List (Byte × Bool)} (he : e.ring = some k) (hu : ∀ x ∈ u, x.ring = none) (hchip : onChip g.queue < 64)
    (hr : s.deviceRead p.asid (p.ringBase i + 64 * k) 64 = .ok bs) :
    s.spillIn p i g = s.mapPipe p.lnum (fun q => q.mapStage i (fun y =>
      { y with queue := y.queue.set u.length { bits := BitVec.ofNat 512 (numOf bs), poi := BitVec.ofNat 64 (marks (bs.map Prod.snd)), ring := none } })) := by
  have hfind : g.queue.findIdx? (fun e => e.ring.isSome) = some u.length := by
    rw [hq, findIdx?_append_cons v (fun x hx => by simp [hu x hx]) (by simp [he])]
  have hget : g.queue[u.length]? = some e := by simp [hq]
  simp [State.spillIn, Nat.not_le.mpr hchip, hfind, hget, State.entryAt, he, hr]

end

/-- Settles O46: event by event, from what `dripAppend`, `trapEntry`, `ticketComplete`, `queueDecision` and the spill engine do. -/
theorem arrivalsAndDecisionsComplete : Obligations.ArrivalsAndDecisionsComplete := by
  unfold Obligations.ArrivalsAndDecisionsComplete
  intro s
  refine ⟨fun f rest r hf hdue hr hhalf => ?_, fun cause info htrap hinh => ?_, fun n k st d hk hout hclosed hpend hkp haway => ?_,
    fun p g n op hp hg hop hfirst => ?_, fun p i g u v e hp hi hq => ?_⟩
  · -- an event record
    let c : Context := { s.ctx with dripFlights := rest }
    have hc : c.dripHalf ≠ .record := hhalf
    refine ⟨s.setCtx (c.dripAppend r), by rw [exec_dripTrayAppend, Context.dripTrayAppend_due hf hdue hr], rfl, ?_, ?_,
      fun hnew hroom => ?_, fun u x v hdrip hu hx hcount => ?_, fun hnew hfull hlost => ?_⟩
    · rw [State.setCtx_ctx, Context.dripAppend_eq]
    · rw [State.setCtx_ctx, Context.dripAppend_eq]
    · rw [State.setCtx_ctx, Context.dripAppend_new hc (dripMerge_none hnew) hroom]
      exact ⟨rfl, rfl⟩
    · rw [State.setCtx_ctx, Context.dripAppend_merged hc (by rw [show c.drip = _ from hdrip]; exact dripMerge_some v hx hu), if_neg hcount]
    · rw [State.setCtx_ctx, Context.dripAppend_lost hc (dripMerge_none hnew) hfull hlost]
      exact ⟨rfl, rfl⟩
  · -- a trap that is due
    have henter := Context.enterTrap_eq (c := s.ctx.quiesce) (s.ctx.quiesce_inh.trans hinh) cause info
    refine ⟨s.setCtx s.ctx.trapEntry, exec_trapEntry s, rfl, ?_, fun hq => ?_, fun hq => ?_⟩
    · rw [State.setCtx_ctx, Context.trapEntry_eq htrap]
      split
      · rw [henter]
      · rfl
    · obtain ⟨k, hk, hbits, -⟩ := s.ctx.quiesce.causeBits_eq cause
      rw [State.setCtx_ctx, Context.trapEntry_eq htrap, if_pos hq, henter, hbits]
      refine ⟨rfl, ?_, rfl, ?_, causeWord_cause _ _ hk, rfl, ?_, s.ctx.quiesce_loops, rfl⟩ <;> simp
    · rw [State.setCtx_ctx, Context.trapEntry_eq htrap, if_neg (by simp [hq])]
      exact ⟨s.ctx.quiesce_level, s.ctx.quiesce_pc, s.ctx.quiesce_trapDue⟩
  · -- a ticket
    let c : Context := { s.ctx with cmds := s.ctx.cmdsAfter n k }
    have hdone := (Context.ticketComplete_eq hk hout hclosed hpend).trans (c.completeTicket_eq (st, d) hkp)
    have hseq : (c.completeTicket k (st, d)).cmds.map (·.seq) = (s.ctx.cmdsAfter n k).map (·.seq) := by
      rw [c.completeTicket_eq (st, d) hkp]
      simp [c]
    refine ⟨s.setCtx (s.ctx.ticketComplete n), exec_ticketComplete n haway, rfl, ?_, ?_, ?_, fun x hx dep hdep hsame => ?_, fun h => ?_, fun h hs => ?_⟩
    · rw [State.setCtx_ctx, hdone]
    · rw [State.setCtx_ctx, hdone]
    · rw [State.setCtx_ctx, hdone]
    · rw [State.setCtx_ctx, hdone] at hx
      obtain ⟨y, -, rfl⟩ := List.mem_map.mp hx
      obtain ⟨e, -, rfl⟩ := List.mem_map.mp hdep
      exact TicketDep.reach_kept hsame
    · rw [State.setCtx_ctx, Context.ticketComplete_eq hk hout hclosed hpend, hseq, Context.cmdsAfter, if_neg (by rcases h with h | h <;> simp [h]), List.eraseIdx_map]
    · rw [State.setCtx_ctx, Context.ticketComplete_eq hk hout hclosed hpend, hseq, Context.cmdsAfter, if_pos (by simp [h, hs])]
      exact replaceNth_seq hk rfl
  · -- a queue operation
    refine ⟨fun hkind ht => ⟨fun hroom => ?_, fun hfull => ?_⟩, fun hkind i h ht hh => ⟨fun hroom hchip => ?_, fun hfull => ?_⟩,
      fun hkind d hd => ⟨fun hempty => ?_, fun e r hqueue hring hpoi => ⟨?_, fun hrun i hi j hj hj0 t ht => ?_⟩⟩, fun hkind hw d hd hd0 => ?_⟩
    · refine ⟨_, ?_, decided_of_answer _ (d := s.ctx.answer n op true) rfl (fun _ _ => rfl)⟩
      rw [exec_queueDecision, State.queueDecision_result hp hg hop hfirst hkind ht, if_neg (by omega)]
      rfl
    · refine ⟨_, ?_, decided_of_answer _ (d := s.ctx.answer n op false) rfl (fun _ _ => rfl)⟩
      rw [exec_queueDecision, State.queueDecision_result hp hg hop hfirst hkind ht, if_pos hfull]
      rfl
    · have hgetD : p.stages.getD i g = h := by simp [List.getD, hh]
      refine ⟨_, ?_, decided_of_answer _ (d := s.ctx.answer n op true) rfl (fun _ _ => rfl)⟩
      rw [exec_queueDecision, State.queueDecision_enq hp hg hop hfirst hkind ht (by rw [hgetD]; exact State.enqueue_onChip _ hroom hchip)]
      rfl
    · have hgetD : p.stages.getD i g = h := by simp [List.getD, hh]
      refine ⟨_, ?_, decided_of_answer _ (d := s.ctx.answer n op false) rfl (fun _ _ => rfl)⟩
      rw [exec_queueDecision, State.queueDecision_enq hp hg hop hfirst hkind ht (by rw [hgetD]; exact State.enqueue_full _ hfull)]
      rfl
    · refine ⟨_, ?_, decided_of_answer _ (d := s.ctx.answer n op false) rfl (fun _ _ => rfl)⟩
      rw [exec_queueDecision, State.queueDecision_deq hp hg hop hfirst hkind, State.dequeue_empty hempty hd]
      rfl
    · refine ⟨_, ?_, decided_of_answer _ (d := (s.ctx.answer n op true).giveWords (.s d) (op.tag + 1) 0 (entryWords e op.count)) ?_ ?_⟩
      · rw [exec_queueDecision, State.queueDecision_deq hp hg hop hfirst hkind, State.dequeue_onChip hqueue hring hpoi, hd]
        rfl
      · exact Context.giveWords_onlyRegs ..
      · intro m hm
        refine (Context.giveWords_reg_ne d _ _ 0 _ (fun k hk e => hm ?_)).trans (s.ctx.answer_regs n op true m)
        rw [hd, e, Nat.zero_add]
        exact mem_regRun d (by simpa using hk)
    · rw [exec_queueDecision, State.queueDecision_deq hp hg hop hfirst hkind, State.dequeue_onChip hqueue hring hpoi, hd] at ht
      cases ht
      exact Context.giveWords_reg d _ hj0 _ 0 i _ _ (by simp [entryWords, hi]) (by simpa using hrun) (by omega)
    · have hval := Context.giveWords_reg d (op.tag + 1) hd0 [queueWord g.queue.length (onChip g.queue)] 0 0
        (s.ctx.answer n op (decide (0 < g.queue.length))) _ rfl (by simp) rfl
      refine ⟨_, by rw [exec_queueDecision, State.queueDecision_qinfo hp hg hop hfirst hkind hw, hd], rfl, ?_, hval⟩
      rw [State.setCtx_ctx, Context.giveWords_onlyRegs]
      rfl
  · -- the spill engine
    refine ⟨fun k r he hv hk hw => ?_, fun k bs he hu hchip hr => ?_⟩
    · rw [exec_spillMove, State.spillMove_eq hp hi]
      exact congrArg _ (State.spillOut_eq hq he hv hk hw)
    · rw [exec_spillMove, State.spillMove_eq hp hi]
      exact congrArg _ (State.spillIn_eq hq he hu hchip hr)

end Sys2Proof.Machine
end

section
/-! # Fetches do not read the context on turn

A fetch reads code through the translation tables, with the context that it is made for given apart (R30, R215): what a bundle's slots have
done to the context on turn does not change the headers that its B slot fetches. -/

namespace Sys2Proof.Machine

section
variable (s : State) (c : Context)

@[simp] theorem State.place_setCtx (pa : Nat) : (s.setCtx c).place pa = s.place pa := rfl

@[simp] theorem State.homeByte_setCtx (key : Nat) : (s.setCtx c).homeByte key = s.homeByte key := rfl

@[simp] theorem State.physNum_setCtx : ∀ n pa, (s.setCtx c).physNum pa n = s.physNum pa n
  | 0, _ => rfl
  | n + 1, pa => by simp only [State.physNum, State.place_setCtx, State.homeByte_setCtx, State.physNum_setCtx n]

@[simp] theorem walkChain_setCtx (asid va size : Nat) : ∀ fuel slot, walkChain (s.setCtx c) asid va size slot fuel = walkChain s asid va size slot fuel
  | 0, _ => rfl
  | fuel + 1, slot => by
    rw [walkChain, walkChain, State.setCtx_mgmt, State.setCtx_variant, State.physNum_setCtx]
    simp only [walkChain_setCtx asid va size fuel]

@[simp] theorem walkSizes_setCtx (asid va mask limit : Nat) : ∀ l, walkSizes (s.setCtx c) asid va mask limit l = walkSizes s asid va mask limit l
  | [] => rfl
  | z :: l => by
    rw [walkSizes, walkSizes, State.setCtx_mgmt]
    simp only [State.physNum_setCtx, walkChain_setCtx, walkSizes_setCtx asid va mask limit l]

@[simp] theorem State.walk_setCtx (asid va : Nat) : (s.setCtx c).walk asid va = s.walk asid va := by
  rw [State.walk, State.walk, State.sizeMask, State.sizeMask, walkSizes_setCtx, State.physNum_setCtx, State.setCtx_mgmt]

@[simp] theorem State.entryFor_setCtx (md asid va : Nat) : (s.setCtx c).entryFor md asid va = s.entryFor md asid va := by
  rw [State.entryFor, State.entryFor, State.setCtx_tlb, State.setCtx_free, State.walk_setCtx]

@[simp] theorem State.locateMem_setCtx (md asid : Nat) (l : Level) (va : Nat) (a : Access) :
    (s.setCtx c).locateMem md asid l va a = s.locateMem md asid l va a := by
  simp only [State.locateMem, State.translate, State.entryFor_setCtx, State.place_setCtx]

end

/-- A fetch from the brigade window faults, whoever's partition lies there (R180, log entry 24). -/
theorem State.locate_fetch (s : State) (w : Who) (va : Nat) :
    s.locate w va .fetch = if 2 ^ 56 ≤ va ∨ bwin ≤ va then .error .fault else s.locateMem w.md w.asid w.level va .fetch := by
  unfold State.locate
  split
  · next h => rw [if_pos (.inl h)]
  · next h =>
    split
    · next hwin =>
      rw [if_pos (.inr hwin)]
      dsimp only
      split <;> rfl
    · next hwin => rw [if_neg (not_or.mpr ⟨h, hwin⟩)]

theorem State.locateMem_mem {s : State} {md asid va : Nat} {l : Level} {a : Access} {x : Loc} (h : s.locateMem md asid l va a = .ok x) :
    ∃ p, x = .mem p := by
  unfold State.locateMem at h
  split at h
  · cases h
  · split at h
    · cases h
    · cases h
      exact ⟨_, rfl⟩

/-- Fetched bytes lie in memory. -/
theorem State.locateBytes_fetch_mem {s : State} {w : Who} : ∀ {n va : Nat} {l : List Loc}, s.locateBytes w va .fetch n = .ok l → ∀ x ∈ l, ∃ p, x = .mem p
  | 0, va, l, h => by
    cases h
    simp
  | n + 1, va, l, h => by
    simp only [State.locateBytes, State.locate_fetch] at h
    split at h
    · cases h
    · next x hx =>
      split at h
      · cases h
      · next r hr =>
        cases h
        split at hx
        · cases hx
        · exact List.forall_mem_cons.mpr ⟨State.locateMem_mem hx, State.locateBytes_fetch_mem hr⟩

section
variable (s : State) (c d : Context)

theorem State.locateBytes_fetch_setCtx (w : Who) : ∀ n va, (s.setCtx c).locateBytes w va .fetch n = s.locateBytes w va .fetch n
  | 0, _ => rfl
  | n + 1, va => by
    simp only [State.locateBytes, State.locate_fetch, State.locateMem_setCtx, State.locateBytes_fetch_setCtx w n]

@[simp] theorem State.loadByte_mem_setCtx (p : Place) : (s.setCtx c).loadByte d (.mem p) = s.loadByte d (.mem p) := rfl

@[simp] theorem State.fetchWord_setCtx (va : Nat) : (s.setCtx c).fetchWord d va = s.fetchWord d va := by
  have hloc : (s.setCtx c).locateN (d.who s.variant) va .fetch 4 = s.locateN (d.who s.variant) va .fetch 4 := by
    simp only [State.locateN, State.locateBytes_fetch_setCtx]
  simp only [State.fetchWord, State.setCtx_variant, hloc]
  cases h : s.locateN (d.who s.variant) va .fetch 4 with
  | error e => rfl
  | ok ls =>
    have hmem : ∀ x ∈ ls, ∃ p, x = .mem p := by
      unfold State.locateN at h
      split at h
      · exact State.locateBytes_fetch_mem h
      · cases h
    have hbytes : ls.map ((s.setCtx c).loadByte d) = ls.map (s.loadByte d) := by
      refine List.map_congr_left (fun x hx => ?_)
      obtain ⟨p, rfl⟩ := hmem x hx
      rfl
    simp only [hbytes]

@[simp] theorem State.nextBundle_setCtx (va : Nat) : (s.setCtx c).nextBundle d va = s.nextBundle d va := by
  simp only [State.nextBundle, State.setCtx_ahead, State.fetchWord_setCtx]

@[simp] theorem State.bundlesOn_setCtx : ∀ n va, (s.setCtx c).bundlesOn d va n = s.bundlesOn d va n
  | 0, _ => rfl
  | n + 1, va => by simp only [State.bundlesOn, State.nextBundle_setCtx, State.bundlesOn_setCtx n]

@[simp] theorem State.cascade_setCtx (last : Nat) (l : List LoopEntry) : (s.setCtx c).cascade last l = s.cascade last l := by
  simp only [State.cascade, State.nextBundle_setCtx, State.setCtx_src]

@[simp] theorem State.afterDelays_setCtx : (s.setCtx c).afterDelays = s.afterDelays := by
  simp only [State.afterDelays, State.bundlesOn_setCtx, State.setCtx_src, State.setCtx_free]

end

/-- Reading an operand changes the context on turn alone. -/
theorem State.take_eq_setCtx (s : State) (o : Opnd) : ∃ c, (s.take o).2 = s.setCtx c := by
  cases o with
  | s n => exact ⟨s.ctx, rfl⟩
  | q n =>
    simp only [State.take]
    split
    · exact ⟨_, rfl⟩
    · split
      · exact ⟨_, rfl⟩
      · exact ⟨s.ctx, rfl⟩

end Sys2Proof.Machine
end

section
/-! # Branches and hardware loops

The checks of the B slot, and what its branches and loop instructions leave (R16, R21, R73 to R79). -/

namespace Sys2Proof.Machine

/-! ### Checks -/

theorem Verdict.go_andThen (v : Verdict) : Verdict.go.andThen v = v := rfl
theorem Verdict.trap_andThen (c : Nat) (i : Word) (v : Verdict) : (Verdict.trap c i).andThen v = .trap c i := rfl

theorem trapIf_pos {b : Prop} [Decidable b] (h : b) (c : Nat) (i : Word) : trapIf b c i = .trap c i := if_pos h
theorem trapIf_neg {b : Prop} [Decidable b] (h : ¬ b) (c : Nat) (i : Word) : trapIf b c i = .go := if_neg h

theorem checkDelay_go {s : State} (h : s.src.dsc = 0) : checkDelay s = .go := trapIf_neg (by omega) _ _
theorem checkDelay_trap {s : State} (h : 0 < s.src.dsc) : checkDelay s = .trap 0x03 1 := trapIf_pos h _ _

theorem supervisorTrap_go {l : Level} (h : l ≠ .user) : privilegeTrap .supervisor l 1 = .go := by
  cases l with
  | user => exact absurd rfl h
  | supervisor | firmware => rfl

theorem fetchCheck_ok (a : Nat) : fetchCheck (.ok a) = .go := rfl

/-- The headers of a branch's two delay bundles can be read where the address after them is known. -/
theorem State.bundlesOn_three {s : State} {c : Context} {va ra : Nat} (h : s.bundlesOn c va 3 = .ok ra) :
    ∃ a b, s.nextBundle c va = .ok a ∧ s.nextBundle c a = .ok b ∧ s.nextBundle c b = .ok ra := by
  cases ha : s.nextBundle c va with
  | error v => simp [State.bundlesOn, ha] at h
  | ok a =>
    cases hb : s.nextBundle c a with
    | error v => simp [State.bundlesOn, ha, hb] at h
    | ok b =>
      cases hr : s.nextBundle c b with
      | error v => simp [State.bundlesOn, ha, hb, hr] at h
      | ok r =>
        simp only [State.bundlesOn, ha, hb, hr, Except.ok.injEq] at h
        exact ⟨a, b, rfl, hb, by rw [hr, h]⟩

/-- None of the three bundles of a branch is the one at `last`. -/
theorem State.branchMeets_false {s : State} {ra last : Nat} (h : s.bundlesOn s.src s.src.pc 3 = .ok ra)
    (hlast : ∀ n < 3, s.bundlesOn s.src s.src.pc n ≠ .ok last) : s.branchMeets last = false := by
  obtain ⟨a, b, ha, hb, -⟩ := State.bundlesOn_three h
  have h0 := hlast 0 (by decide)
  have h1 := hlast 1 (by decide)
  have h2 := hlast 2 (by decide)
  simp only [State.bundlesOn, ha, hb, ne_eq, Except.ok.injEq] at h0 h1 h2
  simp [State.branchMeets, ha, hb, h0, h1, h2]

theorem checkBranch_go {s : State} {ra : Nat} (hd : s.src.dsc = 0) (h : s.bundlesOn s.src s.src.pc 3 = .ok ra)
    (hloops : ∀ e r, s.src.loops = e :: r → ∀ n < 3, s.bundlesOn s.src s.src.pc n ≠ .ok e.last) : checkBranch s = .go := by
  rw [checkBranch, checkDelay_go hd, Verdict.go_andThen, checkBranchLoop]
  split
  · rfl
  · next e r he => exact trapIf_neg (by simp [State.branchMeets_false h (hloops e r he)]) _ _

theorem State.Delivers.checkSrcs {s : State} {a : Opnd} {x : Word} (h : s.Delivers [a] [x]) : checkSrcs [a] Claims.none s = .go := by
  rw [Machine.checkSrcs, State.checkOpnds_go]
  exact ⟨⟨_, h⟩, rfl⟩

theorem State.Delivers.take {s : State} {a : Opnd} {x : Word} (h : s.Delivers [a] [x]) : s.take a = (x, s.reading [a]) := by
  have hx : (s.takeAll [a]).1 = [x] := State.takeAll_peekAll h
  have hfst : (s.take a).1 = x := by simpa [State.takeAll] using hx
  rw [State.reading_single, ← hfst]

/-! ### Where a branch goes -/

theorem State.branchTarget_eq (s : State) (off : BitVec 22) : s.branchTarget off = BitVec.ofInt 64 (s.src.pc + 4 * off.toInt) := by
  rw [State.branchTarget, BitVec.ofInt_add, BitVec.ofInt_natCast]

theorem State.fallThrough_eq {s : State} {ra : Nat} (h : s.bundlesOn s.src s.src.pc 3 = .ok ra) : s.fallThrough = s.branchTo (BitVec.ofNat 64 ra) := by
  rw [State.fallThrough, h]
  rfl

theorem State.afterDelays_eq {s : State} {ra : Nat} (h : s.bundlesOn s.src s.src.pc 3 = .ok ra) : s.afterDelays = ra := by
  rw [State.afterDelays, h]

theorem State.link_eq {s : State} {ra : Nat} (h : s.afterDelays = ra) : s.link = s.put (.s 46) (BitVec.ofNat 64 ra) := by
  rw [State.link, h]
  rfl

theorem Context.checkPop_head {c : Context} {e : CqEntry} {r : List CqEntry} {bit : Bool} (h : c.cq = e :: r) (he : e.val = some bit) (slot : Nat) :
    c.checkPop slot 0 1 = .go := by
  simp [Context.checkPop, Context.cqReady, h, he]

theorem branchIf_eq {s : State} {ra : Nat} {e : CqEntry} {r : List CqEntry} {bit : Bool} (hcheck : checkBranch s = .go)
    (h3 : s.bundlesOn s.src s.src.pc 3 = .ok ra) (hq : s.ctx.cq = e :: r) (he : e.val = some bit) (want : Bool) (off : BitVec 22) :
    branchIf want off s =
      .next (({ s with ctx.cq := r } : State).branchTo (if bit = want then s.branchTarget off else BitVec.ofNat 64 ra)) := by
  have hgo : checkBr 0 s = .go := by rw [checkBr, hcheck, Verdict.go_andThen, Context.checkPop_head hq he]
  have hpop : s.setCtx (s.ctx.cqPop 1) = { s with ctx.cq := r } := by
    rw [Context.cqPop, hq]
    rfl
  have hhead : s.ctx.cqHead = bit := by simp [Context.cqHead, hq, he]
  have hfall : ({ s with ctx.cq := r } : State).bundlesOn s.src s.src.pc 3 = .ok ra := (State.bundlesOn_setCtx s _ _ 3 _).trans h3
  rw [branchIf, gated_go hgo]
  simp only [hpop, hhead]
  split
  · rfl
  · rw [State.fallThrough_eq hfall]

/-- Settles O22: no branch is checked away, and each sets its target and its two delay bundles. -/
theorem branchesSetTargetAndDelay : Obligations.BranchesSetTargetAndDelay := by
  unfold Obligations.BranchesSetTargetAndDelay
  intro s off a x ra hsrc hd h3 hloops
  have hd' : s.src.dsc = 0 := hsrc ▸ hd
  have hcheck : checkBranch s = .go := checkBranch_go hd' h3 (fun e r he => hloops e r (hsrc ▸ he))
  have hcall : checkCall s = .go := by rw [checkCall, h3, fetchCheck_ok, Verdict.go_andThen, hcheck]
  have htarget : s.branchTarget off = BitVec.ofInt 64 (s.ctx.pc + 4 * off.toInt) := by rw [State.branchTarget_eq, hsrc]
  have hra := State.afterDelays_eq h3
  refine ⟨fun e r bit hq he => ⟨?_, ?_⟩, ?_, fun hx => ?_, ?_, fun hx => ?_, ?_⟩
  · show branchIf true off s = _
    rw [branchIf_eq hcheck h3 hq he, htarget]
    cases bit <;> rfl
  · show branchIf false off s = _
    rw [branchIf_eq hcheck h3 hq he, htarget]
    cases bit <;> rfl
  · show execJ off s = _
    rw [execJ, gated_go hcheck, htarget]
    rfl
  · show execJr a s = _
    rw [execJr, gated_go (by rw [checkJr, hcheck, Verdict.go_andThen, hx.checkSrcs]), hx.take]
    rfl
  · show execCall off s = _
    rw [execCall, gated_go hcall, State.link_eq hra, htarget]
    rfl
  · show execCallr a s = _
    obtain ⟨c, hc⟩ := s.take_eq_setCtx a
    have hra' : (s.reading [a]).afterDelays = ra := by rw [State.reading_single, hc, State.afterDelays_setCtx, hra]
    rw [execCallr, gated_go (by rw [checkCallr, hcall, Verdict.go_andThen, hx.checkSrcs]), hx.take]
    simp only [State.link_eq hra']
    rfl
  · show execRet s = _
    rw [execRet, gated_go hcheck]
    rfl

/-! ### Loop instructions -/

theorem cascadeCheck_ok (r : Nat × List LoopEntry) : cascadeCheck (.ok r) = .go := rfl

theorem exec_loop (cnt : BitVec 13) (last : BitVec 14) (s : State) :
    exec (.loop cnt last) s = gated (checkLoop cnt.toNat last s) (fun s => s.loopStart cnt.toNat last) s := rfl

theorem State.Delivers.withPeek {s : State} {a : Opnd} {x : Word} (h : s.Delivers [a] [x]) (k : Word → Verdict) : withPeek s Claims.none a k = k x := by
  rw [Machine.withPeek, h.peek]

/-- LOOPV is LOOP with the count that its operand delivers (R76). -/
theorem exec_loopv {s : State} {a : Opnd} {x : Word} (h : s.Delivers [a] [x]) (last : BitVec 14) :
    exec (.loopv a last) s = gated (checkLoop x.toNat last s) (fun _ => (s.reading [a]).loopStart x.toNat last) s := by
  show execLoopv a last s = _
  rw [execLoopv, checkLoopv, h.checkSrcs, Verdict.go_andThen, h.withPeek]
  cases checkLoop x.toNat last s with
  | go => simp only [gated, h.take]
  | hold | trap => rfl

/-- LOOPS on a stream bound in delta mode is LOOPV (R76). -/
theorem exec_loops {s : State} {a : Opnd} {q : Fin 16} (ha : a = .q q) (hbound : s.ctx.streams[q].bind = .bound)
    (hdelta : s.ctx.streams[q].delta = true) (last : BitVec 14) : exec (.loops a last) s = exec (.loopv a last) s := by
  have hmode : checkDeltaMode a s = .go := by simp only [checkDeltaMode, ha, hbound, hdelta]; rfl
  show execLoops a last s = execLoopv a last s
  rw [execLoops, checkLoops, hmode, Verdict.go_andThen]
  rfl

/-! ### Every check of the slot fails in a delay bundle -/

section
variable {s : State} (hd : 0 < s.src.dsc)
include hd

theorem checkDelay_andThen_trap (v : Verdict) : (checkDelay s).andThen v = .trap 0x03 1 := by rw [checkDelay_trap hd, Verdict.trap_andThen]

theorem checkBranch_trap : checkBranch s = .trap 0x03 1 := checkDelay_andThen_trap hd _
theorem checkBr_trap (n : Nat) : checkBr n s = .trap 0x03 1 := by rw [checkBr, checkBranch_trap hd, Verdict.trap_andThen]
theorem checkJr_trap (a : Opnd) (cl : Claims) : checkJr a cl s = .trap 0x03 1 := by rw [checkJr, checkBranch_trap hd, Verdict.trap_andThen]
theorem checkCqdrop_trap (nm1 : BitVec 4) (n : Nat) : checkCqdrop nm1 n s = .trap 0x03 1 := checkDelay_andThen_trap hd _
theorem checkTkwait_trap (k : BitVec 6) : checkTkwait k s = .trap 0x03 1 := checkDelay_andThen_trap hd _
theorem checkWaitq_trap : checkWaitq s = .trap 0x03 1 := checkDelay_andThen_trap hd _
theorem checkYield_trap : checkYield s = .trap 0x03 1 := checkDelay_andThen_trap hd _
theorem checkBara_trap (slot : BitVec 3) : checkBara slot s = .trap 0x03 1 := checkDelay_andThen_trap hd _
theorem checkBarw_trap (slot : BitVec 3) : checkBarw slot s = .trap 0x03 1 := checkDelay_andThen_trap hd _
theorem checkExit_trap (a : Opnd) (cl : Claims) : checkExit a cl s = .trap 0x03 1 := checkDelay_andThen_trap hd _

theorem checkCtxsw_trap (hl : s.src.level ≠ .user) : checkCtxsw s = .trap 0x03 1 := by
  rw [checkCtxsw, supervisorTrap_go hl, Verdict.go_andThen, checkDelay_trap hd]

theorem checkRft_trap (hl : s.src.level ≠ .user) : checkRft s = .trap 0x03 1 := by
  simp only [checkRft, Verdict.all, supervisorTrap_go hl, Verdict.go_andThen, checkDelay_trap hd, Verdict.trap_andThen]

theorem checkHalt_trap (hl : s.src.level = .firmware) : checkHalt s = .trap 0x03 1 := by
  rw [checkHalt, hl, show privilegeTrap .firmware .firmware 1 = .go from rfl, Verdict.go_andThen, checkDelay_trap hd]

theorem checkCall_trap {ra : Nat} (h3 : s.bundlesOn s.src s.src.pc 3 = .ok ra) : checkCall s = .trap 0x03 1 := by
  rw [checkCall, h3, fetchCheck_ok, Verdict.go_andThen, checkBranch_trap hd]

theorem checkCallr_trap {ra : Nat} (h3 : s.bundlesOn s.src s.src.pc 3 = .ok ra) (a : Opnd) (cl : Claims) : checkCallr a cl s = .trap 0x03 1 := by
  rw [checkCallr, checkCall_trap hd h3, Verdict.trap_andThen]

/-- A loop of no trip fetches ahead the headers that its skip needs. -/
theorem checkLoop_trap {n : Nat} {last : BitVec 14} (h : n ≠ 0 ∨ ∃ r, s.cascade (s.loopLast last) s.src.loops = .ok r) :
    checkLoop n last s = .trap 0x03 1 := by
  have hfirst : (if n = 0 then cascadeCheck (s.cascade (s.loopLast last) s.src.loops) else .go) = .go := by
    split
    · next h0 =>
      obtain ⟨r, hr⟩ := h.resolve_left (fun h => h h0)
      rw [hr, cascadeCheck_ok]
    · rfl
  simp only [checkLoop, Verdict.all, hfirst, Verdict.go_andThen, checkDelay_trap hd, Verdict.trap_andThen]

theorem checkLeave_trap (h : ∀ o r, s.src.loops = o :: r → ∃ z, s.cascade o.last r = .ok z) : checkLeave s = .trap 0x03 1 := by
  rw [checkLeave]
  split
  · exact checkDelay_andThen_trap hd _
  · next o r hl =>
    obtain ⟨z, hz⟩ := h o r hl
    rw [hz, cascadeCheck_ok, Verdict.go_andThen, checkDelay_trap hd]

end

/-- Settles O23: each check of the slot reaches `checkDelay`, and what it asks before that is granted. -/
theorem branchInDelaySlotTraps : Obligations.BranchInDelaySlotTraps := by
  unfold Obligations.BranchInDelaySlotTraps
  intro s off a nm1 k slot code cnt last x hd
  have count {n : Nat} {v : BitVec n} (h : v ≠ 0) : v.toNat ≠ 0 := fun e => h (BitVec.eq_of_toNat_eq e)
  refine ⟨show execNopB s = _ from gated_trap (checkDelay_trap hd) _ s, show branchIf true off s = _ from gated_trap (checkBr_trap hd 0) _ s,
    show branchIf false off s = _ from gated_trap (checkBr_trap hd 0) _ s, show execJ off s = _ from gated_trap (checkBranch_trap hd) _ s,
    show execJr a s = _ from gated_trap (checkJr_trap hd a .none) _ s, show execRet s = _ from gated_trap (checkBranch_trap hd) _ s,
    show execCqdrop nm1 s = _ from gated_trap (checkCqdrop_trap hd nm1 0) _ s, show execTkwait k s = _ from gated_trap (checkTkwait_trap hd k) _ s,
    show execWaitq s = _ from gated_trap (checkWaitq_trap hd) _ s, show execYield s = _ by rw [execYield, checkYield_trap hd],
    show execBara slot s = _ from gated_trap (checkBara_trap hd slot) _ s, show execBarw slot s = _ from gated_trap (checkBarw_trap hd slot) _ s,
    show execTrap code s = _ from gated_trap (checkDelay_trap hd) _ s, show execSys code s = _ from gated_trap (checkDelay_trap hd) _ s,
    show execExit a s = _ from gated_trap (checkExit_trap hd a .none) _ s, fun hl => ⟨?_, ?_⟩, fun hl => ?_, fun ra h3 => ⟨?_, ?_⟩, fun hn => ?_,
    fun hx hn => ?_, fun hl => ?_, fun o r hl hz => ?_⟩
  · exact show execCtxsw s = _ from gated_trap (checkCtxsw_trap hd hl) _ s
  · exact show execRft s = _ from gated_trap (checkRft_trap hd hl) _ s
  · exact show execHalt s = _ from gated_trap (checkHalt_trap hd hl) _ s
  · exact show execCall off s = _ from gated_trap (checkCall_trap hd h3) _ s
  · exact show execCallr a s = _ from gated_trap (checkCallr_trap hd h3 a .none) _ s
  · show exec (.loop cnt last) s = _
    rw [exec_loop, gated_trap (checkLoop_trap hd (hn.imp_left count))]
  · have hv : exec (.loopv a last) s = .next (s.takeTrap 0x03 1) := by rw [exec_loopv hx, gated_trap (checkLoop_trap hd (hn.imp_left count))]
    exact ⟨hv, fun q ha hbound hdelta => (exec_loops ha hbound hdelta last).trans hv⟩
  · exact show execLeave s = _ from gated_trap (checkLeave_trap hd fun o r h => by simp [hl] at h) _ s
  · have hcascade : ∀ o' r', s.src.loops = o' :: r' → ∃ z, s.cascade o'.last r' = .ok z := fun o' r' h => by
      obtain ⟨rfl, rfl⟩ := List.cons.inj (hl.symm.trans h)
      exact hz
    exact show execLeave s = _ from gated_trap (checkLeave_trap hd hcascade) _ s

/-! ### What a loop instruction leaves -/

section
variable {s : State} {last : BitVec 14} {n : Nat} (hd : s.src.dsc = 0)
include hd

/-- The checks of a loop instruction pass: a count in range, room on the stack for a body that runs, and the body inside the innermost one. -/
theorem checkLoop_go (hn : n < 2 ^ 32) (hroom : n ≠ 0 → s.src.loops.length < 6) (hinside : ∀ o r, s.src.loops = o :: r → s.loopLast last ≤ o.last)
    (hskip : n = 0 → ∃ z, s.cascade (s.loopLast last) s.src.loops = .ok z) : checkLoop n last s = .go := by
  simp only [checkLoop, Verdict.all_cons_go, Verdict.all_nil, checkDelay_go hd, trapIf_go, and_true, true_and]
  refine ⟨?_, by omega, fun h => by have := hroom h.1; omega, ?_⟩
  · split
    · next h0 =>
      obtain ⟨z, hz⟩ := hskip h0
      rw [hz, cascadeCheck_ok]
    · rfl
  · split
    · rfl
    · next o r hl => exact trapIf_neg (Nat.not_lt.mpr (hinside o r hl)) _ _

section
variable (h0 : n ≠ 0)
include h0

theorem checkLoop_count (hn : 2 ^ 32 ≤ n) : checkLoop n last s = .trap 0x02 1 := by
  simp only [checkLoop, Verdict.all, if_neg h0, Verdict.go_andThen, checkDelay_go hd, trapIf_pos hn, Verdict.trap_andThen]
  rfl

theorem checkLoop_full (hn : n < 2 ^ 32) (hfull : s.src.loops.length = 6) : checkLoop n last s = .trap 0x12 1 := by
  simp only [checkLoop, Verdict.all, if_neg h0, Verdict.go_andThen, checkDelay_go hd, trapIf_neg (Nat.not_le.mpr hn),
    trapIf_pos (show n ≠ 0 ∧ 6 ≤ s.src.loops.length from ⟨h0, by omega⟩), Verdict.trap_andThen]
  rfl

theorem checkLoop_outside (hn : n < 2 ^ 32) (hroom : s.src.loops.length < 6) {o : LoopEntry} {r : List LoopEntry} (hl : s.src.loops = o :: r)
    (hout : o.last < s.loopLast last) : checkLoop n last s = .trap 0x02 1 := by
  have hfull : ¬ (n ≠ 0 ∧ 6 ≤ s.src.loops.length) := fun h => by omega
  simp only [checkLoop, Verdict.all, if_neg h0, Verdict.go_andThen, checkDelay_go hd, trapIf_neg (Nat.not_le.mpr hn), trapIf_neg hfull]
  rw [hl]
  simp only [trapIf_pos hout, Verdict.trap_andThen]
  rfl

end

end

/-- A count of one or more pushes an entry, with the body from the next bundle on (R76). -/
theorem State.loopStart_push {s t : State} {c : Context} (ht : t = s.setCtx c) (hloops : t.ctx.loops = s.ctx.loops) {n first : Nat} (h0 : n ≠ 0)
    (hfirst : s.nextBundle s.src s.src.pc = .ok first) (last : BitVec 14) :
    t.loopStart n last = { t with ctx.loops := { first := first, last := s.loopLast last, idx := 0, remain := n - 1 } :: s.ctx.loops } := by
  have hnext : t.nextBundle t.src t.src.pc = .ok first := by rw [ht, State.setCtx_src, State.nextBundle_setCtx, hfirst]
  have hlast : t.loopLast last = s.loopLast last := by rw [ht]; rfl
  simp only [State.loopStart, if_neg h0, hnext, hloops, hlast]

/-- A count of zero goes where the completion of the body's last bundle leads (R76). -/
theorem State.loopStart_skip {s t : State} {c : Context} (ht : t = s.setCtx c) (hloops : t.ctx.loops = s.ctx.loops) {last : BitVec 14} {dest : Nat}
    {rest : List LoopEntry} (hskip : s.cascade (s.loopLast last) s.ctx.loops = .ok (dest, rest)) :
    t.loopStart 0 last = { t with ctx.loops := rest, ctx.goto := some dest } := by
  have hcascade : t.cascade (t.loopLast last) t.ctx.loops = .ok (dest, rest) := by
    rw [hloops, show t.loopLast last = s.loopLast last by rw [ht]; rfl, ht, State.cascade_setCtx, hskip]
  simp only [State.loopStart, if_true, hcascade]

theorem State.reading_loops (s : State) (os : List Opnd) : (s.reading os).ctx.loops = s.ctx.loops := by
  rw [State.reading, State.takeAll_same os s]

/-- Settles O24: the checks in their order, then `State.loopStart`, on the machine whose operand has been read. -/
theorem loopsPushAndSkip : Obligations.LoopsPushAndSkip := by
  unfold Obligations.LoopsPushAndSkip
  intro s a x cnt last first dest rest hsrc hd hfirst
  have hd' : s.src.dsc = 0 := hsrc ▸ hd
  have hlast : s.loopLast last = s.ctx.pc + 4 * last.toNat := by rw [State.loopLast, hsrc]
  have hcnt : cnt.toNat < 2 ^ 32 := by have := cnt.isLt; omega
  have hcnt0 (h : cnt ≠ 0) : cnt.toNat ≠ 0 := fun e => h (BitVec.eq_of_toNat_eq e)
  have hx0 (h : x ≠ 0) : x.toNat ≠ 0 := fun e => h (BitVec.eq_of_toNat_eq e)
  have inner (h : ∀ o r, s.ctx.loops = o :: r → s.ctx.pc + 4 * last.toNat ≤ o.last) : ∀ o r, s.src.loops = o :: r → s.loopLast last ≤ o.last :=
    fun o r hl => hlast ▸ h o r (hsrc ▸ hl)
  have outer (h : ¬ ∀ o r, s.ctx.loops = o :: r → s.ctx.pc + 4 * last.toNat ≤ o.last) : ∃ o r, s.src.loops = o :: r ∧ o.last < s.loopLast last := by
    push Not at h
    rw [hsrc, hlast]
    exact h
  obtain ⟨c, hc⟩ := s.take_eq_setCtx a
  have hread : s.reading [a] = s.setCtx c := hc
  -- what LOOPV does, LOOPS does on a stream in delta mode
  have both {o : Host.Outcome State Fault Refusal} (h : exec (.loopv a last) s = o) :
      exec (.loopv a last) s = o ∧
        ((∃ q : Fin 16, a = .q q ∧ s.ctx.streams[q].bind = .bound ∧ s.ctx.streams[q].delta = true) → exec (.loops a last) s = o) :=
    ⟨h, fun ⟨q, ha, hbound, hdelta⟩ => (exec_loops ha hbound hdelta last).trans h⟩
  refine ⟨fun hin hroom h0 => ?_, fun hin hroom hx hpos hlt => both ?_, fun hin hskip => ⟨?_, fun hx => both ?_⟩, fun o r hl hskip => ?_, fun hl => ?_,
    fun hfull h0 => ?_, fun hroom h0 hout => ?_, fun hx hbig => both ?_, fun hfull hx h0 hlt => both ?_, fun hroom hout hx h0 hlt => both ?_⟩
  · rw [exec_loop, gated_go (checkLoop_go hd' hcnt (fun _ => hsrc ▸ hroom) (inner hin) (fun h => absurd h (hcnt0 h0))),
      State.loopStart_push (s := s) (t := s) (c := s.ctx) rfl rfl (hcnt0 h0) hfirst, hlast]
  · have h0 : x.toNat ≠ 0 := by omega
    rw [exec_loopv hx, gated_go (checkLoop_go hd' hlt (fun _ => hsrc ▸ hroom) (inner hin) (fun h => absurd h h0)),
      State.loopStart_push hread (s.reading_loops [a]) h0 hfirst, hlast]
  · rw [← hlast] at hskip
    have hgo : checkLoop (0 : BitVec 13).toNat last s = .go :=
      checkLoop_go hd' (by decide) (fun h => absurd rfl h) (inner hin) (fun _ => ⟨_, hsrc ▸ hskip⟩)
    rw [exec_loop, gated_go hgo]
    exact congrArg _ (State.loopStart_skip (s := s) (t := s) (c := s.ctx) rfl rfl hskip)
  · rw [← hlast] at hskip
    have hgo : checkLoop (0 : Word).toNat last s = .go :=
      checkLoop_go hd' (by decide) (fun h => absurd rfl h) (inner hin) (fun _ => ⟨_, hsrc ▸ hskip⟩)
    rw [exec_loopv hx, gated_go hgo]
    exact congrArg _ (State.loopStart_skip hread (s.reading_loops [a]) hskip)
  · have hgo : checkLeave s = .go := by simp only [checkLeave, hsrc, hl, hskip, cascadeCheck_ok, Verdict.go_andThen, checkDelay_go hd']
    show execLeave s = _
    rw [execLeave, gated_go hgo, hl]
    simp only [hskip]
  · have hempty : checkLeave s = .trap 0x02 1 := by
      simp only [checkLeave, hsrc, hl, checkDelay_go hd', Verdict.go_andThen]
      rfl
    show execLeave s = _
    rw [execLeave, gated_trap hempty]
  · rw [exec_loop, gated_trap (checkLoop_full hd' (hcnt0 h0) hcnt (hsrc ▸ hfull))]
  · obtain ⟨o, r, hl, hlt⟩ := outer hout
    rw [exec_loop, gated_trap (checkLoop_outside hd' (hcnt0 h0) hcnt (hsrc ▸ hroom) hl hlt)]
  · rw [exec_loopv hx, gated_trap (checkLoop_count hd' (by omega) hbig)]
  · rw [exec_loopv hx, gated_trap (checkLoop_full hd' (hx0 h0) hlt (hsrc ▸ hfull))]
  · obtain ⟨o, r, hl, hlt'⟩ := outer hout
    rw [exec_loopv hx, gated_trap (checkLoop_outside hd' (hx0 h0) hlt (hsrc ▸ hroom) hl hlt')]

end Sys2Proof.Machine
end

section
/-! # The header-only bundle

Its operations are the sticky ones, each run by its own meaning (R12, R13). -/

namespace Sys2Proof.Machine

theorem waveExec_eq_exec {i : Instr} (h : i.slot = some .w0 ∨ i.slot = some .w1 ∨ i.slot = some .m) (s : State) : waveExec i s = exec i s := by
  cases i <;> simp [Instr.slot] at h <;> rfl

/-- Running wave operations one after another is running the meaning of each. -/
theorem foldl_waveExec {l : List Instr} (h : ∀ i ∈ l, i.slot = some .w0 ∨ i.slot = some .w1 ∨ i.slot = some .m) (s : State) :
    l.foldl (fun u i => stateOf u (waveExec i u)) s = l.foldl (fun u i => stateOf u (exec i u)) s :=
  List.foldl_ext _ _ s fun u i hi => by rw [waveExec_eq_exec (h i hi)]

/-- A word without operations waits for nothing. -/
theorem State.waveHeld_idle (s : State) (sel : BitVec 2) (j k : Nat) :
    s.waveHeld { sel := sel, w0 := none, w1 := none, w1n := j, m := none, mn := k } = false := by
  simp [State.waveHeld, WaveWord.ops]

/-- A word without operations leaves its record alone. -/
theorem State.waveStart_idle (s : State) (sel : BitVec 2) (j k : Nat) :
    s.waveStart { sel := sel, w0 := none, w1 := none, w1n := j, m := none, mn := k } =
      { s with wave := { sel := sel, west := [], north := [], conflict := [], w1n := j, mn := k } } := rfl

/-- A header-only bundle that nothing holds takes its elements and issues its operations. -/
theorem exec_stick {s : State} {sel : BitVec 2} (rep : BitVec 8) (h : s.waveHeld (s.src.stickyWord sel) = false) :
    exec (.stick sel rep) s =
      .next ((s.src.stickyWord sel).ops.foldl (fun u i => stateOf u (waveExec i u)) (s.waveStart (s.src.stickyWord sel))) := by
  have hgo : checkStick sel s = .go := if_neg (by simp [h])
  show execStick sel rep s = _
  rw [execStick, gated_go hgo]

/-- Settles O30: the three verdicts of the bundle's check, by the word of the sticky slots. -/
theorem stickIssuesStickySlots : Obligations.StickIssuesStickySlots := by
  unfold Obligations.StickIssuesStickySlots
  intro s sel rep hsrc
  have hword : s.src.stickyWord sel = s.ctx.stickyWord sel := by rw [hsrc]
  refine ⟨fun hslots hfree => ?_, fun h0 h1 hm => ?_, fun hheld => ?_⟩
  · rw [exec_stick rep (hword ▸ hfree), hword]
    exact congrArg _ (foldl_waveExec hslots _)
  · have hidle : s.ctx.stickyWord sel = { sel := sel, w0 := none, w1 := none, w1n := s.ctx.sticky.w1n + 1, m := none, mn := s.ctx.sticky.mn + 1 } := by
      rw [Context.stickyWord, h0, h1, hm]
    rw [exec_stick rep (by rw [hword, hidle, State.waveHeld_idle]), hword, hidle, State.waveStart_idle]
    exact ⟨_, rfl, rfl⟩
  · have hhold : checkStick sel s = .hold := if_pos (hword ▸ hheld)
    show execStick sel rep s = _
    rw [execStick, gated_hold hhold]

end Sys2Proof.Machine
end

section
/-! # What a wave operation writes in a cell

Each operation's outcome in one cell writes registers of that cell which its fields name as its destination (R92), and only CST and
CSTM write the cell's store (R153). -/

namespace Sys2Proof.Machine

/-! ### Outcomes -/

/-- What an operation does in cell `i` goes to registers `rs` of that cell, and nothing goes to the cell's store. -/
def CellOut.Into (o : CellOut) (i : Nat) (rs : List CellReg) : Prop := o.stored = none ∧ ∀ w ∈ o.writes, w.cell = i ∧ w.reg ∈ rs

def CellOp.Into (op : CellOp) (rs : List CellReg) : Prop := ∀ s i, (op s i).Into i rs

theorem CellOp.Into.within {op : CellOp} {rs : List CellReg} (h : op.Into rs) : op.Within rs := fun s i => (h s i).2

theorem CellOut.into_of_writes_nil {o : CellOut} {i : Nat} {rs : List CellReg} (hs : o.stored = none) (hw : o.writes = []) : o.Into i rs :=
  ⟨hs, by simp [hw]⟩

theorem CellOut.into_of_write {o : CellOut} {i : Nat} {rs : List CellReg} {w : CellWrite} (hs : o.stored = none) (hw : o.writes = [w])
    (hc : w.cell = i) (hr : w.reg ∈ rs) : o.Into i rs :=
  ⟨hs, by simpa [hw] using ⟨hc, hr⟩⟩

/-- The poison of an illegal operation goes to the registers of its destination spans. -/
theorem illegalOut_into (s : State) (i : Nat) (spans : List Span) : (illegalOut s i spans).Into i (spans.map Prod.fst) := by
  refine ⟨rfl, fun w hw => ?_⟩
  obtain ⟨d, hd, rfl⟩ := List.mem_map.mp hw
  exact ⟨rfl, List.mem_map_of_mem hd⟩

theorem faultOut_into (s : State) (i kind : Nat) (spans : List Span) : (faultOut s i kind spans).Into i (spans.map Prod.fst) :=
  illegalOut_into s i spans

/-- The vector register that a five-bit field names. -/
def vReg (d : Nat) : CellReg := .v (Fin.ofNat 32 d)

theorem vecOut_into (i d w : Nat) (reads : List RegRead) (l : List Elt) : (vecOut i d w reads l).Into i [vReg d] :=
  CellOut.into_of_write rfl rfl rfl (List.mem_singleton_self _)

theorem gSpan_eq {d : Nat} (h : d < 8) : gSpan d = [whole (.g (Fin.ofNat 8 d))] := if_pos h
theorem mSpan_eq {d : Nat} (h : d < 8) (lo len : Nat) : mSpan d lo len = [(.m (Fin.ofNat 8 d), lo, len)] := if_pos h

/-- A mask register written whole is the one that the field names. -/
theorem gReg_mem {d : Nat} (h : d < 8) : CellReg.g (Fin.ofNat 8 d) ∈ (gSpan d).map Prod.fst := by simp [gSpan_eq h, whole]
theorem mReg_mem {d : Nat} (h : d < 8) (lo len : Nat) : CellReg.m (Fin.ofNat 8 d) ∈ (mSpan d lo len).map Prod.fst := by simp [mSpan_eq h]

/-! ### Operations with a legality test -/

theorem w0Cell_into {w : W0} {spans : List Span} {legal : Fmt → Bool} {act : Fmt → CellOp}
    (h : ∀ f, w.fmt = some f → legal f = true → (act f).Into (spans.map Prod.fst)) : (w0Cell w spans legal act).Into (spans.map Prod.fst) := by
  intro s i
  unfold w0Cell
  split
  · exact illegalOut_into s i spans
  · next f hf =>
    split
    · next hl => exact h f hf hl s i
    · exact illegalOut_into s i spans

/-- A W0 operation on the vector register of its D field. -/
theorem w0Cell_into_vec {w : W0} {legal : Fmt → Bool} {act : Fmt → CellOp} (h : ∀ f, (act f).Into [vReg w.d.toNat]) :
    (w0Cell w (vSpan w.d.toNat) legal act).Into [vReg w.d.toNat] :=
  w0Cell_into fun f _ _ => h f

theorem w1Cell_into {spans : List Span} {legal : Bool} {act : CellOp} (h : legal = true → act.Into (spans.map Prod.fst)) :
    (w1Cell spans legal act).Into (spans.map Prod.fst) := by
  intro s i
  unfold w1Cell
  split
  · next hl => exact h hl s i
  · exact illegalOut_into s i spans

/-! ### W0 -/

section
variable (w : W0)

theorem eltwise1_into (f : Fmt) (g : Nat → Nat × Nat) : (eltwise1 w f g).Into [vReg w.d.toNat] := fun _ _ => vecOut_into ..
theorem eltwise2_into (f : Fmt) (g : Nat → Nat → Nat × Nat) : (eltwise2 w f g).Into [vReg w.d.toNat] := fun _ _ => vecOut_into ..
theorem eltwise3_into (f : Fmt) (g : Nat → Nat → Nat → Nat × Nat) : (eltwise3 w f g).Into [vReg w.d.toNat] := fun _ _ => vecOut_into ..
theorem fillOut_into (f : Fmt) (g : Nat → Nat × Nat) : (fillOut w f g).Into [vReg w.d.toNat] := fun _ _ => vecOut_into ..
theorem reduceOut_into (f : Fmt) (g : List Nat → Nat × Nat) : (reduceOut w f g).Into [vReg w.d.toNat] := fun _ _ => vecOut_into ..

theorem bitwise_into (g : Nat → Nat → Nat) : (bitwise w g).Into [vReg w.d.toNat] := w0Cell_into_vec fun f => eltwise2_into w f _

theorem shift_into (g : Nat → Nat → Nat → Nat) : (shift w g).Into [vReg w.d.toNat] := by
  refine w0Cell_into_vec fun f => ?_
  split
  · exact eltwise1_into w f _
  · exact eltwise2_into w f _

theorem cellVcmp_into : (cellVcmp w).Into (waveRegs (.vcmp w)) := by
  refine w0Cell_into fun f _ hl s i => CellOut.into_of_write rfl rfl rfl (gReg_mem ?_)
  simp only [Bool.and_eq_true, decide_eq_true_eq] at hl
  exact hl.2

theorem cellVmask_into : (cellVmask w).Into (waveRegs (.vmask w)) := by
  refine w0Cell_into fun f _ hl s i => CellOut.into_of_write rfl rfl rfl (gReg_mem ?_)
  simp only [Bool.and_eq_true, decide_eq_true_eq] at hl
  obtain ⟨⟨⟨-, hd⟩, -⟩, -⟩ := hl
  exact hd

theorem cellVflag_into : (cellVflag w).Into [.f] :=
  w0Cell_into (spans := [whole .f]) fun _ _ _ _ _ => CellOut.into_of_write rfl rfl rfl (List.mem_singleton_self _)

/-- An aligned group of `rho` registers is written by one vector each. -/
theorem groupOut_into (i : Nat) {d rho : Nat} (width : Nat) (reads : List RegRead) (g : Nat → Nat → Elt) (h : d % rho = 0) :
    (groupOut i d width rho reads g).Into i ((groupSpans d rho).map Prod.fst) := by
  refine ⟨rfl, fun x hx => ?_⟩
  simp only [groupOut, List.map_map, List.mem_map, List.mem_range, Function.comp_apply] at hx
  obtain ⟨k, hk, rfl⟩ := hx
  refine ⟨rfl, ?_⟩
  rw [groupSpans, if_pos h, List.map_flatMap, List.mem_flatMap]
  exact ⟨k, List.mem_range.mpr hk, List.mem_singleton_self _⟩

theorem cellVcvt_into : (cellVcvt w).Into (waveRegs (.vcvt w)) := by
  intro s i
  show (cellVcvt w s i).Into i ((cvtSpans w).map Prod.fst)
  unfold cellVcvt
  split
  · next f g hf hg =>
    have hspans : cvtSpans w = groupSpans w.d.toNat (if g.width < f.width then f.width / g.width else 1) := by simp only [cvtSpans, hf, hg]
    split
    · exact illegalOut_into s i _
    · next hl =>
      rw [hspans]
      split
      · next hlt =>
        refine groupOut_into i _ _ _ ?_
        simp only [cvtLegal, if_pos hlt, Bool.not_eq_true, Bool.not_eq_false', Bool.and_eq_true, beq_iff_eq] at hl
        exact hl.2
      · next hle =>
        exact groupOut_into i _ _ _ (Nat.mod_one _)
  · exact illegalOut_into s i _

theorem wideCell_into (adds : Bool) : (wideCell w adds).Into ((wideSpans w).map Prod.fst) := by
  refine w0Cell_into fun f hf hl s i => ?_
  simp only [Bool.and_eq_true, decide_eq_true_eq] at hl
  obtain ⟨⟨hwide, -⟩, haligned⟩ := hl
  have hspans : wideSpans w = groupSpans w.d.toNat (32 / f.width) := by simp only [wideSpans, hf, if_pos hwide]
  rw [hspans]
  exact groupOut_into i _ _ _ haligned

theorem cellVscale_into : (cellVscale w).Into [vReg w.d.toNat] := by
  refine w0Cell_into_vec fun f => ?_
  split
  · exact eltwise2_into w _ _
  · exact eltwise2_into w _ _

theorem cellVclass_into : (cellVclass w).Into [vReg w.d.toNat] := by
  refine w0Cell_into_vec fun f => ?_
  split
  · exact eltwise1_into w _ _
  · exact eltwise1_into w _ _

theorem specialCell_into (fn : SpecialFn) : (specialCell w fn).Into [vReg w.d.toNat] := by
  refine w0Cell_into_vec fun f => ?_
  split
  · exact eltwise1_into w _ _
  · exact eltwise1_into w _ _

theorem cellVexp2_into : (cellVexp2 w).Into [vReg w.d.toNat] := by
  refine w0Cell_into_vec fun f => ?_
  split
  · exact eltwise1_into w _ _
  · split
    · exact eltwise3_into w _ _
    · exact eltwise2_into w _ _

end

/-! ### W1 -/

theorem cellXset_into (w : W1Move) : (cellXset w).Into [commReg (w.field 0 1)] :=
  w1Cell_into (spans := [whole (commReg (w.field 0 1))]) fun _ _ _ => CellOut.into_of_write rfl rfl rfl (List.mem_singleton_self _)

theorem cellXget_into (w : W1Move) : (cellXget w).Into [vReg w.d.toNat] :=
  w1Cell_into (spans := vSpan w.d.toNat) fun _ _ _ => CellOut.into_of_write rfl rfl rfl (List.mem_singleton_self _)

theorem cellXshf_into (w : W1Move) : (cellXshf w).Into (waveRegs (.xshf w)) := by
  refine w1Cell_into fun _ s i => ⟨rfl, fun x hx => ?_⟩
  simp only [shfSpans]
  rcases List.mem_append.mp hx with hx | hx
  · split at hx
    · next h => simp [List.mem_singleton.mp hx, chunkWrite, whole, h]
    · simp at hx
  · split at hx
    · next h => simp [List.mem_singleton.mp hx, chunkWrite, whole, h]
    · simp at hx

/-- XSIDE moves RES to a mask register, the side part to a vector register, or a vector register's bytes to META. -/
theorem sideLegal_cases {w : W1Move} (h : sideLegal w = true) : w.field 1 2 = 0 ∧ w.d.toNat < 8 ∨ w.field 1 2 = 1 ∨ w.field 1 2 = 2 := by
  simp only [sideLegal, Bool.and_eq_true] at h
  obtain ⟨-, h⟩ := h
  split at h
  · next h0 =>
    simp only [Bool.and_eq_true, decide_eq_true_eq] at h
    exact .inl ⟨h0, h.2⟩
  · next h1 => exact .inr (.inl h1)
  · next h2 => exact .inr (.inr h2)
  · exact absurd h Bool.false_ne_true

theorem cellXside_into (w : W1Move) : (cellXside w).Into (waveRegs (.xside w)) := by
  refine w1Cell_into fun hl s i => ?_
  dsimp only
  rcases s.chunk i (w.field 0 1) with ⟨c, reads⟩
  simp only [sideSpans]
  rcases sideLegal_cases hl with ⟨h, hd⟩ | h | h
  · simp only [h]
    exact CellOut.into_of_write rfl rfl rfl (gReg_mem hd)
  · simp only [h]
    exact CellOut.into_of_write rfl rfl rfl (List.mem_singleton_self _)
  · simp only [h]
    exact CellOut.into_of_write rfl rfl rfl (List.mem_singleton_self _)

theorem cellMvm_into (w : W1Move) : (cellMvm w).Into (waveRegs (.mvm w)) := by
  refine w1Cell_into fun hl s i => ?_
  simp only [Bool.and_eq_true] at hl
  obtain ⟨-, hl⟩ := hl
  simp only [mvmSpans]
  split
  · next h =>
    simp only [h, if_true, decide_eq_true_eq] at hl
    exact CellOut.into_of_write rfl rfl rfl (mReg_mem hl _ _)
  · exact CellOut.into_of_write rfl rfl rfl (List.mem_singleton_self _)

theorem cellFset_into (w : W1Move) : (cellFset w).Into [.f] := by
  refine w1Cell_into (spans := [whole .f]) fun _ s i => ?_
  dsimp only
  split <;> exact CellOut.into_of_write rfl rfl rfl (List.mem_singleton_self _)

/-- CLD and CLDM: a load outside the store writes poison to its spans. -/
theorem loadCell_into {w : W1Store} {spans : List Span} {legal : Bool} {reg : CellReg} {size : Nat} (h : legal = true → reg ∈ spans.map Prod.fst) :
    (loadCell w spans legal reg size).Into (spans.map Prod.fst) := by
  refine w1Cell_into fun hl s i => ?_
  dsimp only
  split
  · exact ⟨rfl, (illegalOut_into s i spans).2⟩
  · exact CellOut.into_of_write rfl rfl rfl (h hl)

/-- CST and CSTM write no register. -/
theorem storeCell_within (w : W1Store) (legal : Bool) (reg : CellReg) (size : Nat) : (storeCell w legal reg size).Within [] := by
  intro s i x hx
  unfold storeCell w1Cell at hx
  split at hx
  · dsimp only at hx
    split at hx <;> exact absurd hx List.not_mem_nil
  · exact absurd hx List.not_mem_nil

end Sys2Proof.Machine
end

section
/-! # Wave operations that act at once

They change enabled cells' destination registers, and only CST and CSTM the cells' stores (R91, R92, R153). -/

namespace Sys2Proof.Machine

/-! ### The cells' stores -/

theorem StoresSame.trans {s t u : State} (h : StoresSame s t) (k : StoresSame t u) : StoresSame s u := fun i => (k i).trans (h i)

/-- A step that reaches no cell leaves the cells' stores. -/
theorem WaveStep.storesSame {s t : State} {rs : List CellReg} (h : WaveStep rs (fun _ => False) s t) : StoresSame s t :=
  fun i => congrArg CellState.store (h.off i id)

theorem foldl_storesSame {α : Type} {f : State → α → State} (hf : ∀ s a, StoresSame s (f s a)) (l : List α) (s : State) :
    StoresSame s (l.foldl f s) := by
  induction l generalizing s with
  | nil => exact fun _ => rfl
  | cons a l ih => exact (hf s a).trans (ih _)

theorem applyCell_storesSame (s : State) (w : CellWrite) : StoresSame s (s.applyCell w) := by
  refine StoresSame.trans (fun i => ?_) (drainOut_step [] _ _ w.cell w.reg).storesSame
  show ((s.ctx.setCell w.cell _).cell i).store = _
  rw [Context.cell_setCell]
  split
  · exact CellState.write_store ..
  · rfl

/-- An operation that stores nothing in a cell leaves its store. -/
theorem runCell_storesSame (slot : Nat) (late : Bool) {op : CellOp} (a : WaveAcc) (i : Nat) (h : (op a.s i).stored = none) :
    StoresSame a.s (runCell slot late op a i).s := by
  unfold runCell
  split
  · simp only [h]
    have spoiled (l : List CellReg) : StoresSame a.s ((a.s.meetErrs (op a.s i) i).spoil i l) :=
      foldl_storesSame (fun s r => applyCell_storesSame s _) l _
    exact ((spoiled _).trans (foldl_storesSame applyCell_storesSame _ _)).trans (raiseAll_step [] _ _ slot i _).storesSame
  · exact fun _ => rfl

theorem foldl_runCell_storesSame (slot : Nat) (late : Bool) {op : CellOp} (h : ∀ s i, (op s i).stored = none) (l : List Nat) (a : WaveAcc) :
    StoresSame a.s (l.foldl (runCell slot late op) a).s := by
  induction l generalizing a with
  | nil => exact fun _ => rfl
  | cons i l ih => exact (runCell_storesSame slot late a i (h a.s i)).trans (ih _)

theorem runWave_storesSame (s : State) (slot : Nat) (late : Option Nat) (accum : Bool) {op : CellOp} (h : ∀ s i, (op s i).stored = none) :
    StoresSame s (s.runWave slot late accum op) := by
  refine (foldl_runCell_storesSame slot late.isSome h (List.range s.cellCount) { s := s, late := [], evs := [] }).trans ?_
  simp only [State.runWave]
  generalize List.foldl _ _ (List.range s.cellCount) = a
  generalize dripRecords .. = recs
  cases recs <;> cases late <;> exact fun _ => rfl

/-! ### W0 and W1 operations without LAT -/

/-- Becoming sticky changes the sticky slots alone. -/
theorem OnlyWave.sticky {s t : State} (h : OnlyWave s t) (k : Sticky) : OnlyWave s { t with ctx.sticky := k } :=
  (congrArg (fun u : State => ({ u with ctx.sticky := k } : State)) h :)

/-- What O31 says of an instruction. -/
def KeepsToDestination (i : Instr) (s : State) : Prop :=
  ∃ t, exec i s = .next t ∧ OnlyWave s t ∧ OnlyDrains s t ∧ CellsBut (waveRegs i ++ s.wave.conflict) s t ∧ t.ctx.pend = s.ctx.pend ∧
    (i.slot = some .w0 → t.ctx.sticky = { s.ctx.sticky with w0 := some i }) ∧
    (i.slot = some .w1 → t.ctx.sticky = { s.ctx.sticky with w1 := some i, w1n := s.wave.w1n }) ∧
    ((∀ w, i ≠ .cst w) → (∀ w, i ≠ .cstm w) → StoresSame s t)

section
variable {i : Instr} {op : CellOp} {s : State} {slot : Nat} (h : op.Within (waveRegs i))
include h

theorem runWave_now_sticky : (s.runWave slot none false op).ctx.sticky = s.ctx.sticky := by
  obtain ⟨-, -, -, -, sticky⟩ := runWave_now s slot false op h
  exact sticky

theorem runWave_now_wave : (s.runWave slot none false op).wave = s.wave := by rw [(runWave_now s slot false op h).1]

section
variable (hstored : (∀ w, i ≠ .cst w) → (∀ w, i ≠ .cstm w) → ∀ s j, (op s j).stored = none)
include hstored

/-- A run without LAT that becomes sticky, whatever its slot. -/
theorem keepsToDestination_run (k : Sticky) (hexec : exec i s = .next { s.runWave slot none false op with ctx.sticky := k })
    (h0 : i.slot = some .w0 → k = { s.ctx.sticky with w0 := some i })
    (h1 : i.slot = some .w1 → k = { s.ctx.sticky with w1 := some i, w1n := s.wave.w1n }) : KeepsToDestination i s := by
  obtain ⟨only, drains, cells, pend, -⟩ := runWave_now s slot false op h
  exact ⟨_, hexec, only.sticky k, drains, cells, pend, h0, h1, fun hcst hcstm => runWave_storesSame s slot none false (hstored hcst hcstm)⟩

theorem keepsToDestination_w1_within (hexec : exec i s = runW1 i none op s) (hi : i.slot = some .w1) : KeepsToDestination i s := by
  refine keepsToDestination_run h hstored _ (hexec.trans rfl) (fun h0 => by simp [hi] at h0) (fun _ => ?_)
  rw [runWave_now_sticky h, runWave_now_wave h]
  rfl

end

end

theorem keepsToDestination_w0 {i : Instr} {op : CellOp} {s : State} (hexec : exec i s = runW0 i none op s) (hi : i.slot = some .w0)
    (h : op.Into (waveRegs i)) : KeepsToDestination i s := by
  refine keepsToDestination_run h.within (fun _ _ s j => (h s j).1) _ (hexec.trans rfl) (fun _ => ?_) (fun h1 => by simp [hi] at h1)
  rw [runWave_now_sticky h.within]

theorem keepsToDestination_w1 {i : Instr} {op : CellOp} {s : State} (hexec : exec i s = runW1 i none op s) (hi : i.slot = some .w1)
    (h : op.Into (waveRegs i)) : KeepsToDestination i s :=
  keepsToDestination_w1_within h.within (fun _ _ s j => (h s j).1) hexec hi

/-- Settles O31: every operation's outcome goes into its destination registers, whatever the encoding. -/
theorem waveOperationsKeepToTheirDestination : Obligations.WaveOperationsKeepToTheirDestination := by
  unfold Obligations.WaveOperationsKeepToTheirDestination
  refine ⟨fun s => ⟨rfl, rfl, rfl⟩, fun i s hi => ?_⟩
  show KeepsToDestination i s
  cases i
  case vadd w => exact keepsToDestination_w0 rfl rfl (w0Cell_into_vec fun f => eltwise2_into w f _)
  case vsub w => exact keepsToDestination_w0 rfl rfl (w0Cell_into_vec fun f => eltwise2_into w f _)
  case vmul w => exact keepsToDestination_w0 rfl rfl (w0Cell_into_vec fun f => eltwise2_into w f _)
  case vfma w => exact keepsToDestination_w0 rfl rfl (w0Cell_into_vec fun f => eltwise3_into w f _)
  case vfms w => exact keepsToDestination_w0 rfl rfl (w0Cell_into_vec fun f => eltwise3_into w f _)
  case vmin w => exact keepsToDestination_w0 rfl rfl (w0Cell_into_vec fun f => eltwise2_into w f _)
  case vmax w => exact keepsToDestination_w0 rfl rfl (w0Cell_into_vec fun f => eltwise2_into w f _)
  case vabs w => exact keepsToDestination_w0 rfl rfl (w0Cell_into_vec fun f => eltwise1_into w f _)
  case vneg w => exact keepsToDestination_w0 rfl rfl (w0Cell_into_vec fun f => eltwise1_into w f _)
  case vand w => exact keepsToDestination_w0 rfl rfl (bitwise_into w _)
  case vor w => exact keepsToDestination_w0 rfl rfl (bitwise_into w _)
  case vxor w => exact keepsToDestination_w0 rfl rfl (bitwise_into w _)
  case vshl w => exact keepsToDestination_w0 rfl rfl (shift_into w _)
  case vshr w => exact keepsToDestination_w0 rfl rfl (shift_into w _)
  case vsra w => exact keepsToDestination_w0 rfl rfl (shift_into w _)
  case vcmp w => exact keepsToDestination_w0 rfl rfl (cellVcmp_into w)
  case vsel w => exact keepsToDestination_w0 rfl rfl (w0Cell_into_vec fun _ _ _ => vecOut_into ..)
  case vcvt w => exact keepsToDestination_w0 rfl rfl (cellVcvt_into w)
  case vwmul w => exact keepsToDestination_w0 rfl rfl (wideCell_into w false)
  case vwfma w => exact keepsToDestination_w0 rfl rfl (wideCell_into w true)
  case vdot w => exact keepsToDestination_w0 rfl rfl (w0Cell_into_vec fun _ _ _ => vecOut_into ..)
  case vscale w => exact keepsToDestination_w0 rfl rfl (cellVscale_into w)
  case vclass w => exact keepsToDestination_w0 rfl rfl (cellVclass_into w)
  case vrsum w => exact keepsToDestination_w0 rfl rfl (w0Cell_into_vec fun f => reduceOut_into w f _)
  case vrmax w => exact keepsToDestination_w0 rfl rfl (w0Cell_into_vec fun f => reduceOut_into w f _)
  case vrmin w => exact keepsToDestination_w0 rfl rfl (w0Cell_into_vec fun f => reduceOut_into w f _)
  case vperm w => exact keepsToDestination_w0 rfl rfl (w0Cell_into_vec fun _ _ _ => CellOut.into_of_write rfl rfl rfl (List.mem_singleton_self _))
  case vbcst w => exact keepsToDestination_w0 rfl rfl (w0Cell_into_vec fun _ _ _ => vecOut_into ..)
  case vmovi w => exact keepsToDestination_w0 rfl rfl (w0Cell_into_vec fun f => fillOut_into w f _)
  case vmov w => exact keepsToDestination_w0 rfl rfl (w0Cell_into_vec fun _ _ _ => CellOut.into_of_write rfl rfl rfl (List.mem_singleton_self _))
  case vmask w => exact keepsToDestination_w0 rfl rfl (cellVmask_into w)
  case vflag w => exact keepsToDestination_w0 rfl rfl (cellVflag_into w)
  case viota w => exact keepsToDestination_w0 rfl rfl (w0Cell_into_vec fun f => fillOut_into w f _)
  case xset w => exact keepsToDestination_w1 rfl rfl (cellXset_into w)
  case xget w => exact keepsToDestination_w1 rfl rfl (cellXget_into w)
  case xshf w => exact keepsToDestination_w1 rfl rfl (cellXshf_into w)
  case cst w => exact keepsToDestination_w1_within (storeCell_within w _ _ _) (fun hcst _ => absurd rfl (hcst w)) rfl rfl
  case cstm w => exact keepsToDestination_w1_within (storeCell_within w _ _ _) (fun _ hcstm => absurd rfl (hcstm w)) rfl rfl
  case fset w => exact keepsToDestination_w1 rfl rfl (cellFset_into w)
  case xside w => exact keepsToDestination_w1 rfl rfl (cellXside_into w)
  case mvm w => exact keepsToDestination_w1 rfl rfl (cellMvm_into w)
  all_goals exact hi.elim

end Sys2Proof.Machine
end

section
/-! # Wave operations under a bound

Special functions, loads from the cell store and M operations owe their destination registers one result (R18, R92, R160). -/

namespace Sys2Proof.Machine

/-! ### Products and tile operations write their accumulator -/

section
variable (m : MOp)

/-- The accumulator of an M operation. -/
def accReg : CellReg := .m m.acc.toFin

theorem illegalOut_into_acc (s : State) (i : Nat) : (illegalOut s i (accSpan m)).Into i [accReg m] := illegalOut_into ..
theorem faultOut_into_acc (s : State) (i kind : Nat) : (faultOut s i kind (accSpan m)).Into i [accReg m] := faultOut_into ..
theorem illegalOut_into_shaped (s t : State) (i : Nat) : (illegalOut s i (shapedSpan t m)).Into i [accReg m] := illegalOut_into ..

/-- An outcome with one write, to the accumulator of the cell. -/
theorem into_acc {o : CellOut} {i : Nat} {w : CellWrite} (hs : o.stored = none) (hw : o.writes = [w]) (hc : w.cell = i) (hr : w.reg = accReg m) :
    o.Into i [accReg m] :=
  CellOut.into_of_write hs hw hc (hr ▸ List.mem_singleton_self _)

theorem Product.run_into (p : Product) (s : State) (i : Nat) : (p.run m s i).Into i [accReg m] := by
  unfold Product.run
  dsimp only
  split
  · exact into_acc m rfl rfl rfl rfl
  · exact into_acc m rfl rfl rfl rfl

theorem denseCell_into (legal : Bool) (aMeta bMeta : BitVec 48) (scales : State → MSrc → MSrc → Option ((Nat → Int) × (Nat → Int))) :
    (denseCell m legal aMeta bMeta scales).Into [accReg m] := by
  intro s i
  unfold denseCell
  split
  · exact illegalOut_into_acc m s i
  · split
    · exact illegalOut_into_acc m s i
    · dsimp only
      split
      · exact Product.run_into m _ s i
      · exact faultOut_into_acc m s i 2

theorem cellMmaq_into : (cellMmaq m).Into [accReg m] := by
  intro s i
  unfold cellMmaq
  exact denseCell_into ..

theorem cellMmas_into : (cellMmas m).Into [accReg m] := by
  intro s i
  unfold cellMmas
  split
  · exact illegalOut_into_acc m s i
  · split
    · exact illegalOut_into_acc m s i
    · dsimp only
      split
      · exact faultOut_into_acc m s i 5
      · split
        · exact faultOut_into_acc m s i 2
        · exact Product.run_into m _ s i

theorem cellMmab_into : (cellMmab m).Into [accReg m] := by
  intro s i
  unfold cellMmab
  split
  · exact illegalOut_into_acc m s i
  · split
    · exact illegalOut_into_acc m s i
    · split
      · exact faultOut_into_acc m s i 2
      · exact Product.run_into m _ s i

theorem cellMzero_into : (cellMzero m).Into [accReg m] := by
  intro s i
  unfold cellMzero
  split
  · exact into_acc m rfl rfl rfl rfl
  · exact illegalOut_into_shaped m s s i

theorem tileEltwise_into (srcs : List Nat) (g : List Nat → Nat × Nat) : (tileEltwise m srcs g).Into [accReg m] :=
  fun _ _ => into_acc m rfl rfl rfl rfl

theorem cellMcvt_into : (cellMcvt m).Into [accReg m] := by
  intro s i
  unfold cellMcvt
  dsimp only
  split
  · exact tileEltwise_into m _ _ s i
  · exact illegalOut_into_shaped m s s i

theorem cellMadd_into : (cellMadd m).Into [accReg m] := by
  intro s i
  unfold cellMadd
  dsimp only
  split
  · exact tileEltwise_into m _ _ s i
  · exact illegalOut_into_shaped m s s i

theorem cellMtrn_into : (cellMtrn m).Into [accReg m] := by
  intro s i
  unfold cellMtrn
  dsimp only
  split
  · exact into_acc m rfl rfl rfl rfl
  · exact illegalOut_into_shaped m s s i

theorem cellMstat_into : (cellMstat m).Into [accReg m] := by
  intro s i
  unfold cellMstat
  split
  · exact illegalOut_into_acc m s i
  · split
    · exact CellOut.into_of_writes_nil rfl rfl
    · split
      · exact faultOut_into_acc m s i 2
      · exact into_acc m rfl rfl rfl rfl

end

/-! ### One owed result -/

/-- What O32 says of an instruction with LAT bound `lat`, an accumulation or not. -/
def OwesItsResult (i : Instr) (s : State) (lat : Nat) (acc : Bool) : Prop :=
  ∃ (t : State) (ws : List CellWrite), exec i s = .next t ∧ OnlyWave s t ∧ OnlyDrains s t ∧ CellsBut s.wave.conflict s t ∧ StoresSame s t ∧
    t.ctx.pend = s.ctx.pend ++ [{ dest := .cells, value := 0, writes := ws, acc := acc, bound := s.ctx.issues + max lat 1,
                                  made := s.ctx.issues, addr := s.ctx.pc, poison := none }] ∧
    (∀ w ∈ ws, w.reg ∈ waveRegs i ∧ s.enabled w.cell = true) ∧
    (i.slot = some .w0 → t.ctx.sticky = { s.ctx.sticky with w0 := some i }) ∧
    (i.slot = some .w1 → t.ctx.sticky = { s.ctx.sticky with w1 := some i, w1n := s.wave.w1n }) ∧
    (i.slot = some .m → t.ctx.sticky = { s.ctx.sticky with m := some i, mn := s.wave.mn })

section
variable {i : Instr} {op : CellOp} {s : State} {slot lat : Nat} {acc : Bool} (h : op.Into (waveRegs i))
include h

/-- A run under a bound that becomes sticky, whatever its slot. -/
theorem owesItsResult_run (k : Sticky) (hexec : exec i s = .next { s.runWave slot (some lat) acc op with ctx.sticky := k })
    (h0 : i.slot = some .w0 → k = { s.ctx.sticky with w0 := some i })
    (h1 : i.slot = some .w1 → k = { s.ctx.sticky with w1 := some i, w1n := s.wave.w1n })
    (hm : i.slot = some .m → k = { s.ctx.sticky with m := some i, mn := s.wave.mn }) : OwesItsResult i s lat acc := by
  obtain ⟨only, drains, cells, -, ws, owed, pend⟩ := runWave_late s slot lat acc op h.within
  exact ⟨_, ws, hexec, only.sticky k, drains, cells, runWave_storesSame s slot (some lat) acc fun u j => (h u j).1, pend, owed, h0, h1, hm⟩

theorem runWave_late_sticky : (s.runWave slot (some lat) acc op).ctx.sticky = s.ctx.sticky := by
  obtain ⟨-, -, -, sticky, -⟩ := runWave_late s slot lat acc op h.within
  exact sticky

theorem runWave_late_wave : (s.runWave slot (some lat) acc op).wave = s.wave := by rw [(runWave_late s slot lat acc op h.within).1]

theorem owesItsResult_w0 (hexec : exec i s = runW0 i (some lat) op s) (hi : i.slot = some .w0) : OwesItsResult i s lat false := by
  refine owesItsResult_run h _ (hexec.trans rfl) (fun _ => ?_) (fun h1 => by simp [hi] at h1) (fun hm => by simp [hi] at hm)
  rw [runWave_late_sticky h]

theorem owesItsResult_w1 (hexec : exec i s = runW1 i (some lat) op s) (hi : i.slot = some .w1) : OwesItsResult i s lat false := by
  refine owesItsResult_run h _ (hexec.trans rfl) (fun h0 => by simp [hi] at h0) (fun _ => ?_) (fun hm => by simp [hi] at hm)
  rw [runWave_late_sticky h, runWave_late_wave h]
  rfl

theorem owesItsResult_m {m : MOp} (hexec : exec i s = runM i m acc op s) (hi : i.slot = some .m) : OwesItsResult i s m.lat.toNat acc := by
  refine owesItsResult_run h _ (hexec.trans rfl) (fun h0 => by simp [hi] at h0) (fun h1 => by simp [hi] at h1) (fun _ => ?_)
  rw [runWave_late_sticky h, runWave_late_wave h]
  rfl

end

theorem cellCld_into (w : W1Store) : (cellCld w).Into (waveRegs (.cld w)) :=
  loadCell_into fun _ => List.mem_singleton_self _

theorem cellCldm_into (w : W1Store) : (cellCldm w).Into (waveRegs (.cldm w)) :=
  loadCell_into fun hd => mReg_mem (of_decide_eq_true hd) 0 16384

/-- Settles O32: every operation with a LAT writes only through the result that it owes. -/
theorem lateWaveOperationsOweTheirResult : Obligations.LateWaveOperationsOweTheirResult := by
  unfold Obligations.LateWaveOperationsOweTheirResult
  intro i s lat acc hi
  show OwesItsResult i s lat acc
  cases i
  case vexp2 w => obtain ⟨rfl, rfl⟩ := hi; exact owesItsResult_w0 (cellVexp2_into w) rfl rfl
  case vlog2 w => obtain ⟨rfl, rfl⟩ := hi; exact owesItsResult_w0 (specialCell_into w .log2) rfl rfl
  case vrcp w => obtain ⟨rfl, rfl⟩ := hi; exact owesItsResult_w0 (specialCell_into w .rcp) rfl rfl
  case vrsq w => obtain ⟨rfl, rfl⟩ := hi; exact owesItsResult_w0 (specialCell_into w .rsq) rfl rfl
  case vsqrt w => obtain ⟨rfl, rfl⟩ := hi; exact owesItsResult_w0 (specialCell_into w .sqrt) rfl rfl
  case vsinp w => obtain ⟨rfl, rfl⟩ := hi; exact owesItsResult_w0 (specialCell_into w .sinp) rfl rfl
  case vcosp w => obtain ⟨rfl, rfl⟩ := hi; exact owesItsResult_w0 (specialCell_into w .cosp) rfl rfl
  case vtanh w => obtain ⟨rfl, rfl⟩ := hi; exact owesItsResult_w0 (specialCell_into w .tanh) rfl rfl
  case cld w => obtain ⟨rfl, rfl⟩ := hi; exact owesItsResult_w1 (cellCld_into w) rfl rfl
  case cldm w => obtain ⟨rfl, rfl⟩ := hi; exact owesItsResult_w1 (cellCldm_into w) rfl rfl
  case mma m => obtain ⟨rfl, rfl⟩ := hi; exact owesItsResult_m (denseCell_into m _ _ _ _) rfl rfl
  case mmas m => obtain ⟨rfl, rfl⟩ := hi; exact owesItsResult_m (cellMmas_into m) rfl rfl
  case mmaq m => obtain ⟨rfl, rfl⟩ := hi; exact owesItsResult_m (cellMmaq_into m) rfl rfl
  case mmab m => obtain ⟨rfl, rfl⟩ := hi; exact owesItsResult_m (cellMmab_into m) rfl rfl
  case mzero m => obtain ⟨rfl, rfl⟩ := hi; exact owesItsResult_m (cellMzero_into m) rfl rfl
  case mcvt m => obtain ⟨rfl, rfl⟩ := hi; exact owesItsResult_m (cellMcvt_into m) rfl rfl
  case mtrn m => obtain ⟨rfl, rfl⟩ := hi; exact owesItsResult_m (cellMtrn_into m) rfl rfl
  case madd m => obtain ⟨rfl, rfl⟩ := hi; exact owesItsResult_m (cellMadd_into m) rfl rfl
  case mstat m => obtain ⟨rfl, rfl⟩ := hi; exact owesItsResult_m (cellMstat_into m) rfl rfl
  all_goals exact hi.elim

end Sys2Proof.Machine
end

section
/-! # A step and the instruction that it runs

What comes before an issue, the issue of a bundle of one instruction, and the events of the input list (R9, R13, R28 to R30). -/

namespace Sys2Proof.Machine

/-! ### The turn of a running context -/

/-- A context that nothing disturbs fetches its bundle. -/
theorem State.runTurn_undisturbed {s : State} (h : s.onTurn.Undisturbed) :
    ({ s with src := s.ctx } : State).runTurn = State.issueBundle { s.onTurn with ctx.inWaitq := false } := by
  obtain ⟨hdoomed, hwdog, htrap, hreport, hland⟩ := h
  have hwdog' : ¬ ((s.onTurn.pipelineOf s.onTurn.ctx.lnum).isSome = true ∧ s.onTurn.wdogCycles s.onTurn.ctx ≤ s.onTurn.ctx.timer) :=
    fun ⟨hp, hle⟩ => absurd (hwdog hp) (Nat.not_lt.mpr hle)
  unfold State.runTurn
  change (if s.onTurn.ctx.doomed.isSome && s.onTurn.ctx.rep == 0 then _
    else if (s.onTurn.pipelineOf s.onTurn.ctx.lnum).isSome = true ∧ s.onTurn.wdogCycles s.onTurn.ctx ≤ s.onTurn.ctx.timer then _
    else if s.onTurn.ctx.trapDue.isSome then _ else _) = _
  rw [if_neg (by simp [hdoomed]), if_neg hwdog', if_neg (by simp [htrap])]
  split
  · next hdue => exact absurd (hreport.symm.trans hdue) nofun
  · exact if_neg fun hwaits => Bool.false_ne_true (hland.symm.trans hwaits)

/-- The step of a running context on its array, READY being set. -/
theorem step_running {s : State} (hinputs : s.inputs = []) (hpower : s.power = true) (hfatal : s.mgmt.fatal = false) (hready : s.mgmt.ready = true)
    (hrun : s.ctx.status = .running) (hactive : s.ctx.active = true) (harray : s.ctx.array.isSome = true) :
    step s = .next ((({ s with src := s.ctx } : State).runTurn).share s.free).tick := by
  have hturn : s.turn = (({ s with src := s.ctx } : State).runTurn).share s.free := by simp [State.turn, hfatal, hready, hrun, hactive, harray]
  simp only [step, hinputs, hpower, if_true, hturn]

/-! ### Fetch, checks and issue -/

/-- The words of the bundle are those kept for its repeats, or those at the pc (R12, R30). -/
theorem State.bundleWords_ok {u : State} {h : Nat} {ws : List Nat} (hw : u.src.cur = h :: ws ∨ (u.src.cur = [] ∧ u.src.pc % 4 = 0 ∧ u.src.pc < 2 ^ 56 ∧
    u.fetchWord u.src u.src.pc = .ok h ∧ u.fetchWords u.src (u.src.pc + 4) (bundleLen h / 4 - 1) = .ok ws)) : u.bundleWords = .ok (h :: ws) := by
  rcases hw with hcur | ⟨hcur, halign, hpc, hhead, hrest⟩
  · simp [State.bundleWords, hcur]
  · simp only [State.bundleWords, hcur, if_true, State.fetchBundle, halign, ne_eq, not_true_eq_false, if_false, Nat.not_le.mpr hpc, hhead, hrest]

/-- A bundle that passes its checks unheld issues. -/
theorem State.tryIssue_go {v : State} {b : Bundle} (ws : List Nat) (hqueue : v.queueHeld b = false) (hcheck : v.checkBundle b = .go)
    (hheld : v.bundleHeld b = false) : v.tryIssue b ws = (v.touchData b).issue b ws := by
  simp [State.tryIssue, hqueue, hcheck, hheld]

theorem State.issueBundle_go {s : State} {h : Nat} {ws : List Nat} {b : Bundle} (hwords : s.fetchReady.bundleWords = .ok (h :: ws))
    (hahead : s.fetchReady.src.rep = 0 → s.fetchReady.checkFetchAhead (h :: ws) = .go) (hdecode : decodeBundle h ws = .ok b) :
    s.issueBundle = (if s.fetchReady.src.rep = 0 then s.fetchReady.touchAhead (h :: ws) else s.fetchReady).tryIssue b (h :: ws) := by
  have hgo : (if s.fetchReady.src.rep = 0 then s.fetchReady.checkFetchAhead (h :: ws) else .go) = .go := by
    split
    · next h0 => exact hahead h0
    · rfl
  simp only [State.issueBundle, hwords, hgo, List.headD_cons, List.tail_cons, hdecode]

/-! ### A bundle of one instruction -/

section
variable {a x : State} {b : Bundle} {i : Instr} (hb : b.rep = 0)
include hb

theorem State.keepCellRegs_once : a.keepCellRegs b = a := if_neg fun h => h.2.1 hb

variable (hops : b.ops = [i])
include hops

/-- The header-only bundle runs by its own meaning. -/
theorem State.act_header (hi : i.slot = some .header) (hx : exec i a = .next x) : a.act b = x := by
  cases i <;> simp [Instr.slot] at hi
  simp only [State.act, State.keepCellRegs_once hb, hops, scalarSlot, Instr.slot]
  simp [State.run, hx, stateOf]

section
variable (hrep : a.src.rep = 0) (h0 : a.src.sticky.w0 = none) (h1 : a.src.sticky.w1 = none) (hm : a.src.sticky.m = none)
include hrep h0 h1 hm

/-- A lone S, B or E instruction acts, and then a wave word without operations begins. -/
theorem State.act_scalar (hi : i.slot = some .s ∨ i.slot = some .b ∨ i.slot = some .e) (hafter : actsAfter i = false) (hx : exec i a = .next x) :
    a.act b = x.waveStart (a.src.waveWord b) := by
  have hscalar : scalarSlot i = true := by rcases hi with h | h | h <;> simp [scalarSlot, h]
  have hruns : a.src.waveRuns b = [] := by
    rcases hi with h | h | h <;> simp [Context.waveRuns, mention, hops, h, h0, h1, hm]
  have hrun : (b.ops.filter fun i => scalarSlot i && !actsAfter i).foldl State.run a = x := by
    simp [hops, hscalar, hafter, State.run, hx, stateOf]
  simp only [State.act, State.keepCellRegs_once hb, if_pos hrep, hrun, hruns]
  split
  · next sel rep hstick =>
    obtain rfl : i = .stick sel rep := by simpa [hops] using hstick
    simp [Instr.slot] at hi
  · rfl

/-- A lone wave operation acts once the wave word has begun. -/
theorem State.act_wave (hi : i.slot = some .w0 ∨ i.slot = some .w1 ∨ i.slot = some .m) (hx : exec i (a.waveStart (a.src.waveWord b)) = .next x) :
    a.act b = x := by
  have hscalar : scalarSlot i = false := by rcases hi with h | h | h <;> simp [scalarSlot, h]
  have hruns : a.src.waveRuns b = [i] := by
    rcases hi with h | h | h <;> simp [Context.waveRuns, mention, hops, h, h0, h1, hm]
  have hrun : (b.ops.filter fun i => scalarSlot i && !actsAfter i).foldl State.run a = a := by simp [hops, hscalar]
  simp only [State.act, State.keepCellRegs_once hb, if_pos hrep, hrun, hruns]
  split
  · next sel rep hstick =>
    obtain rfl : i = .stick sel rep := by simpa [hops] using hstick
    simp [Instr.slot] at hi
  · simp [State.run, hx, stateOf]

end

end

/-- An issue without repeats: the slots act, then the context moves on. -/
theorem State.issue_once (w : State) {b : Bundle} (ws : List Nat) (hb : b.rep = 0) :
    w.issue b ws = (({ (({ w with ahead := w.headers ws } : State).act b).advance b ws with ahead := [] } : State).afterBundle b).settleEnd := by
  simp only [State.issue, hb, Nat.not_lt_zero, if_false]

/-- Settles O56: the turn comes to the issue, and the issue to `exec` of the bundle's instruction. -/
theorem stepRunsDecodedInstruction : Obligations.StepRunsDecodedInstruction := by
  unfold Obligations.StepRunsDecodedInstruction
  refine ⟨fun s hinputs hpower hfatal hready hrun hactive harray hcalm => ?_, fun s t e r hinputs hpower hslot hfatal hexec => ?_,
    fun s hinputs hpower => ?_⟩
  · intro u h ws b hwords hahead hdecode v hqueue hcheck hheld w a rest
    refine ⟨?_, fun i x hops hb hrep h0 h1 hm hafter => ⟨fun hi hx => ?_, fun hi hx => ?_, fun hi hx => ?_⟩⟩
    · rw [step_running hinputs hpower hfatal hready hrun hactive harray, State.runTurn_undisturbed hcalm,
        State.issueBundle_go (State.bundleWords_ok hwords) hahead hdecode]
      exact congrArg (fun y : State => Host.Outcome.next ((y.share s.free).tick)) (State.tryIssue_go (h :: ws) hqueue hcheck hheld)
    · rw [State.issue_once w (h :: ws) hb, State.act_scalar hb hops hrep h0 h1 hm hi hafter hx]
    · rw [State.issue_once w (h :: ws) hb, State.act_wave hb hops hrep h0 h1 hm hi hx]
    · rw [State.issue_once w (h :: ws) hb, State.act_header hb hops hi hx]
  · have hlive : (e.slot.isSome || (s.mgmt.fatal && endedByFatal e)) = false := by
      cases hf : s.mgmt.fatal with
      | false => simp [hslot]
      | true => simp [hslot, hfatal hf]
    have htake : State.take1 { s with inputs := r } (.event e) = .next t := (if_neg (by simp [hlive])).trans hexec
    have hpowered : s.powered (.event e) = true := by simp [State.powered, hpower]
    simp only [step, hinputs, hpowered, if_true, htake, ticked]
  · simp [step, hinputs, hpower]

end Sys2Proof.Machine
end

section
/-! # The encoder and the decoder agree

A word is its fields appended to one another. The fields of an appended word are the appended fields, so what the decoder of a slot
reads from the word of an instruction is that instruction (R28, R31 to R39). -/

namespace Sys2Proof

/-! ### Fields of a word -/

/-- The word `w` with the `n`-bit field `v` appended below it. -/
def appendField (w n v : Nat) : Nat := w * 2 ^ n + v

/-- The value `v` needs no more than `n` bits. -/
def Fits (v n : Nat) : Prop := v < 2 ^ n

theorem mul_two_pow_eq_appendField (w n : Nat) : w * 2 ^ n = appendField w n 0 := rfl

@[simp] theorem appendField_zero (n v : Nat) : appendField 0 n v = v := by simp [appendField]

@[simp] theorem fld_appendField_low {w n v lo k : Nat} (h : lo + k ≤ n) : fld (appendField w n v) lo k = fld v lo k := by
  obtain ⟨j, rfl⟩ := Nat.exists_eq_add_of_le h
  have hsum : appendField w (lo + k + j) v = 2 ^ lo * (2 ^ k * (w * 2 ^ j)) + v := by simp only [appendField, Nat.pow_add]; ring
  rw [fld, hsum, Nat.mul_add_div (Nat.two_pow_pos lo), Nat.mul_add_mod, fld]

@[simp] theorem fld_appendField_high {w n v lo k : Nat} (hv : Fits v n) (h : n ≤ lo) :
    fld (appendField w n v) lo k = fld w (lo - n) k := by
  obtain ⟨j, rfl⟩ := Nat.exists_eq_add_of_le h
  have hw : appendField w n v / 2 ^ n = w := by
    rw [appendField, Nat.mul_comm, Nat.mul_add_div (Nat.two_pow_pos n), Nat.div_eq_of_lt hv, Nat.add_zero]
  rw [fld, Nat.pow_add, ← Nat.div_div_eq_div_mul, hw, Nat.add_sub_cancel_left, fld]

@[simp] theorem fld_of_fits {v n : Nat} (h : Fits v n) : fld v 0 n = v := by
  simpa [fld] using Nat.mod_eq_of_lt h

@[simp] theorem fld_above {v lo n : Nat} (h : Fits v lo) : fld v lo n = 0 := by
  simp [fld, Nat.div_eq_of_lt h]

/-! ### What fits -/

@[simp] theorem fits_ofNat (k n : Nat) : Fits (no_index (OfNat.ofNat k)) n ↔ OfNat.ofNat k < 2 ^ n := Iff.rfl

theorem Fits.mono {v m n : Nat} (hv : Fits v m) (h : m ≤ n) : Fits v n := Nat.lt_of_lt_of_le hv (Nat.pow_le_pow_right Nat.two_pos h)

@[simp] theorem fits_toNat {n : Nat} (x : BitVec n) : Fits x.toNat n := x.isLt

@[simp] theorem fits_toNat_of_le {m n : Nat} (x : BitVec m) (h : m ≤ n) : Fits x.toNat n := (fits_toNat x).mono h

@[simp] theorem fits_boolToNat (b : Bool) : Fits b.toNat 1 := b.toNat_lt

@[simp] theorem fits_boolToNat_of_le {n : Nat} (b : Bool) (h : 1 ≤ n) : Fits b.toNat n := (fits_boolToNat b).mono h

@[simp] theorem fits_appendField {w n v m : Nat} (hv : Fits v n) (h : n ≤ m) : Fits (appendField w n v) m ↔ Fits w (m - n) := by
  obtain ⟨j, rfl⟩ := Nat.exists_eq_add_of_le h
  rw [Nat.add_sub_cancel_left, Fits, Fits, Nat.pow_add, Nat.mul_comm (2 ^ n), ← Nat.div_lt_iff_lt_mul (Nat.two_pow_pos n), appendField,
    Nat.mul_comm w, Nat.mul_add_div (Nat.two_pow_pos n), Nat.div_eq_of_lt hv, Nat.add_zero]

/-! ### Operands -/

@[simp] theorem Opnd.fits_code (o : Opnd) : Fits o.code 6 := by
  cases o with
  | s n => exact Nat.lt_trans n.isLt (by decide)
  | q n => exact Nat.add_lt_add_left n.isLt 48

@[simp] theorem Opnd.fits_code_of_le {n : Nat} (o : Opnd) (h : 6 ≤ n) : Fits o.code n := o.fits_code.mono h

@[simp] theorem Opnd.ofCode_code (o : Opnd) : Opnd.ofCode o.code = o := by
  have h : o.code % 64 = o.code := Nat.mod_eq_of_lt o.fits_code
  cases o with
  | s n =>
    have hn : n.val % 64 = n.val := h
    simp [Opnd.ofCode, Opnd.code, hn]
  | q n =>
    have hn : (48 + n.val) % 64 = 48 + n.val := h
    simp [Opnd.ofCode, Opnd.code, hn]

@[simp] theorem boolToNat_beq_one (b : Bool) : (b.toNat == 1) = b := by cases b <;> rfl

/-! ### The layouts of R31 to R38 as fields, the lowest last -/

theorem encI_eq (op d a imm : Nat) : encI op d a imm = appendField op 26 (appendField (appendField d 6 a) 14 imm) := by
  simp only [encI, appendField]
  omega

theorem encR_eq (op d a b fn : Nat) : encR op d a b fn = encI op d a (appendField b 8 fn) := Nat.add_assoc ..

theorem encE_eq (op : Nat) (e : Cmd) : encE op e =
    appendField op 57 (appendField (appendField (appendField (appendField (appendField (appendField (appendField (appendField
      (appendField e.kp.toNat 6 e.kc0.toNat) 6 e.kc1.toNat) 6 e.kc2.toNat) 1 e.te.toNat)
      6 e.p0.code) 6 e.p1.code) 6 e.p2.code) 6 e.p3.code) 8 e.efn.toNat) := by
  simp only [encE, appendField]
  omega

theorem encW0_eq (op : Nat) (w : W0) : encW0 op w =
    appendField op 26 (appendField (appendField (appendField (appendField w.d.toNat 5 w.a.toNat) 5 w.b.toNat) 6 w.typ.toNat)
      5 w.var.toNat) := by
  simp only [encW0, appendField]
  omega

theorem encStore_eq (op : Nat) (w : W1Store) : encStore op w =
    appendField op 27 (appendField (appendField (appendField w.d.toNat 11 w.off.toNat) 7 w.step.toNat) 4 w.lat.toNat) := by
  simp only [encStore, appendField]
  omega

theorem encMove_eq (op : Nat) (w : W1Move) :
    encMove op w = appendField op 27 (appendField (appendField w.d.toNat 5 w.a.toNat) 17 w.ctl.toNat) := by
  simp only [encMove, appendField]
  omega

theorem encM_eq (op : Nat) (m : MOp) : encM op m =
    appendField op 59 (appendField (appendField (appendField (appendField (appendField (appendField (appendField (appendField
      (appendField (appendField (appendField m.acc.toNat 4 m.asrc.toNat) 4 m.bsrc.toNat) 6 m.afmt.toNat) 6 m.bfmt.toNat)
      2 m.nmm.toNat) 5 m.nm1.toNat) 3 m.kblk.toNat) 6 m.lat.toNat) 8 m.arow.toNat) 8 m.brow.toNat) 4 m.step.toNat) := by
  simp only [encM, appendField]
  omega

theorem encode_amo (d a b : Opnd) (opc : BitVec 3) (sz : Bool) (lat : BitVec 4) : encode (.amo d a b opc sz lat) =
    encR 0x2D d.code a.code b.code (appendField (appendField opc.toNat 1 sz.toNat) 4 lat.toNat) := by
  refine congrArg (encR _ _ _ _) ?_
  simp only [appendField]
  omega

theorem encode_movi (d : Opnd) (imm : BitVec 20) : encode (.movi d imm) = appendField 0x24 26 (appendField d.code 20 imm.toNat) :=
  Nat.add_assoc ..

theorem encode_movk (d : Opnd) (hw : BitVec 2) (imm : BitVec 16) :
    encode (.movk d hw imm) = appendField 0x25 26 (appendField (appendField d.code 2 hw.toNat) 18 imm.toNat) := by
  change 0x25 * 2 ^ 26 + d.code * 2 ^ 20 + hw.toNat * 2 ^ 18 + imm.toNat = _
  simp only [appendField]
  omega

theorem encode_stick (sel : BitVec 2) (rep : BitVec 8) :
    encode (.stick sel rep) = appendField 0xA 28 (appendField (appendField sel.toNat 8 rep.toNat) 6 0) := by
  change 0xA * 2 ^ 28 + sel.toNat * 2 ^ 14 + rep.toNat * 2 ^ 6 = _
  simp only [appendField]
  omega

/-! ### A word and its instruction -/

theorem okWf_ok {p : Prop} [Decidable p] {i j : Instr} (hp : p) (hij : i = j) (hw : j.wellFormed = true) : okWf p i = .ok j := by
  subst hij
  exact if_pos ⟨hp, hw⟩

/-- The word `w` fits its slot and is decoded to `i`. -/
def Encodes (k : Slot) (w : Nat) (i : Instr) : Prop := Fits w (8 * k.bytes) ∧ decodeSlot k w = .ok i

/-- The decoder is followed with the word unknown but for its fields, so that its choice by OP never computes with the word itself. -/
theorem encodes_of_fields {k : Slot} {op n m r : Nat} {i : Instr} (hlen : n + m = 8 * k.bytes) (hop : Fits op m) (hr : Fits r n)
    (h : ∀ w, fld w n m = op → (∀ lo len, lo + len ≤ n → fld w lo len = fld r lo len) → decodeSlot k w = .ok i) :
    Encodes k (appendField op n r) i := by
  refine ⟨?_, h _ ?_ fun lo len hle => fld_appendField_low hle⟩
  · rw [← hlen]
    simp [hr, hop]
  · simp [hr, hop]

theorem encodes_encI {op d a imm : Nat} {i : Instr} (hfits : Fits op 6 ∧ Fits d 6 ∧ Fits a 6 ∧ Fits imm 14)
    (h : ∀ w, fld w 26 6 = op → (∀ lo n, 20 ≤ lo → lo + n ≤ 26 → fld w lo n = fld d (lo - 20) n) ∧ fld w 14 6 = a ∧
      (∀ lo n, lo + n ≤ 14 → fld w lo n = fld imm lo n) → decodeS w = .ok i) : Encodes .s (encI op d a imm) i := by
  obtain ⟨hop, hd, ha, himm⟩ := hfits
  rw [encI_eq]
  refine encodes_of_fields rfl hop (by simp [hd, ha, himm]) fun w hw hf => h w hw ⟨fun lo n hlo hn => ?_, ?_, fun lo n hn => ?_⟩
  · rw [hf _ _ hn, fld_appendField_high himm (by omega), fld_appendField_high ha (by omega)]
    congr 1
  · simp [hf, ha, himm]
  · rw [hf _ _ (by omega), fld_appendField_low hn]

theorem encodes_encR {op d a b fn : Nat} {i : Instr} (hfits : Fits op 6 ∧ Fits d 6 ∧ Fits a 6 ∧ Fits b 6 ∧ Fits fn 8)
    (h : ∀ w, fld w 26 6 = op → (∀ lo n, 20 ≤ lo → lo + n ≤ 26 → fld w lo n = fld d (lo - 20) n) ∧ fld w 14 6 = a ∧ fld w 8 6 = b ∧
      (∀ lo n, lo + n ≤ 8 → fld w lo n = fld fn lo n) → decodeS w = .ok i) : Encodes .s (encR op d a b fn) i := by
  obtain ⟨hop, hd, ha, hb, hfn⟩ := hfits
  rw [encR_eq]
  refine encodes_encI ⟨hop, hd, ha, by simp [hb, hfn]⟩ fun w hw ⟨hwd, hwa, hlow⟩ => h w hw ⟨hwd, hwa, ?_, fun lo n hn => ?_⟩
  · simp [hlow, hb, hfn]
  · rw [hlow _ _ (by omega), fld_appendField_low hn]

theorem encodes_encB {op rest : Nat} {i : Instr} (hfits : Fits op 5 ∧ Fits rest 27)
    (h : ∀ w, fld w 27 5 = op → (∀ lo len, lo + len ≤ 27 → fld w lo len = fld rest lo len) → decodeB w = .ok i) :
    Encodes .b (encB op rest) i :=
  encodes_of_fields rfl hfits.1 hfits.2 h

theorem encodes_encE {op : Nat} {e : Cmd} {i : Instr} (hop : Fits op 7)
    (h : ∀ w, fld w 57 7 = op → decodeCmd w = e → decodeE w = .ok i) : Encodes .e (encE op e) i := by
  rw [encE_eq]
  exact encodes_of_fields rfl hop (by simp) fun w hw hf => h w hw (by simp [decodeCmd, hf])

/-- The fields of a W0 word as the decoder reads them. -/
def W0.ofWord (w : Nat) : W0 :=
  { d := BitVec.ofNat 5 (fld w 21 5), a := BitVec.ofNat 5 (fld w 16 5), b := BitVec.ofNat 5 (fld w 11 5),
    typ := BitVec.ofNat 6 (fld w 5 6), var := BitVec.ofNat 5 (fld w 0 5) }

/-- The fields of a store word as the decoder reads them. -/
def W1Store.ofWord (w : Nat) : W1Store :=
  { d := BitVec.ofNat 5 (fld w 22 5), off := BitVec.ofNat 11 (fld w 11 11), step := BitVec.ofNat 7 (fld w 4 7),
    lat := BitVec.ofNat 4 (fld w 0 4) }

/-- The fields of a move word as the decoder reads them. -/
def W1Move.ofWord (w : Nat) : W1Move :=
  { d := BitVec.ofNat 5 (fld w 22 5), a := BitVec.ofNat 5 (fld w 17 5), ctl := BitVec.ofNat 17 (fld w 0 17) }

/-- The fields of an M word as the decoder reads them. -/
def MOp.ofWord (w : Nat) : MOp :=
  { acc := BitVec.ofNat 3 (fld w 56 3), asrc := BitVec.ofNat 4 (fld w 52 4), bsrc := BitVec.ofNat 4 (fld w 48 4),
    afmt := BitVec.ofNat 6 (fld w 42 6), bfmt := BitVec.ofNat 6 (fld w 36 6), nmm := BitVec.ofNat 2 (fld w 34 2),
    nm1 := BitVec.ofNat 5 (fld w 29 5), kblk := BitVec.ofNat 3 (fld w 26 3), lat := BitVec.ofNat 6 (fld w 20 6),
    arow := BitVec.ofNat 8 (fld w 12 8), brow := BitVec.ofNat 8 (fld w 4 8), step := BitVec.ofNat 4 (fld w 0 4) }

theorem encodes_encW0 {op : Nat} {x : W0} {i : Instr} (hop : Fits op 6)
    (h : ∀ w, fld w 26 6 = op → W0.ofWord w = x → decodeW0 w = .ok i) : Encodes .w0 (encW0 op x) i := by
  rw [encW0_eq]
  exact encodes_of_fields rfl hop (by simp) fun w hw hf => h w hw (by simp [W0.ofWord, hf])

theorem encodes_encStore {op : Nat} {x : W1Store} {i : Instr} (hop : Fits op 5)
    (h : ∀ w, fld w 27 5 = op → W1Store.ofWord w = x → decodeW1 w = .ok i) : Encodes .w1 (encStore op x) i := by
  rw [encStore_eq]
  exact encodes_of_fields rfl hop (by simp) fun w hw hf => h w hw (by simp [W1Store.ofWord, hf])

theorem encodes_encMove {op : Nat} {x : W1Move} {i : Instr} (hop : Fits op 5)
    (h : ∀ w, fld w 27 5 = op → W1Move.ofWord w = x → decodeW1 w = .ok i) : Encodes .w1 (encMove op x) i := by
  rw [encMove_eq]
  exact encodes_of_fields rfl hop (by simp) fun w hw hf => h w hw (by simp [W1Move.ofWord, hf])

theorem encodes_encM {op : Nat} {x : MOp} {i : Instr} (hop : Fits op 5)
    (h : ∀ w, fld w 59 5 = op → MOp.ofWord w = x → decodeM w = .ok i) : Encodes .m (encM op x) i := by
  rw [encM_eq]
  exact encodes_of_fields rfl hop (by simp) fun w hw hf => h w hw (by simp [MOp.ofWord, hf])

/-! ### The slots -/

theorem encodes_s {i : Instr} (hs : i.slot = some .s) (hw : i.wellFormed = true) : Encodes .s (encode i) i := by
  cases i with
  | nop => exact ⟨Nat.two_pow_pos _, rfl⟩
  | mulh | mulhn | div | divn | rem | remn | and | or | xor | andn | shl | shr | sra | rot | min | max | minn | maxn | clz | ctz
  | popc | sext | zext | lea | cmp | setc | sel | amof | mtsh | msel | qmov | tktest | cqpush | fence | cwb | cinv | cflush | tlbi =>
    exact encodes_encR (by simp) fun w hop hf => by rw [decodeS, hop]; exact okWf_ok (by simp [hf]) (by simp [hf]) hw
  | add d a b sat | sub d a b sat | mul d a b sat =>
    change Encodes .s (encR _ d.code a.code b.code (appendField sat.toNat 7 0)) _
    exact encodes_encR (by simp) fun w hop hf => by rw [decodeS, hop]; exact okWf_ok (by simp [hf]) (by simp [hf]) hw
  | bext d a pos wm1 | bins d a pos wm1 =>
    change Encodes .s (encR _ d.code a.code pos.toNat (appendField wm1.toNat 2 0)) _
    exact encodes_encR (by simp) fun w hop hf => by rw [decodeS, hop]; exact okWf_ok (by simp [hf]) (by simp [hf]) hw
  | cas d a b sz lat =>
    change Encodes .s (encR _ d.code a.code b.code (appendField sz.toNat 4 lat.toNat)) _
    exact encodes_encR (by simp) fun w hop hf => by rw [decodeS, hop]; exact okWf_ok (by simp [hf]) (by simp [hf]) hw
  | amo =>
    rw [encode_amo]
    exact encodes_encR (by simp) fun w hop hf => by rw [decodeS, hop]; exact okWf_ok trivial (by simp [hf]) hw
  | addi | andi | ori | xori | shli | shri | srai | cmpi | mfc | mtc | mfcs | mtcs =>
    exact encodes_encI (by simp) fun w hop hf => by rw [decodeS, hop]; exact okWf_ok (by simp [hf]) (by simp [hf]) hw
  | ld d a off lat =>
    change Encodes .s (encI _ d.code a.code (appendField off.toNat 4 lat.toNat)) _
    exact encodes_encI (by simp) fun w hop hf => by rw [decodeS, hop]; exact okWf_ok trivial (by simp [hf]) hw
  | st d a off =>
    change Encodes .s (encI _ d.code a.code (appendField off.toNat 4 0)) _
    exact encodes_encI (by simp) fun w hop hf => by rw [decodeS, hop]; exact okWf_ok (by simp [hf]) (by simp [hf]) hw
  | bkpt imm =>
    change Encodes .s (encI 0x3E 0 0 imm.toNat) _
    rw [encI_eq]
    refine encodes_of_fields (m := 6) rfl (by simp) (by simp) fun w hop hf => ?_
    rw [decodeSlot, decodeS, hop]
    exact okWf_ok (by simp [hf]) (by simp [hf]) hw
  | movi =>
    rw [encode_movi]
    refine encodes_of_fields (m := 6) rfl (by simp) (by simp) fun w hop hf => ?_
    rw [decodeSlot, decodeS, hop]
    exact okWf_ok trivial (by simp [hf]) hw
  | movk =>
    rw [encode_movk]
    refine encodes_of_fields (m := 6) rfl (by simp) (by simp) fun w hop hf => ?_
    rw [decodeSlot, decodeS, hop]
    exact okWf_ok (by simp [hf]) (by simp [hf]) hw
  | _ => cases hs

theorem encodes_b {i : Instr} (hs : i.slot = some .b) (hw : i.wellFormed = true) : Encodes .b (encode i) i := by
  cases i with
  | nopB => exact ⟨Nat.two_pow_pos _, rfl⟩
  | brT | brF | j | call | ret | leave | cqdrop | tkwait | waitq | yield | bara | barw | trap | sys | rft | ctxsw | halt =>
    exact encodes_encB (by simp) fun w hop hf => by rw [decodeB, hop]; exact okWf_ok (by simp [hf]) (by simp [hf]) hw
  | jr a | callr a | exit a =>
    change Encodes .b (encB _ (a.code * 2 ^ 16)) _
    rw [mul_two_pow_eq_appendField]
    exact encodes_encB (by simp) fun w hop hf => by rw [decodeB, hop]; exact okWf_ok (by simp [hf]) (by simp [hf]) hw
  | loop cnt last =>
    change Encodes .b (encB _ (appendField cnt.toNat 14 last.toNat)) _
    exact encodes_encB (by simp) fun w hop hf => by rw [decodeB, hop]; exact okWf_ok trivial (by simp [hf]) hw
  | loopv a last | loops a last =>
    change Encodes .b (encB _ (appendField a.code 16 last.toNat)) _
    exact encodes_encB (by simp) fun w hop hf => by rw [decodeB, hop]; exact okWf_ok (by simp [hf]) (by simp [hf]) hw
  | _ => cases hs

/-- EFN[6], which tells the two forms of HSTZ apart, is the low bit of XTRA (R267). -/
theorem fld_formBit (w : Nat) : fld w 6 1 = (decodeCmd w).xtra % 2 := by
  simp only [fld, decodeCmd, Cmd.xtra, BitVec.toNat_ofNat]
  omega

theorem encodes_e {i : Instr} (hs : i.slot = some .e) (hw : i.wellFormed = true) : Encodes .e (encode i) i := by
  cases i with
  | hstz e =>
    refine encodes_encE (by simp) fun w hop he => ?_
    have hfields : (e.ticketsOk && e.reads 3 && e.outHatch && e.xtra == 0 && e.feed == 0) = true := hw
    simp only [Bool.and_eq_true, beq_iff_eq] at hfields
    obtain ⟨⟨_, hxtra⟩, _⟩ := hfields
    have hform : fld w 6 1 = 0 := by simp [fld_formBit, he, hxtra]
    rw [decodeE, hop]
    exact (if_pos hform).trans (okWf_ok trivial (by rw [he]) hw)
  | hstzTensor e =>
    refine encodes_encE (by simp) fun w hop he => ?_
    have hfields : (e.ticketsOk && e.outHatch && e.xtra == 1) = true := hw
    simp only [Bool.and_eq_true, beq_iff_eq] at hfields
    obtain ⟨_, hxtra⟩ := hfields
    have hform : fld w 6 1 ≠ 0 := by simp [fld_formBit, he, hxtra]
    rw [decodeE, hop]
    exact (if_neg hform).trans (okWf_ok trivial (by rw [he]) hw)
  | sbind | sfree | hload | hgath | hldz | hstore | hscat | hmcast | copy | cfill | csqz | cxpd | zmap | tkjoin | enq | deq | qinfo
  | rfence | pgreq | scrlim | reds | redd | bcst | rgrp | launch | cancel | abort | ctxsave | ctxload | flushall =>
    exact encodes_encE (by simp) fun w hop he => by rw [decodeE, hop]; exact okWf_ok trivial (by rw [he]) hw
  | _ => cases hs

theorem encodes_w0 {i : Instr} (hs : i.slot = some .w0) : Encodes .w0 (encode i) i := by
  cases i with
  | vnop => exact ⟨Nat.two_pow_pos _, rfl⟩
  | vadd | vsub | vmul | vfma | vfms | vmin | vmax | vabs | vneg | vand | vor | vxor | vshl | vshr | vsra | vcmp | vsel | vcvt
  | vwmul | vwfma | vdot | vscale | vclass | vexp2 | vlog2 | vrcp | vrsq | vsqrt | vsinp | vcosp | vtanh | vrsum | vrmax | vrmin
  | vperm | vbcst | vmovi | vmov | vmask | vflag | viota =>
    exact encodes_encW0 (by simp) fun w hop hx => by rw [decodeW0, hop, ← hx]; rfl
  | _ => cases hs

theorem encodes_w1 {i : Instr} (hs : i.slot = some .w1) (hw : i.wellFormed = true) : Encodes .w1 (encode i) i := by
  cases i with
  | wnop => exact ⟨Nat.two_pow_pos _, rfl⟩
  | xset | xget | xshf | fagg | fset | xside | mvm =>
    exact encodes_encMove (by simp) fun w hop hx => by rw [decodeW1, hop, ← hx]; rfl
  | cld | cldm =>
    exact encodes_encStore (by simp) fun w hop hx => by rw [decodeW1, hop, ← hx]; rfl
  | cst | cstm =>
    exact encodes_encStore (by simp) fun w hop hx => by rw [decodeW1, hop]; exact okWf_ok trivial (by rw [← hx]; rfl) hw
  | _ => cases hs

theorem encodes_m {i : Instr} (hs : i.slot = some .m) : Encodes .m (encode i) i := by
  cases i with
  | mnop => exact ⟨Nat.two_pow_pos _, rfl⟩
  | mma | mmas | mmaq | mmab | mzero | mcvt | mtrn | madd | mstat =>
    exact encodes_encM (by simp) fun w hop hx => by rw [decodeM, hop, ← hx]; rfl
  | _ => cases hs

theorem encodes_header {i : Instr} (hs : i.slot = some .header) : Encodes .header (encode i) i := by
  cases i with
  | stick =>
    rw [encode_stick]
    refine encodes_of_fields (m := 4) rfl (by simp) (by simp) fun w hop hf => ?_
    simp [decodeSlot, decodeHeaderOnly, hop, hf]
  | _ => cases hs

/-- Settles O59: slot by slot, the layout of each instruction's word, read back field by field. -/
theorem decodeOfEncode : Obligations.DecodeOfEncode := by
  intro k i hs hw
  cases k with
  | s => exact encodes_s hs hw
  | b => exact encodes_b hs hw
  | e => exact encodes_e hs hw
  | w0 => exact encodes_w0 hs
  | w1 => exact encodes_w1 hs hw
  | m => exact encodes_m hs
  | header => exact encodes_header hs

theorem decodeSlot_of_encode {k : Slot} {i : Instr} {w : Nat} (hw : encode i = w) (hs : i.slot = some k) (hwf : i.wellFormed = true) :
    decodeSlot k w = .ok i :=
  hw ▸ (decodeOfEncode k i hs hwf).2

/-- Settles O57: the words with operands are the encodings of their instructions; the no-ops and the rejected words are read from the maps. -/
theorem wordsDecode : Obligations.WordsDecode := by
  unfold Obligations.WordsDecode
  refine ⟨?_, ?_, ?_, ?_, ?_, ?_, ?_, ?_, ?_, rfl, rfl, rfl, rfl, rfl, rfl, rfl, rfl⟩
  all_goals exact decodeSlot_of_encode (by decide) rfl rfl

end Sys2Proof
end

section
/-! # Integer operations of the S slot

The three shapes of an integer operation, with what each delivers and leaves alone (R49 to R57), and the values of the arithmetic
operations as the tables give them. -/

namespace Sys2Proof.Machine

/-! ### Operands that are there -/

theorem State.Accepts.checkDests {s : State} {d : Opnd} (h : s.Accepts d) : s.checkDests Claims.none [d] = .go := by
  rw [State.checkDests, show s.checkDest Claims.none d = .go from h]
  rfl

theorem State.Delivers.checkOpnds {s : State} {os ds : List Opnd} {ws : List Word} (h : s.Delivers os ws) (hd : s.checkDests Claims.none ds = .go) :
    s.checkOpnds Claims.none os ds = .go := State.checkOpnds_go.mpr ⟨⟨ws, h⟩, hd⟩

theorem State.Delivers.values {s : State} {os : List Opnd} {ws : List Word} (h : s.Delivers os ws) : (s.takeAll os).1 = ws := State.takeAll_peekAll h

/-! ### The shapes -/

/-- `i` reads its sources, computes a word from them alone, and delivers it to its one destination. -/
def Computes (i : Instr) : Prop :=
  ∃ (d : Opnd) (f : List Word → Word), destsOf i = [d] ∧
    ∀ s, exec i s = gated (s.checkOpnds Claims.none (srcsOf i) [d]) (fun s => (s.reading (srcsOf i)).put d (f (s.takeAll (srcsOf i)).1)) s

section
variable {i : Instr} {d a b : Opnd}

theorem op2_computes {f : Word → Word → Word} (hx : ∀ s, exec i s = op2 d a b f s) (hs : srcsOf i = [a, b]) (hd : destsOf i = [d]) : Computes i :=
  ⟨d, fun ws => f (ws.getD 0 0) (ws.getD 1 0), hd, fun s => by rw [hx, hs]; rfl⟩

theorem op1_computes {f : Word → Word} (hx : ∀ s, exec i s = op1 d a f s) (hs : srcsOf i = [a]) (hd : destsOf i = [d]) : Computes i :=
  ⟨d, fun ws => f (ws.getD 0 0), hd, fun s => by rw [hx, hs]; rfl⟩

theorem op0_computes {w : Word} (hx : ∀ s, exec i s = op0 d w s) (hs : srcsOf i = []) (hd : destsOf i = [d]) : Computes i :=
  ⟨d, fun _ => w, hd, fun s => by rw [hx, hs]; rfl⟩

/-- An operation that reads its destination and one source more. -/
theorem opMod1_computes {f : Word → List Word → Word} (hx : ∀ s, exec i s = opMod d [a] f s) (hs : srcsOf i = [d, a]) (hd : destsOf i = [d]) : Computes i :=
  ⟨d, fun ws => f (ws.getD 0 0) [ws.getD 1 0], hd, fun s => by rw [hx, hs]; rfl⟩

/-- An operation that reads its destination alone. -/
theorem opMod0_computes {f : Word → List Word → Word} (hx : ∀ s, exec i s = opMod d [] f s) (hs : srcsOf i = [d]) (hd : destsOf i = [d]) : Computes i :=
  ⟨d, fun ws => f (ws.getD 0 0) [], hd, fun s => by rw [hx, hs]; rfl⟩

end

section
variable {s : State} {d a b : Opnd} {x y : Word} (hd : s.Accepts d)
include hd

theorem op2_eq (h : s.Delivers [a, b] [x, y]) (f : Word → Word → Word) : op2 d a b f s = .next ((s.reading [a, b]).put d (f x y)) := by
  obtain ⟨hx, hy⟩ := List.cons.inj h.values
  rw [op2, gated_go (v := checkSrcsDst [a, b] d .none s) (h.checkOpnds hd.checkDests), ← hx, ← (List.cons.inj hy).1]
  rfl

theorem op1_eq (h : s.Delivers [a] [x]) (f : Word → Word) : op1 d a f s = .next ((s.reading [a]).put d (f x)) := by
  rw [op1, gated_go (v := checkSrcsDst [a] d .none s) (h.checkOpnds hd.checkDests), ← (List.cons.inj h.values).1]
  rfl

theorem op0_eq (w : Word) : op0 d w s = .next (s.put d w) := by
  have h : s.Delivers [] [] := rfl
  rw [op0, gated_go (v := checkSrcsDst [] d .none s) (h.checkOpnds hd.checkDests)]

end

theorem State.accepts_reg (s : State) (n : Fin 48) : s.Accepts (.s n) := rfl

theorem opMod1_eq {s : State} {n : Fin 48} {a : Opnd} {w x : Word} (h : s.Delivers [.s n, a] [w, x]) (f : Word → List Word → Word) :
    opMod (.s n) [a] f s = .next ((s.reading [a]).put (.s n) (f w [x])) := by
  obtain ⟨hw, hx⟩ := List.cons.inj h.values
  rw [opMod, gated_go (v := checkSrcsDst [.s n, a] (.s n) .none s) (h.checkOpnds (s.accepts_reg n).checkDests), ← hw, ← (List.cons.inj hx).1]
  rfl

theorem opMod0_eq (s : State) (n : Fin 48) (f : Word → List Word → Word) : opMod (.s n) [] f s = .next (s.put (.s n) (f (s.readReg n) [])) := rfl

/-! ### Frames -/

theorem OnlyOperands.trans {s t u : State} (h : OnlyOperands s t) (k : OnlyOperands t u) : OnlyOperands s u := by
  unfold OnlyOperands at *
  rw [k, h]

theorem State.reading_onlyOperands (s : State) (os : List Opnd) : OnlyOperands s (s.reading os) := (State.takeAll_same os s).onlyOperands

theorem State.reading_reg (s : State) (os : List Opnd) (n : Fin 48) : (s.reading os).ctx.reg n = s.ctx.reg n := by
  simp only [Context.reg, State.reading, (State.takeAll_same os s).regs]

/-- What a result delivered after reads leaves alone. -/
theorem State.reading_put_frame (s : State) (os : List Opnd) (d : Opnd) (w : Word) :
    OnlyOperands s ((s.reading os).put d w) ∧ RegsBut [d] s ((s.reading os).put d w) ∧ StreamsBut (os ++ [d]) s ((s.reading os).put d w) :=
  ⟨(s.reading_onlyOperands os).trans (State.put_onlyOperands _ d w),
    fun n hn => (State.put_regsBut _ d w n hn).trans (s.reading_reg os n),
    ((State.takeAll_streamsBut os s).mono fun _ h => List.mem_append_left _ h).trans
      ((State.put_streamsBut _ d w).mono fun _ h => List.mem_append_right _ h)⟩

theorem Computes.frame {i : Instr} (hi : Computes i) {s t : State} (hcheck : s.checkOpnds Claims.none (srcsOf i) (destsOf i) = .go)
    (h : exec i s = .next t) : OnlyOperands s t ∧ RegsBut (destsOf i) s t ∧ StreamsBut (srcsOf i ++ destsOf i) s t := by
  obtain ⟨d, f, hd, hx⟩ := hi
  rw [hd] at hcheck ⊢
  rw [hx, gated_go hcheck] at h
  cases h
  exact s.reading_put_frame _ d _

/-- Settles O8: each of these operations computes a word from its sources and delivers it. -/
theorem aluFrame : Obligations.AluFrame := by
  unfold Obligations.AluFrame
  intro i s t hi hcheck h
  refine Computes.frame ?_ hcheck h
  cases i with
  | add | sub | mul | mulh | mulhn | div | divn | rem | remn | and | or | xor | shl | shr | sra | rot | min | max | minn | maxn | lea =>
    exact op2_computes (fun _ => rfl) rfl rfl
  | andn => exact op2_computes (f := fun x y => x &&& ~~~y) (fun _ => rfl) rfl rfl
  | clz | ctz | popc | bext | sext | zext | qmov => exact op1_computes (fun _ => rfl) rfl rfl
  | addi _ _ imm => exact op1_computes (f := fun x => x + imm.signExtend 64) (fun _ => rfl) rfl rfl
  | andi _ _ imm => exact op1_computes (f := fun x => x &&& imm.setWidth 64) (fun _ => rfl) rfl rfl
  | ori _ _ imm => exact op1_computes (f := fun x => x ||| imm.setWidth 64) (fun _ => rfl) rfl rfl
  | xori _ _ imm => exact op1_computes (f := fun x => x ^^^ imm.setWidth 64) (fun _ => rfl) rfl rfl
  | shli _ _ sh => exact op1_computes (f := fun x => x <<< sh.toNat) (fun _ => rfl) rfl rfl
  | shri _ _ sh => exact op1_computes (f := fun x => x >>> sh.toNat) (fun _ => rfl) rfl rfl
  | srai _ _ sh => exact op1_computes (f := fun x => x.sshiftRight sh.toNat) (fun _ => rfl) rfl rfl
  | movi => exact op0_computes (fun _ => rfl) rfl rfl
  | bins _ _ pos wm1 => exact opMod1_computes (f := fun old xs => aluBins pos wm1 old (xs.headD 0)) (fun _ => rfl) rfl rfl
  | movk _ hw imm => exact opMod0_computes (f := fun old _ => aluMovk hw imm old) (fun _ => rfl) rfl rfl
  | _ => exact hi.elim

/-! ### Values of the two-source operations (R51, R52, R57) -/

theorem satWord_eq (z : Int) : satWord z = BitVec.ofInt 64 (max (-(2 ^ 63)) (min (2 ^ 63 - 1) z)) := by
  unfold satWord
  split
  · congr 1; omega
  · split <;> (congr 1; omega)

section
variable (x y : Word)

theorem aluMulh_eq : aluMulh x y = (x.signExtend 128 * y.signExtend 128).extractLsb' 64 64 := by
  have e : x.signExtend 128 * y.signExtend 128 = BitVec.ofInt 128 (x.toInt * y.toInt) := (BitVec.ofInt_mul ..).symm
  apply BitVec.eq_of_toNat_eq
  rw [aluMulh, e, BitVec.extractLsb'_toNat, BitVec.toNat_ofInt, BitVec.toNat_ofInt, Nat.shiftRight_eq_div_pow]
  omega

theorem aluMulhn_eq : aluMulhn x y = (x.setWidth 128 * y.setWidth 128).extractLsb' 64 64 := by
  have e : x.setWidth 128 * y.setWidth 128 = BitVec.ofNat 128 (x.toNat * y.toNat) := by
    rw [BitVec.ofNat_mul, BitVec.ofNat_toNat, BitVec.ofNat_toNat]
  apply BitVec.eq_of_toNat_eq
  rw [aluMulhn, e, BitVec.extractLsb'_toNat, BitVec.toNat_ofNat, BitVec.toNat_ofNat, Nat.shiftRight_eq_div_pow]
  omega

theorem ofInt_tdiv : BitVec.ofInt 64 (x.toInt.tdiv y.toInt) = x.sdiv y :=
  BitVec.eq_of_toInt_eq (by rw [BitVec.toInt_ofInt, BitVec.toInt_sdiv])

theorem aluDiv_eq : aluDiv x y = if y = 0 then BitVec.allOnes 64 else x.sdiv y := by rw [aluDiv, ofInt_tdiv]

theorem aluDivn_eq : aluDivn x y = if y = 0 then BitVec.allOnes 64 else x / y := by
  rw [aluDivn, ← BitVec.toNat_udiv, BitVec.ofNat_toNat, BitVec.setWidth_eq]

theorem aluRem_eq : aluRem x y = if y = 0 then x else x - y * x.sdiv y := by
  have e : BitVec.ofInt 64 (x.toInt.tmod y.toInt) = x - y * x.sdiv y := by
    rw [Int.tmod_def, Int.sub_eq_add_neg, BitVec.ofInt_add, BitVec.ofInt_neg, BitVec.ofInt_mul, ofInt_tdiv, BitVec.ofInt_toInt, BitVec.ofInt_toInt,
      BitVec.sub_eq_add_neg]
  rw [aluRem, e]

theorem aluRemn_eq : aluRemn x y = if y = 0 then x else x - y * (x / y) := by
  have e : BitVec.ofNat 64 (x.toNat % y.toNat) + y * (x / y) = x := by
    have hq : x / y = BitVec.ofNat 64 (x.toNat / y.toNat) := by rw [← BitVec.toNat_udiv, BitVec.ofNat_toNat, BitVec.setWidth_eq]
    have hy : y = BitVec.ofNat 64 y.toNat := by rw [BitVec.ofNat_toNat, BitVec.setWidth_eq]
    rw [hq]
    conv_lhs => rw [hy]
    rw [← BitVec.ofNat_mul, ← BitVec.ofNat_add, ← hy, Nat.mod_add_div, BitVec.ofNat_toNat, BitVec.setWidth_eq]
  rw [aluRemn, BitVec.eq_sub_iff_add_eq.mpr e]

theorem shiftLeft_eq_mul (k : Nat) : x <<< k = BitVec.ofNat 64 (x.toNat * 2 ^ k) :=
  BitVec.eq_of_toNat_eq (by rw [BitVec.toNat_shiftLeft, BitVec.toNat_ofNat, Nat.shiftLeft_eq])

theorem ushiftRight_eq_div (k : Nat) : x >>> k = BitVec.ofNat 64 (x.toNat / 2 ^ k) := by
  rw [← Nat.shiftRight_eq_div_pow, ← BitVec.toNat_ushiftRight, BitVec.ofNat_toNat, BitVec.setWidth_eq]

theorem sshiftRight_eq_div (k : Nat) : x.sshiftRight k = BitVec.ofInt 64 (x.toInt / 2 ^ k) := by
  have e : x.toInt >>> k = x.toInt / 2 ^ k := by rw [Int.shiftRight_eq_div_pow]; push_cast; rfl
  rw [← e, ← BitVec.toInt_sshiftRight, BitVec.ofInt_toInt]

theorem aluRot_eq : aluRot x y = (x >>> (y.toNat % 64)) ||| (x <<< (64 - y.toNat % 64)) := by
  rw [aluRot, BitVec.rotateRight_def, Nat.mod_mod]

theorem ofInt_ite_toInt (p : Prop) [Decidable p] : BitVec.ofInt 64 (if p then x.toInt else y.toInt) = if p then x else y := by
  split <;> exact BitVec.ofInt_toInt ..

theorem ofNat_ite_toNat (p : Prop) [Decidable p] : BitVec.ofNat 64 (if p then x.toNat else y.toNat) = if p then x else y := by
  split <;> simp

theorem aluMin_eq : aluMin x y = BitVec.ofInt 64 (min x.toInt y.toInt) := by
  rw [min_def_lt, ofInt_ite_toInt]
  simp only [aluMin, BitVec.slt_iff_toInt_lt]

theorem aluMax_eq : aluMax x y = BitVec.ofInt 64 (max x.toInt y.toInt) := by
  rw [max_def_lt, ofInt_ite_toInt]
  simp only [aluMax, BitVec.slt_iff_toInt_lt]

theorem aluMinn_eq : aluMinn x y = BitVec.ofNat 64 (min x.toNat y.toNat) := by
  rw [min_def_lt, ofNat_ite_toNat]
  simp only [aluMinn, BitVec.ult_iff_toNat_lt]

theorem aluMaxn_eq : aluMaxn x y = BitVec.ofNat 64 (max x.toNat y.toNat) := by
  rw [max_def_lt, ofNat_ite_toNat]
  simp only [aluMaxn, BitVec.ult_iff_toNat_lt]

end

/-- Settles O1: the two-source shape with the value of each operation. -/
theorem twoSourceResults : Obligations.TwoSourceResults := by
  unfold Obligations.TwoSourceResults
  intro s d a b x y h hd
  have run (f : Word → Word → Word) {v : Word} (e : f x y = v) : op2 d a b f s = .next ((s.reading [a, b]).put d v) := e ▸ op2_eq hd h f
  exact ⟨run (aluAdd false) rfl, run (aluAdd true) (satWord_eq _), run (aluSub false) rfl, run (aluSub true) (satWord_eq _), run (aluMul false) rfl,
    run (aluMul true) (satWord_eq _), run aluMulh (aluMulh_eq x y), run aluMulhn (aluMulhn_eq x y), run aluDiv (aluDiv_eq x y),
    run aluDivn (aluDivn_eq x y), run aluRem (aluRem_eq x y), run aluRemn (aluRemn_eq x y), run (fun x y => x &&& y) rfl,
    run (fun x y => x ||| y) rfl, run (fun x y => x ^^^ y) rfl, run (fun x y => x &&& ~~~y) rfl, run aluShl (shiftLeft_eq_mul x _),
    run aluShr (ushiftRight_eq_div x _), run aluSra (sshiftRight_eq_div x _), run aluRot (aluRot_eq x y), run aluMin (aluMin_eq x y),
    run aluMax (aluMax_eq x y), run aluMinn (aluMinn_eq x y), run aluMaxn (aluMaxn_eq x y)⟩

theorem aluLea_eq (sh : BitVec 3) (x y : Word) : aluLea sh x y = BitVec.ofNat 64 ((x.toNat + y.toNat * 2 ^ sh.toNat) % 2 ^ 64) := by
  apply BitVec.eq_of_toNat_eq
  rw [aluLea, BitVec.toNat_add, BitVec.toNat_shiftLeft, BitVec.toNat_ofNat, Nat.shiftLeft_eq]
  simp

theorem OnlyOperands.bytesBut {s t : State} (h : OnlyOperands s t) (p : Nat → Prop) : BytesBut p s t := by
  rw [h]
  exact ⟨fun _ _ => rfl, rfl⟩

/-- Settles O2: LEA is a two-source operation. -/
theorem leaAddsShifted : Obligations.LeaAddsShifted := by
  unfold Obligations.LeaAddsShifted
  intro s d a b x y sh h hd
  obtain ⟨frame, -, -⟩ := s.reading_put_frame [a, b] d (aluLea sh x y)
  refine ⟨(s.reading [a, b]).put d (aluLea sh x y), op2_eq hd h (aluLea sh), by rw [aluLea_eq], frame.bytesBut _, ?_, ?_, ?_, ?_⟩
  all_goals rw [frame]

/-! ### Values of the one-source operations (R53 to R55) -/

section
variable (x : Word)

theorem clzFrom_spec : ∀ n, clzFrom x n ≤ n ∧ x.toNat % 2 ^ n < 2 ^ (n - clzFrom x n) ∧ (clzFrom x n < n → 2 ^ (n - 1 - clzFrom x n) ≤ x.toNat % 2 ^ n)
  | 0 => by simp [clzFrom, Nat.mod_one]
  | n + 1 => by
    obtain ⟨hle, hlt, hge⟩ := clzFrom_spec n
    have hmod : x.toNat % 2 ^ (n + 1) = x.toNat % 2 ^ n + 2 ^ n * (x.getLsbD n).toNat := by
      rw [Nat.mod_pow_succ, ← BitVec.testBit_toNat, Nat.toNat_testBit]
    have hpos := Nat.mod_lt x.toNat (Nat.two_pow_pos n)
    unfold clzFrom
    rw [hmod]
    cases hb : x.getLsbD n with
    | true =>
      simp only [if_true, Bool.toNat_true, Nat.mul_one, Nat.sub_zero, Nat.add_sub_cancel, Nat.pow_succ]
      exact ⟨by omega, by omega, fun _ => by omega⟩
    | false =>
      simp only [Bool.false_eq_true, if_false, Bool.toNat_false, Nat.mul_zero, Nat.add_zero]
      rw [show n + 1 - (1 + clzFrom x n) = n - clzFrom x n by omega, show n + 1 - 1 - (1 + clzFrom x n) = n - 1 - clzFrom x n by omega]
      exact ⟨by omega, hlt, fun h => hge (by omega)⟩

theorem ctzFrom_spec : ∀ n i, ctzFrom x i n ≤ n ∧ (∀ k < ctzFrom x i n, x.getLsbD (i + k) = false) ∧
    (ctzFrom x i n < n → x.getLsbD (i + ctzFrom x i n) = true)
  | 0, i => by simp [ctzFrom]
  | n + 1, i => by
    obtain ⟨hle, hzero, hone⟩ := ctzFrom_spec n (i + 1)
    unfold ctzFrom
    split
    · next hb => simpa using hb
    · next hb =>
      refine ⟨by omega, fun k hk => ?_, fun h => ?_⟩
      · cases k with
        | zero => simpa using hb
        | succ k =>
          rw [Nat.add_comm k, ← Nat.add_assoc]
          exact hzero k (by omega)
      · rw [← Nat.add_assoc]; exact hone (by omega)

theorem popFrom_eq : ∀ n, popFrom x n = (List.range n).countP x.getLsbD
  | 0 => rfl
  | n + 1 => by rw [popFrom, popFrom_eq n, List.range_succ, List.countP_append, List.countP_singleton, Nat.add_comm]

theorem aluClz_spec : ∃ n ≤ 64, aluClz x = BitVec.ofNat 64 n ∧ x.toNat < 2 ^ (64 - n) ∧ (n < 64 → 2 ^ (63 - n) ≤ x.toNat) := by
  have h := clzFrom_spec x 64
  rw [Nat.mod_eq_of_lt x.isLt] at h
  exact ⟨clzFrom x 64, h.1, by rw [aluClz], h.2⟩

theorem aluCtz_spec : ∃ n ≤ 64, aluCtz x = BitVec.ofNat 64 n ∧ (∀ k < n, x.getLsbD k = false) ∧ (n < 64 → x.getLsbD n = true) := by
  have h := ctzFrom_spec x 64 0
  simp only [Nat.zero_add] at h
  exact ⟨ctzFrom x 0 64, h.1, by rw [aluCtz], h.2⟩

theorem aluPopc_eq : aluPopc x = BitVec.ofNat 64 ((List.range 64).countP x.getLsbD) := by rw [aluPopc, popFrom_eq]

theorem aluZext_eq (w : BitVec 2) : aluZext w x = BitVec.ofNat 64 (x.toNat % 2 ^ narrow w) := by
  apply BitVec.eq_of_toNat_eq
  simp [aluZext, BitVec.toNat_setWidth]

theorem aluBext_getLsbD (pos wm1 : BitVec 6) {k : Nat} (hk : k < 64) :
    (aluBext pos wm1 x).getLsbD k = (decide (k ≤ wm1.toNat) && x.getLsbD (pos.toNat + k)) := by
  rw [aluBext, BitVec.getLsbD_ofNat, Nat.testBit_mod_two_pow, Nat.testBit_div_two_pow, BitVec.testBit_toNat, Nat.add_comm k]
  simp [hk]

theorem add_signExtend_eq (imm : BitVec 14) : x + imm.signExtend 64 = BitVec.ofInt 64 (x.toInt + imm.toInt) := by
  rw [BitVec.ofInt_add, BitVec.ofInt_toInt]
  rfl

end

/-- Settles O3: the one-source shape with the value of each operation. -/
theorem oneSourceResults : Obligations.OneSourceResults := by
  unfold Obligations.OneSourceResults
  intro s d a x h hd
  have run (f : Word → Word) {v : Word} (e : f x = v) : op1 d a f s = .next ((s.reading [a]).put d v) := e ▸ op1_eq hd h f
  obtain ⟨n, hn, hclz, hclzSpec⟩ := aluClz_spec x
  obtain ⟨m, hm, hctz, hctzSpec⟩ := aluCtz_spec x
  refine ⟨⟨n, hn, run aluClz hclz, hclzSpec⟩, ⟨m, hm, run aluCtz hctz, hctzSpec⟩, run aluPopc (aluPopc_eq x), run (aluSext 0) rfl, run (aluSext 1) rfl,
    run (aluSext 2) rfl,
    run (aluZext 0) (aluZext_eq x 0), run (aluZext 1) (aluZext_eq x 1), run (aluZext 2) (aluZext_eq x 2), run id rfl,
    fun pos wm1 _ => ⟨aluBext pos wm1 x, run (aluBext pos wm1) rfl, fun k hk => aluBext_getLsbD x pos wm1 hk⟩⟩

/-- Settles O4: the one-source shape, with the immediate in the function. -/
theorem immediateResults : Obligations.ImmediateResults := by
  unfold Obligations.ImmediateResults
  intro s d a x imm sh h hd
  have run (f : Word → Word) {v : Word} (e : f x = v) : op1 d a f s = .next ((s.reading [a]).put d v) := e ▸ op1_eq hd h f
  have himm : imm.setWidth 64 = BitVec.ofNat 64 imm.toNat := by rw [BitVec.ofNat_toNat]
  exact ⟨run (fun x => x + imm.signExtend 64) (add_signExtend_eq x imm), run (fun x => x &&& imm.setWidth 64) (congrArg _ himm),
    run (fun x => x ||| imm.setWidth 64) (congrArg _ himm), run (fun x => x ^^^ imm.setWidth 64) (congrArg _ himm),
    run (fun x => x <<< sh.toNat) (shiftLeft_eq_mul x _), run (fun x => x >>> sh.toNat) (ushiftRight_eq_div x _),
    run (fun x => x.sshiftRight sh.toNat) (sshiftRight_eq_div x _)⟩

/-! ### Replaced fields (R54, R56) -/

/-- The mask of a field has its own bits set and no other. -/
theorem fieldMask_getLsbD (pos width k : Nat) (hk : k < 64) : (fieldMask pos width).getLsbD k = decide (pos ≤ k ∧ k < pos + width) := by
  rw [fieldMask, BitVec.getLsbD_ofNat, Nat.testBit_mul_two_pow, Nat.testBit_two_pow_sub_one]
  simp only [hk, decide_true, Bool.true_and, ← Bool.decide_and]
  exact decide_eq_decide.mpr (by omega)

theorem aluBins_getLsbD (pos wm1 : BitVec 6) (w x : Word) {k : Nat} (hk : k < 64) :
    (aluBins pos wm1 w x).getLsbD k = if pos.toNat ≤ k ∧ k ≤ pos.toNat + wm1.toNat then x.getLsbD (k - pos.toNat) else w.getLsbD k := by
  simp only [aluBins, BitVec.getLsbD_or, BitVec.getLsbD_and, BitVec.getLsbD_not, BitVec.getLsbD_shiftLeft, fieldMask_getLsbD _ _ _ hk, hk]
  by_cases h : pos.toNat ≤ k ∧ k ≤ pos.toNat + wm1.toNat
  · have h' : pos.toNat ≤ k ∧ k < pos.toNat + (wm1.toNat + 1) := by omega
    simp [h, h', Nat.not_lt.mpr h.1]
  · have h' : ¬ (pos.toNat ≤ k ∧ k < pos.toNat + (wm1.toNat + 1)) := by omega
    simp [h, h']

theorem aluMovk_getLsbD (hw : BitVec 2) (imm : BitVec 16) (w : Word) {k : Nat} (hk : k < 64) :
    (aluMovk hw imm w).getLsbD k =
      if 16 * hw.toNat ≤ k ∧ k < 16 * hw.toNat + 16 then imm.getLsbD (k - 16 * hw.toNat) else w.getLsbD k := by
  simp only [aluMovk, BitVec.getLsbD_or, BitVec.getLsbD_and, BitVec.getLsbD_not, BitVec.getLsbD_shiftLeft, fieldMask_getLsbD _ _ _ hk,
    BitVec.getLsbD_setWidth, hk]
  by_cases h : 16 * hw.toNat ≤ k ∧ k < 16 * hw.toNat + 16
  · simp [h, Nat.not_lt.mpr h.1, show k - 16 * hw.toNat < 64 by omega]
  · by_cases hlow : k < 16 * hw.toNat
    · simp [h, hlow]
    · simp [h, BitVec.getLsbD_of_ge imm (k - 16 * hw.toNat) (by omega)]

/-- Settles O5: bit by bit, the field from its source and the rest from the register. -/
theorem fieldReplacingResults : Obligations.FieldReplacingResults := by
  unfold Obligations.FieldReplacingResults
  intro s n a x pos wm1 hw imm h _
  exact ⟨⟨_, opMod1_eq h (fun old xs => aluBins pos wm1 old (xs.headD 0)), fun k hk => aluBins_getLsbD pos wm1 _ x hk⟩,
    ⟨_, opMod0_eq s n (fun old _ => aluMovk hw imm old), fun k hk => aluMovk_getLsbD hw imm _ hk⟩,
    fun d i20 hd => op0_eq hd (i20.signExtend 64)⟩

end Sys2Proof.Machine
end

section
/-! # The condition queue

What its producers append and its consumers pop (R15, R58, R59, R68, R80). -/

namespace Sys2Proof.Machine

/-! ### Producers -/

/-- A producer that knows its bit has read its operands and fills the tail entry (R15). -/
theorem gated_fills {s : State} {os : List Opnd} {ws : List Word} (h : s.Delivers os ws) (bit : List Word → Bool) :
    gated (checkSrcs os Claims.none s) (fun s => (s.reading os).setCtx ((s.reading os).ctx.cqReserve (some (bit (s.takeAll os).1)))) s =
      .next ((s.reading os).setCtx ((s.reading os).ctx.cqReserve (some (bit ws)))) := by
  rw [gated_go (v := checkSrcs os .none s) (h.checkOpnds rfl), h.values]

theorem execCmp_eq {s : State} {a b : Opnd} {x y : Word} (h : s.Delivers [a, b] [x, y]) (cc : BitVec 4) :
    exec (.cmp a b cc) s = .next ((s.reading [a, b]).setCtx ((s.reading [a, b]).ctx.cqReserve (some (condHolds cc x y)))) :=
  gated_fills h fun ws => condHolds cc (ws.getD 0 0) (ws.getD 1 0)

theorem execCmpi_eq {s : State} {a : Opnd} {x : Word} (h : s.Delivers [a] [x]) (cc : BitVec 4) (imm : BitVec 14) :
    exec (.cmpi cc a imm) s = .next ((s.reading [a]).setCtx ((s.reading [a]).ctx.cqReserve (some (condHolds cc x (imm.signExtend 64))))) :=
  gated_fills h fun ws => condHolds cc (ws.getD 0 0) (imm.signExtend 64)

theorem execCqpush_eq {s : State} {a : Opnd} {x : Word} (h : s.Delivers [a] [x]) :
    exec (.cqpush a) s = .next ((s.reading [a]).setCtx ((s.reading [a]).ctx.cqReserve (some (x != 0)))) :=
  gated_fills h fun ws => ws.getD 0 0 != 0

/-- Settles O9: each producer fills the tail entry, and each condition code is the comparison that it names. -/
theorem compareFillsQueue : Obligations.CompareFillsQueue := by
  unfold Obligations.CompareFillsQueue
  intro s a b x y imm cc holds filled
  have key (u v : Word) : condHolds cc u v = true ↔ holds u v := by
    simp only [holds, condHolds]
    match cc.toNat with
    | 0 => exact beq_iff_eq
    | 1 => exact bne_iff_ne
    | 2 | 4 => exact BitVec.slt_iff_toInt_lt
    | 3 | 5 => exact BitVec.sle_iff_toInt_le
    | 6 | 8 => exact BitVec.ult_iff_toNat_lt
    | 7 | 9 => exact BitVec.ule_iff_toNat_le
    | n + 10 => exact ⟨Bool.noConfusion, False.elim⟩
  exact ⟨fun h => ⟨_, execCmp_eq h cc, key x y⟩, fun h => ⟨_, execCmpi_eq h cc imm, key x _⟩, fun h => ⟨_, execCqpush_eq h, bne_iff_ne⟩⟩

/-! ### TKTEST (R68) -/

theorem tktestBit_zero (c : Context) : tktestBit c 0 = some true := rfl

theorem tktestBit_eq (c : Context) {k : BitVec 6} (h : k ≠ 0) :
    tktestBit c k.toNat = if (c.ticket k).pending then none else some ((c.ticket k).status == 0) := by
  have h0 : k.toNat ≠ 0 := fun e => h (BitVec.eq_of_toNat_eq e)
  have ht : c.tickets.toList.getD k.toNat Ticket.free = c.ticket k := by simp [Context.ticket, List.getD, k.isLt]
  rw [tktestBit, if_neg h0]
  simp only [ht]

/-- A bit that is known at issue fills the entry. -/
theorem exec_tktest_some {s : State} {k : BitVec 6} {b : Bool} (h : tktestBit s.ctx k.toNat = some b) :
    exec (.tktest k) s = .next (s.setCtx (s.ctx.cqReserve (some b))) := by
  show execTktest k s = _
  rw [execTktest, gated_go rfl]
  simp only [h]

/-- A pending ticket leaves the entry unfilled, under the tag by which its completion finds it. -/
theorem exec_tktest_none {s : State} {k : BitVec 6} (h : tktestBit s.ctx k.toNat = none) :
    exec (.tktest k) s = .next (s.setCtx { s.ctx with cq := s.ctx.cq ++ [{ tag := tktestTag k.toNat, val := none, poi := false }] }) := by
  show execTktest k s = _
  rw [execTktest, gated_go rfl]
  simp only [h]

/-- The completion of a ticket fills the entries that wait for it. -/
theorem Context.completeTicket_fills {c : Context} {j : EngCmd} {k : BitVec 6} (hk : j.e.kp = k) (h0 : k ≠ 0) (st : BitVec 4) (dt : BitVec 32)
    (he : { tag := tktestTag k.toNat, val := none, poi := false } ∈ c.cq) :
    { tag := tktestTag k.toNat, val := some (st == 0), poi := false } ∈ (c.completeTicket j (st, dt)).cq := by
  subst hk
  rw [Context.completeTicket_eq c (st, dt) h0]
  exact List.mem_map.mpr ⟨_, he, by simp⟩

/-- Settles O10: by what is known of the ticket at issue. -/
theorem ticketTestFillsQueue : Obligations.TicketTestFillsQueue := by
  unfold Obligations.TicketTestFillsQueue
  intro s k
  by_cases h0 : k = 0
  · subst h0
    exact ⟨_, exec_tktest_some (tktestBit_zero s.ctx), rfl, fun _ => rfl, fun h => absurd rfl h, fun h => absurd rfl h⟩
  · have hbit := tktestBit_eq s.ctx h0
    cases hp : (s.ctx.ticket k).pending with
    | true =>
      rw [hp, if_pos rfl] at hbit
      exact ⟨_, exec_tktest_none hbit, rfl, fun h => absurd h h0, fun _ h => absurd h (by decide),
        fun _ _ => ⟨rfl, fun c j st dt he hk => Context.completeTicket_fills hk h0 st dt he⟩⟩
    | false =>
      rw [hp, if_neg (by decide)] at hbit
      exact ⟨_, exec_tktest_some hbit, rfl, fun h => absurd h h0, fun _ _ => ⟨by simp, rfl⟩, fun _ h => absurd h (by decide)⟩

/-! ### Consumers -/

section
variable {c : Context} {n : Nat} (slot : Nat)

theorem Context.checkPop_go (hlen : n ≤ c.cq.length) (hfull : ∀ e ∈ c.cq.take n, e.val.isSome = true) : c.checkPop slot 0 n = .go := by
  have hready : c.cqReady n = true := by simpa [Context.cqReady, hlen] using hfull
  rw [Context.checkPop, Nat.zero_add, if_neg (Nat.not_lt.mpr hlen), hready]
  rfl

theorem Context.checkPop_short (h : c.cq.length < n) : c.checkPop slot 0 n = .trap 0x02 (BitVec.ofNat 64 slot) := by
  rw [Context.checkPop, Nat.zero_add, if_pos h]

end

/-- The context with another condition queue. -/
def Context.withCq (c : Context) (q : List CqEntry) : Context := { c with cq := q }

theorem Context.dripRead_withCq (c : Context) (q : List CqEntry) : (c.withCq q).dripRead = (c.dripRead.1, c.dripRead.2.withCq q) := by
  unfold Context.dripRead Context.withCq
  dsimp only
  split <;> rfl

theorem Context.dripSkip_withCq (q : List CqEntry) : ∀ (k : Nat) (c : Context), (c.withCq q).dripSkip k = (c.dripSkip k).withCq q
  | 0, _ => rfl
  | k + 1, c => by rw [Context.dripSkip, Context.dripRead_withCq, Context.dripSkip_withCq q k, Context.dripSkip]

/-- What operands deliver does not depend on the condition queue. -/
theorem ReadsAs.withCq (s : State) (q : List CqEntry) : ReadsAs s Claims.none (s.setCtx (s.ctx.withCq q)) := by
  refine ⟨rfl, rfl, rfl, fun n k _ => ?_, fun k => ?_⟩
  · rw [show Claims.none.reads.count n = 0 from rfl, Nat.zero_add]
    rfl
  · rw [show Claims.none.reads.count 15 = 0 from rfl, Nat.zero_add, State.setCtx_ctx, Context.dripSkip_withCq, Context.dripRead_withCq]

theorem State.Delivers.values_withCq {s : State} {os : List Opnd} {ws : List Word} (h : s.Delivers os ws) (q : List CqEntry) :
    ((s.setCtx (s.ctx.withCq q)).takeAll os).1 = ws := (ReadsAs.takeAll (ReadsAs.withCq s q) h).1

section
variable {s : State} {e : CqEntry} {r : List CqEntry} {bit : Bool} (hq : s.ctx.cq = e :: r) (he : e.val = some bit)
include hq

theorem State.pop_head : s.setCtx (s.ctx.cqPop 1) = { s with ctx.cq := r } := by
  rw [Context.cqPop, hq]
  rfl

include he

theorem Context.cqHead_eq : s.ctx.cqHead = bit := by simp [Context.cqHead, hq, he]

theorem exec_setc {d : Opnd} (hd : s.Accepts d) : exec (.setc d) s = .next (({ s with ctx.cq := r } : State).put d (if bit then 1 else 0)) := by
  have hgo : checkSetc d .none s = .go := by
    rw [checkSetc, Context.checkPop_head hq he, Verdict.go_andThen]
    exact hd
  show execSetc d s = _
  rw [execSetc, gated_go hgo]
  simp only [State.pop_head hq, Context.cqHead_eq hq he]
  cases bit <;> rfl

theorem exec_sel {d a b : Opnd} {x y : Word} (h : s.Delivers [a, b] [x, y]) (hd : s.Accepts d) :
    exec (.sel d a b) s = .next ((({ s with ctx.cq := r } : State).reading [a, b]).put d (if bit then x else y)) := by
  have hgo : checkSel d a b .none s = .go := by
    rw [checkSel, Context.checkPop_head hq he, Verdict.go_andThen]
    exact h.checkOpnds hd.checkDests
  obtain ⟨hx, hy⟩ := List.cons.inj (h.values_withCq r)
  show execSel d a b s = _
  rw [execSel, gated_go hgo]
  simp only [State.pop_head hq, Context.cqHead_eq hq he]
  rw [← hx, ← (List.cons.inj hy).1]
  rfl

end

/-- Settles O11: the check of a pop by the length of the queue and its entries, then the pop. -/
theorem consumersPopHead : Obligations.ConsumersPopHead := by
  unfold Obligations.ConsumersPopHead
  intro s d a b x y nm1
  refine ⟨fun e r bit hq he => ⟨fun hd => exec_setc hq he hd, fun h hd => exec_sel hq he h hd⟩, fun hdelay hlen hfull => ?_, fun hempty => ⟨?_, ?_⟩,
    fun hdelay hshort => ?_⟩
  · have hgo : checkCqdrop nm1 0 s = .go := by rw [checkCqdrop, checkDelay_go hdelay, Verdict.go_andThen, Context.checkPop_go 1 hlen hfull]
    exact show execCqdrop nm1 s = _ from gated_go hgo _ s
  · have htrap : checkSetc d .none s = .trap 0x02 0 := by
      rw [checkSetc, Context.checkPop_short 0 (by simp [hempty]), Verdict.trap_andThen]
      rfl
    exact show execSetc d s = _ from gated_trap htrap _ s
  · have htrap : checkSel d a b .none s = .trap 0x02 0 := by
      rw [checkSel, Context.checkPop_short 0 (by simp [hempty]), Verdict.trap_andThen]
      rfl
    exact show execSel d a b s = _ from gated_trap htrap _ s
  · have htrap : checkCqdrop nm1 0 s = .trap 0x02 1 := by
      rw [checkCqdrop, checkDelay_go hdelay, Verdict.go_andThen, Context.checkPop_short 1 hshort]
      rfl
    exact show execCqdrop nm1 s = _ from gated_trap htrap _ s

end Sys2Proof.Machine
end

section
/-! # Reading control registers

MFC and MFCS: what each register of R64 reads, and the level that it needs (R62, R333). -/

namespace Sys2Proof.Machine

/-! ### The registers that stand in rows -/

section
variable (kycap : Word) (c : Context)

theorem cregRead_loopIndex (k : Fin 6) : cregRead kycap c (0x018 + k.val) = BitVec.ofNat 64 (((c.loopAt k.val).map (·.idx)).getD 0 % 2 ^ 32) := by
  fin_cases k <;> rfl

theorem cregRead_loopRemain (k : Fin 6) : cregRead kycap c (0x020 + k.val) = BitVec.ofNat 64 (((c.loopAt k.val).map (·.remain)).getD 0 % 2 ^ 32) := by
  fin_cases k <;> rfl

theorem cregRead_selector (k : Fin 4) : cregRead kycap c (0x030 + k.val) = c.z[k].view := by
  have h : cregRead kycap c (0x030 + k.val) = (c.z.toList.getD k.val { rows := 0, cols := 0 }).view := by fin_cases k <;> rfl
  simp [h, List.getD]

theorem cregRead_shape (k : Fin 8) : cregRead kycap c (0x040 + k.val) = c.mshp[k] := by
  have h : cregRead kycap c (0x040 + k.val) = c.mshp.toList.getD k.val 0 := by fin_cases k <;> rfl
  simp [h, List.getD]

end

/-! ### The two instructions -/

theorem privilegeTrap_supervisor {l : Level} (h : l ≠ .user) (slot : Nat) : privilegeTrap .supervisor l slot = .go := by
  cases l with
  | user => exact absurd rfl h
  | supervisor | firmware => rfl

section
variable {s : State} {d : Opnd} (hd : s.Accepts d) (n : BitVec 14)
include hd

theorem checkMfc_go (h : n.toNat < 0x100 ∨ s.src.level ≠ .user) : checkMfc d n .none s = .go := by
  rw [checkMfc, show s.checkDest .none d = .go from hd, Verdict.go_andThen, cregSupervisor]
  exact trapIf_neg (fun e => h.elim (fun hn => by have := of_decide_eq_true e.1; omega) (fun hl => hl e.2)) _ _

theorem checkMfc_trap (hn : 0x100 ≤ n.toNat) (hl : s.src.level = .user) : checkMfc d n .none s = .trap 0x04 0 := by
  rw [checkMfc, show s.checkDest .none d = .go from hd, Verdict.go_andThen, cregSupervisor]
  exact trapIf_pos ⟨decide_eq_true hn, hl⟩ _ _

theorem exec_mfc (h : n.toNat < 0x100 ∨ s.src.level ≠ .user) : exec (.mfc d n) s = .next (s.put d (cregRead s.kycap s.src n.toNat)) :=
  show execMfc d n s = _ from gated_go (checkMfc_go hd n h) _ s

theorem exec_mfcs (hl : s.src.level ≠ .user) : exec (.mfcs d n) s = .next (s.put d (cregRead s.kycap s.src n.toNat)) := by
  have hgo : checkMfcs d n .none s = .go := by rw [checkMfcs, privilegeTrap_supervisor hl, Verdict.go_andThen, checkMfc_go hd n (.inr hl)]
  exact show execMfcs d n s = _ from gated_go hgo _ s

theorem exec_mfc_user (hn : 0x100 ≤ n.toNat) (hl : s.src.level = .user) : exec (.mfc d n) s = .next (s.takeTrap 0x04 0) :=
  show execMfc d n s = _ from gated_trap (checkMfc_trap hd n hn hl) _ s

end

theorem exec_mfcs_user {s : State} (d : Opnd) (n : BitVec 14) (hl : s.src.level = .user) : exec (.mfcs d n) s = .next (s.takeTrap 0x04 0x70) := by
  have htrap : checkMfcs d n .none s = .trap 0x04 0x70 := by
    rw [checkMfcs, hl, show privilegeTrap .supervisor .user 0 = .trap 0x04 0x70 from rfl, Verdict.trap_andThen]
  exact show execMfcs d n s = _ from gated_trap htrap _ s

/-- Settles O16: both instructions deliver `cregRead`, register by register. -/
theorem controlRegistersRead : Obligations.ControlRegistersRead := by
  unfold Obligations.ControlRegistersRead
  intro s d hd c reads
  have key {n : BitVec 14} {v : Word} (hv : cregRead s.kycap s.src n.toNat = v) : reads n v :=
    ⟨fun h => hv ▸ exec_mfc hd n h, fun h => hv ▸ exec_mfcs hd n h, fun hn hl => exec_mfc_user hd n hn hl, fun hl => exec_mfcs_user d n hl⟩
  -- the registers of a row have small numbers
  have row {m : Nat} (hm : m < 2 ^ 14) {v : Word} (hv : cregRead s.kycap s.src m = v) : reads (BitVec.ofNat 14 m) v :=
    key (by rw [BitVec.toNat_ofNat, Nat.mod_eq_of_lt hm, hv])
  refine ⟨key rfl, key rfl, key rfl, key rfl, key rfl, key rfl, key rfl, key rfl, key rfl, fun k e he => ⟨?_, ?_⟩, fun k hk => ⟨?_, ?_⟩,
    fun k => row (by omega) (cregRead_selector _ _ k), fun k => row (by omega) (cregRead_shape _ _ k), key rfl, key rfl, key rfl, key rfl, key rfl,
    key rfl, key rfl, key rfl, key rfl, key rfl, key rfl, key rfl⟩
  · exact row (by omega) (by rw [cregRead_loopIndex, Context.loopAt, he]; rfl)
  · exact row (by omega) (by rw [cregRead_loopRemain, Context.loopAt, he]; rfl)
  all_goals
    have hnone : s.src.loops.reverse[k.val]? = none := List.getElem?_eq_none (by simpa using hk)
  · exact row (by omega) (by rw [cregRead_loopIndex, Context.loopAt, hnone]; rfl)
  · exact row (by omega) (by rw [cregRead_loopRemain, Context.loopAt, hnone]; rfl)

end Sys2Proof.Machine
end

section
/-! # Software traps

TRAP, SYS and BKPT in a context with nothing outstanding (R69, R86). -/

namespace Sys2Proof.Machine

/-- Where nothing is under way, nothing lands. -/
theorem Context.quiesce_idle {c : Context} (hpend : c.pend = []) (hfaggs : c.faggs = []) (hdrip : c.dripFlights = []) : c.quiesce = c := by
  have hland : c.landAll = c := by
    rw [Context.landAll, hpend, List.foldl_nil, ← hpend]
  have hflags : c.arriveAllFaggs = c := by
    rw [Context.arriveAllFaggs, hfaggs, List.foldl_nil, ← hfaggs]
  have htray : c.dripLandAll = c := by
    rw [Context.dripLandAll, hdrip, List.foldl_nil, ← hdrip]
  rw [Context.quiesce, hland, hflags, htray]

theorem Context.takeTrap_idle {c : Context} (hinh : c.inh = false) (hpend : c.pend = []) (hfaggs : c.faggs = []) (hdrip : c.dripFlights = [])
    (hcq : c.cqAllFilled = true) (cause : Nat) (info : Word) : c.takeTrap cause info = c.enterTrap cause info := by
  have hq := Context.quiesce_idle hpend hfaggs hdrip
  rw [Context.takeTrap_entered hinh (by rw [hq, hcq]), hq]

/-- Settles O21: in an idle context the trap enters at once, and it is no trap for deferred faults. -/
theorem softwareTrapsEnter : Obligations.SoftwareTrapsEnter := by
  unfold Obligations.SoftwareTrapsEnter
  intro s code imm hsrc hinh hpc halign hpend hfaggs hdrip hcq entered
  have enters {i : Instr} {cause : Nat} {info : Word} (hx : exec i s = .next (s.takeTrap cause info)) (hlt : cause < 256) (hne : cause ≠ 0x0D) :
      entered i cause info := by
    have hzero : (if cause = 0x0D then faultBits s.ctx.liveFaults else 0) = 2 ^ 11 * 0 := if_neg hne
    have htrap := (Context.takeTrap_idle hinh hpend hfaggs hdrip hcq cause info).trans (Context.enterTrap_eq hinh cause info)
    refine ⟨_, hx, rfl, ?_⟩
    rw [State.takeTrap, State.setCtx_ctx, htrap, hzero]
    refine ⟨?_, ?_, ?_, rfl, rfl, ?_, rfl, rfl, rfl, rfl⟩
    · rw [causeWord_cause _ _ (by decide), Nat.mod_eq_of_lt hlt]
    · exact causeWord_level _ _ (by decide)
    · rw [show s.ctx.pc % 2 ^ 56 / 4 * 4 = s.ctx.pc by omega]
    · rw [Nat.mod_eq_of_lt hlt]
  have hword {n : Nat} (v : BitVec n) : v.setWidth 64 = BitVec.ofNat 64 v.toNat := by rw [BitVec.ofNat_toNat]
  refine ⟨fun hd => ?_, ?_, fun hd => ?_⟩
  · have hgo : checkDelay s = .go := checkDelay_go (hsrc ▸ hd)
    exact ⟨enters (hword code ▸ show execTrap code s = _ from gated_go hgo _ s) (by decide) (by decide),
      enters (hword code ▸ show execSys code s = _ from gated_go hgo _ s) (by decide) (by decide)⟩
  · exact enters (hword imm ▸ rfl) (by decide) (by decide)
  · have htrap : checkDelay s = .trap 0x03 1 := checkDelay_trap (hsrc ▸ hd)
    exact ⟨show execTrap code s = _ from gated_trap htrap _ s, show execSys code s = _ from gated_trap htrap _ s⟩

end Sys2Proof.Machine
end

section
/-! # Waits and barriers

NOP, TKWAIT, WAITQ, YIELD, BARA and BARW (R70, R71, R81 to R84), and the arrivals that wait for the second part of an access (R85, R195). -/

namespace Sys2Proof.Machine

/-! ### An access is made for a context whatever its own second part is -/

/-- The context with another second part of an access to make. -/
def Context.withHalf (c : Context) (h : Option Half) : Context := { c with half := h }

section
variable (c : Context) (x : Option Half)

theorem State.prepare_withHalf (s : State) (w : Bool) (l : Loc) : s.prepare (c.withHalf x) w l = s.prepare c w l := by
  cases l <;> rfl

theorem State.prepareFrom_withHalf (w : Bool) : ∀ (ls : List Loc) (last : Option Loc) (s : State),
    s.prepareFrom (c.withHalf x) w last ls = s.prepareFrom c w last ls
  | [], _, _ => rfl
  | l :: ls, last, s => by rw [State.prepareFrom, State.prepareFrom, State.prepare_withHalf, State.prepareFrom_withHalf w ls]

theorem State.loadByte_withHalf (s : State) (l : Loc) : s.loadByte (c.withHalf x) l = s.loadByte c l := by
  cases l <;> rfl

theorem State.loadLocs_withHalf (s : State) (ls : List Loc) : s.loadLocs (c.withHalf x) ls = s.loadLocs c ls := by
  have hbyte (t : State) : t.loadByte (c.withHalf x) = t.loadByte c := funext (t.loadByte_withHalf c x)
  simp only [State.loadLocs, State.prepareAll, State.prepareFrom_withHalf, hbyte]

theorem State.storeByte_withHalf (s : State) (b : Byte) (l : Loc) : s.storeByte (c.withHalf x) b l = s.storeByte c b l := by
  cases l <;> rfl

theorem State.storeBytes_withHalf : ∀ (ls : List Loc) (bs : List Byte) (s : State), s.storeBytes (c.withHalf x) ls bs = s.storeBytes c ls bs
  | [], _, _ => rfl
  | _ :: _, [], _ => rfl
  | l :: ls, b :: bs, s => by rw [State.storeBytes, State.storeBytes, State.storeByte_withHalf, State.storeBytes_withHalf ls bs]

theorem State.storeLocs_withHalf (s : State) (ls : List Loc) (bs : List Byte) : s.storeLocs (c.withHalf x) ls bs = s.storeLocs c ls bs := by
  simp only [State.storeLocs, State.prepareAll, State.prepareFrom_withHalf, State.storeBytes_withHalf]

end

/-! ### The second part of an access (R195) -/

/-- The second part `h` of an access of the context on turn is made; what waits for it has not come yet. -/
def State.makeHalf (s : State) (h : Half) : State :=
  let r := s.setCtx (s.ctx.withHalf none)
  if h.bytes = [] then (r.loadLocs s.ctx h.locs).2.setCtx
    { (r.loadLocs s.ctx h.locs).2.ctx with pend := (r.loadLocs s.ctx h.locs).2.ctx.pend.map (h.complete (r.loadLocs s.ctx h.locs).1) }
  else r.storeLocs s.ctx h.locs h.bytes

theorem State.settleHalf_some {s : State} {h : Half} (hs : s.ctx.half = some h) :
    s.settleHalf = (s.makeHalf h).setCtx (h.arrive.foldl Context.arrive (s.makeHalf h).ctx) := by
  rw [State.settleHalf, hs]
  rfl

/-- A further arrival that waits for the second part comes with it, after those that waited already (R85). -/
theorem State.settleHalf_arrive {s : State} {h : Half} (hs : s.ctx.half = some h) (slot : BitVec 3) :
    (s.setCtx (s.ctx.withHalf (some { h with arrive := h.arrive ++ [slot] }))).settleHalf.ctx = s.settleHalf.ctx.arrive slot := by
  let h' : Half := { h with arrive := h.arrive ++ [slot] }
  have hmake : (s.setCtx (s.ctx.withHalf (some h'))).makeHalf h' = s.makeHalf h := by
    simp only [State.makeHalf, State.setCtx_ctx, State.loadLocs_withHalf, State.storeLocs_withHalf]
    rfl
  have hu : (s.setCtx (s.ctx.withHalf (some h'))).ctx.half = some h' := rfl
  rw [State.settleHalf_some hu, State.settleHalf_some hs, hmake]
  exact List.foldl_append

/-! ### Barriers -/

section
variable {s : State} (hsrc : s.src = s.ctx) (hd : s.ctx.dsc = 0) (slot : BitVec 3)
include hsrc hd

theorem checkBara_eq : checkBara slot s = holdIf ((s.others.filter (fun m => m.sameBrigade (s.ctx.who s.variant) && !m.arrivedForAll)).any
    (fun m => decide (255 < (s.ctx.bars[slot.toFin] + 1 - m.bars[slot.toFin]).toInt)) = true) := by
  rw [checkBara, checkDelay_go (hsrc ▸ hd), Verdict.go_andThen, hsrc]
  simp only [State.otherCounts, List.any_map]
  rfl

theorem checkBarw_eq : checkBarw slot s = holdIf ((s.others.filter (fun m => m.sameBrigade (s.ctx.who s.variant) && !m.arrivedForAll)).any
    (fun m => decide (0 < (s.ctx.bars[slot.toFin] - m.bars[slot.toFin]).toInt)) = true) := by
  rw [checkBarw, checkDelay_go (hsrc ▸ hd), Verdict.go_andThen, hsrc]
  simp only [State.otherCounts, List.any_map]
  rfl

end

theorem holdIf_any_go {α : Type} {l : List α} {p : α → Prop} [DecidablePred p] (h : ∀ m ∈ l, ¬ p m) : holdIf (l.any (fun m => decide (p m)) = true) = .go :=
  if_neg (by simpa using h)

theorem holdIf_any_hold {α : Type} {l : List α} {p : α → Prop} [DecidablePred p] (h : ∃ m ∈ l, p m) : holdIf (l.any (fun m => decide (p m)) = true) = .hold :=
  if_pos (by simpa using h)

/-- With no access of its own bundle half made, BARA arrives at once (R84). -/
theorem execBara_none {s : State} {slot : BitVec 3} (hgo : checkBara slot s = .go) (h : s.ctx.half = none) :
    exec (.bara slot) s = .next (s.setCtx (s.ctx.arrive slot)) := by
  show execBara slot s = _
  rw [execBara, gated_go hgo]
  simp only [h]

/-- Else it arrives with the second part of that access (R85). -/
theorem execBara_some {s : State} {slot : BitVec 3} (hgo : checkBara slot s = .go) {h : Half} (hs : s.ctx.half = some h) :
    exec (.bara slot) s = .next (s.setCtx (s.ctx.withHalf (some { h with arrive := h.arrive ++ [slot] }))) := by
  show execBara slot s = _
  rw [execBara, gated_go hgo]
  simp only [hs]
  rfl

/-! ### TKWAIT, WAITQ and YIELD -/

theorem holdIf_pos {p : Prop} [Decidable p] (h : p) : holdIf p = .hold := if_pos h
theorem holdIf_neg {p : Prop} [Decidable p] (h : ¬ p) : holdIf p = .go := if_neg h

section
variable {s : State} (hd : s.src.dsc = 0)
include hd

theorem checkTkwait_eq (k : BitVec 6) : checkTkwait k s = holdIf ((s.src.ticket k).pending = true) := by
  rw [checkTkwait, checkDelay_go hd, Verdict.go_andThen]

theorem checkWaitq_eq : checkWaitq s = holdIf (s.inputCount s.src = 0) := by rw [checkWaitq, checkDelay_go hd, Verdict.go_andThen]

theorem checkYield_eq : checkYield s = holdIf (s.src.yielded = false) := by rw [checkYield, checkDelay_go hd, Verdict.go_andThen]

/-- A ticket that is complete lets TKWAIT go on, or trap (R81). -/
theorem exec_tkwait_done {k : BitVec 6} (h : (s.src.ticket k).pending = false) :
    exec (.tkwait k) s = .next (if (s.src.ticket k).traps then s.takeTrap 0x0B (ticketInfo (s.src.ticket k) k) else s) := by
  have hgo : checkTkwait k s = .go := (checkTkwait_eq hd k).trans (holdIf_neg (by simp [h]))
  exact show execTkwait k s = _ from gated_go hgo _ s

theorem exec_yield_hold (h : s.src.yielded = false) : exec .yield s = .next { s.hold with ctx.yielded := true, ctx.landPoint := true } := by
  show execYield s = _
  rw [execYield, (checkYield_eq hd).trans (holdIf_pos h)]

theorem exec_yield_go (h : s.src.yielded = true) : exec .yield s = .next { s with ctx.yielded := false } := by
  show execYield s = _
  rw [execYield, (checkYield_eq hd).trans (holdIf_neg (by simp [h]))]

end

theorem Ticket.traps_false {t : Ticket} (h : t.te = false ∨ t.status = 0 ∨ t.status = 5) : t.traps = false := by
  rcases h with h | h | h <;> simp [Ticket.traps, h]

theorem Ticket.traps_true {t : Ticket} (hte : t.te = true) (h0 : t.status ≠ 0) (h5 : t.status ≠ 5) : t.traps = true := by
  simp only [Ticket.traps, hte, Bool.true_and, Bool.and_eq_true, bne_iff_ne]
  exact ⟨h0, h5⟩

/-- Settles O26: each check is a hold on the one thing waited for; BARA's arrival is made at once, or with the access that it follows. -/
theorem waitsHoldAndRelease : Obligations.WaitsHoldAndRelease := by
  unfold Obligations.WaitsHoldAndRelease
  intro s k slot hsrc hd t mates
  have hd' : s.src.dsc = 0 := hsrc ▸ hd
  have ht : s.src.ticket k = t := by rw [hsrc]
  refine ⟨rfl, show execNopB s = _ from gated_go (checkDelay_go hd') _ s, fun hp => ?_, fun hp hok => ?_, fun hp hte h0 h5 => ?_, fun h0 => ?_,
    fun hpos => ?_, fun hy => ?_, fun hfew => ⟨fun hnone => ?_, fun h hs => ?_⟩, fun hmany => ?_, fun hfew => ?_, fun hmany => ?_⟩
  · have hhold : checkTkwait k s = .hold := (checkTkwait_eq hd' k).trans (holdIf_pos (by rw [ht, hp]))
    exact show execTkwait k s = _ from gated_hold hhold _ s
  · rw [exec_tkwait_done hd' (by rw [ht, hp]), ht, Ticket.traps_false hok]
    rfl
  · rw [exec_tkwait_done hd' (by rw [ht, hp]), ht, Ticket.traps_true hte h0 h5]
    rfl
  · have hhold : checkWaitq s = .hold := (checkWaitq_eq hd').trans (holdIf_pos (by rw [hsrc, h0]))
    exact show execWaitq s = _ from gated_hold hhold _ s
  · have hgo : checkWaitq s = .go := (checkWaitq_eq hd').trans (holdIf_neg (by rw [hsrc]; omega))
    exact show execWaitq s = _ from gated_go hgo _ s
  · exact ⟨_, exec_yield_hold hd' (by rw [hsrc, hy]), rfl, exec_yield_go hd rfl⟩
  · have hgo : checkBara slot s = .go := (checkBara_eq hsrc hd slot).trans (holdIf_any_go fun m hm => Int.not_lt.mpr (hfew m hm))
    exact execBara_none hgo hnone
  · have hgo : checkBara slot s = .go := (checkBara_eq hsrc hd slot).trans (holdIf_any_go fun m hm => Int.not_lt.mpr (hfew m hm))
    exact ⟨_, execBara_some hgo hs, rfl, by rw [State.settleHalf_arrive hs]; rfl⟩
  · exact show execBara slot s = _ from gated_hold ((checkBara_eq hsrc hd slot).trans (holdIf_any_hold hmany)) _ s
  · have hgo : checkBarw slot s = .go := (checkBarw_eq hsrc hd slot).trans (holdIf_any_go fun m hm => Int.not_lt.mpr (hfew m hm))
    exact show execBarw slot s = _ from gated_go hgo _ s
  · exact show execBarw slot s = _ from gated_hold ((checkBarw_eq hsrc hd slot).trans (holdIf_any_hold hmany)) _ s

end Sys2Proof.Machine
end

section
/-! # What the fabric leaves alone

Caches, homes, messages, requests and translations move tokens and copies. Every byte reads as it did but for those of the dirty
bitmaps, and of the contexts only the record of the zeros that their commands have written changes (R189, R190, R217, R354 to R367). -/

namespace Sys2Proof.Machine

open Host (Cell)

/-! ### The frame -/

/-- The context without the commands that it has in flight. -/
def Context.sansCmds (c : Context) : Context := { c with cmds := [] }

/-- The machine without memory and what the fabric keeps about it. -/
def State.apart (s : State) : State :=
  { s with ctx := s.ctx.sansCmds, others := s.others.map Context.sansCmds, mem := [], pois := [], zflags := [], swLines := [], lines := [], msgs := [],
           treqs := [], claims := [], pmsgs := [], ptables := Vector.replicate 6 { active := [], early := [] }, pseq := Vector.replicate 6 0, snoops := [],
           zclrs := [], codes := [], tlb := [], mgmt.errlog := [], mgmt.msix := [], mgmt.fatal := false, mgmt.uncorrectable := false }

/-- The fabric leads from `s` to `t` at most: no byte reads otherwise but those of the dirty bitmaps, and no zero-map flag is new. -/
structure Quiet (s t : State) : Prop where
  apart : t.apart = s.apart
  flags : ∀ f ∈ t.zflags, f ∈ s.zflags
  bytes : ∀ k, ¬ s.BitmapByte k → t.homeByte k = s.homeByte k

section
variable {s t u : State}

theorem Quiet.refl (s : State) : Quiet s s := ⟨rfl, fun _ h => h, fun _ _ => rfl⟩

theorem Quiet.variant (h : Quiet s t) : t.variant = s.variant := congrArg (fun r => r.variant) h.apart
theorem Quiet.latched (h : Quiet s t) : t.mgmt.latched = s.mgmt.latched := congrArg (fun r => r.mgmt.latched) h.apart
theorem Quiet.zflagErr (h : Quiet s t) : t.zflagErr = s.zflagErr := congrArg (fun r => r.zflagErr) h.apart
theorem Quiet.posted (h : Quiet s t) : t.posted = s.posted := congrArg (fun r => r.posted) h.apart
theorem Quiet.writeBacks (h : Quiet s t) : t.writeBacks = s.writeBacks := congrArg (fun r => r.writeBacks) h.apart
theorem Quiet.ctx (h : Quiet s t) : t.ctx.sansCmds = s.ctx.sansCmds := congrArg State.ctx h.apart
theorem Quiet.others (h : Quiet s t) : t.others.map Context.sansCmds = s.others.map Context.sansCmds := congrArg State.others h.apart

theorem Quiet.bitmapByte (h : Quiet s t) (k : Nat) : t.BitmapByte k ↔ s.BitmapByte k := by
  have hkey (key : Nat) : t.bitmapKey key = s.bitmapKey key := by
    simp only [State.bitmapKey, State.place, h.variant, h.latched]
  simp only [State.BitmapByte, hkey]

theorem Quiet.trans (h : Quiet s t) (k : Quiet t u) : Quiet s u :=
  ⟨k.apart.trans h.apart, fun f hf => h.flags f (k.flags f hf),
    fun j hj => (k.bytes j (fun e => hj ((h.bitmapByte j).mp e))).trans (h.bytes j hj)⟩

end

theorem Quiet.foldl {α : Type} {f : State → α → State} (hf : ∀ s a, Quiet s (f s a)) : ∀ (l : List α) (s : State), Quiet s (l.foldl f s)
  | [], s => Quiet.refl s
  | a :: l, s => (hf s a).trans (Quiet.foldl hf l _)

theorem Quiet.ite {p : Prop} [Decidable p] {s t u : State} (ht : Quiet s t) (hu : Quiet s u) : Quiet s (if p then t else u) := by
  split
  · exact ht
  · exact hu

/-! ### The bytes of a tile -/

/-- Reading after some bytes have been dropped from the list. -/
theorem memGet_filter (q : Nat → Bool) (k : Nat) : ∀ m : List Cell, memGet (m.filter (fun c => q c.1)) k = if q k then memGet m k else 0
  | [] => by simp [memGet]
  | (j, v) :: r => by
    have ih := memGet_filter q k r
    by_cases hjk : j = k
    · subst hjk
      by_cases hq : q j = true <;> simp_all [memGet]
    · by_cases hq : q j = true <;> simp_all [memGet]

theorem setDel_of_not_mem {a : Nat} : ∀ {l : List Nat}, a ∉ l → setDel l a = l
  | [], _ => rfl
  | k :: r, h => by
    obtain ⟨hne, hr⟩ := not_or.mp (mt List.mem_cons.mpr h)
    rw [setDel, if_neg hne, setDel_of_not_mem hr]

theorem State.setDirty_quiet (s : State) (k : Nat) : Quiet s (s.setDirty k) := by
  have hbytes (j : Nat) (hj : ¬ s.BitmapByte j) : (s.setDirty k).homeByte j = s.homeByte j := State.homeByte_setDirty_ne fun e => hj ⟨k, e⟩
  unfold State.setDirty at *
  split
  · exact Quiet.refl s
  · next hk =>
    rw [if_neg hk] at hbytes
    dsimp only at *
    split
    · exact Quiet.refl s
    · next p hp =>
      simp only [hp] at hbytes
      exact ⟨rfl, fun _ h => h, hbytes⟩

/-- A tile whose flag stands for zeros reads the same once its bytes are zero and the flag is gone (R190). -/
theorem State.unflag_quiet {s : State} {tile : Nat} (h : tile ∈ s.zflags) (codes : List (Nat × BitVec 2)) :
    Quiet s { ({ s with zflags := setDel s.zflags tile } : State).zeroKeys (4096 * tile) 4096 with codes := codes } := by
  refine ⟨rfl, fun f hf => (setDel_sublist tile s.zflags).subset hf, fun k _ => ?_⟩
  let u : State := { ({ s with zflags := setDel s.zflags tile } : State).zeroKeys (4096 * tile) 4096 with codes := codes }
  let keep (j : Nat) : Bool := !(decide (4096 * tile ≤ j) && decide (j < 4096 * tile + 4096))
  have hstruck : u.flagStruck (tileOf k) = s.flagStruck (tileOf k) := rfl
  have hmem : memGet u.mem k = if keep k then memGet s.mem k else 0 := memGet_filter keep k s.mem
  have hpois : u.pois.contains k = (s.pois.contains k && keep k) := by
    rw [show u.pois = s.pois.filter keep from rfl]
    simp [List.contains_eq_mem, List.mem_filter]
  show u.homeByte k = s.homeByte k
  unfold State.homeByte
  rw [hstruck, hmem, hpois]
  by_cases hk : tileOf k = tile
  · have hout : keep k = false := by
      simp only [keep, Bool.not_eq_false', Bool.and_eq_true, decide_eq_true_eq]
      unfold tileOf at hk
      omega
    rw [hk, hout, if_pos (List.contains_iff_mem.mpr h)]
    split <;> simp
  · have hin : keep k = true := by
      simp only [keep, Bool.not_eq_true', Bool.and_eq_false_iff, decide_eq_false_iff_not]
      unfold tileOf at hk
      omega
    have hflag : u.zflags.contains (tileOf k) = s.zflags.contains (tileOf k) := by simp [u, State.zeroKeys, mem_setDel_ne hk]
    rw [hin, hflag, Bool.and_true, if_pos rfl]

theorem State.clearAsked_quiet (s : State) (tile : Nat) : Quiet s (s.clearAsked tile) := by
  refine ⟨?_, fun _ h => h, fun _ _ => rfl⟩
  have hmap : (s.clearAsked tile).others.map Context.sansCmds = s.others.map Context.sansCmds := by
    rw [State.clearAsked, mapCtxs, List.map_map]
    rfl
  show ({ s.apart with others := (s.clearAsked tile).others.map Context.sansCmds } : State) = s.apart
  rw [hmap]
  rfl

theorem State.dropFlag_quiet (s : State) (tile : Nat) : Quiet s (s.dropFlag tile) := by
  unfold State.dropFlag
  split
  · next h =>
    have hunflag := State.unflag_quiet (List.contains_iff_mem.mp h)
    exact ((hunflag _).trans (State.setDirty_quiet _ _)).trans (State.clearAsked_quiet _ _)
  · exact Quiet.refl s

theorem State.clearFlag_unflagged {s : State} {key : Nat} (hz : tileOf key ∉ s.zflags) (he : tileOf key ∉ s.zflagErr) : s.clearFlag key = s := by
  have hdrop : s.dropFlag (tileOf key) = s := if_neg (by simpa using hz)
  simp only [State.clearFlag, hdrop, setDel_of_not_mem he]

theorem State.writeBlock_quiet (s : State) (line key : Nat) : Quiet s (s.writeBlock line key) :=
  Quiet.trans (t := { s with codes := putCode (key / 128) (s.codeFor line key) s.codes }) ⟨rfl, fun _ h => h, fun _ _ => rfl⟩ (State.setDirty_quiet _ key)

end Sys2Proof.Machine
end

section
/-! # The fabric's operations are quiet

Evictions, messages, persistent requests, clears, the exchange inside an access, and table walks (R185, R190, R215, R216, R356 to R367). -/

namespace Sys2Proof.Machine

/-! ### The memory-side cache -/

theorem State.homeEvict_quiet (s : State) (l : Line) : Quiet s (s.homeEvict l) := by
  unfold State.homeEvict
  split
  · exact Quiet.refl s
  · split
    · exact Quiet.refl s
    · split
      · exact (s.writeBlock_quiet l.line l.key).trans ⟨rfl, fun _ h => h, fun _ _ => rfl⟩
      · exact ⟨rfl, fun _ h => h, fun _ _ => rfl⟩

theorem State.packFit_quiet (need : Nat) : ∀ (fuel : Nat) (s : State) (ls : List Line), Quiet s (s.packFit need ls fuel)
  | 0, s, _ => Quiet.refl s
  | fuel + 1, s, ls => by
    unfold State.packFit
    split
    · exact Quiet.refl s
    · split
      · exact Quiet.refl s
      · exact (s.homeEvict_quiet _).trans (State.packFit_quiet need fuel _ _)

theorem State.escalate_quiet (s : State) (a line : Nat) (w : Bool) : Quiet s (s.escalate a line w) :=
  Quiet.ite (Quiet.refl s) ⟨rfl, fun _ h => h, fun _ _ => rfl⟩

theorem State.makeRoom_quiet (s : State) (l : Line) : Quiet s (s.makeRoom l) := by
  unfold State.makeRoom
  dsimp only
  split
  · exact Quiet.ite (Quiet.refl s) (State.packFit_quiet _ _ _ _)
  · refine Quiet.ite (Quiet.refl s) (Quiet.ite (Quiet.refl s) ?_)
    split
    · exact s.homeEvict_quiet _
    · split
      · exact Quiet.refl s
      · exact s.escalate_quiet _ _ _

theorem State.setLine_quiet (s : State) (l : Line) : Quiet s (s.setLine l) := ⟨rfl, fun _ h => h, fun _ _ => rfl⟩

theorem State.setTagged_quiet (s : State) (l : Line) : Quiet s (s.setTagged l) :=
  (Quiet.ite (s.makeRoom_quiet l) (Quiet.refl s)).trans (State.setLine_quiet _ l)

theorem State.sendClean_quiet (s : State) (l : Line) : Quiet s (s.sendClean l).1 := by
  unfold State.sendClean
  split
  · exact s.writeBlock_quiet _ _
  · exact Quiet.refl s

/-! ### Tokens on their way -/

theorem State.log_quiet (s : State) (e : LogEntry) : Quiet s (s.log e) := ⟨rfl, fun _ h => h, fun _ _ => rfl⟩

theorem State.msix_quiet (s : State) (v : Nat) : Quiet s (s.msix v) := ⟨rfl, fun _ h => h, fun _ _ => rfl⟩

theorem Quiet.stopped (s : State) : Quiet s { s with mgmt.fatal := true, mgmt.uncorrectable := true } := ⟨rfl, fun _ h => h, fun _ _ => rfl⟩

theorem State.fatalError_quiet (s : State) (k : FatalKind) : Quiet s (s.fatalError k) :=
  Quiet.ite (Quiet.refl s) (((s.log_quiet _).trans (State.msix_quiet _ 0)).trans (Quiet.stopped _))

theorem State.send_quiet (s : State) (m : TokMsg) : Quiet s (s.send m) := Quiet.ite (Quiet.refl s) ⟨rfl, fun _ h => h, fun _ _ => rfl⟩

theorem State.release_quiet (s : State) (l : Line) (a : Nat) (d : Option Nat) : Quiet s (s.release l a d) :=
  (s.setLine_quiet _).trans (State.send_quiet _ _)

theorem State.sendOne_quiet (s : State) (a : Nat) (l : Line) : Quiet s (s.sendOne a l) := (s.setTagged_quiet _).trans (State.send_quiet _ _)

theorem State.askHost_quiet (s : State) (x : Snoop) : Quiet s (s.askHost x) := Quiet.ite (Quiet.refl s) ⟨rfl, fun _ h => h, fun _ _ => rfl⟩

theorem State.sendAll_quiet (s : State) (l : Line) (a : Nat) (d : Option Nat) : Quiet s (s.sendAll l a d) := by
  unfold State.sendAll
  split
  · exact Quiet.refl s
  · split
    · exact s.askHost_quiet _
    · exact s.release_quiet l a d

theorem State.surrender_quiet (s : State) (line a : Nat) (d : Option Nat) : Quiet s (s.surrender line a d) := by
  unfold State.surrender
  split
  · exact Quiet.refl s
  · exact s.sendAll_quiet _ a d

theorem State.sendHome_quiet (s : State) (line a : Nat) : Quiet s (s.sendHome line a) := by
  unfold State.sendHome
  split
  · exact Quiet.refl s
  · split
    · exact Quiet.refl s
    · exact ((s.sendClean_quiet _).trans (State.setTagged_quiet _ _)).trans (State.send_quiet _ _)

theorem State.yieldFrom_quiet (s : State) (line d : Nat) : Quiet s (s.yieldFrom line d) := by
  unfold State.yieldFrom
  split
  · next l w _ _ =>
    have t := Quiet.foldl (f := fun s a => s.surrender line a (some w.agent)) (fun s a => s.surrender_quiet _ _ _)
      ((l.holders.map (·.agent)).filter (fun a => a != w.agent && tableDie s.variant a == d)) s
    exact Quiet.ite (t.trans (State.sendHome_quiet _ _ _)) t
  · exact Quiet.refl s

theorem State.yieldTokens_quiet (s : State) (line : Nat) : Quiet s (s.yieldTokens line) := Quiet.foldl (fun s _ => s.yieldFrom_quiet _ _) _ s

theorem State.performClaims_quiet (s : State) (line : Nat) : Quiet s (s.performClaims line) := by
  unfold State.performClaims
  split
  · exact Quiet.refl s
  · exact ⟨rfl, fun _ h => h, fun _ _ => rfl⟩

theorem State.clearRequests_quiet (s : State) (l : Line) : Quiet s (s.clearRequests l) := ⟨rfl, fun _ h => h, fun _ _ => rfl⟩

theorem State.tokensMoved_quiet (s : State) (line : Nat) : Quiet s (s.tokensMoved line) := by
  have t := (s.yieldTokens_quiet line).trans (State.performClaims_quiet _ line)
  unfold State.tokensMoved
  dsimp only
  split
  · exact t
  · exact t.trans (State.clearRequests_quiet _ _)

/-! ### Arrivals -/

theorem Quiet.tables (s : State) (ptables : Vector PTable 6) : Quiet s { s with ptables := ptables } := ⟨rfl, fun _ h => h, fun _ _ => rfl⟩

theorem State.activate_quiet (s : State) (m : PMsg) : Quiet s (s.activate m) := by
  unfold State.activate
  split
  · split <;> exact ⟨rfl, fun _ h => h, fun _ _ => rfl⟩
  · dsimp only
    split
    · exact ⟨rfl, fun _ h => h, fun _ _ => rfl⟩
    · exact (Quiet.tables s _).trans (State.tokensMoved_quiet _ _)

theorem State.deactivate_quiet (s : State) (m : PMsg) : Quiet s (s.deactivate m) := by
  unfold State.deactivate
  split
  · split <;> exact ⟨rfl, fun _ h => h, fun _ _ => rfl⟩
  · dsimp only
    split
    · exact (Quiet.tables s _).trans (State.tokensMoved_quiet _ _)
    · exact ⟨rfl, fun _ h => h, fun _ _ => rfl⟩

theorem State.persistentArrive_quiet (s : State) (n : Nat) : Quiet s (s.persistentArrive n) := by
  unfold State.persistentArrive
  split
  · exact Quiet.refl s
  · refine Quiet.trans (t := { s with pmsgs := s.pmsgs.eraseIdx n }) ⟨rfl, fun _ h => h, fun _ _ => rfl⟩ ?_
    exact Quiet.ite (State.activate_quiet _ _) (State.deactivate_quiet _ _)

theorem State.tokArrive_quiet (s : State) (n : Nat) : Quiet s (s.tokArrive n) := by
  unfold State.tokArrive
  split
  · exact Quiet.refl s
  · refine Quiet.trans (t := { s with msgs := s.msgs.eraseIdx n }) ⟨rfl, fun _ h => h, fun _ _ => rfl⟩ ?_
    dsimp only
    split
    · exact Quiet.refl _
    · exact (State.setTagged_quiet _ _).trans (State.tokensMoved_quiet _ _)

theorem State.zack_quiet (s : State) (n : Nat) : Quiet s (s.zack n) := by
  unfold State.zack
  split
  · exact Quiet.refl s
  · refine Quiet.ite (Quiet.refl s) (Quiet.trans (t := { s with zclrs := s.zclrs.eraseIdx n }) ⟨rfl, fun _ h => h, fun _ _ => rfl⟩ ?_)
    exact (State.dropFlag_quiet _ _).trans (Quiet.foldl (fun s _ => s.tokensMoved_quiet _) _ _)

theorem State.serveClears_quiet (s : State) (tile : Nat) : Quiet s (s.serveClears tile) := by
  refine Quiet.foldl (fun u _ => ?_) _ s
  split
  · exact Quiet.refl u
  · exact u.zack_quiet _

theorem State.backInvalidateAnswer_quiet (s : State) (line : Nat) : Quiet s (s.backInvalidateAnswer line) := by
  unfold State.backInvalidateAnswer
  split
  · exact Quiet.refl s
  · next x _ =>
    refine Quiet.trans (t := { s with snoops := s.snoops.erase x }) ⟨rfl, fun _ h => h, fun _ _ => rfl⟩ ?_
    dsimp only
    split
    · exact Quiet.refl _
    · exact Quiet.ite (Quiet.refl _) (Quiet.ite (State.sendOne_quiet _ _ _) (State.release_quiet _ _ _ _))

theorem State.hostReply_quiet (s : State) (line : Nat) : Quiet s (s.hostReply line) :=
  Quiet.ite (s.fatalError_quiet _) (s.backInvalidateAnswer_quiet line)

/-! ### The exchange inside an access -/

theorem State.lineEvent_quiet {s t : State} {line tile : Nat} (e : s.lineEvent line tile = some t) : Quiet s t := by
  unfold State.lineEvent at e
  split at e
  · cases e
    exact s.tokArrive_quiet _
  · split at e
    · cases e
      exact s.persistentArrive_quiet _
    · split at e
      · cases e
        exact s.zack_quiet _
      · split at e
        · cases e
          exact s.hostReply_quiet _
        · cases e

theorem State.runLine_quiet (line tile : Nat) (stop : State → Bool) : ∀ (fuel : Nat) (s : State), Quiet s (s.runLine line tile stop fuel)
  | 0, s => Quiet.refl s
  | fuel + 1, s => by
    unfold State.runLine
    split
    · exact Quiet.refl s
    · split
      · exact Quiet.refl s
      · next e => exact (State.lineEvent_quiet e).trans (State.runLine_quiet line tile stop fuel _)

theorem State.finishClaim_quiet (s : State) (a : Nat) : Quiet s (s.finishClaim a) := by
  unfold State.finishClaim
  split
  · exact Quiet.refl s
  · exact State.runLine_quiet _ _ _ _ s

theorem State.exchange_quiet (s : State) (a : Nat) (l : Line) (w : Bool) : Quiet s (s.exchange a l w) :=
  ((s.finishClaim_quiet a).trans (State.escalate_quiet _ _ _ _)).trans (State.runLine_quiet _ _ _ _ _)

theorem State.answered_quiet (s : State) (a : Nat) (l : Line) (w : Bool) : Quiet s (s.answered a l w) :=
  ((s.sendClean_quiet l).trans (State.setTagged_quiet _ _)).trans (State.clearRequests_quiet _ _)

theorem State.wrote_quiet (s : State) (line : Nat) : Quiet s (s.wrote line) := by
  unfold State.wrote
  split
  · exact Quiet.refl s
  · exact Quiet.ite ((s.setLine_quiet _).trans (State.tokensMoved_quiet _ line)) (s.setLine_quiet _)

theorem State.gatherFor_quiet (s : State) (a : Nat) (p : Place) (w : Bool) : Quiet s (s.gatherFor a p w) := by
  have gather (t : State) : Quiet t (if (t.lineRec p).satisfied a w = true then t else
      if t.answersAtOnce a (t.lineRec p) w = true then t.answered a (t.lineRec p) w else t.exchange a (t.lineRec p) w) :=
    Quiet.ite (Quiet.refl t) (Quiet.ite (t.answered_quiet _ _ _) (t.exchange_quiet _ _ _))
  exact Quiet.ite (Quiet.refl s) ((Quiet.ite (s.serveClears_quiet _) (Quiet.refl s)).trans (gather _))

/-- An access that reads moves tokens and copies alone (R357). -/
theorem State.acquire_read_quiet (s : State) (a : Nat) (p : Place) : Quiet s (s.acquire a p false) := s.gatherFor_quiet a p false

/-- So does one that writes where no flag stands over the byte (R190, R357). -/
theorem State.acquire_write_quiet {s : State} {p : Place} (hz : tileOf p.key ∉ s.zflags) (he : tileOf p.key ∉ s.zflagErr) (a : Nat) :
    Quiet s (s.acquire a p true) := by
  have t := s.gatherFor_quiet a p true
  have hclear : (s.gatherFor a p true).clearFlag p.key = s.gatherFor a p true :=
    State.clearFlag_unflagged (fun h => hz (t.flags _ h)) (by rw [t.zflagErr]; exact he)
  unfold State.acquire
  dsimp only
  rw [hclear]
  exact Quiet.ite (t.trans (State.wrote_quiet _ _)) t

theorem State.gatherHome_quiet (s : State) (p : Place) : Quiet s (s.gatherHome p) := Quiet.ite (Quiet.refl s) (s.exchange_quiet _ _ _)

theorem State.regrow_quiet (s : State) (p : Place) : Quiet s (s.regrow p) := Quiet.ite (s.makeRoom_quiet _) (Quiet.refl s)

/-! ### Translation -/

theorem State.touchWalk_quiet (s : State) (md asid va : Nat) : Quiet s (s.touchWalk md asid va) := by
  refine Quiet.foldl (fun t pa => ?_) _ s
  split
  · exact Quiet.refl t
  · exact t.acquire_read_quiet _ _

theorem State.tlbFill_quiet (s : State) (md asid va : Nat) : Quiet s (s.tlbFill md asid va) := by
  have t := s.touchWalk_quiet md asid va
  unfold State.tlbFill
  split
  · exact Quiet.refl s
  · dsimp only
    split
    · exact t
    · exact Quiet.ite (t.trans ⟨rfl, fun _ h => h, fun _ _ => rfl⟩) t

theorem State.fillAt_quiet (s : State) (w : Who) (va : Nat) : Quiet s (s.fillAt w va) := by
  unfold State.fillAt
  split
  · exact s.tlbFill_quiet _ _ _
  · split
    · exact Quiet.refl s
    · dsimp only
      split
      · exact Quiet.refl s
      · split
        · exact s.tlbFill_quiet _ _ _
        · exact Quiet.refl s

theorem State.fillPages_quiet (s : State) (w : Who) (va n : Nat) : Quiet s (s.fillPages w va n) := (s.fillAt_quiet w va).trans (State.fillAt_quiet _ w _)

end Sys2Proof.Machine
end

section
/-! # What an access leaves of the context on turn

Whatever memory, caches and the host do for an access of a sequencer, the context on turn keeps its registers and its streams, its queue and
its stacks, and everything else but its partition of scratch and the record of its commands' zeros. -/

namespace Sys2Proof.Machine

/-- The context without the commands that it has in flight and without its partition of scratch. -/
def Context.bare (c : Context) : Context := { c with cmds := [], scratch := [], scratchPoi := [] }

/-- The context on turn is in both states the same but for its commands and its partition. -/
def SameTurn (s t : State) : Prop := t.ctx.bare = s.ctx.bare

section
variable {s t u : State}

theorem SameTurn.refl (s : State) : SameTurn s s := rfl

theorem SameTurn.trans (h : SameTurn s t) (k : SameTurn t u) : SameTurn s u := Eq.trans k h

theorem SameTurn.ite {p : Prop} [Decidable p] (ht : SameTurn s t) (hu : SameTurn s u) : SameTurn s (if p then t else u) := by
  split
  · exact ht
  · exact hu

theorem Quiet.sameTurn (h : Quiet s t) : SameTurn s t :=
  (congrArg Context.bare h.ctx : t.ctx.sansCmds.bare = s.ctx.sansCmds.bare)

theorem SameTurn.streams (h : SameTurn s t) : t.ctx.streams = s.ctx.streams := congrArg (fun c => c.streams) h
theorem SameTurn.drip (h : SameTurn s t) : t.ctx.drip = s.ctx.drip := congrArg (fun c => c.drip) h
theorem SameTurn.dripHalf (h : SameTurn s t) : t.ctx.dripHalf = s.ctx.dripHalf := congrArg (fun c => c.dripHalf) h
theorem SameTurn.half (h : SameTurn s t) : t.ctx.half = s.ctx.half := congrArg (fun c => c.half) h

end

theorem SameTurn.foldl {α : Type} {f : State → α → State} (hf : ∀ s a, SameTurn s (f s a)) : ∀ (l : List α) (s : State), SameTurn s (l.foldl f s)
  | [], s => SameTurn.refl s
  | a :: l, s => (hf s a).trans (SameTurn.foldl hf l _)

/-! ### Writes at the home -/

theorem State.clearFlag_sameTurn (s : State) (key : Nat) : SameTurn s (s.clearFlag key) := (s.dropFlag_quiet (tileOf key)).sameTurn

theorem State.acquire_sameTurn (s : State) (a : Nat) (p : Place) (w : Bool) : SameTurn s (s.acquire a p w) := by
  have t := (s.gatherFor_quiet a p w).sameTurn
  exact SameTurn.ite ((t.trans (State.clearFlag_sameTurn _ _)).trans (State.wrote_quiet _ _).sameTurn) t

theorem State.homeWrite_sameTurn (s : State) (p : Place) : SameTurn s (s.homeWrite p) := by
  unfold State.homeWrite
  refine SameTurn.ite (SameTurn.refl s) (SameTurn.ite (SameTurn.refl s) ?_)
  have t := ((s.serveClears_quiet (tileOf p.key)).trans (State.gatherHome_quiet _ p)).sameTurn.trans (State.clearFlag_sameTurn _ p.key)
  dsimp only
  refine SameTurn.ite ?_ ?_
  · exact (t.trans (State.setTagged_quiet _ _).sameTurn).trans (State.wrote_quiet _ _).sameTurn
  · exact t.trans (State.setTagged_quiet _ _).sameTurn

theorem State.putByte_sameTurn (s : State) (k : Nat) (b : Byte) (p : Bool) : SameTurn s (s.putByte k b p) := rfl

theorem State.mergeBack_sameTurn (s : State) (wb : WriteBack) : SameTurn s (s.mergeBack wb) := by
  refine (s.homeWrite_sameTurn _).trans (SameTurn.foldl (fun t i => ?_) _ _)
  exact SameTurn.ite (t.putByte_sameTurn _ _ _) (SameTurn.refl t)

theorem State.mergeWhere_sameTurn (s : State) (p : WriteBack → Bool) : SameTurn s (s.mergeWhere p) :=
  SameTurn.trans (t := (splitMerge s.variant p s.writeBacks).1.foldl State.mergeBack s) (SameTurn.foldl State.mergeBack_sameTurn _ s) rfl

theorem State.hostStore_sameTurn (s : State) (o : Nat) (p : Place) (b : Byte) (m : Bool) : SameTurn s (s.hostStore o p b m) := by
  unfold State.hostStore
  dsimp only
  split
  · rfl
  · split <;> rfl

/-! ### Software-managed lines -/

theorem State.fillSw_sameTurn (s : State) (k : CacheId) (p : Place) : SameTurn s (s.fillSw k p) := by
  unfold State.fillSw
  dsimp only
  split <;> exact (s.mergeWhere_sameTurn _).trans rfl

theorem State.swReady_sameTurn (s : State) (c : Context) (p : Place) (w : Bool) : SameTurn s (s.swReady c p w) := by
  unfold State.swReady
  dsimp only
  split
  · exact s.fillSw_sameTurn _ p
  · exact SameTurn.ite (s.fillSw_sameTurn _ p) (SameTurn.refl s)

theorem State.swPut_sameTurn (s : State) (k : CacheId) (p : Place) (b : Byte) (m : Bool) : SameTurn s (s.swPut k p b m) := by
  unfold State.swPut
  split <;> rfl

/-! ### Writes of the host -/

theorem State.hostPut_sameTurn (s : State) (p : Place) (b : Byte) : SameTurn s (s.hostPut p b) := by
  unfold State.hostPut
  split
  · exact (s.mergeWhere_sameTurn _).trans (State.putByte_sameTurn _ _ _ _)
  · exact (s.homeWrite_sameTurn p).trans (State.putByte_sameTurn _ _ _ _)
  all_goals exact (s.acquire_sameTurn hostAgent p true).trans (State.putByte_sameTurn _ _ _ _)

theorem State.hostPuts_sameTurn : ∀ (bs : List Byte) (s : State) (pa : Nat), SameTurn s (s.hostPuts pa bs)
  | [], s, _ => SameTurn.refl s
  | b :: bs, s, pa => by
    unfold State.hostPuts
    split
    · exact State.hostPuts_sameTurn bs s _
    · exact (s.hostPut_sameTurn _ b).trans (State.hostPuts_sameTurn bs _ _)

theorem State.performUpTo_sameTurn (s : State) (n : Nat) : SameTurn s (s.performUpTo n) := by
  let f (s : State) (e : Posted) : State := if e.performed then s else s.hostPuts e.pa e.bytes
  have hf (t : State) (e : Posted) : SameTurn t (f t e) := SameTurn.ite (SameTurn.refl t) (State.hostPuts_sameTurn _ t _)
  exact SameTurn.trans (t := (s.posted.take n).foldl f s) (SameTurn.foldl hf _ s) rfl

theorem State.synchronise_sameTurn (s : State) (ls : List Loc) : SameTurn s (s.synchronise ls) :=
  SameTurn.ite (SameTurn.refl s) (SameTurn.ite (SameTurn.refl s) (s.performUpTo_sameTurn _))

/-! ### Accesses of a sequencer -/

theorem State.backingReady_sameTurn (s : State) (p : Place) (d : Option Nat) (w : Bool) : SameTurn s (s.backingReady p d w) := by
  unfold State.backingReady
  split
  · exact SameTurn.ite (s.acquire_sameTurn _ p w) (SameTurn.ite (s.homeWrite_sameTurn p) (SameTurn.refl s))
  · exact SameTurn.ite (s.homeWrite_sameTurn p) (s.gatherHome_quiet p).sameTurn

theorem State.prepare_sameTurn (s : State) (c : Context) (w : Bool) (l : Loc) : SameTurn s (s.prepare c w l) := by
  unfold State.prepare
  split
  · rfl
  · rfl
  · exact s.backingReady_sameTurn _ _ w
  · split
    · exact s.swReady_sameTurn c _ w
    · rfl
    all_goals exact s.acquire_sameTurn _ _ w

theorem State.prepareFrom_sameTurn (c : Context) (w : Bool) : ∀ (ls : List Loc) (s : State) (last : Option Loc), SameTurn s (s.prepareFrom c w last ls)
  | [], s, _ => SameTurn.refl s
  | l :: ls, s, _ => (SameTurn.ite (SameTurn.refl s) (s.prepare_sameTurn c w l)).trans (State.prepareFrom_sameTurn c w ls _ _)

theorem State.loadLocs_sameTurn (s : State) (c : Context) (ls : List Loc) : SameTurn s (s.loadLocs c ls).2 :=
  (State.prepareFrom_sameTurn c false ls s none).trans (State.synchronise_sameTurn _ ls)

theorem State.scratchPut_sameTurn (s : State) (w : Who) (r o : Nat) (b : Byte) (m : Bool) : SameTurn s (s.scratchPut w r o b m) := by
  show (State.ctx (mapCtxs s _)).bare = s.ctx.bare
  simp only [mapCtxs]
  split <;> rfl

theorem State.storeByte_sameTurn (s : State) (c : Context) (b : Byte) (l : Loc) : SameTurn s (s.storeByte c b l) := by
  unfold State.storeByte
  split
  · exact s.scratchPut_sameTurn _ _ _ b false
  · exact (s.putByte_sameTurn _ b false).trans (State.regrow_quiet _ _).sameTurn
  · exact SameTurn.refl s
  · split
    · exact s.swPut_sameTurn _ _ b false
    · exact s.hostStore_sameTurn _ _ b false
    all_goals exact s.putByte_sameTurn _ b false

theorem State.storeBytes_sameTurn (c : Context) : ∀ (ls : List Loc) (bs : List Byte) (s : State), SameTurn s (s.storeBytes c ls bs)
  | [], _, s => SameTurn.refl s
  | _ :: _, [], s => SameTurn.refl s
  | l :: ls, b :: bs, s => (s.storeByte_sameTurn c b l).trans (State.storeBytes_sameTurn c ls bs _)

theorem State.storeLocs_sameTurn (s : State) (c : Context) (ls : List Loc) (bs : List Byte) : SameTurn s (s.storeLocs c ls bs) :=
  (State.prepareFrom_sameTurn c true ls s none).trans (State.storeBytes_sameTurn c ls bs _)

end Sys2Proof.Machine
end

section
/-! # Where the bytes of an access lie

The places of an access do not turn on the operands that its instruction reads (R8, R177, R207, R215). -/

namespace Sys2Proof.Machine

/-! ### States that differ in the streams alone -/

/-- The context with other streams and another drip tray. -/
def Context.restream (c : Context) (q : Vector Stream 16) (d : List DripRec) (h : DripHalf) : Context := { c with streams := q, drip := d, dripHalf := h }

theorem SameButStreams.eq_setCtx {s t : State} (h : SameButStreams s t) : ∃ q d r, t = s.setCtx (s.ctx.restream q d r) := ⟨_, _, _, h⟩

section
variable {s t : State} (h : SameButStreams s t)
include h

theorem SameButStreams.src : t.src = s.src := by obtain ⟨q, d, r, rfl⟩ := h.eq_setCtx; rfl
theorem SameButStreams.variant : t.variant = s.variant := by obtain ⟨q, d, r, rfl⟩ := h.eq_setCtx; rfl

end

/-! ### Places -/

section
variable (s : State) (c : Context)

theorem State.locateBacking_setCtx (m : Context) (off : Nat) (a : Access) : (s.setCtx c).locateBacking m off a = s.locateBacking m off a := by
  have hno (n : Nat) : (s.setCtx c).pipelineNo n = s.pipelineNo n := rfl
  have hat : (s.setCtx c).backingAt m = s.backingAt m := rfl
  simp only [State.locateBacking, hno, hat, State.locateMem_setCtx, State.setCtx_variant]

end

/-- A partition is the same one whatever the streams of the context on turn. -/
theorem State.member_restream (s : State) (w : Who) (rank : Nat) (q : Vector Stream 16) (d : List DripRec) (r : DripHalf) :
    (s.setCtx (s.ctx.restream q d r)).member w rank = s.member w rank ∨
      (s.setCtx (s.ctx.restream q d r)).member w rank = some (s.ctx.restream q d r) ∧ s.member w rank = some s.ctx := by
  let p (c : Context) : Bool := c.sameBrigade w && c.rank == rank && !c.gone
  show (s.ctx.restream q d r :: s.others).find? p = (s.ctx :: s.others).find? p ∨
    (s.ctx.restream q d r :: s.others).find? p = some (s.ctx.restream q d r) ∧ (s.ctx :: s.others).find? p = some s.ctx
  have hp : p (s.ctx.restream q d r) = p s.ctx := rfl
  rw [List.find?_cons, List.find?_cons, hp]
  cases p s.ctx
  · exact Or.inl rfl
  · exact Or.inr ⟨rfl, rfl⟩

theorem SameButStreams.locate {s t : State} (h : SameButStreams s t) (w : Who) (va : Nat) (a : Access) : t.locate w va a = s.locate w va a := by
  obtain ⟨q, d, r, rfl⟩ := h.eq_setCtx
  unfold State.locate
  dsimp only
  rw [State.locateMem_setCtx]
  simp only [State.locateBacking_setCtx]
  rcases s.member_restream w ((va - bwin) / 0x4000000) q d r with e | ⟨e, e'⟩
  · rw [e]
  · rw [e, e']
    rfl

theorem SameButStreams.locateBytes {s t : State} (h : SameButStreams s t) (w : Who) (a : Access) :
    ∀ (n va : Nat), t.locateBytes w va a n = s.locateBytes w va a n
  | 0, _ => rfl
  | n + 1, va => by rw [State.locateBytes, State.locateBytes, h.locate, h.locateBytes w a n]

theorem SameButStreams.locateN {s t : State} (h : SameButStreams s t) (w : Who) (va : Nat) (a : Access) (n : Nat) :
    t.locateN w va a n = s.locateN w va a n := by
  rw [State.locateN, State.locateN, h.locateBytes]

theorem State.locateBytes_length {s : State} {w : Who} {a : Access} : ∀ {n va : Nat} {ls : List Loc}, s.locateBytes w va a n = .ok ls → ls.length = n
  | 0, _, ls, h => by
    cases h
    rfl
  | n + 1, va, ls, h => by
    unfold State.locateBytes at h
    split at h
    · cases h
    · split at h
      · cases h
      · next hr =>
        cases h
        rw [List.length_cons, State.locateBytes_length hr]

theorem State.locateN_length {s : State} {w : Who} {va n : Nat} {a : Access} {ls : List Loc} (h : s.locateN w va a n = .ok ls) : ls.length = n := by
  unfold State.locateN at h
  split at h
  · exact State.locateBytes_length h
  · cases h

/-! ### Accesses of coherent memory -/

theorem Loc.plainMem_iff {l : Loc} : l.plainMem = true ↔ ∃ p, l = .mem p ∧ p.cls.coherent = true := by
  cases l <;> simp [Loc.plainMem]

theorem mem_memKeys {p : Place} : ∀ {ls : List Loc}, .mem p ∈ ls → p.key ∈ memKeys ls
  | l :: ls, h => by
    rcases List.mem_cons.mp h with rfl | h
    · exact List.mem_cons_self
    · have hk := mem_memKeys h
      cases l with
      | mem q => exact List.mem_cons_of_mem _ hk
      | backing q die => exact List.mem_cons_of_mem _ hk
      | scratch r o => exact hk
      | lost n va => exact hk

section
variable {s t : State}

theorem Quiet.bytesBut (h : Quiet s t) : BytesBut s.BitmapByte s t := by
  let g (c : Context) : List Host.Cell × List Nat := (c.scratch, c.scratchPoi)
  have hctx : g t.ctx = g s.ctx := (congrArg g h.ctx : g t.ctx.sansCmds = g s.ctx.sansCmds)
  have hothers : t.others.map g = s.others.map g := by
    have e := congrArg (List.map g) h.others
    rw [List.map_map, List.map_map] at e
    exact e
  refine ⟨h.bytes, ?_⟩
  show g t.ctx :: t.others.map g = g s.ctx :: s.others.map g
  rw [hctx, hothers]

theorem Quiet.unmapped (h : Quiet s t) {ks : List Nat} (hu : s.Unmapped ks) : t.Unmapped ks :=
  fun k hk => ⟨fun hf => (hu k hk).1 (h.flags _ hf), by rw [h.zflagErr]; exact (hu k hk).2⟩

theorem Quiet.seenByte (h : Quiet s t) (die : Option Nat) {k : Nat} (hk : ¬ s.BitmapByte k) : t.seenByte die k = s.seenByte die k := by
  rw [State.seenByte, State.seenByte, h.writeBacks, h.bytes k hk]

end

theorem State.prepare_coherent (s : State) (c : Context) (w : Bool) {p : Place} (h : p.cls.coherent = true) :
    s.prepare c w (.mem p) = s.acquire (agentOfCache (s.l1Of c.arrayOr0 p.pa)) p w := by
  unfold State.prepare
  cases hc : p.cls <;> simp_all [MemClass.coherent]

theorem State.loadByte_coherent (s : State) (c : Context) {p : Place} (h : p.cls.coherent = true) : s.loadByte c (.mem p) = s.seenByte (some c.die) p.key := by
  unfold State.loadByte
  cases hc : p.cls <;> simp_all [MemClass.coherent]

/-- Lines that each make ready quietly do so together. -/
theorem State.prepareFrom_quiet {s : State} {c : Context} {w : Bool} : ∀ {ls : List Loc} (_ : ∀ l ∈ ls, ∀ t, Quiet s t → Quiet t (t.prepare c w l))
    {t : State} (last : Option Loc), Quiet s t → Quiet s (t.prepareFrom c w last ls)
  | [], _, _, _, ht => ht
  | l :: ls, hl, t, last, ht => by
    obtain ⟨hhead, htail⟩ := List.forall_mem_cons.mp hl
    refine State.prepareFrom_quiet htail (some l) ?_
    exact Quiet.ite ht (ht.trans (hhead t ht))

theorem State.prepareAll_load_quiet (s : State) (c : Context) {ls : List Loc} (h : ls.all Loc.plainMem = true) : Quiet s (s.prepareAll c false ls) := by
  refine State.prepareFrom_quiet (fun l hl t _ => ?_) none (Quiet.refl s)
  obtain ⟨p, rfl, hp⟩ := Loc.plainMem_iff.mp (List.all_eq_true.mp h l hl)
  rw [State.prepare_coherent t c false hp]
  exact t.acquire_read_quiet _ p

theorem State.prepareAll_store_quiet {s : State} (c : Context) {ls : List Loc} (h : ls.all Loc.plainMem = true) (hu : s.Unmapped (memKeys ls)) :
    Quiet s (s.prepareAll c true ls) := by
  refine State.prepareFrom_quiet (fun l hl t ht => ?_) none (Quiet.refl s)
  obtain ⟨p, rfl, hp⟩ := Loc.plainMem_iff.mp (List.all_eq_true.mp h l hl)
  obtain ⟨hz, he⟩ := ht.unmapped hu p.key (mem_memKeys hl)
  rw [State.prepare_coherent t c true hp]
  exact State.acquire_write_quiet hz he _

/-- A load of coherent memory, with no host write to wait for, moves tokens and copies alone, and loads what memory holds (R60, R203, R357). -/
theorem State.loadLocs_quiet {s : State} (c : Context) {ls : List Loc} (h : ls.all Loc.plainMem = true) (hposted : s.posted = []) :
    Quiet s (s.loadLocs c ls).2 ∧ ((∀ k ∈ memKeys ls, ¬ s.BitmapByte k) → (s.loadLocs c ls).1 = ls.map (s.loadByte c)) := by
  have hq := s.prepareAll_load_quiet c h
  have hsync : (s.prepareAll c false ls).synchronise ls = s.prepareAll c false ls := if_pos (hq.posted.trans hposted)
  have hload : s.loadLocs c ls = (ls.map ((s.prepareAll c false ls).loadByte c), s.prepareAll c false ls) := by rw [State.loadLocs, hsync]
  rw [hload]
  refine ⟨hq, fun hk => List.map_congr_left fun l hl => ?_⟩
  obtain ⟨p, rfl, hp⟩ := Loc.plainMem_iff.mp (List.all_eq_true.mp h l hl)
  rw [State.loadByte_coherent _ c hp, State.loadByte_coherent _ c hp, hq.seenByte _ (hk p.key (mem_memKeys hl))]

end Sys2Proof.Machine
end

section
/-! # Loads

LD owes its destination the bytes that it reads; those beyond a line's end are read by a second access, which completes the result
(R18, R50, R60, R61, R195). -/

namespace Sys2Proof.Machine

/-! ### The destination of a result that lands later -/

/-- A stream that can be read cannot be written. -/
theorem State.Delivers.ne_of_accepts {s : State} {a : Opnd} {x : Word} {q : Fin 16} (h : s.Delivers [a] [x]) (hd : s.Accepts (.q q)) : a ≠ .q q := by
  rintro rfl
  have hp := h.peek
  have hne : q.val ≠ 15 := fun e => by
    rw [State.Accepts, State.checkDest, Context.checkWrite, if_pos e] at hd
    cases hd
  rw [State.peek, if_neg hne, Context.peekStream] at hp
  rw [State.Accepts, State.checkDest, Context.checkWrite, if_neg hne] at hd
  split at hp
  · cases hp
  · next hbound =>
    rw [if_neg hbound] at hd
    split at hp
    · cases hp
    · next hbinding =>
      rw [if_neg hbinding] at hd
      split at hp
      · cases hp
      · next hwrite =>
        rw [if_pos (by simpa using hwrite)] at hd
        cases hd

/-- The result that a load of the bytes `bs` owes. -/
def Context.owedLoad (c : Context) (d : Opnd) (lat : Nat) (bs : List (Byte × Bool)) : Pending :=
  { dest := (c.oweDest d).2, value := BitVec.ofNat 64 (numOf bs), writes := [], acc := false, bound := c.boundOf lat, made := c.issues, addr := c.pc,
    poison := if anyPoison bs then some 0 else none }

/-- The second access that a load of the bytes `bs` at the places `ls` leaves to be made. -/
def Context.loadHalf (c : Context) (d : Opnd) (va n : Nat) (ls : List Loc) (bs : List (Byte × Bool)) : Option Half :=
  if upperPart va n ls = [] then c.half
  else some { locs := upperPart va n ls, bytes := [], low := lowPart va n, lowPoi := anyPoison (bs.take (lowPart va n)), dest := (c.oweDest d).2,
              made := c.issues, arrive := [] }

/-- The context once a load has read its bytes. -/
def Context.loaded (c : Context) (d : Opnd) (lat va n : Nat) (ls : List Loc) (bs : List (Byte × Bool)) : Context :=
  ((c.oweDest d).1.owe (c.owedLoad d lat bs)).withHalf (c.loadHalf d va n ls bs)

theorem Context.loaded_eq (c : Context) (d : Opnd) (lat va n : Nat) (ls : List Loc) (bs : List (Byte × Bool)) :
    ∃ q tag, c.loaded d lat va n ls bs =
      { c with streams := q, tag := tag, pend := c.pend ++ [c.owedLoad d lat bs], half := c.loadHalf d va n ls bs } := by
  cases d with
  | s m => exact ⟨_, _, rfl⟩
  | q m => exact ⟨_, _, rfl⟩

/-- What two contexts share that differ in their streams, their commands and their partitions. -/
theorem Context.fields_of_bare {c e : Context} {q : Vector Stream 16} {d : List DripRec} {r : DripHalf} (h : c.bare = (e.restream q d r).bare) :
    c.regs = e.regs ∧ c.cq = e.cq ∧ c.specials = e.specials ∧ c.loops = e.loops ∧ c.pend = e.pend ∧ c.half = e.half ∧ c.issues = e.issues ∧
      c.pc = e.pc ∧ c.tag = e.tag :=
  ⟨congrArg (fun c => c.regs) h, congrArg (fun c => c.cq) h, (congrArg Context.specials h : c.bare.specials = (e.restream q d r).bare.specials),
    congrArg (fun c => c.loops) h, congrArg (fun c => c.pend) h, congrArg (fun c => c.half) h, congrArg (fun c => c.issues) h,
    congrArg (fun c => c.pc) h, congrArg (fun c => c.tag) h⟩

theorem upperPart_eq_nil {s : State} {w : Who} {va n : Nat} {a : Access} {ls : List Loc} (h : s.locateN w va a n = .ok ls) :
    upperPart va n ls = [] ↔ va % 128 + n ≤ 128 := by
  rw [upperPart, List.drop_eq_nil_iff, State.locateN_length h, lowPart]
  omega

theorem checkAccess_go {s : State} {ea : Word} {n : Nat} {a : Access} {ls : List Loc} (h : s.locateN (s.src.who s.variant) ea.toNat a n = .ok ls) :
    checkAccess s ea n a = .go := by
  rw [checkAccess, h]

/-- The machine once the bytes of a load have been read, and the bytes. -/
def State.loading (s : State) (a : Opnd) (va n : Nat) (ls : List Loc) : List (Byte × Bool) × State :=
  ((s.reading [a]).fillPages (s.src.who s.variant) va n).loadLocs s.src ls

section
variable {s : State} {d a : Opnd} {off : BitVec 10} {lat : BitVec 4} {x : Word} {ls : List Loc}

theorem exec_ld (hsrc : s.src = s.ctx) (h : s.Delivers [a] [x]) (hd : s.Accepts d) (hroom : s.ctx.pend.length < 64)
    (hls : s.locateN (s.src.who s.variant) (effAddr x off).toNat .load (offSize off) = .ok ls) :
    exec (.ld d a off lat) s = .next ((s.loading a (effAddr x off).toNat (offSize off) ls).2.setCtx
      ((s.loading a (effAddr x off).toNat (offSize off) ls).2.ctx.loaded d lat.toNat (effAddr x off).toNat (offSize off) ls
        (s.loading a (effAddr x off).toNat (offSize off) ls).1)) := by
  have hcheck : checkLd d a off .none s = .go := by
    have hopnds : checkSrcsDst [a] d .none s = .go := h.checkOpnds hd.checkDests
    have hspace : checkRoom s = .go := holdIf_neg (by rw [hsrc]; omega)
    rw [checkLd, hopnds, withPeek, h.peek, hspace]
    simp only [checkAccess_go hls, Verdict.go_andThen]
  have same := State.takeAll_same [a] s
  have hload : (s.reading [a]).loadNum (s.reading [a]).src (effAddr x off).toNat (offSize off) =
      (ls, s.loading a (effAddr x off).toNat (offSize off) ls) := by
    have hloc : (s.reading [a]).locateN (s.src.who s.variant) (effAddr x off).toNat .load (offSize off) = .ok ls := (same.locateN ..).trans hls
    have hs : (s.reading [a]).src = s.src := same.src
    have hv : (s.reading [a]).variant = s.variant := same.variant
    rw [State.loadNum, hs, hv, hloc]
    rfl
  have hx : (s.take a).1 = x := (List.cons.inj h.values).1
  show execLd d a off lat s = _
  rw [execLd, gated_go hcheck]
  rw [State.reading_single] at hload
  simp only [hx, hload]
  congr 1
  simp only [Context.loaded, Context.loadHalf]
  split
  · cases d <;> rfl
  · cases d <;> rfl

end

/-! ### What a load leaves alone -/

section
variable (s : State) (a : Opnd) (va n : Nat) (ls : List Loc)

theorem State.loading_sameTurn : SameTurn (s.reading [a]) (s.loading a va n ls).2 :=
  (State.fillPages_quiet _ _ va n).sameTurn.trans (State.loadLocs_sameTurn _ _ ls)

/-- The context on turn has changed in its streams at most, but for its commands and its partition. -/
theorem State.loading_bare : ∃ q d r, (s.loading a va n ls).2.ctx.bare = (s.ctx.restream q d r).bare := by
  obtain ⟨q, d, r, e⟩ := (State.takeAll_same [a] s).eq_setCtx
  have hr : (s.reading [a]).ctx = s.ctx.restream q d r := congrArg State.ctx e
  exact ⟨q, d, r, hr ▸ s.loading_sameTurn a va n ls⟩

variable {s ls} in
/-- In coherent memory a load moves tokens and copies alone, and loads what memory holds. -/
theorem State.loading_plain (h : ls.all Loc.plainMem = true) (hposted : s.posted = []) :
    BytesBut s.BitmapByte s (s.loading a va n ls).2 ∧
      ((∀ k ∈ memKeys ls, ¬ s.BitmapByte k) → (s.loading a va n ls).1 = ls.map (s.loadByte s.src)) := by
  obtain ⟨q, d, r, e⟩ := (State.takeAll_same [a] s).eq_setCtx
  have hr : s.reading [a] = s.setCtx (s.ctx.restream q d r) := e
  have hfill := State.fillPages_quiet (s.reading [a]) (s.src.who s.variant) va n
  have hpost : ((s.reading [a]).fillPages (s.src.who s.variant) va n).posted = [] := hfill.posted.trans (by rw [hr]; exact hposted)
  obtain ⟨hquiet, hbytes⟩ := State.loadLocs_quiet s.src h hpost
  have hmaps (k : Nat) : (s.reading [a]).BitmapByte k ↔ s.BitmapByte k := by rw [hr]; rfl
  refine ⟨?_, fun hk => ?_⟩
  · obtain ⟨hmem, hparts⟩ := (hfill.trans hquiet).bytesBut
    refine ⟨fun k hk => (hmem k (mt (hmaps k).mp hk)).trans (by rw [hr]; rfl), hparts.trans (by rw [hr]; rfl)⟩
  · refine (hbytes fun k hkey => mt (hfill.bitmapByte k).mp (mt (hmaps k).mp (hk k hkey))).trans (List.map_congr_left fun l hl => ?_)
    obtain ⟨p, rfl, hp⟩ := Loc.plainMem_iff.mp (List.all_eq_true.mp h l hl)
    rw [State.loadByte_coherent _ _ hp, State.loadByte_coherent _ _ hp,
      hfill.seenByte _ (mt (hmaps p.key).mp (hk p.key (mem_memKeys hl))), hr]
    rfl

end

/-! ### The second access -/

theorem foldl_arrive (l : List (BitVec 3)) (c : Context) : ∃ b, l.foldl Context.arrive c = { c with bars := b } := by
  induction l generalizing c with
  | nil => exact ⟨c.bars, rfl⟩
  | cons slot l ih =>
    obtain ⟨b, hb⟩ := ih (c.arrive slot)
    exact ⟨b, hb⟩

section
variable {s : State} {h : Half} (hs : s.ctx.half = some h) (hb : h.bytes = [])

/-- The second access of a load, made. -/
def State.loadUpper (s : State) (h : Half) : List (Byte × Bool) × State := ({ s with ctx.half := none } : State).loadLocs s.ctx h.locs

theorem State.loadUpper_bare : (s.loadUpper h).2.ctx.bare = (s.ctx.withHalf none).bare := State.loadLocs_sameTurn _ s.ctx h.locs

include hs hb

theorem State.settleHalf_load : ∃ b, s.settleHalf = (s.loadUpper h).2.setCtx { (s.loadUpper h).2.ctx with
    pend := (s.loadUpper h).2.ctx.pend.map (h.complete (s.loadUpper h).1), bars := b } := by
  have hmake : s.makeHalf h = (s.loadUpper h).2.setCtx { (s.loadUpper h).2.ctx with pend := (s.loadUpper h).2.ctx.pend.map (h.complete (s.loadUpper h).1) } :=
    if_pos hb
  obtain ⟨b, e⟩ := foldl_arrive h.arrive (s.makeHalf h).ctx
  exact ⟨b, by rw [State.settleHalf_some hs, e, hmake]; rfl⟩

end

theorem Half.complete_own {h : Half} {o : Pending} (hown : o.made = h.made ∧ o.dest = h.dest) (up : List (Byte × Bool)) :
    (h.complete up o).dest = o.dest ∧ (h.complete up o).bound = o.bound ∧
      (h.complete up o).value = BitVec.ofNat 64 (o.value.toNat % 256 ^ h.low + 256 ^ h.low * numOf up) ∧
      (h.complete up o).poison = if h.lowPoi = true ∨ anyPoison up = true then some 0 else none := by
  rw [Half.complete, if_pos hown]
  exact ⟨rfl, rfl, rfl, by simp⟩

/-- A load's second access completes its result and leaves the others alone (R195). -/
theorem State.settleHalf_load_completes {s : State} {h : Half} (hs : s.ctx.half = some h) (hb : h.bytes = []) :
    s.settleHalf.ctx.half = none ∧ s.settleHalf.ctx.pend = s.ctx.pend.map (h.complete (s.loadUpper h).1) ∧ s.settleHalf.ctx.regs = s.ctx.regs ∧
      s.settleHalf.ctx.cq = s.ctx.cq ∧
      (h.locs.all Loc.plainMem = true → s.posted = [] → BytesBut s.BitmapByte s s.settleHalf ∧
        ((∀ k ∈ memKeys h.locs, ¬ s.BitmapByte k) → (s.loadUpper h).1 = h.locs.map (s.loadByte s.ctx))) := by
  obtain ⟨b, hsettle⟩ := State.settleHalf_load hs hb
  have hbare := s.loadUpper_bare (h := h)
  have hpend : (s.loadUpper h).2.ctx.pend = s.ctx.pend := congrArg (fun c => c.pend) hbare
  have hhalf : (s.loadUpper h).2.ctx.half = none := congrArg (fun c => c.half) hbare
  have hregs : (s.loadUpper h).2.ctx.regs = s.ctx.regs := congrArg (fun c => c.regs) hbare
  have hcq : (s.loadUpper h).2.ctx.cq = s.ctx.cq := congrArg (fun c => c.cq) hbare
  rw [hsettle, State.setCtx_ctx]
  refine ⟨hhalf, by rw [hpend], hregs, hcq, fun hplain hposted => ?_⟩
  let r := s.setCtx (s.ctx.withHalf none)
  have hup : s.loadUpper h = r.loadLocs s.ctx h.locs := rfl
  obtain ⟨hquiet, hbytes⟩ := State.loadLocs_quiet (s := r) s.ctx hplain hposted
  rw [← hup] at hquiet hbytes
  obtain ⟨hmem, hparts⟩ := hquiet.bytesBut
  refine ⟨⟨fun k hk => ?_, hparts⟩, fun hk => (hbytes hk).trans (List.map_congr_left fun l hl => ?_)⟩
  · rw [State.homeByte_setCtx, hmem k hk, State.homeByte_setCtx]
  · obtain ⟨p, rfl, -⟩ := Loc.plainMem_iff.mp (List.all_eq_true.mp hplain l hl)
    rfl

/-- Settles O12: LD owes what the bytes at its address make, and the second access completes it. -/
theorem loadOwesItsBytes : Obligations.LoadOwesItsBytes := by
  unfold Obligations.LoadOwesItsBytes
  intro s d a off lat x ls hsrc h hd hroom hls
  dsimp only
  have hexec := exec_ld (lat := lat) hsrc h hd hroom hls
  have hlow := upperPart_eq_nil hls
  have hplain := State.loading_plain (s := s) a (effAddr x off).toNat (offSize off) (ls := ls)
  obtain ⟨q, dr, r, hbare⟩ := s.loading_bare a (effAddr x off).toNat (offSize off) ls
  have hstreams := (s.loading_sameTurn a (effAddr x off).toNat (offSize off) ls).streams
  rw [← State.loading]
  generalize (effAddr x off).toNat = va at *
  generalize offSize off = n at *
  generalize s.loading a va n ls = z at *
  obtain ⟨bs, u⟩ := z
  dsimp only at *
  obtain ⟨hregs, hcq, hspecials, hloops, hpend, hhalf, hissues, hpc, htag⟩ := Context.fields_of_bare hbare
  obtain ⟨fs, ft, hloaded⟩ := u.ctx.loaded_eq d lat.toNat va n ls bs
  have hdest : (u.ctx.owedLoad d lat.toNat bs).dest = (u.ctx.oweDest d).2 := rfl
  refine ⟨_, u.ctx.owedLoad d lat.toNat bs, hexec, ?_, rfl, congrArg (· + max lat.toNat 1) hissues, rfl, rfl, hissues, hpc, fun m e => by rw [hdest, e]; rfl,
    fun m e => ?_, ?_, ?_, ?_, ?_, fun hin => ?_, fun hout => ?_, fun hall hposted => ?_, fun v hf hv hbs => ?_⟩
  · rw [State.setCtx_ctx, hloaded, ← hpend]
  · subst e
    have hm : ((s.reading [a]).ctx.streams[m]) = s.ctx.streams[m] :=
      (State.takeAll_streamsBut [a] s).1 m fun hmem => h.ne_of_accepts hd (List.mem_singleton.mp hmem).symm
    have hpush : (u.ctx.loaded (.q m) lat.toNat va n ls bs).streams = (u.ctx.pushStream m (.owed u.ctx.tag)).streams := rfl
    refine ⟨congrArg (Dest.stream m) htag, ?_⟩
    rw [State.setCtx_ctx, hpush, Context.pushStream_self, htag, hstreams, hm]
  · rw [State.setCtx_ctx, hloaded, ← hregs]
  · rw [State.setCtx_ctx, hloaded, ← hcq]
  · rw [State.setCtx_ctx, hloaded, ← hspecials]
    rfl
  · rw [State.setCtx_ctx, hloaded, ← hloops]
  · rw [State.setCtx_ctx, hloaded, ← hhalf]
    exact if_pos (hlow.mpr hin)
  · rw [State.setCtx_ctx, hloaded, ← hissues]
    exact if_neg (mt hlow.mp (by omega))
  · obtain ⟨⟨hmem, hparts⟩, hbytes⟩ := hplain hall hposted
    rw [hloaded]
    exact ⟨⟨hmem, hparts⟩, hbytes⟩
  · obtain ⟨hnone, hmap, hr, hq, hframe⟩ := State.settleHalf_load_completes hv hbs
    rw [State.loadUpper] at hmap hframe
    refine ⟨hnone, by rw [hmap, List.length_map], hr, hq, fun i o o' ho ho' => ?_, hframe⟩
    rw [hmap, List.getElem?_map, ho, Option.map_some, Option.some.injEq] at ho'
    subst ho'
    exact ⟨fun hown => Half.complete_own hown _, fun hother => if_neg hother⟩

end Sys2Proof.Machine
end

section
/-! # Bytes that a store writes

A store writes its bytes one after the other. What a reader sees of memory, of the host's memory or of a partition then follows from what
it sees after one byte (R60, R187, R204, R215). -/

namespace Sys2Proof.Machine

/-! ### Byte after byte -/

/-- Of what `get` reads, among the keys that are `good`, a store of one byte at `l` changes what stands at `k`, and keeps `P`. -/
structure StoresAt {κ : Type} (c : Context) (P : State → Prop) (get : State → κ → Byte × Bool) (good : κ → Prop) (l : Loc) (k : κ) : Prop where
  isGood : good k
  keep : ∀ {s : State} (b : Byte), P s → P (s.storeByte c b l)
  self : ∀ {s : State} (b : Byte), P s → get (s.storeByte c b l) k = (b, false)
  other : ∀ {s : State} (b : Byte) {j : κ}, P s → good j → j ≠ k → get (s.storeByte c b l) j = get s j

section
variable {κ : Type} {c : Context} {P : State → Prop} {get : State → κ → Byte × Bool} {good : κ → Prop}

theorem State.storeBytes_get_ne {ls : List Loc} {ks : List κ} (h : List.Forall₂ (StoresAt c P get good) ls ks) :
    ∀ {s : State} (bs : List Byte) {j : κ}, P s → good j → j ∉ ks → get (s.storeBytes c ls bs) j = get s j := by
  induction h with
  | nil => exact fun _ _ _ _ _ => rfl
  | cons hl _ ih =>
    intro s bs j hP hj hne
    obtain ⟨hk, hks⟩ := not_or.mp (mt List.mem_cons.mpr hne)
    cases bs with
    | nil => rfl
    | cons b bs => exact (ih bs (hl.keep b hP) hj hks).trans (hl.other b hP hj hk)

theorem State.storeBytes_get_self {ls : List Loc} {ks : List κ} (h : List.Forall₂ (StoresAt c P get good) ls ks) :
    ∀ {s : State} {bs : List Byte} {i : Nat} {k : κ} {b : Byte}, P s → ks.Nodup → ks[i]? = some k → bs[i]? = some b →
      get (s.storeBytes c ls bs) k = (b, false) := by
  induction h with
  | nil => intro _ _ _ _ _ _ _ hk; cases hk
  | cons hl hls ih =>
    intro s bs i k b hP hnodup hk hb
    obtain ⟨hhead, htail⟩ := List.nodup_cons.mp hnodup
    cases bs with
    | nil => cases hb
    | cons b' bs =>
      cases i with
      | zero =>
        cases hk
        cases hb
        exact (State.storeBytes_get_ne hls bs (hl.keep _ hP) hl.isGood hhead).trans (hl.self _ hP)
      | succ i => exact ih (hl.keep b' hP) htail hk hb

end

theorem leBytes_getElem? : ∀ {n i : Nat} (w : Nat), i < n → (leBytes n w)[i]? = some (BitVec.ofNat 8 (w / 2 ^ (8 * i)))
  | n + 1, 0, w, _ => by simp [leBytes]
  | n + 1, i + 1, w, h => by
    rw [leBytes, List.getElem?_cons_succ, leBytes_getElem? (w / 256) (by omega), Nat.div_div_eq_div_mul, show 8 * (i + 1) = 8 + 8 * i by omega, Nat.pow_add]

/-! ### Coherent memory -/

theorem State.storeByte_coherent (s : State) (c : Context) (b : Byte) {p : Place} (h : p.cls.coherent = true) :
    s.storeByte c b (.mem p) = s.putByte p.key b false := by
  unfold State.storeByte
  cases hc : p.cls <;> simp_all [MemClass.coherent]

theorem Loc.plainMem_storesAt {ks : List Nat} (c : Context) {l : Loc} {p : Place} (hl : l = .mem p) (hp : p.cls.coherent = true) (hk : p.key ∈ ks) :
    StoresAt c (fun s => s.MemoryCanonical ∧ s.Unmapped ks) State.homeByte (fun _ => True) l p.key := by
  subst hl
  have hstore (s : State) (b : Byte) := s.storeByte_coherent c b hp
  refine ⟨trivial, fun b hP => ?_, fun {s} b hP => ?_, fun {s} b j _ _ hne => ?_⟩
  · rw [hstore]
    exact ⟨State.putByte_canonical _ _ _ hP.1, hP.2⟩
  · obtain ⟨⟨hwf, hpois⟩, hun⟩ := hP
    rw [hstore]
    exact State.homeByte_putByte_self hwf _ _ _ (hun _ hk).1 (hun _ hk).2 fun _ => hpois
  · rw [hstore]
    exact State.homeByte_putByte_ne hne _ _

theorem plainMem_storesAt (c : Context) {ks : List Nat} : ∀ {ls : List Loc}, ls.all Loc.plainMem = true → (∀ k ∈ memKeys ls, k ∈ ks) →
    List.Forall₂ (StoresAt c (fun s => s.MemoryCanonical ∧ s.Unmapped ks) State.homeByte (fun _ => True)) ls (memKeys ls)
  | [], _, _ => .nil
  | l :: ls, h, hk => by
    rw [List.all_cons, Bool.and_eq_true] at h
    obtain ⟨p, rfl, hp⟩ := Loc.plainMem_iff.mp h.1
    obtain ⟨hhead, htail⟩ := List.forall_mem_cons.mp hk
    exact .cons (Loc.plainMem_storesAt c rfl hp hhead) (plainMem_storesAt c h.2 htail)

/-! ### Host memory -/

theorem getLsbD_putBits {data : BitVec 1024} {i m : Nat} (hm : m < 1024) (b : Byte) :
    (putBits data i b).getLsbD m = if 8 * i ≤ m ∧ m < 8 * i + 8 then b.getLsbD (m - 8 * i) else data.getLsbD m := by
  have h255 : (255 * 2 ^ (8 * i)).testBit m = decide (8 * i ≤ m ∧ m < 8 * i + 8) := by
    rw [Nat.testBit_mul_two_pow, show 255 = 2 ^ 8 - 1 from rfl, Nat.testBit_two_pow_sub_one]
    by_cases h : 8 * i ≤ m
    · simp [h]; omega
    · simp [h]
  have hb : (b.toNat * 2 ^ (8 * i)).testBit m = (decide (8 * i ≤ m) && b.getLsbD (m - 8 * i)) := by
    rw [Nat.testBit_mul_two_pow]; rfl
  simp only [putBits, BitVec.getLsbD_or, BitVec.getLsbD_and, BitVec.getLsbD_not, BitVec.getLsbD_ofNat, hm, decide_true, Bool.true_and, h255, hb]
  by_cases h : 8 * i ≤ m
  · by_cases h' : m < 8 * i + 8
    · simp [h, h']
    · have : b.getLsbD (m - 8 * i) = false := BitVec.getLsbD_of_ge _ _ (by omega)
      simp [h, h', this]
  · simp [h]

theorem getLsbD_putMark {marks : BitVec 128} {i m : Nat} (hm : m < 128) (b : Bool) :
    (putMark marks i b).getLsbD m = if m = i then b else marks.getLsbD m := by
  have hbit : (BitVec.ofNat 128 (2 ^ i)).getLsbD m = decide (m = i) := by
    rw [BitVec.getLsbD_ofNat, Nat.testBit_two_pow, decide_eq_true hm, Bool.true_and, decide_eq_decide]
    exact eq_comm
  cases b with
  | false =>
    rw [putMark, if_neg Bool.false_ne_true, BitVec.getLsbD_and, BitVec.getLsbD_not, hbit, decide_eq_true hm]
    by_cases h : m = i <;> simp [h]
  | true =>
    rw [putMark, if_pos rfl, BitVec.getLsbD_or, hbit]
    by_cases h : m = i <;> simp [h]

/-- The write-back with one byte more. -/
def WriteBack.store (wb : WriteBack) (i : Nat) (b : Byte) : WriteBack :=
  { wb with data := putBits wb.data i b, mask := putMark wb.mask i true, poi := putMark wb.poi i false }

/-- The byte with its mark that the write-back has at place `i` of its line. -/
def WriteBack.at (wb : WriteBack) (i : Nat) : Byte × Bool := (wb.byte i, wb.poi.getLsbD i)

theorem WriteBack.getLsbD_byte (wb : WriteBack) (i : Nat) {m : Nat} (hm : m < 8) : (wb.byte i).getLsbD m = wb.data.getLsbD (8 * i + m) := by
  rw [WriteBack.byte, BitVec.getLsbD_ofNat, decide_eq_true hm, Bool.true_and, Nat.testBit_div_two_pow, Nat.add_comm]
  rfl

theorem WriteBack.at_store_self (wb : WriteBack) {i : Nat} (hi : i < 128) (b : Byte) : (wb.store i b).at i = (b, false) := by
  refine Prod.ext (BitVec.eq_of_getLsbD_eq fun m hm => ?_) ((getLsbD_putMark hi false).trans (if_pos rfl))
  have h := getLsbD_putBits (data := wb.data) (i := i) (m := 8 * i + m) (by omega) b
  rw [if_pos (by omega), Nat.add_sub_cancel_left] at h
  exact ((wb.store i b).getLsbD_byte i hm).trans h

theorem WriteBack.at_store_ne (wb : WriteBack) {i j : Nat} (hj : j < 128) (hne : j ≠ i) (b : Byte) : (wb.store i b).at j = wb.at j := by
  refine Prod.ext (BitVec.eq_of_getLsbD_eq fun m hm => ?_) ((getLsbD_putMark hj false).trans (if_neg hne))
  have h := getLsbD_putBits (data := wb.data) (i := i) (m := 8 * j + m) (by omega) b
  rw [if_neg (by omega)] at h
  exact (((wb.store i b).getLsbD_byte j hm).trans h).trans (wb.getLsbD_byte j hm).symm

/-- Whether an agent of the die sees at a key what the write-back has there (R202, R204). -/
def WriteBack.shows (wb : WriteBack) (die : Option Nat) (key : Nat) : Bool :=
  wb.key == lineOf key && wb.mask.getLsbD (key % 128) && (decide (2 ^ 40 ≤ key) || die.any wb.fenced.contains)

theorem WriteBack.shows_store_ne (wb : WriteBack) {k j : Nat} (hkey : wb.key = lineOf k) (hne : j ≠ k) (die : Option Nat) (b : Byte) :
    (wb.store (k % 128) b).shows die j = wb.shows die j := by
  by_cases hline : lineOf j = lineOf k
  · have hbyte : j % 128 ≠ k % 128 := by
      unfold lineOf at hline
      omega
    have hmark := getLsbD_putMark (marks := wb.mask) (i := k % 128) (m := j % 128) (Nat.mod_lt _ (by decide)) true
    rw [if_neg hbyte] at hmark
    rw [WriteBack.shows, WriteBack.shows, ← hmark]
    rfl
  · have hout : (wb.key == lineOf j) = false := by simpa [hkey] using Ne.symm hline
    simp only [WriteBack.shows, WriteBack.store, hout, Bool.false_and]

/-- The newest write-back that shows a key stands before the others. -/
theorem State.seenByte_append {s : State} {l : List WriteBack} {wb : WriteBack} (h : s.writeBacks = l ++ [wb]) (die : Option Nat) (key : Nat) :
    s.seenByte die key = if wb.shows die key then wb.at (key % 128) else ({ s with writeBacks := l } : State).seenByte die key := by
  unfold State.seenByte
  rw [h, List.filter_append]
  by_cases hw : wb.shows die key = true
  · rw [if_pos hw]
    have hf : [wb].filter (fun wb => wb.shows die key) = [wb] := by simp [hw]
    simp only [WriteBack.shows] at hf
    rw [hf, List.getLast?_concat]
    rfl
  · rw [if_neg hw]
    have hf : [wb].filter (fun wb => wb.shows die key) = [] := by simp [hw]
    simp only [WriteBack.shows] at hf
    rw [hf, List.append_nil]
    rfl

/-- What a store of the owner `o` to a line of host memory makes, before its first byte. -/
def WriteBack.fresh (o : Nat) (p : Place) : WriteBack :=
  { line := p.pa / 128, key := lineOf p.key, data := 0, poi := 0, mask := 0, owner := some o, src := none, serves := [], fenced := [] }

/-- A store to host memory joins the last write-back, which then is of its line, or makes a new one (R204). -/
theorem State.hostStore_eq (s : State) (o : Nat) (p : Place) (b : Byte) : ∃ l wb, wb.key = lineOf p.key ∧
    s.hostStore o p b false = { s with writeBacks := l ++ [wb.store (p.key % 128) b] } ∧ (s.writeBacks = l ++ [wb] ∨ s.writeBacks = l ∧ wb.mask = 0) := by
  unfold State.hostStore
  dsimp only
  split
  · next h => exact ⟨[], .fresh o p, rfl, rfl, .inr ⟨List.getLast?_eq_none_iff.mp h, rfl⟩⟩
  · next wb h =>
    split
    · next hjoin => exact ⟨s.writeBacks.dropLast, wb, hjoin.1, rfl, .inl (List.dropLast_append_getLast? wb h).symm⟩
    · exact ⟨s.writeBacks, .fresh o p, rfl, rfl, .inr ⟨rfl, rfl⟩⟩

theorem State.seenByte_hostStore_self (s : State) (o : Nat) {p : Place} (hp : 2 ^ 40 ≤ p.key) (b : Byte) (die : Option Nat) :
    (s.hostStore o p b false).seenByte die p.key = (b, false) := by
  obtain ⟨l, wb, hkey, hstore, -⟩ := s.hostStore_eq o p b
  have hi : p.key % 128 < 128 := Nat.mod_lt _ (by decide)
  have hshows : (wb.store (p.key % 128) b).shows die p.key = true := by
    have hmark := (getLsbD_putMark (marks := wb.mask) (i := p.key % 128) hi true).trans (if_pos rfl)
    rw [WriteBack.shows, decide_eq_true hp, Bool.true_or, Bool.and_true, Bool.and_eq_true]
    exact ⟨beq_iff_eq.mpr hkey, hmark⟩
  rw [hstore, State.seenByte_append rfl, if_pos hshows, wb.at_store_self hi]

theorem State.seenByte_hostStore_ne (s : State) (o : Nat) {p : Place} {j : Nat} (hne : j ≠ p.key) (b : Byte) (die : Option Nat) :
    (s.hostStore o p b false).seenByte die j = s.seenByte die j := by
  obtain ⟨l, wb, hkey, hstore, hbefore⟩ := s.hostStore_eq o p b
  rw [hstore, State.seenByte_append rfl, wb.shows_store_ne hkey hne]
  rcases hbefore with hlast | ⟨hall, hempty⟩
  · rw [State.seenByte_append hlast]
    split
    · next hshows =>
      have hbyte : j % 128 ≠ p.key % 128 := fun e => by
        simp only [WriteBack.shows, Bool.and_eq_true, beq_iff_eq] at hshows
        have hline := hkey.symm.trans hshows.1.1
        unfold lineOf at hline
        omega
      exact wb.at_store_ne (Nat.mod_lt _ (by decide)) hbyte b
    · rfl
  · have hno : wb.shows die j = false := by simp [WriteBack.shows, hempty]
    rw [hno, ← hall]
    rfl

theorem Loc.hostMem_iff {l : Loc} : l.hostMem = true ↔ ∃ p, l = .mem p ∧ p.cls = .host ∧ 2 ^ 40 ≤ p.key := by
  cases l <;> simp [Loc.hostMem]

theorem State.storeByte_host (s : State) (c : Context) (b : Byte) {p : Place} (h : p.cls = .host) :
    s.storeByte c b (.mem p) = s.hostStore c.ctxid.toNat p b false := by
  simp only [State.storeByte, h]

theorem hostMem_storesAt (c : Context) (die : Option Nat) : ∀ {ls : List Loc}, ls.all Loc.hostMem = true →
    List.Forall₂ (StoresAt c (fun _ => True) (fun s => s.seenByte die) (fun _ => True)) ls (memKeys ls)
  | [], _ => .nil
  | l :: ls, h => by
    rw [List.all_cons, Bool.and_eq_true] at h
    obtain ⟨p, rfl, hcls, hp⟩ := Loc.hostMem_iff.mp h.1
    have hstore (s : State) (b : Byte) := s.storeByte_host c b hcls
    refine .cons ⟨trivial, fun _ _ => trivial, fun {s} b _ => ?_, fun {s} b j _ _ hne => ?_⟩ (hostMem_storesAt c die h.2)
    · rw [hstore, s.seenByte_hostStore_self _ hp]
    · rw [hstore, s.seenByte_hostStore_ne _ hne]

/-! ### Partitions of scratch -/

theorem contains_setPut_false {l : List Nat} (a : Nat) (h : l.Pairwise (· < ·)) : (setPut l a false).contains a = false := by
  have hdel : a ∉ setDel l a := by
    induction l with
    | nil => exact List.not_mem_nil
    | cons x r ih =>
      unfold setDel
      split
      · next e =>
        subst e
        exact fun hm => Nat.lt_irrefl _ (List.rel_of_pairwise_cons h hm)
      · next hx => exact fun hm => (List.mem_cons.mp hm).elim hx (ih h.of_cons)
  simpa [setPut] using hdel

/-- Whether the context is the member of rank `r` of the brigade that `w` speaks of. -/
def Context.isPart (w : Who) (r : Nat) (c : Context) : Bool := c.sameBrigade w && c.rank == r && !c.gone

/-- Every partition of scratch keeps its canonical form, and `w` has one at every place of `ls` that lies in scratch. -/
structure State.ScratchReady (s : State) (w : Who) (ls : List Loc) : Prop where
  canonical : ∀ c ∈ s.ctx :: s.others, Memory.wf c.scratch = true ∧ c.scratchPoi.Pairwise (· < ·)
  there : ∀ r o, Loc.scratch r o ∈ ls → ∃ m, s.member w r = some m

/-- What a store of one byte at offset `o` makes of a partition. -/
def Context.putScratch (o : Nat) (b : Byte) (c : Context) : Context := { c with scratch := memSet c.scratch o b, scratchPoi := setPut c.scratchPoi o false }

/-- A store of one byte at offset `o` of the partition of rank `r`, to a context. -/
def Context.storeScratch (w : Who) (r o : Nat) (b : Byte) (c : Context) : Context := if c.isPart w r then c.putScratch o b else c

theorem Context.isPart_storeScratch (w : Who) (r o rank : Nat) (b : Byte) (c : Context) : (c.storeScratch w r o b).isPart w rank = c.isPart w rank := by
  unfold Context.storeScratch
  split <;> rfl

theorem State.member_isPart {s : State} {w : Who} {r : Nat} {m : Context} (h : s.member w r = some m) : m.isPart w r = true := List.find?_some h

section
variable (s : State) (w : Who) (r o : Nat) (b : Byte)

theorem State.member_scratchPut (rank : Nat) :
    (s.scratchPut w r o b false).member w rank = (s.member w rank).map (Context.storeScratch w r o b) := by
  show ((s.ctx :: s.others).map (Context.storeScratch w r o b)).find? (Context.isPart w rank) =
    ((s.ctx :: s.others).find? (Context.isPart w rank)).map (Context.storeScratch w r o b)
  have hpart : Context.isPart w rank ∘ Context.storeScratch w r o b = Context.isPart w rank := funext (Context.isPart_storeScratch w r o rank b)
  rw [List.find?_map, hpart]

variable {s w r} in
theorem State.ScratchReady.scratchPut {ls : List Loc} (h : s.ScratchReady w ls) : (s.scratchPut w r o b false).ScratchReady w ls := by
  refine ⟨fun c hc => ?_, fun r' o' hl => ?_⟩
  · obtain ⟨c', hc', rfl⟩ := List.mem_map.mp (show c ∈ (s.ctx :: s.others).map (Context.storeScratch w r o b) from hc)
    obtain ⟨hwf, hpoi⟩ := h.canonical c' hc'
    unfold Context.storeScratch
    split
    · exact ⟨memSet_wf o b hwf, setPut_pairwise o false hpoi⟩
    · exact ⟨hwf, hpoi⟩
  · obtain ⟨m, hm⟩ := h.there r' o' hl
    rw [State.member_scratchPut, hm]
    exact ⟨_, rfl⟩

variable {s w r o} in
theorem State.scratchGet_scratchPut_self {ls : List Loc} (h : s.ScratchReady w ls) (hl : Loc.scratch r o ∈ ls) :
    (s.scratchPut w r o b false).scratchGet w r o = (b, false) := by
  obtain ⟨m, hm⟩ := h.there r o hl
  obtain ⟨hwf, hpoi⟩ := h.canonical m (List.mem_of_find?_eq_some hm)
  rw [State.scratchGet, State.member_scratchPut, hm, Option.map_some, Context.storeScratch, if_pos (State.member_isPart hm)]
  exact Prod.ext (memGet_memSet_self o b hwf) (contains_setPut_false o hpoi)

variable {r o} in
theorem State.scratchGet_scratchPut_ne {r' o' : Nat} (hne : Loc.scratch r' o' ≠ Loc.scratch r o) :
    (s.scratchPut w r o b false).scratchGet w r' o' = s.scratchGet w r' o' := by
  rw [State.scratchGet, State.scratchGet, State.member_scratchPut]
  cases hm : s.member w r' with
  | none => rfl
  | some m =>
    rw [Option.map_some, Context.storeScratch]
    by_cases hpart : m.isPart w r = true
    · rw [if_pos hpart]
      have hrank : r' = r := by
        have hself := State.member_isPart hm
        simp only [Context.isPart, Bool.and_eq_true, beq_iff_eq] at hself hpart
        exact hself.1.2.symm.trans hpart.1.2
      have ho : o' ≠ o := fun e => hne (by rw [hrank, e])
      have hpoi : (setPut m.scratchPoi o false).contains o' = m.scratchPoi.contains o' := by simp [mem_setPut_ne ho]
      exact Prod.ext (memGet_memSet_ne ho b _) hpoi
    · rw [if_neg hpart]

end

theorem Loc.inScratch_iff {l : Loc} : l.inScratch = true ↔ ∃ r o, l = .scratch r o := by
  cases l <;> simp [Loc.inScratch]

theorem inScratch_storesAt (c : Context) (v : Variant) {ls : List Loc} {l : Loc} (hl : l ∈ ls) (h : l.inScratch = true) :
    StoresAt c (fun s => s.variant = v ∧ s.ScratchReady (c.who v) ls) (fun s => s.loadByte c) (fun l => l.inScratch = true) l l := by
  obtain ⟨r, o, rfl⟩ := Loc.inScratch_iff.mp h
  refine ⟨h, fun b ⟨hv, hready⟩ => ⟨hv, ?_⟩, fun {s} b ⟨hv, hready⟩ => ?_, fun {s} b j _ hj hne => ?_⟩
  · subst hv
    exact hready.scratchPut o b
  · subst hv
    exact State.scratchGet_scratchPut_self b hready hl
  · obtain ⟨r', o', rfl⟩ := Loc.inScratch_iff.mp hj
    exact State.scratchGet_scratchPut_ne s _ b hne

end Sys2Proof.Machine
end

section
/-! # Stores

ST writes the bytes that lie in the line of its first byte; those of the next line are a second access (R60, R61, R187, R195, R204,
R215, R217). -/

namespace Sys2Proof.Machine

/-! ### Several bytes -/

section
variable {c : Context} {ls : List Loc}

/-- What every byte's store leaves alone, a store leaves alone. -/
theorem State.storeBytes_preserves {α : Type} {f : State → α} : ∀ {ls : List Loc} (_ : ∀ l ∈ ls, ∀ s b, f (State.storeByte s c b l) = f s) (bs : List Byte)
    (s : State), f (s.storeBytes c ls bs) = f s
  | [], _, _, _ => rfl
  | _ :: _, _, [], _ => rfl
  | l :: ls, h, b :: bs, s => by
    obtain ⟨hhead, htail⟩ := List.forall_mem_cons.mp h
    exact (State.storeBytes_preserves htail bs _).trans (hhead s b)

theorem State.storeBytes_quiet : ∀ {ls : List Loc} (_ : ∀ l ∈ ls, ∀ s b, Quiet s (State.storeByte s c b l)) (bs : List Byte) (s : State),
    Quiet s (s.storeBytes c ls bs)
  | [], _, _, s => Quiet.refl s
  | _ :: _, _, [], s => Quiet.refl s
  | l :: ls, h, b :: bs, s => by
    obtain ⟨hhead, htail⟩ := List.forall_mem_cons.mp h
    exact (hhead s b).trans (State.storeBytes_quiet htail bs _)

/-- Lines that make ready with no effect do so together. -/
theorem State.prepareFrom_id {w : Bool} : ∀ {ls : List Loc} (_ : ∀ l ∈ ls, ∀ s, State.prepare s c w l = s) (s : State) (last : Option Loc),
    s.prepareFrom c w last ls = s
  | [], _, _, _ => rfl
  | l :: ls, h, s, last => by
    obtain ⟨hhead, htail⟩ := List.forall_mem_cons.mp h
    rw [State.prepareFrom, hhead, ite_self, State.prepareFrom_id htail]

end

/-! ### Coherent memory -/

/-- A store to coherent memory without flags writes its bytes, and beside them only the dirty bitmaps (R60, R217, R357). -/
theorem State.storeLocs_plain {r s : State} (hq : Quiet r s) (hcan : s.MemoryCanonical) (c : Context) {ls : List Loc} (h : ls.all Loc.plainMem = true)
    (hu : r.Unmapped (memKeys ls)) (bs : List Byte) :
    BytesBut (fun k => k ∈ memKeys ls ∨ r.BitmapByte k) r (s.storeLocs c ls bs) ∧
      ((memKeys ls).Nodup → ∀ (i k : Nat) (b : Byte), (memKeys ls)[i]? = some k → bs[i]? = some b → (s.storeLocs c ls bs).homeByte k = (b, false)) := by
  have hprep := hq.trans (s.prepareAll_store_quiet c h (hq.unmapped hu))
  have hP : (s.prepareAll c true ls).MemoryCanonical ∧ (s.prepareAll c true ls).Unmapped (memKeys ls) :=
    ⟨State.prepareAll_canonical c true ls hcan, hprep.unmapped hu⟩
  have hstores := plainMem_storesAt c h fun _ hk => hk
  obtain ⟨hmem, hparts⟩ := hprep.bytesBut
  refine ⟨⟨fun k hk => ?_, ?_⟩, fun hnodup i k b hk hb => State.storeBytes_get_self hstores hP hnodup hk hb⟩
  · obtain ⟨hkeys, hmap⟩ := not_or.mp hk
    exact (State.storeBytes_get_ne hstores bs hP trivial hkeys).trans (hmem k hmap)
  · refine Eq.trans (State.storeBytes_preserves (f := State.partitions) (fun l hl s b => ?_) bs _) hparts
    obtain ⟨p, rfl, hp⟩ := Loc.plainMem_iff.mp (List.all_eq_true.mp h l hl)
    rw [State.storeByte_coherent s c b hp]
    rfl

/-! ### Host memory -/

/-- The device sees its stores to host memory at once; the host's memory waits for a fence (R204). -/
theorem State.storeLocs_host {r s : State} (hq : Quiet r s) (c : Context) {ls : List Loc} (h : ls.all Loc.hostMem = true) (bs : List Byte) :
    BytesBut r.BitmapByte r (s.storeLocs c ls bs) ∧
      ((memKeys ls).Nodup → ∀ (i k : Nat) (b : Byte), (memKeys ls)[i]? = some k → bs[i]? = some b →
        ∀ die, (s.storeLocs c ls bs).seenByte die k = (b, false)) := by
  have hprep : s.prepareAll c true ls = s := State.prepareFrom_id (fun l hl s => by
    obtain ⟨p, rfl, hcls, -⟩ := Loc.hostMem_iff.mp (List.all_eq_true.mp h l hl)
    simp only [State.prepare, hcls]) s none
  rw [State.storeLocs, hprep]
  obtain ⟨hmem, hparts⟩ := hq.bytesBut
  have hkeep {α : Type} (f : State → α) (hf : ∀ (t : State) (wbs : List WriteBack), f { t with writeBacks := wbs } = f t) :
      f (s.storeBytes c ls bs) = f s := State.storeBytes_preserves (fun l hl t b => by
    obtain ⟨p, rfl, hcls, -⟩ := Loc.hostMem_iff.mp (List.all_eq_true.mp h l hl)
    obtain ⟨wbs, wb, -, e, -⟩ := t.hostStore_eq c.ctxid.toNat p b
    rw [State.storeByte_host t c b hcls, e, hf]) bs s
  refine ⟨⟨fun k hk => ?_, ?_⟩, fun hnodup i k b hk hb die => State.storeBytes_get_self (hostMem_storesAt c die h) trivial hnodup hk hb⟩
  · exact (hkeep (fun t => t.homeByte k) fun _ _ => rfl).trans (hmem k hk)
  · exact (hkeep State.partitions fun _ _ => rfl).trans hparts

/-! ### Software-managed memory -/

theorem State.mergeWhere_none {s : State} (h : s.writeBacks = []) (p : WriteBack → Bool) : s.mergeWhere p = s := by
  show { (splitMerge s.variant p s.writeBacks).1.foldl State.mergeBack s with writeBacks := (splitMerge s.variant p s.writeBacks).2 } = s
  rw [h]
  show { s with writeBacks := [] } = s
  rw [← h]

theorem State.putSw_quiet (s : State) (l : SwLine) : Quiet s (s.putSw l) := ⟨rfl, fun _ h => h, fun _ _ => rfl⟩

theorem State.fillSw_quiet {s : State} (h : s.writeBacks = []) (k : CacheId) (p : Place) : Quiet s (s.fillSw k p) := by
  unfold State.fillSw
  dsimp only
  rw [State.mergeWhere_none h]
  split <;> exact s.putSw_quiet _

theorem State.swReady_quiet {s : State} (h : s.writeBacks = []) (c : Context) (p : Place) (w : Bool) : Quiet s (s.swReady c p w) := by
  unfold State.swReady
  dsimp only
  split
  · exact State.fillSw_quiet h _ p
  · exact Quiet.ite (State.fillSw_quiet h _ p) (Quiet.refl s)

theorem State.swPut_quiet (s : State) (k : CacheId) (p : Place) (b : Byte) (m : Bool) : Quiet s (s.swPut k p b m) := by
  unfold State.swPut
  split
  · exact Quiet.refl s
  · exact s.putSw_quiet _

theorem Loc.software_iff {l : Loc} : l.software = true ↔ ∃ p, l = .mem p ∧ p.cls = .software := by
  cases l <;> simp [Loc.software]

/-- A store to software-managed memory stays in the caches (R187). -/
theorem State.storeLocs_software {s : State} (c : Context) {ls : List Loc} (h : ls.all Loc.software = true) (hwb : s.writeBacks = []) (bs : List Byte) :
    Quiet s (s.storeLocs c ls bs) := by
  have hprep : Quiet s (s.prepareAll c true ls) := State.prepareFrom_quiet (fun l hl t ht => by
    obtain ⟨p, rfl, hp⟩ := Loc.software_iff.mp (List.all_eq_true.mp h l hl)
    simp only [State.prepare, hp]
    exact State.swReady_quiet (ht.writeBacks.trans hwb) c p true) none (Quiet.refl s)
  refine hprep.trans (State.storeBytes_quiet (fun l hl t b => ?_) bs _)
  obtain ⟨p, rfl, hp⟩ := Loc.software_iff.mp (List.all_eq_true.mp h l hl)
  simp only [State.storeByte, hp]
  exact t.swPut_quiet _ p b false

/-! ### Partitions of scratch -/

theorem State.prepareAll_scratch (s : State) (c : Context) (w : Bool) {ls : List Loc} (h : ls.all Loc.inScratch = true) : s.prepareAll c w ls = s :=
  State.prepareFrom_id (fun l hl s => by
    obtain ⟨r, o, rfl⟩ := Loc.inScratch_iff.mp (List.all_eq_true.mp h l hl)
    rfl) s none

/-- A store to partitions leaves alone whatever does not read the partitions. -/
theorem State.storeBytes_scratch_keeps {α : Type} {f : State → α} (hf : ∀ (s : State) (g : Context → Context), f (mapCtxs s g) = f s) (c : Context) {ls : List Loc}
    (h : ls.all Loc.inScratch = true) (bs : List Byte) (s : State) : f (s.storeBytes c ls bs) = f s :=
  State.storeBytes_preserves (fun l hl t b => by
    obtain ⟨r, o, rfl⟩ := Loc.inScratch_iff.mp (List.all_eq_true.mp h l hl)
    exact hf t (Context.storeScratch (c.who t.variant) r o b)) bs s

theorem State.locateMem_ne_scratch (s : State) (md asid : Nat) (lv : Level) (va : Nat) (a : Access) (r o : Nat) :
    s.locateMem md asid lv va a ≠ .ok (.scratch r o) := by
  unfold State.locateMem
  split
  · exact nofun
  · split <;> exact nofun

theorem State.locateBacking_ne_scratch (s : State) (m : Context) (off : Nat) (a : Access) (r o : Nat) : s.locateBacking m off a ≠ .scratch r o := by
  unfold State.locateBacking
  split
  · split <;> exact nofun
  · exact nofun

/-- A byte in the die SRAM of a partition: the partition is there, and no translation is filled for it (R177, R216). -/
theorem State.locate_scratch {s : State} {w : Who} {va : Nat} {a : Access} {r o : Nat} (h : s.locate w va a = .ok (.scratch r o)) :
    (∃ m, s.member w r = some m) ∧ s.fillAt w va = s := by
  unfold State.locate at h
  split at h
  · cases h
  · split at h
    · next hwin =>
      dsimp only at h
      split at h
      · cases h
      · next m hm =>
        split at h
        · cases h
        · split at h
          · next hin =>
            cases h
            refine ⟨⟨m, hm⟩, ?_⟩
            rw [State.fillAt, if_neg (by omega), hm]
            exact if_pos hin
          · exact absurd (Except.ok.inj h) (s.locateBacking_ne_scratch _ _ _ r o)
    · exact absurd h (s.locateMem_ne_scratch _ _ _ _ _ r o)

theorem State.locateBytes_getElem? {s : State} {w : Who} {a : Access} {l : Loc} : ∀ {n va i : Nat} {ls : List Loc}, s.locateBytes w va a n = .ok ls → ls[i]? = some l →
    s.locate w (va + i) a = .ok l
  | 0, _, _, ls, h, hl => by
    cases h
    cases hl
  | n + 1, va, i, ls, h, hl => by
    unfold State.locateBytes at h
    split at h
    · cases h
    · next l' hl' =>
      split at h
      · cases h
      · next hr =>
        cases h
        cases i with
        | zero =>
          cases hl
          exact hl'
        | succ i =>
          rw [show va + (i + 1) = va + 1 + i by omega]
          exact State.locateBytes_getElem? hr hl

theorem State.locateN_getElem? {s : State} {w : Who} {va n i : Nat} {a : Access} {ls : List Loc} {l : Loc} (h : s.locateN w va a n = .ok ls)
    (hl : ls[i]? = some l) : s.locate w (va + i) a = .ok l := by
  unfold State.locateN at h
  split at h
  · exact State.locateBytes_getElem? h hl
  · cases h

theorem State.fillPages_scratch {s : State} {w : Who} {va n : Nat} {a : Access} {ls : List Loc} (h : s.locateN w va a n = .ok ls) (hn : 0 < n)
    (hls : ls.all Loc.inScratch = true) : s.fillPages w va n = s := by
  have hfill (i : Nat) (hi : i < n) : s.fillAt w (va + i) = s := by
    have hlen : i < ls.length := by rw [State.locateN_length h]; exact hi
    obtain ⟨r, o, hl⟩ := Loc.inScratch_iff.mp (List.all_eq_true.mp hls _ (List.getElem_mem hlen))
    exact (State.locate_scratch (State.locateN_getElem? h ((List.getElem?_eq_getElem hlen).trans (congrArg some hl)))).2
  rw [State.fillPages, show s.fillAt w va = s from hfill 0 hn, hfill (n - 1) (by omega)]

/-- The fabric leaves the partitions where they are. -/
theorem Quiet.member {s t : State} (h : Quiet s t) (w : Who) (r : Nat) : (t.member w r).map Context.sansCmds = (s.member w r).map Context.sansCmds := by
  have hfind (u : State) : (u.member w r).map Context.sansCmds = ((u.ctx :: u.others).map Context.sansCmds).find? (Context.isPart w r) := by
    rw [List.find?_map]
    rfl
  rw [hfind, hfind, List.map_cons, List.map_cons, h.ctx, h.others]

theorem Quiet.scratchReady {s t : State} (h : Quiet s t) {w : Who} {ls : List Loc} (hs : s.ScratchReady w ls) : t.ScratchReady w ls := by
  refine ⟨fun c hc => ?_, fun r o hl => ?_⟩
  · have hmem : c.sansCmds ∈ (s.ctx :: s.others).map Context.sansCmds := by
      rw [List.map_cons, ← h.ctx, ← h.others, ← List.map_cons]
      exact List.mem_map_of_mem hc
    obtain ⟨c', hc', e⟩ := List.mem_map.mp hmem
    have hcan := hs.canonical c' hc'
    have hscratch : c'.scratch = c.scratch := congrArg (fun c => c.scratch) e
    have hpoi : c'.scratchPoi = c.scratchPoi := congrArg (fun c => c.scratchPoi) e
    rwa [hscratch, hpoi] at hcan
  · obtain ⟨m, hm⟩ := hs.there r o hl
    have e := h.member w r
    rw [hm] at e
    cases ht : t.member w r with
    | none => rw [ht] at e; cases e
    | some m' => exact ⟨m', rfl⟩

/-- A store to partitions leaves memory alone, and the partitions hold its bytes (R215). -/
theorem State.storeLocs_scratch {r s : State} (hq : Quiet r s) (c : Context) {ls : List Loc} (h : ls.all Loc.inScratch = true) (bs : List Byte) :
    (∀ k, ¬ r.BitmapByte k → (s.storeLocs c ls bs).homeByte k = r.homeByte k) ∧
      (r.ScratchReady (c.who r.variant) ls → ls.Nodup → ∀ (i rk o : Nat) (b : Byte), ls[i]? = some (.scratch rk o) → bs[i]? = some b →
        (s.storeLocs c ls bs).scratchGet (c.who r.variant) rk o = (b, false)) := by
  rw [State.storeLocs, s.prepareAll_scratch c true h]
  refine ⟨fun k hk => ?_, fun hready hnodup i rk o b hl hb => ?_⟩
  · exact (State.storeBytes_scratch_keeps (f := fun t => t.homeByte k) (fun _ _ => rfl) c h bs s).trans (hq.bytes k hk)
  · have hv : (s.storeBytes c ls bs).variant = r.variant :=
      (State.storeBytes_scratch_keeps (f := State.variant) (fun _ _ => rfl) c h bs s).trans hq.variant
    have hstores : List.Forall₂ (StoresAt c (fun s => s.variant = r.variant ∧ s.ScratchReady (c.who r.variant) ls) (fun s => s.loadByte c)
        (fun l => l.inScratch = true)) ls ls := List.forall₂_same.mpr fun l hl => inScratch_storesAt c r.variant hl (List.all_eq_true.mp h l hl)
    have hget := State.storeBytes_get_self hstores ⟨hq.variant, hq.scratchReady hready⟩ hnodup hl hb
    rw [← hv]
    exact hget

/-! ### The instruction -/

theorem State.Delivers.peek_second {s : State} {d a : Opnd} {v x : Word} (h : s.Delivers [d, a] [v, x]) : s.peek (Claims.none.read d) a = .ok x := by
  simp only [State.Delivers, State.peekAll] at h
  cases hd : s.peek Claims.none d <;> cases ha : s.peek (Claims.none.read d) a <;> simp_all

/-- The second access that a store of `v` at the places `ls` leaves to be made. -/
def Context.storeHalf (c : Context) (va n v : Nat) (ls : List Loc) : Option Half :=
  if upperPart va n ls = [] then c.half
  else some { locs := upperPart va n ls, bytes := (leBytes n v).drop (lowPart va n), low := 0, lowPoi := false, dest := .none, made := c.issues, arrive := [] }

/-- The machine once the operands of a store have been read and its pages have been filled. -/
def State.filling (s : State) (d a : Opnd) (va n : Nat) : State := (s.reading [d, a]).fillPages (s.src.who s.variant) va n

/-- The machine once a store has written the bytes that lie in the line of its first byte. -/
def State.storing (s : State) (d a : Opnd) (va n v : Nat) (ls : List Loc) : State :=
  (s.filling d a va n).storeLocs s.src (ls.take (lowPart va n)) ((leBytes n v).take (lowPart va n))

section
variable {s : State} {d a : Opnd} {off : BitVec 10} {v x : Word} {ls : List Loc} (h : s.Delivers [d, a] [v, x])
include h

theorem checkSt_eq : checkSt d a off .none s = checkAccess s (effAddr x off) (offSize off) .store := by
  have hopnds : checkSrcs [d, a] .none s = .go := h.checkOpnds rfl
  rw [checkSt, hopnds, Verdict.go_andThen, withPeek, h.peek_second]

theorem exec_st (hls : s.locateN (s.src.who s.variant) (effAddr x off).toNat .store (offSize off) = .ok ls) :
    exec (.st d a off) s = .next ((s.storing d a (effAddr x off).toNat (offSize off) v.toNat ls).setCtx
      ((s.storing d a (effAddr x off).toNat (offSize off) v.toNat ls).ctx.withHalf
        ((s.storing d a (effAddr x off).toNat (offSize off) v.toNat ls).ctx.storeHalf (effAddr x off).toNat (offSize off) v.toNat ls))) := by
  have same := State.takeAll_same [d, a] s
  have hvals : [(s.take d).1, ((s.take d).2.take a).1] = [v, x] := h.values
  obtain ⟨hv, hrest⟩ := List.cons.inj hvals
  obtain ⟨hx, -⟩ := List.cons.inj hrest
  have hloc : (s.reading [d, a]).locateN (s.src.who s.variant) (effAddr x off).toNat .store (offSize off) = .ok ls := (same.locateN ..).trans hls
  have hsrc : (s.reading [d, a]).src = s.src := same.src
  have hvariant : (s.reading [d, a]).variant = s.variant := same.variant
  show execSt d a off s = _
  rw [execSt, gated_go ((checkSt_eq h).trans (checkAccess_go hls))]
  show Host.Outcome.next ((s.reading [d, a]).storeNum (s.reading [d, a]).src (effAddr ((s.take d).2.take a).1 off).toNat (offSize off) (s.take d).1.toNat) = _
  rw [hv, hx, State.storeNum, hsrc, hvariant, hloc]
  simp only [Context.storeHalf]
  congr 1
  split
  · rfl
  · rfl

/-- A byte that does not translate stops the store (R60, R61). -/
theorem exec_st_fault {f : XFault} {va : Nat} (hls : s.locateN (s.src.who s.variant) (effAddr x off).toNat .store (offSize off) = .error (f, va)) :
    exec (.st d a off) s = .next (s.takeTrap f.cause (BitVec.ofNat 64 va)) := by
  show execSt d a off s = _
  refine gated_trap ((checkSt_eq h).trans ?_) _ s
  rw [checkAccess, hls]

end

/-! ### What a store leaves alone -/

theorem State.scratchGet_withHalf (s : State) (h : Option Half) (w : Who) (r o : Nat) :
    (s.setCtx (s.ctx.withHalf h)).scratchGet w r o = s.scratchGet w r o := by
  have hmember (u : State) : u.member w r = if u.ctx.isPart w r then some u.ctx else u.others.find? (Context.isPart w r) := by
    show (u.ctx :: u.others).find? (Context.isPart w r) = _
    rw [List.find?_cons]
    cases u.ctx.isPart w r <;> rfl
  have hpart : (s.ctx.withHalf h).isPart w r = s.ctx.isPart w r := rfl
  rw [State.scratchGet, State.scratchGet, hmember, hmember, State.setCtx_ctx, hpart]
  cases s.ctx.isPart w r <;> rfl

section
variable (s : State) (d a : Opnd) (va n v : Nat) (ls : List Loc)

theorem State.storing_sameTurn : SameTurn (s.reading [d, a]) (s.storing d a va n v ls) :=
  (State.fillPages_quiet _ _ va n).sameTurn.trans (State.storeLocs_sameTurn _ _ _ _)

/-- The context on turn has changed in its streams at most, but for its commands and its partition. -/
theorem State.storing_bare : ∃ q r e, (s.storing d a va n v ls).ctx.bare = (s.ctx.restream q r e).bare := by
  obtain ⟨q, r, e, h⟩ := (State.takeAll_same [d, a] s).eq_setCtx
  have hr : (s.reading [d, a]).ctx = s.ctx.restream q r e := congrArg State.ctx h
  exact ⟨q, r, e, hr ▸ s.storing_sameTurn d a va n v ls⟩

end

section
variable {s : State} (d a : Opnd) (va n v : Nat) {ls : List Loc}

theorem State.filling_quiet (s : State) : Quiet (s.reading [d, a]) (s.filling d a va n) := State.fillPages_quiet _ _ va n

/-- The byte that a store has for place `i` of its first access. -/
theorem take_leBytes_getElem? {i : Nat} (hi : i < lowPart va n) : ((leBytes n v).take (lowPart va n))[i]? = some (BitVec.ofNat 8 (v / 2 ^ (8 * i))) := by
  have hn : i < n := lt_of_lt_of_le hi (Nat.min_le_left _ _)
  rw [List.getElem?_take_of_lt hi, leBytes_getElem? v hn]

theorem State.storing_plain (hcan : s.MemoryCanonical) (h : (ls.take (lowPart va n)).all Loc.plainMem = true) (hu : s.Unmapped (memKeys (ls.take (lowPart va n)))) :
    BytesBut (fun k => k ∈ memKeys (ls.take (lowPart va n)) ∨ s.BitmapByte k) s (s.storing d a va n v ls) ∧
      ((memKeys (ls.take (lowPart va n))).Nodup → ∀ i < lowPart va n, ∀ k, (memKeys (ls.take (lowPart va n)))[i]? = some k →
        (s.storing d a va n v ls).homeByte k = (BitVec.ofNat 8 (v / 2 ^ (8 * i)), false)) := by
  obtain ⟨q, r, e, hread⟩ := (State.takeAll_same [d, a] s).eq_setCtx
  have hq := s.filling_quiet d a va n
  rw [show s.reading [d, a] = s.setCtx (s.ctx.restream q r e) from hread] at hq
  have hfilled : (s.filling d a va n).MemoryCanonical := by
    refine State.fillPages_canonical _ va n ?_
    rw [show s.reading [d, a] = s.setCtx (s.ctx.restream q r e) from hread]
    exact hcan
  obtain ⟨⟨hmem, hparts⟩, hbytes⟩ := State.storeLocs_plain hq hfilled s.src h hu ((leBytes n v).take (lowPart va n))
  exact ⟨⟨hmem, hparts⟩, fun hnodup i hi k hk => hbytes hnodup i k _ hk (take_leBytes_getElem? va n v hi)⟩

theorem State.storing_host (h : (ls.take (lowPart va n)).all Loc.hostMem = true) :
    BytesBut s.BitmapByte s (s.storing d a va n v ls) ∧
      ((memKeys (ls.take (lowPart va n))).Nodup → ∀ i < lowPart va n, ∀ k, (memKeys (ls.take (lowPart va n)))[i]? = some k →
        ∀ die, (s.storing d a va n v ls).seenByte die k = (BitVec.ofNat 8 (v / 2 ^ (8 * i)), false)) := by
  obtain ⟨q, r, e, hread⟩ := (State.takeAll_same [d, a] s).eq_setCtx
  have hq := s.filling_quiet d a va n
  rw [show s.reading [d, a] = s.setCtx (s.ctx.restream q r e) from hread] at hq
  obtain ⟨⟨hmem, hparts⟩, hbytes⟩ := State.storeLocs_host hq s.src h ((leBytes n v).take (lowPart va n))
  exact ⟨⟨hmem, hparts⟩, fun hnodup i hi k hk => hbytes hnodup i k _ hk (take_leBytes_getElem? va n v hi)⟩

theorem State.storing_software (h : (ls.take (lowPart va n)).all Loc.software = true) (hwb : s.writeBacks = []) :
    BytesBut s.BitmapByte s (s.storing d a va n v ls) := by
  obtain ⟨q, r, e, hread⟩ := (State.takeAll_same [d, a] s).eq_setCtx
  have hq := s.filling_quiet d a va n
  rw [show s.reading [d, a] = s.setCtx (s.ctx.restream q r e) from hread] at hq
  obtain ⟨hmem, hparts⟩ := (hq.trans (State.storeLocs_software s.src h (hq.writeBacks.trans hwb) ((leBytes n v).take (lowPart va n)))).bytesBut
  exact ⟨hmem, hparts⟩

theorem State.storing_scratch_all (hn : 0 < n) (hls : s.locateN (s.src.who s.variant) va .store n = .ok ls) (h : ls.all Loc.inScratch = true) :
    (s.storing d a va n v ls).mem = s.mem ∧ (s.storing d a va n v ls).pois = s.pois ∧ (s.storing d a va n v ls).writeBacks = s.writeBacks := by
  have same := State.takeAll_same [d, a] s
  obtain ⟨q, r, e, hread⟩ := same.eq_setCtx
  have hfill : s.filling d a va n = s.setCtx (s.ctx.restream q r e) :=
    (State.fillPages_scratch ((same.locateN ..).trans hls) hn h).trans hread
  have hnow : (ls.take (lowPart va n)).all Loc.inScratch = true :=
    List.all_eq_true.mpr fun l hl => List.all_eq_true.mp h l (List.mem_of_mem_take hl)
  rw [State.storing, State.storeLocs, State.prepareAll_scratch _ _ _ hnow, hfill]
  exact ⟨State.storeBytes_scratch_keeps (f := State.mem) (fun _ _ => rfl) _ hnow _ _, State.storeBytes_scratch_keeps (f := State.pois) (fun _ _ => rfl) _ hnow _ _,
    State.storeBytes_scratch_keeps (f := State.writeBacks) (fun _ _ => rfl) _ hnow _ _⟩

theorem State.storing_scratch (hls : s.locateN (s.src.who s.variant) va .store n = .ok ls) (h : (ls.take (lowPart va n)).all Loc.inScratch = true) :
    (∀ k, ¬ s.BitmapByte k → (s.storing d a va n v ls).homeByte k = s.homeByte k) ∧
      ((∀ c ∈ s.ctx :: s.others, Memory.wf c.scratch = true ∧ c.scratchPoi.Pairwise (· < ·)) → (ls.take (lowPart va n)).Nodup → ∀ i < lowPart va n, ∀ r o,
        (ls.take (lowPart va n))[i]? = some (.scratch r o) → (s.storing d a va n v ls).scratchGet (s.src.who s.variant) r o = (BitVec.ofNat 8 (v / 2 ^ (8 * i)), false)) := by
  have same := State.takeAll_same [d, a] s
  obtain ⟨q, r, e, hread⟩ := same.eq_setCtx
  have hq := s.filling_quiet d a va n
  have hloc := (same.locateN (s.src.who s.variant) va .store n).trans hls
  rw [show (s.takeAll [d, a]).2 = s.setCtx (s.ctx.restream q r e) from hread] at hloc
  rw [show s.reading [d, a] = s.setCtx (s.ctx.restream q r e) from hread] at hq
  obtain ⟨hmem, hbytes⟩ := State.storeLocs_scratch hq s.src h ((leBytes n v).take (lowPart va n))
  refine ⟨hmem, fun hparts hnodup i hi rk o hl => hbytes ⟨fun c hc => ?_, fun rk' o' hl' => ?_⟩ hnodup i rk o _ hl (take_leBytes_getElem? va n v hi)⟩
  · rcases List.mem_cons.mp hc with rfl | hc
    · exact hparts s.ctx List.mem_cons_self
    · exact hparts c (List.mem_cons_of_mem _ hc)
  · obtain ⟨j, hj⟩ := List.mem_iff_getElem?.mp (List.mem_of_mem_take hl')
    exact (State.locate_scratch (State.locateN_getElem? hloc hj)).1

end

/-- The second access of a store, made (R195). -/
theorem State.settleHalf_store {s : State} {h : Half} (hs : s.ctx.half = some h) (hb : h.bytes ≠ []) :
    ∃ b, s.settleHalf = ((s.setCtx (s.ctx.withHalf none)).storeLocs s.ctx h.locs h.bytes).setCtx
      { ((s.setCtx (s.ctx.withHalf none)).storeLocs s.ctx h.locs h.bytes).ctx with bars := b } := by
  have hmake : s.makeHalf h = (s.setCtx (s.ctx.withHalf none)).storeLocs s.ctx h.locs h.bytes := if_neg hb
  obtain ⟨b, e⟩ := foldl_arrive h.arrive (s.makeHalf h).ctx
  exact ⟨b, by rw [State.settleHalf_some hs, e, hmake]⟩

/-- Settles O14: ST writes its bytes place by place. -/
theorem storeWritesItsBytes : Obligations.StoreWritesItsBytes := by
  unfold Obligations.StoreWritesItsBytes
  intro s d a off v x hcan hsrc h
  dsimp only
  refine ⟨fun ls hls => ?_, fun f va hls => exec_st_fault h hls, fun hf hs hbytes hplain hun hnodup => ?_⟩
  · have hexec := exec_st h hls
    have hupper := upperPart_eq_nil hls
    have hn : 0 < offSize off := by
      unfold offSize
      split_ifs <;> decide
    obtain ⟨q, r, e, hbare⟩ := s.storing_bare d a (effAddr x off).toNat (offSize off) v.toNat ls
    have hturn := s.storing_sameTurn d a (effAddr x off).toNat (offSize off) v.toNat ls
    obtain ⟨hqs, hdrip⟩ := State.takeAll_streamsBut [d, a] s
    have hplain := s.storing_plain d a (effAddr x off).toNat (offSize off) v.toNat (ls := ls) hcan
    have hhost := s.storing_host d a (effAddr x off).toNat (offSize off) v.toNat (ls := ls)
    have hall := s.storing_scratch_all d a (effAddr x off).toNat (offSize off) v.toNat hn hls
    have hscratch := s.storing_scratch d a (effAddr x off).toNat (offSize off) v.toNat hls
    have hsoft := s.storing_software d a (effAddr x off).toNat (offSize off) v.toNat (ls := ls)
    generalize (effAddr x off).toNat = va at *
    generalize offSize off = n at *
    generalize s.storing d a va n v.toNat ls = u at *
    obtain ⟨hregs, hcq, hspecials, hloops, hpend, hhalf, hissues, -, -⟩ := Context.fields_of_bare hbare
    refine ⟨_, hexec, hregs, hcq, hspecials, hloops, hpend, ⟨fun q hq => ?_, fun hq => ?_⟩, fun hin => ?_, fun hout => ?_, fun hnow hun => ?_, fun hnow => ?_, hall,
      fun hnow => ?_, fun hnow hwb => ?_⟩
    · exact (congrArg (fun l : Vector Stream 16 => l[q]) hturn.streams).trans (hqs q hq)
    · obtain ⟨htray, hrest⟩ := hdrip hq
      exact ⟨hturn.drip.trans htray, hturn.dripHalf.trans hrest⟩
    · exact (if_pos (hupper.mpr hin)).trans hhalf
    · rw [← hissues]
      exact if_neg (mt hupper.mp (by omega))
    · obtain ⟨⟨hmem, hparts⟩, hbytes⟩ := hplain hnow hun
      exact ⟨⟨hmem, hparts⟩, hbytes⟩
    · obtain ⟨⟨hmem, hparts⟩, hbytes⟩ := hhost hnow
      exact ⟨⟨hmem, hparts⟩, fun hnodup i hi k hk => hbytes hnodup i hi k hk _⟩
    · obtain ⟨hmem, hbytes⟩ := hscratch hnow
      exact ⟨hmem, fun hparts hnodup i hi r o hl => (u.scratchGet_withHalf _ _ r o).trans (hbytes hparts hnodup i hi r o hl)⟩
    · obtain ⟨hmem, hparts⟩ := hsoft hnow hwb
      exact ⟨hmem, hparts⟩
  · obtain ⟨b, hsettle⟩ := State.settleHalf_store hs hbytes
    have hbare := State.storeLocs_sameTurn (s.setCtx (s.ctx.withHalf none)) s.ctx hf.locs hf.bytes
    have hhalf : ((s.setCtx (s.ctx.withHalf none)).storeLocs s.ctx hf.locs hf.bytes).ctx.half = none := hbare.half
    obtain ⟨⟨hmem, hparts⟩, hkeys⟩ := State.storeLocs_plain (Quiet.refl (s.setCtx (s.ctx.withHalf none))) hcan s.ctx hplain hun hf.bytes
    rw [hsettle]
    exact ⟨hhalf, ⟨hmem, hparts⟩, fun i k b hk hb => hkeys hnodup i k b hk hb⟩

end Sys2Proof.Machine
end

section
/-! # The registers and the store of one cell

What a register and a unit of the store hold after a write, bit for bit (R88, R147, R153). -/

namespace Sys2Proof.Machine

/-! ### Spans of bits -/

theorem testBit_splice (old lo len new k : Nat) :
    (splice old lo len new).testBit k = if lo ≤ k ∧ k < lo + len then new.testBit k else old.testBit k := by
  have hlow : old % 2 ^ lo < 2 ^ lo := Nat.mod_lt _ (Nat.two_pow_pos lo)
  have hmid : new / 2 ^ lo % 2 ^ len < 2 ^ len := Nat.mod_lt _ (Nat.two_pow_pos len)
  have hsplit : splice old lo len new = 2 ^ lo * (2 ^ len * (old / 2 ^ (lo + len)) + new / 2 ^ lo % 2 ^ len) + old % 2 ^ lo := by
    rw [splice, Nat.pow_add]
    ring
  rw [hsplit, Nat.testBit_two_pow_mul_add _ hlow]
  by_cases h1 : k < lo
  · rw [if_pos h1, if_neg (by omega), Nat.testBit_mod_two_pow, decide_eq_true h1, Bool.true_and]
  · rw [if_neg h1, Nat.testBit_two_pow_mul_add _ hmid]
    by_cases h2 : k - lo < len
    · rw [if_pos h2, if_pos (by omega), Nat.testBit_mod_two_pow, decide_eq_true h2, Bool.true_and, Nat.testBit_div_two_pow, Nat.sub_add_cancel (by omega)]
    · rw [if_neg h2, if_neg (by omega), Nat.testBit_div_two_pow]
      congr 1
      omega

/-- A value replaced whole. -/
theorem splice_whole {old len new : Nat} (ho : old < 2 ^ len) (hn : new < 2 ^ len) : splice old 0 len new = new := by
  refine Nat.eq_of_testBit_eq fun k => ?_
  rw [testBit_splice]
  split
  · rfl
  · next h =>
    have hk : 2 ^ len ≤ 2 ^ k := Nat.pow_le_pow_right (by decide) (by omega)
    rw [Nat.testBit_lt_two_pow (by omega), Nat.testBit_lt_two_pow (by omega)]

section
variable {n : Nat} (old : BitVec n) (lo len new a m : Nat)

/-- Inside the span that was replaced, a register reads as the new value. -/
theorem extract_splice_inside (hlo : lo ≤ a) (hhi : a + m ≤ lo + len) (hn : a + m ≤ n) :
    (BitVec.ofNat n (splice old.toNat lo len new)).extractLsb' a m = BitVec.ofNat m (new / 2 ^ a) := by
  refine BitVec.eq_of_getLsbD_eq fun k hk => ?_
  rw [BitVec.getLsbD_extractLsb', BitVec.getLsbD_ofNat, BitVec.getLsbD_ofNat, testBit_splice, if_pos (by omega), Nat.testBit_div_two_pow,
    decide_eq_true hk, decide_eq_true (by omega), Nat.add_comm k a, Bool.true_and]

/-- Outside it, as it did. -/
theorem extract_splice_outside (h : a + m ≤ lo ∨ lo + len ≤ a) (hn : a + m ≤ n) :
    (BitVec.ofNat n (splice old.toNat lo len new)).extractLsb' a m = old.extractLsb' a m := by
  refine BitVec.eq_of_getLsbD_eq fun k hk => ?_
  rw [BitVec.getLsbD_extractLsb', BitVec.getLsbD_extractLsb', BitVec.getLsbD_ofNat, testBit_splice, if_neg (by omega), BitVec.testBit_toNat,
    decide_eq_true (show a + k < n by omega), Bool.true_and]

end

/-- A register's bits from `a` on, as a number. -/
theorem ofNat_div_two_pow {n : Nat} (x : BitVec n) (a m : Nat) : BitVec.ofNat m (x.toNat / 2 ^ a) = x.extractLsb' a m := by
  rw [← Nat.shiftRight_eq_div_pow]
  rfl

/-- A value moved up to its place in a register is what stands there. -/
theorem ofNat_mul_div_two_pow {n : Nat} (x : BitVec n) (a : Nat) : BitVec.ofNat n (x.toNat * 2 ^ a / 2 ^ a) = x := by
  rw [Nat.mul_div_cancel _ (Nat.two_pow_pos a), BitVec.ofNat_toNat, BitVec.setWidth_eq]

/-! ### Registers -/

section
variable (c : CellState) {w : CellWrite}

theorem CellState.v_write {n : Fin 32} (h : w.reg = .v n) : (c.write w).v[n] =
    { bits := BitVec.ofNat _ (splice c.v[n].bits.toNat w.lo w.len w.val),
      poi := BitVec.ofNat _ (splice c.v[n].poi.toNat (w.lo / 8) ((w.lo + w.len + 7) / 8 - w.lo / 8) w.poi) } := by
  simp [CellState.write, CellWrite.onto, h, CellState.set, CellState.get, CellReg.marks]

theorem CellState.m_write {n : Fin 8} (h : w.reg = .m n) : (c.write w).m[n] =
    { bits := BitVec.ofNat _ (splice c.m[n].bits.toNat w.lo w.len w.val),
      poi := BitVec.ofNat _ (splice c.m[n].poi.toNat (w.lo / 8) ((w.lo + w.len + 7) / 8 - w.lo / 8) w.poi) } := by
  simp [CellState.write, CellWrite.onto, h, CellState.set, CellState.get, CellReg.marks]

theorem CellState.write_flagWrite (i : Nat) (e : Elt) : c.write (flagWrite i e) = { c with f := e.val % 2 == 1, fPoi := e.marks % 2 == 1 } := by
  have hsplice (old new : Nat) : splice old 0 1 new % 2 = new % 2 := by
    have h := testBit_splice old 0 1 new 0
    rw [if_pos (by decide)] at h
    simp only [Nat.testBit_zero, decide_eq_decide] at h
    omega
  simp only [CellState.write, CellWrite.onto, flagWrite, CellState.set, CellReg.marks, hsplice]

theorem Chunk.toNat_lt (x : Chunk) : x.toNat < 2 ^ 1024 := by
  unfold Chunk.toNat Chunk.side
  have hdata := x.data.isLt
  have hpsn := x.psn.isLt
  have hres := x.res.isLt
  have hinfo := x.info.isLt
  omega

theorem Chunk.ofParts_toNat (x : Chunk) : Chunk.ofParts x.toNat (x.toNat / 2 ^ 512) x.bad = x := by
  have hdata := x.data.isLt
  have hpsn := x.psn.isLt
  have hres := x.res.isLt
  have hinfo := x.info.isLt
  have hside : x.toNat / 2 ^ 512 = x.side := by
    unfold Chunk.toNat
    omega
  have h1 : BitVec.ofNat 512 x.toNat = x.data := BitVec.eq_of_toNat_eq (by rw [BitVec.toNat_ofNat, Chunk.toNat]; omega)
  have h2 : BitVec.ofNat 64 (x.side / 2 ^ 448) = x.psn := BitVec.eq_of_toNat_eq (by rw [BitVec.toNat_ofNat, Chunk.side]; omega)
  have h3 : BitVec.ofNat 64 (x.side / 2 ^ 384) = x.res := BitVec.eq_of_toNat_eq (by rw [BitVec.toNat_ofNat, Chunk.side]; omega)
  have h4 : BitVec.ofNat 384 x.side = x.info := BitVec.eq_of_toNat_eq (by rw [BitVec.toNat_ofNat, Chunk.side]; omega)
  simp only [Chunk.ofParts, hside, h1, h2, h3, h4]

/-- A communication register written whole holds what was written. -/
theorem CellState.xh_write_chunkWrite (i : Nat) (x : Chunk) : (c.write (chunkWrite i .xh x)).xh = x := by
  have hval := splice_whole c.xh.toNat_lt x.toNat_lt
  have hbad : splice c.xh.bad.toNat 0 48 x.bad.toNat = x.bad.toNat := splice_whole c.xh.bad.isLt x.bad.isLt
  have hmarks : CellReg.xh.marks 0 1024 = (0, 48) := by decide
  simp only [CellState.write, CellWrite.onto, chunkWrite, CellState.set, CellState.get, hmarks, hval, hbad, BitVec.ofNat_toNat, BitVec.setWidth_eq,
    Chunk.ofParts_toNat]

end

/-- A five-bit field as the number of a vector register. -/
theorem getElem_vField {α : Type} (v : Vector α 32) (d : BitVec 5) : v[Fin.ofNat 32 d.toNat] = v[d.toNat] := by
  simp [Fin.getElem_fin, Nat.mod_eq_of_lt d.isLt]

/-- A vector register after a write of one of its chunks. -/
theorem CellState.v_write_vChunkWrite (c : CellState) (i : Nat) (d : BitVec 5) (k : Nat) (x : BitVec 512) (p : BitVec 64) :
    (c.write (vChunkWrite i d.toNat k x.toNat p.toNat)).v[d.toNat] =
      { bits := BitVec.ofNat _ (splice (c.v[d.toNat]).bits.toNat (512 * k) 512 (x.toNat * 2 ^ (512 * k))),
        poi := BitVec.ofNat _ (splice (c.v[d.toNat]).poi.toNat (64 * k) 64 (p.toNat * 2 ^ (64 * k))) } := by
  have hlo : 512 * k / 8 = 64 * k := by omega
  have hlen : (512 * k + 512 + 7) / 8 - 64 * k = 64 := by omega
  have h := c.v_write (w := vChunkWrite i d.toNat k x.toNat p.toNat) rfl
  rw [getElem_vField, getElem_vField] at h
  simpa only [vChunkWrite, hlo, hlen] using h

section
variable (c : CellState) (i : Nat) (d : BitVec 5) {k : Nat} (hk : k < 8) (x : BitVec 512) (p : BitVec 64)
include hk

theorem CellState.bits_write_vChunkWrite :
    ((c.write (vChunkWrite i d.toNat k x.toNat p.toNat)).v[d.toNat]).bits.extractLsb' (512 * k) 512 = x := by
  rw [CellState.v_write_vChunkWrite, extract_splice_inside _ _ _ _ _ _ (by omega) (by omega) (by omega), ofNat_mul_div_two_pow]

theorem CellState.poi_write_vChunkWrite :
    ((c.write (vChunkWrite i d.toNat k x.toNat p.toNat)).v[d.toNat]).poi.extractLsb' (64 * k) 64 = p := by
  rw [CellState.v_write_vChunkWrite, extract_splice_inside _ _ _ _ _ _ (by omega) (by omega) (by omega), ofNat_mul_div_two_pow]

theorem CellState.bits_write_vChunkWrite_ne {j : Nat} (hne : k ≠ j) :
    ((c.write (vChunkWrite i d.toNat j x.toNat p.toNat)).v[d.toNat]).bits.extractLsb' (512 * k) 512 = (c.v[d.toNat]).bits.extractLsb' (512 * k) 512 := by
  rw [CellState.v_write_vChunkWrite, extract_splice_outside _ _ _ _ _ _ (by omega) (by omega)]

end

/-- A quarter of a tile register replaced by a vector register, and the other quarters as they were. -/
theorem CellState.m_write_quarter (c : CellState) {w : CellWrite} {n : Fin 8} {q k : Nat} {x : BitVec 4096} (hreg : w.reg = .m n)
    (hlo : w.lo = 4096 * q) (hlen : w.len = 4096) (hval : w.val = x.toNat * 2 ^ (4096 * q)) (hk : k < 4) :
    ((c.write w).m[n]).bits.extractLsb' (4096 * k) 4096 = if k = q then x else (c.m[n]).bits.extractLsb' (4096 * k) 4096 := by
  rw [CellState.m_write c hreg, hlo, hlen, hval]
  split
  · next h =>
    rw [h, extract_splice_inside _ _ _ _ _ _ (Nat.le_refl _) (Nat.le_refl _) (by omega), ofNat_mul_div_two_pow]
  · exact extract_splice_outside _ _ _ _ _ _ (by omega) (by omega)

/-- A vector register written whole. -/
theorem CellState.v_write_whole (c : CellState) {w : CellWrite} {d : BitVec 5} (hreg : w.reg = .v (Fin.ofNat 32 d.toNat)) (hlo : w.lo = 0)
    (hlen : w.len = 4096) : ((c.write w).v[d.toNat]).bits = BitVec.ofNat 4096 w.val := by
  have h := c.v_write hreg
  rw [getElem_vField, hlo, hlen] at h
  rw [h]
  refine BitVec.eq_of_getLsbD_eq fun k hk => ?_
  rw [BitVec.getLsbD_ofNat, BitVec.getLsbD_ofNat, testBit_splice, if_pos (by omega)]

/-! ### The store -/

theorem storeGet_eq_zero {l : List (Nat × Unit64)} {a : Nat} (h : ∀ x ∈ l, a < x.1) : storeGet l a = { bits := 0, poi := 0 } := by
  induction l with
  | nil => rfl
  | cons x r ih =>
    obtain ⟨hx, hr⟩ := List.forall_mem_cons.mp h
    rw [storeGet, if_neg (by omega), ih hr]

theorem mem_storePut {l : List (Nat × Unit64)} {a : Nat} {v : Unit64} {x : Nat × Unit64} (h : x ∈ storePut l a v) : x.1 = a ∨ x ∈ l := by
  induction l with
  | nil =>
    rw [storePut] at h
    split at h
    · exact absurd h List.not_mem_nil
    · exact .inl (congrArg Prod.fst (List.mem_singleton.mp h))
  | cons y r ih =>
    rw [storePut] at h
    split_ifs at h
    · exact .inr h
    · exact (List.mem_cons.mp h).imp (congrArg Prod.fst) id
    · exact .inr (List.mem_cons_of_mem _ h)
    · exact (List.mem_cons.mp h).imp (congrArg Prod.fst) (List.mem_cons_of_mem _)
    · rcases List.mem_cons.mp h with rfl | h
      · exact .inr (List.mem_cons_self ..)
      · exact (ih h).imp id (List.mem_cons_of_mem _)

/-- The units stay in order. -/
theorem storePut_pairwise {l : List (Nat × Unit64)} (h : l.Pairwise (fun x y => x.1 < y.1)) (a : Nat) (v : Unit64) :
    (storePut l a v).Pairwise (fun x y => x.1 < y.1) := by
  induction l with
  | nil =>
    rw [storePut]
    split
    · exact .nil
    · exact List.pairwise_singleton ..
  | cons y r ih =>
    obtain ⟨hy, hr⟩ := List.pairwise_cons.mp h
    rw [storePut]
    split_ifs with hlt _ heq
    · exact h
    · exact List.pairwise_cons.mpr ⟨List.forall_mem_cons.mpr ⟨hlt, fun x hx => hlt.trans (hy x hx)⟩, h⟩
    · exact hr
    · exact List.pairwise_cons.mpr ⟨fun x hx => heq ▸ hy x hx, hr⟩
    · refine List.pairwise_cons.mpr ⟨fun x hx => ?_, ih hr⟩
      rcases mem_storePut hx with e | hx
      · exact e ▸ by omega
      · exact hy x hx

theorem storeGet_storePut_ne {a b : Nat} (hb : b ≠ a) (l : List (Nat × Unit64)) (v : Unit64) : storeGet (storePut l a v) b = storeGet l b := by
  have hskip (r : List (Nat × Unit64)) : storeGet ((a, v) :: r) b = storeGet r b := if_neg hb.symm
  induction l with
  | nil =>
    rw [storePut]
    split
    · rfl
    · exact hskip []
  | cons y r ih =>
    rw [storePut]
    split_ifs with hlt hv heq hv
    · rfl
    · exact hskip _
    · exact (if_neg (heq ▸ hb.symm) : storeGet (y :: r) b = storeGet r b).symm
    · exact (hskip r).trans (if_neg (heq ▸ hb.symm) : storeGet (y :: r) b = storeGet r b).symm
    · rw [storeGet, storeGet, ih]

theorem storeGet_storePut_self {l : List (Nat × Unit64)} (h : l.Pairwise (fun x y => x.1 < y.1)) (a : Nat) (v : Unit64) :
    storeGet (storePut l a v) a = v := by
  have hself (r : List (Nat × Unit64)) : storeGet ((a, v) :: r) a = v := if_pos rfl
  induction l with
  | nil =>
    rw [storePut]
    split
    · next hv => exact hv.symm
    · exact hself []
  | cons y r ih =>
    obtain ⟨hy, hr⟩ := List.pairwise_cons.mp h
    rw [storePut]
    split_ifs with hlt hv heq hv
    · exact (storeGet_eq_zero (List.forall_mem_cons.mpr ⟨hlt, fun x hx => hlt.trans (hy x hx)⟩)).trans hv.symm
    · exact hself _
    · exact (storeGet_eq_zero (heq ▸ hy)).trans hv.symm
    · exact hself r
    · rw [storeGet, if_neg (Ne.symm heq), ih hr]

theorem storeGet_storeWrite_below {b : Nat} (n : Nat) : ∀ (c : CellState) (u val poi : Nat), b < u →
    storeGet (c.storeWrite u val poi n).store b = storeGet c.store b := by
  induction n with
  | zero => exact fun _ _ _ _ _ => rfl
  | succ n ih =>
    intro c u val poi hb
    rw [CellState.storeWrite, ih _ _ _ _ (by omega), storeGet_storePut_ne (by omega)]

/-- After a write of `n` units, each of them holds its 64 bytes of what was written. -/
theorem storeGet_storeWrite (n : Nat) : ∀ (c : CellState) (u val poi k : Nat), c.store.Pairwise (fun x y => x.1 < y.1) → k < n →
    storeGet (c.storeWrite u val poi n).store (u + k) =
      { bits := BitVec.ofNat 512 (val / 2 ^ (512 * k)), poi := BitVec.ofNat 64 (poi / 2 ^ (64 * k)) } := by
  induction n with
  | zero => exact fun _ _ _ _ _ _ hk => absurd hk (Nat.not_lt_zero _)
  | succ n ih =>
    intro c u val poi k hsorted hk
    rw [CellState.storeWrite]
    cases k with
    | zero =>
      simp only [Nat.add_zero, Nat.mul_zero, Nat.pow_zero, Nat.div_one]
      exact (storeGet_storeWrite_below n _ _ _ _ (by omega)).trans (storeGet_storePut_self hsorted u _)
    | succ k =>
      rw [show u + (k + 1) = u + 1 + k by omega, ih _ _ _ _ k (storePut_pairwise hsorted ..) (by omega), Nat.div_div_eq_div_mul, Nat.div_div_eq_div_mul,
        ← Nat.pow_add, ← Nat.pow_add, Nat.mul_succ, Nat.mul_succ, Nat.add_comm 512, Nat.add_comm 64]

end Sys2Proof.Machine
end

section
/-! # What one cell is after a wave operation

An operation without LAT runs over the cells in their order, and each cell's part changes that cell alone (R91, R92): what a cell holds
in the end is what its own part makes of what it held before. -/

namespace Sys2Proof.Machine

/-- A cell after its part of an operation. -/
def CellOut.onCell (o : CellOut) (c : CellState) : CellState :=
  let c := o.writes.foldl CellState.write c
  match o.stored with
  | none => c
  | some (u, b, n) => c.storeWrite u b.val b.poi n

/-! ### The part of one cell -/

theorem State.cell_applyCell (s : State) (w : CellWrite) (i : Nat) : (s.applyCell w).ctx.cell i = (s.ctx.applyWrite w).cell i :=
  (drainOut_step [] (fun _ => False) _ w.cell w.reg).off i id

theorem State.cell_putWrites {i : Nat} : ∀ (ws : List CellWrite) (s : State), (∀ w ∈ ws, w.cell = i) → i < s.ctx.cells.length →
    (s.putWrites ws).ctx.cell i = ws.foldl CellState.write (s.ctx.cell i) := by
  intro ws
  induction ws with
  | nil => exact fun _ _ _ => rfl
  | cons w ws ih =>
    intro s h hi
    obtain ⟨hw, hws⟩ := List.forall_mem_cons.mp h
    have hlength : (s.applyCell w).ctx.cells.length = s.ctx.cells.length := (applyCell_step (on := fun _ => True) s w (List.mem_singleton_self _) trivial).length
    have hcell : (s.applyCell w).ctx.cell i = (s.ctx.cell i).write w := by
      rw [State.cell_applyCell, Context.cell_applyWrite, if_pos ⟨hw, hi⟩]
    exact (ih _ hws (hlength ▸ hi)).trans (congrArg (fun c => ws.foldl CellState.write c) hcell)

theorem State.cell_putStored {i : Nat} (s : State) (o : Option (Nat × Bits × Nat)) (hi : i < s.ctx.cells.length) :
    (s.putStored i o).ctx.cell i = match o with
      | none => s.ctx.cell i
      | some (u, b, n) => (s.ctx.cell i).storeWrite u b.val b.poi n := by
  cases o with
  | none => rfl
  | some x => exact (s.ctx.cell_setCell i i _).trans (if_pos ⟨rfl, hi⟩)

section
variable {rs : List CellReg} {op : CellOp} {slot : Nat} (h : op.Within rs)

/-- Where no two slots of the wave word name one register, an enabled cell's part makes its writes as they are. -/
theorem runCell_of_no_conflict {a : WaveAcc} {i : Nat} (hconf : a.s.wave.conflict = []) (he : a.s.enabled i = true) :
    (runCell slot false op a i).s = (((a.s.meetErrs (op a.s i) i).putWrites (op a.s i).writes).putStored i (op a.s i).stored).raiseAll slot i
      ((op a.s i).faults ++ a.s.src.cellErrs.filterMap ((op a.s i).meets i)) := by
  simp [runCell, he, hconf, State.spoil]

include h

/-- A cell's part of an operation changes that cell alone. -/
theorem runCell_own (a : WaveAcc) (i : Nat) : WaveStep (rs ++ a.s.wave.conflict) (· = i) a.s (runCell slot false op a i).s := by
  unfold runCell
  split
  · refine WaveStep.trans (meetErrs_step ..) (WaveStep.trans (spoil_step _ _ _ (fun r hr => List.mem_append_right _ (List.mem_filter.mp hr).1) rfl)
      (WaveStep.trans (putWrites_step _ _ fun w hw => ?_) (WaveStep.trans (putStored_step _ _ _ rfl) (raiseAll_step ..))))
    obtain ⟨hcell, hreg⟩ := h a.s i w (List.mem_filter.mp hw).1
    exact ⟨List.mem_append_left _ hreg, hcell⟩
  · exact WaveStep.refl ..

theorem runCell_cell {a : WaveAcc} {i : Nat} (hconf : a.s.wave.conflict = []) (he : a.s.enabled i = true) (hi : i < a.s.ctx.cells.length) :
    (runCell slot false op a i).s.ctx.cell i = (op a.s i).onCell (a.s.ctx.cell i) := by
  have hcells (w : CellWrite) (hw : w ∈ (op a.s i).writes) : w.cell = i := (h a.s i w hw).1
  have hlength : ((a.s.meetErrs (op a.s i) i).putWrites (op a.s i).writes).ctx.cells.length = a.s.ctx.cells.length :=
    (putWrites_step (rs := rs) (on := (· = i)) _ _ fun w hw => (h a.s i w hw).symm).length
  rw [runCell_of_no_conflict hconf he, (raiseAll_step [] (fun _ => False) _ slot i _).off i id, State.cell_putStored _ _ (hlength ▸ hi),
    State.cell_putWrites _ (a.s.meetErrs (op a.s i) i) hcells hi]
  rfl

end

/-! ### Cell after cell -/

/-- An operation without LAT once the cells below `n` have had their part. -/
def State.waveSoFar (s : State) (slot : Nat) (op : CellOp) (n : Nat) : WaveAcc :=
  (List.range n).foldl (runCell slot false op) { s := s, late := [], evs := [] }

/-- Once every cell has had its part, only the event records are left to put under way. -/
theorem runWave_eq_waveSoFar {β : Type} (view : State → β) (hview : ∀ s l, view { s with ctx.dripFlights := l } = view s) (s : State) (slot : Nat)
    (accum : Bool) (op : CellOp) : view (s.runWave slot none accum op) = view (s.waveSoFar slot op s.cellCount).s := by
  simp only [State.runWave, Option.isSome_none]
  change _ = view (List.foldl (runCell slot false op) _ (List.range s.cellCount)).s
  generalize List.foldl _ _ (List.range s.cellCount) = a
  generalize dripRecords .. = recs
  cases recs <;> exact hview a.s _

theorem waveSoFar_succ (s : State) (slot : Nat) (op : CellOp) (n : Nat) :
    s.waveSoFar slot op (n + 1) = runCell slot false op (s.waveSoFar slot op n) n := by
  rw [State.waveSoFar, List.range_succ, List.foldl_append]
  rfl

theorem WaveStep.mono {rs : List CellReg} {on on' : Nat → Prop} {s t : State} (hon : ∀ i, on i → on' i) (h : WaveStep rs on s t) : WaveStep rs on' s t :=
  { h with off := fun i hi => h.off i (mt (hon i) hi) }

section
variable {rs : List CellReg} {op : CellOp} {s : State} {slot : Nat} (h : op.Within rs)
include h

theorem waveSoFar_only (n : Nat) : OnlyWave s (s.waveSoFar slot op n).s := by
  induction n with
  | zero => rfl
  | succ n ih =>
    rw [waveSoFar_succ]
    exact ih.trans (runCell_own h _ n).only

theorem waveSoFar_wave (n : Nat) : (s.waveSoFar slot op n).s.wave = s.wave := by rw [waveSoFar_only h n]

/-- From cell `n` to cell `k`, only the cells between change. -/
theorem waveSoFar_step {n k : Nat} (hnk : n ≤ k) :
    WaveStep (rs ++ s.wave.conflict) (fun i => n ≤ i ∧ i < k) (s.waveSoFar slot op n).s (s.waveSoFar slot op k).s := by
  induction k, hnk using Nat.le_induction with
  | base => exact WaveStep.refl ..
  | succ k hk ih =>
    have hstep := runCell_own (slot := slot) h (s.waveSoFar slot op k) k
    rw [waveSoFar_wave h] at hstep
    rw [waveSoFar_succ]
    exact (ih.mono fun i hi => ⟨hi.1, by omega⟩).trans (hstep.mono fun i hi => by omega)

/-- A cell that the selector enables: its part sees the cells before it done, and makes it what it is in the end. -/
theorem runWave_cell {accum : Bool} {c : Nat} (hsrc : s.src = s.ctx) (hconf : s.wave.conflict = []) (hc : c < s.ctx.cells.length)
    (he : s.enabled c = true) : ∃ m : State, OnlyWave s m ∧ (∀ i < c, m.ctx.cell i = (s.runWave slot none accum op).ctx.cell i) ∧
      (s.runWave slot none accum op).ctx.cell c = (op m c).onCell (s.ctx.cell c) := by
  have hcount : c + 1 ≤ s.cellCount := by rw [State.cellCount, hsrc]; exact hc
  have hend (i : Nat) : (s.runWave slot none accum op).ctx.cell i = (s.waveSoFar slot op s.cellCount).s.ctx.cell i :=
    runWave_eq_waveSoFar (fun s => s.ctx.cell i) (fun _ _ => rfl) ..
  have hbefore := waveSoFar_step (s := s) (slot := slot) h (Nat.zero_le c)
  have hafter := waveSoFar_step (s := s) (slot := slot) h hcount
  have henabled : (s.waveSoFar slot op c).s.enabled c = true := (hbefore.enabled c).trans he
  refine ⟨(s.waveSoFar slot op c).s, hbefore.only, fun i hi => ?_, ?_⟩
  · exact ((hend i).trans ((waveSoFar_step h (by omega : c ≤ s.cellCount)).off i (by omega))).symm
  · rw [hend, hafter.off c (by omega), waveSoFar_succ,
      runCell_cell h (by rw [waveSoFar_wave h, hconf]) henabled (by rw [hbefore.length]; exact hc), hbefore.off c (by omega)]
    rfl

end

/-! ### What a part reads -/

/-- With no result outstanding, a part reads its registers as they stood before the wave word. -/
theorem State.cellReg_of_onlyWave {s m : State} (hm : OnlyWave s m) (hsrc : s.src = s.ctx) (hpend : s.ctx.pend = []) (i : Nat) (r : CellReg)
    (accum : Bool) (width : Nat) : m.cellReg i r accum width = (s.ctx.cell i).get r := by
  have h : m.src = s.ctx := by rw [hm, ← hsrc]
  rw [State.cellReg, h, hpend]
  rfl

/-! ### The east drain (R97) -/

/-- The lane of row `r` in the east drain of the wave word. -/
def State.eastLane (s : State) (r : Nat) : Option (List Chunk) := (s.ctx.hatches[eastDrain s.wave.sel])[r]?

theorem pushLane_hatch_ne {h k : Fin 12} (hne : h ≠ k) (c : Context) (lane : Fin 16) (x : Chunk) : (pushLane c h lane x).hatches[k] = c.hatches[k] := by
  have : h.val ≠ k.val := fun e => hne (Fin.ext e)
  simp [pushLane, this]

theorem pushLane_lane (c : Context) (h : Fin 12) (lane : Fin 16) (x : Chunk) (r : Nat) :
    ((pushLane c h lane x).hatches[h])[r]? = if lane.val = r then (c.hatches[h])[r]?.map (· ++ [x]) else (c.hatches[h])[r]? := by
  simp only [pushLane, Fin.getElem_fin, Vector.getElem_set_self, Vector.getElem?_set]
  split
  · next e => subst e; simp
  · rfl

theorem southDrain_ne_eastDrain (a b : BitVec 2) : southDrain a ≠ eastDrain b := by
  unfold southDrain eastDrain
  split <;> split <;> decide

section
variable {i r : Nat} (hi : i < 256)
include hi

theorem drainOut_eastLane_ne (h : i % 16 ≠ 15 ∨ i / 16 ≠ r) (s : State) (reg : CellReg) : (s.drainOut i reg).eastLane r = s.eastLane r := by
  cases reg with
  | xh =>
    simp only [State.drainOut]
    split
    · next hcol =>
      have hlane : (Fin.ofNat 16 (rowOf i)).val ≠ r := by simp only [Fin.ofNat, rowOf, colOf] at *; omega
      rw [State.inMember, if_pos (by rw [rowOf]; omega)]
      exact (pushLane_lane ..).trans (if_neg hlane)
    · rfl
  | xv =>
    simp only [State.drainOut, State.inMember]
    split_ifs
    · exact congrArg (fun v : Vector (List Chunk) 16 => v[r]?) (pushLane_hatch_ne (southDrain_ne_eastDrain _ _) ..)
    · rfl
    · rfl
  | v n | m n | g n | f => rfl

theorem putWrites_eastLane_ne (h : i % 16 ≠ 15 ∨ i / 16 ≠ r) : ∀ (ws : List CellWrite) (s : State), (∀ w ∈ ws, w.cell = i) →
    (s.putWrites ws).eastLane r = s.eastLane r := by
  intro ws
  induction ws with
  | nil => exact fun _ _ => rfl
  | cons w ws ih =>
    intro s hws
    obtain ⟨rfl, hws⟩ := List.forall_mem_cons.mp hws
    exact (ih _ hws).trans (drainOut_eastLane_ne hi h _ w.reg)

end

theorem putStored_eastLane (s : State) (i : Nat) (o : Option (Nat × Bits × Nat)) (r : Nat) : (s.putStored i o).eastLane r = s.eastLane r := by
  cases o <;> rfl

theorem raiseAll_eastLane (s : State) (slot i : Nat) (kinds : List Nat) (r : Nat) : (s.raiseAll slot i kinds).eastLane r = s.eastLane r :=
  congrArg (fun hatches : Vector (Vector (List Chunk) 16) 12 => (hatches[eastDrain s.wave.sel])[r]?)
    (foldl_keeps (f := fun c k => c.raise slot k i) Context.hatches (fun _ _ => rfl) kinds s.ctx)

/-- Column 15's write of xh joins its lane. -/
theorem applyCell_eastLane {i : Nat} (hi : i < 256) (hcol : i % 16 = 15) (s : State) (w : CellWrite) (hcell : w.cell = i) (hreg : w.reg = .xh) :
    (s.applyCell w).eastLane (i / 16) = (s.eastLane (i / 16)).map (· ++ [((s.applyCell w).ctx.cell i).xh]) := by
  subst hcell
  have hlane : (Fin.ofNat 16 (rowOf w.cell)).val = w.cell / 16 := by simp only [Fin.ofNat, rowOf]; omega
  rw [State.cell_applyCell]
  simp only [State.applyCell, hreg, State.drainOut, colOf, if_pos hcol, State.inMember]
  rw [if_pos (by rw [rowOf]; omega)]
  exact (pushLane_lane ..).trans (if_pos hlane)

section
variable {rs : List CellReg} {op : CellOp} {s : State} {slot : Nat} (h : op.Within rs)
include h

/-- Cells that do not lie at the end of row `r` leave its lane. -/
theorem waveSoFar_eastLane {n k r : Nat} (hconf : s.wave.conflict = []) (hnk : n ≤ k) (hk : k ≤ 256)
    (hr : ∀ i, n ≤ i → i < k → i % 16 ≠ 15 ∨ i / 16 ≠ r) :
    (s.waveSoFar slot op k).s.eastLane r = (s.waveSoFar slot op n).s.eastLane r := by
  induction k, hnk using Nat.le_induction with
  | base => rfl
  | succ k hnk ih =>
    rw [waveSoFar_succ, ← ih (by omega) fun i hn hi => hr i hn (by omega)]
    by_cases he : (s.waveSoFar slot op k).s.enabled k = true
    · rw [runCell_of_no_conflict (by rw [waveSoFar_wave h, hconf]) he, raiseAll_eastLane, putStored_eastLane,
        putWrites_eastLane_ne (by omega) (hr k hnk (by omega)) _ _ fun w hw => (h _ k w hw).1]
      rfl
    · rw [runCell, if_neg he]

/-- An enabled cell of column 15 whose part writes xh puts what it holds in the end in its lane of the east drain, and no other cell does. -/
theorem runWave_eastLane {accum : Bool} {c : Nat} (hsrc : s.src = s.ctx) (hconf : s.wave.conflict = []) (hc : c < s.ctx.cells.length)
    (hlen : s.ctx.cells.length = 256) (he : s.enabled c = true) (hcol : c % 16 = 15)
    (hop : ∀ m, OnlyWave s m → (op m c).stored = none ∧ ∃ w, (op m c).writes = [w] ∧ w.reg = .xh) :
    (s.runWave slot none accum op).eastLane (c / 16) =
      (s.eastLane (c / 16)).map (· ++ [((s.runWave slot none accum op).ctx.cell c).xh]) := by
  have hcount : s.cellCount = 256 := by rw [State.cellCount, hsrc, hlen]
  have hend : (s.runWave slot none accum op).eastLane (c / 16) = (s.waveSoFar slot op s.cellCount).s.eastLane (c / 16) :=
    runWave_eq_waveSoFar (fun s => s.eastLane (c / 16)) (fun _ _ => rfl) ..
  have hcellEnd : (s.runWave slot none accum op).ctx.cell c = (s.waveSoFar slot op (c + 1)).s.ctx.cell c :=
    (runWave_eq_waveSoFar (fun s => s.ctx.cell c) (fun _ _ => rfl) ..).trans
      ((waveSoFar_step h (by omega : c + 1 ≤ s.cellCount)).off c (by omega))
  have hafter := waveSoFar_eastLane (slot := slot) (r := c / 16) h hconf (by omega : c + 1 ≤ s.cellCount) (by omega) fun i _ _ => by omega
  have hbefore := waveSoFar_eastLane (slot := slot) (r := c / 16) h hconf (Nat.zero_le c) (by omega) fun i _ _ => by omega
  have henabled : (s.waveSoFar slot op c).s.enabled c = true := ((waveSoFar_step h (Nat.zero_le c)).enabled c).trans he
  obtain ⟨hstored, w, hwrites, hreg⟩ := hop _ (waveSoFar_only (s := s) (slot := slot) h c)
  have hcell : w.cell = c := (h _ c w (hwrites ▸ List.mem_singleton_self w)).1
  have hpart := runCell_of_no_conflict (slot := slot) (op := op) (by rw [waveSoFar_wave h, hconf]) henabled
  rw [hstored, hwrites] at hpart
  rw [hend, hcellEnd, hafter, waveSoFar_succ, hpart, raiseAll_eastLane, (raiseAll_step [] (fun _ => False) _ slot c _).off c id,
    ← show (s.waveSoFar slot op 0).s.eastLane (c / 16) = s.eastLane (c / 16) from rfl, ← hbefore]
  exact applyCell_eastLane (by omega) hcol _ w hcell hreg

end

end Sys2Proof.Machine
end

section
/-! # Moves in the cells

What XSET, XSHF, XGET, MVM, FSET and CST make of a cell (R149, R151, R152, R154), and the edge write of xh (R97). -/

namespace Sys2Proof.Machine

/-! ### Legal forms -/

theorem w1Cell_legal {spans : List Span} {legal : Bool} {act : CellOp} (h : legal = true) (s : State) (i : Nat) :
    w1Cell spans legal act s i = act s i := if_pos h

theorem moveField_eq (w : W1Move) (lo n : Nat) : w.field lo n = w.ctl.toNat / 2 ^ lo % 2 ^ n := rfl

/-! ### Operands -/

/-- A chunk of a vector register as XSET sends it: data with its poison, and nothing else in the side part. -/
def CellState.vChunk (d : CellState) (a : BitVec 5) (k : Nat) : Chunk :=
  { data := (d.v[a.toNat]).bits.extractLsb' (512 * k) 512, psn := (d.v[a.toNat]).poi.extractLsb' (64 * k) 64, res := 0, info := 0, bad := 0 }

theorem CellState.vChunk_eq (d : CellState) (a : BitVec 5) (k : Nat) :
    let x := (⟨(d.v[a.toNat]).bits.toNat, (d.v[a.toNat]).poi.toNat⟩ : Bits).chunk k
    d.vChunk a k = { data := BitVec.ofNat 512 x.1, psn := BitVec.ofNat 64 x.2, res := 0, info := 0, bad := 0 } := by
  have hmod (n x : Nat) : BitVec.ofNat n (x % 2 ^ n) = BitVec.ofNat n x := BitVec.eq_of_toNat_eq (by simp only [BitVec.toNat_ofNat, Nat.mod_mod])
  simp only [CellState.vChunk, Bits.chunk, hmod, ofNat_div_two_pow]

section
variable {s m : State} (hm : OnlyWave s m) (hsrc : s.src = s.ctx)
include hm hsrc

/-- A part's sources are as they were before the wave word. -/
theorem OnlyWave.src_eq : m.src = s.ctx := by rw [hm, ← hsrc]

theorem vreg_of_onlyWave (hpend : s.ctx.pend = []) (c : Nat) (a : BitVec 5) (width : Nat) :
    m.vreg c a.toNat width = ⟨((s.ctx.cell c).v[a.toNat]).bits.toNat, ((s.ctx.cell c).v[a.toNat]).poi.toNat⟩ := by
  rw [State.vreg, State.cellReg_of_onlyWave hm hsrc hpend, CellState.get, getElem_vField]

/-- The east neighbour's xh, as it stood before the wave word (R94). -/
theorem chunk_east (c : Nat) : (m.chunk c 4).1 = if c % 16 = 15 then Chunk.zero else (s.ctx.cell (c + 1)).xh := by
  rw [State.chunk, colOf, OnlyWave.src_eq hm hsrc]
  split <;> rfl

omit hsrc in
/-- The west neighbour's xh, as the cells before this one leave it, or the hatch's element (R93, R95). -/
theorem chunk_west (c : Nat) :
    (m.chunk c 2).1 = if c % 16 = 0 then s.wave.west.getD (c / 16) Chunk.zero else (m.ctx.cell (c - 1)).xh := by
  have hwave : m.wave = s.wave := by rw [hm]
  rw [State.chunk, colOf, rowOf, hwave]
  split <;> rfl

/-! ### What each operation makes of a cell -/

omit hm hsrc in
theorem cellXset_write {w : W1Move} {c : Nat} (hctl : w.ctl.toNat < 16) (hxh : w.ctl.toNat % 2 = 0) (hd : w.d = 0) :
    (cellXset w m c).stored = none ∧ ∃ x, (cellXset w m c).writes = [x] ∧ x.reg = .xh := by
  have htarget : w.field 0 1 = 0 := by rw [moveField_eq]; omega
  rw [cellXset, w1Cell_legal (by simp [hctl, hd]), htarget]
  exact ⟨rfl, _, rfl, rfl⟩

omit hm hsrc in
/-- XSHF of xh alone. -/
theorem cellXshf_onCell {w : W1Move} {c : Nat} (hctl : w.ctl.toNat < 16) (hxh : w.ctl.toNat % 4 = 1) (hd : w.d = 0) (ha : w.a = 0) (d : CellState) :
    (cellXshf w m c).onCell d = d.write (chunkWrite c .xh (m.chunk c (if w.ctl.toNat / 4 % 2 = 0 then 2 else 4)).1) := by
  have hboth : w.field 0 2 = 1 := by rw [moveField_eq]; omega
  have hh : w.field 0 1 = 1 := by rw [moveField_eq]; omega
  have hv : w.field 1 1 = 0 := by rw [moveField_eq]; omega
  have hfrom : w.field 2 1 = w.ctl.toNat / 4 % 2 := rfl
  rw [cellXshf, CellOut.onCell, w1Cell_legal (by simp [hctl, hd, ha, hboth]), hh, hv, hfrom]
  rfl

section
variable {w : W1Move} {c : Nat}

theorem cellXset_onCell (hpend : s.ctx.pend = []) (hctl : w.ctl.toNat < 16) (hxh : w.ctl.toNat % 2 = 0) (hd : w.d = 0) (d : CellState) :
    (cellXset w m c).onCell d = d.write (chunkWrite c .xh ((s.ctx.cell c).vChunk w.a (w.ctl.toNat / 2 % 8))) := by
  have htarget : w.field 0 1 = 0 := by rw [moveField_eq]; omega
  have hchunk : w.field 1 3 = w.ctl.toNat / 2 % 8 := rfl
  rw [cellXset, CellOut.onCell, w1Cell_legal (by simp [hctl, hd]), htarget, hchunk, vreg_of_onlyWave hm hsrc hpend,
    CellState.vChunk_eq]
  rfl

theorem cellXget_onCell (hctl : w.ctl.toNat < 64) (hxh : w.ctl.toNat % 8 = 0) (ha : w.a = 0) (d : CellState) :
    (cellXget w m c).onCell d =
      d.write (vChunkWrite c w.d.toNat (w.ctl.toNat / 8) (s.ctx.cell c).xh.data.toNat (s.ctx.cell c).xh.psn.toNat) := by
  have hsource : w.field 0 3 = 0 := by rw [moveField_eq]; omega
  have hchunk : w.field 3 3 = w.ctl.toNat / 8 := by rw [moveField_eq]; omega
  have hown : (m.chunk c 0).1 = (s.ctx.cell c).xh := by rw [← OnlyWave.src_eq hm hsrc]; rfl
  rw [← hown, cellXget, CellOut.onCell, w1Cell_legal (by simp [hctl, ha, hsource]), hsource, hchunk]
  rfl

theorem cellMvm_toTile_onCell (hpend : s.ctx.pend = []) (hctl : w.ctl.toNat < 8) (hto : w.ctl.toNat % 2 = 0) (hd : w.d.toNat < 8) (d : CellState) :
    (cellMvm w m c).onCell d = d.write
      { cell := c, reg := .m (Fin.ofNat 8 w.d.toNat), lo := 4096 * (w.ctl.toNat / 2), len := 4096,
        val := ((s.ctx.cell c).v[w.a.toNat]).bits.toNat * 2 ^ (4096 * (w.ctl.toNat / 2)),
        poi := ((s.ctx.cell c).v[w.a.toNat]).poi.toNat * 2 ^ (512 * (w.ctl.toNat / 2)) } := by
  have hdir : w.field 0 1 = 0 := by rw [moveField_eq]; omega
  have hquarter : w.field 1 2 = w.ctl.toNat / 2 := by rw [moveField_eq]; omega
  rw [cellMvm, CellOut.onCell, w1Cell_legal (by simp [hctl, hd, hdir]), hquarter, vreg_of_onlyWave hm hsrc hpend]
  simp only [hdir]
  rfl

theorem cellMvm_toVector_onCell (hpend : s.ctx.pend = []) (hctl : w.ctl.toNat < 8) (hto : w.ctl.toNat % 2 = 1) (ha : w.a.toNat < 8) (d : CellState) :
    (cellMvm w m c).onCell d = d.write
      { cell := c, reg := .v (Fin.ofNat 32 w.d.toNat), lo := 0, len := 4096,
        val := ((s.ctx.cell c).m[Fin.ofNat 8 w.a.toNat]).bits.toNat / 2 ^ (4096 * (w.ctl.toNat / 2)),
        poi := ((s.ctx.cell c).m[Fin.ofNat 8 w.a.toNat]).poi.toNat / 2 ^ (512 * (w.ctl.toNat / 2)) } := by
  have hdir : w.field 0 1 = 1 := by rw [moveField_eq]; omega
  have hquarter : w.field 1 2 = w.ctl.toNat / 2 := by rw [moveField_eq]; omega
  rw [cellMvm, CellOut.onCell, w1Cell_legal (by simp [hctl, ha, hdir]), hquarter, State.mreg, State.cellReg_of_onlyWave hm hsrc hpend]
  simp only [hdir]
  rfl

theorem cellFset_onCell (hpend : s.ctx.pend = []) (hctl : w.ctl.toNat < 3) (hd : w.d = 0) (ha : w.a = 0) (hclean : (s.ctx.cell c).fPoi = false)
    (d : CellState) : (cellFset w m c).onCell d = { d with
      f := match w.ctl.toNat with
        | 0 => false
        | 1 => true
        | _ => !(s.ctx.cell c).f
      fPoi := false } := by
  have hop : w.field 0 2 = w.ctl.toNat := by rw [moveField_eq]; omega
  have hbit : w.field 2 10 = 0 := by rw [moveField_eq]; omega
  rw [cellFset, CellOut.onCell, w1Cell_legal (by simp [hd, ha, hop, hbit]; omega), hop, State.cellReg_of_onlyWave hm hsrc hpend, CellState.get, hclean]
  obtain h | h | h : w.ctl.toNat = 0 ∨ w.ctl.toNat = 1 ∨ w.ctl.toNat = 2 := by omega
  · simp only [h]
    exact d.write_flagWrite c _
  · simp only [h]
    exact d.write_flagWrite c _
  · simp only [h]
    refine (d.write_flagWrite c _).trans ?_
    cases (s.ctx.cell c).f <;> rfl

end

theorem cellCst_onCell {v : W1Store} {c : Nat} (hpend : s.ctx.pend = []) (hn : s.wave.w1n = 0) (hfoot : v.off.toNat + 8 ≤ 128 * s.ctx.foot)
    (d : CellState) : (cellCst v m c).onCell d =
      d.storeWrite v.off.toNat ((s.ctx.cell c).v[v.d.toNat]).bits.toNat ((s.ctx.cell c).v[v.d.toNat]).poi.toNat 8 := by
  have hwave : m.wave = s.wave := by rw [hm]
  have hoff : storeOffset v m.wave.w1n = 64 * v.off.toNat := by rw [hwave, hn, storeOffset]; simp
  have hunit : m.inStore v 512 = some v.off.toNat := by
    simp only [State.inStore, hoff, OnlyWave.src_eq hm hsrc]
    rw [if_pos (by omega)]
    congr 1
    omega
  have hpart : cellCst v m c = { CellOut.nothing with stored := some (v.off.toNat, m.vreg c v.d.toNat 8, 8), reads := [vName c v.d.toNat] } := by
    rw [cellCst, storeCell, w1Cell_legal rfl]
    simp only [hunit]
    rfl
  rw [hpart, vreg_of_onlyWave hm hsrc hpend]
  rfl

end

/-! ### Runs of the W1 slot -/

/-- The machine after a W1 operation without LAT. -/
def State.afterW1 (s : State) (i : Instr) (op : CellOp) : State := (s.runWave 1 none false op).stickW1 (some i)

theorem runW1_eq (i : Instr) (op : CellOp) (s : State) : runW1 i none op s = .next (s.afterW1 i op) := rfl

section
variable {s : State} {i : Instr} {op : CellOp} {rs : List CellReg} (hin : op.Within rs)
include hin

theorem afterW1_only : OnlyWave s (s.afterW1 i op) := by
  obtain ⟨only, -⟩ := runWave_now s 1 false op hin
  exact only.sticky _

section
variable {c : Nat} (hsrc : s.src = s.ctx) (hconf : s.wave.conflict = []) (hc : c < s.ctx.cells.length) (he : s.enabled c = true)
include hsrc hconf hc he

theorem afterW1_cell : ∃ m, OnlyWave s m ∧ (∀ j < c, m.ctx.cell j = (s.afterW1 i op).ctx.cell j) ∧
    (s.afterW1 i op).ctx.cell c = (op m c).onCell (s.ctx.cell c) :=
  runWave_cell (slot := 1) (accum := false) hin hsrc hconf hc he

/-- A part that is the same whatever the other cells have done. -/
theorem afterW1_cell_eq {d : CellState} (hop : ∀ m, OnlyWave s m → (op m c).onCell (s.ctx.cell c) = d) : (s.afterW1 i op).ctx.cell c = d := by
  obtain ⟨m, hm, -, hcell⟩ := afterW1_cell (i := i) hin hsrc hconf hc he
  exact hcell.trans (hop m hm)

theorem afterW1_eastLane (hlen : s.ctx.cells.length = 256) (hcol : c % 16 = 15)
    (hop : ∀ m, OnlyWave s m → (op m c).stored = none ∧ ∃ w, (op m c).writes = [w] ∧ w.reg = .xh) :
    ((s.afterW1 i op).ctx.hatches[eastDrain s.wave.sel])[c / 16]? =
      ((s.ctx.hatches[eastDrain s.wave.sel])[c / 16]?).map (· ++ [((s.afterW1 i op).ctx.cell c).xh]) := by
  have hwave : (s.afterW1 i op).wave = s.wave := by rw [afterW1_only (i := i) hin]
  have hlane : (s.afterW1 i op).eastLane (c / 16) = _ := runWave_eastLane (slot := 1) (accum := false) hin hsrc hconf hc hlen he hcol hop
  exact (congrArg (fun q : Wave => ((s.afterW1 i op).ctx.hatches[eastDrain q.sel])[c / 16]?) hwave).symm.trans hlane

end

end

/-- Settles O36: what each operation's part makes of a cell, read field by field. -/
theorem moveResults : Obligations.MoveResults := by
  unfold Obligations.MoveResults
  intro s w v c hsrc hpend hconf hc he hlen _
  dsimp only
  have part {i : Instr} {op : CellOp} {rs : List CellReg} {d : CellState} (hin : op.Within rs)
      (hop : ∀ m, OnlyWave s m → (op m c).onCell (s.ctx.cell c) = d) : (s.afterW1 i op).ctx.cell c = d :=
    afterW1_cell_eq hin hsrc hconf hc he hop
  refine ⟨fun hctl hxh hd => ⟨_, runW1_eq (.xset w) (cellXset w) s, ?_⟩, fun hctl hd ha => ⟨_, runW1_eq (.xshf w) (cellXshf w) s, ?_⟩,
    fun hctl hd ha => ⟨_, runW1_eq (.xshf w) (cellXshf w) s, ?_⟩, fun hctl hxh ha => ⟨_, runW1_eq (.xget w) (cellXget w) s, ?_⟩,
    fun hctl hto hd => ⟨_, runW1_eq (.mvm w) (cellMvm w) s, ?_⟩, fun hctl hto ha => ⟨_, runW1_eq (.mvm w) (cellMvm w) s, ?_⟩,
    fun hctl hd ha hclean => ⟨_, runW1_eq (.fset w) (cellFset w) s, ?_⟩, fun hn hfoot hsorted => ⟨_, runW1_eq (.cst v) (cellCst v) s, ?_⟩⟩
  · refine ⟨?_, fun hcol => afterW1_eastLane (cellXset_into w).within hsrc hconf hc he hlen hcol fun m _ => cellXset_write hctl hxh hd⟩
    rw [part (cellXset_into w).within fun m hm => cellXset_onCell hm hsrc hpend hctl hxh hd _, CellState.xh_write_chunkWrite]
    rfl
  · have hfrom (m : State) (hm : OnlyWave s m) := (cellXshf_onCell (m := m) (c := c) (by omega) (by omega) hd ha (s.ctx.cell c)).trans
      (by rw [hctl, if_neg (by decide), chunk_east hm hsrc])
    rw [part (cellXshf_into w).within hfrom, CellState.xh_write_chunkWrite]
  · obtain ⟨m, hm, hbefore, hcell⟩ := afterW1_cell (i := .xshf w) (cellXshf_into w).within hsrc hconf hc he
    rw [hcell, cellXshf_onCell (by omega) (by omega) hd ha, CellState.xh_write_chunkWrite, hctl, if_pos (by decide), chunk_west hm]
    split
    · rfl
    · rw [hbefore (c - 1) (by omega)]
  · rw [part (cellXget_into w).within fun m hm => cellXget_onCell hm hsrc hctl hxh ha _]
    exact ⟨CellState.bits_write_vChunkWrite _ _ _ (by omega) _ _, CellState.poi_write_vChunkWrite _ _ _ (by omega) _ _,
      fun k hk hne => CellState.bits_write_vChunkWrite_ne _ _ _ hk _ _ hne⟩
  · rw [part (cellMvm_into w).within fun m hm => cellMvm_toTile_onCell hm hsrc hpend hctl hto hd _]
    exact fun k hk => CellState.m_write_quarter _ rfl rfl rfl rfl hk
  · rw [part (cellMvm_into w).within fun m hm => cellMvm_toVector_onCell hm hsrc hpend hctl hto ha _]
    exact (CellState.v_write_whole _ rfl rfl rfl).trans (ofNat_div_two_pow ..)
  · rw [part (cellFset_into w).within fun m hm => cellFset_onCell hm hsrc hpend hctl hd ha hclean _]
    exact ⟨rfl, rfl⟩
  · rw [part (op := cellCst v) (storeCell_within v _ _ _) fun m hm => cellCst_onCell hm hsrc hpend hn hfoot _]
    intro k hk
    rw [storeGet_storeWrite 8 _ _ _ _ k hsorted hk, ofNat_div_two_pow, ofNat_div_two_pow]

end Sys2Proof.Machine
end

section
/-! # Aggregating the flag

FAGG puts one aggregate under way and leaves the cells; its arrival fills the queue entry, or replaces one mask of the selector
(R98, R155). -/

namespace Sys2Proof.Machine

/-! ### What is aggregated -/

/-- The number whose bits below `n` are those of `b`. -/
def bitSum (b : Nat → Bool) (n : Nat) : Nat := ((List.range n).map (fun i => if b i = true then 2 ^ i else 0)).sum

theorem bitSum_succ (b : Nat → Bool) (n : Nat) : bitSum b (n + 1) = 2 ^ n * (b n).toNat + bitSum b n := by
  rw [bitSum, List.range_succ, List.map_append, List.sum_append, Nat.add_comm, bitSum]
  cases h : b n <;> simp [h]

theorem bitSum_lt (b : Nat → Bool) (n : Nat) : bitSum b n < 2 ^ n := by
  induction n with
  | zero => exact Nat.one_pos
  | succ n ih =>
    have hle : 2 ^ n * (b n).toNat ≤ 2 ^ n * 1 := Nat.mul_le_mul_left _ (b n).toNat_le
    rw [bitSum_succ, Nat.pow_succ]
    omega

theorem testBit_bitSum (b : Nat → Bool) {n k : Nat} (hk : k < n) : (bitSum b n).testBit k = b k := by
  induction n with
  | zero => exact absurd hk (Nat.not_lt_zero k)
  | succ n ih =>
    rw [bitSum_succ, Nat.testBit_two_pow_mul_add _ (bitSum_lt b n)]
    split
    · next h => exact ih h
    · next h =>
      obtain rfl : k = n := by omega
      rw [Nat.sub_self, Nat.testBit_bool_toNat, decide_eq_true rfl, Bool.true_and]

/-- Bit `k` of sixteen aggregates. -/
theorem aggMask_getLsbD (s : State) (all : Bool) (key : Nat → Nat) {k : Nat} (hk : k < 16) :
    (s.aggMask all key).getLsbD k = s.aggregate all (fun i => key i == k) := by
  have hbit := testBit_bitSum (fun n => s.aggregate all (fun i => key i == n)) hk
  rw [State.aggMask, BitVec.getLsbD_ofNat, decide_eq_true hk, Bool.true_and]
  exact hbit

/-- ANY, or where `all` ALL, of the flags of the enabled cells that satisfy `p` (R98). -/
def State.Joined (s : State) (all : Prop) (p : Nat → Prop) : Prop :=
  (¬ all ∧ ∃ i < s.ctx.cells.length, s.enabled i = true ∧ p i ∧ (s.ctx.cell i).f = true) ∨
    (all ∧ ∀ i < s.ctx.cells.length, s.enabled i = true → p i → (s.ctx.cell i).f = true)

theorem State.Joined.congr {s : State} {all all' : Prop} {p p' : Nat → Prop} (ha : all ↔ all') (hp : ∀ i < s.ctx.cells.length, p i ↔ p' i) :
    s.Joined all p ↔ s.Joined all' p' := by
  refine or_congr (and_congr (not_congr ha) (exists_congr fun i => ?_)) (and_congr ha (forall_congr' fun i => ?_))
  · exact and_congr_right fun hi => by rw [hp i hi]
  · exact imp_congr_right fun hi => by rw [hp i hi]

section
variable {s : State} (hsrc : s.src = s.ctx) (hpend : s.ctx.pend = [])
include hsrc hpend

theorem aggregate_iff (all : Bool) (p : Nat → Bool) : s.aggregate all p = true ↔ s.Joined (all = true) (fun i => p i = true) := by
  have hflag (i : Nat) : ((s.cellReg i .f false 1).val == 1) = (s.ctx.cell i).f := by
    rw [State.cellReg_of_onlyWave (OnlyWave.refl s) hsrc hpend, CellState.get]
    cases (s.ctx.cell i).f <;> rfl
  have hcount : s.cellCount = s.ctx.cells.length := by rw [State.cellCount, hsrc]
  cases all
  · simp [State.aggregate, State.Joined, hflag, hcount, and_assoc]
  · simp only [State.aggregate, State.Joined, hflag, hcount, if_true, List.all_eq_true, List.mem_filter, List.mem_range, Bool.and_eq_true, and_imp,
      not_true_eq_false, false_and, false_or, true_and]

/-- The aggregate of a legal form carries no poison where no flag does. -/
theorem fagg_clean (hclean : ∀ i < s.ctx.cells.length, (s.ctx.cell i).fPoi = false) :
    (List.range s.cellCount).any (fun i => s.enabled i && (s.cellReg i .f false 1).poi != 0) = false := by
  refine List.any_eq_false.mpr fun i hi => ?_
  rw [State.cellCount, hsrc] at hi
  rw [State.cellReg_of_onlyWave (OnlyWave.refl s) hsrc hpend, CellState.get, hclean i (List.mem_range.mp hi)]
  simp

end

/-! ### What is under way -/

/-- The selector mask that a FAGG names. -/
def faggMask (w : W1Move) : FaggTarget :=
  if w.field 0 2 = 1 then .rows (BitVec.ofNat 2 (w.field 4 2)) else .cols (BitVec.ofNat 2 (w.field 4 2))

/-- The aggregate of unpoisoned flags. -/
def State.faggFlight (s : State) (w : W1Move) (due : Nat) (target : FaggTarget) : FaggFlight :=
  { due := due, target := target, value := s.faggValue w, poi := false, made := s.src.issues, addr := s.src.pc }

section
variable {s : State} {w : W1Move} (hsrc : s.src = s.ctx) (hpend : s.ctx.pend = []) (hlegal : faggLegal w = true)
  (hclean : ∀ i < s.ctx.cells.length, (s.ctx.cell i).fPoi = false)
include hsrc hpend hlegal hclean

theorem fagg_queue (hto : w.field 3 1 = 0) : s.fagg w = s.setCtx { s.ctx.cqReserve none with
    faggs := s.ctx.faggs ++ [s.faggFlight w (s.ctx.cycle + 34 + s.ctx.chainC) (.queue s.ctx.tag)] } := by
  simp only [State.fagg, hlegal, fagg_clean hsrc hpend hclean, hto, hsrc, State.faggFlight]
  rfl

theorem fagg_selector (hto : w.field 3 1 = 1) : s.fagg w = s.setCtx { s.ctx with
    faggs := s.ctx.faggs ++ [s.faggFlight w (s.ctx.cycle + 35 + s.ctx.chainC) (faggMask w)] } := by
  have hdue : s.ctx.cycle + 34 + s.ctx.chainC + 1 = s.ctx.cycle + 35 + s.ctx.chainC := by omega
  have hqueue : ¬ w.field 3 1 = 0 := by omega
  have hpoi := fagg_clean hsrc hpend hclean
  by_cases hrows : w.field 0 2 = 1
  · simp only [State.fagg, hlegal, hpoi, if_neg hqueue, if_pos hrows, hsrc, State.faggFlight, faggMask, hdue]
    rfl
  · simp only [State.fagg, hlegal, hpoi, if_neg hqueue, if_neg hrows, hsrc, State.faggFlight, faggMask, hdue]
    rfl

end

/-! ### What FAGG leaves -/

/-- A part that writes nothing. -/
def CellOp.Silent (op : CellOp) : Prop := ∀ s i, (op s i).writes = [] ∧ (op s i).stored = none

theorem CellOp.Silent.within {op : CellOp} (h : op.Silent) : op.Within [] := fun s i w hw => by simp [(h s i).1] at hw

theorem cellFagg_silent (w : W1Move) : (cellFagg w).Silent := by
  intro s i
  rw [cellFagg, w1Cell]
  split <;> exact ⟨rfl, rfl⟩

theorem waveSoFar_silent {op : CellOp} (h : op.Silent) {s : State} (slot : Nat) (hconf : s.wave.conflict = []) (n : Nat) :
    (s.waveSoFar slot op n).s.ctx.cells = s.ctx.cells := by
  induction n with
  | zero => rfl
  | succ n ih =>
    rw [waveSoFar_succ]
    by_cases he : (s.waveSoFar slot op n).s.enabled n = true
    · obtain ⟨hwrites, hstored⟩ := h (s.waveSoFar slot op n).s n
      rw [runCell_of_no_conflict (by rw [waveSoFar_wave h.within, hconf]) he, hwrites, hstored]
      exact (foldl_keeps (f := fun c k => c.raise slot k n) Context.cells (fun _ _ => rfl) _ _).trans ih
    · rw [runCell, if_neg he]
      exact ih

section
variable {s : State} {i : Instr} {op : CellOp}

theorem afterW1_cellsBut {rs : List CellReg} (hin : op.Within rs) : CellsBut (rs ++ s.wave.conflict) s (s.afterW1 i op) := by
  obtain ⟨-, -, cells, -⟩ := runWave_now s 1 false op hin
  exact cells

theorem afterW1_silent (h : op.Silent) (hconf : s.wave.conflict = []) : (s.afterW1 i op).ctx.cells = s.ctx.cells :=
  (runWave_eq_waveSoFar (fun s => s.ctx.cells) (fun _ _ => rfl) s 1 false op).trans (waveSoFar_silent h 1 hconf _)

end

/-- The machine after a FAGG. -/
def State.afterFagg (s : State) (w : W1Move) : State := (s.fagg w).afterW1 (.fagg w) (cellFagg w)

theorem exec_fagg (s : State) (w : W1Move) : exec (.fagg w) s = .next (s.afterFagg w) := rfl

/-- But for the cells, their faults and events, and the sticky slot, FAGG leaves what puts its aggregate under way. -/
theorem afterFagg_only (s : State) (w : W1Move) : OnlyWave (s.fagg w) (s.afterFagg w) := afterW1_only (cellFagg_silent w).within

/-- Putting an aggregate under way reaches no cell. -/
theorem fagg_ctx_cells (s : State) (w : W1Move) : (s.fagg w).ctx.cells = s.ctx.cells ∧ (s.fagg w).wave = s.wave ∧ (s.fagg w).src = s.src := by
  unfold State.fagg
  dsimp only
  split_ifs <;> exact ⟨rfl, rfl, rfl⟩

theorem afterFagg_cells (s : State) (w : W1Move) : CellsBut s.wave.conflict s (s.afterFagg w) ∧
    (s.wave.conflict = [] → (s.afterFagg w).ctx.cells = s.ctx.cells) := by
  obtain ⟨hcells, hwave, hsrc⟩ := fagg_ctx_cells s w
  obtain ⟨length, regs⟩ := afterW1_cellsBut (s := s.fagg w) (i := .fagg w) (cellFagg_silent w).within
  simp only [State.enabled, Context.cell, hcells, hwave, hsrc, List.nil_append] at length regs
  exact ⟨⟨length, regs⟩, fun h => (afterW1_silent (cellFagg_silent w) (hwave ▸ h)).trans hcells⟩

/-! ### Arrival -/

theorem exec_faggResult (n : Nat) (s : State) : exec (.faggResult n) s = .next (s.setCtx (s.ctx.faggResult n)) := rfl

section
variable {c : Context} {n : Nat} {f : FaggFlight}

theorem Context.faggResult_early (h : c.faggs[n]? = some f) (hlt : c.cycle < f.due) : c.faggResult n = c := by
  simp only [Context.faggResult, h, if_neg (Nat.not_le.mpr hlt)]

theorem Context.faggResult_due (h : c.faggs[n]? = some f) (hle : f.due ≤ c.cycle) :
    c.faggResult n = ({ c with faggs := c.faggs.eraseIdx n } : Context).arriveFagg f := by
  simp only [Context.faggResult, h, if_pos hle]

end

section
variable {c : Context} {f : FaggFlight} (hpoi : f.poi = false)
include hpoi

theorem Context.arriveFagg_queue {tag : Nat} (ht : f.target = .queue tag) : c.arriveFagg f = c.cqFill tag (f.value.getLsbD 0) false := by
  simp [Context.arriveFagg, ht, hpoi]

theorem Context.arriveFagg_rows {z : BitVec 2} (ht : f.target = .rows z) : c.arriveFagg f = c.gate z (fun x => { x with rows := f.value }) := by
  simp [Context.arriveFagg, ht, hpoi]

theorem Context.arriveFagg_cols {z : BitVec 2} (ht : f.target = .cols z) : c.arriveFagg f = c.gate z (fun x => { x with cols := f.value }) := by
  simp [Context.arriveFagg, ht, hpoi]

end

/-- The entry that a producer has reserved is the one that is filled. -/
theorem cqFill_reserved {c : Context} {l : List CqEntry} {tag : Nat} {poi : Bool} (h : c.cq = l ++ [{ tag := tag, val := none, poi := poi }])
    (hl : ∀ e ∈ l, e.tag ≠ tag) (b poison : Bool) : (c.cqFill tag b poison).cq = l ++ [{ tag := tag, val := some b, poi := poison }] := by
  have hkept : l.map (fun e => if e.tag == tag && e.val.isNone then { e with val := some b, poi := poison } else e) = l :=
    (List.map_congr_left fun e he => by simp [hl e he]).trans l.map_id
  simp only [Context.cqFill, h, List.map_append, hkept]
  simp

theorem Context.gate_z (c : Context) (z : BitVec 2) (g : Selector → Selector) : (c.gate z g).z[z.toFin] = g c.z[z.toFin] := by
  simp [Context.gate]

/-- An aggregate for the queue fills the entry that its FAGG has reserved. -/
theorem faggResult_queue {c : Context} {n : Nat} {f : FaggFlight} {l : List CqEntry} {tag : Nat} (hn : c.faggs[n]? = some f) (hdue : f.due ≤ c.cycle)
    (hpoi : f.poi = false) (htarget : f.target = .queue tag) (hcq : c.cq = l ++ [{ tag := tag, val := none, poi := false }])
    (hl : ∀ e ∈ l, e.tag ≠ tag) : (c.faggResult n).cq = l ++ [{ tag := tag, val := some (f.value.getLsbD 0), poi := false }] := by
  rw [Context.faggResult_due hn hdue, Context.arriveFagg_queue hpoi htarget]
  exact cqFill_reserved hcq hl ..

/-- An aggregate for a selector replaces the mask that its FAGG names, and leaves the other. -/
theorem faggResult_selector {c : Context} {n : Nat} {f : FaggFlight} {w : W1Move} {z : Fin 4} (hz : z.val = w.ctl.toNat / 16 % 4)
    (hn : c.faggs[n]? = some f) (hdue : f.due ≤ c.cycle) (hpoi : f.poi = false) (htarget : f.target = faggMask w) :
    (w.ctl.toNat % 4 = 1 → (c.faggResult n).z[z].rows = f.value ∧ (c.faggResult n).z[z].cols = c.z[z].cols) ∧
      (w.ctl.toNat % 4 = 2 → (c.faggResult n).z[z].cols = f.value ∧ (c.faggResult n).z[z].rows = c.z[z].rows) := by
  obtain rfl : (BitVec.ofNat 2 (w.field 4 2)).toFin = z := Fin.ext (by simp only [BitVec.toFin_ofNat, moveField_eq, Fin.ofNat]; omega)
  rw [Context.faggResult_due hn hdue]
  refine ⟨fun h => ?_, fun h => ?_⟩
  · have hrows : w.field 0 2 = 1 := by rw [moveField_eq]; omega
    rw [Context.arriveFagg_rows hpoi (htarget.trans (if_pos hrows)), Context.gate_z]
    exact ⟨rfl, rfl⟩
  · have hcols : ¬ w.field 0 2 = 1 := by rw [moveField_eq]; omega
    rw [Context.arriveFagg_cols hpoi (htarget.trans (if_neg hcols)), Context.gate_z]
    exact ⟨rfl, rfl⟩

/-! ### The two targets -/

theorem faggLegal_queue {w : W1Move} (hd : w.d = 0) (ha : w.a = 0) (hctl : w.ctl.toNat = 0 ∨ w.ctl.toNat = 4) : faggLegal w = true := by
  have hop : w.field 0 2 = 0 := by rw [moveField_eq]; omega
  have hto : w.field 3 1 = 0 := by rw [moveField_eq]; omega
  have hz : w.field 4 2 = 0 := by rw [moveField_eq]; omega
  have hlt : w.ctl.toNat < 64 := by omega
  simp [faggLegal, hd, ha, hop, hto, hz, hlt]

theorem faggLegal_selector {w : W1Move} (hd : w.d = 0) (ha : w.a = 0) (hlt : w.ctl.toNat < 64) (hto : w.ctl.toNat / 8 % 2 = 1)
    (hctl : w.ctl.toNat % 4 = 1 ∨ w.ctl.toNat % 4 = 2) : faggLegal w = true := by
  have hto : w.field 3 1 = 1 := hto
  have hop : w.field 0 2 = 1 ∨ w.field 0 2 = 2 := by rw [moveField_eq]; omega
  simp [faggLegal, hd, ha, hlt, hto, hop]

section
variable {s : State} {w : W1Move} (hsrc : s.src = s.ctx) (hpend : s.ctx.pend = [])
include hsrc hpend

/-- ANY or ALL, in bit 0. -/
theorem faggValue_queue (hctl : w.ctl.toNat = 0 ∨ w.ctl.toNat = 4) :
    (s.faggValue w).getLsbD 0 = true ↔ s.Joined (w.ctl.toNat = 4) (fun _ => True) := by
  have hop : w.field 0 2 = 0 := by rw [moveField_eq]; omega
  have hall : (w.field 2 1 == 1) = true ↔ w.ctl.toNat = 4 := by rw [beq_iff_eq, moveField_eq]; omega
  have hbit (b : Bool) : (BitVec.ofNat 16 b.toNat).getLsbD 0 = b := by cases b <;> rfl
  rw [State.faggValue, hop]
  exact (Bool.eq_iff_iff.mp (hbit _)).trans ((aggregate_iff hsrc hpend _ _).trans (State.Joined.congr hall fun _ _ => iff_of_true rfl trivial))

/-- One aggregate for each row, or for each column. -/
theorem faggValue_selector (hctl : w.ctl.toNat % 4 = 1 ∨ w.ctl.toNat % 4 = 2) (hlen : s.ctx.cells.length = 256) {k : Nat} (hk : k < 16) :
    (s.faggValue w).getLsbD k = true ↔
      s.Joined (w.ctl.toNat / 4 % 2 = 1) (fun i => if w.ctl.toNat % 4 = 1 then i / 16 = k else i % 16 = k) := by
  have hall : (w.field 2 1 == 1) = true ↔ w.ctl.toNat / 4 % 2 = 1 := beq_iff_eq
  have hmask (key : Nat → Nat) : (s.aggMask (w.field 2 1 == 1) key).getLsbD k = true ↔ s.Joined (w.ctl.toNat / 4 % 2 = 1) (fun i => key i = k) := by
    rw [aggMask_getLsbD _ _ _ hk, aggregate_iff hsrc hpend]
    exact State.Joined.congr hall fun i _ => beq_iff_eq
  rcases hctl with h | h
  · have hop : w.field 0 2 = 1 := by rw [moveField_eq]; omega
    rw [State.faggValue, hop]
    refine (hmask _).trans (State.Joined.congr Iff.rfl fun i hi => ?_)
    rw [if_pos h, rowOf]
    omega
  · have hop : w.field 0 2 = 2 := by rw [moveField_eq]; omega
    rw [State.faggValue, hop]
    refine (hmask _).trans (State.Joined.congr Iff.rfl fun i hi => ?_)
    rw [if_neg (by omega), colOf]

end

/-- Settles O37: what is put under way, and its arrival at each target. -/
theorem faggAggregatesFlags : Obligations.FaggAggregatesFlags := by
  unfold Obligations.FaggAggregatesFlags
  intro s w hsrc hpend
  dsimp only
  have only := afterFagg_only s w
  refine ⟨fun hd ha hctl hclean => ?_, fun hd ha hlt hto hctl hclean _ hlen => ?_⟩
  · have hfagg := fagg_queue hsrc hpend (faggLegal_queue hd ha hctl) hclean (by rw [moveField_eq]; omega)
    obtain ⟨cells, kept⟩ := afterFagg_cells s w
    rw [hfagg] at only
    have hcq : (s.afterFagg w).ctx.cq = s.ctx.cq ++ [{ tag := s.ctx.tag, val := none, poi := false }] := by rw [only]; rfl
    refine ⟨s.afterFagg w, s.faggFlight w (s.ctx.cycle + 34 + s.ctx.chainC) (.queue s.ctx.tag), exec_fagg s w, by rw [only]; rfl, rfl, rfl, rfl, hcq,
      cells, kept, faggValue_queue hsrc hpend hctl, fun n hn => ⟨fun hlt => ?_, fun u hu hfresh => ⟨_, exec_faggResult n u, ?_⟩⟩⟩
    · rw [exec_faggResult, Context.faggResult_early hn hlt]
      rfl
    · subst hu
      exact faggResult_queue hn (Nat.le_refl _) rfl rfl hcq hfresh
  · have hfagg := fagg_selector hsrc hpend (faggLegal_selector hd ha hlt hto hctl) hclean hto
    rw [hfagg] at only
    have hz : (s.afterFagg w).ctx.z = s.ctx.z := by rw [only]; rfl
    refine ⟨s.afterFagg w, s.faggFlight w (s.ctx.cycle + 35 + s.ctx.chainC) (faggMask w), exec_fagg s w, by rw [only]; rfl, by rw [only]; rfl, rfl,
      fun k hk => faggValue_selector hsrc hpend hctl hlen hk, fun n hn u hu => ⟨_, exec_faggResult n u, ?_⟩⟩
    subst hu
    rw [← hz]
    exact faggResult_selector rfl hn (Nat.le_refl _) rfl rfl

end Sys2Proof.Machine
end

section
/-! # Vector registers as lanes

How lanes and their marks lie in a vector register (R110, R133), and what an element-wise operation makes of its destination in a cell
(R128, R136). -/

namespace Sys2Proof.Machine

/-! ### Lanes and the bytes that they touch -/

/-- A format of the wave slots is 4, 8, 16 or 32 bits wide (R41). -/
theorem fmtOf_width {code : Nat} {f : Fmt} (h : fmtOf code = some f) : f.width = 4 ∨ f.width = 8 ∨ f.width = 16 ∨ f.width = 32 := by
  have hint {k : Nat} (hk : k < 4) : 4 * 2 ^ k = 4 ∨ 4 * 2 ^ k = 8 ∨ 4 * 2 ^ k = 16 ∨ 4 * 2 ^ k = 32 := by
    interval_cases k <;> decide
  unfold fmtOf at h
  split_ifs at h <;> cases h
  · exact hint ‹_›
  · exact hint (by omega)
  all_goals simp [Fmt.width, fmtF16, fmtBf16, fmtF32, fmtB8]

/-- Byte `k` of a register holds bits of lane `j`. -/
def LaneByte (w j k : Nat) : Prop := w * j < 8 * (k + 1) ∧ 8 * k < w * (j + 1)

theorem LaneByte.offset {w j k : Nat} (hw : w = 4 ∨ w = 8 ∨ w = 16 ∨ w = 32) (h : LaneByte w j k) :
    ∃ b < (w + 7) / 8, w * j / 8 + b = k := by
  obtain ⟨hlo, hhi⟩ := h
  refine ⟨k - w * j / 8, ?_, ?_⟩ <;> rcases hw with rfl | rfl | rfl | rfl <;> omega

/-- A lane with a marked byte is poisoned. -/
theorem eltPoi_of_mark {w j k : Nat} {b : Bits} (hw : w = 4 ∨ w = 8 ∨ w = 16 ∨ w = 32) (h : LaneByte w j k) (hk : b.poi.testBit k = true) :
    eltPoi b w j = true := by
  obtain ⟨m, hm, rfl⟩ := h.offset hw
  have hmark : (b.poi / 2 ^ (w * j / 8) % 2 ^ ((w + 7) / 8)).testBit m = true := by
    rw [Nat.testBit_mod_two_pow, decide_eq_true hm, Nat.testBit_div_two_pow, Nat.add_comm m, hk]
    rfl
  rw [eltPoi, bne_iff_ne]
  intro h0
  rw [h0, Nat.zero_testBit] at hmark
  exact absurd hmark (by decide)

theorem eltPoi_of_clean {b : Bits} (h : b.poi = 0) (w j : Nat) : eltPoi b w j = false := by
  simp [eltPoi, h]

/-! ### Packed lanes -/

theorem packVals_lane (w : Nat) (l : List Elt) {j : Nat} (hj : j < l.length) : packVals w l / 2 ^ (w * j) % 2 ^ w = l[j].val % 2 ^ w := by
  induction l generalizing j with
  | nil => exact absurd hj (Nat.not_lt_zero j)
  | cons e l ih =>
    cases j with
    | zero => simp [packVals]
    | succ j =>
      have htail : packVals w (e :: l) / 2 ^ w = packVals w l := by
        rw [packVals, Nat.add_mul_div_left _ _ (Nat.two_pow_pos w), Nat.div_eq_of_lt (Nat.mod_lt _ (Nat.two_pow_pos w)), Nat.zero_add]
      rw [Nat.mul_succ, Nat.add_comm (w * j), Nat.pow_add, ← Nat.div_div_eq_div_mul, htail]
      exact ih (Nat.lt_of_succ_lt_succ hj)

theorem testBit_packPois (w : Nat) (l : List Elt) {j i b : Nat} (hi : i < l.length) (hb : l[i].marks.testBit b = true) :
    (packPois w j l).testBit (w * (j + i) / 8 + b) = true := by
  induction l generalizing j i with
  | nil => exact absurd hi (Nat.not_lt_zero i)
  | cons e l ih =>
    rw [packPois, Nat.testBit_or, Bool.or_eq_true]
    cases i with
    | zero =>
      refine .inl ?_
      rw [Nat.add_zero, Nat.testBit_mul_two_pow, decide_eq_true (Nat.le_add_right ..), Nat.add_sub_cancel_left]
      exact hb
    | succ i =>
      refine .inr ?_
      rw [show j + (i + 1) = j + 1 + i by omega]
      exact ih (Nat.lt_of_succ_lt_succ hi) hb

theorem packPois_eq_zero (w : Nat) {l : List Elt} (h : ∀ e ∈ l, e.marks = 0) (j : Nat) : packPois w j l = 0 := by
  induction l generalizing j with
  | nil => rfl
  | cons e l ih =>
    obtain ⟨he, hl⟩ := List.forall_mem_cons.mp h
    rw [packPois, he, ih hl, Nat.zero_mul, Nat.or_self]

/-- An event of one element is an event of them all. -/
theorem testBit_eltEvents {l : List Elt} {e : Elt} {b : Nat} (he : e ∈ l) (hb : e.ev.testBit b = true) : (eltEvents l).testBit b = true := by
  have hfold (l : List Elt) (a : Nat) : (l.foldl (fun a e => a ||| e.ev) a).testBit b = (a.testBit b || l.any (·.ev.testBit b)) := by
    induction l generalizing a with
    | nil => simp
    | cons x l ih => rw [List.foldl_cons, ih, Nat.testBit_or, List.any_cons, Bool.or_assoc]
  rw [eltEvents, hfold, List.any_eq_true.mpr ⟨e, he, hb⟩, Bool.or_true]

/-! ### A register made of lanes -/

/-- A cell's part writes lanes `e` to its vector register `d`. -/
def CellOut.MakesLanes (o : CellOut) (i d w : Nat) (e : Nat → Elt) : Prop := ∃ reads, o = vecOut i d w reads ((List.range (lanes w)).map e)

theorem ofNat_splice_whole {n : Nat} (old : Nat) (new : Nat) : BitVec.ofNat n (splice old 0 n new) = BitVec.ofNat n new := by
  refine BitVec.eq_of_getLsbD_eq fun k hk => ?_
  rw [BitVec.getLsbD_ofNat, BitVec.getLsbD_ofNat, testBit_splice, if_pos (by omega)]

section
variable {o : CellOut} {i w : Nat} {d : BitVec 5} {e : Nat → Elt} (h : o.MakesLanes i d.toNat w e) (c : CellState)
include h

theorem CellOut.MakesLanes.v_eq : (o.onCell c).v[d.toNat] =
    { bits := BitVec.ofNat _ (packVals w ((List.range (lanes w)).map e)), poi := BitVec.ofNat _ (packPois w 0 ((List.range (lanes w)).map e)) } := by
  obtain ⟨reads, rfl⟩ := h
  have hv := c.v_write (w := vecWrite i d.toNat w ((List.range (lanes w)).map e)) rfl
  rw [getElem_vField, getElem_vField] at hv
  refine hv.trans ?_
  simp only [vecWrite, Nat.zero_div, Nat.zero_add, Nat.sub_zero, Nat.reduceAdd, Nat.reduceDiv, ofNat_splice_whole]

theorem CellOut.MakesLanes.lane_eq {j : Nat} (hj : j < lanes w) :
    (((o.onCell c).v[d.toNat]).bits).extractLsb' (w * j) w = BitVec.ofNat w (e j).val := by
  have hfit : w * j + w ≤ 4096 := by
    calc w * j + w = w * (j + 1) := (Nat.mul_succ w j).symm
      _ ≤ w * (4096 / w) := Nat.mul_le_mul_left w hj
      _ ≤ 4096 := Nat.mul_div_le 4096 w
  have hlen : j < ((List.range (lanes w)).map e).length := by simpa using hj
  rw [h.v_eq, ← ofNat_splice_whole (BitVec.toNat (0 : BitVec 4096)), extract_splice_inside _ _ _ _ _ _ (Nat.zero_le _) (by omega) hfit]
  refine BitVec.eq_of_toNat_eq ?_
  rw [BitVec.toNat_ofNat, BitVec.toNat_ofNat, packVals_lane w _ hlen]
  simp

theorem CellOut.MakesLanes.poi_eq_zero (hclean : ∀ j, (e j).marks = 0) : ((o.onCell c).v[d.toNat]).poi = 0 := by
  have hzero : packPois w 0 ((List.range (lanes w)).map e) = 0 := packPois_eq_zero w (by simpa using fun j _ => hclean j) 0
  rw [h.v_eq, hzero]
  rfl

/-- A lane with every mark set marks each byte that it touches. -/
theorem CellOut.MakesLanes.poi_lane (hw : w = 4 ∨ w = 8 ∨ w = 16 ∨ w = 32) {j k : Nat} (hj : j < lanes w) (hk : LaneByte w j k)
    (hmarks : (e j).marks = 2 ^ ((w + 7) / 8) - 1) : (((o.onCell c).v[d.toNat]).poi).getLsbD k = true := by
  have hlast : k < 512 := by
    obtain ⟨-, hhi⟩ := hk
    have : w * (j + 1) ≤ 4096 := (Nat.mul_le_mul_left w hj).trans (Nat.mul_div_le 4096 w)
    omega
  obtain ⟨b, hb, rfl⟩ := hk.offset hw
  have hmark : (((List.range (lanes w)).map e)[j]'(by simpa using hj)).marks.testBit b = true := by
    rw [List.getElem_map, List.getElem_range, hmarks, Nat.testBit_two_pow_sub_one, decide_eq_true hb]
  have hbit := testBit_packPois w _ (j := 0) _ hmark
  rw [Nat.zero_add] at hbit
  rw [h.v_eq, BitVec.getLsbD_ofNat, decide_eq_true hlast, hbit, Bool.and_self]

omit c in
theorem CellOut.MakesLanes.events {j b : Nat} (hj : j < lanes w) (hb : (e j).ev.testBit b = true) : o.events.testBit b = true := by
  obtain ⟨reads, rfl⟩ := h
  exact testBit_eltEvents (List.mem_map_of_mem (List.mem_range.mpr hj)) hb

end

/-! ### Element-wise operations -/

/-- A vector register of a cell, as bits and marks. -/
def State.vbits (s : State) (i : Nat) (r : BitVec 5) : Bits := ⟨((s.ctx.cell i).v[r.toNat]).bits.toNat, ((s.ctx.cell i).v[r.toNat]).poi.toNat⟩

theorem eltVal_vbits (s : State) (i : Nat) (r : BitVec 5) (w j : Nat) : eltVal (s.vbits i r) w j = (s.lane i r w j).toNat := by
  rw [State.lane, BitVec.extractLsb'_toNat, Nat.shiftRight_eq_div_pow]
  rfl

theorem State.elt_clean {s : State} {p : Bool} (h : p = false) (i j w : Nat) (r : Nat × Nat) : s.elt i j w p r = ⟨r.1, 0, r.2⟩ := by
  rw [State.elt, h]
  rfl

/-- Poison replaces the value, marks the whole element, and is the element's one event (R128). -/
theorem State.elt_poisoned {s : State} {p : Bool} (h : p = true) (i j w : Nat) (r : Nat × Nat) :
    (s.elt i j w p r).marks = 2 ^ ((w + 7) / 8) - 1 ∧ (s.elt i j w p r).ev = evPsn := by
  rw [State.elt, if_pos h]
  exact ⟨rfl, rfl⟩

theorem w0Cell_legal {w : W0} {spans : List Span} {legal : Fmt → Bool} {act : Fmt → CellOp} {f : Fmt} (hf : w.fmt = some f)
    (hl : legal f = true) (s : State) (i : Nat) : w0Cell w spans legal act s i = act f s i := by
  simp only [w0Cell, hf, hl, if_true]

section
variable {s m : State} (hm : OnlyWave s m) (hsrc : s.src = s.ctx) (hpend : s.ctx.pend = []) (w : W0) (f : Fmt) (c : Nat)
include hm

omit w f in
theorem elt_of_onlyWave (j n : Nat) (p : Bool) (r : Nat × Nat) : m.elt c j n p r = s.elt c j n p r := by
  rw [hm]
  rfl

include hsrc hpend

omit w f in
theorem vreg_eq_vbits (r : BitVec 5) (n : Nat) : m.vreg c r.toNat n = s.vbits c r := vreg_of_onlyWave hm hsrc hpend c r n

theorem eltwise1_makesLanes (g : Nat → Nat × Nat) : (eltwise1 w f g m c).MakesLanes c w.d.toNat f.width (fun j =>
    s.elt c j f.width (eltPoi (s.vbits c w.a) f.width j) (g (s.lane c w.a f.width j).toNat)) := by
  refine ⟨[vName c w.a.toNat], ?_⟩
  simp only [eltwise1, vreg_eq_vbits hm hsrc hpend, elt_of_onlyWave hm, eltVal_vbits]

theorem eltwise2_makesLanes (g : Nat → Nat → Nat × Nat) : (eltwise2 w f g m c).MakesLanes c w.d.toNat f.width (fun j =>
    s.elt c j f.width (eltPoi (s.vbits c w.a) f.width j || eltPoi (s.vbits c w.b) f.width j)
      (g (s.lane c w.a f.width j).toNat (s.lane c w.b f.width j).toNat)) := by
  refine ⟨[vName c w.a.toNat, vName c w.b.toNat], ?_⟩
  simp only [eltwise2, vreg_eq_vbits hm hsrc hpend, elt_of_onlyWave hm, eltVal_vbits]

theorem eltwise3_makesLanes (g : Nat → Nat → Nat → Nat × Nat) : (eltwise3 w f g m c).MakesLanes c w.d.toNat f.width (fun j =>
    s.elt c j f.width (eltPoi (s.vbits c w.a) f.width j || eltPoi (s.vbits c w.b) f.width j || eltPoi (s.vbits c w.d) f.width j)
      (g (s.lane c w.a f.width j).toNat (s.lane c w.b f.width j).toNat (s.lane c w.d f.width j).toNat)) := by
  refine ⟨[vName c w.a.toNat, vName c w.b.toNat, vName c w.d.toNat], ?_⟩
  simp only [eltwise3, vreg_eq_vbits hm hsrc hpend, elt_of_onlyWave hm, eltVal_vbits]

end

/-! ### Runs of the W0 slot -/

/-- The machine after a W0 operation without LAT. -/
def State.afterW0 (s : State) (i : Instr) (op : CellOp) : State := (s.runWave 0 none false op).stickW0 (some i)

theorem runW0_eq (i : Instr) (op : CellOp) (s : State) : runW0 i none op s = .next (s.afterW0 i op) := rfl

/-- An enabled cell of an operation in format `f`, where nothing is outstanding and no two slots name one register. -/
structure VectorRun (s : State) (w : W0) (f : Fmt) (c : Nat) : Prop where
  src : s.src = s.ctx
  pend : s.ctx.pend = []
  conflict : s.wave.conflict = []
  cell : c < s.ctx.cells.length
  enabled : s.enabled c = true
  fmt : w.fmt = some f

section
variable {s : State} {w : W0} {f : Fmt} {c : Nat} (h : VectorRun s w f c)
include h

/-- What the part of the cell makes, it is after the run. -/
theorem VectorRun.cell_afterW0 {i : Instr} {op : CellOp} {d : BitVec 5} {n : Nat} {e : Nat → Elt} (hin : op.Into [vReg w.d.toNat])
    (hop : ∀ m, OnlyWave s m → (op m c).MakesLanes c d.toNat n e) :
    ∃ o : CellOut, o.MakesLanes c d.toNat n e ∧ (s.afterW0 i op).ctx.cell c = o.onCell (s.ctx.cell c) := by
  obtain ⟨m, hm, -, hcell⟩ := runWave_cell (slot := 0) (accum := false) hin.within h.src h.conflict h.cell h.enabled
  exact ⟨op m c, hop m hm, hcell⟩

variable {spans : List Span} {legal : Fmt → Bool} (hl : legal f = true) {m : State} (hm : OnlyWave s m)
include hl hm

theorem VectorRun.makesLanes1 (g : Fmt → Nat → Nat × Nat) : (w0Cell w spans legal (fun f => eltwise1 w f (g f)) m c).MakesLanes c w.d.toNat f.width
    (fun j => s.elt c j f.width (eltPoi (s.vbits c w.a) f.width j) (g f (s.lane c w.a f.width j).toNat)) := by
  rw [w0Cell_legal h.fmt hl]
  exact eltwise1_makesLanes hm h.src h.pend w f c (g f)

theorem VectorRun.makesLanes2 (g : Fmt → Nat → Nat → Nat × Nat) :
    (w0Cell w spans legal (fun f => eltwise2 w f (g f)) m c).MakesLanes c w.d.toNat f.width (fun j =>
      s.elt c j f.width (eltPoi (s.vbits c w.a) f.width j || eltPoi (s.vbits c w.b) f.width j)
        (g f (s.lane c w.a f.width j).toNat (s.lane c w.b f.width j).toNat)) := by
  rw [w0Cell_legal h.fmt hl]
  exact eltwise2_makesLanes hm h.src h.pend w f c (g f)

theorem VectorRun.makesLanes3 (g : Fmt → Nat → Nat → Nat → Nat × Nat) :
    (w0Cell w spans legal (fun f => eltwise3 w f (g f)) m c).MakesLanes c w.d.toNat f.width (fun j =>
      s.elt c j f.width (eltPoi (s.vbits c w.a) f.width j || eltPoi (s.vbits c w.b) f.width j || eltPoi (s.vbits c w.d) f.width j)
        (g f (s.lane c w.a f.width j).toNat (s.lane c w.b f.width j).toNat (s.lane c w.d f.width j).toNat)) := by
  rw [w0Cell_legal h.fmt hl]
  exact eltwise3_makesLanes hm h.src h.pend w f c (g f)

end

end Sys2Proof.Machine
end

section
/-! # Integer lanes

What the arithmetic, the logic and the shifts of W0 make of an integer lane (R111, R136, R137). -/

namespace Sys2Proof.Machine

/-! ### Exact integers as codes -/

section
variable {n : Nat} (sg : Bool)

/-- The number that a lane stands for. -/
def laneInt (x : BitVec n) : Int := if sg then x.toInt else x.toNat

/-- An exact integer put in a lane: modulo 2^n, or clamped (R111). -/
def laneOf (n : Nat) (sg sat : Bool) (x : Int) : BitVec n :=
  if sat then
    if sg then BitVec.ofInt n (max (-(2 ^ (n - 1))) (min (2 ^ (n - 1) - 1) x)) else BitVec.ofInt n (max 0 (min (2 ^ n - 1) x))
  else BitVec.ofInt n x

theorem IFmt.value_toNat (x : BitVec n) : IFmt.value ⟨n, sg⟩ x.toNat = laneInt sg x := by
  have hlt := x.isLt
  rw [IFmt.value, laneInt, Nat.mod_eq_of_lt hlt]
  cases sg with
  | false => simp
  | true =>
    cases n with
    | zero => simp [BitVec.of_length_zero]
    | succ n =>
      have hnegative : 2 ^ n ≤ x.toNat ↔ ¬ 2 * x.toNat < 2 ^ (n + 1) := by
        rw [Nat.pow_succ']
        omega
      simp only [Bool.true_and, decide_eq_true_eq, if_true, Nat.add_sub_cancel, hnegative, ite_not, BitVec.toInt_eq_toNat_cond, Nat.cast_pow,
        Nat.cast_ofNat]

theorem IFmt.ofNat_wrap (x : Int) : BitVec.ofNat n (IFmt.wrap ⟨n, sg⟩ x) = BitVec.ofInt n x := by
  refine BitVec.eq_of_toNat_eq ?_
  have hpos : (0 : Int) < 2 ^ n := by positivity
  have hlt : (x % 2 ^ n).toNat < 2 ^ n := by
    have := Int.emod_lt_of_pos x hpos
    have := Int.emod_nonneg x hpos.ne'
    zify
    omega
  rw [BitVec.toNat_ofNat, BitVec.toNat_ofInt, IFmt.wrap, Nat.mod_eq_of_lt hlt]
  push_cast
  rfl

theorem clamp_eq_wrap {f : IFmt} (h : f.min ≤ f.max) (x : Int) : (f.clamp x).1 = f.wrap (max f.min (min f.max x)) := by
  rw [IFmt.clamp]
  split_ifs with hlow hhigh
  · rw [min_eq_right (by omega), max_eq_left (by omega)]
  · rw [min_eq_left (by omega), max_eq_right h]
  · rw [min_eq_right (by omega), max_eq_right (by omega)]

theorem fmt_min_le_max (n : Nat) : IFmt.min ⟨n, sg⟩ ≤ IFmt.max ⟨n, sg⟩ := by
  have hhalf : (0 : Int) < 2 ^ (n - 1) := by positivity
  have hall : (0 : Int) < 2 ^ n := by positivity
  unfold IFmt.min IFmt.max
  dsimp only
  split_ifs <;> omega

theorem IFmt.ofNat_put (sat : Bool) (x : Int) : BitVec.ofNat n (IFmt.put ⟨n, sg⟩ sat x).1 = laneOf n sg sat x := by
  cases sat with
  | false => exact IFmt.ofNat_wrap sg x
  | true =>
    rw [IFmt.put, if_pos rfl, clamp_eq_wrap (fmt_min_le_max sg n), IFmt.ofNat_wrap, laneOf, if_pos rfl]
    cases sg <;> rfl

theorem laneInt_injective {x y : BitVec n} (h : laneInt sg x = laneInt sg y) : x = y := by
  cases sg with
  | false => exact BitVec.eq_of_toNat_eq (Int.ofNat_inj.mp h)
  | true => exact BitVec.eq_of_toInt_eq h

end

/-! ### Operations on lanes -/

section
variable {n : Nat} (sg sat : Bool) (md : Mode) (x y z : BitVec n)

theorem fmtAdd_int : BitVec.ofNat n (fmtAdd (.int ⟨n, sg⟩) md sat x.toNat y.toNat).1 = laneOf n sg sat (laneInt sg x + laneInt sg y) := by
  rw [fmtAdd, IFmt.ofNat_put, IFmt.value_toNat, IFmt.value_toNat]

theorem fmtSub_int : BitVec.ofNat n (fmtSub (.int ⟨n, sg⟩) md sat x.toNat y.toNat).1 = laneOf n sg sat (laneInt sg x - laneInt sg y) := by
  rw [fmtSub, IFmt.ofNat_put, IFmt.value_toNat, IFmt.value_toNat]

theorem fmtMul_int : BitVec.ofNat n (fmtMul (.int ⟨n, sg⟩) md sat x.toNat y.toNat).1 = laneOf n sg sat (laneInt sg x * laneInt sg y) := by
  rw [fmtMul, IFmt.ofNat_put, IFmt.value_toNat, IFmt.value_toNat]

theorem fmtFma_int : BitVec.ofNat n (fmtFma (.int ⟨n, sg⟩) md sat false x.toNat y.toNat z.toNat).1 =
    laneOf n sg sat (laneInt sg z + laneInt sg x * laneInt sg y) := by
  rw [fmtFma, IFmt.ofNat_put, IFmt.value_toNat, IFmt.value_toNat, IFmt.value_toNat, if_neg Bool.false_ne_true, Int.add_comm]

theorem fmtFms_int : BitVec.ofNat n (fmtFma (.int ⟨n, sg⟩) md sat true x.toNat y.toNat z.toNat).1 =
    laneOf n sg sat (laneInt sg z - laneInt sg x * laneInt sg y) := by
  rw [fmtFma, IFmt.ofNat_put, IFmt.value_toNat, IFmt.value_toNat, IFmt.value_toNat, if_pos rfl]

theorem fmtAbs_int : BitVec.ofNat n (fmtAbs (.int ⟨n, sg⟩) md sat x.toNat).1 = laneOf n sg sat |laneInt sg x| := by
  rw [fmtAbs, IFmt.ofNat_put, IFmt.value_toNat]

theorem fmtNeg_int : BitVec.ofNat n (fmtNeg (.int ⟨n, sg⟩) md sat x.toNat).1 = laneOf n sg sat (-laneInt sg x) := by
  rw [fmtNeg, IFmt.ofNat_put, IFmt.value_toNat]

theorem fmtMin_int : BitVec.ofNat n (fmtMinMax (.int ⟨n, sg⟩) false x.toNat y.toNat).1 = if laneInt sg y < laneInt sg x then y else x := by
  simp only [fmtMinMax, IFmt.value_toNat, eq_iff_iff, iff_true]
  split_ifs <;> simp

/-- Where two lanes stand for one number, they are the same lane, whichever is taken. -/
theorem fmtMax_int : BitVec.ofNat n (fmtMinMax (.int ⟨n, sg⟩) true x.toNat y.toNat).1 = if laneInt sg x < laneInt sg y then y else x := by
  simp only [fmtMinMax, IFmt.value_toNat, eq_iff_iff, Bool.true_eq_false, iff_false, not_lt]
  rcases lt_trichotomy (laneInt sg x) (laneInt sg y) with h | h | h
  · rw [if_pos h.le, if_pos h, BitVec.ofNat_toNat, BitVec.setWidth_eq]
  · rw [if_pos h.le, if_neg h.not_lt, BitVec.ofNat_toNat, BitVec.setWidth_eq, laneInt_injective sg h]
  · rw [if_neg (not_le.mpr h), if_neg h.not_gt, BitVec.ofNat_toNat, BitVec.setWidth_eq]

theorem ofNat_toNat_and : BitVec.ofNat n (x.toNat &&& y.toNat) = x &&& y := by
  rw [← BitVec.toNat_and, BitVec.ofNat_toNat, BitVec.setWidth_eq]

theorem ofNat_toNat_or : BitVec.ofNat n (x.toNat ||| y.toNat) = x ||| y := by
  rw [← BitVec.toNat_or, BitVec.ofNat_toNat, BitVec.setWidth_eq]

theorem ofNat_toNat_xor : BitVec.ofNat n (x.toNat ^^^ y.toNat) = x ^^^ y := by
  rw [← BitVec.toNat_xor, BitVec.ofNat_toNat, BitVec.setWidth_eq]

theorem shlBits_lane (k : Nat) : BitVec.ofNat n (shlBits n x.toNat k) = x <<< k := by
  refine BitVec.eq_of_toNat_eq ?_
  rw [shlBits, BitVec.toNat_ofNat, Nat.mod_mod, BitVec.toNat_shiftLeft, Nat.shiftLeft_eq]

theorem shrBits_lane (k : Nat) : BitVec.ofNat n (shrBits n x.toNat k) = x >>> k := by
  rw [shrBits, ofNat_div_two_pow]
  refine BitVec.eq_of_toNat_eq ?_
  rw [BitVec.extractLsb'_toNat, BitVec.toNat_ushiftRight, Nat.mod_eq_of_lt]
  exact (Nat.shiftRight_le ..).trans_lt x.isLt

theorem sraBits_lane (k : Nat) : BitVec.ofNat n (sraBits n x.toNat k) = x.sshiftRight k := by
  rw [sraBits, IFmt.value_toNat, BitVec.sshiftRight, Int.shiftRight_eq_div_pow]
  exact_mod_cast IFmt.ofNat_wrap true (x.toInt / 2 ^ k)

end

/-! ### What an instruction gives -/

/-- Lane `j` of vector register `d` becomes `v`, and no byte of the register is marked. -/
def State.Gives (s : State) (c : Nat) (d : BitVec 5) {n : Nat} (j : Nat) (i : Instr) (v : BitVec n) : Prop :=
  ∃ t, exec i s = .next t ∧ t.lane c d n j = v ∧ t.unmarked c d

/-- The circumstances of O34: an integer format, and clean operands. -/
structure CleanInts (s : State) (w : W0) (c n : Nat) (sg : Bool) : Prop extends VectorRun s w (.int ⟨n, sg⟩) c where
  a : s.unmarked c w.a
  b : s.unmarked c w.b
  d : s.unmarked c w.d

theorem eltPoi_unmarked {s : State} {c : Nat} {r : BitVec 5} (h : s.unmarked c r) (n j : Nat) : eltPoi (s.vbits c r) n j = false := by
  have hpoi : ((s.ctx.cell c).v[r.toNat]).poi = 0 := h
  have hmarks : (s.vbits c r).poi = 0 := by simp only [State.vbits, hpoi, BitVec.ofNat_eq_ofNat, BitVec.toNat_zero]
  exact eltPoi_of_clean hmarks n j

section
variable {s : State} {w : W0} {c n j : Nat} {sg : Bool} {i : Instr} {legal : Fmt → Bool} {v : BitVec n} (h : CleanInts s w c n sg)
  (hj : j < lanes n)
include h hj

/-- A run whose part of the cell computes lanes from unpoisoned operands. -/
theorem CleanInts.gives {op : CellOp} {p : Nat → Bool} {r : Nat → Nat × Nat} (hexec : exec i s = runW0 i none op s)
    (hin : op.Into [vReg w.d.toNat]) (hop : ∀ m, OnlyWave s m → (op m c).MakesLanes c w.d.toNat n (fun k => s.elt c k n (p k) (r k)))
    (hclean : ∀ k, p k = false) (hv : BitVec.ofNat n (r j).1 = v) : s.Gives c w.d j i v := by
  obtain ⟨o, ho, hcell⟩ := h.cell_afterW0 (i := i) hin hop
  refine ⟨s.afterW0 i op, hexec, ?_, ?_⟩
  · rw [State.lane, hcell, ho.lane_eq _ hj, State.elt_clean (hclean j), hv]
  · rw [State.unmarked, hcell, ho.poi_eq_zero _ fun k => by rw [State.elt_clean (hclean k)]]

variable (hl : legal (.int ⟨n, sg⟩) = true)
include hl

theorem CleanInts.gives_eltwise1 {g : Fmt → Nat → Nat × Nat}
    (hexec : exec i s = runW0 i none (w0Cell w (vSpan w.d.toNat) legal fun f => eltwise1 w f (g f)) s)
    (hv : BitVec.ofNat n (g (.int ⟨n, sg⟩) (s.lane c w.a n j).toNat).1 = v) : s.Gives c w.d j i v :=
  h.gives hj hexec (w0Cell_into_vec fun f => eltwise1_into w f _)
    (fun _ hm => h.makesLanes1 hl hm g) (fun k => eltPoi_unmarked h.a n k) hv

theorem CleanInts.gives_eltwise2 {g : Fmt → Nat → Nat → Nat × Nat}
    (hexec : exec i s = runW0 i none (w0Cell w (vSpan w.d.toNat) legal fun f => eltwise2 w f (g f)) s)
    (hv : BitVec.ofNat n (g (.int ⟨n, sg⟩) (s.lane c w.a n j).toNat (s.lane c w.b n j).toNat).1 = v) : s.Gives c w.d j i v :=
  h.gives hj hexec (w0Cell_into_vec fun f => eltwise2_into w f _)
    (fun _ hm => h.makesLanes2 hl hm g)
    (fun k => Bool.or_eq_false_iff.mpr ⟨eltPoi_unmarked h.a n k, eltPoi_unmarked h.b n k⟩) hv

theorem CleanInts.gives_eltwise3 {g : Fmt → Nat → Nat → Nat → Nat × Nat}
    (hexec : exec i s = runW0 i none (w0Cell w (vSpan w.d.toNat) legal fun f => eltwise3 w f (g f)) s)
    (hv : BitVec.ofNat n (g (.int ⟨n, sg⟩) (s.lane c w.a n j).toNat (s.lane c w.b n j).toNat (s.lane c w.d n j).toNat).1 = v) :
    s.Gives c w.d j i v :=
  h.gives hj hexec (w0Cell_into_vec fun f => eltwise3_into w f _)
    (fun _ hm => h.makesLanes3 hl hm g)
    (fun k => Bool.or_eq_false_iff.mpr
      ⟨Bool.or_eq_false_iff.mpr ⟨eltPoi_unmarked h.a n k, eltPoi_unmarked h.b n k⟩, eltPoi_unmarked h.d n k⟩) hv

end

/-! ### Arithmetic (R136) -/

theorem W0.fmt_int {w : W0} (h : w.typ.toNat < 8) : w.fmt = some (.int ⟨4 * 2 ^ (w.typ.toNat % 4), decide (w.typ.toNat < 4)⟩) := by
  rw [W0.fmt, fmtOf]
  split_ifs with h4
  · rw [Nat.mod_eq_of_lt h4, decide_eq_true h4]
  · rw [decide_eq_false h4, show w.typ.toNat % 4 = w.typ.toNat - 4 by omega]

/-- Without an encoded rounding or unused field, arithmetic is legal in every format, with .sat or without. -/
theorem varOk_arith {w : W0} (h : w.var = 0 ∨ w.var = 16) (f : Fmt) : w.varOk f true true 0 = true := by
  rcases h with h | h <;> simp [W0.varOk, W0.low, h]

theorem varOk_zero {w : W0} (h : w.var = 0) (f : Fmt) (sat rounds : Bool) (low : Nat) : w.varOk f sat rounds low = true := by
  simp [W0.varOk, W0.sat, W0.low, h]

theorem varOk_one {w : W0} (h : w.var = 1) (f : Fmt) (sat rounds : Bool) : w.varOk f sat rounds 1 = true := by
  simp [W0.varOk, W0.sat, W0.low, h]

section
variable {s : State} {w : W0} {c n j : Nat} {sg : Bool} (h : CleanInts s w c n sg) (hj : j < lanes n)
include h hj

theorem CleanInts.gives_arith (hvar : w.var = 0 ∨ w.var = 16) :
    let val := laneInt sg (n := n)
    let fit := laneOf n sg w.sat
    let a := s.lane c w.a n j
    let b := s.lane c w.b n j
    let d := s.lane c w.d n j
    s.Gives c w.d j (.vadd w) (fit (val a + val b)) ∧ s.Gives c w.d j (.vsub w) (fit (val a - val b)) ∧
      s.Gives c w.d j (.vmul w) (fit (val a * val b)) ∧ s.Gives c w.d j (.vfma w) (fit (val d + val a * val b)) ∧
      s.Gives c w.d j (.vfms w) (fit (val d - val a * val b)) ∧
      (w.b = 0 → s.Gives c w.d j (.vabs w) (fit |val a|) ∧ s.Gives c w.d j (.vneg w) (fit (-val a))) := by
  have hok (f : Fmt) : w.varOk f true true 0 = true := varOk_arith hvar f
  exact ⟨h.gives_eltwise2 hj (hok _) rfl (fmtAdd_int ..), h.gives_eltwise2 hj (hok _) rfl (fmtSub_int ..),
    h.gives_eltwise2 hj (hok _) rfl (fmtMul_int ..), h.gives_eltwise3 hj (hok _) rfl (fmtFma_int ..),
    h.gives_eltwise3 hj (hok _) rfl (fmtFms_int ..), fun hb =>
      ⟨h.gives_eltwise1 hj (by simp [hok, hb]) rfl (fmtAbs_int ..), h.gives_eltwise1 hj (by simp [hok, hb]) rfl (fmtNeg_int ..)⟩⟩

end

/-! ### Logic and shifts (R137) -/

theorem shift_eq_eltwise2 {w : W0} (hvar : w.var = 0) (g : Nat → Nat → Nat → Nat) : shift w g =
    w0Cell w (vSpan w.d.toNat) (fun f => f.isInt && w.varOk f false false 1)
      (fun f => eltwise2 w f (fun a b => (g f.width a (b % f.width), 0))) := by
  simp [shift, W0.low, hvar]

theorem shift_eq_eltwise1 {w : W0} (hvar : w.var = 1) (g : Nat → Nat → Nat → Nat) : shift w g =
    w0Cell w (vSpan w.d.toNat) (fun f => f.isInt && w.varOk f false false 1)
      (fun f => eltwise1 w f (fun a => (g f.width a (w.b.toNat % f.width), 0))) := by
  simp [shift, W0.low, hvar]

section
variable {s : State} {w : W0} {c n j : Nat} {sg : Bool} (h : CleanInts s w c n sg) (hj : j < lanes n) {i : Instr} {v : BitVec n}
include h hj

theorem CleanInts.gives_bitwise (hvar : w.var = 0) {g : Nat → Nat → Nat} (hexec : exec i s = runW0 i none (bitwise w g) s)
    (hv : BitVec.ofNat n (g (s.lane c w.a n j).toNat (s.lane c w.b n j).toNat) = v) : s.Gives c w.d j i v :=
  h.gives_eltwise2 hj (legal := fun f => f.isInt && w.varOk f false false 0) (varOk_zero hvar ..) (g := fun _ a b => (g a b, 0)) hexec hv

/-- A shift by the lanes of B. -/
theorem CleanInts.gives_shift_lanes (hvar : w.var = 0) {g : Nat → Nat → Nat → Nat} (hexec : exec i s = runW0 i none (shift w g) s)
    (hv : BitVec.ofNat n (g n (s.lane c w.a n j).toNat ((s.lane c w.b n j).toNat % n)) = v) : s.Gives c w.d j i v :=
  h.gives_eltwise2 hj (varOk_zero hvar ..) (hexec.trans (by rw [shift_eq_eltwise2 hvar])) hv

/-- A shift by the B field. -/
theorem CleanInts.gives_shift_field (hvar : w.var = 1) {g : Nat → Nat → Nat → Nat} (hexec : exec i s = runW0 i none (shift w g) s)
    (hv : BitVec.ofNat n (g n (s.lane c w.a n j).toNat (w.b.toNat % n)) = v) : s.Gives c w.d j i v :=
  h.gives_eltwise1 hj (varOk_one hvar ..) (hexec.trans (by rw [shift_eq_eltwise1 hvar])) hv

end

/-- Settles O34: the sources of an integer operation are clean, so its lanes are what the format's arithmetic gives. -/
theorem integerVectorResults : Obligations.IntegerVectorResults := by
  unfold Obligations.IntegerVectorResults
  intro s w c j n hsrc hpend hconf hc he htyp hn hj ha hb hd val a b d fit gives
  have h : CleanInts s w c n (decide (w.typ.toNat < 4)) := ⟨⟨hsrc, hpend, hconf, hc, he, hn ▸ W0.fmt_int htyp⟩, ha, hb, hd⟩
  have hval : val = laneInt (decide (w.typ.toNat < 4)) := by
    funext x
    simp only [val, laneInt, decide_eq_true_eq]
  rw [hval]
  refine ⟨fun hvar => ?_, fun hvar => ⟨?_, ?_, ?_, ?_, ?_, ?_, ?_, ?_⟩, fun hvar => ⟨?_, ?_, ?_⟩⟩
  · have hfit : fit = laneOf n (decide (w.typ.toNat < 4)) w.sat := by
      funext x
      rcases hvar with hvar | hvar <;> simp [fit, laneOf, W0.sat, hvar]
    rw [hfit]
    exact h.gives_arith hj hvar
  · exact h.gives_eltwise2 hj (varOk_zero hvar ..) rfl (fmtMin_int ..)
  · exact h.gives_eltwise2 hj (varOk_zero hvar ..) rfl (fmtMax_int ..)
  · exact h.gives_bitwise hj hvar rfl (ofNat_toNat_and ..)
  · exact h.gives_bitwise hj hvar rfl (ofNat_toNat_or ..)
  · exact h.gives_bitwise hj hvar rfl (ofNat_toNat_xor ..)
  · exact h.gives_shift_lanes hj hvar rfl (shlBits_lane ..)
  · exact h.gives_shift_lanes hj hvar rfl (shrBits_lane ..)
  · exact h.gives_shift_lanes hj hvar rfl (sraBits_lane ..)
  · exact h.gives_shift_field hj hvar rfl (shlBits_lane ..)
  · exact h.gives_shift_field hj hvar rfl (shrBits_lane ..)
  · exact h.gives_shift_field hj hvar rfl (sraBits_lane ..)

end Sys2Proof.Machine
end

section
/-! # Events of a wave operation

The event records that an operation without LAT puts on their way to the drip tray (R129, R132). -/

namespace Sys2Proof.Machine

/-- The record of one event of a cell in a slot, for the bundle at `addr` (R129). -/
def eventRecord (b i slot addr : Nat) : DripRec :=
  { count := 1, event := BitVec.ofNat 8 (b + 1), col := BitVec.ofNat 4 (colOf i), row := BitVec.ofNat 6 (rowOf i), slot := BitVec.ofNat 3 slot,
    addr := BitVec.ofNat 56 addr }

theorem mem_dripRecords {dtmask : Word} {b i ev : Nat} {evs : List (Nat × Nat)} (addr slot : Nat) (hb : b < 6) (hmask : dtmask.getLsbD b = true)
    (hmem : (i, ev) ∈ evs) (hev : ev.testBit b = true) : eventRecord b i slot addr ∈ dripRecords dtmask addr slot evs := by
  refine List.mem_flatMap.mpr ⟨b, List.mem_range.mpr hb, ?_⟩
  rw [if_pos hmask]
  exact List.mem_map.mpr ⟨(i, ev), List.mem_filter.mpr ⟨hmem, hev⟩, rfl⟩

/-! ### Events of the cells so far -/

theorem runCell_evs (slot : Nat) (late : Bool) (op : CellOp) (a : WaveAcc) (i : Nat) : (runCell slot late op a i).evs =
    if a.s.enabled i = true ∧ (op a.s i).events ≠ 0 then a.evs ++ [(i, (op a.s i).events)] else a.evs := by
  by_cases he : a.s.enabled i = true <;> by_cases h0 : (op a.s i).events = 0 <;> simp [runCell, he, h0]

theorem evs_subset_runCell (slot : Nat) (late : Bool) (op : CellOp) (a : WaveAcc) (i : Nat) : a.evs ⊆ (runCell slot late op a i).evs := by
  rw [runCell_evs]
  split
  · exact List.subset_append_left ..
  · exact List.Subset.refl _

theorem mem_evs_runCell (slot : Nat) (late : Bool) {op : CellOp} {a : WaveAcc} {i : Nat} (he : a.s.enabled i = true) (h0 : (op a.s i).events ≠ 0) :
    (i, (op a.s i).events) ∈ (runCell slot late op a i).evs := by
  rw [runCell_evs, if_pos ⟨he, h0⟩]
  exact List.mem_append_right _ (List.mem_singleton_self _)

theorem waveSoFar_evs_subset (s : State) (slot : Nat) (op : CellOp) {n k : Nat} (hnk : n ≤ k) :
    (s.waveSoFar slot op n).evs ⊆ (s.waveSoFar slot op k).evs := by
  induction k, hnk using Nat.le_induction with
  | base => exact List.Subset.refl _
  | succ k _ ih =>
    rw [waveSoFar_succ]
    exact List.Subset.trans ih (evs_subset_runCell ..)

section
variable {rs : List CellReg} {op : CellOp} {s : State} {slot : Nat} (h : op.Within rs)
include h

/-- Records fall due 34 cycles and the chain's latency after the issue. -/
theorem runWave_dripFlights (accum : Bool) (hrecs : dripRecords s.src.dtmask s.src.pc slot (s.waveSoFar slot op s.cellCount).evs ≠ []) :
    (s.runWave slot none accum op).ctx.dripFlights = s.ctx.dripFlights ++
      [{ due := s.ctx.cycle + 34 + s.ctx.chainC, recs := dripRecords s.src.dtmask s.src.pc slot (s.waveSoFar slot op s.cellCount).evs }] := by
  have honly := waveSoFar_only (s := s) (slot := slot) h s.cellCount
  have hflights : (s.waveSoFar slot op s.cellCount).s.ctx.dripFlights = s.ctx.dripFlights :=
    (waveSoFar_step (s := s) (slot := slot) h (Nat.zero_le s.cellCount)).flights
  have hcycle : (s.waveSoFar slot op s.cellCount).s.ctx.cycle = s.ctx.cycle := by rw [honly]
  have hchain : (s.waveSoFar slot op s.cellCount).s.ctx.chainC = s.ctx.chainC := by rw [honly]; rfl
  have hempty : ¬ (dripRecords s.src.dtmask s.src.pc slot (s.waveSoFar slot op s.cellCount).evs).isEmpty = true := by
    rwa [List.isEmpty_iff]
  rw [← hflights, ← hcycle, ← hchain]
  exact congrArg Context.dripFlights (if_neg hempty)

/-- A cell whose part raises an event that DTMASK lets through has its record under way. -/
theorem runWave_record {accum : Bool} {c b : Nat} (hsrc : s.src = s.ctx) (hc : c < s.ctx.cells.length) (he : s.enabled c = true) (hb : b < 6)
    (hmask : s.ctx.dtmask.getLsbD b = true) (hev : ∀ m, OnlyWave s m → (op m c).events.testBit b = true) :
    ∃ l, (s.runWave slot none accum op).ctx.dripFlights = s.ctx.dripFlights ++ [l] ∧ l.due = s.ctx.cycle + 34 + s.ctx.chainC ∧
      eventRecord b c slot s.ctx.pc ∈ l.recs := by
  have hcount : c + 1 ≤ s.cellCount := by rw [State.cellCount, hsrc]; exact hc
  have hbit := hev _ (waveSoFar_only (s := s) (slot := slot) h c)
  have hne : (op (s.waveSoFar slot op c).s c).events ≠ 0 := fun h0 => by
    rw [h0, Nat.zero_testBit] at hbit
    exact absurd hbit (by decide)
  have henabled : (s.waveSoFar slot op c).s.enabled c = true := ((waveSoFar_step h (Nat.zero_le c)).enabled c).trans he
  have hmem : (c, _) ∈ (s.waveSoFar slot op (c + 1)).evs := waveSoFar_succ s slot op c ▸ mem_evs_runCell slot false henabled hne
  have hrec := mem_dripRecords s.src.pc slot hb (hsrc ▸ hmask) (waveSoFar_evs_subset s slot op hcount hmem) hbit
  refine ⟨_, runWave_dripFlights h accum (List.ne_nil_of_mem hrec), rfl, ?_⟩
  rw [hsrc] at hrec
  rw [hsrc]
  exact hrec

end

end Sys2Proof.Machine
end

section
/-! # Poison in lanes

A lane computed from a poisoned lane is poisoned, and its cell records the event (R127 to R129, R132). -/

namespace Sys2Proof.Machine

/-- Lane `j` of a vector register has a marked byte. -/
def State.Struck (s : State) (c w j : Nat) (r : BitVec 5) : Prop := ∃ k, LaneByte w j k ∧ ((s.ctx.cell c).v[r.toNat]).poi.getLsbD k = true

theorem State.Struck.eltPoi {s : State} {c n j : Nat} {r : BitVec 5} (hn : n = 4 ∨ n = 8 ∨ n = 16 ∨ n = 32) (h : s.Struck c n j r) :
    eltPoi (s.vbits c r) n j = true := by
  obtain ⟨k, hk, hmark⟩ := h
  exact eltPoi_of_mark hn hk hmark

/-- What O38 says of an instruction: every byte of lane `j` of `d` is marked, and the event's record is under way. -/
def State.Poisons (s : State) (c n j : Nat) (d : BitVec 5) (i : Instr) : Prop :=
  ∃ t, exec i s = .next t ∧ (∀ k, LaneByte n j k → ((t.ctx.cell c).v[d.toNat]).poi.getLsbD k = true) ∧
    (s.ctx.dtmask.getLsbD 4 = true → c < 1024 →
      ∃ l, t.ctx.dripFlights = s.ctx.dripFlights ++ [l] ∧ l.due = s.ctx.cycle + 34 + s.ctx.chainC ∧ eventRecord 4 c 0 s.ctx.pc ∈ l.recs)

/-- The circumstances of O38: no VAR bit set, and a lane of the format. -/
structure PlainVector (s : State) (w : W0) (f : Fmt) (c j : Nat) : Prop extends VectorRun s w f c where
  var : w.var = 0
  lane : j < lanes f.width

section
variable {s : State} {w : W0} {f : Fmt} {c j : Nat} {i : Instr} (h : PlainVector s w f c j)
include h

/-- A run whose part of the cell computes lane `j` from a poisoned operand. -/
theorem PlainVector.poisons {op : CellOp} {p : Nat → Bool} {r : Nat → Nat × Nat} (hexec : exec i s = runW0 i none op s)
    (hin : op.Into [vReg w.d.toNat])
    (hop : ∀ m, OnlyWave s m → (op m c).MakesLanes c w.d.toNat f.width (fun k => s.elt c k f.width (p k) (r k)))
    (hp : p j = true) : s.Poisons c f.width j w.d i := by
  obtain ⟨hmarks, hev⟩ := State.elt_poisoned (s := s) hp c j f.width (r j)
  obtain ⟨o, ho, hcell⟩ := h.cell_afterW0 (i := i) hin hop
  refine ⟨s.afterW0 i op, hexec, fun k hk => ?_, fun hmask _ => ?_⟩
  · rw [hcell]
    exact ho.poi_lane _ (fmtOf_width h.fmt) h.lane hk hmarks
  · refine runWave_record (slot := 0) (accum := false) hin.within h.src h.cell h.enabled (by decide) hmask fun m hm => ?_
    refine (hop m hm).events h.lane ?_
    rw [hev]
    decide

theorem PlainVector.poisons_eltwise2 {g : Fmt → Nat → Nat → Nat × Nat}
    (hexec : exec i s = runW0 i none (w0Cell w (vSpan w.d.toNat) (fun f => w.varOk f true true 0) fun f => eltwise2 w f (g f)) s)
    (hstruck : s.Struck c f.width j w.a ∨ s.Struck c f.width j w.b) : s.Poisons c f.width j w.d i := by
  refine h.poisons hexec (w0Cell_into_vec fun f => eltwise2_into w f _)
    (fun _ hm => h.makesLanes2 (varOk_zero h.var ..) hm g) ?_
  exact Bool.or_eq_true_iff.mpr (hstruck.imp (State.Struck.eltPoi (fmtOf_width h.fmt)) (State.Struck.eltPoi (fmtOf_width h.fmt)))

theorem PlainVector.poisons_eltwise3 {g : Fmt → Nat → Nat → Nat → Nat × Nat}
    (hexec : exec i s = runW0 i none (w0Cell w (vSpan w.d.toNat) (fun f => w.varOk f true true 0) fun f => eltwise3 w f (g f)) s)
    (hstruck : s.Struck c f.width j w.a ∨ s.Struck c f.width j w.b ∨ s.Struck c f.width j w.d) : s.Poisons c f.width j w.d i := by
  have poisoned {r : BitVec 5} : s.Struck c f.width j r → eltPoi (s.vbits c r) f.width j = true := State.Struck.eltPoi (fmtOf_width h.fmt)
  refine h.poisons hexec (w0Cell_into_vec fun f => eltwise3_into w f _)
    (fun _ hm => h.makesLanes3 (varOk_zero h.var ..) hm g) ?_
  rw [Bool.or_assoc, Bool.or_eq_true, Bool.or_eq_true]
  exact hstruck.imp poisoned (Or.imp poisoned poisoned)

end

/-- Settles O38: a struck lane makes the element poisoned, whatever the operation would have made of it. -/
theorem poisonedLanesPropagate : Obligations.PoisonedLanesPropagate := by
  unfold Obligations.PoisonedLanesPropagate
  intro s w f c j hsrc hpend hconf hc he hfmt hvar hj _ inLane struck i hi
  have h : PlainVector s w f c j := ⟨⟨hsrc, hpend, hconf, hc, he, hfmt⟩, hvar, hj⟩
  show s.Poisons c f.width j w.d i
  rcases hi with ⟨rfl | rfl | rfl, hab⟩ | ⟨rfl | rfl, habd⟩
  · exact h.poisons_eltwise2 rfl hab
  · exact h.poisons_eltwise2 rfl hab
  · exact h.poisons_eltwise2 rfl hab
  · exact h.poisons_eltwise3 rfl habd
  · exact h.poisons_eltwise3 rfl habd

end Sys2Proof.Machine
end

section
/-! # Mask registers, and vector registers written in part

What a write of a mask register, of a block of lanes or of a copy leaves in the register (R133), and the bits that an operation of W0
makes of a mask register. -/

namespace Sys2Proof.Machine

/-! ### Bits of numbers -/

theorem testBit_packVals_one (l : List Elt) (k : Nat) : (packVals 1 l).testBit k = l[k]?.any (·.val.testBit 0) := by
  induction l generalizing k with
  | nil => simp [packVals]
  | cons e l ih =>
    cases k with
    | zero => simp [packVals, Nat.testBit_zero]
    | succ k =>
      have htail : packVals 1 (e :: l) / 2 = packVals 1 l := by
        rw [packVals]
        omega
      rw [Nat.testBit_succ, htail, ih, List.getElem?_cons_succ]

theorem eltVal_one (b : Bits) (k : Nat) : eltVal b 1 k = (b.val.testBit k).toNat := by
  rw [eltVal, Nat.toNat_testBit, Nat.one_mul, Nat.pow_one]

theorem toNat_mod_two_beq_one (b : Bool) : (b.toNat % 2 == 1) = b := by cases b <;> rfl

/-- ANY of the lowest bits. -/
theorem mod_two_pow_ne_zero_iff (x n : Nat) : x % 2 ^ n ≠ 0 ↔ ∃ k < n, x.testBit k = true := by
  constructor
  · intro h
    obtain ⟨k, hk⟩ := Nat.exists_testBit_of_ne_zero h
    rw [Nat.testBit_mod_two_pow, Bool.and_eq_true, decide_eq_true_eq] at hk
    exact ⟨k, hk⟩
  · rintro ⟨k, hk, hbit⟩ h0
    have := Nat.testBit_mod_two_pow x n k
    simp [h0, hk, hbit] at this

/-- ALL of the lowest bits. -/
theorem mod_two_pow_eq_ones_iff (x n : Nat) : x % 2 ^ n = 2 ^ n - 1 ↔ ∀ k < n, x.testBit k = true := by
  constructor
  · intro h k hk
    have := Nat.testBit_mod_two_pow x n k
    simpa [h, hk] using this.symm
  · intro h
    refine Nat.eq_of_testBit_eq fun k => ?_
    rw [Nat.testBit_mod_two_pow, Nat.testBit_two_pow_sub_one]
    by_cases hk : k < n
    · simp [hk, h k hk]
    · simp [hk]

/-! ### Registers after a write -/

/-- VPERM's write: `len` lanes of `n` bits that replace those from lane `k` on. -/
def laneBlock (i d n k len : Nat) (l : List Elt) : CellWrite :=
  { cell := i, reg := .v (Fin.ofNat 32 d), lo := n * k, len := n * len, val := packVals n l * 2 ^ (n * k), poi := packPois n k l }

/-- VMOV's write: a vector register whole. -/
def vCopy (i d : Nat) (b : Bits) : CellWrite := { cell := i, reg := .v (Fin.ofNat 32 d), lo := 0, len := 4096, val := b.val, poi := b.poi }

section
variable (c : CellState)

theorem CellState.g_write {w : CellWrite} {n : Fin 8} (h : w.reg = .g n) : (c.write w).g[n] =
    { bits := BitVec.ofNat _ (splice c.g[n].bits.toNat w.lo w.len w.val),
      poi := BitVec.ofNat _ (splice c.g[n].poi.toNat w.lo w.len w.poi) } := by
  simp [CellState.write, CellWrite.onto, h, CellState.set, CellState.get, CellReg.marks]

/-- A mask register written from elements: their bits, and zero above them (R133). -/
theorem CellState.bit_write_maskWrite (i d : Nat) {l : List Elt} (hl : l.length ≤ 1024) (k : Nat) :
    ((c.write (maskWrite i d l)).g[Fin.ofNat 8 d]).bits.getLsbD k = l[k]?.any (·.val.testBit 0) := by
  have hval : (maskWrite i d l).val = packVals 1 l := rfl
  rw [c.g_write (w := maskWrite i d l) rfl, hval, show (maskWrite i d l).lo = 0 from rfl, show (maskWrite i d l).len = 1024 from rfl,
    ofNat_splice_whole, BitVec.getLsbD_ofNat, testBit_packVals_one]
  by_cases hk : k < 1024
  · rw [decide_eq_true hk, Bool.true_and]
  · rw [decide_eq_false hk, List.getElem?_eq_none (by omega)]
    rfl

theorem CellState.lane_write_laneBlock (i : Nat) (d : BitVec 5) {n k len j : Nat} {l : List Elt} (hl : l.length = len) (hj : j < len)
    (hfit : n * (k + j + 1) ≤ 4096) :
    (((c.write (laneBlock i d.toNat n k len l)).v[d.toNat]).bits).extractLsb' (n * (k + j)) n = BitVec.ofNat n (l[j]'(hl ▸ hj)).val := by
  have hv := c.v_write (w := laneBlock i d.toNat n k len l) rfl
  rw [getElem_vField, getElem_vField] at hv
  have hend : n * (k + j) + n ≤ n * k + n * len := by
    rw [← Nat.mul_succ, ← Nat.mul_add]
    exact Nat.mul_le_mul_left n (by omega)
  rw [hv, laneBlock, extract_splice_inside _ _ _ _ _ _ (Nat.mul_le_mul_left n (Nat.le_add_right k j)) hend (by rwa [Nat.mul_succ] at hfit),
    Nat.mul_add, Nat.pow_add, Nat.mul_comm (2 ^ (n * k)), Nat.mul_div_mul_right _ _ (Nat.two_pow_pos _)]
  refine BitVec.eq_of_toNat_eq ?_
  rw [BitVec.toNat_ofNat, BitVec.toNat_ofNat, packVals_lane n l (hl ▸ hj)]

/-- The register becomes a copy, marks and all. -/
theorem CellState.v_write_vCopy (i : Nat) (d : BitVec 5) (x : VReg) : (c.write (vCopy i d.toNat ⟨x.bits.toNat, x.poi.toNat⟩)).v[d.toNat] = x := by
  have hv := c.v_write (w := vCopy i d.toNat ⟨x.bits.toNat, x.poi.toNat⟩) rfl
  rw [getElem_vField, getElem_vField] at hv
  rw [hv]
  simp only [vCopy, Nat.zero_div, Nat.zero_add, Nat.sub_zero, Nat.reduceAdd, Nat.reduceDiv, ofNat_splice_whole, BitVec.ofNat_toNat,
    BitVec.setWidth_eq]

end

/-! ### Masks that an operation makes -/

/-- A cell's part writes `n` unpoisoned bits to its mask register `d`. -/
def CellOut.MakesMask (o : CellOut) (i : Nat) (d : BitVec 5) (n : Nat) (e : Nat → Bool) : Prop :=
  o.stored = none ∧ o.writes = [maskWrite i d.toNat ((List.range n).map fun k => ⟨(e k).toNat, 0, 0⟩)]

theorem CellOut.MakesMask.bit_eq {o : CellOut} {i n : Nat} {d : BitVec 5} {e : Nat → Bool} (h : o.MakesMask i d n e) (hn : n ≤ 1024) (c : CellState)
    (k : Nat) : ((o.onCell c).g[Fin.ofNat 8 d.toNat]).bits.getLsbD k = (decide (k < n) && e k) := by
  obtain ⟨hstored, hwrites⟩ := h
  rw [CellOut.onCell, hstored, hwrites]
  refine (c.bit_write_maskWrite i d.toNat (by simpa using hn) k).trans ?_
  by_cases hk : k < n
  · rw [decide_eq_true hk, Bool.true_and, List.getElem?_map, List.getElem?_range hk]
    simp [Nat.testBit_bool_toNat, -Nat.testBit_zero]
  · simp [hk]

/-- Bit `k` of a mask register of a cell. -/
def State.maskBit (s : State) (c : Nat) (g : BitVec 5) (k : Nat) : Bool := ((s.ctx.cell c).g[Fin.ofNat 8 g.toNat]).bits.getLsbD k

section
variable {s : State} {w : W0} {f : Fmt} {c : Nat} (h : VectorRun s w f c) {op : CellOp} {rs : List CellReg} (hin : op.Within rs) (i : Instr)
include h hin

theorem VectorRun.afterW0_cell : ∃ m, OnlyWave s m ∧ (s.afterW0 i op).ctx.cell c = (op m c).onCell (s.ctx.cell c) := by
  obtain ⟨m, hm, -, hcell⟩ := runWave_cell (slot := 0) (accum := false) hin h.src h.conflict h.cell h.enabled
  exact ⟨m, hm, hcell⟩

/-- A run whose part of the cell makes a mask. -/
theorem VectorRun.maskBit_afterW0 {d : BitVec 5} {n : Nat} {e : Nat → Bool} (hn : n ≤ 1024)
    (hop : ∀ m, OnlyWave s m → (op m c).MakesMask c d n e) (k : Nat) : (s.afterW0 i op).maskBit c d k = (decide (k < n) && e k) := by
  obtain ⟨m, hm, hcell⟩ := h.afterW0_cell hin i
  rw [State.maskBit, hcell, (hop m hm).bit_eq hn]

end

end Sys2Proof.Machine
end

section
/-! # Masks, selects and copies

What VCMP, VSEL, VMASK, VFLAG, VMOV, VMOVI, VBCST, VIOTA and VPERM make of a cell in the integer formats (R133, R138, R139, R146). -/

namespace Sys2Proof.Machine

/-! ### Clean masks -/

/-- The circumstances of O35: an integer format, and clean operands, masks included. -/
structure CleanMasks (s : State) (w : W0) (c n : Nat) (sg : Bool) : Prop extends CleanInts s w c n sg where
  masks : ∀ g : Fin 8, ((s.ctx.cell c).g[g]).poi = 0

theorem CleanInts.lanes_le {s : State} {w : W0} {c n : Nat} {sg : Bool} (h : CleanInts s w c n sg) : lanes n ≤ 1024 := by
  have hwidth : n = 4 ∨ n = 8 ∨ n = 16 ∨ n = 32 := fmtOf_width h.fmt
  rcases hwidth with rfl | rfl | rfl | rfl <;> decide

theorem Fmt.width_int (n : Nat) (sg : Bool) : (Fmt.int ⟨n, sg⟩).width = n := rfl

/-- VAR[1:0] alone is legal where all of its values are. -/
theorem varOk_low {w : W0} (hvar : w.var.toNat < 4) (f : Fmt) : w.varOk f false false 3 = true := by
  have hsat : w.sat = false := by
    rw [W0.sat, BitVec.getLsbD, Nat.testBit_lt_two_pow (by omega)]
  have hmode : w.var.toNat / 4 % 4 = 0 := by omega
  have hlow : w.low ≤ 3 := Nat.le_of_lt_succ (Nat.mod_lt _ (by decide))
  simp [W0.varOk, hsat, hmode, hlow]

/-- The value of an integer lane without marks. -/
theorem State.Gives.lane_eq {s : State} {c n j : Nat} {d : BitVec 5} {i : Instr} {v : BitVec n} (h : s.Gives c d j i v) :
    ∃ t, exec i s = .next t ∧ t.lane c d n j = v := by
  obtain ⟨t, hexec, hlane, -⟩ := h
  exact ⟨t, hexec, hlane⟩

section
variable {s m : State} {w : W0} {c n : Nat} {sg : Bool} (h : CleanMasks s w c n sg)
include h

section
variable (hm : OnlyWave s m) (g : BitVec 5)
include hm

theorem CleanMasks.testBit_greg (k : Nat) : (m.greg c g.toNat).val.testBit k = s.maskBit c g k := by
  rw [State.greg, State.cellReg_of_onlyWave hm h.src h.pend]
  exact BitVec.testBit_toNat _

theorem CleanMasks.poi_greg : (m.greg c g.toNat).poi = 0 := by
  rw [State.greg, State.cellReg_of_onlyWave hm h.src h.pend, CellState.get, h.masks, BitVec.ofNat_eq_ofNat, BitVec.toNat_zero]

end

/-! ### Masks and the flag (R138, R139) -/

/-- The conditions of VCMP. -/
def Compares (cc : Nat) (x y : Int) : Prop :=
  match cc with
  | 0 => x = y
  | 1 => x ≠ y
  | 2 => x < y
  | 3 => x ≤ y
  | 4 => y < x
  | _ => y ≤ x

omit h in
theorem holds_int (cc : Nat) (x y : BitVec n) : Fmt.holds (.int ⟨n, sg⟩) cc x.toNat y.toNat = true ↔ Compares cc (laneInt sg x) (laneInt sg y) := by
  simp only [Fmt.holds, Fmt.less, IFmt.value_toNat]
  match cc with
  | 0 =>
    simp only [Compares, Bool.and_eq_true, Bool.not_eq_true', decide_eq_false_iff_not]
    omega
  | 1 | 2 | 3 | 4 | _ + 5 => simp [Compares]

theorem CleanMasks.vcmp_makesMask (hm : OnlyWave s m) (hvar : w.var.toNat < 6) (hd : w.d.toNat < 8) : (cellVcmp w m c).MakesMask c w.d (lanes n)
    (fun k => Fmt.holds (.int ⟨n, sg⟩) w.var.toNat (s.lane c w.a n k).toNat (s.lane c w.b n k).toNat) := by
  rw [cellVcmp, w0Cell_legal h.fmt (by simp [hvar, hd])]
  refine ⟨rfl, ?_⟩
  simp only [vreg_eq_vbits hm h.src h.pend, eltPoi_unmarked h.a, eltPoi_unmarked h.b, Bool.or_self, State.elt_clean rfl, eltVal_vbits]
  rfl

theorem CleanMasks.maskBit_vcmp (hvar : w.var.toNat < 6) (hd : w.d.toNat < 8) (k : Nat) : (s.afterW0 (.vcmp w) (cellVcmp w)).maskBit c w.d k =
    (decide (k < lanes n) && Fmt.holds (.int ⟨n, sg⟩) w.var.toNat (s.lane c w.a n k).toNat (s.lane c w.b n k).toNat) :=
  h.maskBit_afterW0 (cellVcmp_into w).within _ h.lanes_le (fun _ hm => h.vcmp_makesMask hm hvar hd) k

theorem CleanMasks.compares_vcmp (hvar : w.var.toNat < 6) (hd : w.d.toNat < 8) {k : Nat} (hk : k < lanes n) :
    (s.afterW0 (.vcmp w) (cellVcmp w)).maskBit c w.d k = true ↔
      Compares w.var.toNat (laneInt sg (s.lane c w.a n k)) (laneInt sg (s.lane c w.b n k)) := by
  rw [h.maskBit_vcmp hvar hd, decide_eq_true hk, Bool.true_and, holds_int]

theorem CleanMasks.maskBit_vcmp_above (hvar : w.var.toNat < 6) (hd : w.d.toNat < 8) {k : Nat} (hk : lanes n ≤ k) :
    (s.afterW0 (.vcmp w) (cellVcmp w)).maskBit c w.d k = false := by
  rw [h.maskBit_vcmp hvar hd, decide_eq_false (not_lt.mpr hk), Bool.false_and]

/-- What VMASK makes of two bits. -/
def maskOp (op : Nat) (x y : Bool) : Bool :=
  match op with
  | 0 => x && y
  | 1 => x || y
  | 2 => x ^^ y
  | _ => x && !y

theorem CleanMasks.vmask_makesMask (hm : OnlyWave s m) (htyp : w.typ = 0) (hvar : w.var.toNat < 4) (hd : w.d.toNat < 8) (ha : w.a.toNat < 8)
    (hb : w.b.toNat < 8) : (cellVmask w m c).MakesMask c w.d 1024
      (fun k => maskOp w.low (s.maskBit c w.a k) (s.maskBit c w.b k)) := by
  rw [cellVmask, w0Cell_legal h.fmt (by simp [htyp, hvar, hd, ha, hb])]
  refine ⟨rfl, congrArg (fun l => [maskWrite c w.d.toNat l]) (List.map_congr_left fun k _ => ?_)⟩
  simp only [h.poi_greg hm, Nat.or_self, Nat.zero_testBit, State.elt_clean rfl, eltVal_one, h.testBit_greg hm, maskOp]
  congr 1
  generalize s.maskBit c w.a k = x, s.maskBit c w.b k = y
  match w.low with
  | 0 | 1 | 2 | _ + 3 => cases x <;> cases y <;> rfl

theorem CleanMasks.maskBit_vmask (htyp : w.typ = 0) (hvar : w.var.toNat < 4) (hd : w.d.toNat < 8) (ha : w.a.toNat < 8) (hb : w.b.toNat < 8)
    {k : Nat} (hk : k < 1024) :
    (s.afterW0 (.vmask w) (cellVmask w)).maskBit c w.d k = maskOp w.low (s.maskBit c w.a k) (s.maskBit c w.b k) := by
  rw [h.maskBit_afterW0 (cellVmask_into w).within _ (le_refl 1024) fun _ hm => h.vmask_makesMask hm htyp hvar hd ha hb, decide_eq_true hk,
    Bool.true_and]

/-- What VFLAG sets the flag from, of what holds of any and of all of the mask's bits. -/
def FlagHolds (op : Nat) (any all : Prop) : Prop :=
  match op with
  | 0 => any
  | 1 => all
  | 2 => ¬ any
  | _ => ¬ all

omit h in
theorem flagHolds_iff {op : Nat} (hop : op < 4) (any all : Prop) [Decidable any] [Decidable all] :
    ((if op % 2 = 1 then decide all else decide any) != decide (2 ≤ op)) = true ↔ FlagHolds op any all := by
  match op with
  | 0 | 1 | 2 | 3 => simp [FlagHolds]
  | _ + 4 => omega

theorem CleanMasks.vflag_onCell (hm : OnlyWave s m) (hvar : w.var.toNat < 4) (hd : w.d = 0) (hb : w.b = 0) (ha : w.a.toNat < 8) (d : CellState) :
    (cellVflag w m c).onCell d = { d with
      f := (if w.low % 2 = 1 then decide (∀ k < lanes n, s.maskBit c w.a k = true) else decide (∃ k < lanes n, s.maskBit c w.a k = true)) !=
        decide (2 ≤ w.low)
      fPoi := false } := by
  rw [cellVflag, w0Cell_legal h.fmt (by simp [varOk_low hvar, hd, hb, ha])]
  refine (CellState.write_flagWrite d c _).trans ?_
  simp only [h.poi_greg hm, Nat.zero_mod, ne_self_iff_false, decide_false, State.elt_clean rfl, toNat_mod_two_beq_one, mod_two_pow_eq_ones_iff,
    mod_two_pow_ne_zero_iff, h.testBit_greg hm]
  rfl

theorem CleanMasks.flag_vflag (hvar : w.var.toNat < 4) (hd : w.d = 0) (hb : w.b = 0) (ha : w.a.toNat < 8) :
    let x := (s.afterW0 (.vflag w) (cellVflag w)).ctx.cell c
    (x.f = true ↔ FlagHolds w.low (∃ k < lanes n, s.maskBit c w.a k = true) (∀ k < lanes n, s.maskBit c w.a k = true)) ∧ x.fPoi = false := by
  obtain ⟨m, hm, hcell⟩ := h.afterW0_cell (cellVflag_into w).within (.vflag w)
  rw [hcell, h.vflag_onCell hm hvar hd hb ha]
  exact ⟨flagHolds_iff (Nat.mod_lt _ (by decide)) .., rfl⟩

theorem CleanMasks.vsel_makesLanes (hm : OnlyWave s m) (hvar : w.var = 0) (hb : w.b.toNat < 8) : (cellVsel w m c).MakesLanes c w.d.toNat n
    (fun k => s.elt c k n false ((if s.maskBit c w.b k then s.lane c w.a n k else s.lane c w.d n k).toNat, 0)) := by
  rw [cellVsel, w0Cell_legal h.fmt (by simp [varOk_zero hvar, hb])]
  refine ⟨_, congrArg (vecOut c w.d.toNat n _) (List.map_congr_left fun k _ => ?_)⟩
  simp only [vreg_eq_vbits hm h.src h.pend, h.testBit_greg hm, h.poi_greg hm, Nat.zero_testBit, Bool.false_or, State.elt_clean rfl]
  cases s.maskBit c w.b k
  · rw [if_neg Bool.false_ne_true, if_neg Bool.false_ne_true, eltVal_vbits]
    exact State.elt_clean (eltPoi_unmarked h.d n k) ..
  · rw [if_pos rfl, if_pos rfl, eltVal_vbits]
    exact State.elt_clean (eltPoi_unmarked h.a n k) ..

theorem CleanMasks.gives_vsel (hvar : w.var = 0) (hb : w.b.toNat < 8) {j : Nat} (hj : j < lanes n) :
    s.Gives c w.d j (.vsel w) (if s.maskBit c w.b j then s.lane c w.a n j else s.lane c w.d n j) :=
  h.gives hj rfl (w0Cell_into_vec fun _ _ _ => vecOut_into ..) (fun _ hm => h.vsel_makesLanes hm hvar hb) (fun _ => rfl) (by simp)

end

/-! ### Copies (R146) -/

theorem eltMarks_unmarked {s : State} {c : Nat} {r : BitVec 5} (h : s.unmarked c r) (n j : Nat) : eltMarks (s.vbits c r) n j = 0 := by
  have hpoi : ((s.ctx.cell c).v[r.toNat]).poi = 0 := h
  simp only [eltMarks, State.vbits, hpoi, BitVec.ofNat_eq_ofNat, BitVec.toNat_zero, Nat.zero_div, Nat.zero_mod]

theorem moviVal_int (w : W0) (n : Nat) (sg : Bool) : BitVec.ofNat n (moviVal w (.int ⟨n, sg⟩)).1 =
    BitVec.ofInt n (BitVec.ofNat 12 (w.low * 1024 + w.a.toNat * 32 + w.b.toNat)).toInt := by
  have himm : w.low * 1024 + w.a.toNat * 32 + w.b.toNat < 2 ^ 12 := by
    have : w.low < 4 := Nat.mod_lt _ (by decide)
    omega
  have hvalue := IFmt.value_toNat true (BitVec.ofNat 12 (w.low * 1024 + w.a.toNat * 32 + w.b.toNat))
  rw [BitVec.toNat_ofNat, Nat.mod_eq_of_lt himm] at hvalue
  rw [moviVal, IFmt.ofNat_wrap, hvalue]
  rfl

theorem iotaVal_int (n : Nat) (sg : Bool) (j : Nat) : BitVec.ofNat n (iotaVal (.int ⟨n, sg⟩) j).1 = BitVec.ofNat n j :=
  BitVec.eq_of_toNat_eq (by simp [iotaVal])

/-- The element that an unpoisoned index names, or zero. -/
theorem permElt_val {b : Bits} {j : Nat} (hb : eltPoi b 16 j = false) (s : State) (i w n : Nat) (a : Bits) :
    (permElt s i w n a b j).val = if eltVal b 16 j < n then eltVal a w (eltVal b 16 j) else 0 := by
  rw [permElt, hb, if_neg Bool.false_ne_true]
  split <;> rfl

theorem cellVmov_into (w : W0) : (cellVmov w).Into [vReg w.d.toNat] :=
  w0Cell_into_vec fun _ _ _ => CellOut.into_of_write rfl rfl rfl (List.mem_singleton_self _)

theorem cellVperm_into (w : W0) : (cellVperm w).Into [vReg w.d.toNat] :=
  w0Cell_into_vec fun _ _ _ => CellOut.into_of_write rfl rfl rfl (List.mem_singleton_self _)

section
variable {s m : State} {w : W0} {c n : Nat} {sg : Bool} (h : CleanInts s w c n sg)
include h

theorem CleanInts.gives_fill {j : Nat} (hj : j < lanes n) {i : Instr} {legal : Fmt → Bool} {g : Fmt → Nat → Nat × Nat} {v : BitVec n}
    (hl : legal (.int ⟨n, sg⟩) = true) (hexec : exec i s = runW0 i none (w0Cell w (vSpan w.d.toNat) legal fun f => fillOut w f (g f)) s)
    (hv : BitVec.ofNat n (g (.int ⟨n, sg⟩) j).1 = v) : s.Gives c w.d j i v := by
  refine h.gives hj (p := fun _ => false) (r := g (.int ⟨n, sg⟩)) hexec (w0Cell_into_vec fun f => fillOut_into w f _) (fun m _ => ?_) (fun _ => rfl) hv
  rw [w0Cell_legal h.fmt hl]
  exact ⟨[], rfl⟩

theorem CleanInts.vbcst_makesLanes (hm : OnlyWave s m) (hvar : w.var.toNat < 4) : (cellVbcst w m c).MakesLanes c w.d.toNat n
    (fun k => s.elt c k n false ((s.lane c w.a n (w.low * 32 + w.b.toNat)).toNat, 0)) := by
  rw [cellVbcst, w0Cell_legal h.fmt (varOk_low hvar _)]
  refine ⟨_, congrArg (vecOut c w.d.toNat n _) ?_⟩
  simp only [vreg_eq_vbits hm h.src h.pend, eltMarks_unmarked h.a, eltVal_vbits, State.elt_clean rfl, List.map_const', List.length_range]
  rfl

theorem CleanInts.gives_vbcst (hvar : w.var.toNat < 4) {j : Nat} (hj : j < lanes n) :
    s.Gives c w.d j (.vbcst w) (s.lane c w.a n (w.low * 32 + w.b.toNat)) :=
  h.gives hj rfl (w0Cell_into_vec fun _ _ _ => vecOut_into ..) (fun _ hm => h.vbcst_makesLanes hm hvar) (fun _ => rfl) (by simp)

theorem CleanInts.vmov_onCell (hm : OnlyWave s m) (hvar : w.var = 0) (hb : w.b = 0) (d : CellState) :
    ((cellVmov w m c).onCell d).v[w.d.toNat] = (s.ctx.cell c).v[w.a.toNat] := by
  rw [cellVmov, w0Cell_legal h.fmt (by simp [varOk_zero hvar, hb])]
  simp only [vreg_eq_vbits hm h.src h.pend]
  exact d.v_write_vCopy c w.d ((s.ctx.cell c).v[w.a.toNat])

theorem CleanInts.v_vmov (hvar : w.var = 0) (hb : w.b = 0) :
    ((s.afterW0 (.vmov w) (cellVmov w)).ctx.cell c).v[w.d.toNat] = (s.ctx.cell c).v[w.a.toNat] := by
  obtain ⟨m, hm, hcell⟩ := h.afterW0_cell (cellVmov_into w).within (.vmov w)
  rw [hcell, h.vmov_onCell hm hvar hb]

/-- Lanes `256 · low` on, from the 16-bit indices of B. -/
theorem CleanInts.vperm_onCell (hm : OnlyWave s m) (hvar : w.var.toNat < 4) {j : Nat} (hj : j < 256) (hlane : 256 * w.low + j < lanes n) (d : CellState) :
    ((((cellVperm w m c).onCell d).v[w.d.toNat]).bits).extractLsb' (n * (256 * w.low + j)) n =
      if (s.lane c w.b 16 j).toNat < lanes n then s.lane c w.a n (s.lane c w.b 16 j).toNat else 0 := by
  have hlow : decide (256 * w.low < lanes n) = true := decide_eq_true (by omega)
  rw [cellVperm, w0Cell_legal h.fmt (Bool.and_eq_true_iff.mpr ⟨varOk_low hvar _, hlow⟩)]
  simp only [vreg_eq_vbits hm h.src h.pend, Fmt.width_int]
  have hfit : n * (256 * w.low + j + 1) ≤ 4096 := (Nat.mul_le_mul_left n hlane).trans (Nat.mul_div_le 4096 n)
  refine (d.lane_write_laneBlock c w.d (by simp) (Nat.lt_min.mpr ⟨by omega, hj⟩) hfit).trans ?_
  rw [List.getElem_map, List.getElem_range, permElt_val (eltPoi_unmarked h.b 16 j), eltVal_vbits, eltVal_vbits, apply_ite (BitVec.ofNat n),
    BitVec.ofNat_toNat, BitVec.setWidth_eq]
  rfl

theorem CleanInts.lane_vperm (hvar : w.var.toNat < 4) {j : Nat} (hj : j < 256) (hlane : 256 * w.low + j < lanes n) :
    (s.afterW0 (.vperm w) (cellVperm w)).lane c w.d n (256 * w.low + j) =
      if (s.lane c w.b 16 j).toNat < lanes n then s.lane c w.a n (s.lane c w.b 16 j).toNat else 0 := by
  obtain ⟨m, hm, hcell⟩ := h.afterW0_cell (cellVperm_into w).within (.vperm w)
  rw [State.lane, hcell, h.vperm_onCell hm hvar hj hlane]

end

/-- Settles O35: the part of the cell that each operation makes, from clean operands. -/
theorem maskAndCopyResults : Obligations.MaskAndCopyResults := by
  unfold Obligations.MaskAndCopyResults
  intro s w c j n hsrc hpend hconf hc he htyp hn hj ha hb hd hg val a b bit does low
  have h : CleanMasks s w c n (decide (w.typ.toNat < 4)) := ⟨⟨⟨hsrc, hpend, hconf, hc, he, hn ▸ W0.fmt_int htyp⟩, ha, hb, hd⟩, hg⟩
  have hval : val = laneInt (decide (w.typ.toNat < 4)) := by
    funext x
    simp only [val, laneInt, decide_eq_true_eq]
  rw [hval]
  refine ⟨fun hd hvar => ⟨_, runW0_eq (.vcmp w) (cellVcmp w) s, ?_, fun k hk => ?_⟩, fun hvar hb => (h.gives_vsel hvar hb hj).lane_eq,
    fun htyp hvar hd ha hb => ⟨_, runW0_eq (.vmask w) (cellVmask w) s, fun k hk => h.maskBit_vmask htyp hvar hd ha hb hk⟩,
    fun hvar hd hb ha => ⟨_, runW0_eq (.vflag w) (cellVflag w) s, h.flag_vflag hvar hd hb ha⟩,
    fun hvar hb => ⟨_, runW0_eq (.vmov w) (cellVmov w) s, h.v_vmov hvar hb⟩,
    fun hvar => (h.gives_fill hj (varOk_low hvar _) rfl (moviVal_int ..)).lane_eq, fun hvar _ => (h.gives_vbcst hvar hj).lane_eq,
    fun hvar ha hb => (h.gives_fill hj (by simp [varOk_zero hvar, ha, hb]) rfl (iotaVal_int ..)).lane_eq,
    fun hvar hlo hhi => ⟨_, runW0_eq (.vperm w) (cellVperm w) s, ?_⟩⟩
  · exact h.compares_vcmp hvar hd hj
  · exact h.maskBit_vcmp_above hvar hd hk
  · obtain ⟨k, rfl⟩ := Nat.exists_eq_add_of_le hlo
    rw [Nat.add_sub_cancel_left]
    exact h.lane_vperm hvar (by omega) hj

end Sys2Proof.Machine
end

section
/-! # Products of bytes, and cleared tiles

The result that a run under a LAT bound owes for a cell (R18, R160), and the writes to the accumulator in it for MMA of 8-bit integers
and for MZERO (R157, R159, R161, R169). -/

namespace Sys2Proof.Machine

/-! ### The result that a run owes -/

/-- An operation under a LAT bound once the cells below `n` have had their part. -/
def State.owedSoFar (s : State) (slot : Nat) (op : CellOp) (n : Nat) : WaveAcc :=
  (List.range n).foldl (runCell slot true op) { s := s, late := [], evs := [] }

theorem owedSoFar_succ (s : State) (slot : Nat) (op : CellOp) (n : Nat) :
    s.owedSoFar slot op (n + 1) = runCell slot true op (s.owedSoFar slot op n) n := by
  rw [State.owedSoFar, List.range_succ, List.foldl_append]
  rfl

/-- Under a LAT bound, an enabled cell's writes wait for the result. -/
theorem runCell_late {slot : Nat} {op : CellOp} {a : WaveAcc} {i : Nat} (hconf : a.s.wave.conflict = []) (he : a.s.enabled i = true) :
    (runCell slot true op a i).late = a.late ++ (op a.s i).writes := by
  simp [runCell, he, hconf]

theorem late_subset_runCell (slot : Nat) (op : CellOp) (a : WaveAcc) (i : Nat) : a.late ⊆ (runCell slot true op a i).late := by
  unfold runCell
  split
  · exact List.subset_append_left ..
  · exact List.Subset.refl _

theorem owedSoFar_late_subset (s : State) (slot : Nat) (op : CellOp) {n k : Nat} (hnk : n ≤ k) :
    (s.owedSoFar slot op n).late ⊆ (s.owedSoFar slot op k).late := by
  induction k, hnk using Nat.le_induction with
  | base => exact List.Subset.refl _
  | succ k _ ih =>
    rw [owedSoFar_succ]
    exact List.Subset.trans ih (late_subset_runCell ..)

section
variable {rs : List CellReg} {op : CellOp} {s : State} {slot : Nat} (h : op.Within rs)
include h

theorem owedSoFar_step (n : Nat) : WaveStep s.wave.conflict (fun j => s.enabled j = true) s (s.owedSoFar slot op n).s :=
  (foldl_runCell (late := true) (s := s) slot op h (fun _ => id) nofun (List.range n) { s := s, late := [], evs := [] }
    ⟨WaveStep.refl .., fun _ hw => absurd hw List.not_mem_nil, fun _ => rfl⟩).step

/-- A run under a LAT bound owes one result, of all that its cells write. -/
theorem runWave_owes (lat : Nat) (accum : Bool) : (s.runWave slot (some lat) accum op).ctx.pend = s.ctx.pend ++
    [{ dest := .cells, value := 0, writes := (s.owedSoFar slot op s.cellCount).late, acc := accum, bound := s.ctx.issues + max lat 1,
       made := s.ctx.issues, addr := s.ctx.pc, poison := none }] := by
  have hstep := owedSoFar_step (s := s) (slot := slot) h s.cellCount
  have hissues : (s.owedSoFar slot op s.cellCount).s.ctx.issues = s.ctx.issues := by rw [hstep.only]
  have hpc : (s.owedSoFar slot op s.cellCount).s.ctx.pc = s.ctx.pc := by rw [hstep.only]
  rw [← hissues, ← hpc, ← hstep.pend]
  simp only [State.runWave, State.owedSoFar, Option.isSome_some]
  generalize List.foldl _ _ (List.range s.cellCount) = a
  generalize dripRecords .. = recs
  cases recs <;> rfl

/-- What an enabled cell writes, whatever the cells before it have done, is among what the run owes. -/
theorem mem_owedSoFar {c : Nat} {w : CellWrite} (hsrc : s.src = s.ctx) (hconf : s.wave.conflict = []) (hc : c < s.ctx.cells.length)
    (he : s.enabled c = true) (hop : ∀ u, OnlyWave s u → w ∈ (op u c).writes) : w ∈ (s.owedSoFar slot op s.cellCount).late := by
  have hcount : c + 1 ≤ s.cellCount := by rw [State.cellCount, hsrc]; exact hc
  have hbefore := owedSoFar_step (s := s) (slot := slot) h c
  refine owedSoFar_late_subset s slot op hcount ?_
  rw [owedSoFar_succ, runCell_late (by rw [hbefore.only]; exact hconf) ((hbefore.enabled c).trans he)]
  exact List.mem_append_right _ (hop _ hbefore.only)

end

/-! ### Runs of the M slot -/

/-- An enabled cell at the first issue of an M operation, where nothing is outstanding and no two slots name one register. -/
structure MatrixRun (s : State) (c : Nat) : Prop where
  src : s.src = s.ctx
  pend : s.ctx.pend = []
  conflict : s.wave.conflict = []
  cell : c < s.ctx.cells.length
  enabled : s.enabled c = true
  first : s.wave.mn = 0

/-- What O39 says of an instruction: the one result that it owes has, for cell `c`, an unpoisoned write of accumulator `acc` from its
first byte on, of which `p` holds. -/
def State.OwesTile (s : State) (c : Nat) (acc : BitVec 3) (i : Instr) (p : CellWrite → Prop) : Prop :=
  ∃ (t : State) (o : Pending) (w : CellWrite), exec i s = .next t ∧ t.ctx.pend = [o] ∧ w ∈ o.writes ∧ w.cell = c ∧ w.reg = .m acc.toFin ∧
    w.lo = 0 ∧ w.poi = 0 ∧ p w

/-- The write of the low `len` bits of an accumulator, unpoisoned. -/
def tileLowWrite (c : Nat) (acc : BitVec 3) (len val : Nat) : CellWrite :=
  { cell := c, reg := .m acc.toFin, lo := 0, len := len, val := val, poi := 0 }

theorem MatrixRun.owesTile {s : State} {c : Nat} (h : MatrixRun s c) {i : Instr} {m : MOp} {accum : Bool} {op : CellOp} {rs : List CellReg}
    {len val : Nat} {p : CellWrite → Prop} (hexec : exec i s = runM i m accum op s) (hin : op.Within rs)
    (hop : ∀ u, OnlyWave s u → (op u c).writes = [tileLowWrite c m.acc len val]) (hp : p (tileLowWrite c m.acc len val)) :
    s.OwesTile c m.acc i p := by
  have hpend := runWave_owes (s := s) (slot := 2) hin m.lat.toNat accum
  rw [h.pend] at hpend
  refine ⟨_, _, tileLowWrite c m.acc len val, hexec, hpend, ?_, rfl, rfl, rfl, rfl, hp⟩
  exact mem_owedSoFar hin h.src h.conflict h.cell h.enabled fun u hu => by simp [hop u hu]

/-! ### Bytes of tiles -/

/-- A tile register as it stood before the wave word. -/
def State.tileReg (s : State) (c n : Nat) : TReg := (s.ctx.cell c).m[Fin.ofNat 8 n]

/-- Byte `k` of a chunk of a tile. -/
def State.tileByte (s : State) (c n chunk k : Nat) : BitVec 8 := (s.tileReg c n).bits.extractLsb' (512 * chunk + 8 * k) 8

/-- A byte of a tile as its format reads it: code 1 is i8, and code 5 n8. -/
def State.tileInt (s : State) (f : BitVec 6) (c n chunk k : Nat) : Int := laneInt (decide (f = 1)) (s.tileByte c n chunk k)

theorem fmtOf_byte {f : BitVec 6} (h : f = 1 ∨ f = 5) : fmtOf f.toNat = some (.int ⟨8, decide (f = 1)⟩) := by
  rcases h with rfl | rfl <;> rfl

/-- A part of a part of a number. -/
theorem extract_extract (x a n b k : Nat) (h : b + k ≤ n) : x / 2 ^ a % 2 ^ n / 2 ^ b % 2 ^ k = x / 2 ^ (a + b) % 2 ^ k := by
  refine Nat.eq_of_testBit_eq fun i => ?_
  simp only [Nat.testBit_mod_two_pow, Nat.testBit_div_two_pow]
  by_cases hi : i < k
  · simp [hi, show i + b < n by omega, show i + b + a = i + (a + b) by omega]
  · simp [hi]

section
variable {s u : State} {c : Nat} (h : MatrixRun s c) (hu : OnlyWave s u)
include h hu

theorem MatrixRun.tileChunk_eq (n k w : Nat) : u.tileChunk c n k w =
    { data := (s.tileReg c n).bits.toNat / 2 ^ (512 * k) % 2 ^ 512, psn := (s.tileReg c n).poi.toNat / 2 ^ (64 * k) % 2 ^ 64, res := 0, info := 0,
      zero := false, bad := 0, reads := [(mName c n).part (512 * k) 512] } := by
  rw [State.tileChunk, State.mreg, State.cellReg_of_onlyWave hu h.src h.pend, CellState.get, Bits.chunk, State.tileReg]

theorem MatrixRun.tileChunk_psn {n : Nat} (hclean : (s.tileReg c n).poi = 0) (k w : Nat) : (u.tileChunk c n k w).psn = 0 := by
  simp only [h.tileChunk_eq hu, hclean, BitVec.ofNat_eq_ofNat, BitVec.toNat_zero, Nat.zero_div, Nat.zero_mod]

theorem MatrixRun.value_tileChunk (f : BitVec 6) (n chunk w : Nat) {k : Nat} (hk : k < 64) :
    IFmt.value ⟨8, decide (f = 1)⟩ (eltVal ⟨(u.tileChunk c n chunk w).data, 0⟩ 8 k) = s.tileInt f c n chunk k := by
  have hbyte : eltVal ⟨(u.tileChunk c n chunk w).data, 0⟩ 8 k = (s.tileByte c n chunk k).toNat := by
    rw [h.tileChunk_eq hu, eltVal, extract_extract _ _ _ _ _ (by omega), State.tileByte, BitVec.extractLsb'_toNat, Nat.shiftRight_eq_div_pow]
  rw [hbyte, IFmt.value_toNat, State.tileInt]

end

/-! ### Products of bytes -/

/-- The group of row `i` and column `j` of two chunks of bytes (R159, R161). -/
def State.byteGroup (s : State) (m : MOp) (c i j : Nat) : Int :=
  ((List.range 4).map (fun k => s.tileInt m.afmt c m.asrc.toNat m.arow.toNat (4 * i + k) * s.tileInt m.bfmt c m.bsrc.toNat m.brow.toNat (4 * j + k))).sum

/-- Element `n` of the accumulator. -/
def State.accWord (s : State) (m : MOp) (c n : Nat) : BitVec 32 := (s.tileReg c m.acc.toNat).bits.extractLsb' (32 * n) 32

/-- Element `n` of the accumulator with its group added, modulo 2^32. -/
def State.accSum (s : State) (m : MOp) (c n : Nat) : BitVec 32 :=
  BitVec.ofInt 32 ((s.accWord m c n).toNat + s.byteGroup m c (n / 16) (n % 16))

/-- The unpoisoned element that holds a word. -/
def wordElt (x : BitVec 32) : Elt := ⟨x.toNat, 0, 0⟩

/-- The accumulator region with every group added. -/
def State.accSums (s : State) (m : MOp) (c : Nat) : List Elt := (List.range 256).map (fun n => wordElt (s.accSum m c n))

/-- What a product of bytes has at hand in a cell. -/
def State.byteProduct (u : State) (m : MOp) (c : Nat) : Product :=
  { fa := .int ⟨8, decide (m.afmt = 1)⟩, fb := .int ⟨8, decide (m.bfmt = 1)⟩, g := 4, a := u.tileChunk c m.asrc.toNat m.arow.toNat 8,
    bs := [u.tileChunk c m.bsrc.toNat m.brow.toNat 8], sel := denseSel 4, scales := none, aMeta := metaZero, bMeta := metaZero }

/-- The circumstances of MMA in O39: bytes of two tiles other than the accumulator, and nothing poisoned. -/
structure ByteRun (s : State) (m : MOp) (c : Nat) : Prop extends MatrixRun s c where
  afmt : m.afmt = 1 ∨ m.afmt = 5
  bfmt : m.bfmt = 1 ∨ m.bfmt = 5
  nmm : m.nmm = 0
  nm1 : m.nm1 = 0
  kblk : m.kblk = 0
  asrc : m.asrc.toNat < 8
  bsrc : m.bsrc.toNat < 8
  arow : m.arow.toNat ≤ 31
  brow : m.brow.toNat ≤ 31
  aacc : m.asrc.toNat ≠ m.acc.toNat
  bacc : m.bsrc.toNat ≠ m.acc.toNat
  clean : ∀ n, (s.tileReg c n).poi = 0

theorem accReg_eq (m : MOp) : CellReg.m m.acc.toFin = .m (Fin.ofNat 8 m.acc.toNat) :=
  congrArg CellReg.m (Fin.ext (Nat.mod_eq_of_lt m.acc.isLt).symm)

section
variable {s u : State} {m : MOp} {c : Nat} (h : ByteRun s m c)
include h

theorem ByteRun.pair : m.pair = some (.int ⟨8, decide (m.afmt = 1)⟩, .int ⟨8, decide (m.bfmt = 1)⟩, 4) := by
  simp [MOp.pair, fmtOf_byte h.afmt, fmtOf_byte h.bfmt, pairSize]

theorem ByteRun.legal : (m.noPattern && m.kblk == 0 && m.productOk) = true := by
  simp [MOp.noPattern, MOp.productOk, h.nmm, h.nm1, h.kblk, h.asrc, h.bsrc, h.aacc, h.bacc, h.asrc.le.trans, h.bsrc.le.trans]

variable (hu : OnlyWave s u)
include hu

theorem ByteRun.cellMma_eq : cellMma m u c = (u.byteProduct m c).run m u c := by
  have hwave : u.wave.mn = 0 := by rw [hu, ← h.first]
  simp only [cellMma, denseCell, h.pair, h.legal, Bool.not_true, Bool.false_eq_true, if_false, hwave, Nat.zero_mul, Nat.add_zero, State.source,
    if_pos h.asrc, if_pos h.bsrc, if_pos h.arow, if_pos h.brow]
  rfl

omit h hu in
theorem byteProduct_metaBad : (u.byteProduct m c).metaBad = false := by
  simp [Product.metaBad, State.byteProduct, State.tileChunk]

theorem ByteRun.aPoi_eq (k : Nat) : (u.byteProduct m c).aPoi k = false :=
  eltPoi_of_clean (h.tileChunk_psn hu (h.clean _) ..) _ k

theorem ByteRun.bPoi_eq (k : Nat) : (u.byteProduct m c).bPoi 0 k = false :=
  eltPoi_of_clean (h.tileChunk_psn hu (h.clean _) ..) _ k

/-- The group, from the bytes as integers. -/
theorem ByteRun.group_eq {i j : Nat} (hi : i < 16) (hj : j < 16) (acc : Nat) : (u.byteProduct m c).group i j acc =
    if s.byteGroup m c i j = 0 then none else some ((((acc : Int) + s.byteGroup m c i j) % 2 ^ 32).toNat, 0) := by
  have hsum : (((u.byteProduct m c).pairs i j).map (fun t => IFmt.value ⟨8, decide (m.afmt = 1)⟩ ((u.byteProduct m c).aVal t.1) *
      IFmt.value ⟨8, decide (m.bfmt = 1)⟩ ((u.byteProduct m c).bVal t.2.1 t.2.2))).sum = s.byteGroup m c i j := by
    simp only [Product.pairs, State.byteProduct, denseSel, State.byteGroup, List.map_map]
    refine congrArg List.sum (List.map_congr_left fun k hk => ?_)
    have hk4 := List.mem_range.mp hk
    exact congrArg₂ (· * ·) (h.value_tileChunk hu m.afmt m.asrc.toNat m.arow.toNat 8 (k := 4 * i + k) (by omega))
      (h.value_tileChunk hu m.bfmt m.bsrc.toNat m.brow.toNat 8 (k := 4 * j + k) (by omega))
  rw [← hsum]
  rfl

/-- The bytes of a group are unpoisoned. -/
theorem ByteRun.pairs_clean (i j : Nat) : ((u.byteProduct m c).pairs i j).any
    (fun t => (u.byteProduct m c).aPoi t.1 || (u.byteProduct m c).bPoi t.2.1 t.2.2) = false := by
  refine List.any_eq_false.mpr fun t ht => ?_
  obtain ⟨x, hx, rfl⟩ := List.mem_map.mp ht
  obtain ⟨k, -, rfl⟩ := List.mem_map.mp hx
  simp [h.aPoi_eq hu, h.bPoi_eq hu]

/-- No part of the accumulator is poisoned. -/
theorem ByteRun.acc_eq : u.cellReg c (.m m.acc.toFin) true 32 = ⟨(s.tileReg c m.acc.toNat).bits.toNat, 0⟩ := by
  have hpoi := h.clean m.acc.toNat
  rw [State.tileReg] at hpoi
  rw [State.cellReg_of_onlyWave hu h.src h.pend, accReg_eq, CellState.get, hpoi, State.tileReg, BitVec.ofNat_eq_ofNat, BitVec.toNat_zero]

/-- A group that is exactly zero leaves the element as it is, which is what adding it makes (R123). -/
theorem ByteRun.element_eq {n : Nat} (hn : n < 256) :
    (u.byteProduct m c).element u c (u.cellReg c (.m m.acc.toFin) true 32) n = wordElt (s.accSum m c n) := by
  have hold : eltVal ⟨(s.tileReg c m.acc.toNat).bits.toNat, 0⟩ 32 n = (s.accWord m c n).toNat := by
    rw [eltVal, State.accWord, BitVec.extractLsb'_toNat, Nat.shiftRight_eq_div_pow]
  rw [h.acc_eq hu, Product.element, h.pairs_clean hu, h.group_eq hu (by omega) (by omega), hold]
  simp only [State.accElt, Bool.false_eq_true, if_false, State.accSum, wordElt]
  by_cases h0 : s.byteGroup m c (n / 16) (n % 16) = 0
  · have hmarks : eltMarks ⟨(s.tileReg c m.acc.toNat).bits.toNat, 0⟩ 32 n = 0 := by simp [eltMarks]
    simp only [h0, if_true, hold, hmarks, Int.add_zero, BitVec.ofInt_natCast, BitVec.ofNat_toNat, BitVec.setWidth_eq]
  · simp only [if_neg h0, BitVec.toNat_ofInt]
    exact State.elt_clean (eltPoi_of_clean rfl ..) ..

theorem ByteRun.cellMma_writes : (cellMma m u c).writes = [tileLowWrite c m.acc 8192 (packVals 32 (s.accSums m c))] := by
  have hlist : (List.range 256).map ((u.byteProduct m c).element u c (u.cellReg c (.m m.acc.toFin) true 32)) = s.accSums m c :=
    List.map_congr_left fun n hn => h.element_eq hu (List.mem_range.mp hn)
  have hmarks : packPois 32 0 (s.accSums m c) = 0 := packPois_eq_zero 32 (by simp [State.accSums, wordElt]) 0
  rw [h.cellMma_eq hu, Product.run, if_neg (by rw [byteProduct_metaBad]; exact Bool.false_ne_true)]
  simp only [hlist, hmarks, tileLowWrite]

end

/-- An element of the accumulator, read from the write of them all. -/
theorem packVals_accSums (s : State) (m : MOp) (c : Nat) {i j : Nat} (hi : i < 16) (hj : j < 16) :
    (packVals 32 (s.accSums m c) : Int) / 2 ^ (32 * (16 * i + j)) % 2 ^ 32 =
      ((s.accWord m c (16 * i + j)).toNat + s.byteGroup m c i j) % 2 ^ 32 := by
  have hrow : (16 * i + j) / 16 = i := by omega
  have hcol : (16 * i + j) % 16 = j := by omega
  have hlane : packVals 32 (s.accSums m c) / 2 ^ (32 * (16 * i + j)) % 2 ^ 32 = (s.accSum m c (16 * i + j)).toNat := by
    rw [State.accSums, packVals_lane 32 _ (by simp; omega), List.getElem_map, List.getElem_range]
    exact Nat.mod_eq_of_lt (BitVec.isLt _)
  have hsum : ((s.accSum m c (16 * i + j)).toNat : Int) = ((s.accWord m c (16 * i + j)).toNat + s.byteGroup m c i j) % 2 ^ 32 := by
    rw [State.accSum, hrow, hcol, BitVec.toNat_ofInt]
    exact Int.toNat_of_nonneg (Int.emod_nonneg _ (by decide))
  rw [← hsum, ← hlane]
  push_cast
  rfl

theorem cellMzero_writes {m : MOp} (hlegal : (m.tileOk && m.asrc == 0 && m.bsrc == 0 && m.noPattern && m.arow == 0 && m.step == 0) = true)
    (u : State) (c : Nat) : (cellMzero m u c).writes = [tileLowWrite c m.acc 16384 0] := by
  rw [cellMzero, if_pos hlegal]
  rfl

/-- Settles O39: each element of the accumulator is computed from clean bytes, and MZERO has one encoding. -/
theorem integerProductResults : Obligations.IntegerProductResults := by
  unfold Obligations.IntegerProductResults
  intro s m c hsrc hpend hconf hc he hmn tile owes elem
  have h : MatrixRun s c := ⟨hsrc, hpend, hconf, hc, he, hmn⟩
  have helem (f : BitVec 6) (n chunk k : Nat) : elem f n chunk k = s.tileInt f c n chunk k := by
    simp only [elem, State.tileInt, laneInt, decide_eq_true_eq]
    rfl
  refine ⟨fun hafmt hbfmt hnmm hnm1 hkblk hasrc hbsrc harow hbrow haacc hbacc hclean => ?_,
    fun hafmt hbfmt hkblk hasrc hbsrc harow hbrow hstep hnmm hnm1 => ?_⟩
  · have hbytes : ByteRun s m c := ⟨h, hafmt, hbfmt, hnmm, hnm1, hkblk, hasrc, hbsrc, harow, hbrow, haacc, hbacc, hclean⟩
    refine h.owesTile rfl (denseCell_into m _ _ _ _).within (fun u hu => hbytes.cellMma_writes hu) ⟨rfl, fun i hi j hj => ?_⟩
    simp only [helem]
    exact packVals_accSums s m c hi hj
  · have hlegal : (m.tileOk && m.asrc == 0 && m.bsrc == 0 && m.noPattern && m.arow == 0 && m.step == 0) = true := by
      simp [MOp.tileOk, MOp.noPattern, *]
    exact h.owesTile rfl (cellMzero_into m).within (fun u _ => cellMzero_writes hlegal u c) ⟨rfl, rfl⟩

end Sys2Proof.Machine
end

section
/-! # Events at the homes, and errors

Clears of the zero map (R190, R367), line resets (R369), write-backs that merge (R188, R217), the host's silence (R363), and errors
(R320, R403). -/

namespace Sys2Proof.Machine

/-! ### Tokens that move -/

/-- `t` differs from `s` in tokens, messages and requests, and in what an eviction writes to HBM4 (R185, R217), at most. -/
def OnlyTokens (s t : State) : Prop :=
  t = { s with mem := t.mem, pois := t.pois, codes := t.codes, lines := t.lines, msgs := t.msgs, treqs := t.treqs, claims := t.claims,
               pmsgs := t.pmsgs, snoops := t.snoops }

theorem OnlyTokens.refl (s : State) : OnlyTokens s s := rfl

theorem OnlyTokens.trans {s t u : State} (h : OnlyTokens s t) (k : OnlyTokens t u) : OnlyTokens s u := by
  unfold OnlyTokens at *
  rw [k, h]

theorem OnlyTokens.ite {p : Prop} [Decidable p] {s t u : State} (ht : OnlyTokens s t) (hu : OnlyTokens s u) : OnlyTokens s (if p then t else u) := by
  split
  · exact ht
  · exact hu

theorem OnlyTokens.foldl {α : Type} {f : State → α → State} (hf : ∀ s a, OnlyTokens s (f s a)) : ∀ (l : List α) (s : State), OnlyTokens s (l.foldl f s)
  | [], s => OnlyTokens.refl s
  | a :: l, s => (hf s a).trans (OnlyTokens.foldl hf l _)

section
variable {s t : State} (h : OnlyTokens s t)
include h

theorem OnlyTokens.zflags : t.zflags = s.zflags := by rw [h]
theorem OnlyTokens.zclrs : t.zclrs = s.zclrs := by rw [h]

end

theorem State.setDirty_onlyTokens (s : State) (k : Nat) : OnlyTokens s (s.setDirty k) := by
  unfold State.setDirty
  refine OnlyTokens.ite (OnlyTokens.refl s) ?_
  dsimp only
  split <;> rfl

theorem State.zeroTile_onlyTokens (s : State) (tile : Nat) : OnlyTokens s (s.zeroTile tile) := by
  have hzero (codes : List (Nat × BitVec 2)) : OnlyTokens s { s.zeroKeys (4096 * tile) 4096 with codes := codes } := rfl
  exact (hzero _).trans (State.setDirty_onlyTokens _ _)

theorem State.writeBlock_onlyTokens (s : State) (line key : Nat) : OnlyTokens s (s.writeBlock line key) :=
  OnlyTokens.trans (t := { s with codes := _ }) rfl (State.setDirty_onlyTokens _ key)

theorem State.homeEvict_onlyTokens (s : State) (l : Line) : OnlyTokens s (s.homeEvict l) := by
  unfold State.homeEvict
  split
  · rfl
  · refine OnlyTokens.ite rfl ?_
    exact (OnlyTokens.ite (s.writeBlock_onlyTokens _ _) (OnlyTokens.refl s)).trans rfl

theorem State.packFit_onlyTokens (need : Nat) : ∀ (fuel : Nat) (s : State) (ls : List Line), OnlyTokens s (s.packFit need ls fuel)
  | 0, s, _ => OnlyTokens.refl s
  | fuel + 1, s, ls => by
    unfold State.packFit
    refine OnlyTokens.ite (OnlyTokens.refl s) ?_
    split
    · rfl
    · exact (s.homeEvict_onlyTokens _).trans (State.packFit_onlyTokens need fuel _ _)

theorem State.escalate_onlyTokens (s : State) (a line : Nat) (w : Bool) : OnlyTokens s (s.escalate a line w) := OnlyTokens.ite rfl rfl

theorem State.makeRoom_onlyTokens (s : State) (l : Line) : OnlyTokens s (s.makeRoom l) := by
  unfold State.makeRoom
  refine OnlyTokens.ite (OnlyTokens.ite rfl (State.packFit_onlyTokens _ _ _ _)) (OnlyTokens.ite rfl (OnlyTokens.ite rfl ?_))
  split
  · exact s.homeEvict_onlyTokens _
  · split
    · rfl
    · exact s.escalate_onlyTokens _ _ _

theorem State.setTagged_onlyTokens (s : State) (l : Line) : OnlyTokens s (s.setTagged l) :=
  (OnlyTokens.ite (s.makeRoom_onlyTokens l) (OnlyTokens.refl s)).trans rfl

theorem State.sendClean_onlyTokens (s : State) (l : Line) : OnlyTokens s (s.sendClean l).1 := by
  unfold State.sendClean
  split
  · exact s.writeBlock_onlyTokens _ _
  · rfl

theorem State.send_onlyTokens (s : State) (m : TokMsg) : OnlyTokens s (s.send m) := OnlyTokens.ite rfl rfl

theorem State.sendAll_onlyTokens (s : State) (l : Line) (a : Nat) (d : Option Nat) : OnlyTokens s (s.sendAll l a d) := by
  unfold State.sendAll
  refine OnlyTokens.ite rfl ?_
  split
  · exact OnlyTokens.ite rfl rfl
  · exact OnlyTokens.trans (t := s.setLine _) rfl (State.send_onlyTokens _ _)

theorem State.surrender_onlyTokens (s : State) (line a : Nat) (d : Option Nat) : OnlyTokens s (s.surrender line a d) := by
  unfold State.surrender
  split
  · rfl
  · exact s.sendAll_onlyTokens _ a d

theorem State.sendHome_onlyTokens (s : State) (line a : Nat) : OnlyTokens s (s.sendHome line a) := by
  unfold State.sendHome
  split
  · rfl
  · refine OnlyTokens.ite rfl ?_
    exact ((s.sendClean_onlyTokens _).trans (State.setTagged_onlyTokens _ _)).trans (State.send_onlyTokens _ _)

theorem State.yieldFrom_onlyTokens (s : State) (line d : Nat) : OnlyTokens s (s.yieldFrom line d) := by
  unfold State.yieldFrom
  split
  · next w _ _ =>
    have hs := OnlyTokens.foldl (f := fun s a => s.surrender line a (some w.agent)) fun s a => s.surrender_onlyTokens line a _
    exact OnlyTokens.ite ((hs _ s).trans (State.sendHome_onlyTokens _ _ _)) (hs _ s)
  · rfl

theorem State.performClaims_onlyTokens (s : State) (line : Nat) : OnlyTokens s (s.performClaims line) := by
  unfold State.performClaims
  split <;> rfl

theorem State.tokensMoved_onlyTokens (s : State) (line : Nat) : OnlyTokens s (s.tokensMoved line) := by
  have hyield : OnlyTokens s (s.yieldTokens line) := OnlyTokens.foldl (fun s d => s.yieldFrom_onlyTokens line d) _ s
  have hclaims := hyield.trans (State.performClaims_onlyTokens _ line)
  unfold State.tokensMoved
  dsimp only
  split
  · exact hclaims
  · exact hclaims.trans rfl

/-! ### Clears of the zero map (R190, R367) -/

theorem mem_setDel {a b : Nat} : ∀ {l : List Nat}, l.Pairwise (· < ·) → (b ∈ setDel l a ↔ b ∈ l ∧ b ≠ a)
  | [], _ => by simp [setDel]
  | k :: r, h => by
    obtain ⟨hlt, hr⟩ := List.pairwise_cons.mp h
    unfold setDel
    split
    · next e =>
      subst e
      have hne : b ∈ r → b ≠ a := fun hb e => Nat.lt_irrefl a (hlt a (e ▸ hb))
      simp only [List.mem_cons]
      tauto
    · next hak =>
      simp only [List.mem_cons, mem_setDel hr]
      constructor
      · rintro (rfl | ⟨hb, hne⟩)
        · exact ⟨.inl rfl, Ne.symm hak⟩
        · exact ⟨.inr hb, hne⟩
      · rintro ⟨rfl | hb, hne⟩
        · exact .inl rfl
        · exact .inr ⟨hb, hne⟩

@[simp] theorem State.dropFlag_zflags (s : State) (tile : Nat) : (s.dropFlag tile).zflags = setDel s.zflags tile := by
  unfold State.dropFlag
  split
  · exact (State.zeroTile_onlyTokens { s with zflags := setDel s.zflags tile } tile).zflags
  · next h => exact (setDel_of_not_mem (by simpa using h)).symm

@[simp] theorem State.dropFlag_zclrs (s : State) (tile : Nat) : (s.dropFlag tile).zclrs = s.zclrs := by
  unfold State.dropFlag
  split
  · exact (State.zeroTile_onlyTokens { s with zflags := setDel s.zflags tile } tile).zclrs
  · rfl

/-- A clear that waits for no earlier one of its tile is served: the flag goes, then tokens move. -/
theorem State.zack_served {s : State} {n b tile : Nat} (h : s.zclrs[n]? = some (b, tile)) (hfirst : ∀ z ∈ s.zclrs.take n, z.2 ≠ tile) :
    OnlyTokens (State.dropFlag { s with zclrs := s.zclrs.eraseIdx n } tile) (s.zack n) := by
  have hany : ¬ (s.zclrs.take n).any (fun z => z.2 == tile) = true := fun h => by
    obtain ⟨z, hz, e⟩ := List.any_eq_true.mp h
    exact hfirst z hz (by simpa using e)
  unfold State.zack
  rw [h]
  dsimp only
  rw [if_neg hany]
  exact OnlyTokens.foldl State.tokensMoved_onlyTokens _ _

theorem State.zack_clears {s : State} {n b tile : Nat} (h : s.zclrs[n]? = some (b, tile)) (hfirst : ∀ z ∈ s.zclrs.take n, z.2 ≠ tile) :
    (s.zack n).zclrs = s.zclrs.eraseIdx n ∧ (s.zack n).zflags = setDel s.zflags tile := by
  have hserved := State.zack_served h hfirst
  exact ⟨by rw [hserved.zclrs, State.dropFlag_zclrs], by rw [hserved.zflags, State.dropFlag_zflags]⟩

theorem exec_zclr {s : State} {a tile : Nat} (hf : tile ∈ s.zflags)
    (hl : ∃ l ∈ s.lines, l.cls.coherent = true ∧ tileOf l.key = tile ∧ l.satisfied a true = true) (hz : (a, tile) ∉ s.zclrs) :
    exec (.zclr a tile) s = .next (State.clearAsked { s with zclrs := s.zclrs ++ [(a, tile)] } tile) := by
  have hany : s.lines.any (fun l => l.cls.coherent && tileOf l.key == tile && l.satisfied a true) = true := by simpa [and_assoc] using hl
  have hcond : s.zflags.contains tile = true ∧ s.lines.any (fun l => l.cls.coherent && tileOf l.key == tile && l.satisfied a true) = true ∧
      s.zclrs.contains (a, tile) = false := ⟨by simpa using hf, hany, by simpa using hz⟩
  exact congrArg _ (if_pos hcond)

/-! ### Poisoned bytes (R320) -/

theorem State.poisonBytes_eq : ∀ (n : Nat) (s : State) (key : Nat), ∃ pois, s.poisonBytes key n = { s with pois := pois }
  | 0, s, _ => ⟨s.pois, rfl⟩
  | n + 1, s, key => State.poisonBytes_eq n { s with pois := setAdd s.pois key } (key + 1)

theorem State.mem_pois_poisonBytes (k : Nat) : ∀ (n : Nat) (s : State) (key : Nat),
    k ∈ (s.poisonBytes key n).pois ↔ (key ≤ k ∧ k < key + n) ∨ k ∈ s.pois
  | 0, s, key => by simp [State.poisonBytes]
  | n + 1, s, key => by
    have hsplit : (key ≤ k ∧ k < key + (n + 1)) ↔ (key + 1 ≤ k ∧ k < key + 1 + n) ∨ k = key := by omega
    rw [State.poisonBytes, State.mem_pois_poisonBytes k n, mem_setAdd, hsplit, or_assoc]

theorem State.homeByte_flagged {s : State} {k : Nat} (h : tileOf k ∈ s.zflags) : s.homeByte k = (0, s.flagStruck (tileOf k)) :=
  if_pos (List.contains_iff_mem.mpr h)

theorem State.homeByte_unflagged {s : State} {k : Nat} (h : tileOf k ∉ s.zflags) :
    s.homeByte k = (memGet s.mem k, s.flagStruck (tileOf k) || s.pois.contains k) :=
  if_neg (by simpa using h)

section
variable (s : State) (key n : Nat)

@[simp] theorem State.poisonBytes_mem : (s.poisonBytes key n).mem = s.mem := by
  obtain ⟨_, e⟩ := s.poisonBytes_eq n key
  rw [e]

@[simp] theorem State.poisonBytes_zflags : (s.poisonBytes key n).zflags = s.zflags := by
  obtain ⟨_, e⟩ := s.poisonBytes_eq n key
  rw [e]

@[simp] theorem State.poisonBytes_ctx : (s.poisonBytes key n).ctx = s.ctx := by
  obtain ⟨_, e⟩ := s.poisonBytes_eq n key
  rw [e]

@[simp] theorem State.poisonBytes_flagStruck (tile : Nat) : (s.poisonBytes key n).flagStruck tile = s.flagStruck tile := by
  obtain ⟨_, e⟩ := s.poisonBytes_eq n key
  rw [e]
  rfl

@[simp] theorem State.poisonBytes_partitions : (s.poisonBytes key n).partitions = s.partitions := by
  obtain ⟨_, e⟩ := s.poisonBytes_eq n key
  rw [e]
  rfl

variable (k : Nat)

theorem State.homeByte_poisonBytes_out (h : ¬ (key ≤ k ∧ k < key + n)) : (s.poisonBytes key n).homeByte k = s.homeByte k := by
  have hpois : (s.poisonBytes key n).pois.contains k = s.pois.contains k := by simp [State.mem_pois_poisonBytes, h]
  simp only [State.homeByte, hpois, State.poisonBytes_mem, State.poisonBytes_zflags, State.poisonBytes_flagStruck]

theorem State.homeByte_poisonBytes_in (h : key ≤ k ∧ k < key + n) (hz : tileOf k ∉ s.zflags) :
    (s.poisonBytes key n).homeByte k = ((s.homeByte k).1, true) := by
  have hpois : (s.poisonBytes key n).pois.contains k = true := by simp [State.mem_pois_poisonBytes, h]
  rw [State.homeByte_unflagged (by simpa using hz), State.homeByte_unflagged hz, hpois, State.poisonBytes_mem, Bool.or_true]

/-- A set zero-map flag hides the error: the home does not read HBM4 there (R190). -/
theorem State.homeByte_poisonBytes_flagged (hz : tileOf k ∈ s.zflags) (he : tileOf k ∉ s.zflagErr) :
    (s.poisonBytes key n).homeByte k = (0, false) := by
  rw [State.homeByte_flagged (by simpa using hz), State.poisonBytes_flagStruck, State.flagStruck, List.contains_eq_mem, decide_eq_false he, Bool.false_and]

theorem State.poisonBytes_bytesBut : BytesBut (fun k => key ≤ k ∧ k < key + n) s (s.poisonBytes key n) :=
  ⟨s.homeByte_poisonBytes_out key n, s.poisonBytes_partitions key n⟩

end

/-! ### Line resets (R369) -/

/-- A line whose record says nothing more has none. -/
theorem find?_putLine_quiet {l : Line} (hq : l.quiet = true) (x : Nat) : ∀ {ls : List Line}, ls.Pairwise (fun a b => a.line < b.line) →
    (putLine l ls).find? (·.line == x) = if x = l.line then none else ls.find? (·.line == x)
  | [], _ => by simp [putLine, hq]
  | y :: r, h => by
    obtain ⟨hlt, hr⟩ := List.pairwise_cons.mp h
    unfold putLine
    rw [hq, if_pos rfl, if_pos rfl]
    split
    · next hly =>
      split
      · next e =>
        refine List.find?_eq_none.mpr fun z hz => ?_
        rcases List.mem_cons.mp hz with rfl | hz
        · simp; omega
        · have := hlt z hz
          simp; omega
      · rfl
    · split
      · next hly e =>
        split
        · next ex =>
          refine List.find?_eq_none.mpr fun z hz => ?_
          have := hlt z hz
          simp; omega
        · next ex => rw [List.find?_cons_of_neg (by simp; omega)]
      · next hly hne =>
        by_cases hy : y.line = x
        · rw [List.find?_cons_of_pos (by simpa using hy), List.find?_cons_of_pos (by simpa using hy), if_neg (by omega)]
        · rw [List.find?_cons_of_neg (by simpa using hy), List.find?_cons_of_neg (by simpa using hy), find?_putLine_quiet hq x hr]

theorem State.findLine_setLine_quiet {s : State} (h : s.lines.Pairwise (fun a b => a.line < b.line)) {l : Line} (hq : l.quiet = true) (x : Nat) :
    (s.setLine l).findLine x = if x = l.line then none else s.findLine x := find?_putLine_quiet hq x h

theorem placeByte_pa {v : Variant} {x : XlatRegs} {pa : Nat} {p : Place} (h : placeByte v x pa = some p) : p.pa = pa := by
  unfold placeByte at h
  split at h
  · cases h
  · split at h
    · dsimp only at h
      split at h
      · cases h
      · cases h
        rfl
    · split at h
      · cases h
        rfl
      · split at h
        · cases h
        · split at h
          · cases h
          · cases h
            rfl

theorem State.findLine_line {s : State} {x : Nat} {l : Line} (h : s.findLine x = some l) : l ∈ s.lines ∧ l.line = x :=
  ⟨List.mem_of_find?_eq_some h, by simpa using List.find?_some h⟩

/-- A coherent line's record is for the place of its address. -/
theorem State.lineAt_place {s : State} (hs : s.TokensOrdered) {line : Nat} {l : Line} (h : s.lineAt line = some l) :
    l.line = line ∧ ∃ p, s.place (128 * line) = some p ∧ p.cls.coherent = true := by
  unfold State.lineAt at h
  split at h
  · next l' hfind =>
    obtain ⟨hmem, hline⟩ := State.findLine_line hfind
    obtain ⟨-, hlines, -⟩ := hs
    obtain ⟨-, -, -, hplace, -⟩ := hlines l' hmem
    split at h
    · next hcoh =>
      cases h
      rw [hcoh, hline] at hplace
      exact ⟨hline, (Option.any_eq_true _ _).mp hplace⟩
    · cases h
  · split at h
    · cases h
    · next p hp =>
      split at h
      · next hcoh =>
        cases h
        have hline : p.pa / 128 = line := by rw [placeByte_pa hp]; omega
        exact ⟨hline, p, hp, hcoh⟩
      · cases h

theorem State.lineAt_of_absent {s : State} {line : Nat} {p : Place} (h : s.findLine line = none) (hp : s.place (128 * line) = some p)
    (hc : p.cls.coherent = true) : s.lineAt line = some (Line.atHome p) := by
  simp only [State.lineAt, h, hp, hc, if_true]

theorem State.drainFabric_drained {s : State} (hm : s.msgs = []) (hp : s.pmsgs = []) (hz : s.zclrs = []) : ∀ fuel, s.drainFabric fuel = s
  | 0 => rfl
  | fuel + 1 => by rw [State.drainFabric, hm, hp, hz]

theorem splitMerge_none {v : Variant} {p : WriteBack → Bool} : ∀ {l : List WriteBack}, (∀ wb ∈ l, p wb = false) → splitMerge v p l = ([], l)
  | [], _ => rfl
  | wb :: r, h => by
    obtain ⟨hwb, hr⟩ := List.forall_mem_cons.mp h
    simp [splitMerge, splitMerge_none hr, hwb]

theorem State.mergeWhere_unasked {s : State} {p : WriteBack → Bool} (h : ∀ wb ∈ s.writeBacks, p wb = false) : s.mergeWhere p = s := by
  rw [State.mergeWhere, splitMerge_none h]
  rfl

/-- With no persistent request for a line, nobody yields its tokens. -/
theorem State.yieldTokens_none {s : State} {line : Nat} (h : ∀ d, (s.table d).winner line = none) : s.yieldTokens line = s := by
  have hfrom (d : Nat) : s.yieldFrom line d = s := by
    unfold State.yieldFrom
    rw [h]
    cases s.lineAt line <;> rfl
  unfold State.yieldTokens
  induction List.range 6 with
  | nil => rfl
  | cons d l ih => rw [List.foldl_cons, hfrom, ih]

/-- What follows a change of a line's tokens is then that claims are performed and requests are over. -/
theorem State.tokensMoved_none {s : State} {line : Nat} (h : ∀ d, (s.table d).winner line = none) :
    ∃ claims pmsgs treqs, s.tokensMoved line = { s with claims := claims, pmsgs := pmsgs, treqs := treqs } := by
  have hclaims : ∃ claims pmsgs, s.performClaims line = { s with claims := claims, pmsgs := pmsgs } := by
    unfold State.performClaims
    split <;> exact ⟨_, _, rfl⟩
  obtain ⟨claims, pmsgs, hclaims⟩ := hclaims
  unfold State.tokensMoved
  rw [State.yieldTokens_none h, hclaims]
  dsimp only
  split <;> exact ⟨claims, pmsgs, _, rfl⟩

/-- The record of a line whose tokens and data the home alone has. -/
def Line.reset (l : Line) : Line := { l with holders := [], tag := none, away := false, hints := [] }

/-- A line reset of a drained fabric, before what follows a change of tokens. -/
def State.resetLine (s : State) (l : Line) : State :=
  State.poisonBytes (({ s with snoops := s.snoops.filter (·.line != l.line) } : State).setLine l.reset) l.key 128

theorem State.lineReset_drained {s : State} {line : Nat} {l : Line} (hl : s.lineAt line = some l) (hline : l.line = line) (hm : s.msgs = [])
    (hp : s.pmsgs = []) (hz : s.zclrs = []) (hwb : ∀ wb ∈ s.writeBacks, wb.src = none) (hflag : tileOf l.key ∉ s.zflags) :
    s.lineReset line = (s.resetLine l).tokensMoved line := by
  subst hline
  have hdrain : s.drainFabric trafficBound = s := State.drainFabric_drained hm hp hz _
  have hmerge : s.mergeWhere (fun wb => wb.src.isSome) = s := State.mergeWhere_unasked fun wb h => by simp [hwb wb h]
  have hmsgs : s.msgs.filter (fun m => m.line != l.line) = s.msgs := by simp [hm]
  have hdrop (u : State) (hu : tileOf l.key ∉ u.zflags) : u.dropFlag (tileOf l.key) = u := if_neg (by simpa using hu)
  simp only [State.lineReset, hl, hdrain, hmerge, hmsgs, State.resetLine, Line.reset]
  rw [hdrop { s with snoops := s.snoops.filter (·.line != l.line) } hflag]

/-! ### Write-backs that merge (R188, R217) -/

/-- A write at the home of a place over which no flag stands moves tokens and copies alone, but for the write itself. -/
theorem State.homeWrite_quiet {s : State} {p : Place} (hz : tileOf p.key ∉ s.zflags) (he : tileOf p.key ∉ s.zflagErr) : Quiet s (s.homeWrite p) := by
  have t := (s.serveClears_quiet (tileOf p.key)).trans (State.gatherHome_quiet _ p)
  have hclear : ((s.serveClears (tileOf p.key)).gatherHome p).clearFlag p.key = (s.serveClears (tileOf p.key)).gatherHome p :=
    State.clearFlag_unflagged (fun h => hz (t.flags _ h)) (by rw [t.zflagErr]; exact he)
  unfold State.homeWrite
  refine Quiet.ite (Quiet.refl s) (Quiet.ite (Quiet.refl s) ?_)
  dsimp only
  rw [hclear]
  exact Quiet.ite ((t.trans (State.setTagged_quiet _ _)).trans (State.wrote_quiet _ _)) (t.trans (State.setTagged_quiet _ _))

/-- Some bytes of a merging write-back are put in their places. -/
def State.putMerged (wb : WriteBack) (s : State) (i : Nat) : State :=
  if wb.mask.getLsbD i then s.putByte (wb.key + i) (wb.byte i) (wb.poi.getLsbD i) else s

/-- The bytes of the list `is` stand as the write-back has them, in a state whose other bytes are those of `s`. -/
theorem State.foldl_putMerged_homeByte {wb : WriteBack} : ∀ (is : List Nat) {s : State}, s.MemoryCanonical → is.Nodup →
    (∀ i ∈ is, tileOf (wb.key + i) ∉ s.zflags ∧ tileOf (wb.key + i) ∉ s.zflagErr) → ∀ k,
    ((∀ i ∈ is, k ≠ wb.key + i) → (is.foldl (State.putMerged wb) s).homeByte k = s.homeByte k) ∧
    (∀ i ∈ is, k = wb.key + i → (is.foldl (State.putMerged wb) s).homeByte k =
      if wb.mask.getLsbD i then (wb.byte i, wb.poi.getLsbD i) else s.homeByte k)
  | [], _, _, _, _, _ => ⟨fun _ => rfl, by simp⟩
  | j :: is, s, hcan, hnodup, hun, k => by
    obtain ⟨hj, hnodup⟩ := List.nodup_cons.mp hnodup
    obtain ⟨⟨hz, he⟩, hun⟩ := List.forall_mem_cons.mp hun
    have hcan' : (State.putMerged wb s j).MemoryCanonical := canonical_ite (State.putByte_canonical _ _ _ hcan) hcan
    have hflags : (State.putMerged wb s j).zflags = s.zflags ∧ (State.putMerged wb s j).zflagErr = s.zflagErr := by
      unfold State.putMerged
      split <;> exact ⟨rfl, rfl⟩
    have ih := State.foldl_putMerged_homeByte is hcan' hnodup (by rw [hflags.1, hflags.2]; exact hun) k
    have hother : k ≠ wb.key + j → (State.putMerged wb s j).homeByte k = s.homeByte k := fun h => by
      unfold State.putMerged
      split
      · exact State.homeByte_putByte_ne h _ _
      · rfl
    have hself : k = wb.key + j → (State.putMerged wb s j).homeByte k =
        if wb.mask.getLsbD j then (wb.byte j, wb.poi.getLsbD j) else s.homeByte k := fun h => by
      subst h
      unfold State.putMerged
      split
      · exact State.homeByte_putByte_self hcan.1 _ _ _ hz he fun _ => hcan.2
      · rfl
    refine ⟨fun h => ?_, fun i hi h => ?_⟩
    · obtain ⟨hkj, hk⟩ := List.forall_mem_cons.mp h
      exact (ih.1 hk).trans (hother hkj)
    · rcases List.mem_cons.mp hi with rfl | hi
      · refine (ih.1 fun m hm e => hj ?_).trans (hself h)
        rwa [show i = m by omega]
      · have hij : i ≠ j := fun e => hj (e ▸ hi)
        exact (ih.2 i hi h).trans (by rw [hother (by omega)])

theorem State.putMerged_frame (wb : WriteBack) : ∀ (is : List Nat) (s : State),
    (is.foldl (State.putMerged wb) s).writeBacks = s.writeBacks ∧ (is.foldl (State.putMerged wb) s).partitions = s.partitions
  | [], _ => ⟨rfl, rfl⟩
  | i :: is, s => by
    obtain ⟨hwb, hpart⟩ := State.putMerged_frame wb is (State.putMerged wb s i)
    have hstep : (State.putMerged wb s i).writeBacks = s.writeBacks ∧ (State.putMerged wb s i).partitions = s.partitions := by
      unfold State.putMerged
      split <;> exact ⟨rfl, rfl⟩
    exact ⟨hwb.trans hstep.1, hpart.trans hstep.2⟩

/-- A write-back that no other must precede merges alone. -/
theorem State.writeBackMerge_alone {s : State} {n : Nat} {wb : WriteBack} (h : s.writeBacks[n]? = some wb)
    (hfirst : ∀ x ∈ s.writeBacks.take n, x.before s.variant wb = false) :
    s.writeBackMerge n = State.mergeBack { s with writeBacks := s.writeBacks.eraseIdx n } wb := by
  simp only [State.writeBackMerge, h, splitMerge_none hfirst, List.foldl_nil, List.eraseIdx_eq_take_drop_succ]

theorem State.mergeBack_bytes {s : State} {wb : WriteBack} (hcan : s.MemoryCanonical) (hun : s.Unmapped ((List.range 128).map (wb.key + ·)))
    (hmap : ∀ i < 128, ¬ s.BitmapByte (wb.key + i)) :
    (s.mergeBack wb).writeBacks = s.writeBacks ∧
      (∀ i < 128, (s.mergeBack wb).homeByte (wb.key + i) = if wb.mask.getLsbD i then (wb.byte i, wb.poi.getLsbD i) else s.homeByte (wb.key + i)) ∧
      BytesBut (fun k => (wb.key ≤ k ∧ k < wb.key + 128) ∨ s.BitmapByte k) s (s.mergeBack wb) := by
  have hun' (i : Nat) (hi : i < 128) : tileOf (wb.key + i) ∉ s.zflags ∧ tileOf (wb.key + i) ∉ s.zflagErr :=
    hun _ (List.mem_map_of_mem (List.mem_range.mpr hi))
  have hq : Quiet s (s.homeWrite wb.place) := State.homeWrite_quiet (hun' 0 (by decide)).1 (hun' 0 (by decide)).2
  obtain ⟨hbytes, hpart⟩ := hq.bytesBut
  obtain ⟨hfwb, hfpart⟩ := State.putMerged_frame wb (List.range 128) (s.homeWrite wb.place)
  have hput := State.foldl_putMerged_homeByte (wb := wb) (List.range 128) (State.homeWrite_canonical wb.place hcan) List.nodup_range
    fun i hi => ⟨fun hf => (hun' i (List.mem_range.mp hi)).1 (hq.flags _ hf), by rw [hq.zflagErr]; exact (hun' i (List.mem_range.mp hi)).2⟩
  refine ⟨hfwb.trans hq.writeBacks, fun i hi => ?_, fun k hk => ?_, hfpart.trans hpart⟩
  · rw [← hbytes _ (hmap i hi)]
    exact (hput _).2 i (List.mem_range.mpr hi) rfl
  · obtain ⟨hkeys, hbit⟩ := not_or.mp hk
    refine ((hput k).1 fun i hi e => hkeys ?_).trans (hbytes k hbit)
    have := List.mem_range.mp hi
    omega

/-! ### Errors (R320, R363, R403) -/

theorem getLast?_lastEntries (l : List LogEntry) (e : LogEntry) : (lastEntries (l ++ [e])).getLast? = some e := by
  have hdrop : (l ++ [e]).length - 64 ≤ l.length := by simp
  rw [lastEntries, List.drop_append_of_le_length hdrop, List.getLast?_concat]

theorem State.fatalError_first {s : State} (h : s.mgmt.fatal = false) (k : FatalKind) :
    (s.fatalError k).mgmt.fatal = true ∧ (s.fatalError k).mgmt.errlog.getLast? = some (.fatal k) ∧ (s.fatalError k).mem = s.mem ∧
      (s.fatalError k).ctx = s.ctx := by
  rw [State.fatalError, if_neg (by simp [h])]
  exact ⟨rfl, getLast?_lastEntries _ _, rfl, rfl⟩

@[simp] theorem State.spreadEnds_mem (s : State) : s.spreadEnds.mem = s.mem := by
  unfold State.spreadEnds
  dsimp only
  split <;> rfl

/-- A context that has stopped issuing stays as it is, but for the save area that it is away in. -/
theorem Context.terminate_status_ending {c : Context} {r : EndReason} (h : c.status = .ending r) (r' : EndReason) : (c.terminate r').status = .ending r := by
  have hlive : c.live = false := by simp [Context.live, h]
  have hgone : c.gone = false := by simp [Context.gone, h]
  simp [Context.terminate, hlive, hgone, h]

theorem Context.terminate_live {c : Context} (h : c.live = true) (r : EndReason) : (c.terminate r).status = .ending r := by
  simp only [Context.terminate, h, if_true, Context.stopFor]

theorem State.spreadEnds_status_ending {s : State} {r : EndReason} (h : s.ctx.status = .ending r) : s.spreadEnds.ctx.status = .ending r := by
  unfold State.spreadEnds
  dsimp only
  split
  · exact h
  · simp only [mapCtxs]
    split
    · exact Context.terminate_status_ending h _
    · exact h

/-- The context on turn is ended, and with it its chain; memory is as it was. -/
theorem State.terminateTurn {s : State} (h : s.ctx.live = true) (r : EndReason) :
    ((s.setCtx (s.ctx.terminate r)).spreadEnds).ctx.status = .ending r ∧ ((s.setCtx (s.ctx.terminate r)).spreadEnds).mem = s.mem :=
  ⟨State.spreadEnds_status_ending (Context.terminate_live h r), State.spreadEnds_mem _⟩

theorem exec_uncorrectableError (u : ErrUnit) (s : State) : exec (.uncorrectableError u) s = .next (s.uncorrectable u) := rfl

theorem sector_iff {a k : Nat} : (a / 32 * 32 ≤ k ∧ k < a / 32 * 32 + 32) ↔ k / 32 = a / 32 := by omega

theorem tileOf_sector {a k : Nat} (h : k / 32 = a / 32) : tileOf k = tileOf a := by
  unfold tileOf
  omega

/-! ### The events -/

theorem exec_lineReset {s : State} {line : Nat} {l : Line} (hl : s.lineAt line = some l) (hs : s.TokensOrdered) (hm : s.msgs = []) (hp : s.pmsgs = [])
    (hz : s.zclrs = []) (hwb : ∀ wb ∈ s.writeBacks, wb.src = none) (hwin : ∀ d, (s.table d).winner line = none)
    (hflags : ∀ i < 128, tileOf (l.key + i) ∉ s.zflags) :
    ∃ t p, exec (.lineReset line) s = .next t ∧ s.place (128 * line) = some p ∧
        t.lineAt line = some (Line.atHome p) ∧ (Line.atHome p).homeTokens = 128 ∧ t.msgs = [] ∧ (∀ x, x ≠ line → t.findLine x = s.findLine x) ∧
        (∀ i < 128, t.homeByte (l.key + i) = ((s.homeByte (l.key + i)).1, true)) ∧ BytesBut (fun k => l.key ≤ k ∧ k < l.key + 128) s t := by
  obtain ⟨hline, p, hplace, hcoh⟩ := State.lineAt_place hs hl
  let r : State := ({ s with snoops := s.snoops.filter (·.line != l.line) } : State).setLine l.reset
  obtain ⟨pois, hpois⟩ := r.poisonBytes_eq 128 l.key
  obtain ⟨claims, pmsgs, treqs, hmoved⟩ := State.tokensMoved_none (s := { r with pois := pois }) (line := line) hwin
  let t : State := { r with pois := pois, claims := claims, pmsgs := pmsgs, treqs := treqs }
  have hreset : s.lineReset line = t := (State.lineReset_drained hl hline hm hp hz hwb (hflags 0 (by decide))).trans (by
    rw [State.resetLine, show State.poisonBytes _ l.key 128 = { r with pois := pois } from hpois, hmoved])
  have hfind (x : Nat) : t.findLine x = if x = line then none else s.findLine x :=
    hline ▸ State.findLine_setLine_quiet (s := { s with snoops := s.snoops.filter (·.line != l.line) }) hs.1 (l := l.reset) rfl x
  have hbyte (k : Nat) : t.homeByte k = (r.poisonBytes l.key 128).homeByte k := by rw [hpois]; rfl
  exact ⟨t, p, congrArg _ hreset, hplace, State.lineAt_of_absent ((hfind line).trans (if_pos rfl)) hplace hcoh, rfl, hm,
    fun x hx => (hfind x).trans (if_neg hx),
    fun i hi => (hbyte _).trans (r.homeByte_poisonBytes_in l.key 128 _ (by omega) (hflags i hi)),
    fun k hk => (hbyte k).trans (r.homeByte_poisonBytes_out l.key 128 k hk), rfl⟩

/-- Settles O50: what moves tokens and copies changes no byte (`Quiet`), so that each event changes the bytes that it writes itself. -/
theorem memoryEventsAct : Obligations.MemoryEventsAct := by
  unfold Obligations.MemoryEventsAct
  intro s a tile line n
  refine ⟨exec_zclr, fun b hz hfirst => ?_, fun l hl hs hm hp hz hwb hwin hflags => exec_lineReset hl hs hm hp hz hwb hwin hflags,
    fun wb hcan hn hfirst hun hmap => ?_, fun hsnoop hfatal => ?_, ?_, fun hlive => ?_, fun hfatal => ?_⟩
  · obtain ⟨hzclrs, hzflags⟩ := State.zack_clears hz hfirst
    have hbytes := (s.zack_quiet n).bytesBut
    exact ⟨s.zack n, rfl, hzclrs, fun hout => ⟨hzflags.trans (setDel_of_not_mem hout), hbytes⟩,
      fun _ hsorted => ⟨fun x => by rw [hzflags, mem_setDel hsorted], hbytes⟩⟩
  · exact ⟨s.writeBackMerge n, rfl, by
      rw [State.writeBackMerge_alone hn hfirst]
      exact State.mergeBack_bytes (s := { s with writeBacks := s.writeBacks.eraseIdx n }) hcan hun hmap⟩
  · obtain ⟨hf, hlog, -, -⟩ := State.fatalError_first hfatal .backInvalidate
    have hany : s.snoops.any (fun x => x.line == line) = true := by simpa using hsnoop
    exact ⟨s.fatalError .backInvalidate, congrArg _ (if_pos hany), hf, hlog⟩
  · have hbut := s.poisonBytes_bytesBut (a / 32 * 32) 32
    simp only [sector_iff] at hbut
    refine ⟨_, exec_uncorrectableError _ s, hbut, s.poisonBytes_ctx _ _, fun hz k hk => ?_, fun hz he k hk => ?_⟩
    · exact s.homeByte_poisonBytes_in _ _ k (sector_iff.mpr hk) (by rwa [tileOf_sector hk])
    · exact s.homeByte_poisonBytes_flagged _ _ k (by rwa [tileOf_sector hk]) (by rwa [tileOf_sector hk])
  · obtain ⟨hstatus, hmem⟩ := State.terminateTurn hlive .aborted
    exact ⟨_, exec_uncorrectableError _ s, hstatus, hmem, getLast?_lastEntries _ _⟩
  · obtain ⟨hf, -, hmem, hctx⟩ := State.fatalError_first hfatal .controller
    exact ⟨_, exec_uncorrectableError _ s, hf, hmem, hctx⟩

end Sys2Proof.Machine
end

section
/-! # Memory moves and the sequencers stay

Whatever caches, homes, engines, the device and the host do with memory leaves every context as it is, but for the record of its commands'
zeros, and leaves pipelines and their instances alone. -/

namespace Sys2Proof.Machine

/-! ### The frame -/

/-- The machine without memory and all that stands between memory and the contexts. -/
def State.sansMemory (s : State) : State := { s.apart with zflagErr := [], writeBacks := [], posted := [], fusedSets := [], devFaults := [] }

/-- `t` differs from `s` in memory and in what stands between memory and the contexts, at most. -/
def OnlyMemory (s t : State) : Prop := t.sansMemory = s.sansMemory

theorem OnlyMemory.refl (s : State) : OnlyMemory s s := rfl

theorem OnlyMemory.trans {s t u : State} (h : OnlyMemory s t) (k : OnlyMemory t u) : OnlyMemory s u := Eq.trans k h

theorem OnlyMemory.ite {p : Prop} [Decidable p] {s t u : State} (ht : OnlyMemory s t) (hu : OnlyMemory s u) : OnlyMemory s (if p then t else u) := by
  split
  · exact ht
  · exact hu

theorem OnlyMemory.foldl {α : Type} {f : State → α → State} (hf : ∀ s a, OnlyMemory s (f s a)) : ∀ (l : List α) (s : State), OnlyMemory s (l.foldl f s)
  | [], s => OnlyMemory.refl s
  | a :: l, s => (hf s a).trans (OnlyMemory.foldl hf l _)

theorem Quiet.onlyMemory {s t : State} (h : Quiet s t) : OnlyMemory s t :=
  congrArg (fun r : State => ({ r with zflagErr := [], writeBacks := [], posted := [], fusedSets := [], devFaults := [] } : State)) h.apart

theorem OnlyTokens.onlyMemory {s t : State} (h : OnlyTokens s t) : OnlyMemory s t := by
  rw [OnlyMemory, h]
  rfl

section
variable {s t : State} (h : OnlyMemory s t)
include h

theorem OnlyMemory.pipelines : t.pipelines = s.pipelines := congrArg (fun r => r.pipelines) h
theorem OnlyMemory.tvecdef : t.mgmt.tvecdef = s.mgmt.tvecdef := congrArg (fun r => r.mgmt.tvecdef) h
theorem OnlyMemory.variant : t.variant = s.variant := congrArg (fun r => r.variant) h
theorem OnlyMemory.ctx : t.ctx.sansCmds = s.ctx.sansCmds := congrArg State.ctx h
theorem OnlyMemory.others : t.others.map Context.sansCmds = s.others.map Context.sansCmds := congrArg State.others h

theorem OnlyMemory.pipelineOf (lnum : Nat) : t.pipelineOf lnum = s.pipelineOf lnum := by rw [State.pipelineOf, State.pipelineOf, h.pipelines]

end

/-! ### Writes at the home -/

theorem State.putByte_onlyMemory (s : State) (k : Nat) (b : Byte) (p : Bool) : OnlyMemory s (s.putByte k b p) := rfl

theorem State.clearFlag_onlyMemory (s : State) (key : Nat) : OnlyMemory s (s.clearFlag key) := (s.dropFlag_quiet (tileOf key)).onlyMemory.trans rfl

theorem State.acquire_onlyMemory (s : State) (a : Nat) (p : Place) (w : Bool) : OnlyMemory s (s.acquire a p w) := by
  have t := (s.gatherFor_quiet a p w).onlyMemory
  exact OnlyMemory.ite ((t.trans (State.clearFlag_onlyMemory _ _)).trans (State.wrote_quiet _ _).onlyMemory) t

theorem State.homeWrite_onlyMemory (s : State) (p : Place) : OnlyMemory s (s.homeWrite p) := by
  have t := ((s.serveClears_quiet (tileOf p.key)).trans (State.gatherHome_quiet _ p)).onlyMemory.trans (State.clearFlag_onlyMemory _ p.key)
  exact OnlyMemory.ite (OnlyMemory.refl s) (OnlyMemory.ite (OnlyMemory.refl s)
    (OnlyMemory.ite ((t.trans (State.setTagged_quiet _ _).onlyMemory).trans (State.wrote_quiet _ _).onlyMemory)
      (t.trans (State.setTagged_quiet _ _).onlyMemory)))

theorem State.mergeBack_onlyMemory (s : State) (wb : WriteBack) : OnlyMemory s (s.mergeBack wb) :=
  (s.homeWrite_onlyMemory _).trans (OnlyMemory.foldl (fun t _ => OnlyMemory.ite (t.putByte_onlyMemory _ _ _) (OnlyMemory.refl t)) _ _)

theorem State.mergeWhere_onlyMemory (s : State) (p : WriteBack → Bool) : OnlyMemory s (s.mergeWhere p) :=
  OnlyMemory.trans (t := (splitMerge s.variant p s.writeBacks).1.foldl State.mergeBack s) (OnlyMemory.foldl State.mergeBack_onlyMemory _ s) rfl

theorem State.hostStore_onlyMemory (s : State) (o : Nat) (p : Place) (b : Byte) (m : Bool) : OnlyMemory s (s.hostStore o p b m) := by
  unfold State.hostStore
  dsimp only
  split
  · rfl
  · split <;> rfl

theorem State.recallTile_onlyMemory (s : State) (p : Place) : OnlyMemory s (s.recallTile p) :=
  OnlyMemory.foldl (fun s _ => (s.gatherHome_quiet _).onlyMemory) _ s

theorem State.gatherTile_onlyMemory (s : State) (p : Place) : OnlyMemory s (s.gatherTile p) :=
  OnlyMemory.foldl (fun s _ => (s.gatherHome_quiet _).onlyMemory) _ s

theorem State.wipeTile_onlyMemory (s : State) (p : Place) : OnlyMemory s (s.wipeTile p) := by
  have hflags (u : State) (f e : List Nat) : OnlyMemory u { u with zflags := f, zflagErr := e } := rfl
  exact (((s.recallTile_onlyMemory p).trans (hflags _ _ _)).trans (State.zeroTile_onlyTokens _ _).onlyMemory).trans
    (State.clearAsked_quiet _ _).onlyMemory

theorem State.setFlag_onlyMemory (s : State) (p : Place) : OnlyMemory s (s.setFlag p) := by
  have hzero (u : State) (key : Nat) (f e : List Nat) : OnlyMemory u { u.zeroKeys key 4096 with zflags := f, zflagErr := e } := rfl
  exact ((s.gatherTile_onlyMemory p).trans (hzero _ _ _ _)).trans (State.setDirty_quiet _ _).onlyMemory

/-! ### Software-managed lines -/

theorem State.putSw_onlyMemory (s : State) (l : SwLine) : OnlyMemory s (s.putSw l) := rfl

theorem State.fillSw_onlyMemory (s : State) (k : CacheId) (p : Place) : OnlyMemory s (s.fillSw k p) := by
  unfold State.fillSw
  dsimp only
  split <;> exact (s.mergeWhere_onlyMemory _).trans (State.putSw_onlyMemory _ _)

theorem State.swReady_onlyMemory (s : State) (c : Context) (p : Place) (w : Bool) : OnlyMemory s (s.swReady c p w) := by
  unfold State.swReady
  dsimp only
  split
  · exact s.fillSw_onlyMemory _ p
  · exact OnlyMemory.ite (s.fillSw_onlyMemory _ p) (OnlyMemory.refl s)

theorem State.swPut_onlyMemory (s : State) (k : CacheId) (p : Place) (b : Byte) (m : Bool) : OnlyMemory s (s.swPut k p b m) := by
  unfold State.swPut
  split <;> rfl

theorem State.sendBack_onlyMemory (s : State) (o : Option Nat) (k : CacheId × Nat) : OnlyMemory s (s.sendBack o k) := by
  have hsend (l : SwLine) : OnlyMemory s (s.sendDirty o l) := OnlyMemory.ite rfl rfl
  unfold State.sendBack
  split
  · rfl
  · exact OnlyMemory.ite rfl ((hsend _).trans (State.putSw_onlyMemory _ _))

/-! ### Writes of the host -/

theorem State.hostPut_onlyMemory (s : State) (p : Place) (b : Byte) : OnlyMemory s (s.hostPut p b) := by
  unfold State.hostPut
  split
  · exact (s.mergeWhere_onlyMemory _).trans (State.putByte_onlyMemory _ _ _ _)
  · exact (s.homeWrite_onlyMemory p).trans (State.putByte_onlyMemory _ _ _ _)
  all_goals exact (s.acquire_onlyMemory hostAgent p true).trans (State.putByte_onlyMemory _ _ _ _)

theorem State.hostPuts_onlyMemory : ∀ (bs : List Byte) (s : State) (pa : Nat), OnlyMemory s (s.hostPuts pa bs)
  | [], s, _ => OnlyMemory.refl s
  | b :: bs, s, pa => by
    unfold State.hostPuts
    split
    · exact State.hostPuts_onlyMemory bs s _
    · exact (s.hostPut_onlyMemory _ b).trans (State.hostPuts_onlyMemory bs _ _)

/-- The host's write, unless it is performed already. -/
def State.performWrite (s : State) (e : Posted) : State := if e.performed then s else s.hostPuts e.pa e.bytes

theorem State.performUpTo_onlyMemory (s : State) (n : Nat) : OnlyMemory s (s.performUpTo n) :=
  OnlyMemory.trans (t := (s.posted.take n).foldl State.performWrite s)
    (OnlyMemory.foldl (fun t _ => OnlyMemory.ite (OnlyMemory.refl t) (State.hostPuts_onlyMemory _ t _)) _ s) rfl

theorem State.synchronise_onlyMemory (s : State) (ls : List Loc) : OnlyMemory s (s.synchronise ls) :=
  OnlyMemory.ite (OnlyMemory.refl s) (OnlyMemory.ite (OnlyMemory.refl s) (s.performUpTo_onlyMemory _))

/-! ### Accesses -/

theorem State.backingReady_onlyMemory (s : State) (p : Place) (d : Option Nat) (w : Bool) : OnlyMemory s (s.backingReady p d w) := by
  unfold State.backingReady
  split
  · exact OnlyMemory.ite (s.acquire_onlyMemory _ p w) (OnlyMemory.ite (s.homeWrite_onlyMemory p) (OnlyMemory.refl s))
  · exact OnlyMemory.ite (s.homeWrite_onlyMemory p) (s.gatherHome_quiet p).onlyMemory

theorem State.prepare_onlyMemory (s : State) (c : Context) (w : Bool) (l : Loc) : OnlyMemory s (s.prepare c w l) := by
  unfold State.prepare
  split
  · rfl
  · rfl
  · exact s.backingReady_onlyMemory _ _ w
  · split
    · exact s.swReady_onlyMemory c _ w
    · rfl
    all_goals exact s.acquire_onlyMemory _ _ w

theorem State.prepareFrom_onlyMemory (c : Context) (w : Bool) : ∀ (ls : List Loc) (s : State) (last : Option Loc),
    OnlyMemory s (s.prepareFrom c w last ls)
  | [], s, _ => OnlyMemory.refl s
  | l :: ls, s, _ => (OnlyMemory.ite (OnlyMemory.refl s) (s.prepare_onlyMemory c w l)).trans (State.prepareFrom_onlyMemory c w ls _ _)

theorem State.loadLocs_onlyMemory (s : State) (c : Context) (ls : List Loc) : OnlyMemory s (s.loadLocs c ls).2 :=
  (State.prepareFrom_onlyMemory c false ls s none).trans (State.synchronise_onlyMemory _ ls)

/-- A byte that an engine writes outside the partitions of scratch. -/
theorem State.enginePut_onlyMemory (s : State) (w : Who) (b : Byte) (m : Bool) {l : Loc} (h : l.inScratch = false) : OnlyMemory s (s.enginePut w b m l) := by
  have hput (u : State) (p : Place) : OnlyMemory u ((u.putByte p.key b m).regrow p) := (u.putByte_onlyMemory _ b m).trans (State.regrow_quiet _ p).onlyMemory
  cases l with
  | scratch => cases h
  | lost => rfl
  | backing p d => exact (s.backingReady_onlyMemory p d true).trans (hput _ p)
  | mem p =>
    unfold State.enginePut
    dsimp only
    split
    · exact s.hostStore_onlyMemory _ p b m
    · exact ((s.mergeWhere_onlyMemory _).trans (State.homeWrite_onlyMemory _ p)).trans (hput _ p)

/-! ### The device's accesses (R304) -/

/-- The device reaches no partition of scratch: it is a member of no brigade. -/
theorem State.locate_deviceWho {s : State} {asid va : Nat} {a : Access} {l : Loc} (h : s.locate (deviceWho asid) va a = .ok l) : l.inScratch = false := by
  unfold State.locate at h
  split at h
  · cases h
  · split at h
    · dsimp only at h
      split at h
      · cases h
      · rw [if_pos (by simp [deviceWho])] at h
        cases h
    · unfold State.locateMem at h
      split at h
      · cases h
      · split at h <;> cases h
        rfl

theorem State.locateBytes_deviceWho {s : State} {asid : Nat} {a : Access} : ∀ {n va : Nat} {ls : List Loc},
    s.locateBytes (deviceWho asid) va a n = .ok ls → ∀ l ∈ ls, l.inScratch = false
  | 0, _, _, h => by
    cases h
    simp
  | n + 1, va, ls, h => by
    unfold State.locateBytes at h
    split at h
    · cases h
    · next hl =>
      split at h
      · cases h
      · next hr =>
        cases h
        exact List.forall_mem_cons.mpr ⟨State.locate_deviceWho hl, State.locateBytes_deviceWho hr⟩

theorem State.enginePuts_onlyMemory (w : Who) : ∀ {l : List (Loc × Byte × Bool)} (_ : ∀ x ∈ l, x.1.inScratch = false) (s : State),
    OnlyMemory s (l.foldl (fun s (l, b, p) => s.enginePut w b p l) s)
  | [], _, s => OnlyMemory.refl s
  | x :: l, h, s => by
    obtain ⟨hx, hl⟩ := List.forall_mem_cons.mp h
    exact (s.enginePut_onlyMemory w _ _ hx).trans (State.enginePuts_onlyMemory w hl _)

theorem State.engineWrite_device_onlyMemory {s t : State} {asid va : Nat} {bs : List (Byte × Bool)} (h : s.engineWrite (deviceWho asid) va bs = .ok t) :
    OnlyMemory s t := by
  unfold State.engineWrite at h
  split at h
  · cases h
  · next ls hls =>
    cases h
    unfold State.locateN at hls
    split at hls
    · have hscratch := State.locateBytes_deviceWho hls
      exact (State.enginePuts_onlyMemory _ (fun x hx => hscratch _ (List.of_mem_zip hx).1) s).trans (State.fillPages_quiet _ _ _ _).onlyMemory
    · cases hls

theorem State.wipe_onlyMemory {w : Who} : ∀ {n : Nat} {s t : State} {va : Nat}, s.wipe w va n = .ok t → OnlyMemory s t
  | 0, _, _, _, h => by
    cases h
    rfl
  | n + 1, s, t, va, h => by
    unfold State.wipe at h
    split at h
    case h_5 p _ => exact ((s.wipeTile_onlyMemory p).trans (State.fillPages_quiet _ _ _ _).onlyMemory).trans (State.wipe_onlyMemory h)
    all_goals cases h

theorem State.writePieceBytes_device_onlyMemory {asid base : Nat} : ∀ {l : List (Nat × Byte × Bool)} {s t : State},
    s.writePieceBytes (deviceWho asid) base l = .ok t → OnlyMemory s t
  | [], _, _, h => by
    cases h
    rfl
  | (o, b, m) :: r, s, t, h => by
    unfold State.writePieceBytes at h
    split at h
    · cases h
    · next hw => exact (State.engineWrite_device_onlyMemory hw).trans (State.writePieceBytes_device_onlyMemory h)

theorem State.writeImage_device_onlyMemory {s t : State} {asid base len : Nat} {ps : List Piece} (h : s.writeImage (deviceWho asid) base len ps = .ok t) :
    OnlyMemory s t := by
  unfold State.writeImage at h
  split at h
  · cases h
  · next hw => exact (State.wipe_onlyMemory hw).trans (State.writePieceBytes_device_onlyMemory h)

theorem State.touchImage_onlyMemory (w : Who) : ∀ (n : Nat) (s : State) (va : Nat), OnlyMemory s (s.touchImage w va n)
  | 0, s, _ => OnlyMemory.refl s
  | n + 1, s, va => by
    unfold State.touchImage
    split
    · exact ((s.recallTile_onlyMemory _).trans (State.fillPages_quiet _ _ _ _).onlyMemory).trans (State.touchImage_onlyMemory w n _ _)
    · rfl

theorem State.touchArea_onlyMemory (s : State) (w : Who) (base len : Nat) : OnlyMemory s (s.touchArea w base len) := State.touchImage_onlyMemory w _ s _

/-! ### Blocks of die SRAM and fused sets (R175, R178) -/

theorem State.evictBlocks_onlyMemory (s : State) (die : Nat) (bs : List Nat) : OnlyMemory s (s.evictBlocks die bs) := by
  refine OnlyMemory.foldl (fun s b => ?_) bs s
  have hsurrender : ∀ (ns : List Nat) (u : State), OnlyMemory u (ns.foldl (fun s n => s.surrender n (agentOfCache (.die die)) none) u) :=
    OnlyMemory.foldl fun u n => (u.surrender_quiet n _ none).onlyMemory
  have hsend : ∀ (ks : List (CacheId × Nat)) (u : State), OnlyMemory u (ks.foldl (fun s k => s.sendBack none k) u) :=
    OnlyMemory.foldl fun u k => u.sendBack_onlyMemory none k
  have hdrop (u : State) (ls : List SwLine) : OnlyMemory u { u with swLines := ls } := rfl
  exact ((hsend _ s).trans (hdrop _ _)).trans (hsurrender _ _)

theorem State.fuseLine_onlyMemory (s : State) (f : FusedSet) (n : Nat) : OnlyMemory s (s.fuseLine f n) := by
  unfold State.fuseLine
  dsimp only
  split <;> rfl

theorem State.fuseSet_onlyMemory (s : State) (f : FusedSet) : OnlyMemory s (s.fuseSet f) :=
  (OnlyMemory.foldl (fun s n => s.fuseLine_onlyMemory f n) _ s).trans
    (OnlyMemory.foldl (fun _ _ => OnlyMemory.foldl (fun s _ => (s.surrender_quiet _ _ _).onlyMemory) _ _) _ _)

theorem State.fuse_onlyMemory (s : State) (lnum stage inst : Nat) : OnlyMemory s (s.fuse lnum stage inst) :=
  OnlyMemory.trans (t := { s with fusedSets := _ }) rfl (OnlyMemory.foldl State.fuseSet_onlyMemory _ _)

/-- A field that each step of a fold keeps, the whole fold keeps. -/
theorem State.foldl_keeps {α β : Type} {f : State → α → State} (field : State → β) (hf : ∀ s a, field (f s a) = field s) :
    ∀ (l : List α) (s : State), field (l.foldl f s) = field s
  | [], _ => rfl
  | a :: l, s => (State.foldl_keeps field hf l _).trans (hf s a)

theorem State.surrender_home_mem (s : State) (line a : Nat) : (s.surrender line a none).mem = s.mem := by
  have hsend (u : State) (m : TokMsg) : (u.send m).mem = u.mem := by
    unfold State.send
    split <;> rfl
  unfold State.surrender
  split
  · rfl
  · unfold State.sendAll
    split
    · rfl
    · rw [ite_self]
      exact hsend _ _

theorem State.fuseLine_mem (s : State) (f : FusedSet) (n : Nat) : (s.fuseLine f n).mem = s.mem := by
  unfold State.fuseLine
  dsimp only
  split <;> rfl

/-- Fused sets form without a write to HBM4. -/
theorem State.fuse_mem (s : State) (lnum stage inst : Nat) : (s.fuse lnum stage inst).mem = s.mem := by
  have hset (u : State) (f : FusedSet) : (u.fuseSet f).mem = u.mem :=
    (State.foldl_keeps State.mem (fun u _ => State.foldl_keeps State.mem (fun u a => u.surrender_home_mem _ a) _ u) _ _).trans
      (State.foldl_keeps State.mem (fun u n => u.fuseLine_mem f n) _ u)
  exact State.foldl_keeps State.mem hset _ { s with fusedSets := _ }

end Sys2Proof.Machine
end

section
/-! # What has been begun does not concern the scheduler

`State.performBegun` makes second parts of accesses and writes bytes of commands, context after context (R178, R194, R195). -/

namespace Sys2Proof.Machine

/-- Pipelines, with their stages and instances, and the vector that contexts start with are the same. -/
def SameScheduler (s t : State) : Prop := t.pipelines = s.pipelines ∧ t.mgmt.tvecdef = s.mgmt.tvecdef

theorem SameScheduler.refl (s : State) : SameScheduler s s := ⟨rfl, rfl⟩

theorem SameScheduler.trans {s t u : State} (h : SameScheduler s t) (k : SameScheduler t u) : SameScheduler s u :=
  ⟨k.1.trans h.1, k.2.trans h.2⟩

theorem SameScheduler.ite {p : Prop} [Decidable p] {s t u : State} (ht : SameScheduler s t) (hu : SameScheduler s u) :
    SameScheduler s (if p then t else u) := by
  split
  · exact ht
  · exact hu

theorem SameScheduler.foldl {α : Type} {f : State → α → State} (hf : ∀ s a, SameScheduler s (f s a)) :
    ∀ (l : List α) (s : State), SameScheduler s (l.foldl f s)
  | [], s => SameScheduler.refl s
  | a :: l, s => (hf s a).trans (SameScheduler.foldl hf l _)

theorem OnlyMemory.sameScheduler {s t : State} (h : OnlyMemory s t) : SameScheduler s t := ⟨h.pipelines, h.tvecdef⟩

theorem State.setCtx_sameScheduler (s : State) (c : Context) : SameScheduler s (s.setCtx c) := ⟨rfl, rfl⟩

/-! ### The second part of an access -/

theorem State.storeByte_sameScheduler (s : State) (c : Context) (b : Byte) (l : Loc) : SameScheduler s (s.storeByte c b l) := by
  unfold State.storeByte
  split
  · exact ⟨rfl, rfl⟩
  · exact (((s.putByte_onlyMemory _ b false).trans (State.regrow_quiet _ _).onlyMemory)).sameScheduler
  · exact SameScheduler.refl s
  · split
    · exact (s.swPut_onlyMemory _ _ b false).sameScheduler
    · exact (s.hostStore_onlyMemory _ _ b false).sameScheduler
    all_goals exact ⟨rfl, rfl⟩

theorem State.storeBytes_sameScheduler (c : Context) : ∀ (ls : List Loc) (bs : List Byte) (s : State), SameScheduler s (s.storeBytes c ls bs)
  | [], _, s => SameScheduler.refl s
  | _ :: _, [], s => SameScheduler.refl s
  | l :: ls, b :: bs, s => (s.storeByte_sameScheduler c b l).trans (State.storeBytes_sameScheduler c ls bs _)

theorem State.storeLocs_sameScheduler (s : State) (c : Context) (ls : List Loc) (bs : List Byte) : SameScheduler s (s.storeLocs c ls bs) :=
  (State.prepareFrom_onlyMemory c true ls s none).sameScheduler.trans (State.storeBytes_sameScheduler c ls bs _)

theorem State.settleHalf_sameScheduler (s : State) : SameScheduler s s.settleHalf := by
  cases hs : s.ctx.half with
  | none =>
    rw [State.settleHalf, hs]
    exact SameScheduler.refl s
  | some h =>
    rw [State.settleHalf_some hs]
    refine SameScheduler.trans ?_ (State.setCtx_sameScheduler _ _)
    refine (s.setCtx_sameScheduler _).trans (SameScheduler.ite ?_ (State.storeLocs_sameScheduler _ _ _ _))
    exact (State.loadLocs_onlyMemory _ _ _).sameScheduler.trans (State.setCtx_sameScheduler _ _)

/-! ### Bytes of a command -/

theorem State.enginePut_sameScheduler (s : State) (w : Who) (b : Byte) (m : Bool) (l : Loc) : SameScheduler s (s.enginePut w b m l) := by
  by_cases h : l.inScratch = true
  · cases l with
    | scratch => exact ⟨rfl, rfl⟩
    | mem => cases h
    | backing => cases h
    | lost => cases h
  · exact (s.enginePut_onlyMemory w b m (by simpa using h)).sameScheduler

theorem Job.emit_sameScheduler (j : Job) (l : Loc) (b : Byte) (m : Bool) : SameScheduler j.s (j.emit l b m).s := by
  unfold Job.emit
  split
  · exact SameScheduler.refl _
  · exact j.s.enginePut_sameScheduler _ b m l

theorem Job.foldl_sameScheduler {α : Type} {f : Job → α → Job} (hf : ∀ j a, SameScheduler j.s (f j a).s) :
    ∀ (l : List α) (j : Job), SameScheduler j.s (l.foldl f j).s
  | [], j => SameScheduler.refl j.s
  | a :: l, j => (hf j a).trans (Job.foldl_sameScheduler hf l _)

theorem Job.storePath_sameScheduler (j : Job) : SameScheduler j.s j.storePath.s := by
  unfold Job.storePath
  split
  · exact SameScheduler.refl _
  · refine Job.foldl_sameScheduler (fun j t => ?_) _ j
    split
    · split
      · exact SameScheduler.refl _
      · exact SameScheduler.ite (j.s.setFlag_onlyMemory _).sameScheduler (j.s.gatherTile_onlyMemory _).sameScheduler
    · exact SameScheduler.refl _

theorem Job.flushOut_sameScheduler (j : Job) : SameScheduler j.s j.flushOut.s :=
  (Job.foldl_sameScheduler (fun j _ => j.emit_sameScheduler _ _ _) j.c.out { j with c.out := [] }).trans (Job.storePath_sameScheduler _)

theorem State.flushCmd_sameScheduler (s : State) (n : Nat) : SameScheduler s (s.flushCmd n) := by
  unfold State.flushCmd
  split
  · exact SameScheduler.refl s
  · next k _ => exact SameScheduler.ite (SameScheduler.refl s) ((Job.flushOut_sameScheduler { s := s, c := { k with later := 0 } }).trans ⟨rfl, rfl⟩)

/-! ### Every context -/

theorem State.turnTo_sameScheduler (s : State) (id : Nat) : SameScheduler s (s.turnTo id) := by
  unfold State.turnTo
  refine SameScheduler.ite (SameScheduler.refl s) ?_
  split
  · exact SameScheduler.refl s
  · split <;> exact ⟨rfl, rfl⟩

theorem State.finishBegun_sameScheduler (s : State) : SameScheduler s s.finishBegun :=
  s.settleHalf_sameScheduler.trans (SameScheduler.foldl State.flushCmd_sameScheduler _ _)

theorem State.performBegun_sameScheduler (s : State) : SameScheduler s s.performBegun :=
  SameScheduler.foldl (fun s id => ((s.turnTo_sameScheduler id).trans (State.finishBegun_sameScheduler _)).trans (State.turnTo_sameScheduler _ _)) _ s

end Sys2Proof.Machine
end

section
/-! # A launched brigade keeps its seats

From its launch on a brigade's contexts run with the registers and on the arrays that they were given, whatever else its dispatch does:
blocks move, other pipelines may be closed by faults of the device, and contexts take their arrays over (R105, R178, R304, R312). -/

namespace Sys2Proof.Machine

/-! ### Pipelines -/

theorem State.pipelineOf_lnum {s : State} {lnum : Nat} {p : Pipeline} (h : s.pipelineOf lnum = some p) : p.lnum = lnum := by
  simpa using List.find?_some h

theorem State.pipelineOf_mapPipe {f : Pipeline → Pipeline} (hf : ∀ p, (f p).lnum = p.lnum) (s : State) (n m : Nat) :
    (s.mapPipe n f).pipelineOf m = (s.pipelineOf m).map (fun p => if p.lnum = n then f p else p) := by
  have hkeep : ((fun q : Pipeline => q.lnum == m) ∘ fun p => if p.lnum = n then f p else p) = fun q : Pipeline => q.lnum == m := by
    funext p
    simp only [Function.comp_apply]
    split
    · rw [hf]
    · rfl
  rw [State.pipelineOf, State.mapPipe_pipelines, List.find?_map, hkeep]
  rfl

/-- The pipeline that is changed. -/
theorem State.pipelineOf_mapPipe_self {f : Pipeline → Pipeline} (hf : ∀ p, (f p).lnum = p.lnum) {s : State} {n : Nat} {p : Pipeline}
    (h : s.pipelineOf n = some p) : (s.mapPipe n f).pipelineOf n = some (f p) := by
  rw [State.pipelineOf_mapPipe hf, h, Option.map_some, if_pos (State.pipelineOf_lnum h)]

/-- What a device fault makes of its pipeline (R304). -/
def Pipeline.faulted (p : Pipeline) : Pipeline :=
  { p with closing := true, status := max p.status 5, stages := p.stages.map (fun g => { g with queue := [] }),
           insts := p.insts.map (fun i => if i.state = .fresh then { i with state := .ended } else i) }

theorem State.pipelineOf_deviceFault (s : State) (lnum va m : Nat) :
    (s.deviceFault lnum va).pipelineOf m = (s.pipelineOf m).map (fun p => if p.lnum = lnum then p.faulted else p) :=
  State.pipelineOf_mapPipe (f := Pipeline.faulted) (fun _ => rfl) s lnum m

/-! ### Contexts -/

/-- A context without what its commands, its partition and the switching of contexts on its array change. -/
def Context.seat (c : Context) : Context := { c with cmds := [], scratch := [], scratchPoi := [], blocks := [], active := false }

theorem OnlyMemory.counterpart {s t : State} (h : OnlyMemory s t) {c : Context} (hc : c ∈ s.ctx :: s.others) :
    ∃ d ∈ t.ctx :: t.others, d.sansCmds = c.sansCmds := by
  have hmap : (t.ctx :: t.others).map Context.sansCmds = (s.ctx :: s.others).map Context.sansCmds := by
    rw [List.map_cons, List.map_cons, h.ctx, h.others]
  have hmem : c.sansCmds ∈ (t.ctx :: t.others).map Context.sansCmds := hmap ▸ List.mem_map_of_mem hc
  exact List.mem_map.mp hmem

theorem mem_mapCtxs {s : State} (f : Context → Context) {c : Context} (hc : c ∈ s.ctx :: s.others) :
    f c ∈ (mapCtxs s f).ctx :: (mapCtxs s f).others := by
  have hmem : f c ∈ (s.ctx :: s.others).map f := List.mem_map_of_mem hc
  exact hmem

/-! ### The brigade -/

/-- Every one of the contexts `cs` of pipeline `p`, as launched, still has its seat, and a partition of at most `lo` blocks; unless a
device fault has closed the pipeline. Their brigade runs at the pipeline's own priority. -/
def Seated (p : Pipeline) (stage inst lo : Nat) (cs : List Context) (t : State) : Prop :=
  ∃ q, t.pipelineOf p.lnum = some q ∧ q.dispatched = true ∧
    (∀ j ∈ q.insts, j.stage = stage → j.slot = inst → j.state = .running ∧ j.prio = p.prio) ∧
    (q.closing = false → ∀ n ∈ cs, ∃ c ∈ t.ctx :: t.others, c.seat = n.seat ∧ c.scratchSize ≤ lo)

section
variable {p : Pipeline} {stage inst lo : Nat} {cs : List Context} {s : State} (h : Seated p stage inst lo cs s)
include h

theorem Seated.onlyMemory {t : State} (hm : OnlyMemory s t) : Seated p stage inst lo cs t := by
  obtain ⟨q, hq, hdisp, hinsts, hseats⟩ := h
  refine ⟨q, (hm.pipelineOf _).trans hq, hdisp, hinsts, fun hopen n hn => ?_⟩
  obtain ⟨c, hc, hseat, hsize⟩ := hseats hopen n hn
  obtain ⟨d, hd, hdc⟩ := hm.counterpart hc
  have hblocks : d.blocks = c.blocks := congrArg (fun c => c.blocks) hdc
  exact ⟨d, hd, (congrArg Context.seat hdc : d.sansCmds.seat = c.sansCmds.seat).trans hseat, by rwa [Context.scratchSize, hblocks]⟩

/-- Contexts whose partitions and activity alone change keep their seats. -/
theorem Seated.mapCtxs {f : Context → Context} (hf : ∀ c, (f c).seat = c.seat) (hsize : ∀ c, c.scratchSize ≤ lo → (f c).scratchSize ≤ lo) :
    Seated p stage inst lo cs (mapCtxs s f) := by
  obtain ⟨q, hq, hdisp, hinsts, hseats⟩ := h
  refine ⟨q, hq, hdisp, hinsts, fun hopen n hn => ?_⟩
  obtain ⟨c, hc, hseat, hc'⟩ := hseats hopen n hn
  exact ⟨f c, mem_mapCtxs f hc, (hf c).trans hseat, hsize c hc'⟩

theorem Seated.mapCtx (id : Nat) {f : Context → Context} (hf : ∀ c, (f c).seat = c.seat) (hsize : ∀ c, c.scratchSize ≤ lo → (f c).scratchSize ≤ lo) :
    Seated p stage inst lo cs (s.mapCtx id f) := by
  refine h.mapCtxs (fun c => ?_) fun c hc => ?_
  · split
    · exact hf c
    · rfl
  · split
    · exact hsize c hc
    · exact hc

theorem Seated.deviceFault (hcs : ∀ n ∈ cs, n.lnum = p.lnum) (lnum va : Nat) : Seated p stage inst lo cs (s.deviceFault lnum va) := by
  obtain ⟨q, hq, hdisp, hinsts, hseats⟩ := h
  have hlnum := State.pipelineOf_lnum hq
  have hpipe := s.pipelineOf_deviceFault lnum va p.lnum
  rw [hq, Option.map_some] at hpipe
  by_cases hown : q.lnum = lnum
  · rw [if_pos hown] at hpipe
    refine ⟨q.faulted, hpipe, hdisp, fun j hj hstage hslot => ?_, fun hopen => Bool.noConfusion hopen⟩
    obtain ⟨i, hi, rfl⟩ := List.mem_map.mp hj
    have hi' := hinsts i hi
    by_cases hfresh : i.state = .fresh
    · simp only [hfresh, if_true] at hstage hslot
      have hrun := (hi' hstage hslot).1
      rw [hfresh] at hrun
      cases hrun
    · rw [if_neg hfresh] at hstage hslot ⊢
      exact hi' hstage hslot
  · rw [if_neg hown] at hpipe
    refine ⟨q, hpipe, hdisp, hinsts, fun hopen n hn => ?_⟩
    obtain ⟨c, hc, hseat, hsize⟩ := hseats hopen n hn
    have hc' : c.lnum ≠ lnum := by
      have hsame : c.lnum = n.lnum := congrArg (fun c => c.lnum) hseat
      rw [hsame, hcs n hn, ← hlnum]
      exact hown
    have hmem := mem_mapCtxs (s := s.mapPipe lnum Pipeline.faulted) (fun c => if c.lnum = lnum then c.abort .deviceFault else c) hc
    rw [if_neg hc'] at hmem
    exact ⟨c, hmem, hseat, hsize⟩

theorem Seated.orFault (hcs : ∀ n ∈ cs, n.lnum = p.lnum) (lnum : Nat) {e : Except Nat State} (he : ∀ t, e = .ok t → OnlyMemory s t) :
    Seated p stage inst lo cs (s.orFault lnum e) := by
  cases e with
  | ok t => exact h.onlyMemory (he t rfl)
  | error a => exact h.deviceFault hcs lnum a

end

/-! ### Blocks for its partitions (R178) -/

theorem Context.cutScratch_scratchSize (c : Context) (n : Nat) : (c.cutScratch n).scratchSize ≤ c.scratchSize := by
  simp [Context.cutScratch, Context.scratchSize]

section
variable {p : Pipeline} {stage inst lo : Nat} {cs : List Context} {s : State} (h : Seated p stage inst lo cs s) (hcs : ∀ n ∈ cs, n.lnum = p.lnum)
include hcs

include h in
theorem Seated.shrinkTo (o : Pipeline) (c : Context) (n : Nat) : Seated p stage inst lo cs (s.shrinkTo o c n) := by
  unfold State.shrinkTo
  split
  · exact h
  · exact (h.orFault hcs o.lnum fun t ht => State.writeImage_device_onlyMemory ht).mapCtx _ (fun _ => rfl)
      fun c hc => (c.cutScratch_scratchSize n).trans hc

theorem Seated.makeBlocks (die id n : Nat) : ∀ (fuel : Nat) {s : State}, Seated p stage inst lo cs s → Seated p stage inst lo cs (s.makeBlocks die id n fuel)
  | 0, _, h => h
  | fuel + 1, s, h => by
    unfold State.makeBlocks
    split
    · exact h
    · split
      · exact h
      · split
        · exact h
        · exact Seated.makeBlocks die id n fuel (h.shrinkTo hcs _ _ _)

include h in
theorem Seated.claimBlocks (die id n : Nat) : Seated p stage inst lo cs (s.claimBlocks die id n).1 := by
  have hmake : Seated p stage inst lo cs (if n = 0 then s else s.makeBlocks die id n 64) := by
    split
    · exact h
    · exact Seated.makeBlocks hcs die id n 64 h
  exact hmake.onlyMemory (State.evictBlocks_onlyMemory _ _ _)

include h in
theorem Seated.takeBlocks (id : Nat) {n : Nat} (hn : n ≤ lo) : Seated p stage inst lo cs (s.takeBlocks id n) := by
  unfold State.takeBlocks
  split
  · exact h
  · exact (h.claimBlocks hcs _ _ _).mapCtx id (fun _ => rfl) fun _ _ => (List.length_take_le n _).trans hn

include h in
theorem Seated.startScratch (o : Pipeline) {c : Context} (hc : c.scrlo.toNat ≤ lo) : Seated p stage inst lo cs (s.startScratch o c) := by
  have htake := h.takeBlocks hcs c.ctxid.toNat hc
  unfold State.startScratch State.zeroBacking
  dsimp only
  split
  · exact htake
  · exact htake.orFault hcs o.lnum fun t ht => State.wipe_onlyMemory ht

end

/-! ### Arrays taken over -/

/-- What the activation of one chain keeps, the activation of all that can be keeps. -/
theorem State.activateAll_induction {P : State → Prop} (hP : ∀ s c, P s → P (s.activateChain c)) {s : State} (h : P s) (arrays : List Nat) :
    P (s.activateAll arrays) := by
  refine List.foldlRecOn arrays _ h fun s hs a _ => ?_
  split
  · exact hs
  · unfold State.activateOn
    split
    · exact hs
    · exact hP s _ hs

theorem State.activateAll_keeps {β : Type} {field : State → β} (hfield : ∀ s f, field (mapCtxs s f) = field s) (s : State) (arrays : List Nat) :
    field (s.activateAll arrays) = field s :=
  State.activateAll_induction (P := fun t => field t = field s) (fun t _ ht => (hfield t _).trans ht) rfl arrays

theorem Seated.activateAll {p : Pipeline} {stage inst lo : Nat} {cs : List Context} {s : State} (h : Seated p stage inst lo cs s) (arrays : List Nat) :
    Seated p stage inst lo cs (s.activateAll arrays) :=
  State.activateAll_induction (P := Seated p stage inst lo cs) (fun s c hs => hs.mapCtxs (fun m => by split <;> rfl) fun m hm => by
    split
    · exact hm
    · exact hm) h arrays

/-! ### The launch -/

/-- The contexts of a brigade as they start. -/
def State.newContexts (s : State) (p : Pipeline) (g : Stage) (stage inst : Nat) (arrays : List Nat) : List Context :=
  (List.range g.ctxs).map (fun r => s.newContext p g stage inst r arrays)

theorem State.newContexts_fields {s : State} {p : Pipeline} {g : Stage} {stage inst : Nat} {arrays : List Nat} {n : Context}
    (h : n ∈ s.newContexts p g stage inst arrays) :
    n.lnum = p.lnum ∧ n.scrlo = BitVec.ofNat 64 g.scrLo ∧ n.scrhi = BitVec.ofNat 64 g.scrHi ∧ n.scratchSize = 0 := by
  obtain ⟨r, -, rfl⟩ := List.mem_map.mp h
  exact ⟨rfl, rfl, rfl, rfl⟩

theorem State.addContexts_mem {s : State} {cs : List Context} {n : Context} (h : n ∈ cs) : n ∈ (s.addContexts cs).ctx :: (s.addContexts cs).others := by
  unfold State.addContexts
  split
  · rcases List.mem_cons.mp h with rfl | h
    · exact List.mem_cons_self
    · exact List.mem_cons_of_mem _ (List.mem_append_right _ h)
  · exact List.mem_cons_of_mem _ (List.mem_append_right _ h)

theorem State.addContexts_pipelines (s : State) (cs : List Context) : (s.addContexts cs).pipelines = s.pipelines := by
  unfold State.addContexts
  split <;> rfl

theorem State.addContexts_mem_eq (s : State) (cs : List Context) : (s.addContexts cs).mem = s.mem := by
  unfold State.addContexts
  split <;> rfl

/-- The pipeline whose brigade starts to run. -/
def Pipeline.launched (stage inst : Nat) (p : Pipeline) : Pipeline :=
  { p.mapInst stage inst (fun i => { i with state := .running, prio := p.prio }) with dispatched := true }

/-- The machine in which the contexts of a brigade have started, before their partitions are made. -/
def State.seatInstance (s : State) (p : Pipeline) (g : Stage) (stage inst : Nat) (arrays : List Nat) : State :=
  (s.mapPipe p.lnum (Pipeline.launched stage inst)).addContexts (s.newContexts p g stage inst arrays)

section
variable {s : State} {p : Pipeline} (hp : s.pipelineOf p.lnum = some p) (g : Stage) (stage inst : Nat) (arrays : List Nat)
include hp

theorem State.pipelineOf_seatInstance : (s.seatInstance p g stage inst arrays).pipelineOf p.lnum = some (p.launched stage inst) := by
  have hpipe := State.pipelineOf_mapPipe_self (f := Pipeline.launched stage inst) (fun _ => rfl) hp
  rw [State.pipelineOf] at hpipe ⊢
  rwa [State.seatInstance, State.addContexts_pipelines]

theorem State.seatInstance_seated : Seated p stage inst g.scrLo (s.newContexts p g stage inst arrays) (s.seatInstance p g stage inst arrays) := by
  refine ⟨_, State.pipelineOf_seatInstance hp g stage inst arrays, rfl, fun j hj hstage hslot => ?_, fun _ n hn => ?_⟩
  · obtain ⟨i, -, rfl⟩ := List.mem_map.mp hj
    split at hstage
    · next hi =>
      rw [if_pos hi]
      exact ⟨rfl, rfl⟩
    · next hi =>
      rw [if_neg hi] at hslot
      exact absurd ⟨hstage, hslot⟩ hi
  · obtain ⟨-, -, -, hsize⟩ := State.newContexts_fields hn
    exact ⟨n, State.addContexts_mem hn, rfl, by omega⟩

end

/-- What a dispatch does once its brigade is bound to arrays: partitions, fused sets, and the arrays taken over. -/
def State.startInstance (s : State) (p : Pipeline) (g : Stage) (stage inst : Nat) (cs : List Context) (arrays : List Nat) : State :=
  let u := cs.foldl (fun s c => s.startScratch p c) s
  (if g.fuse then u.fuse p.lnum stage inst else u).activateAll arrays

theorem State.dispatch_eq {s : State} {p : Pipeline} {g : Stage} {i : Inst} {stage inst : Nat} {arrays : List Nat} (hp : s.pipelineOf p.lnum = some p)
    (hg : p.stages[stage]? = some g) (hi : p.insts.find? (fun x => x.stage == stage && x.slot == inst && x.state == .fresh) = some i)
    (hopen : p.closing = false) (hlen : arrays.length = g.ctxs) (hfits : s.fits g arrays = true) (htop : s.topPriority i = true) :
    s.dispatch p.lnum stage inst arrays = (s.performBegun.seatInstance p g stage inst arrays).startInstance p g stage inst
      (s.performBegun.newContexts p g stage inst arrays) arrays := by
  simp only [State.dispatch, hp, hg, hi, hopen, hlen, hfits, htop, bne_self_eq_false, Bool.not_true, Bool.or_self, Bool.false_eq_true, if_false]
  rfl

theorem Seated.startInstance {p : Pipeline} {g : Stage} {stage inst : Nat} {cs : List Context} {s : State} (h : Seated p stage inst g.scrLo cs s)
    (hcs : ∀ n ∈ cs, n.lnum = p.lnum ∧ n.scrlo.toNat ≤ g.scrLo) (arrays : List Nat) :
    Seated p stage inst g.scrLo cs (s.startInstance p g stage inst cs arrays) := by
  have hlnum : ∀ n ∈ cs, n.lnum = p.lnum := fun n hn => (hcs n hn).1
  have hstart : Seated p stage inst g.scrLo cs (cs.foldl (fun s c => s.startScratch p c) s) :=
    List.foldlRecOn cs _ h fun s hs c hc => hs.startScratch hlnum p (hcs c hc).2
  unfold State.startInstance
  refine Seated.activateAll ?_ arrays
  split
  · exact hstart.onlyMemory (State.fuse_onlyMemory _ _ _ _)
  · exact hstart

/-- A context whose partition has no block at any time needs none, and no byte is cleared for it. -/
theorem State.startScratch_none (s : State) (p : Pipeline) {c : Context} (hlo : c.scrlo = 0) (hhi : c.scrhi = 0) :
    (s.startScratch p c).pipelines = s.pipelines ∧ (s.startScratch p c).mem = s.mem := by
  have htake : (s.takeBlocks c.ctxid.toNat 0).pipelines = s.pipelines ∧ (s.takeBlocks c.ctxid.toNat 0).mem = s.mem := by
    unfold State.takeBlocks
    split <;> exact ⟨rfl, rfl⟩
  unfold State.startScratch State.zeroBacking
  simpa [hlo, hhi] using htake

theorem State.startInstance_none {s : State} {p : Pipeline} {g : Stage} {cs : List Context} (hcs : ∀ n ∈ cs, n.scrlo = 0 ∧ n.scrhi = 0)
    (stage inst : Nat) (arrays : List Nat) :
    (s.startInstance p g stage inst cs arrays).pipelines = s.pipelines ∧ (s.startInstance p g stage inst cs arrays).mem = s.mem := by
  have hstart : (cs.foldl (fun s c => s.startScratch p c) s).pipelines = s.pipelines ∧ (cs.foldl (fun s c => s.startScratch p c) s).mem = s.mem := by
    refine List.foldlRecOn (motive := fun t : State => t.pipelines = s.pipelines ∧ t.mem = s.mem) cs _ ⟨rfl, rfl⟩ fun t ⟨hpipes, hmem⟩ c hc => ?_
    obtain ⟨hp, hm⟩ := t.startScratch_none p (hcs c hc).1 (hcs c hc).2
    exact ⟨hp.trans hpipes, hm.trans hmem⟩
  obtain ⟨hpipes, hmem⟩ := hstart
  unfold State.startInstance
  rw [State.activateAll_keeps (field := State.pipelines) fun _ _ => rfl, State.activateAll_keeps (field := State.mem) fun _ _ => rfl]
  split
  · exact ⟨(State.fuse_onlyMemory _ _ _ _).pipelines.trans hpipes, (State.fuse_mem _ _ _ _).trans hmem⟩
  · exact ⟨hpipes, hmem⟩

end Sys2Proof.Machine
end

section
/-! # The scheduler's steps

Dispatch, aging, rebalance, the watchdog, the end of a pipeline, moves of scratch blocks, the restart after HALT, requests and landing
(R178, R302, R307, R308, R310 to R312, R324, R336). -/

namespace Sys2Proof.Machine

open Host (Cell)

/-! ### Dispatch (R312) -/

theorem exec_dispatch {s : State} {p : Pipeline} {g : Stage} {i : Inst} {lnum stage inst : Nat} {arrays : List Nat} (hp : s.pipelineOf lnum = some p)
    (hg : p.stages[stage]? = some g) (hi : p.insts.find? (fun x => x.stage == stage && x.slot == inst && x.state == .fresh) = some i)
    (hopen : p.closing = false) (hlen : arrays.length = g.ctxs) (hfits : s.fits g arrays = true) (htop : s.topPriority i = true) :
    ∃ t q, exec (.dispatch lnum stage inst arrays) s = .next t ∧ t.pipelineOf lnum = some q ∧ q.dispatched = true ∧
      (∀ j ∈ q.insts, j.stage = stage → j.slot = inst → j.state = .running ∧ j.prio = p.prio) ∧
      (g.scrLo = 0 → g.scrHi = 0 → q.closing = false ∧ t.mem = s.performBegun.mem) ∧
      (q.closing = false → ∀ r < g.ctxs, ∃ c ∈ t.ctx :: t.others, c.status = .running ∧ c.lnum = lnum ∧ c.stage = stage ∧ c.inst = inst ∧ c.rank = r ∧
        c.array = arrays[r]? ∧ c.pc = g.entry ∧ c.level = p.level ∧ c.reg 1 = BitVec.ofNat 64 r ∧ c.reg 2 = BitVec.ofNat 64 g.ctxs ∧
        c.asid = BitVec.ofNat 64 p.asid ∧ c.tvec = s.mgmt.tvecdef ∧ c.scratchSize ≤ g.scrLo ∧
        c.chainlat = chainlatOf (chainArrays g.chain r arrays)) := by
  obtain rfl := State.pipelineOf_lnum hp
  obtain ⟨hpipes, htvec⟩ := s.performBegun_sameScheduler
  have hpb : s.performBegun.pipelineOf p.lnum = some p := by rw [State.pipelineOf, hpipes]; exact hp
  have hfields : ∀ n ∈ s.performBegun.newContexts p g stage inst arrays, n.lnum = p.lnum ∧ n.scrlo.toNat ≤ g.scrLo := fun n hn => by
    obtain ⟨hlnum, hlo, -, -⟩ := State.newContexts_fields hn
    exact ⟨hlnum, by rw [hlo, BitVec.toNat_ofNat]; exact Nat.mod_le _ _⟩
  obtain ⟨q, hq, hdisp, hinsts, hseats⟩ := (State.seatInstance_seated hpb g stage inst arrays).startInstance hfields arrays
  refine ⟨_, q, congrArg Host.Outcome.next (State.dispatch_eq hp hg hi hopen hlen hfits htop), hq, hdisp, hinsts, fun hlo hhi => ?_, fun hclosing r hr => ?_⟩
  · have hnone : ∀ n ∈ s.performBegun.newContexts p g stage inst arrays, n.scrlo = 0 ∧ n.scrhi = 0 := fun n hn => by
      obtain ⟨-, hl, hh, -⟩ := State.newContexts_fields hn
      exact ⟨by rw [hl, hlo]; rfl, by rw [hh, hhi]; rfl⟩
    obtain ⟨hsame, hmem⟩ := State.startInstance_none (s := s.performBegun.seatInstance p g stage inst arrays) (p := p) (g := g) hnone stage inst arrays
    have hlaunched := State.pipelineOf_seatInstance hpb g stage inst arrays
    rw [State.pipelineOf, hsame] at hq
    obtain rfl : p.launched stage inst = q := Option.some.inj (hlaunched.symm.trans hq)
    exact ⟨hopen, hmem.trans (State.addContexts_mem_eq _ _)⟩
  · have hnew : s.performBegun.newContext p g stage inst r arrays ∈ s.performBegun.newContexts p g stage inst arrays :=
      List.mem_map_of_mem (List.mem_range.mpr hr)
    obtain ⟨c, hc, hseat, hsize⟩ := hseats hclosing _ hnew
    have hfield {α : Type} (f : Context → α) : f c.seat = f (s.performBegun.newContext p g stage inst r arrays).seat := congrArg f hseat
    exact ⟨c, hc, hfield (·.status), hfield (·.lnum), hfield (·.stage), hfield (·.inst), hfield (·.rank), hfield (·.array), hfield (·.pc),
      hfield (·.level), hfield (·.reg 1), hfield (·.reg 2), hfield (·.asid), (hfield (·.tvec)).trans htvec, hsize, hfield (·.chainlat)⟩

/-! ### Aging and rebalance (R307, R308) -/

theorem exec_agingInterval {s : State} {lnum : Nat} {p : Pipeline} (hp : s.pipelineOf lnum = some p) (stage inst : Nat) :
    ∃ t q, exec (.agingInterval lnum stage inst) s = .next t ∧ t = { s with pipelines := t.pipelines } ∧ t.pipelineOf lnum = some q ∧
      q.insts = p.insts.map (fun i =>
        if i.stage = stage ∧ i.slot = inst ∧ (i.state = .fresh ∨ i.state = .drained) then { i with prio := min 31 (i.prio + 1) } else i) := by
  refine ⟨s.agingInterval lnum stage inst, _, rfl, rfl,
    State.pipelineOf_mapPipe_self (f := fun p => p.mapInst stage inst (fun i => if i.waits then { i with prio := min 31 (i.prio + 1) } else i))
      (fun _ => rfl) hp, List.map_congr_left fun i _ => ?_⟩
  by_cases hi : i.stage = stage ∧ i.slot = inst
  · simp [hi, Inst.waits]
  · rw [if_neg hi, if_neg fun h => hi ⟨h.1, h.2.1⟩]

/-- Among one more slot than there are instances, one is free. -/
theorem exists_free_slot (used : List Nat) : ∃ k, (List.range (used.length + 1)).find? (fun k => !used.contains k) = some k := by
  refine Option.isSome_iff_exists.mp (List.find?_isSome.mpr ?_)
  by_contra hnone
  have hsub : List.range (used.length + 1) ⊆ used := fun k hk => by
    by_contra hmem
    exact hnone ⟨k, hk, by simpa using hmem⟩
  have hlen := (List.nodup_range.subperm hsub).length_le
  rw [List.length_range] at hlen
  omega

/-- A stage that starts one more has one more. -/
theorem Pipeline.instsOf_start (p : Pipeline) (i now : Nat) : ((p.start i now).instsOf i).length = (p.instsOf i).length + 1 := by
  obtain ⟨k, hk⟩ := exists_free_slot ((p.instsOf i).map (·.slot))
  have hfree : k ∉ (p.instsOf i).map (·.slot) := by simpa using List.find?_some hk
  have hkept : (p.insts.filter (fun x => !(x.stage == i && x.slot == k))).filter (fun x => x.stage == i && x.state != .ended) = p.instsOf i := by
    rw [List.filter_filter]
    refine List.filter_congr fun x hx => ?_
    by_cases hlive : (x.stage == i && x.state != .ended) = true
    · have hslot : x.slot ≠ k := fun e => hfree (List.mem_map.mpr ⟨x, List.mem_filter.mpr ⟨hx, hlive⟩, e⟩)
      simp [hslot]
    · rw [Bool.not_eq_true] at hlive
      rw [hlive, Bool.false_and]
  have hstart : (p.start i now).instsOf i = p.instsOf i ++ [{ stage := i, slot := k, state := .fresh, prio := p.prio, since := now }] := by
    simp only [Pipeline.start, hk]
    rw [Pipeline.instsOf, List.filter_append, hkept]
    simp
  rw [hstart, List.length_append, List.length_singleton]

theorem Pipeline.start_lnum (p : Pipeline) (i now : Nat) : (p.start i now).lnum = p.lnum := by
  unfold Pipeline.start
  dsimp only
  split <;> rfl

theorem Pipeline.rebalance_lnum (p : Pipeline) (now : Nat) : (p.rebalance now).lnum = p.lnum :=
  List.foldlRecOn (motive := fun q : Pipeline => q.lnum = p.lnum) _ _ rfl fun q hq x _ => by
    split
    · exact (q.start_lnum _ _).trans hq
    · exact hq

/-- With one stage alone, it is the one that may start one more. -/
theorem Pipeline.rebalance_single {p : Pipeline} {g : Stage} (h : p.stages = [g]) (now : Nat) :
    p.rebalance now = if !g.queue.isEmpty && p.open g && decide ((p.instsOf 0).length < g.maxInst) then p.start 0 now else p := by
  have hranked : p.ranked = [(g, 0)] := by
    rw [Pipeline.ranked, h]
    rfl
  rw [Pipeline.rebalance, hranked]
  rfl

theorem exec_rebalanceInterval {s : State} {lnum : Nat} {p : Pipeline} {g : Stage} (hp : s.pipelineOf lnum = some p) (hopen : p.closing = false)
    (hg : p.stages = [g]) :
    ∃ t q, exec (.rebalanceInterval lnum) s = .next t ∧ t = { s with pipelines := t.pipelines } ∧ t.pipelineOf lnum = some q ∧
      (g.queue ≠ [] → p.room g.out0 = true → p.room g.out1 = true → (p.instsOf 0).length < g.maxInst →
        (q.instsOf 0).length = (p.instsOf 0).length + 1) ∧
      (g.queue = [] → q = p) := by
  have hpipe := State.pipelineOf_mapPipe_self (f := fun p => if p.closing then p else p.rebalance s.free) (fun p => by
    split
    · rfl
    · exact p.rebalance_lnum _) hp
  rw [hopen, if_neg Bool.false_ne_true, Pipeline.rebalance_single hg] at hpipe
  refine ⟨s.rebalanceInterval lnum, _, rfl, rfl, hpipe, fun hq h0 h1 hmax => ?_, fun hq => by simp [hq]⟩
  rw [if_pos (by simp [Pipeline.open, hq, h0, h1, hmax]), Pipeline.instsOf_start]

/-! ### The watchdog (R311) -/

theorem exec_watchdogExpiry {s : State} (hp : (s.pipelineOf s.ctx.lnum).isSome = true) (hrun : s.ctx.status = .running) :
    (s.wdogCycles s.ctx ≤ s.ctx.timer → ∃ t, exec .watchdogExpiry s = .next t ∧ t.ctx.status = .ending .watchdog ∧ t.mem = s.mem) ∧
      (s.ctx.timer < s.wdogCycles s.ctx → exec .watchdogExpiry s = .next s) := by
  refine ⟨fun h => ?_, fun h => congrArg Host.Outcome.next (if_neg fun e => Nat.not_le.mpr h e.2.2)⟩
  have hlive : s.ctx.live = true := by simp [Context.live, hrun]
  obtain ⟨hstatus, hmem⟩ := State.terminateTurn hlive .watchdog
  exact ⟨_, congrArg Host.Outcome.next (if_pos ⟨hrun, hp, h⟩), hstatus, hmem⟩

/-! ### The end of a pipeline (R302, R310) -/

theorem State.dropContexts_frame (s : State) (lnum : Nat) :
    (s.dropContexts lnum).pipelines = s.pipelines ∧ (s.dropContexts lnum).mem = s.mem ∧ (s.dropContexts lnum).mgmt = s.mgmt := by
  unfold State.dropContexts
  dsimp only
  split
  · split <;> exact ⟨rfl, rfl, rfl⟩
  · exact ⟨rfl, rfl, rfl⟩

theorem State.mem_contexts {s : State} {c : Context} : c ∈ s.contexts ↔ (c = s.ctx ∨ c ∈ s.others) ∧ c.status ≠ .absent := by
  simp [State.contexts]

/-- No context of a pipeline that is gone is left. -/
theorem State.dropContexts_contexts (s : State) (lnum : Nat) : ∀ c ∈ (s.dropContexts lnum).contexts, c.lnum ≠ lnum := by
  have hkeep : ∀ c ∈ s.others.filter (fun c => c.lnum != lnum || c.status == .absent), c.status ≠ .absent → c.lnum ≠ lnum := fun c hc hs => by
    simpa [hs] using (List.mem_filter.mp hc).2
  intro c hc
  obtain ⟨hmem, hpresent⟩ := State.mem_contexts.mp hc
  unfold State.dropContexts at hmem
  dsimp only at hmem
  split at hmem
  · split at hmem
    · rcases hmem with rfl | hmem
      · exact absurd rfl hpresent
      · cases hmem
    · next d r hl =>
      rw [hl] at hkeep
      exact hkeep c (List.mem_cons.mpr hmem) hpresent
  · next hturn =>
    rcases hmem with rfl | hmem
    · exact fun e => hturn ⟨e, hpresent⟩
    · exact hkeep c hmem hpresent

theorem exec_pipelineEnd {s : State} {lnum : Nat} {p : Pipeline} (hp : s.pipelineOf lnum = some p) (hclosing : p.closing = true) (hres : p.results = [])
    (hab : p.aborters = []) (hwb : s.writeBacks = []) (hfatal : s.mgmt.fatal = false) (hgone : ∀ c ∈ s.contexts, c.lnum = lnum → c.gone = true) {u : State}
    (hu : s.deviceWrite p.asid p.compl (cleanBytes (completionBytes p.phase p.status 0 p.nzcnt p.exitOr)) = .ok u) :
    ∃ t, exec (.pipelineEnd lnum) s = .next t ∧ t.pipelineOf lnum = none ∧ t.mem = u.mem ∧ t.mgmt.msix = u.mgmt.msix ++ [2] ∧
      ∀ c ∈ t.contexts, c.lnum ≠ lnum := by
  obtain rfl := State.pipelineOf_lnum hp
  have hall : (s.contexts.filter (fun c => c.lnum == p.lnum)).all (fun c => c.gone) = true :=
    List.all_eq_true.mpr fun c hc => by
      obtain ⟨hmem, hlnum⟩ := List.mem_filter.mp hc
      exact hgone c hmem (by simpa using hlnum)
  have hcomplete : s.complete p.asid p.compl p.phase p.status [] p.nzcnt p.exitOr = u.msix 2 := by
    simp only [State.complete, hfatal, State.writeResults, List.length_nil, Bool.false_eq_true, if_false, hu]
  let v : State := { u.msix 2 with pipelines := (u.msix 2).pipelines.filter (fun q => q.lnum != p.lnum) }
  have hend : s.endPipe p p.status = v.dropContexts p.lnum := by
    rw [State.endPipe, State.mergeWhere_none hwb, hres, hab, hcomplete]
    rfl
  have hexec : s.pipelineEnd p.lnum = v.dropContexts p.lnum := by
    rw [← hend]
    simp only [State.pipelineEnd, hp, hall, hclosing, Bool.true_or, Bool.and_self, if_true]
  obtain ⟨hpipes, hmem, hmgmt⟩ := v.dropContexts_frame p.lnum
  refine ⟨_, congrArg Host.Outcome.next hexec, ?_, hmem, by rw [hmgmt]; rfl, v.dropContexts_contexts p.lnum⟩
  rw [State.pipelineOf, hpipes, List.find?_eq_none]
  intro q hq
  simpa using (List.mem_filter.mp hq).2

/-! ### Blocks that move between partitions and the die cache (R178) -/

theorem mem_memSet {a : Nat} {v : Byte} {c : Cell} : ∀ {m : List Cell}, c ∈ memSet m a v → c.1 = a ∨ c ∈ m
  | [], h => by
    unfold memSet at h
    split at h
    · cases h
    · exact .inl (by rw [List.mem_singleton.mp h])
  | (k, w) :: r, h => by
    unfold memSet at h
    split at h
    · split at h
      · exact .inr h
      · rcases List.mem_cons.mp h with rfl | h
        · exact .inl rfl
        · exact .inr h
    · split at h
      · split at h
        · exact .inr (List.mem_cons_of_mem _ h)
        · rcases List.mem_cons.mp h with rfl | h
          · exact .inl rfl
          · exact .inr (List.mem_cons_of_mem _ h)
      · rcases List.mem_cons.mp h with rfl | h
        · exact .inr List.mem_cons_self
        · exact (mem_memSet h).imp id (List.mem_cons_of_mem _)

theorem le_of_mem_sortCells {lo : Nat} {l : List Cell} (h : ∀ c ∈ l, lo ≤ c.1) : ∀ c ∈ sortCells l, lo ≤ c.1 := by
  refine List.foldlRecOn (motive := fun m : List Cell => ∀ c ∈ m, lo ≤ c.1) l _ (by simp) fun m hm x hx c hc => ?_
  rcases mem_memSet hc with e | hc
  · rw [e]
    exact h x hx
  · exact hm c hc

theorem memGet_absent {a : Nat} : ∀ {m : List Cell}, (∀ c ∈ m, a < c.1) → memGet m a = 0
  | [], _ => rfl
  | (k, v) :: m, h => by
    obtain ⟨hk, hm⟩ := List.forall_mem_cons.mp h
    rw [memGet, if_neg (Nat.ne_of_gt hk), memGet_absent hm]

theorem memGet_append_of_lt {a : Nat} {n : List Cell} (h : ∀ c ∈ n, a < c.1) : ∀ m : List Cell, memGet (m ++ n) a = memGet m a
  | [] => memGet_absent h
  | (k, v) :: m => by rw [List.cons_append, memGet, memGet, memGet_append_of_lt h m]

/-- The context on turn stands first among those that are there. -/
theorem State.find_ctx {s : State} (h : s.ctx.status ≠ .absent) : s.contexts.find? (fun c => c.ctxid.toNat == s.ctx.ctxid.toNat) = some s.ctx := by
  have hcons : s.contexts = s.ctx :: s.others.filter (fun c => c.status != .absent) := List.filter_cons_of_pos (by simpa using h)
  rw [hcons, List.find?_cons_of_pos (by simp)]

theorem State.mapCtx_ctx {s : State} (h : s.ctx.status ≠ .absent) (f : Context → Context) : (s.mapCtx s.ctx.ctxid.toNat f).ctx = f s.ctx :=
  if_pos ⟨rfl, h⟩

/-- A context that ends keeps its partition until its chain is over. -/
theorem Context.terminate_scratch (c : Context) (r : EndReason) : (c.terminate r).scratch = c.scratch ∧ (c.terminate r).blocks = c.blocks ∧
    (c.terminate r).ctxid = c.ctxid ∧ (c.status ≠ .absent → (c.terminate r).status ≠ .absent) := by
  have hquiesce : c.quiesce.scratch = c.scratch ∧ c.quiesce.blocks = c.blocks ∧ c.quiesce.ctxid = c.ctxid := by
    rw [c.quiesce_arrivals]
    exact ⟨rfl, rfl, rfl⟩
  obtain ⟨hscratch, hblocks, hid⟩ := hquiesce
  unfold Context.terminate
  split
  · exact ⟨hscratch, hblocks, hid, fun _ => nofun⟩
  · split <;> exact ⟨rfl, rfl, rfl, id⟩

theorem State.deviceFault_ctx (s : State) (lnum va : Nat) : (s.deviceFault lnum va).ctx.scratch = s.ctx.scratch ∧
    (s.deviceFault lnum va).ctx.blocks = s.ctx.blocks ∧ (s.deviceFault lnum va).ctx.ctxid = s.ctx.ctxid ∧
    (s.ctx.status ≠ .absent → (s.deviceFault lnum va).ctx.status ≠ .absent) := by
  have hctx : (s.deviceFault lnum va).ctx = if s.ctx.lnum = lnum then s.ctx.abort .deviceFault else s.ctx := rfl
  rw [hctx]
  split
  · unfold Context.abort
    split
    · exact ⟨rfl, rfl, rfl, id⟩
    · exact s.ctx.terminate_scratch .deviceFault
  · exact ⟨rfl, rfl, rfl, id⟩

/-- A context whose partition has the blocks `bs` more, filled from an image. -/
def Context.grown (im : Image) (bs : List Nat) (c : Context) : Context :=
  { c with scratch := c.scratch ++ sortCells (im.bytes.map (fun x => (x.1 + 2 ^ 20 * c.scratchSize, x.2))),
           scratchPoi := c.scratchPoi ++ sortNats (im.pois.map (· + 2 ^ 20 * c.scratchSize)), blocks := c.blocks ++ bs }

theorem Context.memGet_grown (im : Image) (bs : List Nat) (c : Context) {off : Nat} (h : off < 2 ^ 20 * c.scratchSize) :
    memGet (c.grown im bs).scratch off = memGet c.scratch off := by
  refine memGet_append_of_lt (fun x hx => Nat.lt_of_lt_of_le h (le_of_mem_sortCells (fun y hy => ?_) x hx)) _
  obtain ⟨z, -, rfl⟩ := List.mem_map.mp hy
  exact Nat.le_add_left _ _

theorem State.makeBlocks_enough {s : State} {die n : Nat} (h : n ≤ (s.freeBlocks die).length) (id : Nat) : ∀ fuel, s.makeBlocks die id n fuel = s
  | 0 => rfl
  | _ + 1 => if_pos h

/-- Where there is a free block, the first is taken. -/
theorem State.claimBlocks_one {s : State} {die id : Nat} (h : s.freeBlocks die ≠ []) :
    ∃ x ∈ s.freeBlocks die, s.claimBlocks die id 1 = (s.evictBlocks die [x], [x]) := by
  obtain ⟨x, r, hblocks⟩ := List.exists_cons_of_ne_nil h
  have henough : 1 ≤ (s.freeBlocks die).length := List.length_pos_iff.mpr h
  refine ⟨x, hblocks ▸ List.mem_cons_self, ?_⟩
  rw [State.claimBlocks, if_neg Nat.one_ne_zero, State.makeBlocks_enough henough, hblocks]
  rfl

/-- Blocks that are claimed for a partition are filled from its backing range, unless the device cannot read it. -/
theorem State.growTo_cases {s u : State} {id n : Nat} {c : Context} {bs : List Nat} (hc : s.contexts.find? (fun c => c.ctxid.toNat == id) = some c)
    (hn : c.scratchSize < n) (hclaim : s.claimBlocks c.die id (n - c.scratchSize) = (u, bs)) (p : Pipeline) :
    (∃ a, s.growTo p id n = u.deviceFault p.lnum a) ∨ ∃ v im, OnlyMemory u v ∧ s.growTo p id n = v.mapCtx id (Context.grown im bs) := by
  unfold State.growTo
  rw [hc]
  dsimp only
  rw [if_neg (Nat.not_le.mpr hn), hclaim]
  dsimp only
  split
  · exact .inl ⟨_, rfl⟩
  · exact .inr ⟨_, _, State.touchArea_onlyMemory _ _ _ _, rfl⟩

section
variable {b : State} {p : Pipeline} (hthere : b.ctx.status ≠ .absent)

theorem OnlyMemory.turn {s t : State} (h : OnlyMemory s t) : t.ctx.scratch = s.ctx.scratch ∧ t.ctx.blocks = s.ctx.blocks ∧ t.ctx.ctxid = s.ctx.ctxid ∧
    t.ctx.status = s.ctx.status :=
  ⟨congrArg (fun c => c.scratch) h.ctx, congrArg (fun c => c.blocks) h.ctx, congrArg (fun c => c.ctxid) h.ctx, congrArg (fun c => c.status) h.ctx⟩

/-- An access of the device leaves the partition of the context on turn alone, even where a fault of it ends the context. -/
theorem State.orFault_turn {s : State} (lnum : Nat) {e : Except Nat State} (he : ∀ t, e = .ok t → OnlyMemory s t) :
    (s.orFault lnum e).ctx.scratch = s.ctx.scratch ∧ (s.orFault lnum e).ctx.blocks = s.ctx.blocks ∧ (s.orFault lnum e).ctx.ctxid = s.ctx.ctxid ∧
      (s.ctx.status ≠ .absent → (s.orFault lnum e).ctx.status ≠ .absent) := by
  cases e with
  | error a => exact s.deviceFault_ctx lnum a
  | ok t =>
    obtain ⟨hscratch, hblocks, hid, hstatus⟩ := (he t rfl).turn
    exact ⟨hscratch, hblocks, hid, fun h => by rw [State.orFault, hstatus]; exact h⟩

include hthere

/-- A free block is there for the partition of the context on turn, once its lines have left it. -/
theorem State.growTo_one (hfree : b.freeBlocks b.ctx.die ≠ []) :
    ∃ x ∈ b.freeBlocks b.ctx.die, ∃ u, OnlyMemory b u ∧ ((∃ a, b.growTo p b.ctx.ctxid.toNat (b.ctx.scratchSize + 1) = u.deviceFault p.lnum a) ∨
      ∃ v im, OnlyMemory b v ∧ b.growTo p b.ctx.ctxid.toNat (b.ctx.scratchSize + 1) = v.mapCtx b.ctx.ctxid.toNat (Context.grown im [x])) := by
  obtain ⟨x, hx, hclaim⟩ := State.claimBlocks_one (id := b.ctx.ctxid.toNat) hfree
  have hone : b.ctx.scratchSize + 1 - b.ctx.scratchSize = 1 := Nat.add_sub_cancel_left _ _
  have hevict := b.evictBlocks_onlyMemory b.ctx.die [x]
  have hgrow := State.growTo_cases (State.find_ctx hthere) (Nat.lt_succ_self _) (hone ▸ hclaim) p
  exact ⟨x, hx, _, hevict, hgrow.imp id fun ⟨v, im, hv, e⟩ => ⟨v, im, hevict.trans hv, e⟩⟩

/-- A partition grows by a block, its bytes kept, or a fault of the device closes its pipeline. -/
theorem State.growTo_one_turn (hp : b.pipelineOf b.ctx.lnum = some p) (hfree : b.freeBlocks b.ctx.die ≠ []) :
    let t := b.growTo p b.ctx.ctxid.toNat (b.ctx.scratchSize + 1)
    (∀ off < 2 ^ 20 * b.ctx.scratchSize, memGet t.ctx.scratch off = memGet b.ctx.scratch off) ∧
      ((t.ctx.scratchSize = b.ctx.scratchSize + 1 ∧ ∃ x ∈ b.freeBlocks b.ctx.die, t.ctx.blocks = b.ctx.blocks ++ [x]) ∨
        ∃ q, t.pipelineOf b.ctx.lnum = some q ∧ q.closing = true) := by
  obtain ⟨x, hx, u, hu, ⟨a, e⟩ | ⟨v, im, hv, e⟩⟩ := State.growTo_one (p := p) hthere hfree
  · have hlnum := State.pipelineOf_lnum hp
    have hpipe : (u.deviceFault p.lnum a).pipelineOf b.ctx.lnum = some p.faulted := by
      rw [State.pipelineOf_deviceFault, hu.pipelineOf, hp, Option.map_some, if_pos rfl]
    have hscratch : (u.deviceFault p.lnum a).ctx.scratch = b.ctx.scratch := (u.deviceFault_ctx p.lnum a).1.trans hu.turn.1
    intro t
    rw [show t = _ from e]
    exact ⟨fun off _ => by rw [hscratch], .inr ⟨_, hpipe, rfl⟩⟩
  · obtain ⟨hscratch, hblocks, hid, hstatus⟩ := hv.turn
    have hctx : (v.mapCtx b.ctx.ctxid.toNat (Context.grown im [x])).ctx = v.ctx.grown im [x] := by
      rw [← hid]
      exact State.mapCtx_ctx (hstatus ▸ hthere) _
    intro t
    rw [show t = _ from e, hctx]
    refine ⟨fun off hoff => ?_, .inl ⟨?_, x, hx, ?_⟩⟩
    · rw [Context.memGet_grown im [x] v.ctx (by rwa [Context.scratchSize, hblocks]), hscratch]
    · simp [Context.grown, Context.scratchSize, hblocks]
    · simp [Context.grown, hblocks]

/-- A partition gives its last block up, and keeps the bytes of the others. -/
theorem State.shrinkTo_one_turn (hsize : 0 < b.ctx.scratchSize) :
    let t := b.shrinkTo p b.ctx (b.ctx.scratchSize - 1)
    t.ctx.scratchSize = b.ctx.scratchSize - 1 ∧
      ∀ off < 2 ^ 20 * (b.ctx.scratchSize - 1), memGet t.ctx.scratch off = memGet b.ctx.scratch off := by
  have hlt : b.ctx.scratchSize - 1 < b.ctx.scratchSize := Nat.sub_lt hsize Nat.one_pos
  let n := b.ctx.scratchSize - 1
  let u := b.orFault p.lnum (b.writeImage (deviceWho p.asid) ((b.backingAt b.ctx).getD 0 + 2 ^ 20 * n) (2 ^ 20 * (b.ctx.scratchSize - n))
    (b.ctx.megabytes n b.ctx.scratchSize))
  obtain ⟨hscratch, hblocks, hid, hstatus⟩ : u.ctx.scratch = b.ctx.scratch ∧ u.ctx.blocks = b.ctx.blocks ∧ u.ctx.ctxid = b.ctx.ctxid ∧
      (b.ctx.status ≠ .absent → u.ctx.status ≠ .absent) := State.orFault_turn p.lnum fun t ht => State.writeImage_device_onlyMemory ht
  have hshrink : b.shrinkTo p b.ctx n = u.mapCtx u.ctx.ctxid.toNat (Context.cutScratch · n) := by
    rw [hid]
    exact if_neg (Nat.not_le.mpr hlt)
  have hctx : (b.shrinkTo p b.ctx n).ctx = u.ctx.cutScratch n := by
    rw [hshrink]
    exact State.mapCtx_ctx (hstatus hthere) _
  intro t
  rw [show t.ctx = _ from hctx]
  refine ⟨?_, fun off hoff => ?_⟩
  · show (u.ctx.blocks.take n).length = n
    rw [List.length_take, hblocks]
    exact Nat.min_eq_left hlt.le
  · have hget := memGet_filter (fun k => decide (k < 2 ^ 20 * n)) off u.ctx.scratch
    rw [decide_eq_true hoff, if_pos rfl, hscratch] at hget
    rw [← hget, ← hscratch]
    rfl

end

/-- One move of a block, of the partition of the context on turn. -/
theorem State.moveBlock_turn {b : State} {p : Pipeline} (hthere : b.ctx.status ≠ .absent) (harray : b.ctx.array.isSome = true)
    (hp : b.pipelineOf b.ctx.lnum = some p) (grow : Bool) :
    b.moveBlock b.ctx.die b.ctx.ctxid.toNat grow =
      if grow then (if b.ctx.scratchSize < b.ctx.scrhi.toNat ∧ b.freeBlocks b.ctx.die ≠ [] then b.growTo p b.ctx.ctxid.toNat (b.ctx.scratchSize + 1) else b)
      else if b.ctx.scrlo.toNat < b.ctx.scratchSize then b.shrinkTo p b.ctx (b.ctx.scratchSize - 1) else b := by
  have hplaced : ¬ (b.ctx.array = none ∨ b.ctx.die ≠ b.ctx.die) := by simpa [Option.isSome_iff_ne_none] using harray
  unfold State.moveBlock
  rw [State.find_ctx hthere]
  dsimp only
  rw [hp]
  dsimp only
  rw [if_neg hplaced]
  simp only [List.length_pos_iff]

theorem exec_scratchSample (s : State) (die id : Nat) (grow : Bool) :
    exec (.scratchSample die [(id, grow)]) s = .next (s.performBegun.moveBlock die id grow) :=
  congrArg Host.Outcome.next (if_pos (by simp))

/-! ### Restart, requests and landing (R324, R336) -/

theorem exec_managementControllerRestart {s : State} (h : s.ctx.status = .halted) :
    ∃ t, exec (.managementControllerRestart s.ctx.ctxid.toNat) s = .next t ∧ t.ctx = { s.ctx with status := .running, timer := 0 } :=
  ⟨_, rfl, (State.mapCtx_ctx (by rw [h]; nofun) _).trans (if_pos h)⟩

theorem exec_preemptionRequest {s : State} {id : Nat} {c : Context} (hc : s.contextOf id = some c) (hrun : c.status = .running) (hact : c.active = true)
    (hreq : c.request = none) :
    exec (.preemptionRequest id) s = .next (if s.outranked c || s.mayShed c then s.requestChain c .drain
      else if (s.readyRival c).isSome then s.requestChain c .switch else s) := by
  have hmay : ¬ (c.status ≠ .running ∨ c.active = false ∨ c.request ≠ none) := by simp [hrun, hact, hreq]
  show Host.Outcome.next (s.preemptionRequest id) = _
  rw [State.preemptionRequest, hc]
  dsimp only
  rw [if_neg hmay]

theorem State.requestChain_eq (s : State) (c : Context) (k : RequestKind) : s.requestChain c k = { s with
    ctx := if s.ctx.lnum = c.lnum ∧ s.ctx.stage = c.stage ∧ s.ctx.inst = c.inst ∧ s.ctx.rank / c.chainLen = c.rank / c.chainLen then
        (if k.strength ≤ requestStrength s.ctx.request then s.ctx else { s.ctx with request := some k }) else s.ctx,
    others := s.others.map (fun m => if m.lnum = c.lnum ∧ m.stage = c.stage ∧ m.inst = c.inst ∧ m.rank / c.chainLen = c.rank / c.chainLen then
        (if k.strength ≤ requestStrength m.request then m else { m with request := some k }) else m) } := by
  simp only [State.requestChain, mapCtxs, Bool.and_eq_true, beq_iff_eq, and_assoc]

/-- With nothing under way, landing is a matter of the queue, of reports and of faults. -/
theorem Context.land_settled {c : Context} (hpend : c.pend = []) (hfaggs : c.faggs = []) (hdrip : c.dripFlights = []) :
    c.land = if c.cqAllFilled && c.liveReports.isEmpty && c.liveFaults.isEmpty && c.trapDue.isNone then
      { c with status := .landed, yielded := false } else c := by
  have hland : c.landAll = c := by
    rw [Context.landAll, hpend]
    show ({ c with pend := [] } : Context) = c
    rw [← hpend]
  have harrive : c.arriveAllFaggs = c := by
    rw [Context.arriveAllFaggs, hfaggs]
    show ({ c with faggs := [] } : Context) = c
    rw [← hfaggs]
  have hrecords : c.dripLandAll = c := by
    rw [Context.dripLandAll, hdrip]
    show ({ c with dripFlights := [] } : Context) = c
    rw [← hdrip]
  simp only [Context.land, hland, harrive, hrecords]

theorem exec_landing {s : State} (hrun : s.ctx.status = .running) (hwait : s.ctx.awaitsLanding = true) (hhalf : s.ctx.half = none)
    (hpend : s.ctx.pend = []) (hfaggs : s.ctx.faggs = []) (hdrip : s.ctx.dripFlights = []) :
    (s.ctx.cqAllFilled = true → s.ctx.liveReports = [] → s.ctx.liveFaults = [] →
        exec .landing s = .next { s with ctx.status := .landed, ctx.yielded := false }) ∧
      (s.ctx.cqAllFilled = false → exec .landing s = .next s) := by
  have htrap : s.ctx.trapDue.isNone = true := by
    simp only [Context.awaitsLanding, Bool.and_eq_true] at hwait
    exact hwait.1.2
  have hhalf' : s.settleHalf = s := by rw [State.settleHalf, hhalf]
  have hexec : exec .landing s = .next (s.setCtx s.ctx.land) := by
    show Host.Outcome.next s.landing = _
    rw [State.landing, if_pos ⟨hrun, hwait⟩, hhalf']
  rw [hexec, Context.land_settled hpend hfaggs hdrip]
  exact ⟨fun hq hr hf => by simp only [hq, hr, hf, htrap]; rfl, fun hq => by simp only [hq]; rfl⟩

/-- Settles O51: a dispatch keeps every seat that it gives (`Seated`); each other step is one equation of the model. -/
theorem schedulingActs : Obligations.SchedulingActs := by
  unfold Obligations.SchedulingActs
  intro s
  refine ⟨fun p g i lnum stage inst arrays hp hg hi hopen hlen hfits htop => exec_dispatch hp hg hi hopen hlen hfits htop,
    fun lnum stage inst p hp => exec_agingInterval hp stage inst, fun lnum p g hp hopen hg => exec_rebalanceInterval hp hopen hg, exec_watchdogExpiry,
    fun lnum p hp hclosing hres hab hwb hfatal hgone u hu => exec_pipelineEnd hp hclosing hres hab hwb hfatal hgone hu, fun p die grow => ?_,
    exec_managementControllerRestart, fun id c hc hrun hact hreq => ?_, exec_landing⟩
  · intro b hthere harray hdie hp
    subst hdie
    have hmove := State.moveBlock_turn hthere harray hp grow
    refine ⟨_, exec_scratchSample s _ _ grow, fun hg hno => ?_, fun hg hroom hfree => ?_, fun hg hno => ?_, fun hg hroom => ?_⟩ <;>
      subst hg <;> rw [show s.performBegun.moveBlock _ _ _ = _ from hmove]
    · rw [if_pos rfl, if_neg fun h => hno.elim (Nat.not_le.mpr h.1) h.2]
    · rw [if_pos rfl, if_pos ⟨hroom, hfree⟩]
      exact State.growTo_one_turn hthere hp hfree
    · rw [if_neg Bool.false_ne_true, if_neg (Nat.not_lt.mpr hno)]
    · rw [if_neg Bool.false_ne_true, if_pos hroom]
      exact State.shrinkTo_one_turn hthere (Nat.zero_lt_of_lt hroom)
  · have hexec := exec_preemptionRequest hc hrun hact hreq
    intro asked
    refine ⟨fun hdrain => ?_, fun hrival hout hshed => ?_, fun hrival hout hshed => ?_⟩
    · rw [if_pos (by simpa using hdrain), State.requestChain_eq] at hexec
      exact hexec
    · rw [hout, hshed, if_neg (by simp), if_pos hrival, State.requestChain_eq] at hexec
      exact hexec
    · rw [hout, hshed, hrival] at hexec
      exact hexec

end Sys2Proof.Machine
end

section
/-! # Resets and management registers

A reset keeps host memory and clears the device; each register write is taken or logged; each register reads as its value (R211, R395, R398). -/

namespace Sys2Proof.Machine

/-! ### Resets (R398) -/

/-- The machine `t` after a reset of `s`: nothing of the device's work is left, its memory is zero, and host memory is as it was. -/
def ClearedFrom (s t : State) : Prop :=
  t.ctx.status = .absent ∧ t.others = [] ∧ t.pipelines = [] ∧ t.groups = [] ∧ t.lines = [] ∧ t.msgs = [] ∧
    (∀ d, (t.table d).active = [] ∧ (t.table d).early = []) ∧ t.claims = [] ∧ t.pmsgs = [] ∧ t.posted = [] ∧ t.zflags = [] ∧ t.tlb = [] ∧
    t.mgmt.latched.rgn = Vector.replicate 64 0 ∧ t.mgmt.fatal = false ∧ (∀ k < 2 ^ 40, t.homeByte k = (0, false)) ∧
    ∀ k, 2 ^ 40 ≤ k → memGet t.mem k = memGet s.mem k

section
variable (s : State) (modnum mcpart pwrbud : Word)

theorem State.memGet_resetKeeping (k : Nat) :
    memGet (s.resetKeeping modnum mcpart pwrbud).mem k = if 2 ^ 40 ≤ k then memGet s.mem k else 0 := by
  refine (memGet_filter (fun j => decide (2 ^ 40 ≤ j)) k s.mem).trans ?_
  simp only [decide_eq_true_eq]

theorem State.homeByte_resetKeeping {k : Nat} (hk : k < 2 ^ 40) : (s.resetKeeping modnum mcpart pwrbud).homeByte k = (0, false) := by
  have hpois : k ∉ (s.resetKeeping modnum mcpart pwrbud).pois := fun h => by
    have hhost := (List.mem_filter.mp h).2
    simp only [decide_eq_true_eq] at hhost
    omega
  have hstruck : (s.resetKeeping modnum mcpart pwrbud).flagStruck (tileOf k) = false := rfl
  rw [State.homeByte_unflagged List.not_mem_nil, State.memGet_resetKeeping, if_neg (Nat.not_le.mpr hk), hstruck, Bool.false_or, List.contains_eq_mem,
    decide_eq_false hpois]

theorem State.resetKeeping_clearedFrom : ClearedFrom s (s.resetKeeping modnum mcpart pwrbud) := by
  have htable (d : Nat) : (s.resetKeeping modnum mcpart pwrbud).table d = { active := [], early := [] } := Vector.getElem_replicate _
  exact ⟨rfl, rfl, rfl, rfl, rfl, rfl, fun d => by rw [htable]; exact ⟨rfl, rfl⟩, rfl, rfl, rfl, rfl, rfl, rfl, rfl,
    fun _ => s.homeByte_resetKeeping modnum mcpart pwrbud, fun k hk => (s.memGet_resetKeeping modnum mcpart pwrbud k).trans (if_pos hk)⟩

end

/-- A module that waits for its firmware sets READY in its own next step (R398). -/
theorem step_sets_ready {s : State} (hin : s.inputs = []) (hdev : s.devFaults = []) (hfatal : s.mgmt.fatal = false) (hready : s.mgmt.ready = false)
    (hpower : s.power = true) : ∃ t, step s = .next t ∧ t.mgmt = { s.mgmt with ready := true } := by
  let r : State := { s with src := s.ctx, mgmt.ready := true }
  have hturn : s.turn = r := (if_neg (by simp [hfatal])).trans (if_pos (by simp [hready]))
  have htick : r.tick = { r with free := r.free + 1 } := by rw [State.tick, if_pos (show r.devFaults = [] from hdev)]
  have hstep : step s = .next s.turn.tick := by rw [step, hin]; exact if_pos hpower
  exact ⟨_, hstep.trans (congrArg Host.Outcome.next ((congrArg State.tick hturn).trans htick)), rfl⟩

/-! ### Register writes (R211, R395) -/

@[simp] theorem State.log_errlog_getLast? (s : State) (e : LogEntry) : (s.log e).mgmt.errlog.getLast? = some e := getLast?_lastEntries _ _

theorem State.regWrite_allowed (s : State) (off : Nat) {ok : Bool} (h : ok = true) (f : State → State) : s.regWrite off ok f = f s := if_pos h

theorem State.regWrite_ignored (s : State) (off : Nat) {ok : Bool} (h : ok = false) (f : State → State) : s.regWrite off ok f = s.log (.badWrite off) :=
  if_neg (by simp [h])

theorem xhatbOk_iff (v : Nat) : xhatbOk v = true ↔ v < 2 ^ 52 ∧ v / 2 ^ 5 % 2 ^ 7 = 0 ∧ 16 ≤ v % 2 ^ 5 ∧ v % 2 ^ 5 ≤ 24 := by
  simp only [xhatbOk, fld, Bool.and_eq_true, decide_eq_true_eq, beq_iff_eq, pow_zero, Nat.div_one, and_assoc]

section
variable {s : State} (h : s.mgmt.ready = true) (v : Nat)
include h

theorem State.mgmtWrite_xhatb :
    s.mgmtWrite 0x1000 v = s.regWrite 0x1000 (xhatbOk v) (fun s => { s with mgmt.regs.xhatb := BitVec.ofNat 64 v }) := by
  simp [State.mgmtWrite, h]

theorem State.mgmtWrite_rgn (i : Fin 64) :
    s.mgmtWrite (0x2000 + 16 * i.val) v = { s with mgmt.regs.rgn := s.mgmt.regs.rgn.set i (BitVec.ofNat 128 v) } := by
  have hi := i.isLt
  obtain ⟨off, hoff⟩ : ∃ off, off = 0x2000 + 16 * i.val := ⟨_, rfl⟩
  have hindex : Fin.ofNat 64 ((off - 0x2000) / 16) = i := Fin.ext (by rw [Fin.val_ofNat]; omega)
  rw [← hoff, State.mgmtWrite, if_neg (by simp [h])]
  simp (disch := omega) only [if_neg, if_pos, hindex]

/-- The launch numbers, which begin where the queues' descriptors end, are read only. -/
theorem State.mgmtWrite_lnum : s.mgmtWrite 0x3800 v = s := by
  simp [State.mgmtWrite, h]

end

theorem exec_mgmtRegisterWrite_xhatb {s : State} (h : s.mgmt.ready = true) (v : Nat) : ∃ t, exec (.mgmtRegisterWrite 0x1000 v) s = .next t ∧
    (v < 2 ^ 52 → v / 2 ^ 5 % 2 ^ 7 = 0 → 16 ≤ v % 2 ^ 5 → v % 2 ^ 5 ≤ 24 → t = { s with mgmt.regs.xhatb := BitVec.ofNat 64 v }) ∧
    ((v % 2 ^ 5 < 16 ∨ 24 < v % 2 ^ 5 ∨ 2 ^ 52 ≤ v) → t.mgmt.regs = s.mgmt.regs ∧ t.mgmt.errlog.getLast? = some (.badWrite 0x1000)) := by
  refine ⟨_, congrArg Host.Outcome.next (State.mgmtWrite_xhatb h v), fun hv hres hlo hhi => ?_, fun hbad => ?_⟩
  · exact s.regWrite_allowed _ ((xhatbOk_iff v).mpr ⟨hv, hres, hlo, hhi⟩) _
  · have hno : xhatbOk v = false := Bool.eq_false_iff.mpr fun hok => by
      obtain ⟨hv, -, hlo, hhi⟩ := (xhatbOk_iff v).mp hok
      omega
    rw [s.regWrite_ignored _ hno]
    exact ⟨rfl, s.log_errlog_getLast? _⟩

/-- PWRBUD takes 200 to 3,400 (R395). -/
theorem exec_pwrbudWrite {s : State} (h : s.mgmt.ready = true) (v : Word) :
    (200 ≤ v.toNat → v.toNat ≤ 3400 → exec (.pwrbudWrite v) s = .next { s with mgmt.pwrbud := v }) ∧
      ((v.toNat < 200 ∨ 3400 < v.toNat) → ∃ t, exec (.pwrbudWrite v) s = .next t ∧ t.mgmt.pwrbud = s.mgmt.pwrbud ∧
        t.mgmt.errlog.getLast? = some (.badWrite 0x28)) := by
  have hexec : exec (.pwrbudWrite v) s = .next (s.pwrbudWrite v) := congrArg Host.Outcome.next (if_pos h)
  have hok : (decide (200 ≤ v.toNat) && decide (v.toNat ≤ 3400)) = decide (200 ≤ v.toNat ∧ v.toNat ≤ 3400) := (Bool.decide_and _ _).symm
  rw [hexec, State.pwrbudWrite, hok]
  refine ⟨fun hlo hhi => congrArg _ (s.regWrite_allowed _ (decide_eq_true ⟨hlo, hhi⟩) _), fun hbad => ?_⟩
  rw [s.regWrite_ignored _ (decide_eq_false (by omega))]
  exact ⟨_, rfl, rfl, s.log_errlog_getLast? _⟩

/-! ### XLATCH (R211, R395, R401) -/

theorem exec_xlatchWrite_one {s : State} (h : s.mgmt.ready = true) : exec (.xlatchWrite 1) s = .next { s with mgmt.xlatch := 1 } :=
  congrArg Host.Outcome.next (if_pos h)

theorem exec_xlatchDone {s : State} (h : s.mgmt.xlatch ≠ 0) (off len v : Nat) : let b := s.performBegun
    ∃ t, exec (.hostMemAccess .xlatchDone off len v) s = .next t ∧ t.mgmt.xlatch = 0 ∧ t.tlb = [] ∧ t.mgmt.latched = latchRegs b.variant b.mgmt.regs ∧
      t.mgmt.regs = b.mgmt.regs ∧ t.mem = b.mem ∧ t.ctx = b.ctx ∧ t.others = b.others ∧
      t.mgmt.measured[3] = b.mgmt.measured[3] ++ [.config b.kycap b.mgmt.mcpart b.mgmt.regs.rgn] :=
  ⟨_, congrArg Host.Outcome.next (if_neg h), rfl, rfl, rfl, rfl, rfl, rfl, rfl, Vector.getElem_set_self _⟩

end Sys2Proof.Machine
end

section
/-! # Accesses of the host

The host reads and writes registers, and bytes of memory one at a time, with the tokens of the host port (R204, R357, R394, R395). -/

namespace Sys2Proof.Machine

/-! ### Reads of registers (R395, R398) -/

theorem exec_registerRead (off len v : Nat) (s : State) : exec (.hostMemAccess .register off len v) s =
    .next { s with hostData := s.hostData ++ [(2 ^ 52 + off, s.mgmtRead off, 0)] } := rfl

theorem hostData_registerRead {s : State} {off n : Nat} (h : s.mgmtRead off = n) :
    s.hostData ++ [(2 ^ 52 + off, s.mgmtRead off, 0)] = s.hostData ++ [(2 ^ 52 + off, n, 0)] := by rw [h]

section
variable (s : State)

@[simp] theorem State.mgmtRead_kycap : s.mgmtRead 0 = s.kycap.toNat := by simp [State.mgmtRead]
@[simp] theorem State.mgmtRead_devstat : s.mgmtRead 8 = s.mgmt.devstat := by simp [State.mgmtRead]

variable {s}

theorem State.mgmtRead_unready {off : Nat} (hoff : 8 < off) (h : s.mgmt.ready = false) : s.mgmtRead off = 0 := by
  unfold State.mgmtRead
  rw [if_neg (by omega), if_neg (by omega)]
  exact if_pos h

theorem State.mgmtRead_xlatch (h : s.mgmt.ready = true) : s.mgmtRead 0x20 = s.mgmt.xlatch.toNat := by simp [State.mgmtRead, h]

theorem State.mgmtRead_mcpart (h : s.mgmt.ready = true) : s.mgmtRead 0x18 = s.mgmt.mcpart.toNat := by simp [State.mgmtRead, h]

theorem State.mgmtRead_unnamed (h : s.mgmt.ready = true) : s.mgmtRead 0x38 = 0 := by simp [State.mgmtRead, h]

theorem State.mgmtRead_lnum (h : s.mgmt.ready = true) (q : Fin 64) : s.mgmtRead (0x3800 + 4 * q.val) = s.mgmt.queues[q].lnum.toNat := by
  have hq := q.isLt
  obtain ⟨off, hoff⟩ : ∃ off, off = 0x3800 + 4 * q.val := ⟨_, rfl⟩
  have hindex : Fin.ofNat 64 ((off - 0x3800) / 4) = q := Fin.ext (by rw [Fin.val_ofNat]; omega)
  rw [← hoff, State.mgmtRead]
  simp (disch := omega) only [h, if_neg, if_pos, hindex, Bool.true_eq_false, if_false]

end

/-! ### What must come before a write of the host (R190, R204, R357) -/

theorem State.performUpTo_none {s : State} (h : s.posted = []) (n : Nat) : s.performUpTo n = s := by
  rw [State.performUpTo, h, List.take_nil, List.drop_nil]
  show { s with posted := [] } = s
  rw [← h]

section
variable {s : State} {ks : List Nat} (h : s.Unmapped ks)
include h

theorem State.clearFlag_unmapped (key : Nat) : (s.clearFlag key).Unmapped ks := fun k hk =>
  ⟨((s.dropFlag_quiet (tileOf key)).unmapped h k hk).1, fun he => (h k hk).2 ((setDel_sublist (tileOf key) s.zflagErr).subset he)⟩

theorem State.homeWrite_unmapped (p : Place) : (s.homeWrite p).Unmapped ks := by
  have hgather := (s.serveClears_quiet (tileOf p.key)).trans (State.gatherHome_quiet _ p)
  have hclear := State.clearFlag_unmapped (hgather.unmapped h) p.key
  unfold State.homeWrite
  split
  · exact h
  · split
    · exact h
    · dsimp only
      split
      · exact ((State.setTagged_quiet _ _).trans (State.wrote_quiet _ _)).unmapped hclear
      · exact (State.setTagged_quiet _ _).unmapped hclear

theorem State.mergeBack_unmapped (wb : WriteBack) : (s.mergeBack wb).Unmapped ks := by
  have hput (t : State) (i : Nat) : (State.putMerged wb t i).zflags = t.zflags ∧ (State.putMerged wb t i).zflagErr = t.zflagErr := by
    unfold State.putMerged
    split <;> exact ⟨rfl, rfl⟩
  intro k hk
  have hready := State.homeWrite_unmapped h wb.place k hk
  rwa [← State.foldl_keeps State.zflags (fun t i => (hput t i).1) (List.range 128) (s.homeWrite wb.place),
    ← State.foldl_keeps State.zflagErr (fun t i => (hput t i).2) (List.range 128) (s.homeWrite wb.place)] at hready

theorem State.mergeWhere_unmapped (p : WriteBack → Bool) : (s.mergeWhere p).Unmapped ks :=
  List.foldlRecOn (motive := fun t : State => t.Unmapped ks) (splitMerge s.variant p s.writeBacks).1 State.mergeBack h
    fun _ ht wb _ => State.mergeBack_unmapped ht wb

end

/-- The machine made ready for the host to write a byte: its own stores to the line have come back, or the byte's tokens have been gathered. -/
def State.hostReady (s : State) (p : Place) : State :=
  match p.cls with
  | .host => s.flushHost p.key
  | .software => s.homeWrite p
  | .plain | .packed | .pinned => s.acquire hostAgent p true

theorem State.hostPut_eq (s : State) (p : Place) (b : Byte) : s.hostPut p b = (s.hostReady p).putByte p.key b false := by
  unfold State.hostPut State.hostReady
  cases p.cls <;> rfl

theorem State.hostReady_canonical {s : State} (p : Place) (h : s.MemoryCanonical) : (s.hostReady p).MemoryCanonical := by
  unfold State.hostReady
  split
  · exact State.mergeWhere_canonical _ h
  · exact State.homeWrite_canonical p h
  all_goals exact State.acquire_canonical hostAgent p true h

section
variable {s : State} {p : Place} (h : s.Unmapped [p.key])
include h

theorem State.hostReady_unmapped : (s.hostReady p).Unmapped [p.key] := by
  obtain ⟨hz, he⟩ := h p.key List.mem_cons_self
  unfold State.hostReady
  split
  · exact State.mergeWhere_unmapped h _
  · exact State.homeWrite_unmapped h p
  all_goals exact (State.acquire_write_quiet hz he hostAgent).unmapped h

/-- With no store of the device on its way to the line, only tokens and copies move. -/
theorem State.hostReady_quiet (hwb : ∀ wb ∈ s.writeBacks, wb.key ≠ lineOf p.key) : Quiet s (s.hostReady p) := by
  obtain ⟨hz, he⟩ := h p.key List.mem_cons_self
  unfold State.hostReady
  split
  · have hflush : s.flushHost p.key = s := State.mergeWhere_unasked fun wb hm => by simp [hwb wb hm]
    rw [hflush]
    exact Quiet.refl s
  · exact State.homeWrite_quiet hz he
  all_goals exact State.acquire_write_quiet hz he hostAgent

end

/-! ### Accesses to memory (R204, R394) -/

/-- Before a read of the host, the tokens that it needs are gathered. -/
theorem State.hostReadAt_byte {s : State} {pa : Nat} {p : Place} (hp : s.place pa = some p) (hlight : s.mgmt.dark = false) :
    ∃ t, Quiet s t ∧ s.hostReadAt pa 1 = ([t.homeByte p.key], t) := by
  have hquiet : Quiet s (if p.cls = .host then s else s.acquire hostAgent p false) := Quiet.ite (Quiet.refl s) (s.acquire_read_quiet _ _)
  refine ⟨_, hquiet, ?_⟩
  simp only [State.hostReadAt, hp, hlight, Bool.false_and, Bool.or_false, Prod.mk.eta]

theorem exec_hostPerform_none {s : State} (hposted : s.posted = []) (n pa v : Nat) : exec (.hostMemAccess (.perform n) pa 1 v) s = .next s := by
  show Host.Outcome.next (s.hostMemAccess (.perform n) pa 1 v) = _
  rw [State.hostMemAccess, hposted]
  rfl

section
variable {s : State} {pa : Nat} (hreach : pa + 1 ≤ 2 ^ 49)
include hreach

theorem hostReach_byte : hostReach pa 1 = true := decide_eq_true hreach

theorem exec_hostPost (hposted : s.posted = []) (v : Nat) :
    exec (.hostMemAccess .post pa 1 v) s = .next { s with posted := [{ pa := pa, bytes := leBytes 1 v, performed := false }] } := by
  show Host.Outcome.next (if (!hostReach pa 1) = true then s else { s with posted := s.posted ++ _ }) = _
  rw [hostReach_byte hreach, hposted]
  rfl

variable {p : Place} (hp : s.place pa = some p) (hposted : s.posted = [])
include hp hposted

theorem exec_hostWrite (v : Nat) : exec (.hostMemAccess .write pa 1 v) s = .next (s.hostPut p (BitVec.ofNat 8 v)) := by
  show Host.Outcome.next (if (!hostReach pa 1) = true then s else (s.performUpTo s.posted.length).hostPuts pa [BitVec.ofNat 8 v]) = _
  rw [hostReach_byte hreach, State.performUpTo_none hposted, State.hostPuts, hp]
  rfl

theorem exec_hostWrite_bytes (hcan : s.MemoryCanonical) (hun : s.Unmapped [p.key]) (v : Nat) : ∃ t, exec (.hostMemAccess .write pa 1 v) s = .next t ∧
    t.homeByte p.key = (BitVec.ofNat 8 v, false) ∧
    ((∀ wb ∈ s.writeBacks, wb.key ≠ lineOf p.key) → BytesBut (fun k => k = p.key ∨ s.BitmapByte k) s t) := by
  obtain ⟨hwf, hpois⟩ := State.hostReady_canonical p hcan
  obtain ⟨hz, he⟩ := State.hostReady_unmapped hun p.key List.mem_cons_self
  refine ⟨_, (exec_hostWrite hreach hp hposted v).trans (congrArg Host.Outcome.next (s.hostPut_eq p _)),
    State.homeByte_putByte_self hwf _ _ _ hz he fun _ => hpois, fun hwb => ?_⟩
  obtain ⟨hbytes, hparts⟩ := (State.hostReady_quiet hun hwb).bytesBut
  refine ⟨fun k hk => ?_, hparts⟩
  obtain ⟨hne, hbit⟩ := not_or.mp hk
  exact (State.homeByte_putByte_ne hne _ _).trans (hbytes k hbit)

theorem exec_hostRead_bytes (hlight : s.mgmt.dark = false) (hbit : ¬ s.BitmapByte p.key) (v : Nat) :
    ∃ t, exec (.hostMemAccess .read pa 1 v) s = .next t ∧ BytesBut s.BitmapByte s t ∧
      t.hostData = s.hostData ++ [(pa, (s.homeByte p.key).1.toNat, (s.homeByte p.key).2.toNat)] := by
  obtain ⟨u, hquiet, hread⟩ := State.hostReadAt_byte hp hlight
  have hdata : u.hostData = s.hostData := congrArg (fun r => r.hostData) hquiet.apart
  have hnum (b : Byte × Bool) : numOf [b] = b.1.toNat := rfl
  have hmark (b : Bool) : marks [b] = b.toNat := by cases b <;> rfl
  refine ⟨{ u with hostData := s.hostData ++ [(pa, (s.homeByte p.key).1.toNat, (s.homeByte p.key).2.toNat)] }, ?_, hquiet.bytesBut, rfl⟩
  show Host.Outcome.next (s.hostMemAccess .read pa 1 v) = _
  simp only [State.hostMemAccess, hostReach_byte hreach, State.performUpTo_none hposted, hread, hquiet.bytes _ hbit, hdata, hnum, hmark, List.map_cons,
    List.map_nil, Bool.not_true, Bool.false_eq_true, if_false]

end

end Sys2Proof.Machine
end

section
/-! # Submission queues

The device reads a changed tail, takes records in turn and advances the head (R299 to R301). -/

namespace Sys2Proof.Machine

/-! ### The registers of a queue -/

theorem State.setQueue_self (s : State) (q : Fin 64) (x : SubQueue) : (s.setQueue q x).mgmt.queues[q] = x := Vector.getElem_set_self _

/-! ### Tail updates (R300, R301) -/

section
variable {s : State} {q : Fin 64} {d : QueueDesc} (hd : s.mgmt.queues[q].desc = some d)
include hd

/-- A tail that can be read and is not poisoned is taken, passed over or found to overrun. -/
theorem State.sqTailUpdate_read {bs : List (Byte × Bool)} (hbs : s.physRead d.taila 4 = some bs) (hclean : anyPoison bs = false) :
    let x := s.mgmt.queues[q]
    let tail := BitVec.ofNat 32 (numOf bs)
    let r := s.physTouch d.taila 4
    s.sqTailUpdate q = if tail = x.seen then r
      else if 2 ^ d.logn < (tail - x.head).toNat then (r.setQueue q { x with seen := tail }).log (.tailOverrun q.val)
      else r.setQueue q { x with tail := tail, seen := tail, waiting := false } := by
  unfold State.sqTailUpdate
  simp only [hd, hbs, hclean, Bool.false_eq_true, if_false]

theorem exec_sqTailUpdate {bs : List (Byte × Bool)} (hbs : s.physRead d.taila 4 = some bs) (hclean : anyPoison bs = false) :
    let x := s.mgmt.queues[q]
    let tail := BitVec.ofNat 32 (numOf bs)
    (tail = x.seen → exec (.sqTailUpdate q) s = .next (s.physTouch d.taila 4)) ∧
      (tail ≠ x.seen → (tail - x.head).toNat ≤ 2 ^ d.logn → exec (.sqTailUpdate q) s =
        .next ((s.physTouch d.taila 4).setQueue q { x with tail := tail, seen := tail, waiting := false })) ∧
      (tail ≠ x.seen → 2 ^ d.logn < (tail - x.head).toNat → ∃ t, exec (.sqTailUpdate q) s = .next t ∧
        t.mgmt.queues[q] = { x with seen := tail } ∧ t.mgmt.errlog.getLast? = some (.tailOverrun q.val)) := by
  have hexec : exec (.sqTailUpdate q) s = .next _ := congrArg Host.Outcome.next (State.sqTailUpdate_read hd hbs hclean)
  refine ⟨fun hsame => ?_, fun hnew hroom => ?_, fun hnew hover => ?_⟩
  · rw [hexec, if_pos hsame]
  · rw [hexec, if_neg hnew, if_neg (Nat.not_lt.mpr hroom)]
  · rw [if_neg hnew, if_pos hover] at hexec
    exact ⟨_, hexec, State.setQueue_self _ q _, State.log_errlog_getLast? _ _⟩

end

/-! ### The head (R300) -/

theorem State.physWrite_onlyMemory {s t : State} {pa : Nat} {bs : List (Byte × Bool)} (h : s.physWrite pa bs = some t) : OnlyMemory s t := by
  obtain ⟨ps, -, rfl⟩ := Option.map_eq_some_iff.mp h
  exact OnlyMemory.foldl (fun t (x : Place × Byte × Bool) => t.enginePut_onlyMemory (deviceWho 0) x.2.1 x.2.2 (l := .mem x.1) rfl) _ s

theorem OnlyMemory.queues {s t : State} (h : OnlyMemory s t) : t.mgmt.queues = s.mgmt.queues := congrArg (fun r => r.mgmt.queues) h

/-- The head moves on, whether or not the device can write the index to memory. -/
theorem State.advanceHead_frame (s : State) (q : Fin 64) (d : QueueDesc) : (s.advanceHead q d).pipelines = s.pipelines ∧
    (s.advanceHead q d).mgmt.queues[q] = { s.mgmt.queues[q] with head := s.mgmt.queues[q].head + 1 } := by
  unfold State.advanceHead
  dsimp only
  split
  · exact ⟨rfl, State.setQueue_self s q _⟩
  · next hw =>
    have hmem := State.physWrite_onlyMemory hw
    rw [hmem.pipelines, hmem.queues]
    exact ⟨rfl, State.setQueue_self s q _⟩

theorem State.measureRuntime_frame (s : State) (r : List Byte) :
    (s.measureRuntime r).pipelines = s.pipelines ∧ (s.measureRuntime r).mgmt.queues = s.mgmt.queues := by
  unfold State.measureRuntime
  split <;> exact ⟨rfl, rfl⟩

/-! ### Records (R300, R301) -/

/-- Nothing keeps the device from the record at the head of the queue on turn. -/
theorem State.record_awaited {s : State} {q : Fin 64} {d : QueueDesc} (hfatal : s.mgmt.fatal = false) (hturn : s.mgmt.nextQueue = some q.val)
    (hphase : s.phaseMatches s.mgmt.queues[q] d = true) :
    (s.mgmt.fatal || s.mgmt.nextQueue != some q.val || !s.phaseMatches s.mgmt.queues[q] d) = false := by
  rw [hfatal, hturn, hphase, bne_self_eq_false]
  rfl

section
variable {s : State} {q : Fin 64} {d : QueueDesc} (hd : s.mgmt.queues[q].desc = some d)
include hd

section
variable (hfatal : s.mgmt.fatal = false) (hturn : s.mgmt.nextQueue = some q.val) (hphase : s.phaseMatches s.mgmt.queues[q] d = true)
  {bs : List (Byte × Bool)} (hbs : (s.physTouch (s.mgmt.queues[q].record d).1 1).physRead (s.mgmt.queues[q].record d).1 256 = some bs)
include hfatal hturn hphase hbs

/-- A record that is launched gives the queue its launch number. -/
theorem exec_submissionRecord_launched {n : Nat} {u : State}
    (hl : ((s.physTouch (s.mgmt.queues[q].record d).1 1).physTouch (s.mgmt.queues[q].record d).1 256).tryLaunch bs = (.ok n, u)) :
    ∃ t, exec (.submissionRecord q) s = .next t ∧ t.pipelines = u.pipelines ∧
      t.mgmt.queues[q].lnum = BitVec.ofNat 32 n ∧ t.mgmt.queues[q].head = u.mgmt.queues[q].head + 1 := by
  let m := u.measureRuntime (bs.map Prod.fst)
  let r := m.setQueue q { m.mgmt.queues[q] with lnum := BitVec.ofNat 32 n }
  obtain ⟨hpipes, hqueue⟩ := r.advanceHead_frame q d
  obtain ⟨hmpipes, hmqueues⟩ := u.measureRuntime_frame (bs.map Prod.fst)
  have hexec : s.submissionRecord q = r.advanceHead q d := by
    unfold State.submissionRecord
    simp only [hd, State.record_awaited hfatal hturn hphase, hbs, hl, Bool.false_eq_true, if_false]
    rfl
  rw [m.setQueue_self q, hmqueues] at hqueue
  exact ⟨_, congrArg Host.Outcome.next hexec, hpipes.trans hmpipes, by rw [hqueue], by rw [hqueue]⟩

/-- A record that is rejected is passed over. -/
theorem exec_submissionRecord_bad {u : State}
    (hl : ((s.physTouch (s.mgmt.queues[q].record d).1 1).physTouch (s.mgmt.queues[q].record d).1 256).tryLaunch bs = (.error .bad, u)) :
    ∃ t, exec (.submissionRecord q) s = .next t ∧ t.pipelines = u.pipelines ∧ t.mgmt.queues[q].head = u.mgmt.queues[q].head + 1 := by
  obtain ⟨hpipes, hqueue⟩ := u.advanceHead_frame q d
  have hexec : s.submissionRecord q = u.advanceHead q d := by
    unfold State.submissionRecord
    simp only [hd, State.record_awaited hfatal hturn hphase, hbs, hl, Bool.false_eq_true, if_false]
  exact ⟨_, congrArg Host.Outcome.next hexec, hpipes, by rw [hqueue]⟩

end

theorem exec_submissionNotReady (hready : s.mgmt.queues[q].ready = true) (hphase : s.phaseMatches s.mgmt.queues[q] d = false) :
    ∃ t, exec (.submissionNotReady q) s = .next t ∧ t.mgmt.queues[q] = { s.mgmt.queues[q] with waiting := true } ∧
      t.mgmt.errlog.getLast? = some (.notReady q.val s.mgmt.queues[q].head.toNat) := by
  have hexec : s.submissionNotReady q =
      (s.setQueue q { s.mgmt.queues[q] with waiting := true }).log (.notReady q.val s.mgmt.queues[q].head.toNat) := by
    unfold State.submissionNotReady
    simp only [hd, hready, hphase, Bool.not_false, Bool.and_self, if_true]
  exact ⟨_, congrArg Host.Outcome.next hexec, s.setQueue_self q _, State.log_errlog_getLast? _ _⟩

end

end Sys2Proof.Machine
end

section
/-! # The host side and resets, as events

Resets, register writes, host accesses and submission queues with their effects (R204, R211, R299 to R301, R395, R398, R401). -/

namespace Sys2Proof.Machine

/-- Settles O53: each event is one equation of the model, and a reset's state is its clear (`ClearedFrom`). -/
theorem hostAndResetsAct : Obligations.HostAndResetsAct := by
  unfold Obligations.HostAndResetsAct
  intro s clears
  refine ⟨⟨_, rfl, s.resetKeeping_clearedFrom _ _ _, rfl, rfl, rfl, rfl⟩, ⟨_, rfl, s.resetKeeping_clearedFrom _ _ _, rfl, rfl, rfl, rfl, rfl, rfl⟩,
    ⟨_, rfl, s.resetKeeping_clearedFrom 0 8 3400, rfl⟩,
    fun hready v => ⟨exec_mgmtRegisterWrite_xhatb hready v, fun i => congrArg _ (State.mgmtWrite_rgn hready v i),
      congrArg _ (State.mgmtWrite_lnum hready v)⟩,
    exec_pwrbudWrite, step_sets_ready, exec_xlatchWrite_one, fun hx off len v => ?_, fun off len v => ?_, fun pa v n p hreach hp hposted => ?_, ?_⟩
  · obtain ⟨t, hexec, hxlatch, htlb, hlatched, hrest⟩ := exec_xlatchDone hx off len v
    refine ⟨t, hexec, hxlatch, htlb, ?_, ?_, ?_, ?_, hrest⟩ <;> rw [hlatched] <;> rfl
  · refine ⟨_, exec_registerRead off len v s, rfl, ?_, ?_, fun hoff hready => hostData_registerRead (State.mgmtRead_unready hoff hready),
      fun hready => ⟨?_, ?_, fun q => ?_, ?_⟩⟩ <;> rintro rfl
    · exact hostData_registerRead s.mgmtRead_kycap
    · exact hostData_registerRead s.mgmtRead_devstat
    · exact hostData_registerRead (State.mgmtRead_xlatch hready)
    · exact hostData_registerRead (State.mgmtRead_mcpart hready)
    · exact hostData_registerRead (State.mgmtRead_lnum hready q)
    · exact hostData_registerRead (State.mgmtRead_unnamed hready)
  · exact ⟨fun hcan hun => exec_hostWrite_bytes hreach hp hposted hcan hun v, fun hlight hbit => exec_hostRead_bytes hreach hp hposted hlight hbit v,
      exec_hostPost hreach hposted v, exec_hostPerform_none hposted n pa v⟩
  · intro q d x hd
    exact ⟨fun bs hbs hclean => exec_sqTailUpdate hd hbs hclean,
      fun hfatal hturn hphase bs hbs => ⟨fun n u hl => exec_submissionRecord_launched hd hfatal hturn hphase hbs hl,
        fun u hl => exec_submissionRecord_bad hd hfatal hturn hphase hbs hl⟩,
      fun hready hphase => exec_submissionNotReady hd hready hphase⟩

end Sys2Proof.Machine
end

section
/-! # Atomics

AMO, CAS and AMOF read, compute and write at a single place in the order, and owe their destination what they have read (R195, R226 to
R228). -/

namespace Sys2Proof.Machine

/-! ### New values (R227) -/

theorem ofLeBytes_lt : ∀ bs : List Byte, ofLeBytes bs < 2 ^ (8 * bs.length)
  | [] => by simp [ofLeBytes]
  | b :: bs => by
    have hb := b.isLt
    have hbs := ofLeBytes_lt bs
    rw [ofLeBytes, List.length_cons, show 8 * (bs.length + 1) = 8 * bs.length + 8 by omega, Nat.pow_add]
    omega

/-- The bytes of an access make a number of its width. -/
theorem numOf_lt {bs : List (Byte × Bool)} {n : Nat} (h : bs.length = n) : numOf bs < 2 ^ (8 * n) := by
  subst h
  simpa [numOf] using ofLeBytes_lt (bs.map Prod.fst)

theorem IFmt.value_signed (w v : Nat) : IFmt.value ⟨w, true⟩ v = (BitVec.ofNat w v).toInt := by
  have h := IFmt.value_toNat true (BitVec.ofNat w v)
  rw [BitVec.toNat_ofNat] at h
  simpa [IFmt.value, laneInt] using h

/-- Numbers of `w` bits are told apart by their signed values. -/
theorem eq_of_toInt_ofNat_eq {w a b : Nat} (ha : a < 2 ^ w) (hb : b < 2 ^ w) (h : (BitVec.ofNat w a).toInt = (BitVec.ofNat w b).toInt) : a = b := by
  have e := congrArg BitVec.toNat (BitVec.eq_of_toInt_eq h)
  rwa [BitVec.toNat_ofNat, BitVec.toNat_ofNat, Nat.mod_eq_of_lt ha, Nat.mod_eq_of_lt hb] at e

/-- R227's new value of AMO for an old value and an operand of `w` bits, with the signed order that of two's complement. -/
def amoCombined (op w old z : Nat) : Nat :=
  match op with
  | 0 => (old + z) % 2 ^ w
  | 1 => z
  | 2 => old &&& z
  | 3 => old ||| z
  | 4 => if (BitVec.ofNat w old).toInt ≤ (BitVec.ofNat w z).toInt then old else z
  | 5 => if (BitVec.ofNat w z).toInt ≤ (BitVec.ofNat w old).toInt then old else z
  | 6 => min old z
  | _ => max old z

theorem amoNew_eq (opc : BitVec 3) {w old : Nat} (hold : old < 2 ^ w) (y : Nat) : amoNew opc w old y = amoCombined opc.toNat w old (y % 2 ^ w) := by
  have hz : y % 2 ^ w < 2 ^ w := Nat.mod_lt _ (Nat.two_pow_pos w)
  have hop := opc.isLt
  unfold amoNew amoCombined
  simp only [IFmt.value_signed]
  generalize y % 2 ^ w = z at *
  generalize opc.toNat = op at *
  match op, hop with
  | 0, _ | 1, _ | 2, _ | 3, _ => rfl
  | 4, _ =>
    show (if (BitVec.ofNat w old).toInt < (BitVec.ofNat w z).toInt then old else z) =
      if (BitVec.ofNat w old).toInt ≤ (BitVec.ofNat w z).toInt then old else z
    rcases eq_or_ne (BitVec.ofNat w old).toInt (BitVec.ofNat w z).toInt with heq | hne
    · rw [eq_of_toInt_ofNat_eq hold hz heq, ite_self, ite_self]
    · simp only [lt_iff_le_and_ne, hne, ne_eq, not_false_eq_true, and_true]
  | 5, _ =>
    show (if (BitVec.ofNat w old).toInt < (BitVec.ofNat w z).toInt then z else old) =
      if (BitVec.ofNat w z).toInt ≤ (BitVec.ofNat w old).toInt then old else z
    simp only [← not_lt, ite_not]
  | 6, _ => exact (min_def_lt old z).symm
  | 7, _ => exact (max_def_lt old z).symm

/-! ### Addresses (R228) -/

section
variable {s : State} {ea : Word} {n : Nat}

theorem checkAmoAddr_beyond (h : 2 ^ 56 ≤ ea.toNat) : checkAmoAddr s ea n = .trap 0x09 ea := by
  rw [checkAmoAddr, Verdict.all, trapIf_pos h, Verdict.trap_andThen]

theorem checkAmoAddr_crossing (h : ea.toNat < 2 ^ 56) (hline : ea.toNat / 128 ≠ (ea.toNat + n - 1) / 128) : checkAmoAddr s ea n = .trap 0x07 ea := by
  rw [checkAmoAddr, Verdict.all, Verdict.all, trapIf_neg (Nat.not_le.mpr h), trapIf_pos hline, Verdict.go_andThen, Verdict.trap_andThen]

theorem checkAmoAddr_go {ls : List Loc} (h : ea.toNat < 2 ^ 56) (hline : ea.toNat / 128 = (ea.toNat + n - 1) / 128)
    (hls : s.locateN (s.src.who s.variant) ea.toNat .atomic n = .ok ls) : checkAmoAddr s ea n = .go := by
  simp only [checkAmoAddr, Verdict.all, trapIf_neg (Nat.not_le.mpr h), trapIf_neg (not_not.mpr hline), checkAccess_go hls, Verdict.go_andThen]

end

/-! ### The access (R196, R357) -/

/-- The line of an atomic in coherent memory is gathered without a byte changing. -/
theorem State.prepareAtomic_quiet (s : State) (c : Context) {ls : List Loc} (h : ls.all Loc.plainMem = true) : Quiet s (s.prepareAtomic c ls) := by
  cases ls with
  | nil => exact Quiet.refl s
  | cons l ls =>
    rw [List.all_cons, Bool.and_eq_true] at h
    obtain ⟨p, rfl, -⟩ := Loc.plainMem_iff.mp h.1
    exact s.gatherFor_quiet _ p true

theorem Loc.not_software_of_plainMem {ls : List Loc} (h : ls.all Loc.plainMem = true) : ls.any Loc.software = false := by
  refine List.any_eq_false.mpr fun l hl hsoft => ?_
  obtain ⟨p, rfl, hcoh⟩ := Loc.plainMem_iff.mp (List.all_eq_true.mp h l hl)
  obtain ⟨q, e, hq⟩ := Loc.software_iff.mp hsoft
  cases e
  rw [hq] at hcoh
  cases hcoh

/-- What the reads of an instruction's operands leave of what an access to coherent memory sees. -/
theorem SameButStreams.loadByte {s t : State} (h : SameButStreams s t) (c : Context) {l : Loc} (hl : l.plainMem = true) : t.loadByte c l = s.loadByte c l := by
  obtain ⟨q, d, r, rfl⟩ := h.eq_setCtx
  obtain ⟨p, rfl, hp⟩ := Loc.plainMem_iff.mp hl
  rw [State.loadByte_coherent _ c hp, State.loadByte_coherent _ c hp]
  rfl

/-- `t` is what an atomic whose new value is `v` leaves of `s`: its bytes at the places `ls`, and beside them only bytes of the dirty bitmaps
and the streams of the context on turn. -/
structure State.AtomicLeaves (s : State) (ls : List Loc) (m v : Nat) (t : State) : Prop where
  turn : ∃ q d r, t.ctx.bare = (s.ctx.restream q d r).bare
  frame : BytesBut (fun k => k ∈ memKeys ls ∨ s.BitmapByte k) s t
  written : ∀ j < m, ∀ k, (memKeys ls)[j]? = some k → t.homeByte k = (BitVec.ofNat 8 (v / 2 ^ (8 * j)), false)

/-- An atomic in coherent memory reads what memory holds and writes the new value (R196, R227). -/
theorem State.atomic_plain {s : State} (os : List Opnd) {c : Context} {ls : List Loc} {ea m : Nat} (f : Nat → Nat) (hcan : s.MemoryCanonical)
    (hls : s.locateN (c.who s.variant) ea .atomic m = .ok ls) (hplain : ls.all Loc.plainMem = true) (hun : s.Unmapped (memKeys ls))
    (hnodup : (memKeys ls).Nodup) (hclean : anyPoison (ls.map (s.loadByte c)) = false) (hposted : s.posted = [])
    (hbits : ∀ k ∈ memKeys ls, ¬ s.BitmapByte k) :
    ∃ t, (s.reading os).atomic c ea m f = (numOf (ls.map (s.loadByte c)), false, t) ∧ s.AtomicLeaves ls m (f (numOf (ls.map (s.loadByte c)))) t := by
  have same : SameButStreams s (s.reading os) := State.takeAll_same os s
  have hread (l : Loc) (hl : l ∈ ls) : (s.reading os).loadByte c l = s.loadByte c l := same.loadByte c (List.all_eq_true.mp hplain l hl)
  have hloc := (same.locateN (c.who s.variant) ea .atomic m).trans hls
  rw [← same.variant] at hloc
  obtain ⟨q, d, r, e⟩ := same.eq_setCtx
  generalize s.reading os = u at *
  have hready : Quiet u ((u.fillPages (c.who u.variant) ea m).prepareAtomic c ls) :=
    (u.fillPages_quiet _ ea m).trans (State.prepareAtomic_quiet _ c hplain)
  have hcanReady : ((u.fillPages (c.who u.variant) ea m).prepareAtomic c ls).MemoryCanonical :=
    State.prepareAtomic_canonical c ls (State.fillPages_canonical _ ea m (by subst e; exact hcan))
  obtain ⟨hload, hbytes⟩ := State.loadLocs_quiet c hplain (hready.posted.trans (by subst e; exact hposted))
  have hcanLoad := State.loadLocs_canonical c ls hcanReady
  have hold : (((u.fillPages (c.who u.variant) ea m).prepareAtomic c ls).loadLocs c ls).1 = ls.map (s.loadByte c) := by
    refine (hbytes fun k hk => mt (hready.bitmapByte k).mp (by subst e; exact hbits k hk)).trans (List.map_congr_left fun l hl => ?_)
    obtain ⟨p, rfl, hp⟩ := Loc.plainMem_iff.mp (List.all_eq_true.mp hplain l hl)
    rw [← hread _ hl, State.loadByte_coherent _ c hp, State.loadByte_coherent _ c hp,
      hready.seenByte _ (by subst e; exact hbits p.key (mem_memKeys hl))]
  have hq := hready.trans hload
  have hatomic : u.atomic c ea m f = (numOf (ls.map (s.loadByte c)), false,
      (((u.fillPages (c.who u.variant) ea m).prepareAtomic c ls).loadLocs c ls).2.storeLocs c ls (leBytes m (f (numOf (ls.map (s.loadByte c)))))) := by
    simp only [State.atomic, hloc, Loc.not_software_of_plainMem hplain, hold, hclean, Bool.false_eq_true, if_false]
  generalize (((u.fillPages (c.who u.variant) ea m).prepareAtomic c ls).loadLocs c ls).2 = z at *
  obtain ⟨⟨hmem, hparts⟩, hwritten⟩ := State.storeLocs_plain hq hcanLoad c hplain (by subst e; exact hun) (leBytes m (f (numOf (ls.map (s.loadByte c)))))
  refine ⟨_, hatomic, ⟨q, d, r, ?_⟩, ⟨fun k hk => ?_, ?_⟩, fun j hj k hk => hwritten hnodup j k _ hk (leBytes_getElem? _ hj)⟩
  · have hturn := hq.sameTurn.trans (State.storeLocs_sameTurn z c ls (leBytes m (f (numOf (ls.map (s.loadByte c))))))
    rw [SameTurn, e] at hturn
    exact hturn
  · subst e
    exact hmem k hk
  · subst e
    exact hparts

/-! ### The instructions -/

/-- An atomic that computes `f` at `ea`, of the operands `os`, and owes its old value to `d`. -/
def State.atomicOwing (s : State) (os : List Opnd) (d : Opnd) (ea m : Nat) (lat : BitVec 4) (f : Nat → Nat) : State :=
  let r := (s.reading os).atomic s.src ea m f
  r.2.2.oweLoad d lat.toNat 1 r.1 r.2.1

/-- With its operands there, the instruction checks its address and the room for its result, and then is the atomic that computes `f`. -/
def State.RunsAtomic (s : State) (i : Instr) (os : List Opnd) (d : Opnd) (x : Word) (m : Nat) (lat : BitVec 4) (f : Nat → Nat) : Prop :=
  exec i s = gated ((checkAmoAddr s x m).andThen (checkRoom s)) (fun s => s.atomicOwing os d x.toNat m lat f) s

section
variable {s : State} {d a b : Opnd} {x y : Word} (lat : BitVec 4)

theorem gated_congr {v : Verdict} {f g : State → State} (h : f s = g s) : gated v f s = gated v g s := by
  cases v with
  | go => exact congrArg Host.Outcome.next h
  | hold => rfl
  | trap => rfl

section
variable (h : s.Delivers [a, b] [x, y]) (hd : s.Accepts d)
include h

theorem State.Delivers.peek_first : s.peek Claims.none a = .ok x := by
  simp only [State.Delivers, State.peekAll] at h
  cases ha : s.peek Claims.none a <;> cases hb : s.peek (Claims.none.read a) b <;> simp_all

include hd

theorem checkAmo_eq (m : Nat) : checkAmo d a b m .none s = (checkAmoAddr s x m).andThen (checkRoom s) := by
  have hopnds : checkSrcsDst [a, b] d .none s = .go := h.checkOpnds hd.checkDests
  rw [checkAmo, hopnds, withPeek, h.peek_first, Verdict.go_andThen]

theorem runsAtomic_amo (opc : BitVec 3) (sz : Bool) :
    s.RunsAtomic (.amo d a b opc sz lat) [a, b] d x (amoBytes sz) lat (fun old => amoNew opc (8 * amoBytes sz) old y.toNat) := by
  obtain ⟨hx, hy⟩ := List.cons.inj h.values
  have hsrc : (s.reading [a, b]).src = s.src := (State.takeAll_same [a, b] s).src
  show execAmo d a b opc sz lat s = _
  rw [execAmo, checkAmo_eq h hd]
  refine gated_congr ?_
  rw [State.atomicOwing, ← hsrc, ← hx, ← (List.cons.inj hy).1]
  rfl

theorem runsAtomic_amof : s.RunsAtomic (.amof d a b lat) [a, b] d x 4 lat (fun old => (addF32 old (y.toNat % 2 ^ 32)).1) := by
  obtain ⟨hx, hy⟩ := List.cons.inj h.values
  have hsrc : (s.reading [a, b]).src = s.src := (State.takeAll_same [a, b] s).src
  show execAmof d a b lat s = _
  rw [execAmof, checkAmo_eq h hd]
  refine gated_congr ?_
  rw [State.atomicOwing, ← hsrc, ← hx, ← (List.cons.inj hy).1]
  rfl

end

/-- A register that is read before other operands takes nothing from them. -/
theorem State.Delivers.tail_reg {r : Fin 48} {e : Word} {os : List Opnd} {ws : List Word} (h : s.Delivers (.s r :: os) (e :: ws)) : s.Delivers os ws := by
  simp only [State.Delivers, State.peekAll, show s.peek Claims.none (.s r) = .ok (s.readReg r) from rfl, show Claims.none.read (.s r) = .none from rfl] at h ⊢
  cases hos : s.peekAll Claims.none os <;> simp_all

/-- CAS reads its destination, a register, before its address. -/
theorem runsAtomic_cas {r : Fin 48} {e : Word} (h : s.Delivers [.s r, a, b] [e, x, y]) (sz : Bool) :
    s.RunsAtomic (.cas (.s r) a b sz lat) [.s r, a, b] (.s r) x (amoBytes sz) lat
      (fun old => if old = e.toNat % 2 ^ (8 * amoBytes sz) then y.toNat % 2 ^ (8 * amoBytes sz) else old) := by
  have hopnds : checkSrcs [.s r, a, b] .none s = .go := h.checkOpnds rfl
  have hcheck : checkCas (.s r) a b (amoBytes sz) .none s = (checkAmoAddr s x (amoBytes sz)).andThen (checkRoom s) := by
    rw [checkCas, hopnds, withPeek, h.tail_reg.peek_first, Verdict.go_andThen]
  obtain ⟨he, hrest⟩ := List.cons.inj h.values
  obtain ⟨hx, hy⟩ := List.cons.inj hrest
  have hsrc : (s.reading [.s r, a, b]).src = s.src := (State.takeAll_same [.s r, a, b] s).src
  show execCas (.s r) a b sz lat s = _
  rw [execCas, hcheck]
  refine gated_congr ?_
  rw [State.atomicOwing, ← hsrc, ← he, ← hx, ← (List.cons.inj hy).1]
  rfl

end

/-- What an atomic owes: the old value, unless it is poisoned. -/
theorem State.oweLoad_clean (s : State) (d : Opnd) (lat source v : Nat) :
    ∃ q tag p, s.oweLoad d lat source v false = s.setCtx { s.ctx with streams := q, tag := tag, pend := s.ctx.pend ++ [p] } ∧
      p.value = BitVec.ofNat 64 v ∧ p.poison = none ∧ p.bound = s.ctx.boundOf lat ∧ ∀ r, d = .s r → p.dest = .reg r := by
  cases d with
  | s n => exact ⟨_, _, _, rfl, rfl, rfl, rfl, fun r h => by cases h; rfl⟩
  | q n => exact ⟨_, _, _, rfl, rfl, rfl, rfl, nofun⟩

section
variable {s : State} {i : Instr} {os : List Opnd} {d : Opnd} {x : Word} {m : Nat} {lat : BitVec 4} {f : Nat → Nat} (hi : s.RunsAtomic i os d x m lat f)
include hi

theorem State.RunsAtomic.stops : (2 ^ 56 ≤ x.toNat → exec i s = .next (s.takeTrap 0x09 x)) ∧
    (x.toNat < 2 ^ 56 → x.toNat / 128 ≠ (x.toNat + m - 1) / 128 → exec i s = .next (s.takeTrap 0x07 x)) := by
  refine ⟨fun h => hi.trans (gated_trap ?_ _ s), fun h hline => hi.trans (gated_trap ?_ _ s)⟩
  · rw [checkAmoAddr_beyond h, Verdict.trap_andThen]
  · rw [checkAmoAddr_crossing h hline, Verdict.trap_andThen]

/-- An atomic in coherent memory owes the old value and leaves the new one, which `new` gives for every old value of its width. -/
theorem State.RunsAtomic.does (hcan : s.MemoryCanonical) (hsrc : s.src = s.ctx) (hroom : s.ctx.pend.length < 64) {new : Nat → Nat}
    (hnew : ∀ old < 2 ^ (8 * m), f old = new old) {ls : List Loc} (hls : s.locateN (s.src.who s.variant) x.toNat .atomic m = .ok ls)
    (hplain : ls.all Loc.plainMem = true) (hun : s.Unmapped (memKeys ls)) (hnodup : (memKeys ls).Nodup)
    (hclean : anyPoison (ls.map (s.loadByte s.src)) = false) (hposted : s.posted = []) (hbits : ∀ k ∈ memKeys ls, ¬ s.BitmapByte k)
    (hx : x.toNat < 2 ^ 56) (hline : x.toNat / 128 = (x.toNat + m - 1) / 128) :
    ∃ (t : State) (p : Pending), exec i s = .next t ∧ t.ctx.pend = s.ctx.pend ++ [p] ∧
      p.value = BitVec.ofNat 64 (numOf (ls.map (s.loadByte s.src))) ∧ p.poison = none ∧ p.bound = s.ctx.issues + max lat.toNat 1 ∧
      (∀ r, d = .s r → p.dest = .reg r) ∧ t.ctx.regs = s.ctx.regs ∧ t.ctx.cq = s.ctx.cq ∧ t.ctx.specials = s.ctx.specials ∧
      BytesBut (fun k => k ∈ memKeys ls ∨ s.BitmapByte k) s t ∧
      ∀ j < m, ∀ k, (memKeys ls)[j]? = some k → t.homeByte k = (BitVec.ofNat 8 (new (numOf (ls.map (s.loadByte s.src))) / 2 ^ (8 * j)), false) := by
  obtain ⟨u, hatomic, ⟨q, dr, r, hbare⟩, ⟨hmem, hparts⟩, hwritten⟩ := State.atomic_plain os f hcan hls hplain hun hnodup hclean hposted hbits
  have hold : numOf (ls.map (s.loadByte s.src)) < 2 ^ (8 * m) := numOf_lt (by rw [List.length_map, State.locateN_length hls])
  rw [hnew _ hold] at hwritten
  generalize numOf (ls.map (s.loadByte s.src)) = old at *
  obtain ⟨q', tag, p, howe, hvalue, hpoison, hbound, hdest⟩ := u.oweLoad_clean d lat.toNat 1 old
  obtain ⟨hregs, hcq, hspecials, -, hpend, -, hissues, -, -⟩ := Context.fields_of_bare hbare
  have hgo : (checkAmoAddr s x m).andThen (checkRoom s) = .go := by
    rw [checkAmoAddr_go hx hline hls, Verdict.go_andThen]
    exact holdIf_neg (by rw [hsrc]; omega)
  have hexec : exec i s = .next (u.setCtx { u.ctx with streams := q', tag := tag, pend := u.ctx.pend ++ [p] }) := by
    rw [hi, gated_go hgo, State.atomicOwing, hatomic, ← howe]
  refine ⟨_, p, hexec, congrArg (· ++ [p]) hpend, hvalue, hpoison, hbound.trans (congrArg (· + max lat.toNat 1) hissues), hdest, hregs, hcq, hspecials,
    ⟨hmem, hparts⟩, hwritten⟩

end

/-- Settles O15: the three atomics are one access that differs in the new value alone. -/
theorem atomicsReadComputeWrite : Obligations.AtomicsReadComputeWrite := by
  unfold Obligations.AtomicsReadComputeWrite
  intro s d a b x y sz lat opc hcan hsrc hroom
  dsimp only
  refine ⟨fun h hd => ⟨?_, ?_⟩, fun r e hdr h => ?_, fun h hd => ?_, fun r e hdr h => ?_⟩
  · exact fun ls => (runsAtomic_amo lat h hd opc sz).does hcan hsrc hroom fun old hold => amoNew_eq opc hold y.toNat
  · exact fun ls => (runsAtomic_amof lat h hd).does hcan hsrc hroom fun _ _ => rfl
  · subst hdr
    exact fun ls => (runsAtomic_cas lat h sz).does hcan hsrc hroom fun _ _ => rfl
  · exact ⟨(runsAtomic_amo lat h hd opc sz).stops, (runsAtomic_amof lat h hd).stops⟩
  · subst hdr
    exact (runsAtomic_cas lat h sz).stops

end Sys2Proof.Machine
end

section
/-! # Fences

FENCE shows the context's write-backs to the agents of its die, or has them merge at their homes (R188, R202, R204, R229). -/

namespace Sys2Proof.Machine

/-! ### Which write-backs merge -/

/-- Those that merge are in flight, and so are those that stay, for which nothing has asked. -/
theorem splitMerge_mem {v : Variant} {p : WriteBack → Bool} : ∀ l : List WriteBack,
    (∀ wb ∈ (splitMerge v p l).1, wb ∈ l) ∧ ∀ wb ∈ (splitMerge v p l).2, wb ∈ l ∧ p wb = false
  | [] => by simp [splitMerge]
  | x :: r => by
    obtain ⟨hmerged, hkept⟩ := splitMerge_mem (v := v) (p := p) r
    have hmerged' (wb : WriteBack) (h : wb ∈ (splitMerge v p r).1) : wb ∈ x :: r := List.mem_cons_of_mem x (hmerged wb h)
    have hkept' (wb : WriteBack) (h : wb ∈ (splitMerge v p r).2) : wb ∈ x :: r ∧ p wb = false :=
      ⟨List.mem_cons_of_mem x (hkept wb h).1, (hkept wb h).2⟩
    unfold splitMerge
    dsimp only
    split
    · exact ⟨List.forall_mem_cons.mpr ⟨List.mem_cons_self, hmerged'⟩, hkept'⟩
    · next hx =>
      have hp : p x = false := by
        rw [Bool.or_eq_true, not_or, Bool.not_eq_true] at hx
        exact hx.1
      exact ⟨hmerged', List.forall_mem_cons.mpr ⟨⟨List.mem_cons_self, hp⟩, hkept'⟩⟩

/-! ### What a merge leaves alone -/

/-- The cached lines stay as they are, and, where no zero-map flag stands, so do the contexts. -/
structure HomeMoves (s t : State) : Prop where
  swLines : t.swLines = s.swLines
  ctxs : s.zflags = [] → t.zflags = [] ∧ t.ctx = s.ctx ∧ t.others = s.others

section
variable {s t u : State}

theorem HomeMoves.refl (s : State) : HomeMoves s s := ⟨rfl, fun h => ⟨h, rfl, rfl⟩⟩

theorem HomeMoves.trans (h : HomeMoves s t) (k : HomeMoves t u) : HomeMoves s u := by
  refine ⟨k.swLines.trans h.swLines, fun hz => ?_⟩
  obtain ⟨hzt, hct, hot⟩ := h.ctxs hz
  obtain ⟨hzu, hcu, hou⟩ := k.ctxs hzt
  exact ⟨hzu, hcu.trans hct, hou.trans hot⟩

theorem OnlyTokens.homeMoves (h : OnlyTokens s t) : HomeMoves s t := by
  rw [h]
  exact ⟨rfl, fun hz => ⟨hz, rfl, rfl⟩⟩

end

theorem HomeMoves.ite {p : Prop} [Decidable p] {s t u : State} (ht : HomeMoves s t) (hu : HomeMoves s u) : HomeMoves s (if p then t else u) := by
  split
  · exact ht
  · exact hu

theorem HomeMoves.foldl {α : Type} {f : State → α → State} (hf : ∀ s a, HomeMoves s (f s a)) : ∀ (l : List α) (s : State), HomeMoves s (l.foldl f s)
  | [], s => HomeMoves.refl s
  | a :: l, s => (hf s a).trans (HomeMoves.foldl hf l _)

/-- A flag that goes is one that stood. -/
theorem State.dropFlag_homeMoves (s : State) (tile : Nat) : HomeMoves s (s.dropFlag tile) := by
  unfold State.dropFlag
  split
  · next h =>
    have hzero := State.zeroTile_onlyTokens { s with zflags := setDel s.zflags tile } tile
    refine ⟨(congrArg State.swLines hzero :), fun hz => ?_⟩
    rw [hz] at h
    cases h
  · exact HomeMoves.refl s

theorem State.clearFlag_homeMoves (s : State) (key : Nat) : HomeMoves s (s.clearFlag key) :=
  (s.dropFlag_homeMoves (tileOf key)).trans ⟨rfl, fun hz => ⟨hz, rfl, rfl⟩⟩

theorem State.zack_homeMoves (s : State) (n : Nat) : HomeMoves s (s.zack n) := by
  unfold State.zack
  split
  · exact HomeMoves.refl s
  · refine HomeMoves.ite (HomeMoves.refl s) (HomeMoves.trans (t := { s with zclrs := s.zclrs.eraseIdx n }) ⟨rfl, fun hz => ⟨hz, rfl, rfl⟩⟩ ?_)
    exact (State.dropFlag_homeMoves _ _).trans (HomeMoves.foldl (fun s _ => (s.tokensMoved_onlyTokens _).homeMoves) _ _)

theorem State.serveClears_homeMoves (s : State) (tile : Nat) : HomeMoves s (s.serveClears tile) := by
  refine HomeMoves.foldl (fun u _ => ?_) _ s
  split
  · exact HomeMoves.refl u
  · exact u.zack_homeMoves _

theorem WriteBack.place_coherent (wb : WriteBack) : wb.place.cls.coherent = false := by
  unfold WriteBack.place
  dsimp only
  split <;> rfl

/-- A line that carries no tokens is written at its home without an exchange. -/
theorem State.homeWrite_homeMoves (s : State) {p : Place} (h : p.cls.coherent = false) : HomeMoves s (s.homeWrite p) := by
  have hgather : (s.serveClears (tileOf p.key)).gatherHome p = s.serveClears (tileOf p.key) := if_pos (by rw [h]; rfl)
  have hclear := (s.serveClears_homeMoves (tileOf p.key)).trans (State.clearFlag_homeMoves _ p.key)
  unfold State.homeWrite
  refine HomeMoves.ite (HomeMoves.refl s) (HomeMoves.ite (HomeMoves.refl s) ?_)
  simp only [hgather, h, Bool.false_eq_true, if_false]
  exact hclear.trans (State.setTagged_onlyTokens _ _).homeMoves

theorem State.putMerged_homeMoves (wb : WriteBack) (s : State) (i : Nat) : HomeMoves s (State.putMerged wb s i) :=
  HomeMoves.ite ⟨rfl, fun hz => ⟨hz, rfl, rfl⟩⟩ (HomeMoves.refl s)

theorem State.mergeBack_homeMoves (s : State) (wb : WriteBack) : HomeMoves s (s.mergeBack wb) :=
  (s.homeWrite_homeMoves wb.place_coherent).trans (HomeMoves.foldl (State.putMerged_homeMoves wb) (List.range 128) _)

theorem State.mergeWhere_homeMoves (s : State) (p : WriteBack → Bool) : HomeMoves s (s.mergeWhere p) :=
  HomeMoves.trans (t := (splitMerge s.variant p s.writeBacks).1.foldl State.mergeBack s) (HomeMoves.foldl State.mergeBack_homeMoves _ s)
    ⟨rfl, fun hz => ⟨hz, rfl, rfl⟩⟩

/-! ### The bytes that a merge writes -/

theorem OnlyMemory.bitmapByte {s t : State} (h : OnlyMemory s t) (k : Nat) : t.BitmapByte k ↔ s.BitmapByte k := by
  have hlatched : t.mgmt.latched = s.mgmt.latched := congrArg (fun r => r.mgmt.latched) h
  have hkey (key : Nat) : t.bitmapKey key = s.bitmapKey key := by simp only [State.bitmapKey, State.place, h.variant, hlatched]
  simp only [State.BitmapByte, hkey]

/-- The bytes of a merging write-back lie in its line. -/
theorem State.foldl_putMerged_out {s : State} {wb : WriteBack} {k : Nat} (hk : ¬ (wb.key ≤ k ∧ k < wb.key + 128)) :
    ((List.range 128).foldl (State.putMerged wb) s).homeByte k = s.homeByte k := by
  refine List.foldlRecOn (motive := fun t : State => t.homeByte k = s.homeByte k) (List.range 128) (State.putMerged wb) rfl fun t ht i hi => ?_
  have hlt := List.mem_range.mp hi
  refine Eq.trans ?_ ht
  unfold State.putMerged
  split
  · exact State.homeByte_putByte_ne (by omega) _ _
  · rfl

/-- Where no flag stands, a write-back that merges changes its line and the bitmaps at most. -/
theorem State.mergeBack_bytesBut {s : State} (hz : s.zflags = []) (he : s.zflagErr = []) (wb : WriteBack) :
    BytesBut (fun k => (wb.key ≤ k ∧ k < wb.key + 128) ∨ s.BitmapByte k) s (s.mergeBack wb) ∧ (s.mergeBack wb).zflagErr = [] := by
  have hq : Quiet s (s.homeWrite wb.place) := State.homeWrite_quiet (by simp [hz]) (by simp [he])
  obtain ⟨hbytes, hparts⟩ := hq.bytesBut
  obtain ⟨-, hframe⟩ := State.putMerged_frame wb (List.range 128) (s.homeWrite wb.place)
  have herr : (s.mergeBack wb).zflagErr = (s.homeWrite wb.place).zflagErr :=
    State.foldl_keeps State.zflagErr (fun t i => by split <;> rfl) (List.range 128) _
  refine ⟨⟨fun k hk => ?_, hframe.trans hparts⟩, herr.trans (hq.zflagErr.trans he)⟩
  obtain ⟨hline, hbit⟩ := not_or.mp hk
  exact (State.foldl_putMerged_out hline).trans (hbytes k hbit)

/-- So do all that merge together. -/
theorem State.mergeWhere_bytesBut {s : State} (hz : s.zflags = []) (he : s.zflagErr = []) (p : WriteBack → Bool) :
    BytesBut (fun k => (∃ wb ∈ s.writeBacks, wb.key ≤ k ∧ k < wb.key + 128) ∨ s.BitmapByte k) s (s.mergeWhere p) := by
  let P (k : Nat) : Prop := (∃ wb ∈ s.writeBacks, wb.key ≤ k ∧ k < wb.key + 128) ∨ s.BitmapByte k
  have hall : OnlyMemory s ((splitMerge s.variant p s.writeBacks).1.foldl State.mergeBack s) ∧
      ((splitMerge s.variant p s.writeBacks).1.foldl State.mergeBack s).zflags = [] ∧
      ((splitMerge s.variant p s.writeBacks).1.foldl State.mergeBack s).zflagErr = [] ∧
      BytesBut P s ((splitMerge s.variant p s.writeBacks).1.foldl State.mergeBack s) := by
    refine List.foldlRecOn (motive := fun t : State => OnlyMemory s t ∧ t.zflags = [] ∧ t.zflagErr = [] ∧ BytesBut P s t) _ State.mergeBack
      ⟨OnlyMemory.refl s, hz, he, fun _ _ => rfl, rfl⟩ fun t ⟨honly, htz, hte, hmem, hparts⟩ wb hwb => ?_
    obtain ⟨⟨hmem', hparts'⟩, herr⟩ := State.mergeBack_bytesBut htz hte wb
    refine ⟨honly.trans (t.mergeBack_onlyMemory wb), ((t.mergeBack_homeMoves wb).ctxs htz).1, herr, fun k hk => ?_, hparts'.trans hparts⟩
    obtain ⟨hlines, hbit⟩ := not_or.mp hk
    refine (hmem' k fun h => ?_).trans (hmem k hk)
    rcases h with hline | hmap
    · exact hlines ⟨wb, (splitMerge_mem _).1 wb hwb, hline⟩
    · exact hbit ((honly.bitmapByte k).mp hmap)
  exact hall.2.2.2

/-- What a context keeps when only the record of its commands' zeros changes. -/
theorem OnlyMemory.sameSequencer {s t : State} (h : OnlyMemory s t) :
    SameSequencer s.ctx t.ctx ∧ t.ctx.pend = s.ctx.pend ∧ t.ctx.cells = s.ctx.cells := by
  obtain ⟨l, e⟩ : ∃ l, t.ctx = { s.ctx with cmds := l } := ⟨t.ctx.cmds, (congrArg (fun c => ({ c with cmds := t.ctx.cmds } : Context)) h.ctx :)⟩
  rw [e]
  exact ⟨⟨rfl, rfl, rfl, rfl, rfl, rfl, rfl, rfl, rfl, rfl, rfl⟩, rfl, rfl⟩

/-! ### The instruction -/

/-- Whether a FENCE of the context on turn shows or merges a write-back: it concerns the context, and a cache has sent it. -/
def State.fenceTakes (s : State) (wb : WriteBack) : Bool := s.sentFor s.ctx wb && wb.src.isSome

/-- A write-back once a FENCE with the scope of the die has passed. -/
def State.shown (s : State) (wb : WriteBack) : WriteBack :=
  if s.fenceTakes wb then { wb with fenced := setAdd wb.fenced s.ctx.die } else wb

theorem State.shown_eq (s : State) (wb : WriteBack) : ∃ f, s.shown wb = { wb with fenced := f } ∧
    ∀ die, die ∈ f ↔ die ∈ wb.fenced ∨ s.fenceTakes wb = true ∧ die = s.ctx.die := by
  unfold State.shown
  split
  · next h => exact ⟨_, rfl, fun die => by rw [mem_setAdd, or_comm]; simp [h]⟩
  · next h => exact ⟨wb.fenced, rfl, fun die => by simp [h]⟩

theorem exec_fence_die (s : State) : exec (.fence 0) s = .next { s with writeBacks := s.writeBacks.map s.shown } := rfl

/-- A FENCE of a wider scope has write-backs merge: all that it takes, and with the widest the stores to host memory as well. -/
theorem exec_fence_merge (s : State) {scope : BitVec 2} (h : scope ≠ 0) :
    ∃ p : WriteBack → Bool, exec (.fence scope) s = .next (s.mergeWhere p) ∧ (∀ wb, p wb = false → s.fenceTakes wb = false) ∧
      (scope = 2 → p = s.sentFor s.ctx) := by
  by_cases h1 : scope = 1
  · refine ⟨s.fenceTakes, ?_, fun _ => id, fun h2 => ?_⟩
    · subst h1
      rfl
    · rw [h1] at h2
      cases h2
  · refine ⟨s.sentFor s.ctx, ?_, fun wb hwb => ?_, fun _ => rfl⟩
    · exact congrArg Host.Outcome.next ((if_neg h).trans (if_neg h1))
    · rw [State.fenceTakes, hwb, Bool.false_and]

/-- The agents of the die read a write-back's bytes once it has been shown to them. -/
theorem State.seenByte_shown {s : State} {wb : WriteBack} (h : s.writeBacks = [wb]) (hmine : s.fenceTakes wb = true) (hkey : wb.key % 128 = 0) {i : Nat}
    (hi : i < 128) (hmask : wb.mask.getLsbD i = true) :
    ({ s with writeBacks := s.writeBacks.map s.shown } : State).seenByte (some s.ctx.die) (wb.key + i) = wb.at i := by
  have hshown : s.shown wb = { wb with fenced := setAdd wb.fenced s.ctx.die } := if_pos hmine
  have hbyte : (wb.key + i) % 128 = i := by omega
  have hline : wb.key = lineOf (wb.key + i) := by unfold lineOf; omega
  have hlast : ({ s with writeBacks := s.writeBacks.map s.shown } : State).writeBacks = [] ++ [s.shown wb] := by rw [h]; rfl
  rw [State.seenByte_append hlast, hshown, hbyte, if_pos]
  · rfl
  · have hdie : (setAdd wb.fenced s.ctx.die).contains s.ctx.die = true := by simp [mem_setAdd]
    simp only [WriteBack.shows, hbyte, hmask, ← hline, Option.any_some, hdie, beq_self_eq_true, Bool.and_self, Bool.or_true]

end Sys2Proof.Machine
end

section
/-! # Cached lines and the write-backs of their bytes

CWB, CINV and CFLUSH go through the covered lines one by one. What they make of each follows from what one line's turn does to all of them
(R174, R187, R188, R230, R231). -/

namespace Sys2Proof.Machine

/-! ### The bytes of a line -/

/-- Byte `i` of a cached line. -/
def SwLine.byte (l : SwLine) (i : Nat) : Byte := BitVec.ofNat 8 (l.data.toNat / 2 ^ (8 * i))

/-- The write-back that the dirty bytes of a line make (R188). -/
def SwLine.writeBack (l : SwLine) (o : Option Nat) : WriteBack :=
  { line := l.line, key := l.key, data := l.data, poi := l.poi, mask := l.dirty, owner := o, src := some l.cache, serves := l.serves, fenced := [] }

/-- A copy takes the dirty bytes of the copy `u` above it that pass it (R174). -/
def SwLine.take (l u : SwLine) : SwLine := { l.overlay u.dirty u.data u.poi with dirty := l.dirty &&& ~~~u.dirty }

theorem SwLine.getLsbD_byte (l : SwLine) (i : Nat) {j : Nat} (hj : j < 8) : (l.byte i).getLsbD j = l.data.getLsbD (8 * i + j) :=
  (l.writeBack none).getLsbD_byte i hj

theorem byteMask_succ (n m : Nat) : byteMask (n + 1) m = 2 ^ (8 * n) * (if m.testBit n then 255 else 0) + byteMask n m := by
  simp only [byteMask, List.range_succ, List.map_append, List.map_cons, List.map_nil, List.sum_append, List.sum_cons, List.sum_nil,
    Nat.testBit_eq_decide_div_mod_eq, decide_eq_true_eq]
  split <;> omega

theorem byteMask_lt (m : Nat) : ∀ n, byteMask n m < 2 ^ (8 * n)
  | 0 => by simp [byteMask]
  | n + 1 => by
    have ih := byteMask_lt m n
    rw [byteMask_succ, show 8 * (n + 1) = 8 * n + 8 by omega, Nat.pow_add]
    split <;> omega

/-- Every bit of a byte that the mask names, and no other, is 1. -/
theorem testBit_byteMask (m i : Nat) {j : Nat} (hj : j < 8) : ∀ n, (byteMask n m).testBit (8 * i + j) = (decide (i < n) && m.testBit i)
  | 0 => by simp [byteMask]
  | n + 1 => by
    rw [byteMask_succ, Nat.testBit_two_pow_mul_add _ (byteMask_lt m n), testBit_byteMask m i hj n]
    rcases Nat.lt_trichotomy i n with hlt | rfl | hgt
    · rw [if_pos (by omega), decide_eq_true hlt, decide_eq_true (Nat.lt_succ_of_lt hlt)]
    · have h255 : (255 : Nat).testBit (8 * i + j - 8 * i) = true := by
        rw [Nat.add_sub_cancel_left, show 255 = 2 ^ 8 - 1 from rfl, Nat.testBit_two_pow_sub_one, decide_eq_true hj]
      rw [if_neg (by omega), decide_eq_true (Nat.lt_succ_self i), Bool.true_and]
      split
      · next h => rw [h255, h]
      · next h => rw [Nat.zero_testBit, Bool.eq_false_of_not_eq_true h]
    · have h255 : (255 : Nat).testBit (8 * i + j - 8 * n) = false := by
        rw [show 255 = 2 ^ 8 - 1 from rfl, Nat.testBit_two_pow_sub_one, decide_eq_false (by omega)]
      rw [if_neg (by omega), decide_eq_false (by omega), Bool.false_and]
      split
      · exact h255
      · exact Nat.zero_testBit _

/-- A byte that does not pass stays, with its mark. -/
theorem SwLine.take_byte {l u : SwLine} {i : Nat} (hi : i < 128) (h : u.dirty.getLsbD i = false) :
    (l.take u).byte i = l.byte i ∧ (l.take u).poi.getLsbD i = l.poi.getLsbD i := by
  constructor
  · refine BitVec.eq_of_getLsbD_eq fun j hj => ?_
    have hmask : (BitVec.ofNat 1024 (byteMask 128 u.dirty.toNat)).getLsbD (8 * i + j) = false := by
      rw [BitVec.getLsbD_ofNat, testBit_byteMask _ i hj, show u.dirty.toNat.testBit i = false from h, Bool.and_false, Bool.and_false]
    rw [SwLine.getLsbD_byte _ i hj, SwLine.getLsbD_byte _ i hj]
    simp only [SwLine.take, SwLine.overlay, BitVec.getLsbD_or, BitVec.getLsbD_and, BitVec.getLsbD_not, hmask, Bool.and_false, Bool.or_false, Bool.not_false,
      Bool.and_true, show 8 * i + j < 1024 by omega, decide_true]
  · simp only [SwLine.take, SwLine.overlay, BitVec.getLsbD_or, BitVec.getLsbD_and, BitVec.getLsbD_not, h, Bool.and_false, Bool.or_false, Bool.not_false,
      Bool.and_true, hi, decide_true]

theorem SwLine.take_dirty {l u : SwLine} {i : Nat} (hi : i < 128) : (l.take u).dirty.getLsbD i = (l.dirty.getLsbD i && !u.dirty.getLsbD i) := by
  simp [SwLine.take, hi]

theorem exists_getLsbD_of_ne_zero {n : Nat} {v : BitVec n} (h : v ≠ 0) : ∃ i < n, v.getLsbD i = true := by
  by_contra hno
  refine h (BitVec.eq_of_getLsbD_eq fun i hi => ?_)
  have hi' : ¬ v.getLsbD i = true := fun hv => hno ⟨i, hi, hv⟩
  simpa using hi'

/-! ### What write-backs leave of a line -/

/-- `l'` is what write-backs of covered lines have left of the cached line `l`, where a covered copy lies `above` it or not: fewer of its
bytes are dirty, and those that are stand as they stood. -/
structure SwLine.Left (above : Prop) (l l' : SwLine) : Prop where
  cache : l'.cache = l.cache
  line : l'.line = l.line
  key : l'.key = l.key
  serves : l'.serves = l.serves
  stale : l'.stale = l.stale
  dirty : ∀ i < 128, l'.dirty.getLsbD i = true → l.dirty.getLsbD i = true ∧ l'.byte i = l.byte i ∧ l'.poi.getLsbD i = l.poi.getLsbD i
  data : ¬ above → l'.data = l.data ∧ l'.poi = l.poi

section
variable {above : Prop} {l l' l'' : SwLine}

theorem SwLine.Left.refl (above : Prop) (l : SwLine) : l.Left above l := ⟨rfl, rfl, rfl, rfl, rfl, fun _ _ h => ⟨h, rfl, rfl⟩, fun _ => ⟨rfl, rfl⟩⟩

theorem SwLine.Left.trans (h : l.Left above l') (k : l'.Left above l'') : l.Left above l'' := by
  refine ⟨k.cache.trans h.cache, k.line.trans h.line, k.key.trans h.key, k.serves.trans h.serves, k.stale.trans h.stale, fun i hi hd => ?_, fun hno => ?_⟩
  · obtain ⟨hd', hbyte', hpoi'⟩ := k.dirty i hi hd
    obtain ⟨hd, hbyte, hpoi⟩ := h.dirty i hi hd'
    exact ⟨hd, hbyte'.trans hbyte, hpoi'.trans hpoi⟩
  · obtain ⟨hdata, hpoi⟩ := h.data hno
    obtain ⟨hdata', hpoi'⟩ := k.data hno
    exact ⟨hdata'.trans hdata, hpoi'.trans hpoi⟩

/-- A clean line stays clean. -/
theorem SwLine.Left.clean (h : l.Left above l') (hl : l.dirty = 0) : l'.dirty = 0 := by
  by_contra hne
  obtain ⟨i, hi, hd⟩ := exists_getLsbD_of_ne_zero hne
  have hd' := (h.dirty i hi hd).1
  rw [hl] at hd'
  simp at hd'

theorem SwLine.left_sent (above : Prop) (l : SwLine) : l.Left above { l with dirty := 0 } :=
  ⟨rfl, rfl, rfl, rfl, rfl, fun i _ h => by simp at h, fun _ => ⟨rfl, rfl⟩⟩

theorem SwLine.left_take (h : above) (l u : SwLine) : l.Left above (l.take u) := by
  refine ⟨rfl, rfl, rfl, rfl, rfl, fun i hi hd => ?_, fun hno => absurd h hno⟩
  rw [SwLine.take_dirty hi, Bool.and_eq_true, Bool.not_eq_true'] at hd
  exact ⟨hd.1, SwLine.take_byte hi hd.2⟩

/-- `wb` is a write-back of the owner `o` of bytes that were dirty in `l`. -/
structure SwLine.Makes (o : Option Nat) (l : SwLine) (wb : WriteBack) : Prop where
  src : wb.src = some l.cache
  line : wb.line = l.line
  key : wb.key = l.key
  serves : wb.serves = l.serves
  fenced : wb.fenced = []
  owner : wb.owner = o
  mask : wb.mask ≠ 0
  bytes : ∀ i < 128, wb.mask.getLsbD i = true → l.dirty.getLsbD i = true ∧ wb.byte i = l.byte i ∧ wb.poi.getLsbD i = l.poi.getLsbD i

theorem SwLine.makes_writeBack (o : Option Nat) (h : l.dirty ≠ 0) : l.Makes o (l.writeBack o) :=
  ⟨rfl, rfl, rfl, rfl, rfl, rfl, h, fun _ _ hi => ⟨hi, rfl, rfl⟩⟩

theorem SwLine.Makes.dirty_ne_zero {o : Option Nat} {wb : WriteBack} (h : l.Makes o wb) : l.dirty ≠ 0 := fun hl => by
  obtain ⟨i, hi, hm⟩ := exists_getLsbD_of_ne_zero h.mask
  have hd := (h.bytes i hi hm).1
  rw [hl] at hd
  simp at hd

theorem SwLine.Left.makes {o : Option Nat} {wb : WriteBack} (h : l.Left above l') (k : l'.Makes o wb) : l.Makes o wb := by
  refine ⟨k.src.trans (congrArg some h.cache), k.line.trans h.line, k.key.trans h.key, k.serves.trans h.serves, k.fenced, k.owner, k.mask, fun i hi hm => ?_⟩
  obtain ⟨hd', hbyte', hpoi'⟩ := k.bytes i hi hm
  obtain ⟨hd, hbyte, hpoi⟩ := h.dirty i hi hd'
  exact ⟨hd, hbyte'.trans hbyte, hpoi'.trans hpoi⟩

end

/-! ### The lines that a machine holds -/

theorem State.swLine_names {s : State} {c : CacheId} {n : Nat} {l : SwLine} (h : s.swLine c n = some l) : l.cache = c ∧ l.line = n := by
  have e := List.find?_some h
  rwa [Bool.and_eq_true, beq_iff_eq, beq_iff_eq] at e

theorem State.swLine_putSw (s : State) (l : SwLine) (c : CacheId) (n : Nat) :
    (s.putSw l).swLine c n = if l.cache = c ∧ l.line = n then some l else s.swLine c n := by
  show (l :: s.swLines.filter fun x => !(x.cache == l.cache && x.line == l.line)).find? (fun x => x.cache == c && x.line == n) = _
  by_cases hl : l.cache = c ∧ l.line = n
  · rw [if_pos hl, List.find?_cons_of_pos (by simpa using hl)]
  · rw [if_neg hl, List.find?_cons_of_neg (by simpa using hl), List.find?_filter, State.swLine]
    congr 1
    funext x
    by_cases hx : x.cache = c ∧ x.line = n
    · obtain ⟨rfl, rfl⟩ := hx
      have hother : ¬ (x.cache = l.cache ∧ x.line = l.line) := fun e => hl ⟨e.1.symm, e.2.symm⟩
      simpa [← not_and_or] using hother
    · simpa [hx] using not_and.mp hx

/-- A list of lines of which some have changed, none in its cache or its number. -/
theorem find?_map_swLine (f : SwLine → SwLine) (hf : ∀ x, (f x).cache = x.cache ∧ (f x).line = x.line) (ls : List SwLine) (c : CacheId) (n : Nat) :
    (ls.map f).find? (fun x => x.cache == c && x.line == n) = (ls.find? (fun x => x.cache == c && x.line == n)).map f := by
  have hp : (fun x : SwLine => x.cache == c && x.line == n) ∘ f = fun x => x.cache == c && x.line == n := by
    funext x
    rw [Function.comp_apply, (hf x).1, (hf x).2]
  rw [List.find?_map, hp]

/-- What a line of a cache is after the dirty bytes of `u` have passed it, or have not. -/
def SwLine.pass (v : Variant) (u x : SwLine) : SwLine :=
  if x.line = u.line ∧ (u.cache.wayDown v (128 * u.line)).contains x.cache = true then x.take u else x

theorem State.sendDirty_eq {s : State} {l : SwLine} (h : l.dirty ≠ 0) (o : Option Nat) :
    s.sendDirty o l = { s with writeBacks := s.writeBacks ++ [l.writeBack o], swLines := s.swLines.map (l.pass s.variant) } := if_neg h

section
variable {s : State} {k : CacheId × Nat} {l : SwLine} (hl : s.swLine k.1 k.2 = some l) (hd : l.dirty ≠ 0) (o : Option Nat)
include hl hd

theorem State.sendBack_eq : s.sendBack o k =
    State.putSw { s with writeBacks := s.writeBacks ++ [l.writeBack o], swLines := s.swLines.map (l.pass s.variant) } { l with dirty := 0 } := by
  simp only [State.sendBack, hl, if_neg hd, State.sendDirty_eq hd]

/-- The line is clean, copies below it have taken its dirty bytes, and others are as they were. -/
theorem State.swLine_sendBack (j : CacheId × Nat) : (s.sendBack o k).swLine j.1 j.2 =
    if j = k then some { l with dirty := 0 }
    else if j.2 = k.2 ∧ j.1 ∈ k.1.wayDown s.variant (128 * k.2) then (s.swLine j.1 j.2).map (·.take l)
    else s.swLine j.1 j.2 := by
  obtain ⟨hcache, hline⟩ := State.swLine_names hl
  have hmap : State.swLine { s with writeBacks := s.writeBacks ++ [l.writeBack o], swLines := s.swLines.map (l.pass s.variant) } j.1 j.2 =
      (s.swLine j.1 j.2).map (l.pass s.variant) :=
    find?_map_swLine _ (fun x => by unfold SwLine.pass; split <;> exact ⟨rfl, rfl⟩) s.swLines j.1 j.2
  rw [State.sendBack_eq hl hd, State.swLine_putSw, hmap]
  by_cases hj : j = k
  · subst hj
    rw [if_pos ⟨hcache, hline⟩, if_pos rfl]
  · rw [if_neg (fun e => hj (Prod.ext (e.1.symm.trans hcache) (e.2.symm.trans hline))), if_neg hj]
    cases hx : s.swLine j.1 j.2 with
    | none => rw [Option.map_none, Option.map_none, ite_self]
    | some x =>
      obtain ⟨hxc, hxl⟩ := State.swLine_names hx
      simp only [Option.map_some, SwLine.pass, hxc, hxl, hcache, hline, List.contains_iff_mem]
      split <;> rfl

end

/-! ### Covered lines sent one after the other -/

/-- A covered copy of the line lies above the cache (R174). -/
def CoveredAbove (v : Variant) (ks : List (CacheId × Nat)) (k : CacheId × Nat) : Prop :=
  ∃ k' ∈ ks, k'.2 = k.2 ∧ k.1 ∈ k'.1.wayDown v (128 * k'.2)

/-- Sending some of the covered lines `ks` home leads from `s` to `t` and has made the write-backs `new`. -/
structure Sends (v : Variant) (ks : List (CacheId × Nat)) (o : Option Nat) (s : State) (new : List WriteBack) (t : State) : Prop where
  frame : t = { s with swLines := t.swLines, writeBacks := t.writeBacks }
  lines : ∀ k : CacheId × Nat, Option.Rel (SwLine.Left (CoveredAbove v ks k)) (s.swLine k.1 k.2) (t.swLine k.1 k.2)
  rest : ∀ k ∉ ks, ¬ CoveredAbove v ks k → t.swLine k.1 k.2 = s.swLine k.1 k.2
  writeBacks : t.writeBacks = s.writeBacks ++ new
  nodup : (new.map fun wb => (wb.src, wb.line)).Nodup
  made : ∀ wb ∈ new, ∃ k ∈ ks, ∃ l, s.swLine k.1 k.2 = some l ∧ l.Makes o wb
  clean : ∀ wb ∈ new, ∀ (k : CacheId × Nat) (l : SwLine), wb.src = some k.1 → wb.line = k.2 → t.swLine k.1 k.2 = some l → l.dirty = 0
  all : ∀ (k : CacheId × Nat) (l : SwLine), s.swLine k.1 k.2 = some l → ∀ i < 128, l.dirty.getLsbD i = true →
    (∃ l', t.swLine k.1 k.2 = some l' ∧ l'.dirty.getLsbD i = true) ∨
      ∃ wb ∈ new, wb.line = k.2 ∧ wb.mask.getLsbD i = true ∧
        (wb.src = some k.1 ∨ ∃ k' ∈ ks, k'.2 = k.2 ∧ wb.src = some k'.1 ∧ k.1 ∈ k'.1.wayDown v (128 * k'.2))

theorem rel_some_left {α β : Type} {r : α → β → Prop} {a : α} {y : Option β} (h : Option.Rel r (some a) y) : ∃ b, y = some b ∧ r a b := by
  cases h with
  | some h => exact ⟨_, rfl, h⟩

theorem rel_some_right {α β : Type} {r : α → β → Prop} {x : Option α} {b : β} (h : Option.Rel r x (some b)) : ∃ a, x = some a ∧ r a b := by
  cases h with
  | some h => exact ⟨_, rfl, h⟩

theorem SwLine.Left.rel_refl (above : Prop) (x : Option SwLine) : Option.Rel (SwLine.Left above) x x := by
  cases x with
  | none => exact .none
  | some l => exact .some (SwLine.Left.refl above l)

theorem SwLine.Left.rel_trans {above : Prop} {x y z : Option SwLine} (h : Option.Rel (SwLine.Left above) x y) (k : Option.Rel (SwLine.Left above) y z) :
    Option.Rel (SwLine.Left above) x z := by
  cases h with
  | none => exact k
  | some h =>
    obtain ⟨l, rfl, hl⟩ := rel_some_left k
    exact .some (h.trans hl)

section
variable {v : Variant} {ks : List (CacheId × Nat)} {o : Option Nat} {s t u : State} {new more : List WriteBack}

theorem Sends.refl (v : Variant) (ks : List (CacheId × Nat)) (o : Option Nat) (s : State) : Sends v ks o s [] s :=
  ⟨rfl, fun _ => SwLine.Left.rel_refl _ _, fun _ _ _ => rfl, (List.append_nil _).symm, List.nodup_nil, by simp, by simp,
    fun _ l hl _ _ hd => .inl ⟨l, hl, hd⟩⟩

/-- A line that has been sent is not sent again: it has no dirty byte any more. -/
theorem Sends.disjoint (h : Sends v ks o s new t) (k : Sends v ks o t more u) {wb wb' : WriteBack} (hwb : wb ∈ new) (hwb' : wb' ∈ more) :
    (wb.src, wb.line) ≠ (wb'.src, wb'.line) := fun e => by
  obtain ⟨j, -, l, hl, hmakes⟩ := k.made wb' hwb'
  obtain ⟨hcache, hline⟩ := State.swLine_names hl
  obtain ⟨hsrc, hn⟩ := Prod.mk.inj e
  exact hmakes.dirty_ne_zero (h.clean wb hwb j l (by rw [hsrc, hmakes.src, hcache]) (by rw [hn, hmakes.line, hline]) hl)

theorem Sends.trans (h : Sends v ks o s new t) (k : Sends v ks o t more u) : Sends v ks o s (new ++ more) u := by
  refine ⟨by rw [k.frame, h.frame], fun j => SwLine.Left.rel_trans (h.lines j) (k.lines j), fun j hj hno => (k.rest j hj hno).trans (h.rest j hj hno),
    by rw [k.writeBacks, h.writeBacks, List.append_assoc], ?_, fun wb hwb => ?_, fun wb hwb j l hsrc hline hl => ?_, fun j l hl i hi hd => ?_⟩
  · rw [List.map_append, List.nodup_append]
    refine ⟨h.nodup, k.nodup, fun x hx y hy => ?_⟩
    obtain ⟨wb, hwb, rfl⟩ := List.mem_map.mp hx
    obtain ⟨wb', hwb', rfl⟩ := List.mem_map.mp hy
    exact h.disjoint k hwb hwb'
  · rcases List.mem_append.mp hwb with hwb | hwb
    · exact h.made wb hwb
    · obtain ⟨j, hj, l', hl', hmakes⟩ := k.made wb hwb
      obtain ⟨l, hl, hleft⟩ := rel_some_right (hl' ▸ h.lines j)
      exact ⟨j, hj, l, hl, hleft.makes hmakes⟩
  · rcases List.mem_append.mp hwb with hwb | hwb
    · obtain ⟨l', hl', hleft⟩ := rel_some_right (hl ▸ k.lines j)
      exact hleft.clean (h.clean wb hwb j l' hsrc hline hl')
    · exact k.clean wb hwb j l hsrc hline hl
  · have weaken {p : WriteBack → Prop} {l : List WriteBack} (hsub : ∀ wb ∈ l, wb ∈ new ++ more) (hex : ∃ wb ∈ l, p wb) : ∃ wb ∈ new ++ more, p wb :=
      hex.imp fun wb hp => ⟨hsub wb hp.1, hp.2⟩
    rcases h.all j l hl i hi hd with ⟨l', hl', hd'⟩ | hsent
    · exact (k.all j l' hl' i hi hd').imp id (weaken fun wb hwb => List.mem_append_right new hwb)
    · exact .inr (weaken (fun wb hwb => List.mem_append_left more hwb) hsent)

end

/-- The turn of one covered line. -/
theorem State.sendBack_sends {s : State} {ks : List (CacheId × Nat)} {k : CacheId × Nat} (hk : k ∈ ks) (o : Option Nat) :
    ∃ new, Sends s.variant ks o s new (s.sendBack o k) := by
  cases hl : s.swLine k.1 k.2 with
  | none => exact ⟨[], by rw [State.sendBack, hl]; exact Sends.refl _ ks o s⟩
  | some l =>
    by_cases hd : l.dirty = 0
    · exact ⟨[], by rw [State.sendBack, hl]; simp only [hd, if_true]; exact Sends.refl _ ks o s⟩
    · have heq := State.sendBack_eq hl hd o
      have hlines := State.swLine_sendBack hl hd o
      obtain ⟨hcache, hline⟩ := State.swLine_names hl
      refine ⟨[l.writeBack o], by rw [heq]; rfl, fun j => ?_, fun j hj hno => ?_, by rw [heq]; rfl, List.nodup_singleton _, fun wb hwb => ?_,
        fun wb hwb j l' hsrc hn hl' => ?_, fun j x hx i hi hdi => ?_⟩
      · rw [hlines]
        split
        · next hj =>
          subst hj
          rw [hl]
          exact .some (l.left_sent _)
        · split
          · next hbelow =>
            cases s.swLine j.1 j.2 with
            | none => exact .none
            | some x => exact .some (SwLine.left_take ⟨k, hk, hbelow.1.symm, hbelow.2⟩ x l)
          · exact SwLine.Left.rel_refl _ _
      · rw [hlines, if_neg (fun e : j = k => hj (e ▸ hk)), if_neg (fun hbelow => hno ⟨k, hk, hbelow.1.symm, hbelow.2⟩)]
      · rw [List.mem_singleton.mp hwb]
        exact ⟨k, hk, l, hl, SwLine.makes_writeBack o hd⟩
      · rw [List.mem_singleton.mp hwb] at hsrc hn
        have hj : j = k := Prod.ext ((Option.some.inj hsrc).symm.trans hcache) (hn.symm.trans hline)
        rw [hlines, if_pos hj] at hl'
        exact (congrArg SwLine.dirty (Option.some.inj hl')).symm
      · have hsent : l.dirty.getLsbD i = true → j.2 = k.2 → (j = k ∨ j.1 ∈ k.1.wayDown s.variant (128 * k.2)) →
            ∃ wb ∈ [l.writeBack o], wb.line = j.2 ∧ wb.mask.getLsbD i = true ∧
              (wb.src = some j.1 ∨ ∃ k' ∈ ks, k'.2 = j.2 ∧ wb.src = some k'.1 ∧ j.1 ∈ k'.1.wayDown s.variant (128 * k'.2)) := fun hbit hn how => by
          refine ⟨_, List.mem_singleton_self _, hline.trans hn.symm, hbit, how.imp (fun e => ?_) fun hbelow => ⟨k, hk, hn.symm, ?_, hbelow⟩⟩
          · rw [e]
            exact congrArg some hcache
          · exact congrArg some hcache
        rw [hlines]
        split
        · next hj =>
          subst hj
          rw [hl] at hx
          cases hx
          exact .inr (hsent hdi rfl (.inl rfl))
        · split
          · next hbelow =>
            by_cases hbit : l.dirty.getLsbD i = true
            · exact .inr (hsent hbit hbelow.1 (.inr hbelow.2))
            · rw [hx]
              exact .inl ⟨x.take l, rfl, by rw [SwLine.take_dirty hi, hdi, Bool.eq_false_of_not_eq_true hbit]; rfl⟩
          · exact .inl ⟨x, hx, hdi⟩

/-- After its turn a covered line is clean. -/
theorem State.sendBack_clean {s : State} {k : CacheId × Nat} {o : Option Nat} {l : SwLine} (h : (s.sendBack o k).swLine k.1 k.2 = some l) : l.dirty = 0 := by
  cases hl : s.swLine k.1 k.2 with
  | none =>
    rw [State.sendBack, hl] at h
    rw [hl] at h
    cases h
  | some x =>
    by_cases hd : x.dirty = 0
    · rw [State.sendBack, hl] at h
      simp only [hd, if_true, hl, Option.some.injEq] at h
      rw [← h, hd]
    · rw [State.swLine_sendBack hl hd, if_pos rfl] at h
      exact (congrArg SwLine.dirty (Option.some.inj h)).symm

/-- Every line of `js` has its turn, and all of them are clean in the end. -/
theorem State.sendBacks_sends {ks : List (CacheId × Nat)} : ∀ (js : List (CacheId × Nat)) (s : State), (∀ k ∈ js, k ∈ ks) →
    (∃ new, Sends s.variant ks (some s.ctx.ctxid.toNat) s new (js.foldl (fun s k => s.sendBack (some s.ctx.ctxid.toNat) k) s)) ∧
      ∀ k ∈ js, ∀ l, (js.foldl (fun s k => s.sendBack (some s.ctx.ctxid.toNat) k) s).swLine k.1 k.2 = some l → l.dirty = 0
  | [], s, _ => ⟨⟨[], Sends.refl _ ks _ s⟩, by simp⟩
  | k :: js, s, h => by
    obtain ⟨hk, hjs⟩ := List.forall_mem_cons.mp h
    obtain ⟨new, hfirst⟩ := s.sendBack_sends hk (some s.ctx.ctxid.toNat)
    obtain ⟨⟨more, hrest⟩, hclean⟩ := State.sendBacks_sends js (s.sendBack (some s.ctx.ctxid.toNat) k) hjs
    have hvariant : (s.sendBack (some s.ctx.ctxid.toNat) k).variant = s.variant := by rw [hfirst.frame]
    have hctx : (s.sendBack (some s.ctx.ctxid.toNat) k).ctx = s.ctx := by rw [hfirst.frame]
    rw [hvariant, hctx] at hrest
    refine ⟨⟨new ++ more, hfirst.trans hrest⟩, List.forall_mem_cons.mpr ⟨fun l hl => ?_, hclean⟩⟩
    obtain ⟨l', hl', hleft⟩ := rel_some_right (hl ▸ hrest.lines k)
    exact hleft.clean (State.sendBack_clean hl')

section
variable {v : Variant} {ks : List (CacheId × Nat)} {o : Option Nat} {s t : State} {new : List WriteBack} (h : Sends v ks o s new t)
  (hclean : ∀ k ∈ ks, ∀ l, t.swLine k.1 k.2 = some l → l.dirty = 0) {k : CacheId × Nat} (hk : k ∈ ks) {l : SwLine} (hl : s.swLine k.1 k.2 = some l)
include h hclean hk hl

/-- A covered line stays in its cache, clean. -/
theorem Sends.covered : ∃ l', t.swLine k.1 k.2 = some l' ∧ l'.dirty = 0 ∧ l.Left (CoveredAbove v ks k) l' := by
  obtain ⟨l', hl', hleft⟩ := rel_some_left (hl ▸ h.lines k)
  exact ⟨l', hl', hclean k hk l' hl', hleft⟩

/-- Each of its dirty bytes is on its way home, in a write-back of its own or of a covered copy above it. -/
theorem Sends.byte_sent {i : Nat} (hi : i < 128) (hd : l.dirty.getLsbD i = true) : ∃ wb ∈ new, wb.line = l.line ∧ wb.mask.getLsbD i = true ∧
    (wb.src = some l.cache ∨ ∃ k' ∈ ks, k'.2 = k.2 ∧ wb.src = some k'.1 ∧ k.1 ∈ k'.1.wayDown v (128 * k'.2)) := by
  obtain ⟨hcache, hline⟩ := State.swLine_names hl
  rw [hcache, hline]
  refine (h.all k l hl i hi hd).resolve_left fun ⟨l', hl', hd'⟩ => ?_
  rw [hclean k hk l' hl'] at hd'
  simp at hd'

end

/-! ### Covered lines made stale one after the other -/

/-- Making a line stale changes the cached lines alone. -/
theorem State.markStale_eq (s : State) (k : CacheId × Nat) : s.markStale k = { s with swLines := (s.markStale k).swLines } := by
  unfold State.markStale
  split <;> rfl

theorem State.swLine_markStale (s : State) (k j : CacheId × Nat) :
    (s.markStale k).swLine j.1 j.2 = if j = k then (s.swLine j.1 j.2).map (fun l => { l with stale := true }) else s.swLine j.1 j.2 := by
  cases hl : s.swLine k.1 k.2 with
  | none =>
    rw [State.markStale, hl]
    dsimp only
    split
    · next hj => rw [hj, hl, Option.map_none]
    · rfl
  | some l =>
    obtain ⟨hcache, hline⟩ := State.swLine_names hl
    rw [State.markStale, hl]
    dsimp only
    rw [State.swLine_putSw]
    by_cases hj : j = k
    · subst hj
      rw [if_pos ⟨hcache, hline⟩, if_pos rfl, hl, Option.map_some]
    · rw [if_neg (fun e => hj (Prod.ext (e.1.symm.trans hcache) (e.2.symm.trans hline))), if_neg hj]

theorem State.markStales_eq : ∀ (ks : List (CacheId × Nat)) (s : State), ks.foldl State.markStale s = { s with swLines := (ks.foldl State.markStale s).swLines }
  | [], _ => rfl
  | k :: ks, s => by
    rw [List.foldl_cons, State.markStales_eq ks (s.markStale k), State.markStale_eq s k]

/-- The lines of the list are stale, and no other changes. -/
theorem State.swLine_markStales (j : CacheId × Nat) : ∀ (ks : List (CacheId × Nat)) (s : State), (ks.foldl State.markStale s).swLine j.1 j.2 =
    if j ∈ ks then (s.swLine j.1 j.2).map (fun l => { l with stale := true }) else s.swLine j.1 j.2
  | [], s => by rw [List.foldl_nil, if_neg List.not_mem_nil]
  | k :: ks, s => by
    rw [List.foldl_cons, State.swLine_markStales j ks, State.swLine_markStale]
    by_cases hj : j = k <;> by_cases hks : j ∈ ks <;> simp [hj, hks, Option.map_map, Function.comp_def]

/-! ### The lines of a range (R230) -/

/-- The lines that a range covers, none where it is empty. -/
def State.rangeLines (s : State) (x y : Word) : List (CacheId × Nat) := if y = 0 then [] else s.coveredLines s.src x.toNat y.toNat

section
variable (s : State) (x y : Word)

theorem Word.toNat_eq_zero {y : Word} : y.toNat = 0 ↔ y = 0 := BitVec.toNat_inj (y := 0#64)

theorem State.cwb_eq : s.cwb x.toNat y.toNat = (s.rangeLines x y).foldl (fun s k => s.sendBack (some s.ctx.ctxid.toNat) k) s := by
  simp only [State.cwb, State.rangeLines, Word.toNat_eq_zero]
  split <;> rfl

theorem State.cinv_eq : s.cinv x.toNat y.toNat = (s.rangeLines x y).foldl State.markStale s := by
  simp only [State.cinv, State.rangeLines, Word.toNat_eq_zero]
  split <;> rfl

theorem State.cflush_eq : s.cflush x.toNat y.toNat = (s.rangeLines x y).foldl State.markStale (s.cwb x.toNat y.toNat) := by
  simp only [State.cflush, State.cwb, State.rangeLines, Word.toNat_eq_zero]
  split <;> rfl

theorem State.cwb_sends : (∃ new, Sends s.variant (s.rangeLines x y) (some s.ctx.ctxid.toNat) s new (s.cwb x.toNat y.toNat)) ∧
    ∀ k ∈ s.rangeLines x y, ∀ l, (s.cwb x.toNat y.toNat).swLine k.1 k.2 = some l → l.dirty = 0 := by
  rw [s.cwb_eq]
  exact State.sendBacks_sends _ s fun _ hk => hk

end

section
variable {s : State} {a b : Opnd} {x y : Word} (h : s.Delivers [a, b] [x, y])
include h

theorem checkRange_eq : checkRange a b .none s = trapIf (2 ^ 56 < x.toNat + y.toNat) 0x09 x := by
  have hopnds : checkSrcs [a, b] .none s = .go := h.checkOpnds rfl
  simp only [checkRange, hopnds, Verdict.go_andThen, withPeek, h.peek_first, h.peek_second]

theorem rangeOp_within (hin : x.toNat + y.toNat ≤ 2 ^ 56) (f : State → Nat → Nat → State) :
    rangeOp a b f s = .next (f (s.reading [a, b]) x.toNat y.toNat) := by
  obtain ⟨hx, hy⟩ := List.cons.inj h.values
  rw [rangeOp, gated_go ((checkRange_eq h).trans (trapIf_neg (Nat.not_lt.mpr hin) _ _)), ← hx, ← (List.cons.inj hy).1]
  rfl

theorem rangeOp_beyond (hout : 2 ^ 56 < x.toNat + y.toNat) (f : State → Nat → Nat → State) : rangeOp a b f s = .next (s.takeTrap 0x09 x) :=
  gated_trap ((checkRange_eq h).trans (trapIf_pos hout _ _)) _ s

end

/-! ### The instructions -/

/-- Settles O18: a fence maps or merges write-backs, and each cache operation goes through its covered lines one by one. -/
theorem fencesAndCacheOps : Obligations.FencesAndCacheOps := by
  unfold Obligations.FencesAndCacheOps
  intro s a b x y hsrc mine bare
  refine ⟨?_, fun scope hscope => ?_, fun h hin => ?_,
    fun h hout => ⟨rangeOp_beyond h hout _, rangeOp_beyond h hout _, rangeOp_beyond h hout _⟩⟩
  · refine ⟨_, exec_fence_die s, rfl, ?_, fun i wb wb' hi hi' => ?_, fun wb i hwb hmine hkey hlt hmask => s.seenByte_shown hwb hmine hkey hlt hmask⟩
    · show (s.writeBacks.map s.shown).map bare = s.writeBacks.map bare
      rw [List.map_map]
      refine List.map_congr_left fun wb _ => ?_
      obtain ⟨f, hf, -⟩ := s.shown_eq wb
      rw [Function.comp_apply, hf]
    · obtain ⟨f, hf, hdies⟩ := s.shown_eq wb
      have hwb' : s.shown wb = wb' := by
        have hmap : (s.writeBacks.map s.shown)[i]? = some wb' := hi'
        rwa [List.getElem?_map, hi, Option.map_some, Option.some.injEq] at hmap
      rw [← hwb', hf]
      exact hdies
  · obtain ⟨p, hexec, hp, hwidest⟩ := exec_fence_merge s hscope
    obtain ⟨hseq, hpend, hcells⟩ := (s.mergeWhere_onlyMemory p).sameSequencer
    obtain ⟨hlines, hctxs⟩ := s.mergeWhere_homeMoves p
    have hkept : ∀ wb ∈ (s.mergeWhere p).writeBacks, wb ∈ s.writeBacks ∧ p wb = false := (splitMerge_mem s.writeBacks).2
    refine ⟨_, hexec, fun wb hwb => ⟨(hkept wb hwb).1, hp wb (hkept wb hwb).2⟩, fun h2 wb hwb => ?_, fun hnone => State.mergeWhere_none hnone p,
      hseq, hpend, hcells, hlines, fun hz he => ?_⟩
    · rw [← hwidest h2]
      exact (hkept wb hwb).2
    · obtain ⟨-, hctx, hothers⟩ := hctxs hz
      exact ⟨hctx, hothers, State.mergeWhere_bytesBut hz he p⟩
  · intro r lines same below holds sent clean
    have hread : SameButStreams s r := State.takeAll_same [a, b] s
    obtain ⟨q, d, e, hr⟩ := hread.eq_setCtx
    have hlines : r.rangeLines x y = lines := by
      simp only [State.rangeLines, hread.src]
      rfl
    have hswLine (c : CacheId) (n : Nat) : r.swLine c n = s.swLine c n := by rw [hr]; rfl
    have hwriteBacks : r.writeBacks = s.writeBacks := by rw [hr]; rfl
    have hctxid : r.ctx.ctxid = s.ctx.ctxid := by rw [hr]; rfl
    obtain ⟨⟨new, hsends⟩, hsentClean⟩ := r.cwb_sends x y
    have hcinv := r.cinv_eq x y
    have hcflush := r.cflush_eq x y
    rw [hlines] at hsends hsentClean hcinv hcflush
    rw [hread.variant, hctxid] at hsends
    have hsent (t : State) (ht : t.writeBacks = (r.cwb x.toNat y.toNat).writeBacks) : sent t := by
      refine ⟨new, by rw [ht, hsends.writeBacks, hwriteBacks], hsends.nodup, fun wb hwb => ?_, fun k hk l hl i hi hd => ?_⟩
      · obtain ⟨k, hk, l, hl, hm⟩ := hsends.made wb hwb
        exact ⟨k, hk, l, (hswLine _ _).symm.trans hl, hm.src, hm.line, hm.key, hm.serves, hm.fenced, hm.owner, hm.mask, hm.bytes⟩
      · exact hsends.byte_sent hsentClean hk ((hswLine _ _).trans hl) hi hd
    have hclean (t : State) (stale : Bool) (ht : ∀ k : CacheId × Nat, t.swLine k.1 k.2 =
        if k ∈ lines then ((r.cwb x.toNat y.toNat).swLine k.1 k.2).map (fun l => { l with stale := stale || l.stale })
        else (r.cwb x.toNat y.toNat).swLine k.1 k.2) : clean t stale := by
      refine ⟨fun k hk l hl => ?_, fun k hk hno => ?_⟩
      · obtain ⟨l', hl', hd, hleft⟩ := hsends.covered hsentClean hk ((hswLine _ _).trans hl)
        refine ⟨{ l' with stale := stale || l'.stale }, by rw [ht, if_pos hk, hl']; rfl, hd, congrArg (stale || ·) hleft.stale, hleft.key, hleft.serves,
          fun hno => hleft.data ?_⟩
        rintro ⟨k', hk', hn, hbelow⟩
        exact hno k' hk' hn hbelow
      · rw [ht, if_neg hk, hsends.rest k hk (fun ⟨k', hk', hn, hbelow⟩ => hno k' hk' hn hbelow), hswLine]
    have hstale := State.markStales_eq lines
    refine ⟨⟨_, rangeOp_within h hin State.cwb, hsends.frame, hsent _ rfl, hclean _ false fun k => ?_⟩,
      ⟨_, rangeOp_within h hin State.cinv, ?_, ?_, fun k hk l hl => ?_, fun k hk => ?_⟩,
      ⟨_, rangeOp_within h hin State.cflush, ?_, hsent _ ?_, hclean _ true fun k => ?_⟩⟩
    · rw [show (fun l : SwLine => { l with stale := false || l.stale }) = id from rfl, Option.map_id, id, ite_self]
    · show r.cinv x.toNat y.toNat = _
      rw [hcinv, hstale]
    · rw [hcinv, hstale, hwriteBacks]
    · rw [hcinv, State.swLine_markStales, if_pos hk, hswLine, hl, Option.map_some]
    · rw [hcinv, State.swLine_markStales, if_neg hk, hswLine]
    · show r.cflush x.toNat y.toNat = _
      rw [hcflush, hstale, hsends.frame]
    · rw [hcflush, hstale]
    · rw [hcflush, State.swLine_markStales]
      rfl

end Sys2Proof.Machine
end
